-- ==== Sys2Proof/Word.lean ====
section
/-! DEFINITION. The word types of the hardware, and maps held as plain sorted lists. -/

namespace Sys2Proof

/-- A 32-bit register word (R45). -/
abbrev Word := BitVec 32

/-- A byte of memory, the smallest addressable unit (R3, R92). -/
abbrev Byte := BitVec 8

/-- A 64-bit word: two registers, low word first (R47). -/
abbrev Dword := BitVec 64

/-- A sparse map from numbers: keys strictly ascending, at most one entry a key. -/
abbrev Assoc (α : Type) := List (Nat × α)

end Sys2Proof
end

