-- ==== Sys2Proof/Syntax.lean ====
section
/-! DEFINITION. The instructions: one constructor for each row of the opcode table. Arguments of an encoded
instruction are its fields in ascending bit position, as the fields stand in the word (an offset or an immediate is
not yet sign-extended). The rows without a word are the machine's events; their arguments say which unit acts. -/

namespace Sys2Proof

/-- The IALU operations of the near-bank subset (Table 15.14). -/
inductive NbuIalu where | iadd | isub | imin | imax
deriving DecidableEq, Repr

/-- The LOGIC operations of the near-bank subset (Table 15.14: all eight). -/
inductive NbuLogic where | and | or | xor | andn | shl | shr | sar | rot
deriving DecidableEq, Repr

/-- The FALU operations of the near-bank subset (Table 15.14). -/
inductive NbuFalu where | fadd | fsub | fmul | fmin | fmax
deriving DecidableEq, Repr

/-- The FCMP conditions of the near-bank subset (Table 15.14: minors 0 to 6). -/
inductive NbuFcmp where | eq | ne | lt | le | gt | ge | un
deriving DecidableEq, Repr

/-- A copy of device time that the synchronisation check compares (R392). -/
inductive DtCopy where
  | core (n : Nat)
  | slice (n : Nat)
deriving DecidableEq, Repr

/-- How a bring-up step ends (R367, R422). -/
inductive BringUpResult where
  /-- The step succeeds; step 4 reports the modules and the rate it negotiated (Table 29.6). -/
  | success (modules rate : Nat)
  /-- The step fails with a BCODE and the number of the stack or link (Table 34.1). -/
  | failure (code unit : Nat)
deriving DecidableEq, Repr

/-- A register that the host or firmware writes (R5). -/
inductive DevReg where
  /-- A 64-bit field of the page in BAR0 of a function, by its byte offset (Tables 29.2, 29.6, 34.1); function 0 is the PF. -/
  | page (fn offset : Nat)
  /-- SCHEDCTL of a partition (Table 14.2). -/
  | schedctl (part : Nat)
  /-- WATCHCTL of a partition (Table 30.2). -/
  | watchctl (part : Nat)
  /-- DBGCTL of a core (R388). -/
  | dbgctl (core : Nat)
  /-- PTBASE of a stack (Table 13.4). -/
  | ptbase (stack : Nat)
  /-- XWAYS of a stack (Table 13.4). -/
  | xways (stack : Nat)
  /-- PGWAIT of a stack (Table 13.4). -/
  | pgwait (stack : Nat)
  /-- A word of a range entry of a domain (Table 6.1, Table 13.2). -/
  | range (part dom entry : Nat) (word1 : Bool)
  /-- HANDLER of a domain (Table 13.2). -/
  | handler (part dom : Nat)
  /-- An ACL key of a domain (Table 13.2). -/
  | key (part dom i : Nat)
  /-- TCLASS of a domain (Table 13.2). -/
  | tclass (part dom : Nat)
  /-- CSAVE of a domain (Table 13.2). -/
  | csave (part dom : Nat)
  /-- The IA of a partition's eyelet table (R179). -/
  | eyeletIa (part : Nat)
  /-- The entry count of a partition's eyelet table (R179). -/
  | eyeletCount (part : Nat)
  /-- An ownership-table entry of a stack (R175). -/
  | owner (stack page : Nat)
deriving DecidableEq, Repr

/-- The instructions and events of the opcode table. -/
inductive Instr where
  -- The core stream, 32-bit words and the words with literals (R216 to R224).
  /-- `IADD` (R230). Adds two vector registers lane by lane, modulo 2^32. -/
  | iadd (g : Fin 4) (p : Fin 8) (d a b : Fin 64)
  /-- `ISUB` (R230). Subtracts lane by lane, modulo 2^32. -/
  | isub (g : Fin 4) (p : Fin 8) (d a b : Fin 64)
  /-- `IMUL` (R230). Writes the low 32 bits of the product. -/
  | imul (g : Fin 4) (p : Fin 8) (d a b : Fin 64)
  /-- `IMULHS` (R230). Writes the high 32 bits of the signed product. -/
  | imulhs (g : Fin 4) (p : Fin 8) (d a b : Fin 64)
  /-- `IMULHU` (R230). Writes the high 32 bits of the unsigned product. -/
  | imulhu (g : Fin 4) (p : Fin 8) (d a b : Fin 64)
  /-- `IMIN` (R230). Writes the signed minimum. -/
  | imin (g : Fin 4) (p : Fin 8) (d a b : Fin 64)
  /-- `IMAX` (R230). Writes the signed maximum. -/
  | imax (g : Fin 4) (p : Fin 8) (d a b : Fin 64)
  /-- `UMIN` (R230). Writes the unsigned minimum. -/
  | umin (g : Fin 4) (p : Fin 8) (d a b : Fin 64)
  /-- `UMAX` (R231). Writes the unsigned maximum. -/
  | umax (g : Fin 4) (p : Fin 8) (d a b : Fin 64)
  /-- `IADDS` (R231). Adds with signed saturation. -/
  | iadds (g : Fin 4) (p : Fin 8) (d a b : Fin 64)
  /-- `ISUBS` (R231). Subtracts with signed saturation. -/
  | isubs (g : Fin 4) (p : Fin 8) (d a b : Fin 64)
  /-- `IABS` (R231). Writes the saturated absolute value. -/
  | iabs (g : Fin 4) (p : Fin 8) (d a : Fin 64)
  /-- `INEG` (R231). Writes the wrapped negation. -/
  | ineg (g : Fin 4) (p : Fin 8) (d a : Fin 64)
  /-- `POPC` (R231). Counts the 1 bits. -/
  | popc (g : Fin 4) (p : Fin 8) (d a : Fin 64)
  /-- `CLZ` (R231). Counts the leading zero bits. -/
  | clz (g : Fin 4) (p : Fin 8) (d a : Fin 64)
  /-- `BREV` (R231). Reverses the bit order. -/
  | brev (g : Fin 4) (p : Fin 8) (d a : Fin 64)
  /-- `AND` (R232). Bitwise AND. -/
  | and (g : Fin 4) (p : Fin 8) (d a b : Fin 64)
  /-- `OR` (R232). Bitwise OR. -/
  | or (g : Fin 4) (p : Fin 8) (d a b : Fin 64)
  /-- `XOR` (R232). Bitwise exclusive OR. -/
  | xor (g : Fin 4) (p : Fin 8) (d a b : Fin 64)
  /-- `ANDN` (R232). Computes A AND NOT B. -/
  | andn (g : Fin 4) (p : Fin 8) (d a b : Fin 64)
  /-- `SHL` (R232). Shifts left; a count of 32 or more gives 0. -/
  | shl (g : Fin 4) (p : Fin 8) (d a b : Fin 64)
  /-- `SHR` (R232). Shifts right, filling with zeros. -/
  | shr (g : Fin 4) (p : Fin 8) (d a b : Fin 64)
  /-- `SAR` (R232). Shifts right arithmetically. -/
  | sar (g : Fin 4) (p : Fin 8) (d a b : Fin 64)
  /-- `ROT` (R232). Rotates left by n mod 32. -/
  | rot (g : Fin 4) (p : Fin 8) (d a b : Fin 64)
  /-- `BFE` (R233). Extracts an unsigned bit field. -/
  | bfe (g : Fin 4) (p : Fin 8) (d a b : Fin 64)
  /-- `BFES` (R233). Extracts a sign-extended bit field. -/
  | bfes (g : Fin 4) (p : Fin 8) (d a b : Fin 64)
  /-- `BFI` (R233). Inserts a bit field into d. -/
  | bfi (g : Fin 4) (p : Fin 8) (d a b : Fin 64)
  /-- `BMIX` (R234). Assembles each result byte under a 3-bit code. -/
  | bmix (g : Fin 4) (p : Fin 8) (d a b : Fin 64)
  /-- `SEL` (R235). Chooses A or B per lane by the guard predicate. -/
  | sel (g : Fin 4) (p : Fin 8) (d a b : Fin 64)
  /-- `MOV` (R235). Copies a register together with its tag. -/
  | mov (g : Fin 4) (p : Fin 8) (d a : Fin 64)
  /-- `LEA4` (R235). Computes A + 4·B. -/
  | lea4 (g : Fin 4) (p : Fin 8) (d a b : Fin 64)
  /-- `LEA8` (R235). Computes A + 8·B. -/
  | lea8 (g : Fin 4) (p : Fin 8) (d a b : Fin 64)
  /-- `ISETP_EQ` (R236). Integer equality compare into a predicate, with combine. -/
  | isetpEq (g : Fin 4) (p x k : Fin 8) (a b : Fin 64)
  /-- `ISETP_NE` (R236). Integer not-equal compare into a predicate. -/
  | isetpNe (g : Fin 4) (p x k : Fin 8) (a b : Fin 64)
  /-- `ISETP_LT` (R236). Signed less-than compare. -/
  | isetpLt (g : Fin 4) (p x k : Fin 8) (a b : Fin 64)
  /-- `ISETP_LE` (R236). Signed less-or-equal compare. -/
  | isetpLe (g : Fin 4) (p x k : Fin 8) (a b : Fin 64)
  /-- `ISETP_GT` (R236). Signed greater-than compare. -/
  | isetpGt (g : Fin 4) (p x k : Fin 8) (a b : Fin 64)
  /-- `ISETP_GE` (R236). Signed greater-or-equal compare. -/
  | isetpGe (g : Fin 4) (p x k : Fin 8) (a b : Fin 64)
  /-- `ISETP_ULT` (R236). Unsigned less-than compare. -/
  | isetpUlt (g : Fin 4) (p x k : Fin 8) (a b : Fin 64)
  /-- `ISETP_ULE` (R236). Unsigned less-or-equal compare. -/
  | isetpUle (g : Fin 4) (p x k : Fin 8) (a b : Fin 64)
  /-- `FADD` (R243). FP32 addition under FPM.RM. -/
  | fadd (g : Fin 4) (p : Fin 8) (d a b : Fin 64)
  /-- `FSUB` (R243). FP32 subtraction. -/
  | fsub (g : Fin 4) (p : Fin 8) (d a b : Fin 64)
  /-- `FMUL` (R243). FP32 multiplication. -/
  | fmul (g : Fin 4) (p : Fin 8) (d a b : Fin 64)
  /-- `FMIN` (R243). minimumNumber of two FP32 values. -/
  | fmin (g : Fin 4) (p : Fin 8) (d a b : Fin 64)
  /-- `FMAX` (R243). maximumNumber of two FP32 values. -/
  | fmax (g : Fin 4) (p : Fin 8) (d a b : Fin 64)
  /-- `FABS` (R244). Clears the sign bit. -/
  | fabs (g : Fin 4) (p : Fin 8) (d a : Fin 64)
  /-- `FNEG` (R244). Inverts the sign bit. -/
  | fneg (g : Fin 4) (p : Fin 8) (d a : Fin 64)
  /-- `FCPYS` (R244). Copies the sign of B onto A. -/
  | fcpys (g : Fin 4) (p : Fin 8) (d a b : Fin 64)
  /-- `FSETP_EQ` (R245). FP equality compare into a predicate. -/
  | fsetpEq (g : Fin 4) (p x k : Fin 8) (a b : Fin 64)
  /-- `FSETP_NE` (R245). FP not-equal compare. -/
  | fsetpNe (g : Fin 4) (p x k : Fin 8) (a b : Fin 64)
  /-- `FSETP_LT` (R245). FP ordered less-than compare. -/
  | fsetpLt (g : Fin 4) (p x k : Fin 8) (a b : Fin 64)
  /-- `FSETP_LE` (R245). FP ordered less-or-equal compare. -/
  | fsetpLe (g : Fin 4) (p x k : Fin 8) (a b : Fin 64)
  /-- `FSETP_GT` (R245). FP ordered greater-than compare. -/
  | fsetpGt (g : Fin 4) (p x k : Fin 8) (a b : Fin 64)
  /-- `FSETP_GE` (R245). FP ordered greater-or-equal compare. -/
  | fsetpGe (g : Fin 4) (p x k : Fin 8) (a b : Fin 64)
  /-- `FSETP_UN` (R245). True when either operand is NaN. -/
  | fsetpUn (g : Fin 4) (p x k : Fin 8) (a b : Fin 64)
  /-- `FCLASS` (R246). Writes a one-hot class of the FP32 value. -/
  | fclass (g : Fin 4) (p : Fin 8) (d a : Fin 64)
  /-- `FFMA` (R247). Fused multiply-add with a register addend. -/
  | ffma (g : Fin 4) (d a b c : Fin 64)
  /-- `FFMA_L` (R247). Fused multiply-add with a literal-word addend; 8 bytes long. -/
  | ffmaL (g : Fin 4) (d a b : Fin 64) (lit : Word)
  /-- `FFMA_C` (R247). Fused multiply-add with a constant-window addend. -/
  | ffmaC (g : Fin 4) (d a b c : Fin 64)
  /-- `FRCP` (R249). Correctly rounded reciprocal, variable latency. -/
  | frcp (g : Fin 4) (p : Fin 8) (d a : Fin 64)
  /-- `FRSQ` (R249). Correctly rounded reciprocal square root. -/
  | frsq (g : Fin 4) (p : Fin 8) (d a : Fin 64)
  /-- `FSQRT` (R249). Correctly rounded square root. -/
  | fsqrt (g : Fin 4) (p : Fin 8) (d a : Fin 64)
  /-- `FEX2` (R249). Correctly rounded 2^x. -/
  | fex2 (g : Fin 4) (p : Fin 8) (d a : Fin 64)
  /-- `FLG2` (R249). Correctly rounded log2 x. -/
  | flg2 (g : Fin 4) (p : Fin 8) (d a : Fin 64)
  /-- `FSINP` (R249). Correctly rounded sin(πx). -/
  | fsinp (g : Fin 4) (p : Fin 8) (d a : Fin 64)
  /-- `FCOSP` (R249). Correctly rounded cos(πx). -/
  | fcosp (g : Fin 4) (p : Fin 8) (d a : Fin 64)
  /-- `FTANH` (R249). Correctly rounded tanh x. -/
  | ftanh (g : Fin 4) (p : Fin 8) (d a : Fin 64)
  /-- `CVT` (R250). Converts a value, whose format comes from its tag, to the format coded in b. -/
  | cvt (g : Fin 4) (p : Fin 8) (d a f : Fin 64)
  /-- `F2I` (R251). Converts FP32 to an integer format. -/
  | f2i (g : Fin 4) (p : Fin 8) (d a f : Fin 64)
  /-- `I2F` (R251). Converts a signed integer to a floating format. -/
  | i2f (g : Fin 4) (p : Fin 8) (d a f : Fin 64)
  /-- `TAGSET` (R252). Copies the bits and sets the named tag. -/
  | tagset (g : Fin 4) (p : Fin 8) (d a t : Fin 64)
  /-- `TAGGET` (R252). Writes a register's tag as an integer, without waiting. -/
  | tagget (g : Fin 4) (p : Fin 8) (d a : Fin 64)
  /-- `UNPK_LO` (R253). Widens the low half of a packed register. -/
  | unpkLo (g : Fin 4) (p : Fin 8) (d a : Fin 64)
  /-- `UNPK_HI` (R253). Widens the high half of a packed register. -/
  | unpkHi (g : Fin 4) (p : Fin 8) (d a : Fin 64)
  /-- `SCL` (R254). Scales FP32 by 2^n with one rounding. -/
  | scl (g : Fin 4) (p : Fin 8) (d a b : Fin 64)
  /-- `HADD2` (R255). Packed 16-bit FP addition. -/
  | hadd2 (g : Fin 4) (p : Fin 8) (d a b : Fin 64)
  /-- `HMUL2` (R255). Packed 16-bit FP multiplication. -/
  | hmul2 (g : Fin 4) (p : Fin 8) (d a b : Fin 64)
  /-- `HFMA2` (R255). Packed fused multiply-add into d. -/
  | hfma2 (g : Fin 4) (p : Fin 8) (d a b : Fin 64)
  /-- `HMIN2` (R255). Packed minimum. -/
  | hmin2 (g : Fin 4) (p : Fin 8) (d a b : Fin 64)
  /-- `HMAX2` (R255). Packed maximum. -/
  | hmax2 (g : Fin 4) (p : Fin 8) (d a b : Fin 64)
  /-- `DOT2` (R256). Two-element dot product accumulated into d, rounded once. -/
  | dot2 (g : Fin 4) (p : Fin 8) (d a b : Fin 64)
  /-- `DOT4` (R256). Four-element dot product accumulated into d. -/
  | dot4 (g : Fin 4) (p : Fin 8) (d a b : Fin 64)
  /-- `PACK` (R257). Packs element 0 of A and B below the shifted old elements of d. -/
  | pack (g : Fin 4) (p : Fin 8) (d a b : Fin 64)
  /-- `SHFL_IDX` (R273). Reads a from the lane that b names. -/
  | shflIdx (g : Fin 4) (p : Fin 8) (d a b : Fin 64)
  /-- `SHFL_UP` (R273). Reads a from lane l − n. -/
  | shflUp (g : Fin 4) (p : Fin 8) (d a : Fin 64) (n : Fin 32)
  /-- `SHFL_DN` (R273). Reads a from lane l + n. -/
  | shflDn (g : Fin 4) (p : Fin 8) (d a : Fin 64) (n : Fin 32)
  /-- `SHFL_XOR` (R273). Reads a from lane l XOR n. -/
  | shflXor (g : Fin 4) (p : Fin 8) (d a : Fin 64) (n : Fin 32)
  /-- `POLL_SOME` (R274). Sets q when any active lane's predicate is true. -/
  | pollSome (g : Fin 4) (p : Fin 8) (q : Fin 4) (x : Fin 8)
  /-- `POLL_EVERY` (R274). Sets q when every active lane's predicate is true. -/
  | pollEvery (g : Fin 4) (p : Fin 8) (q : Fin 4) (x : Fin 8)
  /-- `POLL_AGREE` (R274). Sets q when all active lanes agree. -/
  | pollAgree (g : Fin 4) (p : Fin 8) (q : Fin 4) (x : Fin 8)
  /-- `POLL_MOST` (R274). Sets q on a strict majority of active lanes. -/
  | pollMost (g : Fin 4) (p : Fin 8) (q : Fin 4) (x : Fin 8)
  /-- `BALLOT` (R274). Writes the mask of active lanes whose predicate is true. -/
  | ballot (g : Fin 4) (p : Fin 8) (d : Fin 64) (x : Fin 8)
  /-- `REDADD_F` (R275). FP32 pairwise-tree sum over the active lanes. -/
  | redaddF (g : Fin 4) (p : Fin 8) (d a : Fin 64)
  /-- `REDADD_I` (R275). Wrapping integer tree sum over the active lanes. -/
  | redaddI (g : Fin 4) (p : Fin 8) (d a : Fin 64)
  /-- `MOVI` (R237). Writes a sign-extended 20-bit immediate to every lane. -/
  | movi (d : Fin 64) (i : Fin 1048576)
  /-- `MOVF` (R248). Writes imm20<<12 as an FP32 pattern. -/
  | movf (d : Fin 64) (i : Fin 1048576)
  /-- `LD_8Z` (R261). Loads a byte, zero-extended. -/
  | ld8z (g : Fin 4) (p : Fin 8) (d a : Fin 64) (n : Fin 32) (r : Bool)
  /-- `LD_8S` (R261). Loads a byte, sign-extended. -/
  | ld8s (g : Fin 4) (p : Fin 8) (d a : Fin 64) (n : Fin 32) (r : Bool)
  /-- `LD_16Z` (R261). Loads a halfword, zero-extended. -/
  | ld16z (g : Fin 4) (p : Fin 8) (d a : Fin 64) (n : Fin 32) (r : Bool)
  /-- `LD_16S` (R261). Loads a halfword, sign-extended. -/
  | ld16s (g : Fin 4) (p : Fin 8) (d a : Fin 64) (n : Fin 32) (r : Bool)
  /-- `LD_32` (R261). Loads a word tagged I32. -/
  | ld32 (g : Fin 4) (p : Fin 8) (d a : Fin 64) (n : Fin 32) (r : Bool)
  /-- `LD_F32` (R261). Loads a word tagged FP32. -/
  | ldF32 (g : Fin 4) (p : Fin 8) (d a : Fin 64) (n : Fin 32) (r : Bool)
  /-- `LD_64` (R261). Loads 8 bytes into a register pair. -/
  | ld64 (g : Fin 4) (p : Fin 8) (d a : Fin 64) (n : Fin 32) (r : Bool)
  /-- `LD_128` (R261). Loads 16 bytes into a register quad. -/
  | ld128 (g : Fin 4) (p : Fin 8) (d a : Fin 64) (n : Fin 32) (r : Bool)
  /-- `ST_8` (R262). Stores a byte. -/
  | st8 (g : Fin 4) (p : Fin 8) (d a : Fin 64) (n : Fin 32)
  /-- `ST_16` (R262). Stores a halfword. -/
  | st16 (g : Fin 4) (p : Fin 8) (d a : Fin 64) (n : Fin 32)
  /-- `ST_32` (R262). Stores a word. -/
  | st32 (g : Fin 4) (p : Fin 8) (d a : Fin 64) (n : Fin 32)
  /-- `ST_64` (R262). Stores a register pair. -/
  | st64 (g : Fin 4) (p : Fin 8) (d a : Fin 64) (n : Fin 32)
  /-- `ST_128` (R262). Stores a register quad. -/
  | st128 (g : Fin 4) (p : Fin 8) (d a : Fin 64) (n : Fin 32)
  /-- `ST_N4` (R264). Stores one nibble element under sub-byte enables. -/
  | stN4 (g : Fin 4) (p : Fin 8) (d a : Fin 64) (n : Fin 32)
  /-- `ST_N2` (R264). Stores one 2-bit element under sub-byte enables. -/
  | stN2 (g : Fin 4) (p : Fin 8) (d a : Fin 64) (n : Fin 32)
  /-- `LDS_32` (R265). Loads a word from a scratchpad window. -/
  | lds32 (g : Fin 4) (p : Fin 8) (d a : Fin 64) (n : Fin 32)
  /-- `LDS_64` (R265). Loads 8 bytes from a scratchpad window. -/
  | lds64 (g : Fin 4) (p : Fin 8) (d a : Fin 64) (n : Fin 32)
  /-- `LDS_128` (R265). Loads 16 bytes from a scratchpad window. -/
  | lds128 (g : Fin 4) (p : Fin 8) (d a : Fin 64) (n : Fin 32)
  /-- `STS_32` (R265). Stores a word to a scratchpad window. -/
  | sts32 (g : Fin 4) (p : Fin 8) (d a : Fin 64) (n : Fin 32)
  /-- `STS_64` (R265). Stores 8 bytes to a scratchpad window. -/
  | sts64 (g : Fin 4) (p : Fin 8) (d a : Fin 64) (n : Fin 32)
  /-- `STS_128` (R265). Stores 16 bytes to a scratchpad window. -/
  | sts128 (g : Fin 4) (p : Fin 8) (d a : Fin 64) (n : Fin 32)
  /-- `LDC` (R266). Loads a constant-bank word into a uniform register. -/
  | ldc (g : Fin 4) (d a : Fin 64) (n : Fin 32)
  /-- `WSET` (R267). Sets a scratchpad window's base and extent. -/
  | wset (g : Fin 4) (w : Fin 16) (n : Fin 32)
  /-- `ATOM_ADD` (R269). Atomic wrapping add with return. -/
  | atomAdd (g : Fin 4) (p : Fin 8) (d a : Fin 64) (n : Fin 32)
  /-- `ATOM_ADDF` (R269). Atomic FP32 add with return. -/
  | atomAddf (g : Fin 4) (p : Fin 8) (d a : Fin 64) (n : Fin 32)
  /-- `ATOM_MIN` (R269). Atomic signed minimum. -/
  | atomMin (g : Fin 4) (p : Fin 8) (d a : Fin 64) (n : Fin 32)
  /-- `ATOM_MAX` (R269). Atomic signed maximum. -/
  | atomMax (g : Fin 4) (p : Fin 8) (d a : Fin 64) (n : Fin 32)
  /-- `ATOM_UMIN` (R269). Atomic unsigned minimum. -/
  | atomUmin (g : Fin 4) (p : Fin 8) (d a : Fin 64) (n : Fin 32)
  /-- `ATOM_UMAX` (R269). Atomic unsigned maximum. -/
  | atomUmax (g : Fin 4) (p : Fin 8) (d a : Fin 64) (n : Fin 32)
  /-- `ATOM_AND` (R269). Atomic AND. -/
  | atomAnd (g : Fin 4) (p : Fin 8) (d a : Fin 64) (n : Fin 32)
  /-- `ATOM_OR` (R269). Atomic OR. -/
  | atomOr (g : Fin 4) (p : Fin 8) (d a : Fin 64) (n : Fin 32)
  /-- `ATOM_XOR` (R269). Atomic XOR. -/
  | atomXor (g : Fin 4) (p : Fin 8) (d a : Fin 64) (n : Fin 32)
  /-- `ATOM_XCHG` (R269). Atomic exchange. -/
  | atomXchg (g : Fin 4) (p : Fin 8) (d a : Fin 64) (n : Fin 32)
  /-- `ATOM_CAS` (R269). Atomic compare and swap. -/
  | atomCas (g : Fin 4) (p : Fin 8) (d a : Fin 64) (n : Fin 32)
  /-- `ATOM_ADDH2` (R269). Atomic packed 16-bit FP add. -/
  | atomAddh2 (g : Fin 4) (p : Fin 8) (d a : Fin 64) (n : Fin 32)
  /-- `RED_ADD` (R270). Return-free wrapping add, optionally near memory. -/
  | redAdd (g : Fin 4) (p : Fin 8) (d a : Fin 64) (n : Fin 32) (k : Bool)
  /-- `RED_ADDF` (R270). Return-free FP32 add. -/
  | redAddf (g : Fin 4) (p : Fin 8) (d a : Fin 64) (n : Fin 32) (k : Bool)
  /-- `RED_MIN` (R270). Return-free signed minimum. -/
  | redMin (g : Fin 4) (p : Fin 8) (d a : Fin 64) (n : Fin 32) (k : Bool)
  /-- `RED_MAX` (R270). Return-free signed maximum. -/
  | redMax (g : Fin 4) (p : Fin 8) (d a : Fin 64) (n : Fin 32) (k : Bool)
  /-- `RED_AND` (R270). Return-free AND. -/
  | redAnd (g : Fin 4) (p : Fin 8) (d a : Fin 64) (n : Fin 32) (k : Bool)
  /-- `RED_OR` (R270). Return-free OR. -/
  | redOr (g : Fin 4) (p : Fin 8) (d a : Fin 64) (n : Fin 32) (k : Bool)
  /-- `RED_XOR` (R270). Return-free XOR. -/
  | redXor (g : Fin 4) (p : Fin 8) (d a : Fin 64) (n : Fin 32) (k : Bool)
  /-- `RED_ADDX` (R270). Return-free saturating FX64 add. -/
  | redAddx (g : Fin 4) (p : Fin 8) (d a : Fin 64) (n : Fin 32) (k : Bool)
  /-- `ILD` (R289). Interpolated lattice read of every channel. -/
  | ild (g : Fin 4) (p : Fin 8) (d a : Fin 64) (s : Fin 16)
  /-- `ILDG` (R289). Lattice read returning value and gradient. -/
  | ildg (g : Fin 4) (p : Fin 8) (d a : Fin 64) (s : Fin 16)
  /-- `ISPL` (R124). Splats values into the read footprint as atomic adds. -/
  | ispl (g : Fin 4) (p : Fin 8) (d a : Fin 64) (s : Fin 16)
  /-- `ISPLG` (R124). Splats incoming gradients with gradient weights. -/
  | isplg (g : Fin 4) (p : Fin 8) (d a : Fin 64) (s : Fin 16)
  /-- `IFETCH` (R290). Reads single elements at integer indices. -/
  | ifetch (g : Fin 4) (p : Fin 8) (d a : Fin 64) (s : Fin 16)
  /-- `IWGT` (R291). Writes the footprint weights and derivatives. -/
  | iwgt (g : Fin 4) (p : Fin 8) (d a : Fin 64) (s : Fin 16)
  /-- `ICELL` (R291). Writes the cell index and fraction. -/
  | icell (g : Fin 4) (p : Fin 8) (d a : Fin 64) (s : Fin 16)
  /-- `ISTX` (R290). Stores converted elements at integer indices. -/
  | istx (g : Fin 4) (p : Fin 8) (d a : Fin 64) (s : Fin 16)
  /-- `PKQ` (R162). Product-key forward query with gather. -/
  | pkq (g : Fin 4) (p : Fin 8) (f : Fin 16) (n : Fin 32)
  /-- `PKQS` (R162). Product-key forward pass from supplied scores. -/
  | pkqs (g : Fin 4) (p : Fin 8) (f : Fin 16) (n : Fin 32)
  /-- `PKB` (R167). Product-key backward pass with row updates. -/
  | pkb (g : Fin 4) (p : Fin 8) (f : Fin 16) (n : Fin 32)
  /-- `PKBQ` (R167). Product-key backward pass without row updates. -/
  | pkbq (g : Fin 4) (p : Fin 8) (f : Fin 16) (n : Fin 32)
  /-- `CPY_G2S` (R296). Copies global memory into a scratchpad window. -/
  | cpyG2s (g : Fin 4) (p : Fin 8) (f : Fin 16) (n : Fin 32)
  /-- `CPY_S2G` (R296). Copies a scratchpad window to global or host memory. -/
  | cpyS2g (g : Fin 4) (p : Fin 8) (f : Fin 16) (n : Fin 32)
  /-- `CPY_S2S` (R296). Copies between scratchpad windows. -/
  | cpyS2s (g : Fin 4) (p : Fin 8) (f : Fin 16) (n : Fin 32)
  /-- `CPY_CMP` (R297). Compacts selected scratchpad words and writes a count. -/
  | cpyCmp (g : Fin 4) (p : Fin 8) (f : Fin 16) (a : Fin 64) (n : Fin 32)
  /-- `NB_LD` (R148). Loads microprogram words into the selected NBUs. -/
  | nbLd (g : Fin 4) (p : Fin 8) (f : Fin 16) (n : Fin 32)
  /-- `NB_RUN` (R149). Starts a microprogram run in each selected bank. -/
  | nbRun (g : Fin 4) (p : Fin 8) (f : Fin 16) (a : Fin 64) (n : Fin 32)
  /-- `NB_GET` (R150). Writes lane 0 of n0–n3 of each selected bank to a window. -/
  | nbGet (g : Fin 4) (p : Fin 8) (f : Fin 16) (n : Fin 32)
  /-- `NB_GET_SUM` (R150). Writes the fixed-tree sum over banks of n0–n3 to a window. -/
  | nbGetSum (g : Fin 4) (p : Fin 8) (f : Fin 16) (n : Fin 32)
  /-- `NB_MODE` (R152). Switches a pseudo-channel between normal and compute mode. -/
  | nbMode (g : Fin 4) (p : Fin 8) (f : Fin 16) (n : Fin 32)
  /-- `COLL` (R299). Starts a collective operation over the Swetafin ports. -/
  | coll (g : Fin 4) (p : Fin 8) (f : Fin 16) (n : Fin 32)
  /-- `SADD` (R239). Uniform wrapping add. -/
  | sadd (g q : Fin 4) (d a b : Fin 64)
  /-- `SSUB` (R239). Uniform wrapping subtract. -/
  | ssub (g q : Fin 4) (d a b : Fin 64)
  /-- `SMUL` (R239). Uniform low product. -/
  | smul (g q : Fin 4) (d a b : Fin 64)
  /-- `SMULHI` (R239). Uniform signed high product. -/
  | smulhi (g q : Fin 4) (d a b : Fin 64)
  /-- `SAND` (R239). Uniform AND. -/
  | sand (g q : Fin 4) (d a b : Fin 64)
  /-- `SOR` (R239). Uniform OR. -/
  | sor (g q : Fin 4) (d a b : Fin 64)
  /-- `SXOR` (R239). Uniform XOR. -/
  | sxor (g q : Fin 4) (d a b : Fin 64)
  /-- `SSHL` (R239). Uniform shift left. -/
  | sshl (g q : Fin 4) (d a b : Fin 64)
  /-- `SSHR` (R239). Uniform logical shift right. -/
  | sshr (g q : Fin 4) (d a b : Fin 64)
  /-- `SSAR` (R239). Uniform arithmetic shift right. -/
  | ssar (g q : Fin 4) (d a b : Fin 64)
  /-- `SMIN` (R239). Uniform signed minimum. -/
  | smin (g q : Fin 4) (d a b : Fin 64)
  /-- `SMAX` (R239). Uniform signed maximum. -/
  | smax (g q : Fin 4) (d a b : Fin 64)
  /-- `SMOV` (R239). Uniform move. -/
  | smov (g q : Fin 4) (d a : Fin 64)
  /-- `SSETP_EQ` (R239). Uniform equality compare into q, with combine. -/
  | ssetpEq (g q x : Fin 4) (k : Fin 8) (a b : Fin 64)
  /-- `SSETP_LT` (R239). Uniform signed less-than compare into q. -/
  | ssetpLt (g q x : Fin 4) (k : Fin 8) (a b : Fin 64)
  /-- `SSETP_ULT` (R239). Uniform unsigned less-than compare into q. -/
  | ssetpUlt (g q x : Fin 4) (k : Fin 8) (a b : Fin 64)
  /-- `SMOVI` (R240). Writes a sign-extended immediate to a uniform register. -/
  | smovi (d : Fin 64) (i : Fin 1048576)
  /-- `BRA` (R277). Per-lane guarded branch that may split strands and part gangs. -/
  | bra (g : Fin 4) (p : Fin 8) (o : Fin 262144)
  /-- `BRA_Q` (R277). Whole-gang branch on a uniform predicate. -/
  | braQ (g q : Fin 4) (o : Fin 262144)
  /-- `CALL` (R277). Writes LR and branches. -/
  | call (g : Fin 4) (o : Fin 262144)
  /-- `JOIN` (R36). Launches or closes the top divergence entry. -/
  | join (g : Fin 4)
  /-- `BRX` (R277). Per-lane register-relative branch. -/
  | brx (g : Fin 4) (p : Fin 8) (r : Fin 64)
  /-- `CALLX` (R277). Per-lane register-relative call. -/
  | callx (g : Fin 4) (p : Fin 8) (r : Fin 64)
  /-- `RET` (R277). Returns to LR. -/
  | ret (g : Fin 4)
  /-- `JTAB` (R277). Per-lane jump through a table entry. -/
  | jtab (g : Fin 4) (p : Fin 8) (r : Fin 64) (t : Fin 4096)
  /-- `BAR_ARR` (R42). Arrives on a barrier without waiting. -/
  | barArr (g : Fin 4) (n : Fin 16)
  /-- `BAR_WAIT` (R42). Waits for the barrier phase of the last arrival. -/
  | barWait (g : Fin 4) (n : Fin 16)
  /-- `BAR_SYNC` (R42). Arrives on a barrier and waits for the phase. -/
  | barSync (g : Fin 4) (n : Fin 16)
  /-- `FENCE_B` (R99). Waits until earlier reads return and writes enter the hoop. -/
  | fenceB (g : Fin 4)
  /-- `FENCE_D` (R99). Device-scope fence waiting for every T and for DT ≥ RH + 4. -/
  | fenceD (g : Fin 4)
  /-- `FENCE_S` (R99). System-scope fence that also drains host-bound writes. -/
  | fenceS (g : Fin 4)
  /-- `WAITF` (R57). Waits until every masked completion flag is zero. -/
  | waitf (g : Fin 4) (m : Fin 4096)
  /-- `REGANG` (R34). Holds strands until all are held, then re-forms one gang. -/
  | regang (g : Fin 4)
  /-- `DEAD` (R58). Marks a range of vector registers dead. -/
  | dead (g : Fin 4) (f : Fin 64) (n : Fin 128)
  /-- `NOP_LONG` (R279). Holds each strand's next issue n further ticks. -/
  | nopLong (g : Fin 4) (n : Fin 65536)
  /-- `LOOP` (R37). Pushes a loop entry counted by a uniform register. -/
  | loop (g : Fin 4) (c : Fin 64) (e : Fin 1024)
  /-- `LOOPI` (R26). Pushes a loop entry with an immediate count. -/
  | loopi (g : Fin 4) (n e : Fin 256)
  /-- `LBRK` (R37). Pops the top loop entry and exits past its end. -/
  | lbrk (g : Fin 4)
  /-- `FBP` (R196). Re-forms the gang and records a flashback point; 12 bytes long. -/
  | fbp (g : Fin 4) (i : Fin 65536) (lo hi : Word)
  /-- `PRET` (R196). Ends a pricking and resumes at the resume PC. -/
  | pret (g : Fin 4)
  /-- `TRAP` (R282). Retires and stops the gang with cause 0x19. -/
  | trap (g : Fin 4) (p : Fin 8) (i : Fin 65536)
  /-- `BRK` (R282). Retires and stops the gang with cause 0x1A. -/
  | brk (g : Fin 4) (p : Fin 8) (i : Fin 65536)
  /-- `GETSR` (R283). Reads a special register. -/
  | getsr (g : Fin 4) (p : Fin 8) (d : Fin 64) (c : Bool) (s : Fin 512)
  /-- `SETSR` (R283). Writes a special register. -/
  | setsr (g : Fin 4) (x : Fin 64) (c : Bool) (s : Fin 512)
  /-- `GCALL` (R180). Saves the caller and enters a gate's callee domain. -/
  | gcall (g : Fin 4) (i : Fin 65536)
  /-- `GRET` (R180). Returns from a gate call, keeping results. -/
  | gret (g : Fin 4)
  /-- `GABORT` (R180). Ends a gate call, scrubbing results and setting s63. -/
  | gabort (g : Fin 4) (i : Fin 65536)
  /-- `SPAWN` (R284). Creates a task from a uniform quad record. -/
  | spawn (g : Fin 4) (n : Fin 64)
  /-- `EXIT` (R40). Ends the active lanes under its guard. -/
  | exit (g : Fin 4) (p : Fin 8)
  /-- `YIELD` (R191). Parks its strand when a polite request is pending. -/
  | yield (g : Fin 4)
  /-- `XRD` (R285). Handler reads state of the stopped group. -/
  | xrd (g : Fin 4) (d : Fin 64) (c : Bool) (x : Fin 64)
  /-- `XWR` (R285). Handler writes state of the stopped group. -/
  | xwr (g : Fin 4) (s : Fin 64) (c : Bool) (x : Fin 64)
  /-- `WLPUSH` (R302). Appends items to a FIFO skein after a device-scope wait. -/
  | wlpush (g : Fin 4) (p : Fin 8) (a : Fin 64) (w : Fin 4)
  /-- `WLPOP` (R303). Takes entries from the front of a skein. -/
  | wlpop (g : Fin 4) (p : Fin 8) (d : Fin 64) (w : Fin 4)
  /-- `WLINS` (R302). Inserts key-value pairs into a priority skein. -/
  | wlins (g : Fin 4) (p : Fin 8) (a : Fin 64) (w : Fin 4)
  /-- `WLCNT` (R303). Returns the number of entries in a skein. -/
  | wlcnt (g : Fin 4) (p : Fin 8) (d : Fin 64) (w : Fin 4)
  /-- `ISECT` (R305). Sorted intersection of two 16-element windows. -/
  | isect (g : Fin 4) (p : Fin 8) (d a b : Fin 64)
  /-- `UNION` (R305). Sorted union of two windows. -/
  | union (g : Fin 4) (p : Fin 8) (d a b : Fin 64)
  /-- `MERGE` (R305). Stable sorted merge of two windows. -/
  | merge (g : Fin 4) (p : Fin 8) (d a b : Fin 64)
  -- The core stream, 16-bit halfwords (R213 to R215).
  /-- `COMPACT_MOV` (R214). Compact mov. -/
  | compactMov (d s : Fin 32)
  /-- `COMPACT_IADD` (R214). Compact iadd d = d + s. -/
  | compactIadd (d s : Fin 32)
  /-- `COMPACT_ISUB` (R214). Compact isub. -/
  | compactIsub (d s : Fin 32)
  /-- `COMPACT_IMUL` (R214). Compact imul. -/
  | compactImul (d s : Fin 32)
  /-- `COMPACT_AND` (R214). Compact and. -/
  | compactAnd (d s : Fin 32)
  /-- `COMPACT_OR` (R214). Compact or. -/
  | compactOr (d s : Fin 32)
  /-- `COMPACT_XOR` (R214). Compact xor. -/
  | compactXor (d s : Fin 32)
  /-- `COMPACT_SHL` (R214). Compact shl. -/
  | compactShl (d s : Fin 32)
  /-- `COMPACT_SHR` (R214). Compact shr. -/
  | compactShr (d s : Fin 32)
  /-- `COMPACT_SAR` (R214). Compact sar. -/
  | compactSar (d s : Fin 32)
  /-- `COMPACT_FADD` (R214). Compact fadd. -/
  | compactFadd (d s : Fin 32)
  /-- `COMPACT_FSUB` (R214). Compact fsub. -/
  | compactFsub (d s : Fin 32)
  /-- `COMPACT_FMUL` (R214). Compact fmul. -/
  | compactFmul (d s : Fin 32)
  /-- `COMPACT_FMIN` (R214). Compact fmin. -/
  | compactFmin (d s : Fin 32)
  /-- `COMPACT_FMAX` (R214). Compact fmax. -/
  | compactFmax (d s : Fin 32)
  /-- `COMPACT_FNEG` (R214). Compact fneg. -/
  | compactFneg (d s : Fin 32)
  /-- `NOP_N` (R215). Holds the strand's next issue n further ticks. -/
  | nopN (n : Fin 32)
  /-- `DEAD2` (R215). Marks one or two vector registers dead. -/
  | dead2 (d s : Fin 32)
  /-- `BRA_S` (R215). Compact branch with a 10-bit offset. -/
  | braS (o : Fin 1024)
  /-- `BAR_S` (R215). Compact bar.sync. -/
  | barS (n : Fin 16)
  /-- `WAITF_S` (R215). Compact waitf over c0–c9. -/
  | waitfS (m : Fin 1024)
  /-- `SADD_S` (R215). Compact uniform add. -/
  | saddS (d s : Fin 32)
  /-- `SMOV_S` (R215). Compact uniform move. -/
  | smovS (d s : Fin 32)
  -- The core stream, 16-bit halfwords without fields.
  /-- `COMPACT_EXIT` (R215). Compact exit. -/
  | compactExit
  /-- `COMPACT_REGANG` (R215). Compact regang. -/
  | compactRegang
  /-- `COMPACT_RET` (R215). Compact ret. -/
  | compactRet
  /-- `COMPACT_BRK` (R215). Compact brk with imm16 0. -/
  | compactBrk
  /-- `COMPACT_YIELD` (R215). Compact yield. -/
  | compactYield
  /-- `JOIN_S` (R215). Compact join. -/
  | joinS
  -- The sequencer stream (R225, R307).
  /-- `MNOP` (R308). Sequencer no-operation. -/
  | mnop
  /-- `MSET` (R308). Sets an m register to a sign-extended immediate. -/
  | mset (d : Fin 16) (i : Fin 2097152)
  /-- `MSET_H` (R308). Sets the high half of an m register. -/
  | msetH (d : Fin 16) (i : Fin 65536)
  /-- `MADD` (R308). 32-bit add of two m registers. -/
  | madd (d a b : Fin 16)
  /-- `MADD_IMM` (R308). 32-bit add of an m register and an immediate. -/
  | maddImm (d a : Fin 16) (i : Fin 65536)
  /-- `MADD_W` (R308). 64-bit add of two m pairs. -/
  | maddW (d a b : Fin 16)
  /-- `MADD_W_IMM` (R308). 64-bit add of an m pair and an immediate. -/
  | maddWImm (d a : Fin 16) (i : Fin 65536)
  /-- `MBNZ` (R308). Optionally decrements and branches while nonzero. -/
  | mbnz (c : Fin 16) (k : Bool) (o : Fin 2097152)
  /-- `MJMP` (R308). Sequencer jump. -/
  | mjmp (o : Fin 67108864)
  /-- `MHALT` (R127). Writes BPTR, waits for every write acknowledgement, then halts the sequencer. -/
  | mhalt
  /-- `TCFG` (R309). Writes TCFG and clears every granted unit. -/
  | tcfg (t : Fin 4) (n c : Bool) (s : Fin 4) (a b : Fin 64)
  /-- `TLD` (R310). Fetches tile rows from memory or a window and pins the lines. -/
  | tld (t : Fin 8) (a : Fin 16) (x : Bool) (w s : Fin 16) (r : Fin 64) (p : Bool)
  /-- `TLDT` (R311). Fetches a tile transposed. -/
  | tldt (t : Fin 8) (a : Fin 16) (x : Bool) (w s : Fin 16) (z : Fin 4)
  /-- `MZERO` (R312). Clears one logical accumulator. -/
  | mzero (n : Fin 32)
  /-- `MMA` (R135). Adds one K-step of two tiles to an accumulator. -/
  | mma (n : Fin 32) (a b : Fin 8)
  /-- `MMAM` (R313). Runs K-steps fetching step-major operands from home slices. -/
  | mmam (n : Fin 32) (a b c : Fin 16)
  /-- `MDRAIN` (R137). Drains an accumulator through scale, bias and activation into memory. -/
  | mdrain (n : Fin 32) (r : Fin 16)
  /-- `MUPD` (R139). Applies an optimizer update from a gradient accumulator. -/
  | mupd (n : Fin 32) (r : Fin 16)
  /-- `BPUSH` (R315). Pushes a tile onto the bobbin stack. -/
  | bpush (t : Fin 8)
  /-- `BPOP` (R315). Pops a bobbin entry into a tile. -/
  | bpop (t : Fin 8)
  /-- `BPOP_T` (R315). Pops a bobbin entry transposed. -/
  | bpopT (t : Fin 8) (z : Fin 4)
  /-- `MBAR_A` (R128). Sequencer arrives on a barrier. -/
  | mbarA (n : Fin 16)
  /-- `MBAR_W` (R128). Sequencer waits on a barrier phase. -/
  | mbarW (n : Fin 16)
  -- The near-bank stream (R226, R318 to R324).
  /-- `NRD` (R321). Reads a column word of the open row into an NBU register. -/
  | nrd (d a : Fin 16) (c : Fin 32) (x : Bool)
  /-- `NWR` (R321). Writes an NBU register to a column word of the open row. -/
  | nwr (d a : Fin 16) (c : Fin 32) (x : Bool)
  /-- `NNEXT` (R322). Closes the visit, advances or holds the row, and ends the run when no rows are left. -/
  | nnext (a : Fin 64) (h : Bool)
  /-- `NIF` (R323). Pushes the top mask ANDed with the lane condition. -/
  | nif
  /-- `NELSE` (R323). Replaces the top mask with the parent AND NOT the top. -/
  | nelse
  /-- `NENDIF` (R323). Pops the mask stack. -/
  | nendif
  /-- `NSUM` (R324). Fixed-tree sum over the enabled lanes. -/
  | nsum (d a : Fin 16) (t : Bool)
  /-- `NEND` (R324). Closes any open row and ends the run. -/
  | nend
  /-- `NBU_IALU` (R319). NBU integer add, subtract, minimum or maximum over the enabled lanes. -/
  | nbuIalu (op : NbuIalu) (d a b : Fin 16)
  /-- `NBU_LOGIC` (R319). NBU logic and shift operations over the enabled lanes. -/
  | nbuLogic (op : NbuLogic) (d a b : Fin 16)
  /-- `NBU_FALU` (R319). NBU FP32 arithmetic, RNE with no flags. -/
  | nbuFalu (op : NbuFalu) (d a b : Fin 16)
  /-- `NBU_FCMP` (R319). NBU FP compare into the lane condition. -/
  | nbuFcmp (op : NbuFcmp) (k : Fin 8) (a b : Fin 16)
  /-- `NBU_FFMA` (R319). NBU fused multiply-add. -/
  | nbuFfma (d a b c : Fin 16)
  /-- `NBU_MOVI` (R319). NBU movi or movf. -/
  | nbuMovi (float : Bool) (d : Fin 16) (i : Fin 1048576)
  -- The events of the machine, which have no word.
  /-- `LAUNCH_WORD` (R185). A launch-register write starts one graph launch. -/
  | launchWord (fn : Nat) (w : BitVec 64)
  /-- `NODE_START` (R185). The launch unit fills the constant bank and slots and assigns a LAUNCHID before the first block. -/
  | nodeStart (launch node : Nat)
  /-- `BLOCK_PLACE` (R187). The dispatcher places a block on a core that it fits. -/
  | blockPlace (part : Nat)
  /-- `SEQUENCER_START` (R126). A context reads its start record and bobbin cell, then begins at its entry. -/
  | sequencerStart (core ctx : Nat)
  /-- `RESERVE_TIMEOUT` (R189). A head node blocked for RESERVE ticks reserves a core. -/
  | reserveTimeout (part : Nat)
  /-- `TASK_STEAL` (R193). An idle core takes a task from its own deque or steals one from another. -/
  | taskSteal (core : Nat)
  /-- `COMPLETION_RECORD_WRITE` (R109). After waiting for every write and its T, the device drops replicas and writes a completion
  record. -/
  | completionRecordWrite (fn : Nat)
  /-- `CQTAIL_WRITE` (R361). The host releases copy-control blocks. -/
  | cqtailWrite (fn : Nat) (v : Word)
  /-- `MQTAIL_WRITE` (R361). The host releases map requests. -/
  | mqtailWrite (fn : Nat) (v : Word)
  /-- `HOST_TO_DEVICE` (R363). Copy-control OP 1 copies host memory into device memory. -/
  | hostToDevice (fn : Nat)
  /-- `DEVICE_TO_HOST` (R363). Copy-control OP 2 copies device memory to the host. -/
  | deviceToHost (fn : Nat)
  /-- `REGISTER_GRAPH` (R184). Copy-control OP 3 checks and registers a task graph and returns a handle. -/
  | registerGraph (fn : Nat)
  /-- `RELEASE_HANDLE` (R363). Copy-control OP 4 frees a handle once its launches complete. -/
  | releaseHandle (fn : Nat)
  /-- `MAP` (R176). The mapping service maps owned pages under covered IAs. -/
  | map (part : Nat)
  /-- `UNMAP` (R177). The mapping service waits for pins, drops copies, clears entries and waits out leases. -/
  | unmap (part : Nat)
  /-- `SET_CLASS` (R176). The mapping service sets pages' replacement class. -/
  | setClass (part : Nat)
  /-- `MARK_NOT_PRESENT` (R176). The mapping service clears P on pages. -/
  | markNotPresent (part : Nat)
  /-- `MARK_PRESENT` (R178). Setting P replays the page's parked accesses in arrival order. -/
  | markPresent (part : Nat)
  /-- `CRHEAD_WRITE` (R361). The host frees completion-ring slots, letting held records be written. -/
  | crheadWrite (fn : Nat) (v : Word)
  /-- `CRTAIL_READ` (R361). Returns only after every counted record has reached host memory. -/
  | crtailRead (fn : Nat)
  /-- `CRBASE_WRITE` (R421). Rewriting CRBASE lets a held record be written. -/
  | crbaseWrite (fn : Nat) (v : BitVec 64)
  /-- `RING_BASE_WRITE` (R421). Rewriting CQBASE or MQBASE resumes reading an overrun ring. -/
  | ringBaseWrite (fn : Nat) (mq : Bool) (v : BitVec 64)
  /-- `PWRCAP_WRITE` (R370). Sets the power cap, ignoring values outside 500–3,600 W. -/
  | pwrcapWrite (v : BitVec 64)
  /-- `DLFW_WRITE` (R171). Writes a link firewall, ignored once LOCK is set. -/
  | dlfwWrite (die peer : Nat) (v : BitVec 64)
  /-- `RCLASS_WRITE` (R87). Writes a replacement-class entry, ignoring forbidden values whole. -/
  | rclassWrite (idx : Nat) (v : Word)
  /-- `ELOGACK_WRITE` (R383). Frees the oldest error-log entries. -/
  | elogackWrite (die : Nat) (v : BitVec 64)
  /-- `REGISTER_WRITE` (R5). A write to any register without behaviour of its own. -/
  | registerWrite (r : DevReg) (v : BitVec 64)
  /-- `PARTITION_SETUP` (R170). Firmware forms a partition, zeroing stacks that change partition. -/
  | partitionSetup (dies : List Nat)
  /-- `VF_BIND` (R359). Binds a VF to one domain of one partition. -/
  | vfBind (fn part dom : Nat)
  /-- `SPDM_MEASUREMENT` (R368). Answers an SPDM measurement request with the signed digest. -/
  | spdmMeasurement (fn : Nat)
  /-- `DOE_IMAGE_WRITE` (R422). The host writes a replacement firmware image for the next reset. -/
  | doeImageWrite (image : BitVec 512) (sig : Bool)
  /-- `PACKAGE_RESET` (R425). Resets everything, sets DT to 0 and reruns bring-up. -/
  | packageReset
  /-- `BRING_UP_STEP` (R367). A bring-up step completes and the next one starts. -/
  | bringUpStep (result : BringUpResult)
  /-- `PARTITION_RESET` (R425). Ends every launch of the partition with STATUS bit 12 and clears caches and leases. -/
  | partitionReset (part : Nat)
  /-- `GROUP_RESET` (R425). Ends one group as under R373. -/
  | groupReset (core slot : Nat)
  /-- `THERMAL_TRIP` (R423). A die at 110 °C stops and its partition is reset. -/
  | thermalTrip (die : Nat)
  /-- `TEMPERATURE_THROTTLE` (R369). Above the throttle temperature, firmware withholds issue slots. -/
  | temperatureThrottle (die temp : Nat)
  /-- `MONITOR_SAMPLE` (R370). Path-delay monitors are sampled every second. -/
  | monitorSample (values : List Word)
  /-- `EOL_PUBLISH` (R370). The predicted end of life is published hourly. -/
  | eolPublish (h lo hi : Word)
  /-- `CORE_FENCE` (R424). Firmware saves a failing core's blocks elsewhere and fences it. -/
  | coreFence (core : Nat) (failed : List Nat)
  /-- `FLIT_REPLAY` (R420). A CRC-damaged flit is replayed. -/
  | flitReplay
  /-- `LINK_RETRAIN` (R420). The host link retrains at the same or a lower rate. -/
  | linkRetrain (rate modules : Nat)
  /-- `LINK_LOST` (R420). Retraining failing for 1 s reports AER, and the port retries each second. -/
  | linkLost
  /-- `SLICE_RETIRE` (R389). Firmware writes back and drops lines, then bumps GEN in every core. -/
  | sliceRetire (slice : Nat)
  /-- `REHASH_RESPONSE` (R389). A request with a stale GEN is resent to its new home. -/
  | rehashResponse (n : Nat)
  /-- `PAGE_RETIRE` (R19). Firmware moves a page to a new physical page under the same IA. -/
  | pageRetire (ia stack pa : Nat)
  /-- `DT_SYNC_CHECK` (R392). Every 4,096 ticks each copy of DT is compared with the reference. -/
  | dtSyncCheck (copy : DtCopy)
  /-- `DT_RELOAD` (R392). An unsynchronised DT copy finishes reloading and logs KIND 6. -/
  | dtReload (copy : DtCopy)
  /-- `DT_UNSYNC_TIMEOUT` (R392). A copy unsynchronised for 2^20 ticks is fenced off. -/
  | dtUnsyncTimeout (copy : DtCopy)
  /-- `HOME_REQUEST` (R94). A request reaches its home slice; writes are performed and given T, and reads are served or granted leases. -/
  | homeRequest (n : Nat) (replica : Bool)
  /-- `LOAD_REPLY` (R56). A variable-latency result lands and marks its register full. -/
  | loadReply (n : Nat)
  /-- `WRITE_ACK` (R94). A write acknowledgement carrying T raises the group's RH. -/
  | writeAck (n : Nat)
  /-- `ERROR_RESPONSE` (R384). An error response poisons lanes, sets the pending store error or marks a flag. -/
  | errorResponse (n : Nat)
  /-- `NM_REDUCTION` (R158). The stack base logic performs a near-memory reduction indivisibly. -/
  | nmReduction (stack : Nat)
  /-- `PAGE_IN_ABANDON` (R391). After 100 ms, parked accesses receive KIND 4 error responses. -/
  | pageInAbandon (ia : Nat)
  /-- `PAGE_IN_SAVE` (R178). A group parked on reads for PGWAIT.LIMIT may be saved. -/
  | pageInSave (core slot : Nat)
  /-- `UNMAP_PIN_TIMEOUT` (R390). Pins held for 2^20 ticks make the unmap save their blocks. -/
  | unmapPinTimeout (part : Nat)
  /-- `REQUEST_TIMEOUT` (R395). A request unanswered for 65,536 ticks receives a KIND 5 error. -/
  | requestTimeout (n : Nat)
  /-- `FIREWALL_DROP` (R395). A flit at a closed link end is dropped, counted and logged. -/
  | firewallDrop (n die peer : Nat)
  /-- `FENCE_COMPLETE` (R99). A fence's conditions hold, so the gang may issue again. -/
  | fenceComplete (core slot gang : Nat)
  /-- `BARRIER_ARRIVAL` (R100). A group's arrival counts once its fence conditions hold. -/
  | barrierArrival (core slot bar : Nat)
  /-- `BARRIER_TIMEOUT` (R377). A group waiting BARTO ticks raises 0x1B. -/
  | barrierTimeout (core slot gang : Nat)
  /-- `ENGINE_COMMAND_COMPLETE` (R111). An engine command completes: RH is raised, granules return and the flag falls. -/
  | engineCommandComplete (n : Nat) (peers : List (List Word)) (tree : List Nat)
  /-- `HANDLER_ENTRY` (R202). The handler slot runs the domain handler for a stopped group. -/
  | handlerEntry (core : Nat)
  /-- `GATE_BUDGET_EXHAUSTED` (R397). A callee's budget running out unwinds the call with s63 0x0001_0001. -/
  | gateBudgetExhausted (core slot : Nat)
  /-- `POLITE_REQUEST` (R198). A pre-emption starts by asking the block's groups to park or exit. -/
  | politeRequest (block : Nat)
  /-- `HARD_STAGE` (R198). POLITE ticks after the request, groups stop and open regions rewind. -/
  | hardStage (block : Nat)
  /-- `CONTEXT_SAVE` (R199). After its waits, the block frame is written, at a place in the CSAVE area that firmware chooses, or it
  cannot be written (R380). -/
  | contextSave (block : Nat) (place : Option Nat)
  /-- `SAVE_REPLY_TIMEOUT` (R379). Replies outstanding 16,384 ticks into a save are saved poisoned. -/
  | saveReplyTimeout (block : Nat)
  /-- `RESTORE` (R200). A saved block is rebuilt on a core that it fits. -/
  | restore (saved core : Nat)
  /-- `THERMAL_MIGRATION` (R201). Firmware pre-empts a block off a hot core and restores it elsewhere. -/
  | thermalMigration (block : Nat)
  /-- `NBU_RESUME` (R153). After serving queued requests, the NBU reopens its row and continues. -/
  | nbuResume (bank : Nat)
  /-- `VISIT_BOUND` (R144). No nnext or nend by visit tick 64 stops the NBU. -/
  | visitBound (bank : Nat)
  /-- `REFRESH_DUE` (R405). A row's refresh falls due and is served. -/
  | refreshDue (bank row : Nat)
  /-- `SUSPENDED_RUN_FLUSH` (R404). After a launch's blocks end, its suspended runs are finished in compute mode. -/
  | suspendedRunFlush (launch : Nat)
  /-- `COLL_TIMEOUT` (R409). A collective incomplete after 2^28 ticks fails with an error mark. -/
  | collTimeout (n : Nat)
  /-- `SWETAFIN_LANE_LOSS` (R19). A Swetafin port continues on its remaining lanes. -/
  | swetafinLaneLoss (port lane : Nat)
  /-- `VF_RELEASE` (R359). The PF releases a VF, ending its binding to a domain of a partition. -/
  | vfRelease (fn : Nat)
  /-- `HOST_WINDOW_SET` (R366). Firmware sets a function's host window (HWVA, HWSIZE, HWHOST) at the PF's request. -/
  | hostWindowSet (fn va size host : Nat)
  /-- `COMMUNICATOR_SETUP` (R298). Firmware sets up a coll communicator (COMM, ranks) at the host's request. -/
  | communicatorSetup (comm p rank : Nat)
  /-- `PEER_PORT_UNREACHABLE` (R409). A collective peer's Swetafin port becomes unreachable, and the outstanding coll fails with an
  error mark at every participant. -/
  | peerPortUnreachable (port : Nat)
  /-- `UNMAP_RETURN` (R177). An unmap returns its status once dt() passes the latest lease on the range plus 4. -/
  | unmapReturn (part : Nat)
deriving DecidableEq, Repr

end Sys2Proof
end

