-- ==== Sys2Proof/WellFormed.lean ====
section
/-! DEFINITION. Which field values an instruction may hold: the checks that give 0x02 in the core stream (R410), a
sequencer fault in the sequencer stream (R416) and a stop in the near-bank stream (R326). -/

namespace Sys2Proof

/-- Combine values 4 to 7 are reserved (R222). -/
def combineOk (k : Fin 8) : Bool := decide (k.val < 4)

/-- A register that names a pair is even (R47). -/
def evenReg {n : Nat} (r : Fin n) : Bool := decide (r.val % 2 = 0)

/-- A register that names a quad is a multiple of 4 (R47). -/
def quadReg {n : Nat} (r : Fin n) : Bool := decide (r.val % 4 = 0)

/-- Base code 31 names the vector pair at a, which is even (R21, R260). -/
def baseOk (n : Fin 32) (a : Fin 64) : Bool := decide (n.val ≠ 31) || evenReg a

/-- Window codes 16 to 31 are reserved (R265). -/
def windowOk (n : Fin 32) : Bool := decide (n.val < 16)

/-- A record or a window pair stands at s(2n) with n from 0 to 30 (R223, R267). -/
def recordOk (n : Fin 32) : Bool := decide (n.val ≤ 30)

/-- Completion flags are c0 to c11 (R223). -/
def flagOk (f : Fin 16) : Bool := decide (f.val < 12)

/-- The destinations that `cvt` accepts (Table 17.3). -/
def cvtOk (f : Fin 64) : Bool :=
  decide (f.val ≤ 0x09 ∨ (0x0D ≤ f.val ∧ f.val ≤ 0x10) ∨ (0x20 ≤ f.val ∧ f.val ≤ 0x3B))

/-- The destinations that `f2i` accepts (R251). -/
def f2iOk (f : Fin 64) : Bool := decide (f.val ≤ 0x01 ∨ (0x05 ≤ f.val ∧ f.val ≤ 0x09))

/-- The destinations that `i2f` accepts (R251). -/
def i2fOk (f : Fin 64) : Bool :=
  decide ((0x02 ≤ f.val ∧ f.val ≤ 0x04) ∨ (0x0D ≤ f.val ∧ f.val ≤ 0x10) ∨ (0x20 ≤ f.val ∧ f.val ≤ 0x3B))

/-- The special-register numbers that Table 4.2 lists. -/
def srListed (s : Fin 512) : Bool := decide (s.val ≤ 15 ∧ s.val ≠ 7)

/-- The fields of `getsr`: a listed number, an even destination for DT and RH (R48), guard 0 for a uniform
destination (Table 19.6). -/
def getsrOk (s : Fin 512) (c : Bool) (d : Fin 64) (p : Fin 8) : Bool :=
  srListed s && (decide (s.val ≠ 6 ∧ s.val ≠ 13) || evenReg d) && (!c || decide (p.val = 0))

/-- The operand class of a format code (Table 10.3): 0 for 8-bit, 1 for 16-bit, 2 for 4-bit, none elsewhere. -/
def operandClass (f : Nat) : Option Nat :=
  if f = 0x07 ∨ f = 0x08 ∨ f = 0x0E ∨ f = 0x0F ∨ (0x20 ≤ f ∧ f ≤ 0x3B) then some 0
  else if f = 0x03 ∨ f = 0x04 then some 1
  else if f = 0x09 ∨ f = 0x10 then some 2 else none

/-- The integer operand formats of Table 10.3. -/
def integerOperand (f : Nat) : Bool := decide (f = 0x07 ∨ f = 0x08 ∨ f = 0x09)

/-- A `tcfg` that meets R130: one class, integer formats with ACC = 1 and SM = 0, floating formats with ACC = 0, and
SM = 1 only for floating formats of the 8-bit and 4-bit classes. -/
def tcfgOk (t : Fin 4) (_n c : Bool) (s : Fin 4) (a b : Fin 64) : Bool :=
  decide (t.val ≠ 3) && decide (s.val ≤ 1) && decide (operandClass a = operandClass b) &&
    decide (operandClass a ≠ none) && (integerOperand a == integerOperand b) && (integerOperand a == c) &&
    (decide (s.val = 0) || (!integerOperand a && decide (operandClass a ≠ some 1)))

/-- The e codes 12 to 15 are sources only (R226). -/
def nbuDest (d : Fin 16) : Bool := decide (d.val ≤ 11)

/-- With X = 0 the column register field is zero (R320). -/
def columnZero (a : Fin 16) : Bool := decide (a.val = 0)

/-- The instruction's fields hold values they may hold. An event has no encoding, so nothing to check. -/
def Instr.wellFormed : Instr → Bool
  | .iadd _ _ _ _ _ => true
  | .isub _ _ _ _ _ => true
  | .imul _ _ _ _ _ => true
  | .imulhs _ _ _ _ _ => true
  | .imulhu _ _ _ _ _ => true
  | .imin _ _ _ _ _ => true
  | .imax _ _ _ _ _ => true
  | .umin _ _ _ _ _ => true
  | .umax _ _ _ _ _ => true
  | .iadds _ _ _ _ _ => true
  | .isubs _ _ _ _ _ => true
  | .iabs _ _ _ _ => true
  | .ineg _ _ _ _ => true
  | .popc _ _ _ _ => true
  | .clz _ _ _ _ => true
  | .brev _ _ _ _ => true
  | .and _ _ _ _ _ => true
  | .or _ _ _ _ _ => true
  | .xor _ _ _ _ _ => true
  | .andn _ _ _ _ _ => true
  | .shl _ _ _ _ _ => true
  | .shr _ _ _ _ _ => true
  | .sar _ _ _ _ _ => true
  | .rot _ _ _ _ _ => true
  | .bfe _ _ _ _ _ => true
  | .bfes _ _ _ _ _ => true
  | .bfi _ _ _ _ _ => true
  | .bmix _ _ _ _ _ => true
  | .sel _ _ _ _ _ => true
  | .mov _ _ _ _ => true
  | .lea4 _ _ _ _ _ => true
  | .lea8 _ _ _ _ _ => true
  | .isetpEq _ _ _ k _ _ => combineOk k
  | .isetpNe _ _ _ k _ _ => combineOk k
  | .isetpLt _ _ _ k _ _ => combineOk k
  | .isetpLe _ _ _ k _ _ => combineOk k
  | .isetpGt _ _ _ k _ _ => combineOk k
  | .isetpGe _ _ _ k _ _ => combineOk k
  | .isetpUlt _ _ _ k _ _ => combineOk k
  | .isetpUle _ _ _ k _ _ => combineOk k
  | .fadd _ _ _ _ _ => true
  | .fsub _ _ _ _ _ => true
  | .fmul _ _ _ _ _ => true
  | .fmin _ _ _ _ _ => true
  | .fmax _ _ _ _ _ => true
  | .fabs _ _ _ _ => true
  | .fneg _ _ _ _ => true
  | .fcpys _ _ _ _ _ => true
  | .fsetpEq _ _ _ k _ _ => combineOk k
  | .fsetpNe _ _ _ k _ _ => combineOk k
  | .fsetpLt _ _ _ k _ _ => combineOk k
  | .fsetpLe _ _ _ k _ _ => combineOk k
  | .fsetpGt _ _ _ k _ _ => combineOk k
  | .fsetpGe _ _ _ k _ _ => combineOk k
  | .fsetpUn _ _ _ k _ _ => combineOk k
  | .fclass _ _ _ _ => true
  | .ffma _ _ _ _ _ => true
  | .ffmaL _ _ _ _ _ => true
  | .ffmaC _ _ _ _ _ => true
  | .frcp _ _ _ _ => true
  | .frsq _ _ _ _ => true
  | .fsqrt _ _ _ _ => true
  | .fex2 _ _ _ _ => true
  | .flg2 _ _ _ _ => true
  | .fsinp _ _ _ _ => true
  | .fcosp _ _ _ _ => true
  | .ftanh _ _ _ _ => true
  | .cvt _ _ _ _ f => cvtOk f
  | .f2i _ _ _ _ f => f2iOk f
  | .i2f _ _ _ _ f => i2fOk f
  | .tagset _ _ _ _ t => decide (t.val ≤ 12)
  | .tagget _ _ _ _ => true
  | .unpkLo _ _ _ _ => true
  | .unpkHi _ _ _ _ => true
  | .scl _ _ _ _ _ => true
  | .hadd2 _ _ _ _ _ => true
  | .hmul2 _ _ _ _ _ => true
  | .hfma2 _ _ _ _ _ => true
  | .hmin2 _ _ _ _ _ => true
  | .hmax2 _ _ _ _ _ => true
  | .dot2 _ _ _ _ _ => true
  | .dot4 _ _ _ _ _ => true
  | .pack _ _ _ _ _ => true
  | .shflIdx _ _ _ _ _ => true
  | .shflUp _ _ _ _ _ => true
  | .shflDn _ _ _ _ _ => true
  | .shflXor _ _ _ _ _ => true
  | .pollSome _ _ _ _ => true
  | .pollEvery _ _ _ _ => true
  | .pollAgree _ _ _ _ => true
  | .pollMost _ _ _ _ => true
  | .ballot _ _ _ _ => true
  | .redaddF _ _ _ _ => true
  | .redaddI _ _ _ _ => true
  | .movi _ _ => true
  | .movf _ _ => true
  | .ld8z _ _ _ a n _ => baseOk n a
  | .ld8s _ _ _ a n _ => baseOk n a
  | .ld16z _ _ _ a n _ => baseOk n a
  | .ld16s _ _ _ a n _ => baseOk n a
  | .ld32 _ _ _ a n _ => baseOk n a
  | .ldF32 _ _ _ a n _ => baseOk n a
  | .ld64 _ _ d a n _ => evenReg d && baseOk n a
  | .ld128 _ _ d a n _ => quadReg d && baseOk n a
  | .st8 _ _ _ a n => baseOk n a
  | .st16 _ _ _ a n => baseOk n a
  | .st32 _ _ _ a n => baseOk n a
  | .st64 _ _ d a n => evenReg d && baseOk n a
  | .st128 _ _ d a n => quadReg d && baseOk n a
  | .stN4 _ _ _ a n => baseOk n a
  | .stN2 _ _ _ a n => baseOk n a
  | .lds32 _ _ _ _ n => windowOk n
  | .lds64 _ _ d _ n => evenReg d && windowOk n
  | .lds128 _ _ d _ n => quadReg d && windowOk n
  | .sts32 _ _ _ _ n => windowOk n
  | .sts64 _ _ d _ n => evenReg d && windowOk n
  | .sts128 _ _ d _ n => quadReg d && windowOk n
  | .ldc _ _ _ _ => true
  | .wset _ _ n => recordOk n
  | .atomAdd _ _ _ a n => baseOk n a
  | .atomAddf _ _ _ a n => baseOk n a
  | .atomMin _ _ _ a n => baseOk n a
  | .atomMax _ _ _ a n => baseOk n a
  | .atomUmin _ _ _ a n => baseOk n a
  | .atomUmax _ _ _ a n => baseOk n a
  | .atomAnd _ _ _ a n => baseOk n a
  | .atomOr _ _ _ a n => baseOk n a
  | .atomXor _ _ _ a n => baseOk n a
  | .atomXchg _ _ _ a n => baseOk n a
  | .atomCas _ _ d a n => evenReg d && baseOk n a
  | .atomAddh2 _ _ _ a n => baseOk n a
  | .redAdd _ _ _ a n _ => baseOk n a
  | .redAddf _ _ _ a n _ => baseOk n a
  | .redMin _ _ _ a n _ => baseOk n a
  | .redMax _ _ _ a n _ => baseOk n a
  | .redAnd _ _ _ a n _ => baseOk n a
  | .redOr _ _ _ a n _ => baseOk n a
  | .redXor _ _ _ a n _ => baseOk n a
  | .redAddx _ _ d a n _ => evenReg d && baseOk n a
  | .ild _ _ _ _ _ => true
  | .ildg _ _ _ _ _ => true
  | .ispl _ _ _ _ _ => true
  | .isplg _ _ _ _ _ => true
  | .ifetch _ _ _ _ _ => true
  | .iwgt _ _ _ _ _ => true
  | .icell _ _ _ _ _ => true
  | .istx _ _ _ _ _ => true
  | .pkq _ _ f n => flagOk f && recordOk n
  | .pkqs _ _ f n => flagOk f && recordOk n
  | .pkb _ _ f n => flagOk f && recordOk n
  | .pkbq _ _ f n => flagOk f && recordOk n
  | .cpyG2s _ _ f n => flagOk f && recordOk n
  | .cpyS2g _ _ f n => flagOk f && recordOk n
  | .cpyS2s _ _ f n => flagOk f && recordOk n
  | .cpyCmp _ _ f _ n => flagOk f && recordOk n
  | .nbLd _ _ f n => flagOk f && recordOk n
  | .nbRun _ _ f _ n => flagOk f && recordOk n
  | .nbGet _ _ f n => flagOk f && recordOk n
  | .nbGetSum _ _ f n => flagOk f && recordOk n
  | .nbMode _ _ f n => flagOk f && recordOk n
  | .coll _ _ f n => flagOk f && recordOk n
  | .sadd _ _ _ _ _ => true
  | .ssub _ _ _ _ _ => true
  | .smul _ _ _ _ _ => true
  | .smulhi _ _ _ _ _ => true
  | .sand _ _ _ _ _ => true
  | .sor _ _ _ _ _ => true
  | .sxor _ _ _ _ _ => true
  | .sshl _ _ _ _ _ => true
  | .sshr _ _ _ _ _ => true
  | .ssar _ _ _ _ _ => true
  | .smin _ _ _ _ _ => true
  | .smax _ _ _ _ _ => true
  | .smov _ _ _ _ => true
  | .ssetpEq _ _ _ k _ _ => combineOk k
  | .ssetpLt _ _ _ k _ _ => combineOk k
  | .ssetpUlt _ _ _ k _ _ => combineOk k
  | .smovi _ _ => true
  | .bra _ _ _ => true
  | .braQ _ _ _ => true
  | .call _ _ => true
  | .join _ => true
  | .brx _ _ _ => true
  | .callx _ _ _ => true
  | .ret _ => true
  | .jtab _ _ _ _ => true
  | .barArr _ _ => true
  | .barWait _ _ => true
  | .barSync _ _ => true
  | .fenceB _ => true
  | .fenceD _ => true
  | .fenceS _ => true
  | .waitf _ _ => true
  | .regang _ => true
  | .dead _ f n => decide (1 ≤ n.val ∧ n.val ≤ 64 ∧ f.val + n.val ≤ 64)
  | .nopLong _ _ => true
  | .loop _ _ _ => true
  | .loopi _ _ _ => true
  | .lbrk _ => true
  | .fbp _ _ _ _ => true
  | .pret _ => true
  | .trap _ _ _ => true
  | .brk _ _ _ => true
  | .getsr _ p d c s => getsrOk s c d p
  | .setsr _ _ _ s => srListed s
  | .gcall _ _ => true
  | .gret _ => true
  | .gabort _ _ => true
  | .spawn _ n => quadReg n && decide (n.val ≤ 60)
  | .exit _ _ => true
  | .yield _ => true
  | .xrd _ _ _ _ => true
  | .xwr _ _ _ _ => true
  | .wlpush _ _ _ _ => true
  | .wlpop _ _ d _ => evenReg d
  | .wlins _ _ a _ => evenReg a
  | .wlcnt _ _ _ _ => true
  | .isect _ _ _ _ _ => true
  | .union _ _ _ _ _ => true
  | .merge _ _ _ _ _ => true
  | .compactMov _ _ => true
  | .compactIadd _ _ => true
  | .compactIsub _ _ => true
  | .compactImul _ _ => true
  | .compactAnd _ _ => true
  | .compactOr _ _ => true
  | .compactXor _ _ => true
  | .compactShl _ _ => true
  | .compactShr _ _ => true
  | .compactSar _ _ => true
  | .compactFadd _ _ => true
  | .compactFsub _ _ => true
  | .compactFmul _ _ => true
  | .compactFmin _ _ => true
  | .compactFmax _ _ => true
  | .compactFneg _ _ => true
  | .nopN _ => true
  | .dead2 _ _ => true
  | .braS _ => true
  | .compactExit => true
  | .barS _ => true
  | .waitfS _ => true
  | .compactRegang => true
  | .compactRet => true
  | .saddS _ _ => true
  | .smovS _ _ => true
  | .compactBrk => true
  | .compactYield => true
  | .joinS => true
  | .mnop => true
  | .mset _ _ => true
  | .msetH _ _ => true
  | .madd _ _ _ => true
  | .maddImm _ _ _ => true
  | .maddW d a b => evenReg d && evenReg a && evenReg b
  | .maddWImm d a _ => evenReg d && evenReg a
  | .mbnz _ _ _ => true
  | .mjmp _ => true
  | .mhalt => true
  | .tcfg t n c s a b => tcfgOk t n c s a b
  | .tld _ a x w s _ p => (x || evenReg a && w.val == 0) && (!p || evenReg s)
  | .tldt _ a x w _ z => (x || evenReg a && w.val == 0) && decide (z.val ≠ 3)
  | .mzero _ => true
  | .mma _ _ _ => true
  | .mmam _ a b _ => evenReg a && evenReg b
  | .mdrain _ r => evenReg r
  | .mupd _ r => evenReg r
  | .bpush _ => true
  | .bpop _ => true
  | .bpopT _ z => decide (z.val ≠ 3)
  | .mbarA _ => true
  | .mbarW _ => true
  | .nrd d a _ x => nbuDest d && (x || columnZero a)
  | .nwr _ a _ x => x || columnZero a
  | .nnext _ _ => true
  | .nif => true
  | .nelse => true
  | .nendif => true
  | .nsum d _ _ => nbuDest d
  | .nend => true
  | .nbuIalu _ d _ _ => nbuDest d
  | .nbuLogic _ d _ _ => nbuDest d
  | .nbuFalu _ d _ _ => nbuDest d
  | .nbuFcmp _ k _ _ => combineOk k
  | .nbuFfma d _ _ _ => nbuDest d
  | .nbuMovi _ d _ => nbuDest d
  | .launchWord _ _ => true
  | .nodeStart _ _ => true
  | .blockPlace _ => true
  | .sequencerStart _ _ => true
  | .reserveTimeout _ => true
  | .taskSteal _ => true
  | .completionRecordWrite _ => true
  | .cqtailWrite _ _ => true
  | .mqtailWrite _ _ => true
  | .hostToDevice _ => true
  | .deviceToHost _ => true
  | .registerGraph _ => true
  | .releaseHandle _ => true
  | .map _ => true
  | .unmap _ => true
  | .setClass _ => true
  | .markNotPresent _ => true
  | .markPresent _ => true
  | .crheadWrite _ _ => true
  | .crtailRead _ => true
  | .crbaseWrite _ _ => true
  | .ringBaseWrite _ _ _ => true
  | .pwrcapWrite _ => true
  | .dlfwWrite _ _ _ => true
  | .rclassWrite _ _ => true
  | .elogackWrite _ _ => true
  | .registerWrite _ _ => true
  | .partitionSetup _ => true
  | .vfBind _ _ _ => true
  | .spdmMeasurement _ => true
  | .doeImageWrite _ _ => true
  | .packageReset => true
  | .bringUpStep _ => true
  | .partitionReset _ => true
  | .groupReset _ _ => true
  | .thermalTrip _ => true
  | .temperatureThrottle _ _ => true
  | .monitorSample _ => true
  | .eolPublish _ _ _ => true
  | .coreFence _ _ => true
  | .flitReplay => true
  | .linkRetrain _ _ => true
  | .linkLost => true
  | .sliceRetire _ => true
  | .rehashResponse _ => true
  | .pageRetire _ _ _ => true
  | .dtSyncCheck _ => true
  | .dtReload _ => true
  | .dtUnsyncTimeout _ => true
  | .homeRequest _ _ => true
  | .loadReply _ => true
  | .writeAck _ => true
  | .errorResponse _ => true
  | .nmReduction _ => true
  | .pageInAbandon _ => true
  | .pageInSave _ _ => true
  | .unmapPinTimeout _ => true
  | .requestTimeout _ => true
  | .firewallDrop _ _ _ => true
  | .fenceComplete _ _ _ => true
  | .barrierArrival _ _ _ => true
  | .barrierTimeout _ _ _ => true
  | .engineCommandComplete _ _ _ => true
  | .handlerEntry _ => true
  | .gateBudgetExhausted _ _ => true
  | .politeRequest _ => true
  | .hardStage _ => true
  | .contextSave _ _ => true
  | .saveReplyTimeout _ => true
  | .restore _ _ => true
  | .thermalMigration _ => true
  | .nbuResume _ => true
  | .visitBound _ => true
  | .refreshDue _ _ => true
  | .suspendedRunFlush _ => true
  | .collTimeout _ => true
  | .swetafinLaneLoss _ _ => true
  | .vfRelease _ => true
  | .hostWindowSet _ _ _ _ => true
  | .communicatorSetup _ _ _ => true
  | .peerPortUnreachable _ => true
  | .unmapReturn _ => true

end Sys2Proof
end

