-- ==== Sys2Proof/Decode.lean ====
section
/-! DEFINITION. The decoders of the three streams, total on any bits, and after them the encoder, both written from the
encoding tables of the spec (Tables 15.3 to 15.14, 21.1, 21.2). A word is a number whose bit 0 is the least significant bit of
the first halfword. -/

namespace Sys2Proof

/-- Why a word is no instruction (R410, R416, R417). -/
inductive DecodeError where
  /-- No instruction has this opcode: cause 0x01 in the core stream. -/
  | illegal
  /-- A field holds a value it may not hold: cause 0x02 in the core stream. -/
  | reserved
  /-- The bytes end inside the instruction. -/
  | short
deriving DecidableEq, Repr

/-- The field of `n` values that begins at bit `lo`. -/
def fld (n : Nat) [NeZero n] (w lo : Nat) : Fin n := Fin.ofNat n (w / 2 ^ lo)

/-- Bit `lo` of a word. -/
def bitAt (w lo : Nat) : Bool := w / 2 ^ lo % 2 == 1

/-- The `k` bits from bit `lo` are zero (R219). -/
def zeros (w lo k : Nat) : Bool := w / 2 ^ lo % 2 ^ k == 0

/-- An instruction whose zero fields are zero. -/
def need (c : Bool) (i : Instr) : Except DecodeError Instr := if c then .ok i else .error .reserved

/-- An instruction whose fields hold values they may hold. -/
def checked : Except DecodeError Instr → Except DecodeError Instr
  | .ok i => if i.wellFormed then .ok i else .error .reserved
  | .error e => .error e

/-- Major 0x00 (Table 15.12). -/
def decodeIalu (w : Nat) : Except DecodeError Instr :=
  match w / 2 ^ 29 % 8 with
  | 0 => .ok (.iadd (fld 4 w 6) (fld 8 w 8) (fld 64 w 11) (fld 64 w 17) (fld 64 w 23))
  | 1 => .ok (.isub (fld 4 w 6) (fld 8 w 8) (fld 64 w 11) (fld 64 w 17) (fld 64 w 23))
  | 2 => .ok (.imul (fld 4 w 6) (fld 8 w 8) (fld 64 w 11) (fld 64 w 17) (fld 64 w 23))
  | 3 => .ok (.imulhs (fld 4 w 6) (fld 8 w 8) (fld 64 w 11) (fld 64 w 17) (fld 64 w 23))
  | 4 => .ok (.imulhu (fld 4 w 6) (fld 8 w 8) (fld 64 w 11) (fld 64 w 17) (fld 64 w 23))
  | 5 => .ok (.imin (fld 4 w 6) (fld 8 w 8) (fld 64 w 11) (fld 64 w 17) (fld 64 w 23))
  | 6 => .ok (.imax (fld 4 w 6) (fld 8 w 8) (fld 64 w 11) (fld 64 w 17) (fld 64 w 23))
  | _ => .ok (.umin (fld 4 w 6) (fld 8 w 8) (fld 64 w 11) (fld 64 w 17) (fld 64 w 23))

/-- Major 0x01 (Table 15.12). -/
def decodeIalu2 (w : Nat) : Except DecodeError Instr :=
  match w / 2 ^ 29 % 8 with
  | 0 => .ok (.umax (fld 4 w 6) (fld 8 w 8) (fld 64 w 11) (fld 64 w 17) (fld 64 w 23))
  | 1 => .ok (.iadds (fld 4 w 6) (fld 8 w 8) (fld 64 w 11) (fld 64 w 17) (fld 64 w 23))
  | 2 => .ok (.isubs (fld 4 w 6) (fld 8 w 8) (fld 64 w 11) (fld 64 w 17) (fld 64 w 23))
  | 3 => need (zeros w 23 6) (.iabs (fld 4 w 6) (fld 8 w 8) (fld 64 w 11) (fld 64 w 17))
  | 4 => need (zeros w 23 6) (.ineg (fld 4 w 6) (fld 8 w 8) (fld 64 w 11) (fld 64 w 17))
  | 5 => need (zeros w 23 6) (.popc (fld 4 w 6) (fld 8 w 8) (fld 64 w 11) (fld 64 w 17))
  | 6 => need (zeros w 23 6) (.clz (fld 4 w 6) (fld 8 w 8) (fld 64 w 11) (fld 64 w 17))
  | _ => need (zeros w 23 6) (.brev (fld 4 w 6) (fld 8 w 8) (fld 64 w 11) (fld 64 w 17))

/-- Major 0x02 (Table 15.12). -/
def decodeLogic (w : Nat) : Except DecodeError Instr :=
  match w / 2 ^ 29 % 8 with
  | 0 => .ok (.and (fld 4 w 6) (fld 8 w 8) (fld 64 w 11) (fld 64 w 17) (fld 64 w 23))
  | 1 => .ok (.or (fld 4 w 6) (fld 8 w 8) (fld 64 w 11) (fld 64 w 17) (fld 64 w 23))
  | 2 => .ok (.xor (fld 4 w 6) (fld 8 w 8) (fld 64 w 11) (fld 64 w 17) (fld 64 w 23))
  | 3 => .ok (.andn (fld 4 w 6) (fld 8 w 8) (fld 64 w 11) (fld 64 w 17) (fld 64 w 23))
  | 4 => .ok (.shl (fld 4 w 6) (fld 8 w 8) (fld 64 w 11) (fld 64 w 17) (fld 64 w 23))
  | 5 => .ok (.shr (fld 4 w 6) (fld 8 w 8) (fld 64 w 11) (fld 64 w 17) (fld 64 w 23))
  | 6 => .ok (.sar (fld 4 w 6) (fld 8 w 8) (fld 64 w 11) (fld 64 w 17) (fld 64 w 23))
  | _ => .ok (.rot (fld 4 w 6) (fld 8 w 8) (fld 64 w 11) (fld 64 w 17) (fld 64 w 23))

/-- Major 0x03 (Table 15.12). -/
def decodeBits (w : Nat) : Except DecodeError Instr :=
  match w / 2 ^ 29 % 8 with
  | 0 => .ok (.bfe (fld 4 w 6) (fld 8 w 8) (fld 64 w 11) (fld 64 w 17) (fld 64 w 23))
  | 1 => .ok (.bfes (fld 4 w 6) (fld 8 w 8) (fld 64 w 11) (fld 64 w 17) (fld 64 w 23))
  | 2 => .ok (.bfi (fld 4 w 6) (fld 8 w 8) (fld 64 w 11) (fld 64 w 17) (fld 64 w 23))
  | 3 => .ok (.bmix (fld 4 w 6) (fld 8 w 8) (fld 64 w 11) (fld 64 w 17) (fld 64 w 23))
  | 4 => .ok (.sel (fld 4 w 6) (fld 8 w 8) (fld 64 w 11) (fld 64 w 17) (fld 64 w 23))
  | 5 => need (zeros w 23 6) (.mov (fld 4 w 6) (fld 8 w 8) (fld 64 w 11) (fld 64 w 17))
  | 6 => .ok (.lea4 (fld 4 w 6) (fld 8 w 8) (fld 64 w 11) (fld 64 w 17) (fld 64 w 23))
  | _ => .ok (.lea8 (fld 4 w 6) (fld 8 w 8) (fld 64 w 11) (fld 64 w 17) (fld 64 w 23))

/-- Major 0x04 (Table 15.12). -/
def decodeIcmp (w : Nat) : Except DecodeError Instr :=
  match w / 2 ^ 29 % 8 with
  | 0 => .ok (.isetpEq (fld 4 w 6) (fld 8 w 8) (fld 8 w 11) (fld 8 w 14) (fld 64 w 17) (fld 64 w 23))
  | 1 => .ok (.isetpNe (fld 4 w 6) (fld 8 w 8) (fld 8 w 11) (fld 8 w 14) (fld 64 w 17) (fld 64 w 23))
  | 2 => .ok (.isetpLt (fld 4 w 6) (fld 8 w 8) (fld 8 w 11) (fld 8 w 14) (fld 64 w 17) (fld 64 w 23))
  | 3 => .ok (.isetpLe (fld 4 w 6) (fld 8 w 8) (fld 8 w 11) (fld 8 w 14) (fld 64 w 17) (fld 64 w 23))
  | 4 => .ok (.isetpGt (fld 4 w 6) (fld 8 w 8) (fld 8 w 11) (fld 8 w 14) (fld 64 w 17) (fld 64 w 23))
  | 5 => .ok (.isetpGe (fld 4 w 6) (fld 8 w 8) (fld 8 w 11) (fld 8 w 14) (fld 64 w 17) (fld 64 w 23))
  | 6 => .ok (.isetpUlt (fld 4 w 6) (fld 8 w 8) (fld 8 w 11) (fld 8 w 14) (fld 64 w 17) (fld 64 w 23))
  | _ => .ok (.isetpUle (fld 4 w 6) (fld 8 w 8) (fld 8 w 11) (fld 8 w 14) (fld 64 w 17) (fld 64 w 23))

/-- Major 0x05 (Table 15.12). -/
def decodeFalu (w : Nat) : Except DecodeError Instr :=
  match w / 2 ^ 29 % 8 with
  | 0 => .ok (.fadd (fld 4 w 6) (fld 8 w 8) (fld 64 w 11) (fld 64 w 17) (fld 64 w 23))
  | 1 => .ok (.fsub (fld 4 w 6) (fld 8 w 8) (fld 64 w 11) (fld 64 w 17) (fld 64 w 23))
  | 2 => .ok (.fmul (fld 4 w 6) (fld 8 w 8) (fld 64 w 11) (fld 64 w 17) (fld 64 w 23))
  | 3 => .ok (.fmin (fld 4 w 6) (fld 8 w 8) (fld 64 w 11) (fld 64 w 17) (fld 64 w 23))
  | 4 => .ok (.fmax (fld 4 w 6) (fld 8 w 8) (fld 64 w 11) (fld 64 w 17) (fld 64 w 23))
  | 5 => need (zeros w 23 6) (.fabs (fld 4 w 6) (fld 8 w 8) (fld 64 w 11) (fld 64 w 17))
  | 6 => need (zeros w 23 6) (.fneg (fld 4 w 6) (fld 8 w 8) (fld 64 w 11) (fld 64 w 17))
  | _ => .ok (.fcpys (fld 4 w 6) (fld 8 w 8) (fld 64 w 11) (fld 64 w 17) (fld 64 w 23))

/-- Major 0x06 (Table 15.12). -/
def decodeFcmp (w : Nat) : Except DecodeError Instr :=
  match w / 2 ^ 29 % 8 with
  | 0 => .ok (.fsetpEq (fld 4 w 6) (fld 8 w 8) (fld 8 w 11) (fld 8 w 14) (fld 64 w 17) (fld 64 w 23))
  | 1 => .ok (.fsetpNe (fld 4 w 6) (fld 8 w 8) (fld 8 w 11) (fld 8 w 14) (fld 64 w 17) (fld 64 w 23))
  | 2 => .ok (.fsetpLt (fld 4 w 6) (fld 8 w 8) (fld 8 w 11) (fld 8 w 14) (fld 64 w 17) (fld 64 w 23))
  | 3 => .ok (.fsetpLe (fld 4 w 6) (fld 8 w 8) (fld 8 w 11) (fld 8 w 14) (fld 64 w 17) (fld 64 w 23))
  | 4 => .ok (.fsetpGt (fld 4 w 6) (fld 8 w 8) (fld 8 w 11) (fld 8 w 14) (fld 64 w 17) (fld 64 w 23))
  | 5 => .ok (.fsetpGe (fld 4 w 6) (fld 8 w 8) (fld 8 w 11) (fld 8 w 14) (fld 64 w 17) (fld 64 w 23))
  | 6 => .ok (.fsetpUn (fld 4 w 6) (fld 8 w 8) (fld 8 w 11) (fld 8 w 14) (fld 64 w 17) (fld 64 w 23))
  | _ => need (zeros w 23 6) (.fclass (fld 4 w 6) (fld 8 w 8) (fld 64 w 11) (fld 64 w 17))

/-- Major 0x07 (Table 15.12). -/
def decodeFfma (w : Nat) : Except DecodeError Instr := .ok (.ffma (fld 4 w 6) (fld 64 w 8) (fld 64 w 14) (fld 64 w 20) (fld 64 w 26))

/-- Major 0x08 (Table 15.12). -/
def decodeFfmaL (w : Nat) : Except DecodeError Instr := need (zeros w 26 6) (.ffmaL (fld 4 w 6) (fld 64 w 8) (fld 64 w 14) (fld 64 w 20)
    (BitVec.ofNat 32 (w / 2 ^ 32)))

/-- Major 0x09 (Table 15.12). -/
def decodeFfmaC (w : Nat) : Except DecodeError Instr := .ok (.ffmaC (fld 4 w 6) (fld 64 w 8) (fld 64 w 14) (fld 64 w 20) (fld 64 w 26))

/-- Major 0x0A (Table 15.12). -/
def decodeFunc (w : Nat) : Except DecodeError Instr :=
  match w / 2 ^ 29 % 8 with
  | 0 => need (zeros w 23 6) (.frcp (fld 4 w 6) (fld 8 w 8) (fld 64 w 11) (fld 64 w 17))
  | 1 => need (zeros w 23 6) (.frsq (fld 4 w 6) (fld 8 w 8) (fld 64 w 11) (fld 64 w 17))
  | 2 => need (zeros w 23 6) (.fsqrt (fld 4 w 6) (fld 8 w 8) (fld 64 w 11) (fld 64 w 17))
  | 3 => need (zeros w 23 6) (.fex2 (fld 4 w 6) (fld 8 w 8) (fld 64 w 11) (fld 64 w 17))
  | 4 => need (zeros w 23 6) (.flg2 (fld 4 w 6) (fld 8 w 8) (fld 64 w 11) (fld 64 w 17))
  | 5 => need (zeros w 23 6) (.fsinp (fld 4 w 6) (fld 8 w 8) (fld 64 w 11) (fld 64 w 17))
  | 6 => need (zeros w 23 6) (.fcosp (fld 4 w 6) (fld 8 w 8) (fld 64 w 11) (fld 64 w 17))
  | _ => need (zeros w 23 6) (.ftanh (fld 4 w 6) (fld 8 w 8) (fld 64 w 11) (fld 64 w 17))

/-- Major 0x0B (Table 15.12). -/
def decodeCvt (w : Nat) : Except DecodeError Instr :=
  match w / 2 ^ 29 % 8 with
  | 0 => .ok (.cvt (fld 4 w 6) (fld 8 w 8) (fld 64 w 11) (fld 64 w 17) (fld 64 w 23))
  | 1 => .ok (.f2i (fld 4 w 6) (fld 8 w 8) (fld 64 w 11) (fld 64 w 17) (fld 64 w 23))
  | 2 => .ok (.i2f (fld 4 w 6) (fld 8 w 8) (fld 64 w 11) (fld 64 w 17) (fld 64 w 23))
  | 3 => .ok (.tagset (fld 4 w 6) (fld 8 w 8) (fld 64 w 11) (fld 64 w 17) (fld 64 w 23))
  | 4 => need (zeros w 23 6) (.tagget (fld 4 w 6) (fld 8 w 8) (fld 64 w 11) (fld 64 w 17))
  | 5 => need (zeros w 23 6) (.unpkLo (fld 4 w 6) (fld 8 w 8) (fld 64 w 11) (fld 64 w 17))
  | 6 => need (zeros w 23 6) (.unpkHi (fld 4 w 6) (fld 8 w 8) (fld 64 w 11) (fld 64 w 17))
  | _ => .ok (.scl (fld 4 w 6) (fld 8 w 8) (fld 64 w 11) (fld 64 w 17) (fld 64 w 23))

/-- Major 0x0C (Table 15.12). -/
def decodePkd (w : Nat) : Except DecodeError Instr :=
  match w / 2 ^ 29 % 8 with
  | 0 => .ok (.hadd2 (fld 4 w 6) (fld 8 w 8) (fld 64 w 11) (fld 64 w 17) (fld 64 w 23))
  | 1 => .ok (.hmul2 (fld 4 w 6) (fld 8 w 8) (fld 64 w 11) (fld 64 w 17) (fld 64 w 23))
  | 2 => .ok (.hfma2 (fld 4 w 6) (fld 8 w 8) (fld 64 w 11) (fld 64 w 17) (fld 64 w 23))
  | 3 => .ok (.hmin2 (fld 4 w 6) (fld 8 w 8) (fld 64 w 11) (fld 64 w 17) (fld 64 w 23))
  | 4 => .ok (.hmax2 (fld 4 w 6) (fld 8 w 8) (fld 64 w 11) (fld 64 w 17) (fld 64 w 23))
  | 5 => .ok (.dot2 (fld 4 w 6) (fld 8 w 8) (fld 64 w 11) (fld 64 w 17) (fld 64 w 23))
  | 6 => .ok (.dot4 (fld 4 w 6) (fld 8 w 8) (fld 64 w 11) (fld 64 w 17) (fld 64 w 23))
  | _ => .ok (.pack (fld 4 w 6) (fld 8 w 8) (fld 64 w 11) (fld 64 w 17) (fld 64 w 23))

/-- Major 0x0D (Table 15.12). -/
def decodeLane (w : Nat) : Except DecodeError Instr :=
  match w / 2 ^ 29 % 8 with
  | 0 => .ok (.shflIdx (fld 4 w 6) (fld 8 w 8) (fld 64 w 11) (fld 64 w 17) (fld 64 w 23))
  | 1 => need (zeros w 28 1) (.shflUp (fld 4 w 6) (fld 8 w 8) (fld 64 w 11) (fld 64 w 17) (fld 32 w 23))
  | 2 => need (zeros w 28 1) (.shflDn (fld 4 w 6) (fld 8 w 8) (fld 64 w 11) (fld 64 w 17) (fld 32 w 23))
  | 3 => need (zeros w 28 1) (.shflXor (fld 4 w 6) (fld 8 w 8) (fld 64 w 11) (fld 64 w 17) (fld 32 w 23))
  | 4 =>
    match w / 2 ^ 23 % 4 with
    | 0 => need (zeros w 13 4 && zeros w 20 3 && zeros w 25 4) (.pollSome (fld 4 w 6) (fld 8 w 8) (fld 4 w 11) (fld 8 w 17))
    | 1 => need (zeros w 13 4 && zeros w 20 3 && zeros w 25 4) (.pollEvery (fld 4 w 6) (fld 8 w 8) (fld 4 w 11) (fld 8 w 17))
    | 2 => need (zeros w 13 4 && zeros w 20 3 && zeros w 25 4) (.pollAgree (fld 4 w 6) (fld 8 w 8) (fld 4 w 11) (fld 8 w 17))
    | _ => need (zeros w 13 4 && zeros w 20 3 && zeros w 25 4) (.pollMost (fld 4 w 6) (fld 8 w 8) (fld 4 w 11) (fld 8 w 17))
  | 5 => need (zeros w 20 9) (.ballot (fld 4 w 6) (fld 8 w 8) (fld 64 w 11) (fld 8 w 17))
  | 6 => need (zeros w 23 6) (.redaddF (fld 4 w 6) (fld 8 w 8) (fld 64 w 11) (fld 64 w 17))
  | _ => need (zeros w 23 6) (.redaddI (fld 4 w 6) (fld 8 w 8) (fld 64 w 11) (fld 64 w 17))

/-- Major 0x0E (Table 15.12). -/
def decodeMovi (w : Nat) : Except DecodeError Instr := .ok (.movi (fld 64 w 6) (fld 1048576 w 12))

/-- Major 0x0F (Table 15.12). -/
def decodeMovf (w : Nat) : Except DecodeError Instr := .ok (.movf (fld 64 w 6) (fld 1048576 w 12))

/-- Major 0x10 (Table 15.12). -/
def decodeLd (w : Nat) : Except DecodeError Instr :=
  match w / 2 ^ 28 % 8 with
  | 0 => .ok (.ld8z (fld 4 w 6) (fld 8 w 8) (fld 64 w 11) (fld 64 w 17) (fld 32 w 23) (bitAt w 31))
  | 1 => .ok (.ld8s (fld 4 w 6) (fld 8 w 8) (fld 64 w 11) (fld 64 w 17) (fld 32 w 23) (bitAt w 31))
  | 2 => .ok (.ld16z (fld 4 w 6) (fld 8 w 8) (fld 64 w 11) (fld 64 w 17) (fld 32 w 23) (bitAt w 31))
  | 3 => .ok (.ld16s (fld 4 w 6) (fld 8 w 8) (fld 64 w 11) (fld 64 w 17) (fld 32 w 23) (bitAt w 31))
  | 4 => .ok (.ld32 (fld 4 w 6) (fld 8 w 8) (fld 64 w 11) (fld 64 w 17) (fld 32 w 23) (bitAt w 31))
  | 5 => .ok (.ldF32 (fld 4 w 6) (fld 8 w 8) (fld 64 w 11) (fld 64 w 17) (fld 32 w 23) (bitAt w 31))
  | 6 => .ok (.ld64 (fld 4 w 6) (fld 8 w 8) (fld 64 w 11) (fld 64 w 17) (fld 32 w 23) (bitAt w 31))
  | _ => .ok (.ld128 (fld 4 w 6) (fld 8 w 8) (fld 64 w 11) (fld 64 w 17) (fld 32 w 23) (bitAt w 31))

/-- Major 0x11 (Table 15.12). -/
def decodeSt (w : Nat) : Except DecodeError Instr :=
  match w / 2 ^ 28 % 16 with
  | 0 => .ok (.st8 (fld 4 w 6) (fld 8 w 8) (fld 64 w 11) (fld 64 w 17) (fld 32 w 23))
  | 1 => .ok (.st16 (fld 4 w 6) (fld 8 w 8) (fld 64 w 11) (fld 64 w 17) (fld 32 w 23))
  | 2 => .ok (.st32 (fld 4 w 6) (fld 8 w 8) (fld 64 w 11) (fld 64 w 17) (fld 32 w 23))
  | 3 => .ok (.st64 (fld 4 w 6) (fld 8 w 8) (fld 64 w 11) (fld 64 w 17) (fld 32 w 23))
  | 4 => .ok (.st128 (fld 4 w 6) (fld 8 w 8) (fld 64 w 11) (fld 64 w 17) (fld 32 w 23))
  | 5 => .ok (.stN4 (fld 4 w 6) (fld 8 w 8) (fld 64 w 11) (fld 64 w 17) (fld 32 w 23))
  | 6 => .ok (.stN2 (fld 4 w 6) (fld 8 w 8) (fld 64 w 11) (fld 64 w 17) (fld 32 w 23))
  | _ => .error .illegal

/-- Major 0x12 (Table 15.12). -/
def decodeScr (w : Nat) : Except DecodeError Instr :=
  match w / 2 ^ 28 % 16 with
  | 0 => .ok (.lds32 (fld 4 w 6) (fld 8 w 8) (fld 64 w 11) (fld 64 w 17) (fld 32 w 23))
  | 1 => .ok (.lds64 (fld 4 w 6) (fld 8 w 8) (fld 64 w 11) (fld 64 w 17) (fld 32 w 23))
  | 2 => .ok (.lds128 (fld 4 w 6) (fld 8 w 8) (fld 64 w 11) (fld 64 w 17) (fld 32 w 23))
  | 3 => .ok (.sts32 (fld 4 w 6) (fld 8 w 8) (fld 64 w 11) (fld 64 w 17) (fld 32 w 23))
  | 4 => .ok (.sts64 (fld 4 w 6) (fld 8 w 8) (fld 64 w 11) (fld 64 w 17) (fld 32 w 23))
  | 5 => .ok (.sts128 (fld 4 w 6) (fld 8 w 8) (fld 64 w 11) (fld 64 w 17) (fld 32 w 23))
  | 6 => need (zeros w 8 3) (.ldc (fld 4 w 6) (fld 64 w 11) (fld 64 w 17) (fld 32 w 23))
  | 7 => need (zeros w 8 3 && zeros w 15 8) (.wset (fld 4 w 6) (fld 16 w 11) (fld 32 w 23))
  | _ => .error .illegal

/-- Major 0x13 (Table 15.12). -/
def decodeAtom (w : Nat) : Except DecodeError Instr :=
  match w / 2 ^ 28 % 16 with
  | 0 => .ok (.atomAdd (fld 4 w 6) (fld 8 w 8) (fld 64 w 11) (fld 64 w 17) (fld 32 w 23))
  | 1 => .ok (.atomAddf (fld 4 w 6) (fld 8 w 8) (fld 64 w 11) (fld 64 w 17) (fld 32 w 23))
  | 2 => .ok (.atomMin (fld 4 w 6) (fld 8 w 8) (fld 64 w 11) (fld 64 w 17) (fld 32 w 23))
  | 3 => .ok (.atomMax (fld 4 w 6) (fld 8 w 8) (fld 64 w 11) (fld 64 w 17) (fld 32 w 23))
  | 4 => .ok (.atomUmin (fld 4 w 6) (fld 8 w 8) (fld 64 w 11) (fld 64 w 17) (fld 32 w 23))
  | 5 => .ok (.atomUmax (fld 4 w 6) (fld 8 w 8) (fld 64 w 11) (fld 64 w 17) (fld 32 w 23))
  | 6 => .ok (.atomAnd (fld 4 w 6) (fld 8 w 8) (fld 64 w 11) (fld 64 w 17) (fld 32 w 23))
  | 7 => .ok (.atomOr (fld 4 w 6) (fld 8 w 8) (fld 64 w 11) (fld 64 w 17) (fld 32 w 23))
  | 8 => .ok (.atomXor (fld 4 w 6) (fld 8 w 8) (fld 64 w 11) (fld 64 w 17) (fld 32 w 23))
  | 9 => .ok (.atomXchg (fld 4 w 6) (fld 8 w 8) (fld 64 w 11) (fld 64 w 17) (fld 32 w 23))
  | 10 => .ok (.atomCas (fld 4 w 6) (fld 8 w 8) (fld 64 w 11) (fld 64 w 17) (fld 32 w 23))
  | 11 => .ok (.atomAddh2 (fld 4 w 6) (fld 8 w 8) (fld 64 w 11) (fld 64 w 17) (fld 32 w 23))
  | _ => .error .illegal

/-- Major 0x14 (Table 15.12). -/
def decodeRed (w : Nat) : Except DecodeError Instr :=
  match w / 2 ^ 28 % 8 with
  | 0 => .ok (.redAdd (fld 4 w 6) (fld 8 w 8) (fld 64 w 11) (fld 64 w 17) (fld 32 w 23) (bitAt w 31))
  | 1 => .ok (.redAddf (fld 4 w 6) (fld 8 w 8) (fld 64 w 11) (fld 64 w 17) (fld 32 w 23) (bitAt w 31))
  | 2 => .ok (.redMin (fld 4 w 6) (fld 8 w 8) (fld 64 w 11) (fld 64 w 17) (fld 32 w 23) (bitAt w 31))
  | 3 => .ok (.redMax (fld 4 w 6) (fld 8 w 8) (fld 64 w 11) (fld 64 w 17) (fld 32 w 23) (bitAt w 31))
  | 4 => .ok (.redAnd (fld 4 w 6) (fld 8 w 8) (fld 64 w 11) (fld 64 w 17) (fld 32 w 23) (bitAt w 31))
  | 5 => .ok (.redOr (fld 4 w 6) (fld 8 w 8) (fld 64 w 11) (fld 64 w 17) (fld 32 w 23) (bitAt w 31))
  | 6 => .ok (.redXor (fld 4 w 6) (fld 8 w 8) (fld 64 w 11) (fld 64 w 17) (fld 32 w 23) (bitAt w 31))
  | _ => .ok (.redAddx (fld 4 w 6) (fld 8 w 8) (fld 64 w 11) (fld 64 w 17) (fld 32 w 23) (bitAt w 31))

/-- Major 0x15 (Table 15.12). -/
def decodeLat (w : Nat) : Except DecodeError Instr :=
  match w / 2 ^ 27 % 32 with
  | 0 => .ok (.ild (fld 4 w 6) (fld 8 w 8) (fld 64 w 11) (fld 64 w 17) (fld 16 w 23))
  | 1 => .ok (.ildg (fld 4 w 6) (fld 8 w 8) (fld 64 w 11) (fld 64 w 17) (fld 16 w 23))
  | 2 => .ok (.ispl (fld 4 w 6) (fld 8 w 8) (fld 64 w 11) (fld 64 w 17) (fld 16 w 23))
  | 3 => .ok (.isplg (fld 4 w 6) (fld 8 w 8) (fld 64 w 11) (fld 64 w 17) (fld 16 w 23))
  | 4 => .ok (.ifetch (fld 4 w 6) (fld 8 w 8) (fld 64 w 11) (fld 64 w 17) (fld 16 w 23))
  | 5 => .ok (.iwgt (fld 4 w 6) (fld 8 w 8) (fld 64 w 11) (fld 64 w 17) (fld 16 w 23))
  | 6 => .ok (.icell (fld 4 w 6) (fld 8 w 8) (fld 64 w 11) (fld 64 w 17) (fld 16 w 23))
  | 7 => .ok (.istx (fld 4 w 6) (fld 8 w 8) (fld 64 w 11) (fld 64 w 17) (fld 16 w 23))
  | _ => .error .illegal

/-- Major 0x16 (Table 15.12). -/
def decodePkl (w : Nat) : Except DecodeError Instr :=
  match w / 2 ^ 28 % 16 with
  | 0 => need (zeros w 15 8) (.pkq (fld 4 w 6) (fld 8 w 8) (fld 16 w 11) (fld 32 w 23))
  | 1 => need (zeros w 15 8) (.pkqs (fld 4 w 6) (fld 8 w 8) (fld 16 w 11) (fld 32 w 23))
  | 2 => need (zeros w 15 8) (.pkb (fld 4 w 6) (fld 8 w 8) (fld 16 w 11) (fld 32 w 23))
  | 3 => need (zeros w 15 8) (.pkbq (fld 4 w 6) (fld 8 w 8) (fld 16 w 11) (fld 32 w 23))
  | _ => .error .illegal

/-- Major 0x17 (Table 15.12). -/
def decodeEng (w : Nat) : Except DecodeError Instr :=
  match w / 2 ^ 28 % 16 with
  | 0 => need (zeros w 15 8) (.cpyG2s (fld 4 w 6) (fld 8 w 8) (fld 16 w 11) (fld 32 w 23))
  | 1 => need (zeros w 15 8) (.cpyS2g (fld 4 w 6) (fld 8 w 8) (fld 16 w 11) (fld 32 w 23))
  | 2 => need (zeros w 15 8) (.cpyS2s (fld 4 w 6) (fld 8 w 8) (fld 16 w 11) (fld 32 w 23))
  | 3 => need (zeros w 15 2) (.cpyCmp (fld 4 w 6) (fld 8 w 8) (fld 16 w 11) (fld 64 w 17) (fld 32 w 23))
  | 4 => need (zeros w 15 8) (.nbLd (fld 4 w 6) (fld 8 w 8) (fld 16 w 11) (fld 32 w 23))
  | 5 => need (zeros w 15 2) (.nbRun (fld 4 w 6) (fld 8 w 8) (fld 16 w 11) (fld 64 w 17) (fld 32 w 23))
  | 6 => if bitAt w 15 then need (zeros w 16 7) (.nbGetSum (fld 4 w 6) (fld 8 w 8) (fld 16 w 11) (fld 32 w 23)) else need (zeros w 16 7)
      (.nbGet (fld 4 w 6) (fld 8 w 8) (fld 16 w 11) (fld 32 w 23))
  | 7 => need (zeros w 15 8) (.nbMode (fld 4 w 6) (fld 8 w 8) (fld 16 w 11) (fld 32 w 23))
  | 8 => need (zeros w 15 8) (.coll (fld 4 w 6) (fld 8 w 8) (fld 16 w 11) (fld 32 w 23))
  | _ => .error .illegal

/-- Major 0x18 (Table 15.12). -/
def decodeUalu (w : Nat) : Except DecodeError Instr :=
  match w / 2 ^ 29 % 8 with
  | 0 => need (zeros w 10 1) (.sadd (fld 4 w 6) (fld 4 w 8) (fld 64 w 11) (fld 64 w 17) (fld 64 w 23))
  | 1 => need (zeros w 10 1) (.ssub (fld 4 w 6) (fld 4 w 8) (fld 64 w 11) (fld 64 w 17) (fld 64 w 23))
  | 2 => need (zeros w 10 1) (.smul (fld 4 w 6) (fld 4 w 8) (fld 64 w 11) (fld 64 w 17) (fld 64 w 23))
  | 3 => need (zeros w 10 1) (.smulhi (fld 4 w 6) (fld 4 w 8) (fld 64 w 11) (fld 64 w 17) (fld 64 w 23))
  | 4 => need (zeros w 10 1) (.sand (fld 4 w 6) (fld 4 w 8) (fld 64 w 11) (fld 64 w 17) (fld 64 w 23))
  | 5 => need (zeros w 10 1) (.sor (fld 4 w 6) (fld 4 w 8) (fld 64 w 11) (fld 64 w 17) (fld 64 w 23))
  | 6 => need (zeros w 10 1) (.sxor (fld 4 w 6) (fld 4 w 8) (fld 64 w 11) (fld 64 w 17) (fld 64 w 23))
  | _ => need (zeros w 10 1) (.sshl (fld 4 w 6) (fld 4 w 8) (fld 64 w 11) (fld 64 w 17) (fld 64 w 23))

/-- Major 0x19 (Table 15.12). -/
def decodeUalu2 (w : Nat) : Except DecodeError Instr :=
  match w / 2 ^ 29 % 8 with
  | 0 => need (zeros w 10 1) (.sshr (fld 4 w 6) (fld 4 w 8) (fld 64 w 11) (fld 64 w 17) (fld 64 w 23))
  | 1 => need (zeros w 10 1) (.ssar (fld 4 w 6) (fld 4 w 8) (fld 64 w 11) (fld 64 w 17) (fld 64 w 23))
  | 2 => need (zeros w 10 1) (.smin (fld 4 w 6) (fld 4 w 8) (fld 64 w 11) (fld 64 w 17) (fld 64 w 23))
  | 3 => need (zeros w 10 1) (.smax (fld 4 w 6) (fld 4 w 8) (fld 64 w 11) (fld 64 w 17) (fld 64 w 23))
  | 4 => need (zeros w 10 1 && zeros w 23 6) (.smov (fld 4 w 6) (fld 4 w 8) (fld 64 w 11) (fld 64 w 17))
  | 5 => need (zeros w 10 1 && zeros w 13 1) (.ssetpEq (fld 4 w 6) (fld 4 w 8) (fld 4 w 11) (fld 8 w 14) (fld 64 w 17) (fld 64 w 23))
  | 6 => need (zeros w 10 1 && zeros w 13 1) (.ssetpLt (fld 4 w 6) (fld 4 w 8) (fld 4 w 11) (fld 8 w 14) (fld 64 w 17) (fld 64 w 23))
  | _ => need (zeros w 10 1 && zeros w 13 1) (.ssetpUlt (fld 4 w 6) (fld 4 w 8) (fld 4 w 11) (fld 8 w 14) (fld 64 w 17) (fld 64 w 23))

/-- Major 0x1A (Table 15.12). -/
def decodeSmovi (w : Nat) : Except DecodeError Instr := .ok (.smovi (fld 64 w 6) (fld 1048576 w 12))

/-- Major 0x1B (Table 15.12). -/
def decodeCtrl (w : Nat) : Except DecodeError Instr :=
  match w / 2 ^ 11 % 8 with
  | 0 => .ok (.bra (fld 4 w 6) (fld 8 w 8) (fld 262144 w 14))
  | 1 => need (zeros w 10 1) (.braQ (fld 4 w 6) (fld 4 w 8) (fld 262144 w 14))
  | 2 => need (zeros w 8 3) (.call (fld 4 w 6) (fld 262144 w 14))
  | 3 => need (zeros w 8 3 && zeros w 14 18) (.join (fld 4 w 6))
  | 4 => need (zeros w 20 12) (.brx (fld 4 w 6) (fld 8 w 8) (fld 64 w 14))
  | 5 => need (zeros w 20 12) (.callx (fld 4 w 6) (fld 8 w 8) (fld 64 w 14))
  | 6 => need (zeros w 8 3 && zeros w 14 18) (.ret (fld 4 w 6))
  | _ => .ok (.jtab (fld 4 w 6) (fld 8 w 8) (fld 64 w 14) (fld 4096 w 20))

/-- Major 0x1C (Table 15.12). -/
def decodeSync (w : Nat) : Except DecodeError Instr :=
  match w / 2 ^ 11 % 16 with
  | 0 => need (zeros w 8 3 && zeros w 15 1 && zeros w 20 12) (.barArr (fld 4 w 6) (fld 16 w 16))
  | 1 => need (zeros w 8 3 && zeros w 15 1 && zeros w 20 12) (.barWait (fld 4 w 6) (fld 16 w 16))
  | 2 => need (zeros w 8 3 && zeros w 15 1 && zeros w 20 12) (.barSync (fld 4 w 6) (fld 16 w 16))
  | 3 =>
    match w / 2 ^ 16 % 4 with
    | 0 => need (zeros w 8 3 && zeros w 15 1 && zeros w 18 14) (.fenceB (fld 4 w 6))
    | 1 => need (zeros w 8 3 && zeros w 15 1 && zeros w 18 14) (.fenceD (fld 4 w 6))
    | 2 => need (zeros w 8 3 && zeros w 15 1 && zeros w 18 14) (.fenceS (fld 4 w 6))
    | _ => .error .reserved
  | 4 => need (zeros w 8 3 && zeros w 15 1 && zeros w 28 4) (.waitf (fld 4 w 6) (fld 4096 w 16))
  | 5 => need (zeros w 8 3 && zeros w 15 17) (.regang (fld 4 w 6))
  | 6 => need (zeros w 8 3 && zeros w 15 1 && zeros w 29 3) (.dead (fld 4 w 6) (fld 64 w 16) (fld 128 w 22))
  | 7 => need (zeros w 8 3 && zeros w 15 1) (.nopLong (fld 4 w 6) (fld 65536 w 16))
  | _ => .error .illegal

/-- Major 0x1D (Table 15.12). -/
def decodeLoop (w : Nat) : Except DecodeError Instr :=
  match w / 2 ^ 11 % 16 with
  | 0 => need (zeros w 8 3 && zeros w 15 1) (.loop (fld 4 w 6) (fld 64 w 16) (fld 1024 w 22))
  | 1 => need (zeros w 8 3 && zeros w 15 1) (.loopi (fld 4 w 6) (fld 256 w 16) (fld 256 w 24))
  | 2 => need (zeros w 8 3 && zeros w 15 17) (.lbrk (fld 4 w 6))
  | 3 => need (zeros w 8 3 && zeros w 15 1) (.fbp (fld 4 w 6) (fld 65536 w 16) (BitVec.ofNat 32 (w / 2 ^ 32))
      (BitVec.ofNat 32 (w / 2 ^ 64)))
  | 4 => need (zeros w 8 3 && zeros w 15 17) (.pret (fld 4 w 6))
  | _ => .error .illegal

/-- Major 0x1E (Table 15.12). -/
def decodeSys (w : Nat) : Except DecodeError Instr :=
  match w / 2 ^ 11 % 16 with
  | 0 => need (zeros w 15 1) (.trap (fld 4 w 6) (fld 8 w 8) (fld 65536 w 16))
  | 1 => need (zeros w 15 1) (.brk (fld 4 w 6) (fld 8 w 8) (fld 65536 w 16))
  | 2 => need (zeros w 15 1) (.getsr (fld 4 w 6) (fld 8 w 8) (fld 64 w 16) (bitAt w 22) (fld 512 w 23))
  | 3 => need (zeros w 8 3 && zeros w 15 1) (.setsr (fld 4 w 6) (fld 64 w 16) (bitAt w 22) (fld 512 w 23))
  | 4 => need (zeros w 8 3 && zeros w 15 1) (.gcall (fld 4 w 6) (fld 65536 w 16))
  | 5 => need (zeros w 8 3 && zeros w 15 17) (.gret (fld 4 w 6))
  | 6 => need (zeros w 8 3 && zeros w 15 1) (.gabort (fld 4 w 6) (fld 65536 w 16))
  | 7 => need (zeros w 8 3 && zeros w 15 1 && zeros w 22 10) (.spawn (fld 4 w 6) (fld 64 w 16))
  | 8 => need (zeros w 15 17) (.exit (fld 4 w 6) (fld 8 w 8))
  | 9 => need (zeros w 8 3 && zeros w 15 17) (.yield (fld 4 w 6))
  | 10 => need (zeros w 8 3 && zeros w 15 1 && zeros w 29 3) (.xrd (fld 4 w 6) (fld 64 w 16) (bitAt w 22) (fld 64 w 23))
  | 11 => need (zeros w 8 3 && zeros w 15 1 && zeros w 29 3) (.xwr (fld 4 w 6) (fld 64 w 16) (bitAt w 22) (fld 64 w 23))
  | _ => .error .illegal

/-- Major 0x1F (Table 15.12). -/
def decodeWlsp (w : Nat) : Except DecodeError Instr :=
  match w / 2 ^ 29 % 8 with
  | 0 => need (zeros w 11 6 && zeros w 25 4) (.wlpush (fld 4 w 6) (fld 8 w 8) (fld 64 w 17) (fld 4 w 23))
  | 1 => need (zeros w 17 6 && zeros w 25 4) (.wlpop (fld 4 w 6) (fld 8 w 8) (fld 64 w 11) (fld 4 w 23))
  | 2 => need (zeros w 11 6 && zeros w 25 4) (.wlins (fld 4 w 6) (fld 8 w 8) (fld 64 w 17) (fld 4 w 23))
  | 3 => need (zeros w 17 6 && zeros w 25 4) (.wlcnt (fld 4 w 6) (fld 8 w 8) (fld 64 w 11) (fld 4 w 23))
  | 4 => .ok (.isect (fld 4 w 6) (fld 8 w 8) (fld 64 w 11) (fld 64 w 17) (fld 64 w 23))
  | 5 => .ok (.union (fld 4 w 6) (fld 8 w 8) (fld 64 w 11) (fld 64 w 17) (fld 64 w 23))
  | 6 => .ok (.merge (fld 4 w 6) (fld 8 w 8) (fld 64 w 11) (fld 64 w 17) (fld 64 w 23))
  | _ => .error .illegal

/-- A 32-bit core word with its literal words above it, by its major (R216, R224). -/
def decodeCore32 (w : Nat) : Except DecodeError Instr :=
  match w / 2 % 32 with
  | 0 => decodeIalu w
  | 1 => decodeIalu2 w
  | 2 => decodeLogic w
  | 3 => decodeBits w
  | 4 => decodeIcmp w
  | 5 => decodeFalu w
  | 6 => decodeFcmp w
  | 7 => decodeFfma w
  | 8 => decodeFfmaL w
  | 9 => decodeFfmaC w
  | 10 => decodeFunc w
  | 11 => decodeCvt w
  | 12 => decodePkd w
  | 13 => decodeLane w
  | 14 => decodeMovi w
  | 15 => decodeMovf w
  | 16 => decodeLd w
  | 17 => decodeSt w
  | 18 => decodeScr w
  | 19 => decodeAtom w
  | 20 => decodeRed w
  | 21 => decodeLat w
  | 22 => decodePkl w
  | 23 => decodeEng w
  | 24 => decodeUalu w
  | 25 => decodeUalu2 w
  | 26 => decodeSmovi w
  | 27 => decodeCtrl w
  | 28 => decodeSync w
  | 29 => decodeLoop w
  | 30 => decodeSys w
  | _ => decodeWlsp w

/-- The 16-bit class 0 (Table 15.2). -/
def decodeClass0 (w : Nat) : Except DecodeError Instr :=
  match w / 2 % 16 with
  | 0 => .ok (.compactMov (fld 32 w 5) (fld 32 w 10))
  | 1 => .ok (.compactIadd (fld 32 w 5) (fld 32 w 10))
  | 2 => .ok (.compactIsub (fld 32 w 5) (fld 32 w 10))
  | 3 => .ok (.compactImul (fld 32 w 5) (fld 32 w 10))
  | 4 => .ok (.compactAnd (fld 32 w 5) (fld 32 w 10))
  | 5 => .ok (.compactOr (fld 32 w 5) (fld 32 w 10))
  | 6 => .ok (.compactXor (fld 32 w 5) (fld 32 w 10))
  | 7 => .ok (.compactShl (fld 32 w 5) (fld 32 w 10))
  | 8 => .ok (.compactShr (fld 32 w 5) (fld 32 w 10))
  | 9 => .ok (.compactSar (fld 32 w 5) (fld 32 w 10))
  | 10 => .ok (.compactFadd (fld 32 w 5) (fld 32 w 10))
  | 11 => .ok (.compactFsub (fld 32 w 5) (fld 32 w 10))
  | 12 => .ok (.compactFmul (fld 32 w 5) (fld 32 w 10))
  | 13 => .ok (.compactFmin (fld 32 w 5) (fld 32 w 10))
  | 14 => .ok (.compactFmax (fld 32 w 5) (fld 32 w 10))
  | _ => .ok (.compactFneg (fld 32 w 5) (fld 32 w 10))

/-- The 16-bit class 1 (Table 15.3). -/
def decodeClass1 (w : Nat) : Except DecodeError Instr :=
  match w / 2 % 16 with
  | 0 => need (zeros w 10 5) (.nopN (fld 32 w 5))
  | 1 => .ok (.dead2 (fld 32 w 5) (fld 32 w 10))
  | 2 => .ok (.braS (fld 1024 w 5))
  | 3 => need (zeros w 5 10) (.compactExit)
  | 4 => need (zeros w 9 6) (.barS (fld 16 w 5))
  | 5 => .ok (.waitfS (fld 1024 w 5))
  | 6 => need (zeros w 5 10) (.compactRegang)
  | 7 => need (zeros w 5 10) (.compactRet)
  | 8 => .ok (.saddS (fld 32 w 5) (fld 32 w 10))
  | 9 => .ok (.smovS (fld 32 w 5) (fld 32 w 10))
  | 10 => need (zeros w 5 10) (.compactBrk)
  | 11 => need (zeros w 5 10) (.compactYield)
  | 12 => need (zeros w 5 10) (.joinS)
  | _ => .error .illegal

/-- A 16-bit core halfword (R213). -/
def decodeCore16 (w : Nat) : Except DecodeError Instr :=
  if bitAt w 15 then decodeClass1 w else decodeClass0 w

/-- The bytes of the core instruction that begins with the word `w`: 2 or 4, and 8 or 12 for the two that own literal
words (R209, R210). -/
def coreLength (w : Nat) : Nat :=
  if w % 2 = 0 then 2
  else if w / 2 % 32 = 0x08 then 8
  else if w / 2 % 32 = 0x1D ∧ w / 2 ^ 11 % 16 = 3 then 12 else 4

/-- The core decoder, on the bits of an instruction and of what follows it. -/
def decodeCoreWord (w : Nat) : Except DecodeError Instr :=
  checked (if w % 2 = 0 then decodeCore16 (w % 2 ^ 16) else decodeCore32 w)

/-- The sequencer decoder (Table 21.1). -/
noncomputable def decodeSeq32 (w : Nat) : Except DecodeError Instr :=
  match w / 2 % 32 with
  | 0 => need (zeros w 6 26) (.mnop)
  | 1 => if bitAt w 10 then need (zeros w 27 5) (.msetH (fld 16 w 6) (fld 65536 w 11)) else .ok (.mset (fld 16 w 6) (fld 2097152 w 11))
  | 2 =>
    match w / 2 ^ 14 % 4 with
    | 0 => need (zeros w 20 12) (.madd (fld 16 w 6) (fld 16 w 10) (fld 16 w 16))
    | 1 => .ok (.maddImm (fld 16 w 6) (fld 16 w 10) (fld 65536 w 16))
    | 2 => need (zeros w 20 12) (.maddW (fld 16 w 6) (fld 16 w 10) (fld 16 w 16))
    | _ => .ok (.maddWImm (fld 16 w 6) (fld 16 w 10) (fld 65536 w 16))
  | 3 => .ok (.mbnz (fld 16 w 6) (bitAt w 10) (fld 2097152 w 11))
  | 4 => .ok (.mjmp (fld 67108864 w 6))
  | 5 => need (zeros w 6 26) (.mhalt)
  | 6 => need (zeros w 24 8) (.tcfg (fld 4 w 6) (bitAt w 8) (bitAt w 9) (fld 4 w 10) (fld 64 w 12) (fld 64 w 18))
  | 7 => need (zeros w 29 3 && (bitAt w 13 || zeros w 14 4)) (.tld (fld 8 w 6) (fld 16 w 9) (bitAt w 13) (fld 16 w 14) (fld 16 w 18)
      (fld 64 w 22) (bitAt w 28))
  | 8 => need (zeros w 24 8 && (bitAt w 13 || zeros w 14 4)) (.tldt (fld 8 w 6) (fld 16 w 9) (bitAt w 13) (fld 16 w 14) (fld 16 w 18)
      (fld 4 w 22))
  | 9 => need (zeros w 11 21) (.mzero (fld 32 w 6))
  | 10 => need (zeros w 17 15) (.mma (fld 32 w 6) (fld 8 w 11) (fld 8 w 14))
  | 11 => need (zeros w 23 9) (.mmam (fld 32 w 6) (fld 16 w 11) (fld 16 w 15) (fld 16 w 19))
  | 12 => need (zeros w 15 17) (.mdrain (fld 32 w 6) (fld 16 w 11))
  | 13 => need (zeros w 15 17) (.mupd (fld 32 w 6) (fld 16 w 11))
  | 14 => need (zeros w 9 23) (.bpush (fld 8 w 6))
  | 15 => if bitAt w 9 then need (zeros w 12 20) (.bpopT (fld 8 w 6) (fld 4 w 10)) else need (zeros w 10 22) (.bpop (fld 8 w 6))
  | 16 => need (zeros w 10 22) (.mbarA (fld 16 w 6))
  | 17 => need (zeros w 10 22) (.mbarW (fld 16 w 6))
  | _ => .error .illegal

/-- The sequencer decoder; a word with bit 0 clear is reserved (R225). -/
noncomputable def decodeSeqWord (w : Nat) : Except DecodeError Instr :=
  if w % 2 = 0 then .error .reserved else checked (decodeSeq32 (w % 2 ^ 32))

/-- Major 0x1F of the near-bank stream (Table 21.2). -/
noncomputable def decodeNrow (w : Nat) : Except DecodeError Instr :=
  match w / 2 ^ 29 % 8 with
  | 0 => need (zeros w 6 5 && zeros w 15 2 && zeros w 21 2) (.nrd (fld 16 w 11) (fld 16 w 17) (fld 32 w 23) (bitAt w 28))
  | 1 => need (zeros w 6 5 && zeros w 15 2 && zeros w 21 2) (.nwr (fld 16 w 11) (fld 16 w 17) (fld 32 w 23) (bitAt w 28))
  | 2 => need (zeros w 6 11 && zeros w 24 5) (.nnext (fld 64 w 17) (bitAt w 23))
  | 3 => need (zeros w 6 23) (.nif)
  | 4 => need (zeros w 6 23) (.nelse)
  | 5 => need (zeros w 6 23) (.nendif)
  | 6 => need (zeros w 6 5 && zeros w 15 2 && zeros w 21 2 && zeros w 24 5) (.nsum (fld 16 w 11) (fld 16 w 17) (bitAt w 23))
  | _ => need (zeros w 6 23) (.nend)

/-- The near-bank operation of a minor of IALU (Table 15.14). -/
def nbuIaluOp : Nat → Option NbuIalu
  | 0 => some .iadd
  | 1 => some .isub
  | 5 => some .imin
  | 6 => some .imax
  | _ => none

/-- The near-bank operation of a minor of LOGIC. -/
def nbuLogicOp : Nat → NbuLogic
  | 0 => .and
  | 1 => .or
  | 2 => .xor
  | 3 => .andn
  | 4 => .shl
  | 5 => .shr
  | 6 => .sar
  | _ => .rot

/-- The near-bank operation of a minor of FALU. -/
def nbuFaluOp : Nat → Option NbuFalu
  | 0 => some .fadd
  | 1 => some .fsub
  | 2 => some .fmul
  | 3 => some .fmin
  | 4 => some .fmax
  | _ => none

/-- The near-bank condition of a minor of FCMP. -/
def nbuFcmpOp : Nat → Option NbuFcmp
  | 0 => some .eq
  | 1 => some .ne
  | 2 => some .lt
  | 3 => some .le
  | 4 => some .gt
  | 5 => some .ge
  | 6 => some .un
  | _ => none

/-- The gap and guard fields of a near-bank word are zero, and the register fields of the R format hold codes below 16
(R226). -/
def nbuR (w : Nat) : Bool := zeros w 6 5 && zeros w 15 2 && zeros w 21 2 && zeros w 27 2

/-- The near-bank decoder (Table 15.14). -/
noncomputable def decodeNbu32 (w : Nat) : Except DecodeError Instr :=
  match w / 2 % 32 with
  | 0x00 =>
    match nbuIaluOp (w / 2 ^ 29 % 8) with
    | some op => need (nbuR w) (.nbuIalu op (fld 16 w 11) (fld 16 w 17) (fld 16 w 23))
    | none => .error .illegal
  | 0x02 => need (nbuR w) (.nbuLogic (nbuLogicOp (w / 2 ^ 29 % 8)) (fld 16 w 11) (fld 16 w 17) (fld 16 w 23))
  | 0x05 =>
    match nbuFaluOp (w / 2 ^ 29 % 8) with
    | some op => need (nbuR w) (.nbuFalu op (fld 16 w 11) (fld 16 w 17) (fld 16 w 23))
    | none => .error .illegal
  | 0x06 =>
    match nbuFcmpOp (w / 2 ^ 29 % 8) with
    | some op =>
      need (zeros w 6 5 && zeros w 11 3 && zeros w 21 2 && zeros w 27 2)
        (.nbuFcmp op (fld 8 w 14) (fld 16 w 17) (fld 16 w 23))
    | none => .error .illegal
  | 0x07 =>
    need (zeros w 6 2 && zeros w 12 2 && zeros w 18 2 && zeros w 24 2 && zeros w 30 2)
      (.nbuFfma (fld 16 w 8) (fld 16 w 14) (fld 16 w 20) (fld 16 w 26))
  | 0x0E => need (zeros w 10 2) (.nbuMovi false (fld 16 w 6) (fld 1048576 w 12))
  | 0x0F => need (zeros w 10 2) (.nbuMovi true (fld 16 w 6) (fld 1048576 w 12))
  | 0x1F => decodeNrow w
  | _ => .error .illegal

/-- The near-bank decoder; a word with bit 0 clear is reserved (R226). -/
noncomputable def decodeNbuWord (w : Nat) : Except DecodeError Instr :=
  if w % 2 = 0 then .error .reserved else checked (decodeNbu32 (w % 2 ^ 32))

/-- The number whose little-endian bytes these are (R3). -/
def leNat : List Byte → Nat
  | [] => 0
  | b :: bs => b.toNat + 256 * leNat bs

/-- The `k` little-endian bytes of a number (R3). -/
def leBytes : Nat → Nat → List Byte
  | 0, _ => []
  | k + 1, w => BitVec.ofNat 8 w :: leBytes k (w / 256)

/-- The instruction at the head of a list of bytes, with the bytes after it. -/
def decode (bs : List Byte) : Except DecodeError (Instr × List Byte) :=
  let len := if bs.length < 4 then (if leNat (bs.take 2) % 2 = 0 then 2 else 4) else coreLength (leNat (bs.take 4))
  if bs.length < len then .error .short
  else
    match decodeCoreWord (leNat (bs.take len)) with
    | .ok i => .ok (i, bs.drop len)
    | .error e => .error e

/-- The instruction of a table word of `nbits` bits: by the core decoder, or, where that refuses, by the sequencer's and then
the near-bank one (three streams share one space of words, R416). Bits of the instruction above `nbits` are zero. -/
noncomputable def decodeTableWord (nbits w : Nat) : Option Instr :=
  if nbits = 0 then none
  else
    match decode (leBytes 12 (w % 2 ^ nbits)) with
    | .ok (i, _) => some i
    | .error _ =>
      match decodeSeqWord (w % 2 ^ nbits) with
      | .ok i => some i
      | .error _ =>
        match decodeNbuWord (w % 2 ^ nbits) with
        | .ok i => some i
        | .error _ => none

/-- The stream that an instruction belongs to. -/
inductive Stream where | core | sequencer | nearBank | event
deriving DecidableEq, Repr

/-- The decoder of a stream. -/
noncomputable def decodeStream : Stream → Nat → Except DecodeError Instr
  | .core, w => decodeCoreWord w
  | .sequencer, w => decodeSeqWord w
  | .nearBank, w => decodeNbuWord w
  | .event, _ => .error .illegal

/-- The stream of an instruction. -/
def Instr.stream : Instr → Stream
  | .iadd _ _ _ _ _ => .core
  | .isub _ _ _ _ _ => .core
  | .imul _ _ _ _ _ => .core
  | .imulhs _ _ _ _ _ => .core
  | .imulhu _ _ _ _ _ => .core
  | .imin _ _ _ _ _ => .core
  | .imax _ _ _ _ _ => .core
  | .umin _ _ _ _ _ => .core
  | .umax _ _ _ _ _ => .core
  | .iadds _ _ _ _ _ => .core
  | .isubs _ _ _ _ _ => .core
  | .iabs _ _ _ _ => .core
  | .ineg _ _ _ _ => .core
  | .popc _ _ _ _ => .core
  | .clz _ _ _ _ => .core
  | .brev _ _ _ _ => .core
  | .and _ _ _ _ _ => .core
  | .or _ _ _ _ _ => .core
  | .xor _ _ _ _ _ => .core
  | .andn _ _ _ _ _ => .core
  | .shl _ _ _ _ _ => .core
  | .shr _ _ _ _ _ => .core
  | .sar _ _ _ _ _ => .core
  | .rot _ _ _ _ _ => .core
  | .bfe _ _ _ _ _ => .core
  | .bfes _ _ _ _ _ => .core
  | .bfi _ _ _ _ _ => .core
  | .bmix _ _ _ _ _ => .core
  | .sel _ _ _ _ _ => .core
  | .mov _ _ _ _ => .core
  | .lea4 _ _ _ _ _ => .core
  | .lea8 _ _ _ _ _ => .core
  | .isetpEq _ _ _ _ _ _ => .core
  | .isetpNe _ _ _ _ _ _ => .core
  | .isetpLt _ _ _ _ _ _ => .core
  | .isetpLe _ _ _ _ _ _ => .core
  | .isetpGt _ _ _ _ _ _ => .core
  | .isetpGe _ _ _ _ _ _ => .core
  | .isetpUlt _ _ _ _ _ _ => .core
  | .isetpUle _ _ _ _ _ _ => .core
  | .fadd _ _ _ _ _ => .core
  | .fsub _ _ _ _ _ => .core
  | .fmul _ _ _ _ _ => .core
  | .fmin _ _ _ _ _ => .core
  | .fmax _ _ _ _ _ => .core
  | .fabs _ _ _ _ => .core
  | .fneg _ _ _ _ => .core
  | .fcpys _ _ _ _ _ => .core
  | .fsetpEq _ _ _ _ _ _ => .core
  | .fsetpNe _ _ _ _ _ _ => .core
  | .fsetpLt _ _ _ _ _ _ => .core
  | .fsetpLe _ _ _ _ _ _ => .core
  | .fsetpGt _ _ _ _ _ _ => .core
  | .fsetpGe _ _ _ _ _ _ => .core
  | .fsetpUn _ _ _ _ _ _ => .core
  | .fclass _ _ _ _ => .core
  | .ffma _ _ _ _ _ => .core
  | .ffmaL _ _ _ _ _ => .core
  | .ffmaC _ _ _ _ _ => .core
  | .frcp _ _ _ _ => .core
  | .frsq _ _ _ _ => .core
  | .fsqrt _ _ _ _ => .core
  | .fex2 _ _ _ _ => .core
  | .flg2 _ _ _ _ => .core
  | .fsinp _ _ _ _ => .core
  | .fcosp _ _ _ _ => .core
  | .ftanh _ _ _ _ => .core
  | .cvt _ _ _ _ _ => .core
  | .f2i _ _ _ _ _ => .core
  | .i2f _ _ _ _ _ => .core
  | .tagset _ _ _ _ _ => .core
  | .tagget _ _ _ _ => .core
  | .unpkLo _ _ _ _ => .core
  | .unpkHi _ _ _ _ => .core
  | .scl _ _ _ _ _ => .core
  | .hadd2 _ _ _ _ _ => .core
  | .hmul2 _ _ _ _ _ => .core
  | .hfma2 _ _ _ _ _ => .core
  | .hmin2 _ _ _ _ _ => .core
  | .hmax2 _ _ _ _ _ => .core
  | .dot2 _ _ _ _ _ => .core
  | .dot4 _ _ _ _ _ => .core
  | .pack _ _ _ _ _ => .core
  | .shflIdx _ _ _ _ _ => .core
  | .shflUp _ _ _ _ _ => .core
  | .shflDn _ _ _ _ _ => .core
  | .shflXor _ _ _ _ _ => .core
  | .pollSome _ _ _ _ => .core
  | .pollEvery _ _ _ _ => .core
  | .pollAgree _ _ _ _ => .core
  | .pollMost _ _ _ _ => .core
  | .ballot _ _ _ _ => .core
  | .redaddF _ _ _ _ => .core
  | .redaddI _ _ _ _ => .core
  | .movi _ _ => .core
  | .movf _ _ => .core
  | .ld8z _ _ _ _ _ _ => .core
  | .ld8s _ _ _ _ _ _ => .core
  | .ld16z _ _ _ _ _ _ => .core
  | .ld16s _ _ _ _ _ _ => .core
  | .ld32 _ _ _ _ _ _ => .core
  | .ldF32 _ _ _ _ _ _ => .core
  | .ld64 _ _ _ _ _ _ => .core
  | .ld128 _ _ _ _ _ _ => .core
  | .st8 _ _ _ _ _ => .core
  | .st16 _ _ _ _ _ => .core
  | .st32 _ _ _ _ _ => .core
  | .st64 _ _ _ _ _ => .core
  | .st128 _ _ _ _ _ => .core
  | .stN4 _ _ _ _ _ => .core
  | .stN2 _ _ _ _ _ => .core
  | .lds32 _ _ _ _ _ => .core
  | .lds64 _ _ _ _ _ => .core
  | .lds128 _ _ _ _ _ => .core
  | .sts32 _ _ _ _ _ => .core
  | .sts64 _ _ _ _ _ => .core
  | .sts128 _ _ _ _ _ => .core
  | .ldc _ _ _ _ => .core
  | .wset _ _ _ => .core
  | .atomAdd _ _ _ _ _ => .core
  | .atomAddf _ _ _ _ _ => .core
  | .atomMin _ _ _ _ _ => .core
  | .atomMax _ _ _ _ _ => .core
  | .atomUmin _ _ _ _ _ => .core
  | .atomUmax _ _ _ _ _ => .core
  | .atomAnd _ _ _ _ _ => .core
  | .atomOr _ _ _ _ _ => .core
  | .atomXor _ _ _ _ _ => .core
  | .atomXchg _ _ _ _ _ => .core
  | .atomCas _ _ _ _ _ => .core
  | .atomAddh2 _ _ _ _ _ => .core
  | .redAdd _ _ _ _ _ _ => .core
  | .redAddf _ _ _ _ _ _ => .core
  | .redMin _ _ _ _ _ _ => .core
  | .redMax _ _ _ _ _ _ => .core
  | .redAnd _ _ _ _ _ _ => .core
  | .redOr _ _ _ _ _ _ => .core
  | .redXor _ _ _ _ _ _ => .core
  | .redAddx _ _ _ _ _ _ => .core
  | .ild _ _ _ _ _ => .core
  | .ildg _ _ _ _ _ => .core
  | .ispl _ _ _ _ _ => .core
  | .isplg _ _ _ _ _ => .core
  | .ifetch _ _ _ _ _ => .core
  | .iwgt _ _ _ _ _ => .core
  | .icell _ _ _ _ _ => .core
  | .istx _ _ _ _ _ => .core
  | .pkq _ _ _ _ => .core
  | .pkqs _ _ _ _ => .core
  | .pkb _ _ _ _ => .core
  | .pkbq _ _ _ _ => .core
  | .cpyG2s _ _ _ _ => .core
  | .cpyS2g _ _ _ _ => .core
  | .cpyS2s _ _ _ _ => .core
  | .cpyCmp _ _ _ _ _ => .core
  | .nbLd _ _ _ _ => .core
  | .nbRun _ _ _ _ _ => .core
  | .nbGet _ _ _ _ => .core
  | .nbGetSum _ _ _ _ => .core
  | .nbMode _ _ _ _ => .core
  | .coll _ _ _ _ => .core
  | .sadd _ _ _ _ _ => .core
  | .ssub _ _ _ _ _ => .core
  | .smul _ _ _ _ _ => .core
  | .smulhi _ _ _ _ _ => .core
  | .sand _ _ _ _ _ => .core
  | .sor _ _ _ _ _ => .core
  | .sxor _ _ _ _ _ => .core
  | .sshl _ _ _ _ _ => .core
  | .sshr _ _ _ _ _ => .core
  | .ssar _ _ _ _ _ => .core
  | .smin _ _ _ _ _ => .core
  | .smax _ _ _ _ _ => .core
  | .smov _ _ _ _ => .core
  | .ssetpEq _ _ _ _ _ _ => .core
  | .ssetpLt _ _ _ _ _ _ => .core
  | .ssetpUlt _ _ _ _ _ _ => .core
  | .smovi _ _ => .core
  | .bra _ _ _ => .core
  | .braQ _ _ _ => .core
  | .call _ _ => .core
  | .join _ => .core
  | .brx _ _ _ => .core
  | .callx _ _ _ => .core
  | .ret _ => .core
  | .jtab _ _ _ _ => .core
  | .barArr _ _ => .core
  | .barWait _ _ => .core
  | .barSync _ _ => .core
  | .fenceB _ => .core
  | .fenceD _ => .core
  | .fenceS _ => .core
  | .waitf _ _ => .core
  | .regang _ => .core
  | .dead _ _ _ => .core
  | .nopLong _ _ => .core
  | .loop _ _ _ => .core
  | .loopi _ _ _ => .core
  | .lbrk _ => .core
  | .fbp _ _ _ _ => .core
  | .pret _ => .core
  | .trap _ _ _ => .core
  | .brk _ _ _ => .core
  | .getsr _ _ _ _ _ => .core
  | .setsr _ _ _ _ => .core
  | .gcall _ _ => .core
  | .gret _ => .core
  | .gabort _ _ => .core
  | .spawn _ _ => .core
  | .exit _ _ => .core
  | .yield _ => .core
  | .xrd _ _ _ _ => .core
  | .xwr _ _ _ _ => .core
  | .wlpush _ _ _ _ => .core
  | .wlpop _ _ _ _ => .core
  | .wlins _ _ _ _ => .core
  | .wlcnt _ _ _ _ => .core
  | .isect _ _ _ _ _ => .core
  | .union _ _ _ _ _ => .core
  | .merge _ _ _ _ _ => .core
  | .compactMov _ _ => .core
  | .compactIadd _ _ => .core
  | .compactIsub _ _ => .core
  | .compactImul _ _ => .core
  | .compactAnd _ _ => .core
  | .compactOr _ _ => .core
  | .compactXor _ _ => .core
  | .compactShl _ _ => .core
  | .compactShr _ _ => .core
  | .compactSar _ _ => .core
  | .compactFadd _ _ => .core
  | .compactFsub _ _ => .core
  | .compactFmul _ _ => .core
  | .compactFmin _ _ => .core
  | .compactFmax _ _ => .core
  | .compactFneg _ _ => .core
  | .nopN _ => .core
  | .dead2 _ _ => .core
  | .braS _ => .core
  | .compactExit => .core
  | .barS _ => .core
  | .waitfS _ => .core
  | .compactRegang => .core
  | .compactRet => .core
  | .saddS _ _ => .core
  | .smovS _ _ => .core
  | .compactBrk => .core
  | .compactYield => .core
  | .joinS => .core
  | .mnop => .sequencer
  | .mset _ _ => .sequencer
  | .msetH _ _ => .sequencer
  | .madd _ _ _ => .sequencer
  | .maddImm _ _ _ => .sequencer
  | .maddW _ _ _ => .sequencer
  | .maddWImm _ _ _ => .sequencer
  | .mbnz _ _ _ => .sequencer
  | .mjmp _ => .sequencer
  | .mhalt => .sequencer
  | .tcfg _ _ _ _ _ _ => .sequencer
  | .tld _ _ _ _ _ _ _ => .sequencer
  | .tldt _ _ _ _ _ _ => .sequencer
  | .mzero _ => .sequencer
  | .mma _ _ _ => .sequencer
  | .mmam _ _ _ _ => .sequencer
  | .mdrain _ _ => .sequencer
  | .mupd _ _ => .sequencer
  | .bpush _ => .sequencer
  | .bpop _ => .sequencer
  | .bpopT _ _ => .sequencer
  | .mbarA _ => .sequencer
  | .mbarW _ => .sequencer
  | .nrd _ _ _ _ => .nearBank
  | .nwr _ _ _ _ => .nearBank
  | .nnext _ _ => .nearBank
  | .nif => .nearBank
  | .nelse => .nearBank
  | .nendif => .nearBank
  | .nsum _ _ _ => .nearBank
  | .nend => .nearBank
  | .nbuIalu _ _ _ _ => .nearBank
  | .nbuLogic _ _ _ _ => .nearBank
  | .nbuFalu _ _ _ _ => .nearBank
  | .nbuFcmp _ _ _ _ => .nearBank
  | .nbuFfma _ _ _ _ => .nearBank
  | .nbuMovi _ _ _ => .nearBank
  | .launchWord _ _ => .event
  | .nodeStart _ _ => .event
  | .blockPlace _ => .event
  | .sequencerStart _ _ => .event
  | .reserveTimeout _ => .event
  | .taskSteal _ => .event
  | .completionRecordWrite _ => .event
  | .cqtailWrite _ _ => .event
  | .mqtailWrite _ _ => .event
  | .hostToDevice _ => .event
  | .deviceToHost _ => .event
  | .registerGraph _ => .event
  | .releaseHandle _ => .event
  | .map _ => .event
  | .unmap _ => .event
  | .setClass _ => .event
  | .markNotPresent _ => .event
  | .markPresent _ => .event
  | .crheadWrite _ _ => .event
  | .crtailRead _ => .event
  | .crbaseWrite _ _ => .event
  | .ringBaseWrite _ _ _ => .event
  | .pwrcapWrite _ => .event
  | .dlfwWrite _ _ _ => .event
  | .rclassWrite _ _ => .event
  | .elogackWrite _ _ => .event
  | .registerWrite _ _ => .event
  | .partitionSetup _ => .event
  | .vfBind _ _ _ => .event
  | .spdmMeasurement _ => .event
  | .doeImageWrite _ _ => .event
  | .packageReset => .event
  | .bringUpStep _ => .event
  | .partitionReset _ => .event
  | .groupReset _ _ => .event
  | .thermalTrip _ => .event
  | .temperatureThrottle _ _ => .event
  | .monitorSample _ => .event
  | .eolPublish _ _ _ => .event
  | .coreFence _ _ => .event
  | .flitReplay => .event
  | .linkRetrain _ _ => .event
  | .linkLost => .event
  | .sliceRetire _ => .event
  | .rehashResponse _ => .event
  | .pageRetire _ _ _ => .event
  | .dtSyncCheck _ => .event
  | .dtReload _ => .event
  | .dtUnsyncTimeout _ => .event
  | .homeRequest _ _ => .event
  | .loadReply _ => .event
  | .writeAck _ => .event
  | .errorResponse _ => .event
  | .nmReduction _ => .event
  | .pageInAbandon _ => .event
  | .pageInSave _ _ => .event
  | .unmapPinTimeout _ => .event
  | .requestTimeout _ => .event
  | .firewallDrop _ _ _ => .event
  | .fenceComplete _ _ _ => .event
  | .barrierArrival _ _ _ => .event
  | .barrierTimeout _ _ _ => .event
  | .engineCommandComplete _ _ _ => .event
  | .handlerEntry _ => .event
  | .gateBudgetExhausted _ _ => .event
  | .politeRequest _ => .event
  | .hardStage _ => .event
  | .contextSave _ _ => .event
  | .saveReplyTimeout _ => .event
  | .restore _ _ => .event
  | .thermalMigration _ => .event
  | .nbuResume _ => .event
  | .visitBound _ => .event
  | .refreshDue _ _ => .event
  | .suspendedRunFlush _ => .event
  | .collTimeout _ => .event
  | .swetafinLaneLoss _ _ => .event
  | .vfRelease _ => .event
  | .hostWindowSet _ _ _ _ => .event
  | .communicatorSetup _ _ _ => .event
  | .peerPortUnreachable _ => .event
  | .unmapReturn _ => .event

/-- The bytes of an instruction's encoding; an event has none. -/
def Instr.size : Instr → Nat
  | .iadd _ _ _ _ _ => 4
  | .isub _ _ _ _ _ => 4
  | .imul _ _ _ _ _ => 4
  | .imulhs _ _ _ _ _ => 4
  | .imulhu _ _ _ _ _ => 4
  | .imin _ _ _ _ _ => 4
  | .imax _ _ _ _ _ => 4
  | .umin _ _ _ _ _ => 4
  | .umax _ _ _ _ _ => 4
  | .iadds _ _ _ _ _ => 4
  | .isubs _ _ _ _ _ => 4
  | .iabs _ _ _ _ => 4
  | .ineg _ _ _ _ => 4
  | .popc _ _ _ _ => 4
  | .clz _ _ _ _ => 4
  | .brev _ _ _ _ => 4
  | .and _ _ _ _ _ => 4
  | .or _ _ _ _ _ => 4
  | .xor _ _ _ _ _ => 4
  | .andn _ _ _ _ _ => 4
  | .shl _ _ _ _ _ => 4
  | .shr _ _ _ _ _ => 4
  | .sar _ _ _ _ _ => 4
  | .rot _ _ _ _ _ => 4
  | .bfe _ _ _ _ _ => 4
  | .bfes _ _ _ _ _ => 4
  | .bfi _ _ _ _ _ => 4
  | .bmix _ _ _ _ _ => 4
  | .sel _ _ _ _ _ => 4
  | .mov _ _ _ _ => 4
  | .lea4 _ _ _ _ _ => 4
  | .lea8 _ _ _ _ _ => 4
  | .isetpEq _ _ _ _ _ _ => 4
  | .isetpNe _ _ _ _ _ _ => 4
  | .isetpLt _ _ _ _ _ _ => 4
  | .isetpLe _ _ _ _ _ _ => 4
  | .isetpGt _ _ _ _ _ _ => 4
  | .isetpGe _ _ _ _ _ _ => 4
  | .isetpUlt _ _ _ _ _ _ => 4
  | .isetpUle _ _ _ _ _ _ => 4
  | .fadd _ _ _ _ _ => 4
  | .fsub _ _ _ _ _ => 4
  | .fmul _ _ _ _ _ => 4
  | .fmin _ _ _ _ _ => 4
  | .fmax _ _ _ _ _ => 4
  | .fabs _ _ _ _ => 4
  | .fneg _ _ _ _ => 4
  | .fcpys _ _ _ _ _ => 4
  | .fsetpEq _ _ _ _ _ _ => 4
  | .fsetpNe _ _ _ _ _ _ => 4
  | .fsetpLt _ _ _ _ _ _ => 4
  | .fsetpLe _ _ _ _ _ _ => 4
  | .fsetpGt _ _ _ _ _ _ => 4
  | .fsetpGe _ _ _ _ _ _ => 4
  | .fsetpUn _ _ _ _ _ _ => 4
  | .fclass _ _ _ _ => 4
  | .ffma _ _ _ _ _ => 4
  | .ffmaL _ _ _ _ _ => 8
  | .ffmaC _ _ _ _ _ => 4
  | .frcp _ _ _ _ => 4
  | .frsq _ _ _ _ => 4
  | .fsqrt _ _ _ _ => 4
  | .fex2 _ _ _ _ => 4
  | .flg2 _ _ _ _ => 4
  | .fsinp _ _ _ _ => 4
  | .fcosp _ _ _ _ => 4
  | .ftanh _ _ _ _ => 4
  | .cvt _ _ _ _ _ => 4
  | .f2i _ _ _ _ _ => 4
  | .i2f _ _ _ _ _ => 4
  | .tagset _ _ _ _ _ => 4
  | .tagget _ _ _ _ => 4
  | .unpkLo _ _ _ _ => 4
  | .unpkHi _ _ _ _ => 4
  | .scl _ _ _ _ _ => 4
  | .hadd2 _ _ _ _ _ => 4
  | .hmul2 _ _ _ _ _ => 4
  | .hfma2 _ _ _ _ _ => 4
  | .hmin2 _ _ _ _ _ => 4
  | .hmax2 _ _ _ _ _ => 4
  | .dot2 _ _ _ _ _ => 4
  | .dot4 _ _ _ _ _ => 4
  | .pack _ _ _ _ _ => 4
  | .shflIdx _ _ _ _ _ => 4
  | .shflUp _ _ _ _ _ => 4
  | .shflDn _ _ _ _ _ => 4
  | .shflXor _ _ _ _ _ => 4
  | .pollSome _ _ _ _ => 4
  | .pollEvery _ _ _ _ => 4
  | .pollAgree _ _ _ _ => 4
  | .pollMost _ _ _ _ => 4
  | .ballot _ _ _ _ => 4
  | .redaddF _ _ _ _ => 4
  | .redaddI _ _ _ _ => 4
  | .movi _ _ => 4
  | .movf _ _ => 4
  | .ld8z _ _ _ _ _ _ => 4
  | .ld8s _ _ _ _ _ _ => 4
  | .ld16z _ _ _ _ _ _ => 4
  | .ld16s _ _ _ _ _ _ => 4
  | .ld32 _ _ _ _ _ _ => 4
  | .ldF32 _ _ _ _ _ _ => 4
  | .ld64 _ _ _ _ _ _ => 4
  | .ld128 _ _ _ _ _ _ => 4
  | .st8 _ _ _ _ _ => 4
  | .st16 _ _ _ _ _ => 4
  | .st32 _ _ _ _ _ => 4
  | .st64 _ _ _ _ _ => 4
  | .st128 _ _ _ _ _ => 4
  | .stN4 _ _ _ _ _ => 4
  | .stN2 _ _ _ _ _ => 4
  | .lds32 _ _ _ _ _ => 4
  | .lds64 _ _ _ _ _ => 4
  | .lds128 _ _ _ _ _ => 4
  | .sts32 _ _ _ _ _ => 4
  | .sts64 _ _ _ _ _ => 4
  | .sts128 _ _ _ _ _ => 4
  | .ldc _ _ _ _ => 4
  | .wset _ _ _ => 4
  | .atomAdd _ _ _ _ _ => 4
  | .atomAddf _ _ _ _ _ => 4
  | .atomMin _ _ _ _ _ => 4
  | .atomMax _ _ _ _ _ => 4
  | .atomUmin _ _ _ _ _ => 4
  | .atomUmax _ _ _ _ _ => 4
  | .atomAnd _ _ _ _ _ => 4
  | .atomOr _ _ _ _ _ => 4
  | .atomXor _ _ _ _ _ => 4
  | .atomXchg _ _ _ _ _ => 4
  | .atomCas _ _ _ _ _ => 4
  | .atomAddh2 _ _ _ _ _ => 4
  | .redAdd _ _ _ _ _ _ => 4
  | .redAddf _ _ _ _ _ _ => 4
  | .redMin _ _ _ _ _ _ => 4
  | .redMax _ _ _ _ _ _ => 4
  | .redAnd _ _ _ _ _ _ => 4
  | .redOr _ _ _ _ _ _ => 4
  | .redXor _ _ _ _ _ _ => 4
  | .redAddx _ _ _ _ _ _ => 4
  | .ild _ _ _ _ _ => 4
  | .ildg _ _ _ _ _ => 4
  | .ispl _ _ _ _ _ => 4
  | .isplg _ _ _ _ _ => 4
  | .ifetch _ _ _ _ _ => 4
  | .iwgt _ _ _ _ _ => 4
  | .icell _ _ _ _ _ => 4
  | .istx _ _ _ _ _ => 4
  | .pkq _ _ _ _ => 4
  | .pkqs _ _ _ _ => 4
  | .pkb _ _ _ _ => 4
  | .pkbq _ _ _ _ => 4
  | .cpyG2s _ _ _ _ => 4
  | .cpyS2g _ _ _ _ => 4
  | .cpyS2s _ _ _ _ => 4
  | .cpyCmp _ _ _ _ _ => 4
  | .nbLd _ _ _ _ => 4
  | .nbRun _ _ _ _ _ => 4
  | .nbGet _ _ _ _ => 4
  | .nbGetSum _ _ _ _ => 4
  | .nbMode _ _ _ _ => 4
  | .coll _ _ _ _ => 4
  | .sadd _ _ _ _ _ => 4
  | .ssub _ _ _ _ _ => 4
  | .smul _ _ _ _ _ => 4
  | .smulhi _ _ _ _ _ => 4
  | .sand _ _ _ _ _ => 4
  | .sor _ _ _ _ _ => 4
  | .sxor _ _ _ _ _ => 4
  | .sshl _ _ _ _ _ => 4
  | .sshr _ _ _ _ _ => 4
  | .ssar _ _ _ _ _ => 4
  | .smin _ _ _ _ _ => 4
  | .smax _ _ _ _ _ => 4
  | .smov _ _ _ _ => 4
  | .ssetpEq _ _ _ _ _ _ => 4
  | .ssetpLt _ _ _ _ _ _ => 4
  | .ssetpUlt _ _ _ _ _ _ => 4
  | .smovi _ _ => 4
  | .bra _ _ _ => 4
  | .braQ _ _ _ => 4
  | .call _ _ => 4
  | .join _ => 4
  | .brx _ _ _ => 4
  | .callx _ _ _ => 4
  | .ret _ => 4
  | .jtab _ _ _ _ => 4
  | .barArr _ _ => 4
  | .barWait _ _ => 4
  | .barSync _ _ => 4
  | .fenceB _ => 4
  | .fenceD _ => 4
  | .fenceS _ => 4
  | .waitf _ _ => 4
  | .regang _ => 4
  | .dead _ _ _ => 4
  | .nopLong _ _ => 4
  | .loop _ _ _ => 4
  | .loopi _ _ _ => 4
  | .lbrk _ => 4
  | .fbp _ _ _ _ => 12
  | .pret _ => 4
  | .trap _ _ _ => 4
  | .brk _ _ _ => 4
  | .getsr _ _ _ _ _ => 4
  | .setsr _ _ _ _ => 4
  | .gcall _ _ => 4
  | .gret _ => 4
  | .gabort _ _ => 4
  | .spawn _ _ => 4
  | .exit _ _ => 4
  | .yield _ => 4
  | .xrd _ _ _ _ => 4
  | .xwr _ _ _ _ => 4
  | .wlpush _ _ _ _ => 4
  | .wlpop _ _ _ _ => 4
  | .wlins _ _ _ _ => 4
  | .wlcnt _ _ _ _ => 4
  | .isect _ _ _ _ _ => 4
  | .union _ _ _ _ _ => 4
  | .merge _ _ _ _ _ => 4
  | .compactMov _ _ => 2
  | .compactIadd _ _ => 2
  | .compactIsub _ _ => 2
  | .compactImul _ _ => 2
  | .compactAnd _ _ => 2
  | .compactOr _ _ => 2
  | .compactXor _ _ => 2
  | .compactShl _ _ => 2
  | .compactShr _ _ => 2
  | .compactSar _ _ => 2
  | .compactFadd _ _ => 2
  | .compactFsub _ _ => 2
  | .compactFmul _ _ => 2
  | .compactFmin _ _ => 2
  | .compactFmax _ _ => 2
  | .compactFneg _ _ => 2
  | .nopN _ => 2
  | .dead2 _ _ => 2
  | .braS _ => 2
  | .compactExit => 2
  | .barS _ => 2
  | .waitfS _ => 2
  | .compactRegang => 2
  | .compactRet => 2
  | .saddS _ _ => 2
  | .smovS _ _ => 2
  | .compactBrk => 2
  | .compactYield => 2
  | .joinS => 2
  | .mnop => 4
  | .mset _ _ => 4
  | .msetH _ _ => 4
  | .madd _ _ _ => 4
  | .maddImm _ _ _ => 4
  | .maddW _ _ _ => 4
  | .maddWImm _ _ _ => 4
  | .mbnz _ _ _ => 4
  | .mjmp _ => 4
  | .mhalt => 4
  | .tcfg _ _ _ _ _ _ => 4
  | .tld _ _ _ _ _ _ _ => 4
  | .tldt _ _ _ _ _ _ => 4
  | .mzero _ => 4
  | .mma _ _ _ => 4
  | .mmam _ _ _ _ => 4
  | .mdrain _ _ => 4
  | .mupd _ _ => 4
  | .bpush _ => 4
  | .bpop _ => 4
  | .bpopT _ _ => 4
  | .mbarA _ => 4
  | .mbarW _ => 4
  | .nrd _ _ _ _ => 4
  | .nwr _ _ _ _ => 4
  | .nnext _ _ => 4
  | .nif => 4
  | .nelse => 4
  | .nendif => 4
  | .nsum _ _ _ => 4
  | .nend => 4
  | .nbuIalu _ _ _ _ => 4
  | .nbuLogic _ _ _ _ => 4
  | .nbuFalu _ _ _ _ => 4
  | .nbuFcmp _ _ _ _ => 4
  | .nbuFfma _ _ _ _ => 4
  | .nbuMovi _ _ _ => 4
  | .launchWord _ _ => 0
  | .nodeStart _ _ => 0
  | .blockPlace _ => 0
  | .sequencerStart _ _ => 0
  | .reserveTimeout _ => 0
  | .taskSteal _ => 0
  | .completionRecordWrite _ => 0
  | .cqtailWrite _ _ => 0
  | .mqtailWrite _ _ => 0
  | .hostToDevice _ => 0
  | .deviceToHost _ => 0
  | .registerGraph _ => 0
  | .releaseHandle _ => 0
  | .map _ => 0
  | .unmap _ => 0
  | .setClass _ => 0
  | .markNotPresent _ => 0
  | .markPresent _ => 0
  | .crheadWrite _ _ => 0
  | .crtailRead _ => 0
  | .crbaseWrite _ _ => 0
  | .ringBaseWrite _ _ _ => 0
  | .pwrcapWrite _ => 0
  | .dlfwWrite _ _ _ => 0
  | .rclassWrite _ _ => 0
  | .elogackWrite _ _ => 0
  | .registerWrite _ _ => 0
  | .partitionSetup _ => 0
  | .vfBind _ _ _ => 0
  | .spdmMeasurement _ => 0
  | .doeImageWrite _ _ => 0
  | .packageReset => 0
  | .bringUpStep _ => 0
  | .partitionReset _ => 0
  | .groupReset _ _ => 0
  | .thermalTrip _ => 0
  | .temperatureThrottle _ _ => 0
  | .monitorSample _ => 0
  | .eolPublish _ _ _ => 0
  | .coreFence _ _ => 0
  | .flitReplay => 0
  | .linkRetrain _ _ => 0
  | .linkLost => 0
  | .sliceRetire _ => 0
  | .rehashResponse _ => 0
  | .pageRetire _ _ _ => 0
  | .dtSyncCheck _ => 0
  | .dtReload _ => 0
  | .dtUnsyncTimeout _ => 0
  | .homeRequest _ _ => 0
  | .loadReply _ => 0
  | .writeAck _ => 0
  | .errorResponse _ => 0
  | .nmReduction _ => 0
  | .pageInAbandon _ => 0
  | .pageInSave _ _ => 0
  | .unmapPinTimeout _ => 0
  | .requestTimeout _ => 0
  | .firewallDrop _ _ _ => 0
  | .fenceComplete _ _ _ => 0
  | .barrierArrival _ _ _ => 0
  | .barrierTimeout _ _ _ => 0
  | .engineCommandComplete _ _ _ => 0
  | .handlerEntry _ => 0
  | .gateBudgetExhausted _ _ => 0
  | .politeRequest _ => 0
  | .hardStage _ => 0
  | .contextSave _ _ => 0
  | .saveReplyTimeout _ => 0
  | .restore _ _ => 0
  | .thermalMigration _ => 0
  | .nbuResume _ => 0
  | .visitBound _ => 0
  | .refreshDue _ _ => 0
  | .suspendedRunFlush _ => 0
  | .collTimeout _ => 0
  | .swetafinLaneLoss _ _ => 0
  | .vfRelease _ => 0
  | .hostWindowSet _ _ _ _ => 0
  | .communicatorSetup _ _ _ => 0
  | .peerPortUnreachable _ => 0
  | .unmapReturn _ => 0

/-- The minor of a near-bank operation. -/
def NbuIalu.minor : NbuIalu → Nat
  | .iadd => 0
  | .isub => 1
  | .imin => 5
  | .imax => 6

/-- The minor of a near-bank operation. -/
def NbuLogic.minor : NbuLogic → Nat
  | .and => 0
  | .or => 1
  | .xor => 2
  | .andn => 3
  | .shl => 4
  | .shr => 5
  | .sar => 6
  | .rot => 7

/-- The minor of a near-bank operation. -/
def NbuFalu.minor : NbuFalu → Nat
  | .fadd => 0
  | .fsub => 1
  | .fmul => 2
  | .fmin => 3
  | .fmax => 4

/-- The minor of a near-bank condition. -/
def NbuFcmp.minor : NbuFcmp → Nat
  | .eq => 0
  | .ne => 1
  | .lt => 2
  | .le => 3
  | .gt => 4
  | .ge => 5
  | .un => 6

/-- A word with its fields, each value followed by its lowest bit. -/
def word1 (base v1 l1 : Nat) : Nat :=
  base + v1 * 2 ^ l1

/-- A word with its fields, each value followed by its lowest bit. -/
def word2 (base v1 l1 v2 l2 : Nat) : Nat :=
  base + v1 * 2 ^ l1 + v2 * 2 ^ l2

/-- A word with its fields, each value followed by its lowest bit. -/
def word3 (base v1 l1 v2 l2 v3 l3 : Nat) : Nat :=
  base + v1 * 2 ^ l1 + v2 * 2 ^ l2 + v3 * 2 ^ l3

/-- A word with its fields, each value followed by its lowest bit. -/
def word4 (base v1 l1 v2 l2 v3 l3 v4 l4 : Nat) : Nat :=
  base + v1 * 2 ^ l1 + v2 * 2 ^ l2 + v3 * 2 ^ l3 + v4 * 2 ^ l4

/-- A word with its fields, each value followed by its lowest bit. -/
def word5 (base v1 l1 v2 l2 v3 l3 v4 l4 v5 l5 : Nat) : Nat :=
  base + v1 * 2 ^ l1 + v2 * 2 ^ l2 + v3 * 2 ^ l3 + v4 * 2 ^ l4 + v5 * 2 ^ l5

/-- A word with its fields, each value followed by its lowest bit. -/
def word6 (base v1 l1 v2 l2 v3 l3 v4 l4 v5 l5 v6 l6 : Nat) : Nat :=
  base + v1 * 2 ^ l1 + v2 * 2 ^ l2 + v3 * 2 ^ l3 + v4 * 2 ^ l4 + v5 * 2 ^ l5 + v6 * 2 ^ l6

/-- A word with its fields, each value followed by its lowest bit. -/
def word7 (base v1 l1 v2 l2 v3 l3 v4 l4 v5 l5 v6 l6 v7 l7 : Nat) : Nat :=
  base + v1 * 2 ^ l1 + v2 * 2 ^ l2 + v3 * 2 ^ l3 + v4 * 2 ^ l4 + v5 * 2 ^ l5 + v6 * 2 ^ l6 + v7 * 2 ^ l7

/-- The words of an instruction, first word lowest (R216 to R218, R223, R307, R320); an event has none. -/
def encode : Instr → Nat
  | .iadd g p d a b => word5 0x1 g 6 p 8 d 11 a 17 b 23
  | .isub g p d a b => word5 0x20000001 g 6 p 8 d 11 a 17 b 23
  | .imul g p d a b => word5 0x40000001 g 6 p 8 d 11 a 17 b 23
  | .imulhs g p d a b => word5 0x60000001 g 6 p 8 d 11 a 17 b 23
  | .imulhu g p d a b => word5 0x80000001 g 6 p 8 d 11 a 17 b 23
  | .imin g p d a b => word5 0xA0000001 g 6 p 8 d 11 a 17 b 23
  | .imax g p d a b => word5 0xC0000001 g 6 p 8 d 11 a 17 b 23
  | .umin g p d a b => word5 0xE0000001 g 6 p 8 d 11 a 17 b 23
  | .umax g p d a b => word5 0x3 g 6 p 8 d 11 a 17 b 23
  | .iadds g p d a b => word5 0x20000003 g 6 p 8 d 11 a 17 b 23
  | .isubs g p d a b => word5 0x40000003 g 6 p 8 d 11 a 17 b 23
  | .iabs g p d a => word4 0x60000003 g 6 p 8 d 11 a 17
  | .ineg g p d a => word4 0x80000003 g 6 p 8 d 11 a 17
  | .popc g p d a => word4 0xA0000003 g 6 p 8 d 11 a 17
  | .clz g p d a => word4 0xC0000003 g 6 p 8 d 11 a 17
  | .brev g p d a => word4 0xE0000003 g 6 p 8 d 11 a 17
  | .and g p d a b => word5 0x5 g 6 p 8 d 11 a 17 b 23
  | .or g p d a b => word5 0x20000005 g 6 p 8 d 11 a 17 b 23
  | .xor g p d a b => word5 0x40000005 g 6 p 8 d 11 a 17 b 23
  | .andn g p d a b => word5 0x60000005 g 6 p 8 d 11 a 17 b 23
  | .shl g p d a b => word5 0x80000005 g 6 p 8 d 11 a 17 b 23
  | .shr g p d a b => word5 0xA0000005 g 6 p 8 d 11 a 17 b 23
  | .sar g p d a b => word5 0xC0000005 g 6 p 8 d 11 a 17 b 23
  | .rot g p d a b => word5 0xE0000005 g 6 p 8 d 11 a 17 b 23
  | .bfe g p d a b => word5 0x7 g 6 p 8 d 11 a 17 b 23
  | .bfes g p d a b => word5 0x20000007 g 6 p 8 d 11 a 17 b 23
  | .bfi g p d a b => word5 0x40000007 g 6 p 8 d 11 a 17 b 23
  | .bmix g p d a b => word5 0x60000007 g 6 p 8 d 11 a 17 b 23
  | .sel g p d a b => word5 0x80000007 g 6 p 8 d 11 a 17 b 23
  | .mov g p d a => word4 0xA0000007 g 6 p 8 d 11 a 17
  | .lea4 g p d a b => word5 0xC0000007 g 6 p 8 d 11 a 17 b 23
  | .lea8 g p d a b => word5 0xE0000007 g 6 p 8 d 11 a 17 b 23
  | .isetpEq g p x k a b => word6 0x9 g 6 p 8 x 11 k 14 a 17 b 23
  | .isetpNe g p x k a b => word6 0x20000009 g 6 p 8 x 11 k 14 a 17 b 23
  | .isetpLt g p x k a b => word6 0x40000009 g 6 p 8 x 11 k 14 a 17 b 23
  | .isetpLe g p x k a b => word6 0x60000009 g 6 p 8 x 11 k 14 a 17 b 23
  | .isetpGt g p x k a b => word6 0x80000009 g 6 p 8 x 11 k 14 a 17 b 23
  | .isetpGe g p x k a b => word6 0xA0000009 g 6 p 8 x 11 k 14 a 17 b 23
  | .isetpUlt g p x k a b => word6 0xC0000009 g 6 p 8 x 11 k 14 a 17 b 23
  | .isetpUle g p x k a b => word6 0xE0000009 g 6 p 8 x 11 k 14 a 17 b 23
  | .fadd g p d a b => word5 0xB g 6 p 8 d 11 a 17 b 23
  | .fsub g p d a b => word5 0x2000000B g 6 p 8 d 11 a 17 b 23
  | .fmul g p d a b => word5 0x4000000B g 6 p 8 d 11 a 17 b 23
  | .fmin g p d a b => word5 0x6000000B g 6 p 8 d 11 a 17 b 23
  | .fmax g p d a b => word5 0x8000000B g 6 p 8 d 11 a 17 b 23
  | .fabs g p d a => word4 0xA000000B g 6 p 8 d 11 a 17
  | .fneg g p d a => word4 0xC000000B g 6 p 8 d 11 a 17
  | .fcpys g p d a b => word5 0xE000000B g 6 p 8 d 11 a 17 b 23
  | .fsetpEq g p x k a b => word6 0xD g 6 p 8 x 11 k 14 a 17 b 23
  | .fsetpNe g p x k a b => word6 0x2000000D g 6 p 8 x 11 k 14 a 17 b 23
  | .fsetpLt g p x k a b => word6 0x4000000D g 6 p 8 x 11 k 14 a 17 b 23
  | .fsetpLe g p x k a b => word6 0x6000000D g 6 p 8 x 11 k 14 a 17 b 23
  | .fsetpGt g p x k a b => word6 0x8000000D g 6 p 8 x 11 k 14 a 17 b 23
  | .fsetpGe g p x k a b => word6 0xA000000D g 6 p 8 x 11 k 14 a 17 b 23
  | .fsetpUn g p x k a b => word6 0xC000000D g 6 p 8 x 11 k 14 a 17 b 23
  | .fclass g p d a => word4 0xE000000D g 6 p 8 d 11 a 17
  | .ffma g d a b c => word5 0xF g 6 d 8 a 14 b 20 c 26
  | .ffmaL g d a b lit => word5 0x11 g 6 d 8 a 14 b 20 lit.toNat 32
  | .ffmaC g d a b c => word5 0x13 g 6 d 8 a 14 b 20 c 26
  | .frcp g p d a => word4 0x15 g 6 p 8 d 11 a 17
  | .frsq g p d a => word4 0x20000015 g 6 p 8 d 11 a 17
  | .fsqrt g p d a => word4 0x40000015 g 6 p 8 d 11 a 17
  | .fex2 g p d a => word4 0x60000015 g 6 p 8 d 11 a 17
  | .flg2 g p d a => word4 0x80000015 g 6 p 8 d 11 a 17
  | .fsinp g p d a => word4 0xA0000015 g 6 p 8 d 11 a 17
  | .fcosp g p d a => word4 0xC0000015 g 6 p 8 d 11 a 17
  | .ftanh g p d a => word4 0xE0000015 g 6 p 8 d 11 a 17
  | .cvt g p d a f => word5 0x17 g 6 p 8 d 11 a 17 f 23
  | .f2i g p d a f => word5 0x20000017 g 6 p 8 d 11 a 17 f 23
  | .i2f g p d a f => word5 0x40000017 g 6 p 8 d 11 a 17 f 23
  | .tagset g p d a t => word5 0x60000017 g 6 p 8 d 11 a 17 t 23
  | .tagget g p d a => word4 0x80000017 g 6 p 8 d 11 a 17
  | .unpkLo g p d a => word4 0xA0000017 g 6 p 8 d 11 a 17
  | .unpkHi g p d a => word4 0xC0000017 g 6 p 8 d 11 a 17
  | .scl g p d a b => word5 0xE0000017 g 6 p 8 d 11 a 17 b 23
  | .hadd2 g p d a b => word5 0x19 g 6 p 8 d 11 a 17 b 23
  | .hmul2 g p d a b => word5 0x20000019 g 6 p 8 d 11 a 17 b 23
  | .hfma2 g p d a b => word5 0x40000019 g 6 p 8 d 11 a 17 b 23
  | .hmin2 g p d a b => word5 0x60000019 g 6 p 8 d 11 a 17 b 23
  | .hmax2 g p d a b => word5 0x80000019 g 6 p 8 d 11 a 17 b 23
  | .dot2 g p d a b => word5 0xA0000019 g 6 p 8 d 11 a 17 b 23
  | .dot4 g p d a b => word5 0xC0000019 g 6 p 8 d 11 a 17 b 23
  | .pack g p d a b => word5 0xE0000019 g 6 p 8 d 11 a 17 b 23
  | .shflIdx g p d a b => word5 0x1B g 6 p 8 d 11 a 17 b 23
  | .shflUp g p d a n => word5 0x2000001B g 6 p 8 d 11 a 17 n 23
  | .shflDn g p d a n => word5 0x4000001B g 6 p 8 d 11 a 17 n 23
  | .shflXor g p d a n => word5 0x6000001B g 6 p 8 d 11 a 17 n 23
  | .pollSome g p q x => word4 0x8000001B g 6 p 8 q 11 x 17
  | .pollEvery g p q x => word4 0x8080001B g 6 p 8 q 11 x 17
  | .pollAgree g p q x => word4 0x8100001B g 6 p 8 q 11 x 17
  | .pollMost g p q x => word4 0x8180001B g 6 p 8 q 11 x 17
  | .ballot g p d x => word4 0xA000001B g 6 p 8 d 11 x 17
  | .redaddF g p d a => word4 0xC000001B g 6 p 8 d 11 a 17
  | .redaddI g p d a => word4 0xE000001B g 6 p 8 d 11 a 17
  | .movi d i => word2 0x1D d 6 i 12
  | .movf d i => word2 0x1F d 6 i 12
  | .ld8z g p d a n r => word6 0x21 g 6 p 8 d 11 a 17 n 23 r.toNat 31
  | .ld8s g p d a n r => word6 0x10000021 g 6 p 8 d 11 a 17 n 23 r.toNat 31
  | .ld16z g p d a n r => word6 0x20000021 g 6 p 8 d 11 a 17 n 23 r.toNat 31
  | .ld16s g p d a n r => word6 0x30000021 g 6 p 8 d 11 a 17 n 23 r.toNat 31
  | .ld32 g p d a n r => word6 0x40000021 g 6 p 8 d 11 a 17 n 23 r.toNat 31
  | .ldF32 g p d a n r => word6 0x50000021 g 6 p 8 d 11 a 17 n 23 r.toNat 31
  | .ld64 g p d a n r => word6 0x60000021 g 6 p 8 d 11 a 17 n 23 r.toNat 31
  | .ld128 g p d a n r => word6 0x70000021 g 6 p 8 d 11 a 17 n 23 r.toNat 31
  | .st8 g p d a n => word5 0x23 g 6 p 8 d 11 a 17 n 23
  | .st16 g p d a n => word5 0x10000023 g 6 p 8 d 11 a 17 n 23
  | .st32 g p d a n => word5 0x20000023 g 6 p 8 d 11 a 17 n 23
  | .st64 g p d a n => word5 0x30000023 g 6 p 8 d 11 a 17 n 23
  | .st128 g p d a n => word5 0x40000023 g 6 p 8 d 11 a 17 n 23
  | .stN4 g p d a n => word5 0x50000023 g 6 p 8 d 11 a 17 n 23
  | .stN2 g p d a n => word5 0x60000023 g 6 p 8 d 11 a 17 n 23
  | .lds32 g p d a n => word5 0x25 g 6 p 8 d 11 a 17 n 23
  | .lds64 g p d a n => word5 0x10000025 g 6 p 8 d 11 a 17 n 23
  | .lds128 g p d a n => word5 0x20000025 g 6 p 8 d 11 a 17 n 23
  | .sts32 g p d a n => word5 0x30000025 g 6 p 8 d 11 a 17 n 23
  | .sts64 g p d a n => word5 0x40000025 g 6 p 8 d 11 a 17 n 23
  | .sts128 g p d a n => word5 0x50000025 g 6 p 8 d 11 a 17 n 23
  | .ldc g d a n => word4 0x60000025 g 6 d 11 a 17 n 23
  | .wset g w n => word3 0x70000025 g 6 w 11 n 23
  | .atomAdd g p d a n => word5 0x27 g 6 p 8 d 11 a 17 n 23
  | .atomAddf g p d a n => word5 0x10000027 g 6 p 8 d 11 a 17 n 23
  | .atomMin g p d a n => word5 0x20000027 g 6 p 8 d 11 a 17 n 23
  | .atomMax g p d a n => word5 0x30000027 g 6 p 8 d 11 a 17 n 23
  | .atomUmin g p d a n => word5 0x40000027 g 6 p 8 d 11 a 17 n 23
  | .atomUmax g p d a n => word5 0x50000027 g 6 p 8 d 11 a 17 n 23
  | .atomAnd g p d a n => word5 0x60000027 g 6 p 8 d 11 a 17 n 23
  | .atomOr g p d a n => word5 0x70000027 g 6 p 8 d 11 a 17 n 23
  | .atomXor g p d a n => word5 0x80000027 g 6 p 8 d 11 a 17 n 23
  | .atomXchg g p d a n => word5 0x90000027 g 6 p 8 d 11 a 17 n 23
  | .atomCas g p d a n => word5 0xA0000027 g 6 p 8 d 11 a 17 n 23
  | .atomAddh2 g p d a n => word5 0xB0000027 g 6 p 8 d 11 a 17 n 23
  | .redAdd g p d a n k => word6 0x29 g 6 p 8 d 11 a 17 n 23 k.toNat 31
  | .redAddf g p d a n k => word6 0x10000029 g 6 p 8 d 11 a 17 n 23 k.toNat 31
  | .redMin g p d a n k => word6 0x20000029 g 6 p 8 d 11 a 17 n 23 k.toNat 31
  | .redMax g p d a n k => word6 0x30000029 g 6 p 8 d 11 a 17 n 23 k.toNat 31
  | .redAnd g p d a n k => word6 0x40000029 g 6 p 8 d 11 a 17 n 23 k.toNat 31
  | .redOr g p d a n k => word6 0x50000029 g 6 p 8 d 11 a 17 n 23 k.toNat 31
  | .redXor g p d a n k => word6 0x60000029 g 6 p 8 d 11 a 17 n 23 k.toNat 31
  | .redAddx g p d a n k => word6 0x70000029 g 6 p 8 d 11 a 17 n 23 k.toNat 31
  | .ild g p d a s => word5 0x2B g 6 p 8 d 11 a 17 s 23
  | .ildg g p d a s => word5 0x800002B g 6 p 8 d 11 a 17 s 23
  | .ispl g p d a s => word5 0x1000002B g 6 p 8 d 11 a 17 s 23
  | .isplg g p d a s => word5 0x1800002B g 6 p 8 d 11 a 17 s 23
  | .ifetch g p d a s => word5 0x2000002B g 6 p 8 d 11 a 17 s 23
  | .iwgt g p d a s => word5 0x2800002B g 6 p 8 d 11 a 17 s 23
  | .icell g p d a s => word5 0x3000002B g 6 p 8 d 11 a 17 s 23
  | .istx g p d a s => word5 0x3800002B g 6 p 8 d 11 a 17 s 23
  | .pkq g p f n => word4 0x2D g 6 p 8 f 11 n 23
  | .pkqs g p f n => word4 0x1000002D g 6 p 8 f 11 n 23
  | .pkb g p f n => word4 0x2000002D g 6 p 8 f 11 n 23
  | .pkbq g p f n => word4 0x3000002D g 6 p 8 f 11 n 23
  | .cpyG2s g p f n => word4 0x2F g 6 p 8 f 11 n 23
  | .cpyS2g g p f n => word4 0x1000002F g 6 p 8 f 11 n 23
  | .cpyS2s g p f n => word4 0x2000002F g 6 p 8 f 11 n 23
  | .cpyCmp g p f a n => word5 0x3000002F g 6 p 8 f 11 a 17 n 23
  | .nbLd g p f n => word4 0x4000002F g 6 p 8 f 11 n 23
  | .nbRun g p f a n => word5 0x5000002F g 6 p 8 f 11 a 17 n 23
  | .nbGet g p f n => word4 0x6000002F g 6 p 8 f 11 n 23
  | .nbGetSum g p f n => word4 0x6000802F g 6 p 8 f 11 n 23
  | .nbMode g p f n => word4 0x7000002F g 6 p 8 f 11 n 23
  | .coll g p f n => word4 0x8000002F g 6 p 8 f 11 n 23
  | .sadd g q d a b => word5 0x31 g 6 q 8 d 11 a 17 b 23
  | .ssub g q d a b => word5 0x20000031 g 6 q 8 d 11 a 17 b 23
  | .smul g q d a b => word5 0x40000031 g 6 q 8 d 11 a 17 b 23
  | .smulhi g q d a b => word5 0x60000031 g 6 q 8 d 11 a 17 b 23
  | .sand g q d a b => word5 0x80000031 g 6 q 8 d 11 a 17 b 23
  | .sor g q d a b => word5 0xA0000031 g 6 q 8 d 11 a 17 b 23
  | .sxor g q d a b => word5 0xC0000031 g 6 q 8 d 11 a 17 b 23
  | .sshl g q d a b => word5 0xE0000031 g 6 q 8 d 11 a 17 b 23
  | .sshr g q d a b => word5 0x33 g 6 q 8 d 11 a 17 b 23
  | .ssar g q d a b => word5 0x20000033 g 6 q 8 d 11 a 17 b 23
  | .smin g q d a b => word5 0x40000033 g 6 q 8 d 11 a 17 b 23
  | .smax g q d a b => word5 0x60000033 g 6 q 8 d 11 a 17 b 23
  | .smov g q d a => word4 0x80000033 g 6 q 8 d 11 a 17
  | .ssetpEq g q x k a b => word6 0xA0000033 g 6 q 8 x 11 k 14 a 17 b 23
  | .ssetpLt g q x k a b => word6 0xC0000033 g 6 q 8 x 11 k 14 a 17 b 23
  | .ssetpUlt g q x k a b => word6 0xE0000033 g 6 q 8 x 11 k 14 a 17 b 23
  | .smovi d i => word2 0x35 d 6 i 12
  | .bra g p o => word3 0x37 g 6 p 8 o 14
  | .braQ g q o => word3 0x837 g 6 q 8 o 14
  | .call g o => word2 0x1037 g 6 o 14
  | .join g => word1 0x1837 g 6
  | .brx g p r => word3 0x2037 g 6 p 8 r 14
  | .callx g p r => word3 0x2837 g 6 p 8 r 14
  | .ret g => word1 0x3037 g 6
  | .jtab g p r t => word4 0x3837 g 6 p 8 r 14 t 20
  | .barArr g n => word2 0x39 g 6 n 16
  | .barWait g n => word2 0x839 g 6 n 16
  | .barSync g n => word2 0x1039 g 6 n 16
  | .fenceB g => word1 0x1839 g 6
  | .fenceD g => word1 0x11839 g 6
  | .fenceS g => word1 0x21839 g 6
  | .waitf g m => word2 0x2039 g 6 m 16
  | .regang g => word1 0x2839 g 6
  | .dead g f n => word3 0x3039 g 6 f 16 n 22
  | .nopLong g n => word2 0x3839 g 6 n 16
  | .loop g c e => word3 0x3B g 6 c 16 e 22
  | .loopi g n e => word3 0x83B g 6 n 16 e 24
  | .lbrk g => word1 0x103B g 6
  | .fbp g i lo hi => word4 0x183B g 6 i 16 lo.toNat 32 hi.toNat 64
  | .pret g => word1 0x203B g 6
  | .trap g p i => word3 0x3D g 6 p 8 i 16
  | .brk g p i => word3 0x83D g 6 p 8 i 16
  | .getsr g p d c s => word5 0x103D g 6 p 8 d 16 c.toNat 22 s 23
  | .setsr g x c s => word4 0x183D g 6 x 16 c.toNat 22 s 23
  | .gcall g i => word2 0x203D g 6 i 16
  | .gret g => word1 0x283D g 6
  | .gabort g i => word2 0x303D g 6 i 16
  | .spawn g n => word2 0x383D g 6 n 16
  | .exit g p => word2 0x403D g 6 p 8
  | .yield g => word1 0x483D g 6
  | .xrd g d c x => word4 0x503D g 6 d 16 c.toNat 22 x 23
  | .xwr g s c x => word4 0x583D g 6 s 16 c.toNat 22 x 23
  | .wlpush g p a w => word4 0x3F g 6 p 8 a 17 w 23
  | .wlpop g p d w => word4 0x2000003F g 6 p 8 d 11 w 23
  | .wlins g p a w => word4 0x4000003F g 6 p 8 a 17 w 23
  | .wlcnt g p d w => word4 0x6000003F g 6 p 8 d 11 w 23
  | .isect g p d a b => word5 0x8000003F g 6 p 8 d 11 a 17 b 23
  | .union g p d a b => word5 0xA000003F g 6 p 8 d 11 a 17 b 23
  | .merge g p d a b => word5 0xC000003F g 6 p 8 d 11 a 17 b 23
  | .compactMov d s => word2 0x0 d 5 s 10
  | .compactIadd d s => word2 0x2 d 5 s 10
  | .compactIsub d s => word2 0x4 d 5 s 10
  | .compactImul d s => word2 0x6 d 5 s 10
  | .compactAnd d s => word2 0x8 d 5 s 10
  | .compactOr d s => word2 0xA d 5 s 10
  | .compactXor d s => word2 0xC d 5 s 10
  | .compactShl d s => word2 0xE d 5 s 10
  | .compactShr d s => word2 0x10 d 5 s 10
  | .compactSar d s => word2 0x12 d 5 s 10
  | .compactFadd d s => word2 0x14 d 5 s 10
  | .compactFsub d s => word2 0x16 d 5 s 10
  | .compactFmul d s => word2 0x18 d 5 s 10
  | .compactFmin d s => word2 0x1A d 5 s 10
  | .compactFmax d s => word2 0x1C d 5 s 10
  | .compactFneg d s => word2 0x1E d 5 s 10
  | .nopN n => word1 0x8000 n 5
  | .dead2 d s => word2 0x8002 d 5 s 10
  | .braS o => word1 0x8004 o 5
  | .compactExit => 0x8006
  | .barS n => word1 0x8008 n 5
  | .waitfS m => word1 0x800A m 5
  | .compactRegang => 0x800C
  | .compactRet => 0x800E
  | .saddS d s => word2 0x8010 d 5 s 10
  | .smovS d s => word2 0x8012 d 5 s 10
  | .compactBrk => 0x8014
  | .compactYield => 0x8016
  | .joinS => 0x8018
  | .mnop => 0x1
  | .mset d i => word2 0x3 d 6 i 11
  | .msetH d i => word2 0x403 d 6 i 11
  | .madd d a b => word3 0x5 d 6 a 10 b 16
  | .maddImm d a i => word3 0x4005 d 6 a 10 i 16
  | .maddW d a b => word3 0x8005 d 6 a 10 b 16
  | .maddWImm d a i => word3 0xC005 d 6 a 10 i 16
  | .mbnz c k o => word3 0x7 c 6 k.toNat 10 o 11
  | .mjmp o => word1 0x9 o 6
  | .mhalt => 0xB
  | .tcfg t n c s a b => word6 0xD t 6 n.toNat 8 c.toNat 9 s 10 a 12 b 18
  | .tld t a x w s r p => word7 0xF t 6 a 9 x.toNat 13 w 14 s 18 r 22 p.toNat 28
  | .tldt t a x w s z => word6 0x11 t 6 a 9 x.toNat 13 w 14 s 18 z 22
  | .mzero n => word1 0x13 n 6
  | .mma n a b => word3 0x15 n 6 a 11 b 14
  | .mmam n a b c => word4 0x17 n 6 a 11 b 15 c 19
  | .mdrain n r => word2 0x19 n 6 r 11
  | .mupd n r => word2 0x1B n 6 r 11
  | .bpush t => word1 0x1D t 6
  | .bpop t => word1 0x1F t 6
  | .bpopT t z => word2 0x21F t 6 z 10
  | .mbarA n => word1 0x21 n 6
  | .mbarW n => word1 0x23 n 6
  | .nrd d a c x => word4 0x3F d 11 a 17 c 23 x.toNat 28
  | .nwr d a c x => word4 0x2000003F d 11 a 17 c 23 x.toNat 28
  | .nnext a h => word2 0x4000003F a 17 h.toNat 23
  | .nif => 0x6000003F
  | .nelse => 0x8000003F
  | .nendif => 0xA000003F
  | .nsum d a t => word3 0xC000003F d 11 a 17 t.toNat 23
  | .nend => 0xE000003F
  | .nbuIalu op d a b => word4 0x1 d 11 a 17 b 23 op.minor 29
  | .nbuLogic op d a b => word4 0x5 d 11 a 17 b 23 op.minor 29
  | .nbuFalu op d a b => word4 0xB d 11 a 17 b 23 op.minor 29
  | .nbuFcmp op k a b => word4 0xD k 14 a 17 b 23 op.minor 29
  | .nbuFfma d a b c => word4 0xF d 8 a 14 b 20 c 26
  | .nbuMovi float d i => if float then word2 0x1F d 6 i 12 else word2 0x1D d 6 i 12
  | .launchWord _ _ => 0
  | .nodeStart _ _ => 0
  | .blockPlace _ => 0
  | .sequencerStart _ _ => 0
  | .reserveTimeout _ => 0
  | .taskSteal _ => 0
  | .completionRecordWrite _ => 0
  | .cqtailWrite _ _ => 0
  | .mqtailWrite _ _ => 0
  | .hostToDevice _ => 0
  | .deviceToHost _ => 0
  | .registerGraph _ => 0
  | .releaseHandle _ => 0
  | .map _ => 0
  | .unmap _ => 0
  | .setClass _ => 0
  | .markNotPresent _ => 0
  | .markPresent _ => 0
  | .crheadWrite _ _ => 0
  | .crtailRead _ => 0
  | .crbaseWrite _ _ => 0
  | .ringBaseWrite _ _ _ => 0
  | .pwrcapWrite _ => 0
  | .dlfwWrite _ _ _ => 0
  | .rclassWrite _ _ => 0
  | .elogackWrite _ _ => 0
  | .registerWrite _ _ => 0
  | .partitionSetup _ => 0
  | .vfBind _ _ _ => 0
  | .spdmMeasurement _ => 0
  | .doeImageWrite _ _ => 0
  | .packageReset => 0
  | .bringUpStep _ => 0
  | .partitionReset _ => 0
  | .groupReset _ _ => 0
  | .thermalTrip _ => 0
  | .temperatureThrottle _ _ => 0
  | .monitorSample _ => 0
  | .eolPublish _ _ _ => 0
  | .coreFence _ _ => 0
  | .flitReplay => 0
  | .linkRetrain _ _ => 0
  | .linkLost => 0
  | .sliceRetire _ => 0
  | .rehashResponse _ => 0
  | .pageRetire _ _ _ => 0
  | .dtSyncCheck _ => 0
  | .dtReload _ => 0
  | .dtUnsyncTimeout _ => 0
  | .homeRequest _ _ => 0
  | .loadReply _ => 0
  | .writeAck _ => 0
  | .errorResponse _ => 0
  | .nmReduction _ => 0
  | .pageInAbandon _ => 0
  | .pageInSave _ _ => 0
  | .unmapPinTimeout _ => 0
  | .requestTimeout _ => 0
  | .firewallDrop _ _ _ => 0
  | .fenceComplete _ _ _ => 0
  | .barrierArrival _ _ _ => 0
  | .barrierTimeout _ _ _ => 0
  | .engineCommandComplete _ _ _ => 0
  | .handlerEntry _ => 0
  | .gateBudgetExhausted _ _ => 0
  | .politeRequest _ => 0
  | .hardStage _ => 0
  | .contextSave _ _ => 0
  | .saveReplyTimeout _ => 0
  | .restore _ _ => 0
  | .thermalMigration _ => 0
  | .nbuResume _ => 0
  | .visitBound _ => 0
  | .refreshDue _ _ => 0
  | .suspendedRunFlush _ => 0
  | .collTimeout _ => 0
  | .swetafinLaneLoss _ _ => 0
  | .vfRelease _ => 0
  | .hostWindowSet _ _ _ _ => 0
  | .communicatorSetup _ _ _ => 0
  | .peerPortUnreachable _ => 0
  | .unmapReturn _ => 0

end Sys2Proof
end

