-- ==== Sys2Proof/Machine/State.lean ====
section
/-! DEFINITION. The machine's state as plain data: every piece of state the spec gives the part (INVENTORY.md, State), and the model's
own bookkeeping, marked as such. Sparse tables (`Assoc`) list only entries that differ from the default their accessor names. -/

namespace Sys2Proof.Machine

/-! Registers of a group. -/

/-- Values that the lanes of `mask` held before a fixed-latency result: a reader before tick `til` may still receive them (R55, R374). -/
structure OldLanes where
  til   : Nat
  mask  : Word
  lanes : List Word
deriving DecidableEq, Repr

/-- A vector register (R45, R51, R56, R58, R384): 32 lanes, the tag, full or empty, dead, a poison bit a lane; `olds` is what a reader may
receive before the results written last are readable, `owed` the lanes an outstanding producer has still to write, `issued` those it writes
altogether (R379). -/
structure VReg where
  lanes  : List Word
  tag    : Nat
  full   : Bool
  dead   : Bool
  poison : Word
  olds   : List OldLanes
  owed   : Word
  issued : Word
deriving DecidableEq, Repr

/-- A uniform register (R45, R56, R384); `olds` are earlier values with the tick up to which a reader may receive them (R374). -/
structure SReg where
  val    : Word
  full   : Bool
  poison : Bool
  olds   : List (Nat × Word)
deriving DecidableEq, Repr

/-- Bits that the lanes of `mask` held before a fixed-latency result, up to tick `til` (R374). -/
structure OldBits where
  til  : Nat
  mask : Word
  bits : Word
deriving DecidableEq, Repr

/-- A predicate: one bit a lane (R45). -/
structure PReg where
  val  : Word
  olds : List OldBits
deriving DecidableEq, Repr

/-- A uniform predicate (R45). -/
structure QReg where
  val  : Bool
  olds : List (Nat × Bool)
deriving DecidableEq, Repr

/-- At group start a vector register holds zero, is full and has tag I32 (R47). -/
def VReg.start : VReg := ⟨List.replicate 32 0, 0, true, false, 0, [], 0, 0⟩

/-- At group start a uniform register holds zero and is full (R47). -/
def SReg.start : SReg := ⟨0, true, false, []⟩

/-- At group start a predicate is false (R47). -/
def PReg.start : PReg := ⟨0, []⟩

/-- At group start a uniform predicate is false (R47). -/
def QReg.start : QReg := ⟨false, []⟩

/-! Strands. -/

/-- An entry of a divergence stack (R35). -/
structure DivEntry where
  pc      : Dword
  mask    : BitVec 4
  rmask   : BitVec 4
  running : Bool
deriving DecidableEq, Repr

/-- An entry of a loop stack (R37). -/
structure LoopEntry where
  start : Dword
  stop  : Dword
  count : Word
deriving DecidableEq, Repr

/-- Why a strand issues nothing although its group runs. A fence and a barrier wait remember what they wait for. -/
inductive Hold where
  /-- Held in `regang`, `fbp` or a gate instruction until the group re-forms (R34, R180, R196). -/
  | gather
  /-- A fence of scope 0 `.b`, 1 `.d`, 2 `.s`, over the requests numbered below `upTo` (R99). -/
  | fence (scope upTo : Nat)
  /-- Waiting since a tick on a barrier for a phase to complete, at an instruction of `len` bytes; `arrives` says that the instruction
  also arrived (R42). -/
  | barrier (bar phase since len : Nat) (arrives : Bool)
  /-- Waiting since a tick for a phase to complete in which the group has already arrived, before an arriving instruction (R42). -/
  | arrival (bar phase since : Nat)
  /-- Held at `yield` while a polite request is pending (R191). -/
  | yield
  /-- Inside gate 0 until the mapping service answers (R176). -/
  | service
deriving DecidableEq, Repr

/-- A strand (R29): PC, LR, masks, stacks, its gang, what holds it, and the tick of its previous issue with the ticks a `nop` adds (R54). -/
structure Strand where
  pc     : Dword
  lr     : Word
  active : BitVec 4
  exited : BitVec 4
  div    : List DivEntry
  loops  : List LoopEntry
  gang   : Nat
  held   : Option Hold
  prev   : Option Nat
  /-- Its `bar.sync` timed out with its arrival counted: reissued, it performs only its wait (R377). -/
  waitOnly : Bool
  /-- The wait count W of the gang this strand names (R190). -/
  wait   : Nat
  /-- Earlier values of LR that a reader may still receive after a `setsr` (R50, R374). -/
  lrOlds : List (Nat × Word)
  /-- Loop and divergence entries above the stacks' depth that a handler has written, by their numbers, until it exits (R285; log 20). -/
  loopsAbove : Assoc LoopEntry
  divAbove   : Assoc DivEntry
deriving DecidableEq, Repr

/-- What a flashback point records of a strand (R196). -/
structure StrandSnap where
  active : BitVec 4
  exited : BitVec 4
  lr     : Word
  div    : List DivEntry
  loops  : List LoopEntry
deriving DecidableEq, Repr

/-- A flashback point (R196); `waited` is the model's: the waits on barriers that were over then, which a rewind brings back (R198). -/
structure FlashPoint where
  resume   : Dword
  pricking : Option Dword
  mask     : Dword
  strands  : List StrandSnap
  waited   : Assoc (BitVec 8)
deriving DecidableEq, Repr

/-! Domains. -/

/-- A domain register: the range entries, ID, handler and class of one domain (R77, R172). -/
structure DomReg where
  id      : Nat
  ranges  : List (Dword × Dword)
  handler : Dword
  tclass  : Nat
deriving DecidableEq, Repr

/-- A domain-table entry (Table 13.2). -/
structure Domain where
  ranges  : List (Dword × Dword)
  handler : Dword
  keys    : List Word
  tclass  : Nat
  csave   : Nat
deriving DecidableEq, Repr

def Domain.none : Domain := ⟨List.replicate 8 (0, 0), 0, List.replicate 8 0, 0, 0⟩

/-! Groups. -/

/-- A group at a barrier (R41, R42): the strands that have executed an arriving instruction since the group's last arrival; whether the
group's arrival still waits for its fence conditions over the requests numbered below `upTo`; the phase the group last arrived in and the
strands that have already waited for it. -/
structure GroupBar where
  strands : BitVec 8
  arrived : Bool
  upTo    : Nat
  last    : Option Nat
  waited  : BitVec 8
deriving DecidableEq, Repr

def GroupBar.none : GroupBar := ⟨0, false, 0, Option.none, 0⟩

/-- What `gcall` keeps of the caller (R180); `mark` is the number of the free bytes of its frame in memory (log 11). -/
structure CallFrame where
  v       : Assoc VReg
  s       : Assoc SReg
  p       : Assoc PReg
  q       : Assoc QReg
  fpm     : Word
  fpf     : Word
  nfv     : Word
  cbwin   : Word
  gmode   : Word
  strands : List Strand
  resume  : Dword
  dom     : DomReg
  nvr     : Nat
  nur     : Nat
  storeErr : Option Nat
  budget  : Nat
  used    : Nat
  save    : Nat
  mark    : Nat
deriving DecidableEq, Repr

/-- A trap: its cause, the strand (8 for the sequencer), s4:s5 and s6:s7 (R202). -/
structure TrapRec where
  cause  : Nat
  strand : Nat
  pc     : Dword
  va     : Dword
deriving DecidableEq, Repr

/-- Whether a group runs (R202, R199). -/
inductive GroupStop where
  | running
  /-- Stopped with a trap, waiting for the handler slot. -/
  | waiting (t : TrapRec)
  /-- Stopped and served by the handler slot. -/
  | served (t : TrapRec)
  /-- Stopped by the hard stage of a pre-emption, with its pending trap if it had one (R198, R418). -/
  | saving (t : Option TrapRec)
  /-- A call of it ends without `gret`, so many calls deep, once its accesses have landed (R397). -/
  | unwinding (levels : Nat) (status : Word)
deriving DecidableEq, Repr

/-- A group, resident in a slot of a core or, without a block, in the handler slot. -/
structure Group where
  uid      : Nat
  block    : Option Nat
  gid      : Nat
  nv       : Nat
  ns       : Nat
  v        : Assoc VReg
  s        : Assoc SReg
  p        : Assoc PReg
  q        : Assoc QReg
  counts   : Assoc Nat
  flagErr  : BitVec 12
  fpm      : Word
  fpf      : Word
  nfv      : Word
  cbwin    : Word
  gmode    : Word
  /-- Earlier values of FPM, FPF, NFV, CBWIN and GMODE, by their numbers, that a `getsr` may still receive after a `setsr` (R50, R374). -/
  srOlds   : Assoc (List (Nat × Word))
  fpfReady : Nat
  rh       : Nat
  dom      : DomReg
  storeErr : Option Nat
  strands  : List Strand
  bars     : Assoc GroupBar
  flash    : Option FlashPoint
  regionOpen : Bool
  pricking : Bool
  calls    : List CallFrame
  stop     : GroupStop
  /-- In the handler slot: the slot it serves and the control word (R202, R203). -/
  serves   : Option Nat
  control  : Word
deriving DecidableEq, Repr

/-! Blocks. -/

/-- A scratchpad window; `olds` are settings with the tick up to which they stand (R80). -/
structure Window where
  base   : Nat
  extent : Nat
  olds   : List (Nat × Nat × Nat)
deriving DecidableEq, Repr

def Window.none : Window := ⟨0, 0, []⟩

/-- A barrier of a block (R41): phase, the groups whose arrival counts, and the sequencer's. -/
structure Barrier where
  phase  : Nat
  groups : Word
  seq    : Bool
deriving DecidableEq, Repr

def Barrier.none : Barrier := ⟨0, 0, false⟩

/-- How far a pre-emption of a block has come (R198). -/
inductive Preempt where
  | none
  /-- A polite request made at a tick. -/
  | polite (since : Nat)
  /-- The hard stage has struck at a tick: the block is being saved; `late` once overdue replies no longer hold it up (R379), and `writing`
  from the tick at which the waits are over and its frame begins to be written (R199). -/
  | saving (since : Nat) (late : Bool) (writing : Option Nat)
deriving DecidableEq, Repr

/-- A block or task resident on a core (R29, R30, R79 to R81, R187). -/
structure Block where
  run      : Nat
  bid      : Nat
  task     : Bool
  core     : Nat
  slots    : List Nat
  groups   : Nat
  regs     : Nat
  uregs    : Nat
  scratchBase : Nat
  scratchSize : Nat
  nacc     : Nat
  ctx      : Option Nat
  windows  : Assoc Window
  scratch  : Assoc Byte
  poison   : Assoc Bool
  engine   : Assoc Bool
  bars     : Assoc Barrier
  prio     : Nat
  placed   : Nat
  order    : Nat
  /-- The stack whose sector it prefers (R187); 255 for none. -/
  hint     : Nat
  /-- A save of it has failed: no eviction asks for it again (R380). -/
  kept     : Bool
  preempt  : Preempt
  /-- The cause of a sequencer fault being delivered (R400). -/
  seqFault : Option Nat
  /-- Exited groups, with their numbers, whose writes a sequencer barrier still waits for (R42). -/
  leaving  : List (Nat × Nat)
deriving DecidableEq, Repr

/-- A sequencer context (R126 to R141). Tiles by tile · 4096 + row · 64 + byte, scales by tile · 256 + row · 4 + byte, accumulator
elements by unit · 1024 + row · 64 + column as 40-bit patterns; a pin is a line with the tile it was fetched for; `waiting` is the barrier,
the phase and the tick of an `mbar.w`. -/
structure SeqCtx where
  block    : Nat
  started  : Bool
  units    : List Nat
  nacc     : Nat
  bmask    : BitVec 16
  pc       : Dword
  m        : Assoc Word
  tcfg     : Word
  tiles    : Assoc Byte
  scales   : Assoc Byte
  acc      : Assoc Nat
  bptr     : Nat
  bbase    : Nat
  blimit   : Nat
  bcell    : Nat
  mmamLeft : Nat
  haltWait : Bool
  halted   : Bool
  pins     : List (Nat × Nat)
  tilePoison : Assoc Bool
  accPoison  : Assoc Bool
  writeErr : Bool
  readErr  : Bool
  barLast  : Assoc (Option Nat)
  waiting  : Option (Nat × Nat × Nat)
  /-- The cause of a fault that has still to reach a group (R400). -/
  fault    : Option Nat
deriving DecidableEq, Repr

/-! Memory requests. -/

/-- Where a request comes from: a strand of a group, or a sequencer context. -/
inductive Src where
  | group (core slot uid strand : Nat)
  | seq (core ctx uid : Nat)
deriving DecidableEq, Repr

/-- How a loaded value becomes a lane value (Table 18.3); `half` are the words of a half of `ld.128`, with its first register. -/
inductive LoadExt where | z8 | s8 | z16 | s16 | word | half (d : Nat)
deriving DecidableEq, Repr

/-- The atomic operations (Table 18.6); `addh2` carries whether its elements are BF16. -/
inductive AtomOp where
  | add | addf | min | max | umin | umax | and | or | xor | xchg | cas | addh2 (bf : Bool)
deriving DecidableEq, Repr

/-- The return-free reductions (Table 18.7). -/
inductive RedOp where | add | addf | min | max | and | or | xor | addx
deriving DecidableEq, Repr

/-- What a request does at its home. -/
inductive ReqKind where
  /-- A load into consecutive registers of one lane (R261). -/
  | load (regs : List Nat) (lane : Nat) (ext : LoadExt) (ro : Bool)
  /-- A store of the bits of `val` that `mask` enables (R91, R262). -/
  | store (val mask : Nat)
  /-- An atomic with its operands, returning to a lane of a register (R268). -/
  | atom (op : AtomOp) (x y : Word) (reg lane : Nat)
  /-- A return-free reduction, near-memory or not, or a splat corner (R114, R270). -/
  | red (op : RedOp) (x : Dword) (nm : Bool)
  /-- An element that a gather of the lattice unit reads (R114, R289). -/
  | corner (gather idx : Nat)
  /-- A write of the sequencer whose data is poisoned: its column words become poisoned (R401). -/
  | poison
  /-- A read of an engine, of a fetch, of the sequencer or of firmware, kept where it is until what asked for it takes it; one of no bytes
  only looks up its page; `code` marks a fetch (R111, R145, R212; log 13). -/
  | pull (code : Bool)
  /-- A write of such an agent (R111). -/
  | put (val mask : Nat)
  /-- A row update of `pkb`: format, mode and term (R168). -/
  | rowAdd (fmt mode : Nat) (term : Word)
  /-- A dirty line that a home slice writes back (R87, R153). -/
  | writeBack
deriving DecidableEq, Repr

/-- Where a request stands. -/
inductive ReqState where
  | inFlight
  /-- Turned back by a slice of another generation, to be sent again (R389). -/
  | rehash
  /-- Parked at a page that is not present: since a tick, and its place among the parked accesses (R178). -/
  | parked (since order : Nat)
  /-- In the queue of a bank, with its place in it and what the memory side has found: physical address, class and owner (R153, R390). -/
  | atBank (bank order pa cls owner : Nat)
  /-- A `.nm` reduction in the queue of a stack's base logic, with its bank, its place in the queue and the physical address (R113,
  R159). -/
  | atStack (bank order pa : Nat)
  /-- Dropped at a closed link: no response will come (R395). -/
  | lost
  /-- Performed for the agent that asked: the bytes read, or the completion time of a write. -/
  | ready (val : Nat)
  /-- It has met an error response, which is logged. -/
  | failed
deriving DecidableEq, Repr

/-- A request of one lane on its way (R88, R93). -/
structure Req where
  src    : Src
  launch : Nat
  part   : Nat
  dom    : Nat
  /-- The translation-cache class of its domain (R172, R174). -/
  tclass : Nat
  va     : Nat
  ia     : Nat
  size   : Nat
  gen    : Nat
  sent   : Nat
  kind   : ReqKind
  state  : ReqState
deriving DecidableEq, Repr

/-- What an answer brings. -/
inductive ReplyKind where
  /-- Words for lanes of vector registers, and flags for FPF. -/
  | lanes (writes : List (Nat × Nat × Word)) (flags : Nat)
  /-- A word for a uniform register. -/
  | uniform (reg : Nat) (val : Word)
  /-- An element for a gather. -/
  | corner (gather idx val : Nat)
  /-- A write acknowledgement. -/
  | ack
deriving DecidableEq, Repr

/-- An answer on its way: `time` is the completion time of a write it acknowledges (0 for one not performed), `err` the VA of a failing
access (R94, R384), `req` the request that memory answers (R395). -/
structure Reply where
  src    : Src
  launch : Nat
  kind   : ReplyKind
  time   : Option Nat
  err    : Option Nat
  req    : Option Req
deriving DecidableEq, Repr

/-- One destination of a lattice read (R122): a register, its terms (an element number and a binary32 weight), and the scale that a
gradient is multiplied by. -/
structure GatherOut where
  reg   : Nat
  terms : List (Nat × Word)
  scale : Option Word
deriving DecidableEq, Repr

/-- A lattice read of one lane in progress (R122, R289, R290): the format of its elements with the exponent of FX64, how many it waits
for, those that have landed (none for an error response), and its destinations. -/
structure Gather where
  src    : Src
  launch : Nat
  lane   : Nat
  fmt    : Nat
  exp    : Int
  wanted : Nat
  landed : Assoc (Option Nat)
  outs   : List GatherOut
deriving DecidableEq, Repr

/-- A leased copy of a line: its 1,024 bits, the expiry of its lease, its owner domain, its class and its way (R79, R83, R86, R175). The
rest is the model's bookkeeping for R97 (log 9): a number of its own, the line's version it was filled at, the newest version of one of
its bytes, and the core's stores still in flight that it already shows; `launch` is the launch whose read made a replica (R86). -/
structure Copy where
  data   : Nat
  expiry : Nat
  owner  : Nat
  cls    : Nat
  way    : Nat
  launch : Nat
  id     : Nat
  ver    : Nat
  top    : Nat
  own    : List Nat
deriving DecidableEq, Repr

/-- A line that its home slice holds (R10, R87, R175): its owner domain, class, way, insertion age, and whether it is dirty. Its bytes stand
in memory, which nothing reads below a dirty line (log 57). -/
structure L2Line where
  owner : Nat
  cls   : Nat
  way   : Nat
  age   : Nat
  dirty : Bool
deriving DecidableEq, Repr

/-- An entry of a stack's translation cache (R174): the stack-local address and the size of a page, and its way. -/
structure XEntry where
  loc  : Nat
  size : Nat
  way  : Nat
deriving DecidableEq, Repr

/-- What a strand has read of some bytes of a line (bookkeeping for R97, log 9): the newest version read elsewhere, the L1 copy read
last, the newest version read from that copy, and stores still in flight read from it. -/
structure Seen where
  ver  : Nat
  inst : Nat
  top  : Nat
  own  : List Nat
deriving DecidableEq, Repr

def Seen.none : Seen := ⟨0, 0, 0, []⟩

/-! Engine commands. -/

/-- One issue: the gang and its group as they stand, the strands, the active lanes before and after the guard, and the values at which
early reads choose; `asks` is the command that still reads for it. -/
structure Ctx where
  core  : Nat
  slot  : Nat
  gang  : Nat
  g     : Group
  is    : List Nat
  all   : Word
  act   : Word
  q     : Bool
  pc    : Dword
  dt    : Nat
  free  : Nat
  asks  : Option Nat
deriving DecidableEq, Repr

/-- The four forms of a PKL command. -/
inductive PklForm where | query | scores | back | backQ
deriving DecidableEq, Repr

/-- A command that reads global memory, with the first register of its record. -/
inductive EngineOp where
  | g2s (n : Nat)
  | coll (n : Nat)
  | pkl (f : PklForm) (n : Nat)
deriving DecidableEq, Repr

/-- A write of an engine into global memory: `bits` enabled by `mask` at an IA of a domain. -/
structure GWrite where
  va   : Nat
  ia   : Nat
  dom  : Nat
  size : Nat
  val  : Nat
  mask : Nat
deriving DecidableEq, Repr

/-- A row update of `pkb` (R168): an element by its VA. -/
structure RowUpdate where
  stack : Nat
  va    : Nat
  fmt   : Nat
  size  : Nat
  query : Nat
  rank  : Nat
  /-- The rounded products that the element formula uses, as binary32 patterns: η-scaled or accumulated term. -/
  term  : Word
  mode  : Nat
deriving DecidableEq, Repr

/-- What an engine command still has to do when it completes. -/
inductive CmdWork where
  /-- Its reads are outstanding (R111): the command, its issue, and the ranges of VAs that it reads, or may yet read. -/
  | reading (op : EngineOp) (at' : Ctx) (ranges : List (Nat × Nat))
  /-- A near-bank command whose pages are being looked up: their VAs, the stack, and what it does if they are a region's (R145, R403). -/
  | looking (pages : List Nat) (stack : Nat) (work : CmdWork)
  /-- Writes into the scratchpad (byte offset and bytes; a poisoned word is marked) and into global memory. -/
  | writes (scratch : List (Nat × List Byte)) (poisoned : List Nat) (globals : List GWrite) (host : List (Nat × List Byte))
  /-- `cpy.g2s` from the host: the place in the allocation, the host address and the length (R366). -/
  | fromHost (off host len : Nat)
  /-- `pkb`: scratchpad writes and row updates (R168). -/
  | updates (scratch : List (Nat × List Byte)) (poisoned : List Nat) (rows : List RowUpdate)
  /-- `nb.ld`: words into the stores of banks (R148). -/
  | nbLoad (banks : List Nat) (words : List Word)
  /-- `nb.run` (R149): banks that wait to start with their start rows, banks that run, COUNT, ENTRY, RC, e0 to e3 and the region's VA. -/
  | nbRun (waiting : List (Nat × Nat)) (running : List Nat) (count entry : Nat) (rc : Bool) (params : List Word) (base : Nat)
  /-- `nb.get`, or `nb.get.sum` of I32 words or not: the banks still to be read, what has been read of others (bank, then word and poison of
  n0 to n3), and the place of the result (R150, R151). -/
  | nbGet (banks : List Nat) (got : List (Nat × List (Word × Bool))) (sum : Option Bool) (offset : Nat)
  /-- `nb.mode`, addressed to some banks (R152). -/
  | nbMode (banks : List Nat) (stack pch : Nat) (compute : Bool)
  /-- `coll`: OP, FAST, TYPE, communicator, peer, COUNT, the own elements and those that could not be read, and DST as an offset in the
  scratchpad or a VA (R299). -/
  | coll (op : Nat) (fast : Bool) (type comm peer count : Nat) (own : List Dword) (bad : List Nat) (dst : Option Nat) (dstVa : Nat)
deriving DecidableEq, Repr

/-- An outstanding engine command (R57, R81, R111). -/
structure Cmd where
  core     : Nat
  slot     : Nat
  uid      : Nat
  block    : Nat
  launch   : Nat
  strands  : List Nat
  flag     : Nat
  granules : List Nat
  dom      : DomReg
  err      : Bool
  issued   : Nat
  maxT     : Nat
  work     : CmdWork
  /-- Of a near-bank run: its first activation and its last precharge in any bank, and the rows it has activated and precharged there
  (R155). -/
  firstAct : Option Nat
  lastPre  : Option Nat
  rows     : List (Nat × Nat)
  /-- Of a `coll`: OP, COMM and PEER (R298). -/
  coll     : Option (Nat × Nat × Nat)
deriving DecidableEq, Repr

/-! Near-bank units. -/

/-- A near-bank unit (Table 11.1), its open row and visit (R144), and the run it carries out: registers by code 0 to 11, eight lanes each,
and the mask stack with its top first. -/
structure Nbu where
  prog     : Assoc Word
  upc      : Nat
  k        : Assoc (List Word)
  e        : List Word
  masks    : List (BitVec 8)
  cond     : BitVec 8
  row      : Nat
  left     : Nat
  poison   : Assoc Bool
  /-- The command whose run this is. -/
  cmd      : Option Nat
  /-- The open row's physical address, if a row is open. -/
  openRow  : Option Nat
  /-- Words that the visit has written, by column · 8 + lane (R321). -/
  written  : Assoc Word
  /-- The tick of the visit's first column access (R144). -/
  visit    : Option Nat
  /-- The tick at which the column path is free again, and the register an `nrd` writes with the tick from which it is readable. -/
  pathFree : Nat
  lastRead : Option (Nat × Nat)
  /-- The tick of the previous microinstruction. -/
  lastTick : Option Nat
  /-- The tick at which the bank's latest activation or precharge is over (tRCD and tRP, R14: 12 ticks each). -/
  bankFree : Nat
  /-- Stopped at a row boundary by a switch to normal mode (R152). -/
  suspended : Bool
  /-- At a row boundary, the requests served since it began; none during a visit (R153). The requests of one instruction to one line count
  once; `lastServed` tells the latest by its core, number, line and tick. -/
  boundary : Option Nat
  lastServed : Option (Nat × Nat × Nat × Nat)
deriving DecidableEq, Repr

/-! Launches. -/

/-- A node of a registered graph (Table 14.1). -/
structure NodeEntry where
  entry    : Nat
  blocks   : Nat
  groups   : Nat
  regs     : Nat
  uregs    : Nat
  scratch  : Nat
  prio     : Nat
  hint     : Nat
  nacc     : Nat
  npred    : Nat
  bmask    : Nat
  soff     : Nat
  seqEntry : Nat
  cbImg    : Nat
  cbLen    : Nat
  argOff   : Nat
  argLen   : Nat
  latN     : Nat
  pklN     : Nat
  wlN      : Nat
  succs    : List Nat
  tables   : Nat
  wlva     : Nat
deriving DecidableEq, Repr

/-- A registered graph (R184). -/
structure Graph where
  nodes : List NodeEntry
deriving DecidableEq, Repr

/-- A work list (R300): its descriptor, the entries in the engine's store, front first, each a value and a key, and the places in the spill
area at which the entries behind them stand. -/
structure WorkList where
  spill   : Nat
  cap     : Nat
  kind    : Nat
  bad     : Bool
  entries : List (Word × Word)
  places  : List Nat
deriving DecidableEq, Repr

/-- How far a node has come (R185, R186, R381). -/
inductive NodeStage where | waiting | ready | running | complete | refused
deriving DecidableEq, Repr

/-- A node of a graph launch: a launch of Table 3.1. -/
structure NodeRun where
  graph    : Nat
  node     : Nat
  entry    : NodeEntry
  stage    : NodeStage
  readyAt  : Nat
  blockedSince : Option Nat
  launchId : Word
  bank     : Assoc Byte
  lattice  : List (List Byte)
  pkl      : List (List Byte)
  lists    : List WorkList
  nextBlock : Nat
  nextTask : Nat
  /-- Blocks and tasks of the node that have been placed or spawned and have not ended. -/
  live     : Nat
  /-- The numbers of its groups and blocks, under which accesses are outstanding, and the largest completion time of its writes (R109). -/
  uids     : List Nat
  maxT     : Nat
deriving DecidableEq, Repr

/-- A graph launch (R185, R186, R426); `first` is the first recorded event and `firstAt` its tick. -/
structure GraphLaunch where
  fn      : Nat
  part    : Nat
  dom     : Nat
  handle  : Nat
  arg     : Nat
  tag     : Word
  start   : Nat
  runs    : List Nat
  first   : Option Nat
  firstAt  : Nat
  thermal : Bool
  saveFail : Bool
  reset   : Bool
  maxT    : Nat
  done    : Bool
  /-- Pseudo-channels (stack · 64 + pseudo-channel) that the launch unit has switched to compute mode to end suspended runs (R404). -/
  flushed : List Nat
deriving DecidableEq, Repr

/-- A task in a deque (R192). -/
structure Task where
  run    : Nat
  bid    : Nat
  entry  : Nat
  groups : Nat
  regs   : Nat
  uregs  : Nat
  scratch : Nat
  arg    : Word
  dom    : DomReg
  core   : Nat
deriving DecidableEq, Repr

/-- A block saved in a context frame (R199 to R205). -/
structure SavedBlock where
  block   : Block
  groups  : List Group
  seq     : Option SeqCtx
  part    : Nat
  /-- The domain in whose CSAVE area the frame stands, its place there, DT at the save, and the number of its free bytes (log 12). -/
  dom     : Nat
  place   : Nat
  dt      : Nat
  mark    : Nat
deriving DecidableEq, Repr

/-! Cores, stacks, partitions, functions. -/

/-- Vector granules of an exited group that drain (R206): the group, how many, and the tick from which its fixed-latency results have
landed. -/
structure Draining where
  uid      : Nat
  granules : Nat
  til      : Nat
deriving DecidableEq, Repr

/-- A core (R12, R85, R202, R388, R424): `fencing` from the moment firmware begins to fence it. -/
structure Core where
  ownTrap  : Bool
  /-- The slice map: the SET registers SMAP0 to SMAP2, and GEN and COUNT of SMAPG (Table 6.2). -/
  smap0    : Dword
  smap1    : Dword
  smap2    : Dword
  gen      : Nat
  count    : Nat
  queue    : List Nat
  /-- The deque from its top: the tasks on the core, at most 64, then those spilled, each with its place in the core's area (R192). -/
  deque    : List Task
  spilled  : List (Nat × Task)
  /-- The carve-out in ways of 64 KiB (R79, R82). -/
  carve    : Nat
  fenced   : Bool
  fencing  : Bool
  /-- The tick of the latest uncorrectable error in the core's state, and whether a second one has followed within an hour (R424). -/
  lastError : Option Nat
  failing  : Bool
  draining : List Draining
  portUsed : List Nat
deriving DecidableEq, Repr

def Core.idle : Core := ⟨false, 0, 0, 0, 0, 0, [], [], [], 0, false, false, none, false, [], []⟩

/-- The memory-side registers of a stack (Table 13.4); `tables` counts the 4 KiB pieces that the model's firmware has taken from the top of
the stack for page tables (log 22). -/
structure Stack where
  ptbase : Dword
  xways  : Dword
  pgwait : Dword
  tables : Nat
  /-- The translation cache (R174). -/
  xlat   : List XEntry
deriving DecidableEq, Repr

def Stack.reset : Stack := ⟨0, 0xFFFF, 0x32, 0, []⟩

/-- A request to the mapping service (R176): from the queue of a function (its number and the entry's), or from a group in gate 0 (its
number). -/
structure MapReq where
  fn     : Option (Nat × Nat)
  gate   : Option Nat
  dom    : Nat
  op     : Word
  ia     : Nat
  phys   : Dword
  count  : Word
  size   : Word
  tag    : Word
  start  : Nat
deriving DecidableEq, Repr

/-- An unmap in progress (R177): the tick it began, and once its entries are cleared the latest lease on its range. -/
structure Unmapping where
  req    : MapReq
  since  : Nat
  lease  : Option Nat
deriving DecidableEq, Repr

/-- A partition (R170, R189, R377, R179, R185). -/
structure Part where
  dies     : List Nat
  retired  : List Nat
  gen      : Nat
  schedctl : Dword
  watchctl : Dword
  eyeletIa : Nat
  eyeletCount : Nat
  launchCtr : Word
  mapQueue : List MapReq
  unmap    : Option Unmapping
  /-- Cores reserved for the next blocks of node runs (R189). -/
  reserved : List (Nat × Nat)
  placedAt : Option Nat
deriving DecidableEq, Repr

def Part.reset : Part := ⟨[], [], 0, 0x0000400000002000, 0x01000000, 0, 0, 0, [], none, [], none⟩

/-- A finished piece of work waiting for its completion record (R361, R362), the time its writes need, and its launch. -/
structure Record where
  handle : Nat
  kind   : Nat
  status : Word
  tag    : Word
  start  : Nat
  time   : Nat
  launch : Option Nat
deriving DecidableEq, Repr

/-- A copy-control block (Table 29.4). -/
structure CopyBlock where
  op   : Nat
  tag  : Word
  host : Nat
  dev  : Nat
  len  : Nat
  hdl  : Nat
  zero : Bool
deriving DecidableEq, Repr

/-- The copy-control block that a function performs (R363): the tick at which it was read, the bytes that it has done, the time that its
writes need, and its STATUS so far. -/
structure HostCopy where
  block  : CopyBlock
  start  : Nat
  done   : Nat
  time   : Nat
  status : Nat
deriving DecidableEq, Repr

/-- A function: its register page (Tables 29.2, 34.1), its binding (R359) and its finished work. -/
structure Fn where
  bound   : Option (Nat × Nat)
  crbase  : Dword
  crlog2n : Nat
  crhead  : Word
  crtail  : Word
  cqbase  : Dword
  cqlog2n : Nat
  cqtail  : Word
  cqhead  : Word
  mqbase  : Dword
  mqlog2n : Nat
  mqtail  : Word
  mqhead  : Word
  hwva    : Nat
  hwsize  : Nat
  hwhost  : Nat
  crerr   : Bool
  cqerr   : Bool
  mqerr   : Bool
  finished : List Record
  msix    : Nat
  /-- The value that the latest host read of CRTAIL returned (R361). -/
  crtailRead : Word
  /-- Rings that wait for the host to rewrite their base (R421). -/
  crHeld  : Bool
  cqHeld  : Bool
  mqHeld  : Bool
  copy    : Option HostCopy
deriving DecidableEq, Repr

def Fn.reset : Fn :=
  ⟨none, 0, 7, 0, 0, 0, 6, 0, 0, 0, 6, 0, 0, 0, 0, 0, false, false, false, [], 0, 0, false, false, false, none⟩

/-- A die-to-die link end (Table 13.1). -/
structure Dlfw where
  opened : Bool
  locked : Bool
  part   : Nat
  drops  : Nat
deriving DecidableEq, Repr

def Dlfw.reset : Dlfw := ⟨false, false, 0, 0⟩

/-- A replacement-class entry (Table 6.3), as its word. -/
abbrev ClassEntry := Word

/-- An entry of an error log (Table 31.1). -/
structure LogEntry where
  ia   : Nat
  dom  : Nat
  core : Nat
  slot : Nat
  kind : Nat
  dt   : Nat
deriving DecidableEq, Repr

/-- The error log of a die (Table 31.2); `head` is the index of its oldest entry. -/
structure ErrorLog where
  entries : List LogEntry
  head    : Nat
  ovf     : Nat
  cecnt   : Nat
deriving DecidableEq, Repr

def ErrorLog.empty : ErrorLog := ⟨[], 0, 0, 0⟩

/-- The PF's health page (Table 29.6) and bring-up report (Table 34.1). -/
structure Health where
  pwrcap : Nat
  pwrnow : Nat
  tmax   : Nat
  tthr   : Nat
  eolh   : Word
  eollo  : Word
  eolhi  : Word
  fenced : Nat
  linkw  : Nat
  linkr  : Nat
  saveFail : Nat
  bstep  : Nat
  bcode  : Nat
  bunit  : Nat
deriving DecidableEq, Repr

def Health.reset : Health := ⟨0xE10, 0, 0, 0x5F, 0, 0, 0, 0, 0, 0, 0, 0, 0, 0⟩

/-- A communicator of `coll` (R298): its devices, this one's rank, and the commands by which the device sends to itself and receives from
itself, in the order of their issue, as long as one of a pair is not over (R299; log 74). -/
structure Comm where
  devices : Nat
  rank    : Nat
  sends   : List Nat
  recvs   : List Nat
deriving DecidableEq, Repr

/-- An answer to an SPDM measurement request (R368). -/
structure SpdmReply where
  digest : BitVec 512
  parts  : List (Nat × List Nat)
  fn     : Nat
  bound  : Option (Nat × Nat)
  /-- The ML-DSA-87 signature of the part's attestation key. -/
  signature : BitVec 37016
deriving DecidableEq, Repr

/-- A copy of device time that is unsynchronised, since a tick (R392). -/
structure Unsync where
  copy  : DtCopy
  since : Nat
deriving DecidableEq, Repr

/-! Who moves next. -/

/-- The agent whose instruction executes. -/
inductive Agent where
  /-- An event of the table, or nothing. -/
  | outside
  /-- A gang of the group in a slot; slot 32 is the handler slot. -/
  | gang (core slot gang : Nat)
  /-- A sequencer context of a core. -/
  | seq (core ctx : Nat)
  /-- A near-bank unit: stack · 2048 + pseudo-channel · 32 + bank. -/
  | nbu (bank : Nat)
deriving DecidableEq, Repr

/-- A bit error (R394, Table 31.3), by the storage in which it arises. -/
inductive Upset where
  /-- A single bit, on a die: corrected. -/
  | corrected (die : Nat)
  /-- A word of a vector register, by lane, or a uniform register. -/
  | vreg (core slot reg lane : Nat)
  | sreg (core slot reg : Nat)
  /-- Predicates, tags, stacks, flags or masks of a group, or data that its next return from a gate call needs. -/
  | control (core slot : Nat)
  /-- A 4-byte word of a block's scratchpad. -/
  | scratch (block word : Nat)
  /-- A column word of HBM, by stack and physical address, and one of a dirty L2 line, by partition and IA. -/
  | hbm (stack pa : Nat)
  | dirtyLine (part ia : Nat)
  /-- A tile row, an accumulator element, and a register of a near-bank unit. -/
  | tile (core ctx tile row : Nat)
  | acc (core ctx elem : Nat)
  | nbu (bank reg : Nat)
  /-- The lease record of a line, by partition and IA (R393). -/
  | lease (part ia : Nat)
deriving DecidableEq, Repr

/-- A register that the host or firmware reads (R5): one that a write reaches too, a firewall end, a class entry, the control register
and the words of an error log, and a word of a core's slice map. -/
inductive BusReg where
  | dev (r : DevReg)
  | dlfw (die peer : Nat)
  | rclass (idx : Nat)
  | elogctl (die : Nat)
  | elogack (die : Nat)
  | elog (die entry word : Nat)
  | smap (core word : Nat)
deriving DecidableEq, Repr

/-- A turn of the agenda (log 4): device time advances a tick, an agent issues, or an event occurs. A copy, a replica or a line of a home
slice may also be dropped (R82, R87, R394), a bit error may arise (R394), a copy of device time may drift (R392), the module's power is
measured (R370), a register is read (R5), and a pending write of an engine command may be performed before the command completes: a write or
a row update by its place. -/
inductive Turn where
  | tick
  | issue (core slot gang : Nat)
  | seq (core ctx : Nat)
  | nbu (bank : Nat)
  | event (i : Instr)
  | evict (core line : Nat)
  | dropReplica (slice line : Nat)
  | evictL2 (slice line : Nat)
  | drift (copy : DtCopy) (ahead : Bool)
  | power (watts : Nat)
  | read (r : BusReg)
  | engine (cmd sel : Nat)
  | upset (u : Upset)
  /-- From now on the reads that an instruction or a unit makes leave as requests of their own, or are made in one step where nothing holds
  them up (R98). -/
  | ahead (on : Bool)
deriving DecidableEq, Repr

/-! The machine. -/

/-- The state of the whole part. -/
structure State where
  /-- The model's own: who moves next, who executes, and the counters of log 4 to log 6. -/
  agenda   : List Turn
  cur      : Agent
  free     : Nat
  nextId   : Nat
  ahead    : Bool
  /-- Device time at the reference, and the offset of each copy (R11, R392). -/
  dt       : Nat
  skewCore : Assoc Int
  skewSlice : Assoc Int
  unsync   : List Unsync
  /-- The copies that will not advance with the next tick (R11; log 7). -/
  lagging  : List DtCopy
  /-- Groups by core · 64 + slot; blocks, node runs, graph launches and saved blocks by number. -/
  groups   : Assoc Group
  blocks   : Assoc Block
  seqs     : Assoc SeqCtx
  cores    : Assoc Core
  runs     : Assoc NodeRun
  launches : Assoc GraphLaunch
  graphs   : Assoc Graph
  saved    : Assoc SavedBlock
  /-- Requests, answers, gathers and engine commands in progress. -/
  net      : Assoc Req
  replies  : Assoc Reply
  gathers  : Assoc Gather
  cmds     : Assoc Cmd
  /-- Copies: by core · 2^45 + line and by slice · 2^45 + line; lines of home slices by slice · 2^45 + line; leases and versions by
  partition · 2^45 + line (R83, R86, R87, R94). -/
  l1       : Assoc Copy
  replicas : Assoc Copy
  l2       : Assoc L2Line
  leases   : Assoc Nat
  versions : Assoc Nat
  seen     : Assoc (List (Nat × Seen))
  /-- Memory by stack · 2^37 + physical address, and poison by 32-byte column word (R90, R394). -/
  mem      : List Host.Cell
  memPoison : Assoc Bool
  /-- The model's own: the writer (two numbers) that wrote a poisoned column word last, and the bytes of it that it has written (R394). -/
  covers   : Assoc (Nat × Nat × Nat)
  owners   : Assoc Nat
  stackRegs : Assoc Stack
  computeMode : Assoc Bool
  nbus     : Assoc Nbu
  activations : Assoc Nat
  credit   : Assoc Nat
  classes  : Assoc Word
  /-- Partitions by the number of their lowest die, domains by partition · 4096 + ID, functions, links. -/
  parts    : Assoc Part
  domains  : Assoc Domain
  fns      : Assoc Fn
  dlfw     : Assoc Dlfw
  logs     : Assoc ErrorLog
  comms    : Assoc Comm
  health   : Health
  /-- The latest temperature of each die in °C, the compute dies first (R369). -/
  temps    : Assoc Nat
  poweredDown : Assoc Bool
  /-- The latest samples of the path-delay monitors: four a core, then sixteen a compute die (R370). -/
  monitors : List Word
  /-- What the latest read of a register returned (R5). -/
  busRead  : Dword
  /-- Host link and ports (R358, R420, R19). -/
  linkUp   : Bool
  /-- While the host link retrains: the tick at which the present try began, and whether the link has been reported lost (R420). -/
  retrain  : Option (Nat × Bool)
  aer      : Nat
  lanes    : Assoc Nat
  hostMem  : List Host.Cell
  /-- Host pages (IOVA / 4096) at which the host answers with an error (R421), which nothing of the device changes. -/
  hostBad  : List Nat
  pfMessages : Nat
  /-- Bring-up (R367, R368, R422). -/
  bringUp  : Nat
  bringUpFailed : Option Nat
  image    : BitVec 512
  imageSigned : Bool
  replacement : Option (BitVec 512 × Bool)
  measured : BitVec 512
  spdm     : Option SpdmReply
deriving DecidableEq, Repr

/-- The machine right after power-on or a package reset: DT is 0 (R11), nothing is resident, memory lists nothing, and bring-up has not
begun (R367). Values the spec does not state are those of log 1. -/
def State.reset : State where
  agenda := []
  cur := .outside
  free := 0
  nextId := 1
  ahead := false
  dt := 0
  skewCore := []
  skewSlice := []
  unsync := []
  lagging := []
  groups := []
  blocks := []
  seqs := []
  cores := []
  runs := []
  launches := []
  graphs := []
  saved := []
  net := []
  replies := []
  gathers := []
  cmds := []
  l1 := []
  replicas := []
  l2 := []
  leases := []
  versions := []
  seen := []
  mem := []
  memPoison := []
  covers := []
  owners := []
  stackRegs := []
  computeMode := []
  nbus := []
  activations := []
  credit := []
  classes := []
  parts := []
  domains := []
  fns := []
  dlfw := []
  logs := []
  comms := []
  health := Health.reset
  temps := []
  poweredDown := []
  monitors := []
  busRead := 0
  linkUp := false
  retrain := none
  aer := 0
  lanes := []
  hostMem := []
  hostBad := []
  pfMessages := 0
  bringUp := 0
  bringUpFailed := none
  image := 0
  imageSigned := true
  replacement := none
  measured := 0
  spdm := none

/-- Why the machine stops with a fault. -/
inductive Fault where
  /-- Raised by `exec` when an instruction of a stream executes for an agent of another kind, which no step does. Safe: the machine stops
  where the hardware has no such situation. -/
  | wrongAgent
  /-- Raised by a memory access whose page table names a physical address with a row of 61,440 or above: R90 says that such addresses do not
  exist and that page tables never map them. Safe: the machine stops. -/
  | noSuchAddress
deriving DecidableEq, Repr

/-- Why the machine refuses an instruction. -/
inductive Refusal where
  /-- The instruction has no meaning in the model yet; raised by its arm of `exec`. Safe: the machine stops. -/
  | notModelled (mnemonic : String)
deriving DecidableEq, Repr

end Sys2Proof.Machine
end

