-- ==== Sys2Proof/Machine/Table.lean ====
section
/-! DEFINITION. Sparse tables: reading and writing a key, bytes and bits of a table of bytes, and the canonical form. -/

namespace Sys2Proof.Machine

/-- The entry of a key. -/
def lookupAt {α : Type} (m : Assoc α) (k : Nat) : Option α :=
  match m with
  | [] => none
  | (j, a) :: t => if j = k then some a else lookupAt t k

/-- The value of a key, where unlisted keys hold `d`. -/
def getAt {α : Type} (d : α) (m : Assoc α) (k : Nat) : α := (lookupAt m k).getD d

/-- The table with a key's entry set, at its place in ascending order. -/
def setAt {α : Type} (m : Assoc α) (k : Nat) (v : α) : Assoc α :=
  match m with
  | [] => [(k, v)]
  | (j, a) :: t => if j < k then (j, a) :: setAt t k v else if j = k then (k, v) :: t else (k, v) :: (j, a) :: t

/-- The table without a key. -/
def eraseAt {α : Type} (m : Assoc α) (k : Nat) : Assoc α := m.filter (fun e => e.1 != k)

/-- The table with a key's value set, unlisted where it is the default. -/
def putAt {α : Type} [DecidableEq α] (d : α) (m : Assoc α) (k : Nat) (v : α) : Assoc α :=
  if v = d then eraseAt m k else setAt m k v

/-- The table with a listed entry changed. -/
def modifyAt {α : Type} (m : Assoc α) (k : Nat) (f : α → α) : Assoc α :=
  match lookupAt m k with
  | some a => setAt m k (f a)
  | none => m

/-- Keys strictly ascending. -/
def ascending {α : Type} (m : Assoc α) : Bool :=
  match m with
  | [] => true
  | [_] => true
  | (j, _) :: (k, b) :: t => decide (j < k) && ascending ((k, b) :: t)

/-- The canonical form of a table of bytes: keys strictly ascending, no entry equal to what an unlisted key reads as (log 2). -/
def Memory.wf (m : List Host.Cell) : Bool := ascending (α := Byte) m && m.all (fun c => c.2 != 0)

/-- A byte of a table of bytes; an unlisted one reads zero (log 2). -/
def readByte (m : List Host.Cell) (a : Nat) : Byte := getAt (α := Byte) 0 m a

def writeByte (m : List Host.Cell) (a : Nat) (b : Byte) : List Host.Cell := putAt (α := Byte) 0 m a b

/-- The `n` bytes from an address, little-endian, as a number (R3). -/
def readLE (m : List Host.Cell) (a : Nat) : Nat → Nat
  | 0 => 0
  | n + 1 => (readByte m a).toNat + 256 * readLE m (a + 1) n

/-- The `n` bytes from an address. -/
def readBytes (m : List Host.Cell) (a n : Nat) : List Byte := (List.range n).map (fun i => readByte m (a + i))

/-- Bytes written from an address upward. -/
def writeBytes (m : List Host.Cell) (a : Nat) : List Byte → List Host.Cell
  | [] => m
  | b :: bs => writeBytes (writeByte m a b) (a + 1) bs

/-- The bits of `val` that `mask` enables, in the `n` bytes from an address (R91). -/
def writeMasked (m : List Host.Cell) (a val mask : Nat) : Nat → List Host.Cell
  | 0 => m
  | n + 1 =>
    let b := (readByte m a).toNat
    let k := mask % 256
    writeMasked (writeByte m a (BitVec.ofNat 8 ((b &&& (255 - k)) ||| (val % 256 &&& k)))) (a + 1) (val / 256) (mask / 256) n

/-- The number whose little-endian bytes these are. -/
def ofBytes : List Byte → Nat
  | [] => 0
  | b :: bs => b.toNat + 256 * ofBytes bs

/-- The `n` little-endian bytes of a number. -/
def toBytes : Nat → Nat → List Byte
  | 0, _ => []
  | n + 1, v => BitVec.ofNat 8 v :: toBytes n (v / 256)

/-- Bytes `lo` to `lo + n − 1` of a list of bytes as a number; bytes beyond its end read zero. -/
def fieldLE (bs : List Byte) (lo n : Nat) : Nat := ofBytes ((bs.drop lo).take n)

/-- All bits of `n` bytes. -/
def ones (n : Nat) : Nat := 256 ^ n - 1

/-- A bit of a number. -/
def bitOf (w i : Nat) : Bool := w / 2 ^ i % 2 == 1

/-- A bit of a word, for example a lane of a mask. -/
def laneBit (w : Word) (l : Nat) : Bool := w.getLsbD l

/-- A mask from a condition on its 32 lanes. -/
def maskOf (f : Nat → Bool) : Word :=
  (List.range 32).foldl (fun w l => if f l then w ||| BitVec.twoPow 32 l else w) 0

/-- A value for each of the 32 lanes. -/
def perLane (f : Nat → Word) : List Word := (List.range 32).map f

/-- The word of a lane. -/
def laneOf (ws : List Word) (l : Nat) : Word := ws.getD l 0

/-- The number of a signed field of `n` bits. -/
def signed (n w : Nat) : Int := if w % 2 ^ n ≥ 2 ^ (n - 1) then ((w % 2 ^ n : Nat) : Int) - (2 ^ n : Nat) else ((w % 2 ^ n : Nat) : Int)

/-- S(x) and U(x) of a word. -/
def sInt (w : Word) : Int := w.toInt
def uNat (w : Word) : Nat := w.toNat

/-- A 64-bit value from its low and high words (R47). -/
def pair64 (lo hi : Word) : Nat := lo.toNat + hi.toNat * 2 ^ 32

end Sys2Proof.Machine
end

