-- ==== Sys2Proof/Machine/Alu.lean ====
section
/-! DEFINITION. The integer operations of a lane as functions of words (R230 to R236), shared by the vector, uniform and near-bank
instructions. -/

namespace Sys2Proof.Machine.Alu

/-- The high word of a signed and of an unsigned product (R230). -/
def mulHighS (a b : Word) : Word := BitVec.ofInt 32 (a.toInt * b.toInt / 2 ^ 32)
def mulHighU (a b : Word) : Word := BitVec.ofNat 32 (a.toNat * b.toNat / 2 ^ 32)

def minS (a b : Word) : Word := if a.toInt ≤ b.toInt then a else b
def maxS (a b : Word) : Word := if a.toInt ≤ b.toInt then b else a
def minU (a b : Word) : Word := if a.toNat ≤ b.toNat then a else b
def maxU (a b : Word) : Word := if a.toNat ≤ b.toNat then b else a

/-- An integer saturated to the range of a signed word (R231). -/
def sat32 (i : Int) : Word :=
  if i < -(2 ^ 31 : Nat) then 0x80000000 else if i > (2 ^ 31 - 1 : Nat) then 0x7FFFFFFF else BitVec.ofInt 32 i

def addSat (a b : Word) : Word := sat32 (a.toInt + b.toInt)
def subSat (a b : Word) : Word := sat32 (a.toInt - b.toInt)
def absSat (a : Word) : Word := sat32 (a.toInt.natAbs : Int)

/-- The number of 1 bits (R231). -/
def popc (a : Word) : Word := BitVec.ofNat 32 ((List.range 32).filter (fun i => a.getLsbD i)).length

/-- The number of leading zero bits (R231). -/
def clz (a : Word) : Word := BitVec.ofNat 32 (if a = 0 then 32 else 31 - Nat.log2 a.toNat)

/-- Bit i moved to bit 31 − i (R231). -/
def brev (a : Word) : Word := maskOf (fun i => a.getLsbD (31 - i))

/-- Shifts by the whole of B (R232): a count of 32 or more leaves nothing, or copies of bit 31. -/
def shl (a b : Word) : Word := if b.toNat ≥ 32 then 0 else a <<< b.toNat
def shr (a b : Word) : Word := if b.toNat ≥ 32 then 0 else a >>> b.toNat
def sar (a b : Word) : Word := a.sshiftRight (min b.toNat 32)
def rot (a b : Word) : Word := a.rotateLeft (b.toNat % 32)

/-- The effective length of a bit field (R233). -/
def fieldLen (b : Word) : Nat :=
  let pos := b.toNat % 256
  let len := b.toNat / 256 % 256
  if pos < 32 then min len (32 - pos) else 0

def fieldPos (b : Word) : Nat := b.toNat % 256

/-- An unsigned and a sign-extended bit field (R233). -/
def bfe (a b : Word) : Word := BitVec.ofNat 32 (a.toNat / 2 ^ fieldPos b % 2 ^ fieldLen b)
def bfes (a b : Word) : Word :=
  if fieldLen b = 0 then 0 else BitVec.ofInt 32 (signed (fieldLen b) (a.toNat / 2 ^ fieldPos b))

/-- Old d with a bit field replaced by the low bits of A (R233). -/
def bfi (a b old : Word) : Word :=
  maskOf (fun i =>
    if fieldPos b ≤ i ∧ i < fieldPos b + fieldLen b then a.getLsbD (i - fieldPos b) else old.getLsbD i)

/-- A byte of a word. -/
def byteOf (w : Word) (i : Nat) : Nat := w.toNat / 256 ^ i % 256

/-- The bytes of `bmix` from byte 0 upward (R234): `below` is the byte formed before. -/
def bmixFrom (a b old : Word) (below : Nat) : Nat → Nat → Nat
  | 0, _ => 0
  | n + 1, i =>
    let code := b.toNat / 8 ^ i % 8
    let r :=
      if code < 4 then byteOf a code
      else if code = 4 then 0
      else if code = 5 then 255
      else if code = 6 then (if below ≥ 128 then 255 else 0)
      else byteOf old i
    r + 256 * bmixFrom a b old r n (i + 1)

def bmix (a b old : Word) : Word := BitVec.ofNat 32 (bmixFrom a b old 0 4 0)

/-- Compares (R236, R239). -/
def eq (a b : Word) : Bool := decide (a = b)
def ne (a b : Word) : Bool := decide (a ≠ b)
def lt (a b : Word) : Bool := decide (a.toInt < b.toInt)
def le (a b : Word) : Bool := decide (a.toInt ≤ b.toInt)
def gt (a b : Word) : Bool := decide (a.toInt > b.toInt)
def ge (a b : Word) : Bool := decide (a.toInt ≥ b.toInt)
def ult (a b : Word) : Bool := decide (a.toNat < b.toNat)
def ule (a b : Word) : Bool := decide (a.toNat ≤ b.toNat)

/-- The combine rule (R222); 4 to 7 are reserved and do not decode. -/
def combine (k : Fin 8) (old r : Bool) : Bool :=
  if k.val = 1 then old && r else if k.val = 2 then old || r else if k.val = 3 then old ^^ r else r

/-- The sign-extended 20-bit immediate of `movi` and `smovi` (R237, R240). -/
def imm20 (i : Fin 1048576) : Word := BitVec.ofInt 32 (signed 20 i.val)

end Sys2Proof.Machine.Alu
end

