-- ==== Sys2Proof/Machine/Float.lean ====
section
/-! DEFINITION. Number formats, rounding, conversions and the function unit (R59 to R72, R249). A finite value is the exact number
±m·2^e; every operation forms its exact result and rounds once. -/

namespace Sys2Proof.Machine

/-- The sticky flags NV, DZ, OF, UF, NX of FPF, bits 0 to 4 (R49). -/
abbrev Flags := BitVec 5

def flagNV : Flags := 1
def flagDZ : Flags := 2
def flagOF : Flags := 4
def flagUF : Flags := 8
def flagNX : Flags := 16

/-- The rounding modes of FPM.RM (R49, R68). -/
inductive RoundMode where | rne | rz | ru | rd
deriving DecidableEq, Repr

/-- The mode that FPM.RM names (Table 4.3). -/
def RoundMode.ofWord (w : Word) : RoundMode :=
  match w.toNat % 4 with
  | 0 => .rne
  | 1 => .rz
  | 2 => .ru
  | _ => .rd

/-- A value of a floating-point format: a NaN, an infinity, or ±m·2^e, a signed zero where m is 0 (R60). -/
inductive Fp where
  | nan (signalling : Bool)
  | inf (neg : Bool)
  | num (neg : Bool) (m : Nat) (e : Int)
deriving DecidableEq, Repr

/-- A floating-point format by the figures of Tables 5.2 and 5.3: the place of its sign bit, its fraction bits, the exponent of its
smallest normal, the code of its largest finite magnitude, and its codes for infinity and NaN where it has them. -/
structure FpFormat where
  sign    : Nat
  t       : Nat
  emin    : Int
  maxCode : Nat
  inf     : Option Nat
  nan     : Option Nat
deriving DecidableEq, Repr

def fp32 : FpFormat := ⟨31, 23, -126, 0x7F7FFFFF, some 0x7F800000, some 0x7FC00000⟩
def fp16 : FpFormat := ⟨15, 10, -14, 0x7BFF, some 0x7C00, some 0x7E00⟩
def bf16 : FpFormat := ⟨15, 7, -126, 0x7F7F, some 0x7F80, some 0x7FC0⟩
def fp40 : FpFormat := ⟨39, 31, -126, 0x7F7FFFFFFF, some 0x7F80000000, some 0x7FC0000000⟩
def fp6e2m3 : FpFormat := ⟨5, 3, 0, 0x1F, none, none⟩
def fp6e3m2 : FpFormat := ⟨5, 2, -2, 0x1F, none, none⟩
def fp4 : FpFormat := ⟨3, 1, 0, 0x7, none, none⟩

/-- 2^k as an exact factor: a shift of the exponent. -/
def Fp.scale (x : Fp) (k : Int) : Fp :=
  match x with
  | .num s m e => .num s m (e + k)
  | y => y

def Fp.neg : Fp → Fp
  | .nan q => .nan q
  | .inf s => .inf (!s)
  | .num s m e => .num (!s) m e

def Fp.abs : Fp → Fp
  | .nan q => .nan q
  | .inf _ => .inf false
  | .num _ m e => .num false m e

def Fp.isNan : Fp → Bool
  | .nan _ => true
  | _ => false

def Fp.isSnan : Fp → Bool
  | .nan q => q
  | _ => false

def Fp.isZero : Fp → Bool
  | .num _ 0 _ => true
  | _ => false

/-- An integer as an exact value. -/
def Fp.ofInt (i : Int) : Fp := .num (decide (i < 0)) i.natAbs 0

/-- The exponent of the smallest quantum of a format. -/
def FpFormat.qmin (f : FpFormat) : Int := f.emin - f.t

/-- The value of a code of a format with a sign bit and, where the format has them, infinities and NaNs (R60). -/
def FpFormat.decode (f : FpFormat) (code : Nat) : Fp :=
  let s := code / 2 ^ f.sign % 2 == 1
  let mag := code % 2 ^ f.sign
  let ex := mag / 2 ^ f.t
  let fr := mag % 2 ^ f.t
  if f.inf.isSome ∧ mag > f.maxCode then
    if fr = 0 then .inf s else .nan (fr / 2 ^ (f.t - 1) % 2 == 0)
  else if ex = 0 then .num s fr f.qmin
  else .num s (2 ^ f.t + fr) (f.qmin + (ex - 1 : Nat))

/-- ⌊log2 m⌋ + e, for m ≠ 0. -/
def magExp (m : Nat) (e : Int) : Int := (Nat.log2 m : Int) + e

/-- A magnitude m·2^e rounded to t + 1 significant bits with quanta of at least 2^qmin (R68): n and q of n·2^q, and whether the
result is inexact. In a format without fraction bits both neighbours of a tie are odd, and the larger magnitude is delivered (log 16). -/
def roundMag (rm : RoundMode) (neg : Bool) (t : Nat) (qmin : Int) (m : Nat) (e : Int) : Nat × Int × Bool :=
  if m = 0 then (0, qmin, false)
  else
    let q := max (magExp m e - t) qmin
    if q ≤ e then (m * 2 ^ (e - q).toNat, q, false)
    else
      let k := (q - e).toNat
      let n := m / 2 ^ k
      let r := m % 2 ^ k
      let half := 2 ^ (k - 1)
      let up : Bool :=
        match rm with
        | .rne => decide (r > half) || (decide (r = half) && n % 2 == 1)
        | .rz => false
        | .ru => !neg && decide (r ≠ 0)
        | .rd => neg && decide (r ≠ 0)
      (if up then n + 1 else n, q, decide (r ≠ 0))

/-- Whether an overflow goes to infinity under the rounding mode (IEEE 754-2019). -/
def overflowToInf (rm : RoundMode) (neg : Bool) : Bool :=
  match rm with
  | .rne => true
  | .rz => false
  | .ru => !neg
  | .rd => neg

/-- The magnitude code of n·2^q. -/
def FpFormat.magCode (f : FpFormat) (n : Nat) (q : Int) : Nat := (q - f.qmin).toNat * 2 ^ f.t + n

/-- Is the exact magnitude below the smallest normal (R70)? -/
def FpFormat.tiny (f : FpFormat) (m : Nat) (e : Int) : Bool := decide (m ≠ 0 ∧ magExp m e < f.emin)

def FpFormat.signBit (f : FpFormat) (s : Bool) : Nat := if s then 2 ^ f.sign else 0

/-- A value rounded to an IEEE format, with the flags it raises (R68 to R70). -/
def FpFormat.pack (f : FpFormat) (rm : RoundMode) (x : Fp) : Nat × Flags :=
  match x with
  | .nan q => (f.nan.getD 0, if q then flagNV else 0)
  | .inf s => (f.signBit s + f.inf.getD f.maxCode, 0)
  | .num s m e =>
    let (n, q, inexact) := roundMag rm s f.t f.qmin m e
    let code := f.magCode n q
    if code > f.maxCode then
      (f.signBit s + (if overflowToInf rm s then f.inf.getD f.maxCode else f.maxCode), flagOF ||| flagNX)
    else
      (f.signBit s + code,
        if inexact then (if f.tiny m e then flagUF ||| flagNX else flagNX) else 0)

/-- The code of a value that the format holds exactly. -/
def FpFormat.code (f : FpFormat) (x : Fp) : Nat := (f.pack .rne x).1

/-! Exact operations. -/

/-- A finite value as a signed multiple of 2^k, for k at most its exponent. -/
def alignTo (k : Int) : Fp → Int
  | .num s m e => (if s then -1 else 1) * ((m * 2 ^ (e - k).toNat : Nat) : Int)
  | _ => 0

def Fp.exp : Fp → Int
  | .num _ _ e => e
  | _ => 0

def Fp.negative : Fp → Bool
  | .nan _ => false
  | .inf s => s
  | .num s _ _ => s

/-- The exact product; 0 · ∞ is a NaN that raises NV (R243). -/
def Fp.mul (x y : Fp) : Fp × Flags :=
  match x, y with
  | .nan a, .nan b => (.nan false, if a || b then flagNV else 0)
  | .nan a, _ => (.nan false, if a then flagNV else 0)
  | _, .nan b => (.nan false, if b then flagNV else 0)
  | .inf s, .inf r => (.inf (s != r), 0)
  | .inf s, .num r m _ => if m = 0 then (.nan false, flagNV) else (.inf (s != r), 0)
  | .num s m _, .inf r => if m = 0 then (.nan false, flagNV) else (.inf (s != r), 0)
  | .num s m e, .num r n d => (.num (s != r) (m * n) (e + d), 0)

/-- The exact sum of all the terms (R72), the sign of a zero sum under R69, and NV for a signalling NaN or for infinities of opposite
sign. -/
def exactSum (rm : RoundMode) (xs : List Fp) : Fp × Flags :=
  let fl : Flags := if xs.any Fp.isSnan then flagNV else 0
  if xs.any Fp.isNan then (.nan false, fl)
  else
    let pos := xs.any (fun x => x == Fp.inf false)
    let neg := xs.any (fun x => x == Fp.inf true)
    if pos && neg then (.nan false, fl ||| flagNV)
    else if pos then (.inf false, fl)
    else if neg then (.inf true, fl)
    else
      let k := xs.foldl (fun k x => if x.isZero then k else min k x.exp) 1000000
      let total := xs.foldl (fun a x => if x.isZero then a else a + alignTo k x) (0 : Int)
      if total = 0 then
        if !xs.isEmpty && xs.all (fun x => x.isZero && x.negative) then (.num true 0 0, fl)
        else if xs.all (fun x => x.isZero && !x.negative) then (.num false 0 0, fl)
        else (.num (rm == .rd) 0 0, fl)
      else (.num (decide (total < 0)) total.natAbs k, fl)

/-- x + y rounded to a format. -/
def FpFormat.add (f : FpFormat) (rm : RoundMode) (x y : Fp) : Nat × Flags :=
  let (v, fl) := exactSum rm [x, y]
  let (c, fl') := f.pack rm v
  (c, fl ||| fl')

def FpFormat.mul (f : FpFormat) (rm : RoundMode) (x y : Fp) : Nat × Flags :=
  let (v, fl) := x.mul y
  let (c, fl') := f.pack rm v
  (c, fl ||| fl')

/-- x·y + z with one rounding (R247); 0 · ∞ raises NV whatever z is. -/
def FpFormat.fma (f : FpFormat) (rm : RoundMode) (x y z : Fp) : Nat × Flags :=
  let (p, fl) := x.mul y
  let (v, fl') := exactSum rm [p, z]
  let (c, fl'') := f.pack rm v
  (c, fl ||| fl' ||| fl'')

/-- A sum of products and terms rounded once (R72, R256). -/
def FpFormat.sumProducts (f : FpFormat) (rm : RoundMode) (ps : List (Fp × Fp)) (ts : List Fp) : Nat × Flags :=
  let prods := ps.map (fun p => p.1.mul p.2)
  let fl := prods.foldl (fun a p => a ||| p.2) (0 : Flags)
  let (v, fl') := exactSum rm (prods.map Prod.fst ++ ts)
  let (c, fl'') := f.pack rm v
  (c, fl ||| fl' ||| fl'')

/-- Numerical comparison of two numbers or infinities: −1, 0 or 1; the zeros compare equal. -/
def Fp.cmp (x y : Fp) : Int :=
  match x, y with
  | .inf s, .inf r => if s = r then 0 else if s then -1 else 1
  | .inf s, _ => if s then -1 else 1
  | _, .inf r => if r then 1 else -1
  | a, b =>
    let k := min a.exp b.exp
    let d := alignTo k a - alignTo k b
    if d < 0 then -1 else if d = 0 then 0 else 1

/-- Strictly below in the order of minimumNumber: −0 is below +0 (R69). -/
def Fp.below (x y : Fp) : Bool :=
  decide (x.cmp y < 0) || (decide (x.cmp y = 0) && x.isZero && x.negative && !y.negative)

/-- minimumNumber and maximumNumber (R69), with NV on a signalling NaN. -/
def Fp.minMax (max : Bool) (x y : Fp) : Fp × Flags :=
  let fl : Flags := if x.isSnan || y.isSnan then flagNV else 0
  if x.isNan && y.isNan then (.nan false, fl)
  else if x.isNan then (y, fl)
  else if y.isNan then (x, fl)
  else if x.below y then (if max then y else x, fl) else (if max then x else y, fl)

/-! The remaining formats. -/

/-- A binary8 variant (R62): its precision, and whether it is unsigned and finite. -/
def b8P (code : Nat) : Nat := (code - 0x20) / 4 + 1
def b8Unsigned (code : Nat) : Bool := code / 2 % 2 == 1
def b8Finite (code : Nat) : Bool := code % 2 == 1

/-- The figures of a binary8 variant; its sign is bit 7, which an unsigned variant does not have. -/
def b8Format (code : Nat) : FpFormat :=
  let p := b8P code
  let w : Nat := if b8Unsigned code then 9 - p else 8 - p
  let maxCode := if b8Unsigned code then (if b8Finite code then 0xFE else 0xFD)
    else (if b8Finite code then 0x7F else 0x7E)
  ⟨if b8Unsigned code then 8 else 7, p - 1, 1 - (2 ^ (w - 1) : Nat), maxCode, none, none⟩

/-- The value of a binary8 code (R62). -/
def b8Decode (fmt code : Nat) : Fp :=
  if b8Unsigned fmt then
    if code = 0xFF then .nan false
    else if code = 0xFE ∧ !b8Finite fmt then .inf false
    else (b8Format fmt).decode code
  else
    if code = 0x80 then .nan false
    else if (code = 0x7F ∨ code = 0xFF) ∧ !b8Finite fmt then .inf (code == 0xFF)
    else (b8Format fmt).decode code

/-- A value converted to a binary8 variant (Table 5.6). -/
def b8Pack (fmt : Nat) (sat : Bool) (x : Fp) : Nat × Flags :=
  let f := b8Format fmt
  let uns := b8Unsigned fmt
  let fin := b8Finite fmt
  let nanCode := if uns then 0xFF else 0x80
  let sgn : Bool → Nat := fun s => if s && !uns then 0x80 else 0
  -- an infinity reached by overflow, or an infinite input
  let top : Bool → Bool → Nat × Flags := fun s overflow =>
    if fin then
      if overflow || sat then (sgn s + f.maxCode, flagOF ||| flagNX) else (nanCode, flagNV)
    else if overflow then (sgn s + (if sat then f.maxCode else f.maxCode + 1), flagOF ||| flagNX)
    else (sgn s + (f.maxCode + 1), 0)
  match x with
  | .nan q => (nanCode, if q then flagNV else 0)
  | .inf s => if s && uns then (nanCode, flagNV) else top s false
  | .num s m e =>
    let (n, q, inexact) := roundMag .rne s f.t f.qmin m e
    let code := f.magCode n q
    let fl : Flags := if inexact then (if f.tiny m e then flagUF ||| flagNX else flagNX) else 0
    if n = 0 then (0, fl)
    else if s && uns then (nanCode, flagNV)
    else if code > f.maxCode then top s true
    else (sgn s + code, fl)

/-- E8M0 (R61). -/
def e8m0Decode (code : Nat) : Fp :=
  if code = 0xFF then .nan false else .num false 1 ((code : Int) - 127)

/-- A value converted to E8M0 (Table 5.6). -/
def e8m0Pack (x : Fp) : Nat × Flags :=
  match x with
  | .nan q => (0xFF, if q then flagNV else 0)
  | .inf _ => (0xFE, flagNX)
  | .num _ m e =>
    if m = 0 then (0x00, flagNX)
    else
      let k := magExp m e
      if k < -127 then (0x00, flagNX)
      else if k > 127 then (0xFE, flagNX)
      else ((k + 127).toNat, if m = 2 ^ Nat.log2 m then 0 else flagNX)

/-- A value converted to FP6 or FP4 (Table 5.6): saturating, NaN to +0. -/
def fp6Pack (f : FpFormat) (x : Fp) : Nat × Flags :=
  match x with
  | .nan _ => (0, flagNV)
  | .inf s => (f.signBit s + f.maxCode, flagOF ||| flagNX)
  | .num s m e =>
    let (n, q, inexact) := roundMag .rne s f.t f.qmin m e
    let code := f.magCode n q
    if code > f.maxCode then (f.signBit s + f.maxCode, flagOF ||| flagNX)
    else (f.signBit s + code, if inexact then (if f.tiny m e then flagUF ||| flagNX else flagNX) else 0)

/-- The integer nearest a finite value under a rounding mode, and whether it is inexact. -/
def Fp.roundInt (rm : RoundMode) (s : Bool) (m : Nat) (e : Int) : Int × Bool :=
  if e ≥ 0 then ((if s then -1 else 1) * ((m * 2 ^ e.toNat : Nat) : Int), false)
  else
    let k := (-e).toNat
    let n := m / 2 ^ k
    let r := m % 2 ^ k
    let up : Bool :=
      match rm with
      | .rne => decide (2 * r > 2 ^ k) || (decide (2 * r = 2 ^ k) && n % 2 == 1)
      | .rz => false
      | .ru => !s && decide (r ≠ 0)
      | .rd => s && decide (r ≠ 0)
    ((if s then -1 else 1) * ((if up then n + 1 else n : Nat) : Int), decide (r ≠ 0))

/-- A value converted to an integer of the range [lo, hi] (Table 5.6). -/
def Fp.toInt (rm : RoundMode) (lo hi : Int) (x : Fp) : Int × Flags :=
  match x with
  | .nan _ => (0, flagNV)
  | .inf s => (if s then lo else hi, flagNV)
  | .num s m e =>
    let (i, inexact) := Fp.roundInt rm s m e
    if i < lo then (lo, flagNV) else if i > hi then (hi, flagNV) else (i, if inexact then flagNX else 0)

/-- An integer clamped to a range. -/
def clampInt (lo hi i : Int) : Int := if i < lo then lo else if i > hi then hi else i

/-- The code of an integer in `w` bits, two's complement. -/
def intCode (w : Nat) (i : Int) : Nat := (i % (2 ^ w : Nat)).toNat

/-- The range of an integer format code (R63). -/
def intRange (fmt : Nat) : Option (Int × Int × Nat) :=
  match fmt with
  | 0x00 => some (-(2 ^ 31 : Nat), (2 ^ 31 - 1 : Nat), 32)
  | 0x01 => some (0, (2 ^ 32 - 1 : Nat), 32)
  | 0x05 => some (-(2 ^ 15 : Nat), (2 ^ 15 - 1 : Nat), 16)
  | 0x06 => some (0, (2 ^ 16 - 1 : Nat), 16)
  | 0x07 => some (-(2 ^ 7 : Nat), (2 ^ 7 - 1 : Nat), 8)
  | 0x08 => some (0, (2 ^ 8 - 1 : Nat), 8)
  | 0x09 => some (-(2 ^ 3 : Nat), (2 ^ 3 - 1 : Nat), 4)
  | _ => none

/-- A value converted to a format code, with the flags of Table 5.6. `integer` says that the source is an integer, whose conversion to
an integer saturates and raises nothing. -/
def convertTo (fmt : Nat) (rm : RoundMode) (sat integer : Bool) (x : Fp) : Nat × Flags :=
  match intRange fmt with
  | some (lo, hi, w) =>
    let (i, fl) := x.toInt rm lo hi
    (intCode w i, if integer then 0 else fl)
  | none =>
    if fmt = 0x02 then fp32.pack rm x
    else if fmt = 0x03 then bf16.pack rm x
    else if fmt = 0x04 then fp16.pack rm x
    else if fmt = 0x0D then e8m0Pack x
    else if fmt = 0x0E then fp6Pack fp6e2m3 x
    else if fmt = 0x0F then fp6Pack fp6e3m2 x
    else if fmt = 0x10 then fp6Pack fp4 x
    else b8Pack fmt sat x

/-- The value of a code of a floating-point or integer format code. -/
def valueOf (fmt code : Nat) : Fp :=
  match intRange fmt with
  | some (lo, _, w) =>
    if lo < 0 ∧ code ≥ 2 ^ (w - 1) then Fp.ofInt ((code : Int) - (2 ^ w : Nat)) else Fp.ofInt code
  | none =>
    if fmt = 0x02 then fp32.decode code
    else if fmt = 0x03 then bf16.decode code
    else if fmt = 0x04 then fp16.decode code
    else if fmt = 0x0B then fp40.decode code
    else if fmt = 0x0D then e8m0Decode code
    else if fmt = 0x0E then fp6e2m3.decode code
    else if fmt = 0x0F then fp6e3m2.decode code
    else if fmt = 0x10 then fp4.decode code
    else b8Decode fmt code

/-- x · 2^e as an FX64 integer (R71): RNE, saturated; a NaN gives 0. -/
def toFx64 (e : Int) (x : Fp) : Int :=
  (Fp.toInt .rne (-(2 ^ 63 : Nat)) (2 ^ 63 - 1 : Nat) (x.scale e)).1

/-- A saturating FX64 addition (R64). -/
def fx64Add (a b : Int) : Int := clampInt (-(2 ^ 63 : Nat)) (2 ^ 63 - 1 : Nat) (a + b)

/-- A saturating INT40 addition (R63). -/
def satS40 (i : Int) : Int := clampInt (-(2 ^ 39 - 1 : Nat)) (2 ^ 39 - 1 : Nat) i

/-! Binary32 patterns. -/

def f32 (w : Word) : Fp := fp32.decode w.toNat
def bits32 (c : Nat) : Word := BitVec.ofNat 32 c

/-- An operation's binary32 result as a register word. -/
def word32 (r : Nat × Flags) : Word × Flags := (bits32 r.1, r.2)

/-- A pattern with a NaN made canonical (R69). -/
def canonical32 (w : Word) : Word := if (f32 w).isNan then 0x7FC00000 else w

/-- rne32 of a sum of two patterns with the canonical NaN and no flag (R269, R270). -/
def addf32 (a b : Word) : Word := bits32 (fp32.add .rne (f32 a) (f32 b)).1

/-! The function unit (R249). A result that is no dyadic number is given by a lower bound of more than 200 significant bits with a
last bit set below it, so that it rounds as the exact result does (log 10). -/

/-- Fraction bits of the fixed-point values. -/
def funcPrec : Nat := 320

def one : Nat := 2 ^ funcPrec

/-- Σ z^(2k+1)/(2k+1) for a fixed-point z below one half: artanh z, or arctan z when `alt`. -/
def artanhGo (alt : Bool) (zz : Nat) : Nat → Nat → Nat → Int → Int
  | 0, _, _, acc => acc
  | fuel + 1, k, p, acc =>
    let term : Int := (p / (2 * k + 1) : Nat)
    artanhGo alt zz fuel (k + 1) (p * zz / one) (if alt && k % 2 == 1 then acc - term else acc + term)

def artanh (z : Nat) : Nat := (artanhGo false (z * z / one) 200 0 z 0).toNat

def arctan (z : Nat) : Nat := (artanhGo true (z * z / one) 200 0 z 0).toNat

/-- ln 2 = 2·artanh(1/3). -/
def ln2 : Nat := 2 * artanh (one / 3)

/-- π = 16·arctan(1/5) − 4·arctan(1/239). -/
def piFixed : Nat := 16 * arctan (one / 5) - 4 * arctan (one / 239)

def expGo (y : Nat) : Nat → Nat → Nat → Nat → Nat
  | 0, _, _, acc => acc
  | fuel + 1, k, p, acc => expGo y fuel (k + 1) (p * y / one / k) (acc + p)

/-- e^y of a fixed-point y below 1. -/
def expFixed (y : Nat) : Nat := expGo y 90 1 one 0

def sinGo (yy : Nat) : Nat → Nat → Nat → Int → Int
  | 0, _, _, acc => acc
  | fuel + 1, k, p, acc =>
    sinGo yy fuel (k + 2) (p * yy / one / (k + 1) / (k + 2)) (if k / 2 % 2 == 1 then acc - p else acc + p)

/-- sin y of a fixed-point y up to π/2. -/
def sinFixed (y : Nat) : Nat := (sinGo (y * y / one) 60 1 y 0).toNat

/-- A magnitude known as a fixed-point lower bound that is not exact. -/
def inexactFixed (s : Bool) (v : Nat) : Fp := .num s (2 * v + 1) (-(funcPrec : Int) - 1)

/-- A finite magnitude as a fixed-point number; its exponent is at least −320 for every binary32 value. -/
def fixedOf (m : Nat) (e : Int) : Nat := m * 2 ^ (e + funcPrec).toNat

def funcNan (q : Bool) : Word × Flags := (bits32 0x7FC00000, if q then flagNV else 0)
def funcInvalid : Word × Flags := (bits32 0x7FC00000, flagNV)
def infWord (s : Bool) : Word := if s then 0xFF800000 else 0x7F800000
def zeroWord (s : Bool) : Word := if s then 0x80000000 else 0
def oneWord (s : Bool) : Word := if s then 0xBF800000 else 0x3F800000
def packFunc (x : Fp) : Word × Flags := word32 (fp32.pack .rne x)

def frcp (w : Word) : Word × Flags :=
  match f32 w with
  | .nan q => funcNan q
  | .inf s => (zeroWord s, 0)
  | .num s m e =>
    if m = 0 then (infWord s, flagDZ)
    else
      let q := 2 ^ 200 / m
      packFunc (if 2 ^ 200 % m = 0 then .num s q (-e - 200) else .num s (2 * q + 1) (-e - 201))

/-- √(m·2^e) for an even e, with its last bit set below when it is inexact. -/
def sqrtFp (m : Nat) (e : Int) : Fp :=
  let m' := m * 2 ^ 200
  let r := Nat.sqrt m'
  if r * r = m' then .num false r (e / 2 - 100) else .num false (2 * r + 1) (e / 2 - 101)

def fsqrt (w : Word) : Word × Flags :=
  match f32 w with
  | .nan q => funcNan q
  | .inf s => if s then funcInvalid else (infWord false, 0)
  | .num s m e =>
    if m = 0 then (zeroWord s, 0)
    else if s then funcInvalid
    else packFunc (if e % 2 = 0 then sqrtFp m e else sqrtFp (2 * m) (e - 1))

def frsq (w : Word) : Word × Flags :=
  match f32 w with
  | .nan q => funcNan q
  | .inf s => if s then funcInvalid else (zeroWord false, 0)
  | .num s m e =>
    if m = 0 then (infWord s, flagDZ)
    else if s then funcInvalid
    else
      let m' := if e % 2 = 0 then m else 2 * m
      let e' := if e % 2 = 0 then e else e - 1
      let r := Nat.sqrt (2 ^ 400 / m')
      packFunc (if r * r * m' = 2 ^ 400 then .num false r (-(e' / 2) - 200)
        else .num false (2 * r + 1) (-(e' / 2) - 201))

def fex2 (w : Word) : Word × Flags :=
  match f32 w with
  | .nan q => funcNan q
  | .inf s => (if s then zeroWord false else infWord false, 0)
  | .num s m e =>
    let big : Bool := decide (magExp m e ≥ 8) && decide (m ≠ 0)
    if big then packFunc (if s then .num false 1 (-1000) else .num false 1 1000)
    else
      let x : Int := (if s then -1 else 1) * ((fixedOf m e : Nat) : Int)
      let k := x / (one : Int)
      let f := (x % (one : Int)).toNat
      if f = 0 then packFunc (.num false 1 k)
      else packFunc ((inexactFixed false (expFixed (f * ln2 / one))).scale k)

def flg2 (w : Word) : Word × Flags :=
  match f32 w with
  | .nan q => funcNan q
  | .inf s => if s then funcInvalid else (infWord false, 0)
  | .num s m e =>
    if m = 0 then (infWord true, flagDZ)
    else if s then funcInvalid
    else
      let k := magExp m e
      if m = 2 ^ Nat.log2 m then packFunc (Fp.ofInt k)
      else
        let x := m * one / 2 ^ Nat.log2 m
        let v : Int := k * (one : Int) + ((2 * artanh ((x - one) * one / (x + one)) * one / ln2 : Nat) : Int)
        packFunc (if v ≥ 0 then inexactFixed false v.toNat else inexactFixed true (v.natAbs - 1))

/-- |x| modulo 2 as a fixed-point number. -/
def modTwo (m : Nat) (e : Int) : Nat :=
  if e ≥ 1 then 0 else fixedOf m e % (2 * one)

def fsinp (w : Word) : Word × Flags :=
  match f32 w with
  | .nan q => funcNan q
  | .inf _ => funcInvalid
  | .num s m e =>
    let r := modTwo m e
    let s' := if r ≥ one then !s else s
    let r := r % one
    if r = 0 then (zeroWord s, 0)
    else if 2 * r = one then (oneWord s', 0)
    else packFunc (inexactFixed s' (sinFixed (piFixed * (if 2 * r > one then one - r else r) / one)))

def fcosp (w : Word) : Word × Flags :=
  match f32 w with
  | .nan q => funcNan q
  | .inf _ => funcInvalid
  | .num _ m e =>
    let r := modTwo m e
    let r := if r > one then 2 * one - r else r
    if r = 0 then (oneWord false, 0)
    else if r = one then (oneWord true, 0)
    else if 2 * r = one then (zeroWord false, 0)
    else if 2 * r > one then packFunc (inexactFixed true (sinFixed (piFixed * (r - one / 2) / one)))
    else packFunc (inexactFixed false (sinFixed (piFixed * (one / 2 - r) / one)))

def ftanh (w : Word) : Word × Flags :=
  match f32 w with
  | .nan q => funcNan q
  | .inf s => (oneWord s, 0)
  | .num s m e =>
    if m = 0 then (zeroWord s, 0)
    else if magExp m e < -90 then packFunc (.num s (m * 2 ^ 64 - 1) (e - 64))
    else if magExp m e ≥ 6 then packFunc (.num s (2 ^ 200 - 1) (-200))
    else
      let z := expFixed (2 * fixedOf m e / 128)
      let ex := (List.range 7).foldl (fun a _ => a * a / one) z
      packFunc (inexactFixed s ((ex - one) * one / (ex + one)))

end Sys2Proof.Machine
end

