-- ==== Sys2Proof/Config.lean ====
section
/-! DEFINITION. What the implementation fixes and what the spec leaves open. A free value has no body: nothing evaluates it and no proof
rests on what it is. Each is read at the counter `State.free`, which the step that reads it advances. -/

namespace Sys2Proof

/-- Which of the values that R374 allows an early reader receives: an index, taken modulo their number (log 6). -/
opaque Config.freeChoice : Nat → Nat

/-- A 32-bit value on which the spec is silent (log 6). -/
opaque Config.freeWord : Nat → BitVec 32

/-- The bytes of a save's context frames to which the spec gives contents and no places: by the number of the save and the place (log 6). -/
opaque Config.freeByte : Nat → Nat → BitVec 8

/-- A handle from 1 to 65,535 that firmware chooses, before it is made unique (R184, log 6). -/
opaque Config.freeHandle : Nat → Nat

/-- The signature of an SPDM answer with a digest, by the part's ML-DSA-87 attestation key, which never leaves the part (R368, log 6). -/
opaque Config.signature : BitVec 512 → Nat → BitVec 37016

/-- The limit of each path-delay monitor (R424, log 78). -/
opaque Config.delayLimit : Nat → BitVec 32

/-- The IA of the area in memory of domain 0 that firmware allocates for a core's spilled tasks (R192, log 81). -/
opaque Config.taskArea : Nat → Nat

/-- Device stacks, cores and slices of the package (R8, R10). -/
def Config.stackCount : Nat := 12
def Config.coreCount : Nat := 192
def Config.slicesPerSector : Nat := 16

/-- Rows of a bank (R14). -/
def Config.rowCount : Nat := 61440

/-- Ticks of the limits that the spec fixes. -/
def Config.replyLimit : Nat := 65536
def Config.saveWait : Nat := 16384
def Config.pinWait : Nat := 2 ^ 20
def Config.unsyncLimit : Nat := 2 ^ 20
def Config.collLimit : Nat := 2 ^ 28
def Config.migrateAfter : Nat := 1600000
def Config.pageInLimit : Nat := 80000000

/-- Ticks of a second and of an hour (R11). -/
def Config.second : Nat := 800000000
def Config.hour : Nat := 3600 * Config.second

end Sys2Proof
end

