-- ==== Sys2Proof/Machine/Memory.lean ====
section
/-! DEFINITION. Addresses: partitions and homes (R9, R76, R84), the range check (R77, R78), memory-side translation and ownership (R173 to
R175), replacement classes (R87), poison (R394), and the error log (R383). -/

namespace Sys2Proof.Machine

/-! Tables of the state, with their defaults. -/

def coreAt (s : State) (c : Nat) : Core := getAt Core.idle s.cores c
def setCore (s : State) (c : Nat) (x : Core) : State := { s with cores := putAt Core.idle s.cores c x }
def partAt (s : State) (n : Nat) : Part := getAt Part.reset s.parts n
def setPart (s : State) (n : Nat) (x : Part) : State := { s with parts := putAt Part.reset s.parts n x }
def domainAt (s : State) (part dom : Nat) : Domain := getAt Domain.none s.domains (part * 4096 + dom)
def fnAt (s : State) (f : Nat) : Fn := getAt Fn.reset s.fns f
def setFn (s : State) (f : Nat) (x : Fn) : State := { s with fns := putAt Fn.reset s.fns f x }
def stackAt (s : State) (k : Nat) : Stack := getAt Stack.reset s.stackRegs k

/-! Where an access comes from. -/

def Src.core : Src → Nat
  | .group c _ _ _ => c
  | .seq c _ _ => c

def Src.slot : Src → Nat
  | .group _ q _ _ => q
  | .seq _ _ _ => 63

def Src.uid : Src → Nat
  | .group _ _ uid _ => uid
  | .seq _ _ uid => uid

def Src.strand : Src → Nat
  | .group _ _ _ t => t
  | .seq _ _ _ => 8

/-! Dies, sectors, partitions (R8 to R10, R170). -/

def dieOfCore (c : Nat) : Nat := c / 48
def sectorOfCore (c : Nat) : Nat := c / 16
def dieOfStack (k : Nat) : Nat := k / 3
def dieOfSlice (slice : Nat) : Nat := slice / 48

/-- The partition that holds a die, by its number. -/
def partOfDie (s : State) (die : Nat) : Option Nat :=
  (s.parts.find? (fun p => p.2.dies.contains die)).map Prod.fst

def partOfCore (s : State) (c : Nat) : Option Nat := partOfDie s (dieOfCore c)

/-- The stacks of a partition, ascending; its sectors bear the same numbers (R76). -/
def Part.stacks (p : Part) : List Nat := p.dies.flatMap (fun d => [3 * d, 3 * d + 1, 3 * d + 2])

/-- The cores of a partition, ascending. -/
def Part.cores (p : Part) : List Nat := p.dies.flatMap (fun d => (List.range 48).map (fun i => 48 * d + i))

/-- The slices of a partition less those retired, ascending (R84). -/
def Part.slices (p : Part) : List Nat :=
  (p.stacks.flatMap (fun k => (List.range 16).map (fun i => 16 * k + i))).filter (fun x => !p.retired.contains x)

/-- The home stack of an IA and its stack-local address (R76); none for an IA that no stack has, one beyond 52 bits among them (log 68). -/
def homeStack (p : Part) (ia : Nat) : Option (Nat × Nat) :=
  let hi := ia / 2 ^ 48
  if hi < 12 then some (hi, ia % 2 ^ 48)
  else if hi = 15 then
    let ks := p.stacks
    let g := ia / 2 ^ 12 % 2 ^ 36
    if ks.length = 0 then none
    else some (ks.getD (g % ks.length) 0, 2 ^ 48 + g / ks.length * 2 ^ 12 + ia % 2 ^ 12)
  else none

/-- BARTO of WATCHCTL (R377, Table 30.2). -/
def Part.barto (p : Part) : Nat := p.watchctl.toNat % 2 ^ 32

/-- The line of an address (R84). -/
def lineOf (ia : Nat) : Nat := ia / 128

/-- The hash of a line (R84). -/
def lineHash (x : Nat) : Nat := (x % 2 ^ 16) ^^^ (x / 2 ^ 16 % 2 ^ 16) ^^^ (x / 2 ^ 32 % 2 ^ 13)

/-- The home slice of a line (R84). -/
def homeSlice (p : Part) (ia : Nat) : Nat :=
  let l := p.slices
  if l.length = 0 then 0 else l.getD (lineHash (lineOf ia) % l.length) 0

/-- The slice of a core's sector that may hold a replica of a line (R86). -/
def replicaSlice (core ia : Nat) : Nat := 16 * sectorOfCore core + lineHash (lineOf ia) % 16

/-- A 64-bit register of the slice map: slices `64 * i` and up (Table 6.2). -/
def smapReg (slices : List Nat) (i : Nat) : Dword :=
  BitVec.ofNat 64 ((slices.filter (fun x => x / 64 == i)).foldl (fun m x => m + 2 ^ (x % 64)) 0)

/-- A core takes over the slice map of its partition (R85, R389). -/
def Core.loadMap (c : Core) (p : Part) : Core :=
  { c with smap0 := smapReg p.slices 0, smap1 := smapReg p.slices 1, smap2 := smapReg p.slices 2, gen := p.gen, count := p.slices.length }

/-! Device time (R11, R392). -/

/-- A copy of device time that is offset from the reference. -/
def offsetTime (dt : Nat) (k : Int) : Nat := ((dt : Int) + k).toNat

def dtCore (s : State) (core : Nat) : Nat := offsetTime s.dt (getAt 0 s.skewCore core)
def dtSlice (s : State) (slice : Nat) : Nat := offsetTime s.dt (getAt 0 s.skewSlice slice)
def isUnsync (s : State) (c : DtCopy) : Bool := s.unsync.any (fun u => decide (u.copy = c))

/-- The temperature at which a compute die stops issuing and is powered down, in °C (R423). -/
def tripTemperature : Nat := 110

/-- A compute die issues no more. -/
def dieStopped (s : State) (die : Nat) : Bool := getAt false s.poweredDown die || decide (tripTemperature ≤ getAt 0 s.temps die)

/-! The range check (R77, R78). -/

/-- Permission bits, as they stand in word 0 of a range entry (Table 6.1). -/
def permR : Nat := 2
def permW : Nat := 4
def permX : Nat := 8
def permL : Nat := 16
def permA : Nat := 32

/-- The lowest-numbered valid entry that covers a VA: its permission bits and the IA. -/
def rangeEntry (ranges : List (Dword × Dword)) (va : Nat) : Option (Nat × Nat) :=
  match ranges with
  | [] => none
  | (w0, w1) :: t =>
    let g := va / 2 ^ 21
    let base := w0.toNat / 2 ^ 21 % 2 ^ 27
    let size := w1.toNat / 2 ^ 32 % 2 ^ 27
    if w0.toNat % 2 = 1 ∧ base ≤ g ∧ g < base + size then
      some (w0.toNat % 64, (w1.toNat % 2 ^ 31) * 2 ^ 21 + (va - base * 2 ^ 21))
    else rangeEntry t va

/-- The IA of a VA whose entry holds the permissions; none where the access fails R75 or R78. -/
def rangeIa (ranges : List (Dword × Dword)) (perms va : Nat) : Option Nat :=
  if va < 2 ^ 48 then
    match rangeEntry ranges va with
    | some (p, ia) => if p &&& perms = perms then some ia else none
    | none => none
  else none

/-- The lowest byte of [va, va + len) that fails the check; entries are whole 2 MiB granules, so a granule's first byte stands for it. -/
def rangeFail (ranges : List (Dword × Dword)) (perms va len : Nat) : Option Nat :=
  let g := va / 2 ^ 21
  let n := (va + len - 1) / 2 ^ 21 - g
  if len = 0 then none
  else
    match rangeIa ranges perms va with
    | none => some va
    | some _ =>
      ((List.range n).map (fun i => (g + 1 + i) * 2 ^ 21)).find? (fun a => (rangeIa ranges perms a).isNone)

/-! Memory-side translation and ownership (R173, R175). -/

/-- The number of a physical byte in the table of memory. -/
def physKey (stack pa : Nat) : Nat := stack * 2 ^ 37 + pa

/-- The page-table entry at a physical address. -/
def readPte (s : State) (stack pa : Nat) : Nat := readLE s.mem (physKey stack pa) 8

/-- A page-table entry's field PA. -/
def pteAddr (e : Nat) : Nat := e / 2 ^ 8 % 2 ^ 29 * 2 ^ 8

/-- The level-1 table of a stack. -/
def tableBase (s : State) (stack : Nat) : Nat := (stackAt s stack).ptbase.toNat / 2 ^ 22 % 2 ^ 15 * 2 ^ 22

/-- The addresses of the entries of an address at levels 1, 2 and 3. -/
def entryAt (table loc level : Nat) : Nat :=
  table + 8 * (if level = 1 then loc / 2 ^ 30 else if level = 2 then loc / 2 ^ 21 % 512 else loc / 2 ^ 16 % 32)

/-- An entry that points to a table. -/
def isPointer (e : Nat) : Bool := bitOf e 0 && bitOf e 1 && !bitOf e 2

/-- The entry that ends the walk of an address: its place, its contents and the size of a page at its level. -/
def endEntry (s : State) (stack loc : Nat) : Nat × Nat × Nat :=
  let a1 := entryAt (tableBase s stack) loc 1
  let e1 := readPte s stack a1
  if !isPointer e1 then (a1, e1, 2 ^ 30)
  else
    let a2 := entryAt (pteAddr e1) loc 2
    let e2 := readPte s stack a2
    if !isPointer e2 then (a2, e2, 2 ^ 21)
    else
      let a3 := entryAt (pteAddr e2) loc 3
      (a3, readPte s stack a3, 2 ^ 16)

/-- Where a stack-local address leads. -/
inductive Walk where
  /-- No valid leaf translates the address. -/
  | unmapped
  /-- An entry with V = 1 and P = 0. -/
  | absent
  /-- The physical address, the replacement class and the page size. -/
  | leaf (pa cls size : Nat)
deriving DecidableEq, Repr

/-- A leaf at level 2 or 3. -/
def isLeaf (e size : Nat) : Bool := bitOf e 0 && bitOf e 2 && decide (size < 2 ^ 30)

/-- What a leaf translates an address to. -/
def leafOf (e size loc : Nat) : Walk := .leaf (pteAddr e / size * size + loc % size) (e / 2 ^ 3 % 16) size

/-- The walk of a stack's page table. -/
def walk (s : State) (stack loc : Nat) : Walk :=
  let (_, e, size) := endEntry s stack loc
  if !bitOf e 0 then .unmapped
  else if !bitOf e 1 then .absent
  else if isLeaf e size then leafOf e size loc
  else .unmapped

/-- The page of an IA: its stack, its number there, and its size. -/
def pageOf (s : State) (part ia : Nat) : Option (Nat × Nat × Nat) :=
  (homeStack (partAt s part) ia).map (fun x =>
    let size := (endEntry s x.1 x.2).2.2
    (x.1, x.2 / size, size))

/-- The ownership entry of a physical page (R175). -/
def ownerAt (s : State) (stack pa : Nat) : Nat := getAt 0 s.owners (stack * 2 ^ 21 + pa / 2 ^ 16)

/-- The owner domain of a page; none where it is not assigned. -/
def ownerOf (s : State) (stack pa : Nat) : Option Nat :=
  let o := ownerAt s stack pa
  if bitOf o 12 then some (o % 4096) else none

/-- What the memory side finds at an IA. -/
inductive Place where
  /-- An error response of a kind of Table 31.1. -/
  | error (kind : Nat)
  /-- The access parks at a page that is not present. -/
  | park
  /-- The physical byte, with its class, owner and page size. -/
  | at (stack pa cls owner size : Nat)
  /-- A physical address that does not exist (R90). -/
  | absent
deriving DecidableEq, Repr

/-- Translation and ownership of an IA for a domain (R76, R173, R175). -/
def place (s : State) (part dom ia : Nat) : Place :=
  match homeStack (partAt s part) ia with
  | none => .error 2
  | some (stack, loc) =>
    match walk s stack loc with
    | .unmapped => .error 2
    | .absent => .park
    | .leaf pa cls size =>
      if pa / 2 ^ 21 ≥ Config.rowCount then .absent
      else
        match ownerOf s stack pa with
        | none => if dom = 0 then .at stack pa cls 0 size else .error 1
        | some o => if o = dom ∨ dom = 0 then .at stack pa cls o size else .error 1

/-! The translation cache of a stack (R174). -/

/-- The way that a fill takes: the lowest free one of those it may take, else that of the line with the largest rank among `used`, which
gives the ways that are taken with the rank of each; none where there is none to take. -/
def chooseWay (ways : List Nat) (taken : List Nat) (used : List (Nat × Nat)) : Option Nat :=
  match ways.find? (fun w => !taken.contains w) with
  | some w => some w
  | none =>
    ((used.filter (fun u => ways.contains u.1)).foldl (fun (b : Option (Nat × Nat)) u =>
      match b with
      | some x => if x.2 < u.2 then some u else some x
      | none => some u) none).map Prod.fst

/-- The ways of a mask. -/
def waysOf (n mask : Nat) : List Nat := (List.range n).filter (bitOf mask)

/-- A present page of a stack is translated for a request of a class: on a miss the class's ways of the translation cache take it (log
57). -/
def fillXlat (s : State) (stack loc tclass : Nat) : State :=
  let x := stackAt s stack
  let (_, e, size) := endEntry s stack loc
  if !(isLeaf e size && bitOf e 1) || x.xlat.any (fun y => y.loc == loc / size * size && y.size == size) then s
  else
    match chooseWay (waysOf 16 (x.xways.toNat / 2 ^ (16 * tclass) % 2 ^ 16)) (x.xlat.map XEntry.way) (x.xlat.map (fun y => (y.way, 0))) with
    | none => s
    | some w =>
      let x := { x with xlat := x.xlat.filter (fun y => y.way != w) ++ [⟨loc / size * size, size, w⟩] }
      { s with stackRegs := putAt Stack.reset s.stackRegs stack x }

/-- The entries of some pages leave a stack's translation cache (R177). -/
def forgetXlat (s : State) (stack : Nat) (locs : List Nat) (size : Nat) : State :=
  let x := stackAt s stack
  let hit := fun (y : XEntry) => locs.any (fun loc => decide (y.loc < loc + size ∧ loc < y.loc + y.size))
  { s with stackRegs := putAt Stack.reset s.stackRegs stack { x with xlat := x.xlat.filter (fun y => !hit y) } }

/-! Replacement classes (Table 6.3). -/

def classReset : Word := 0x0100FFFF
def classAt (s : State) (c : Nat) : Word := getAt classReset s.classes c
def classWays (w : Word) : Nat := w.toNat % 2 ^ 16
def classAge (w : Word) : Nat := w.toNat / 2 ^ 16 % 8
def classWp (w : Word) : Nat := w.toNat / 2 ^ 19 % 4
def classLease (w : Word) : Nat := w.toNat / 2 ^ 21 % 32
def classRepl (w : Word) : Bool := bitOf w.toNat 26

/-- A class with no copy and no lease (WP = 2). -/
def isNa (s : State) (cls : Nat) : Bool := decide (classWp (classAt s cls) = 2)

/-! Poison (R394). -/

/-- Does any 32-byte column word of [key, key + n) hold poison? -/
def poisonedAt (s : State) (key n : Nat) : Bool :=
  (List.range ((key + n - 1) / 32 - key / 32 + 1)).any (fun i => getAt false s.memPoison (key / 32 + i))

/-- A column word becomes poisoned, or is no longer. -/
def setPoison (s : State) (word : Nat) (bad : Bool) : State :=
  { s with memPoison := putAt false s.memPoison word bad, covers := eraseAt s.covers word }

/-- The physical column words of some bytes become poisoned (R394, R401). -/
def poisonPhys (s : State) (key size : Nat) : State :=
  (List.range ((key + size - 1) / 32 - key / 32 + 1)).foldl (fun s i => setPoison s (key / 32 + i) true) s

/-- The bytes of a column word that a write of `n` bytes from `key` replaces whole, as a mask. -/
def coverMask (key n mask word : Nat) : Nat :=
  (List.range 32).foldl (fun m i =>
    let a := 32 * word + i
    if key ≤ a ∧ a < key + n ∧ mask / 256 ^ (a - key) % 256 = 255 then m + 2 ^ i else m) 0

/-- A writer (a store instruction by its group and its tick, or an engine command) writes some bytes of a column word: once it has written
all 32 of them the word loses its poison (R394; log 70). -/
def coverWord (writer : Nat × Nat) (key n mask : Nat) (s : State) (word : Nat) : State :=
  if !getAt false s.memPoison word then s
  else
    let before := match lookupAt s.covers word with
      | some x => if x.1 = writer.1 ∧ x.2.1 = writer.2 then x.2.2 else 0
      | none => 0
    let now := before ||| coverMask key n mask word
    if now = 2 ^ 32 - 1 then setPoison s word false else { s with covers := setAt s.covers word (writer.1, writer.2, now) }

/-- The bits of `val` that `mask` enables written to the `n` physical bytes from `key`. -/
def writePhys (s : State) (writer : Nat × Nat) (key n val mask : Nat) : State :=
  let s := { s with mem := writeMasked s.mem key val mask n }
  if s.memPoison.isEmpty then s
  else (List.range ((key + n - 1) / 32 - key / 32 + 1)).foldl (fun s i => coverWord writer key n mask s (key / 32 + i)) s

/-! The error log (R383). -/

def logError (s : State) (stack : Nat) (e : LogEntry) : State :=
  let die := dieOfStack stack
  let l := getAt ErrorLog.empty s.logs die
  let l' := if l.entries.length < 64 then { l with entries := l.entries ++ [e] }
    else { l with ovf := min 65535 (l.ovf + 1) }
  { s with logs := putAt ErrorLog.empty s.logs die l' }

/-- The stack whose die logs a failing access; a reserved IA is logged by the partition's first stack. -/
def logStack (s : State) (part ia : Nat) : Nat :=
  match homeStack (partAt s part) ia with
  | some (k, _) => k
  | none => (partAt s part).stacks.headD 0

/-- Logs a failing access of a requester. -/
def logAccess (s : State) (part ia dom core slot kind : Nat) : State :=
  logError s (logStack s part ia) ⟨ia, dom, core, slot, kind, s.dt⟩

/-- The domain register that a domain-table entry loads (R172). -/
def domReg (s : State) (part dom : Nat) : DomReg :=
  let d := domainAt s part dom
  ⟨dom, d.ranges, d.handler, d.tclass⟩

end Sys2Proof.Machine
end

