-- ==== Sys2Proof/Machine/Bank.lean ====
section
/-! DEFINITION. Banks (R90, R144, R145): the unit at each, its run, and how ordinary requests and refresh are served beside it (R112,
R153, R155, R156). -/

namespace Sys2Proof.Machine

/-- A near-bank unit after a package reset: its program store reads zeros (R417); the rest is log 1. -/
def Nbu.reset : Nbu :=
  ⟨[], 0, [], [0, 0, 0, 0], [], 0, 0, 0, [], none, none, [], none, 0, none, none, 0, false, none, none⟩

def nbuAt (s : State) (bank : Nat) : Nbu := getAt Nbu.reset s.nbus bank
def setNbu (s : State) (bank : Nat) (x : Nbu) : State := { s with nbus := putAt Nbu.reset s.nbus bank x }

/-- The number of a bank: stack, pseudo-channel, bank. -/
def bankNo (stack pch bank : Nat) : Nat := stack * 2048 + pch * 32 + bank
def bankStack (bank : Nat) : Nat := bank / 2048
def bankPch (bank : Nat) : Nat := bank / 32 % 64
def bankLane (bank : Nat) : Nat := bank % 32

/-- The mode of a pseudo-channel (R152), by stack · 64 + pseudo-channel. -/
def inCompute (s : State) (stack pch : Nat) : Bool := getAt false s.computeMode (stack * 64 + pch)

/-- A row of a region is a page of 2 MiB, of which a bank holds 1 KiB (R145). -/
def rowBytes : Nat := 2 ^ 21

/-- The byte of a page at which a bank's 1 KiB begins (R145). -/
def bankOffset (bank : Nat) : Nat := bankPch bank * 32768 + bankLane bank * 1024

/-- The bank that holds a physical byte (R90). -/
def bankOf (stack pa : Nat) : Nat := stack * 2048 + pa % 2 ^ 21 / 1024

/-! Rows (R14, R155, R156). -/

/-- tREFW: 32 ms (R155). -/
def refreshWindow : Nat := 25600000

/-- Ticks of an activation, of a column access and of a precharge: 15 ns each (R14), at 0.8 GHz. -/
def rowTicks : Nat := 12

/-- Counters and credit by bank · 2^16 + physical row. -/
def rowKey (bank pa : Nat) : Nat := bank * 2 ^ 16 + pa / 2 ^ 21

/-- An activation of a row (R156). -/
def countActivation (s : State) (bank pa : Nat) : State :=
  { s with activations := putAt 0 s.activations (rowKey bank pa) (getAt 0 s.activations (rowKey bank pa) + 1) }

/-- A row of a bank whose latest refresh or credit is tREFW old (R155). -/
def dueRow (s : State) (bank : Nat) : Option Nat :=
  if s.dt < refreshWindow then none
  else (List.range Config.rowCount).find? (fun row => decide (getAt 0 s.credit (bank * 2 ^ 16 + row) + refreshWindow ≤ s.dt))

/-! The run at a bank. -/

/-- The command whose run a bank carries out, with its partition, its region's base and RC. -/
structure RunView where
  id   : Nat
  cmd  : Cmd
  part : Nat
  base : Nat
  rc   : Bool
deriving DecidableEq, Repr

def runView (s : State) (x : Nbu) : Option RunView :=
  match x.cmd with
  | none => none
  | some id =>
    match lookupAt s.cmds id with
    | none => none
    | some c =>
      match c.work with
      | .nbRun _ _ _ _ rc _ base => some ⟨id, c, (partOfCore s c.core).getD 0, base, rc⟩
      | _ => none

/-- The IA of a region row's page. -/
def RunView.ia (r : RunView) (row : Nat) : Nat := (rangeIa r.cmd.dom.ranges 0 (r.base + row * rowBytes)).getD 0

/-- A run holds the bank, so that requests are served at its row boundaries only (R153); a suspended run does not. -/
def governed (s : State) (bank : Nat) : Bool := (runView s (nbuAt s bank)).isSome && !(nbuAt s bank).suspended

/-! The queue of a bank (R112, R153, R159). -/

/-- The requests of one instruction to one line are one request of the eight: its core, its group, the line and the tick. -/
def serveKey (r : Req) : Nat × Nat × Nat × Nat := (r.src.core, r.src.uid, lineOf r.ia, r.sent)

/-- The place of a request in a bank's queue, ordinary requests and those of the base logic alike (R159). -/
def Req.bankOrder (r : Req) (bank : Nat) : Option Nat :=
  match r.state with
  | .atBank b o _ _ _ => if b = bank then some o else none
  | .atStack b o _ => if b = bank then some o else none
  | _ => none

/-- A request with an earlier place is in the bank's queue. -/
def queuedBefore (s : State) (bank o : Nat) : Bool :=
  s.net.any (fun e => match e.2.bankOrder bank with | some p => decide (p < o) | none => false)

def queued (s : State) (bank : Nat) : Bool := s.net.any (fun e => (e.2.bankOrder bank).isSome)

/-- A part of the line request that the bank serves is still in its queue: it is served whole (R347). -/
def lineUnserved (s : State) (bank : Nat) : Bool :=
  match (nbuAt s bank).lastServed with
  | none => false
  | some k => s.net.any (fun e => serveKey e.2 == k && (e.2.bankOrder bank).isSome)

/-- A request or a refresh is pending at a row boundary at which fewer than 8 have been served: a row that the unit had begun to open is
closed again, once it is open (R153). -/
def interrupt (s : State) (bank : Nat) : State :=
  let x := nbuAt s bank
  match x.boundary with
  | none => s
  | some n =>
    if governed s bank && decide (n < 8) && x.openRow.isSome then
      setNbu s bank { x with openRow := none, bankFree := max x.bankFree s.dt + rowTicks }
    else s

/-- The queue's request at a place may be served now: at a bank that no run holds, or at a row boundary with fewer than 8 served, in arrival
order, refresh first, once its row can be open (R153). What belongs to the line request served last goes with it. -/
def bankReady (s : State) (bank : Nat) (key : Nat × Nat × Nat × Nat) (o : Nat) : Bool :=
  let x := nbuAt s bank
  if governed s bank then
    match x.boundary with
    | none => false
    | some n =>
      x.lastServed == some key ||
      (decide (n < 8) && !lineUnserved s bank && !queuedBefore s bank o && x.openRow.isNone && (dueRow s bank).isNone &&
        decide (x.bankFree + rowTicks ≤ s.dt))
  else !queuedBefore s bank o

/-- A request of the queue has been served: its row was activated, and is precharged again (R153, R156). -/
def bankServed (s : State) (bank pa : Nat) (key : Nat × Nat × Nat × Nat) : State :=
  let x := nbuAt s bank
  if governed s bank then
    if x.lastServed == some key then s
    else
      countActivation (setNbu s bank { x with
        openRow := none, boundary := x.boundary.map (· + 1), lastServed := some key, bankFree := s.dt + 2 * rowTicks }) bank pa
  else countActivation s bank pa

/-- An access that is made in one step finds its bank free: no run holds it and nothing waits there; any other leaves as a request
(log 59). -/
def bankTakes (s : State) (bank : Nat) : Bool := !governed s bank && !queued s bank

/-- At a row boundary the unit goes on: nothing is pending, or 8 have been served (R153). -/
def unitResumes (s : State) (bank n : Nat) : Bool :=
  (decide (8 ≤ n) || (!queued s bank && (dueRow s bank).isNone)) && !lineUnserved s bank && decide ((nbuAt s bank).bankFree ≤ s.dt)

end Sys2Proof.Machine
end

