-- ==== Sys2Proof/Machine/Home.lean ====
section
/-! DEFINITION. Home slices: the links on the way to them (R10, R84, R103, R171), the lines they hold (R87, R175), and reading and writing
there with completion times (R94, R95, R111), for requests, engines, firmware and context frames. -/

namespace Sys2Proof.Machine

/-! Links (R84, R171). -/

/-- The end of the link from `peer` at a die does not take what arrives: it is closed, or the link would cross the boundary of a partition
(R103, R171). -/
def linkClosed (s : State) (die peer : Nat) : Bool :=
  die != peer && (!(getAt Dlfw.reset s.dlfw (die * 4 + peer)).opened || partOfDie s die != partOfDie s peer)

/-- The die of a line's home slice. -/
def homeDie (s : State) (part ia : Nat) : Nat :=
  match (partAt s part).dies with
  | [d] => d
  | _ => dieOfSlice (homeSlice (partAt s part) ia)

/-- The way of a request from a die to its home, and on a miss to its home stack: the die it arrives at and the one it comes from. -/
def legs (s : State) (die : Option Nat) (part ia : Nat) (miss : Bool) : List (Nat × Nat) :=
  let h := homeDie s part ia
  (die.toList.map (fun d => (h, d))) ++
    (match miss, homeStack (partAt s part) ia with
     | true, some (k, _) => [(dieOfStack k, h)]
     | _, _ => [])

/-- The first closed end on a way. -/
def closedEnd (s : State) (way : List (Nat × Nat)) : Option (Nat × Nat) := way.find? (fun e => linkClosed s e.1 e.2)

/-- The way of the answer. -/
def wayBack (way : List (Nat × Nat)) : List (Nat × Nat) := way.reverse.map (fun e => (e.2, e.1))

/-- A flit is dropped at a link end: DROPS counts it, saturating, and it is logged as KIND 7 (R171, R395). -/
def dropFlit (s : State) (at' : Nat × Nat) (ia dom core slot : Nat) : State :=
  let e := getAt Dlfw.reset s.dlfw (at'.1 * 4 + at'.2)
  let s := logError s (3 * at'.1) ⟨ia, dom, core, slot, 7, s.dt⟩
  { s with dlfw := putAt Dlfw.reset s.dlfw (at'.1 * 4 + at'.2) { e with drops := min 255 (e.drops + 1) } }

/-! Lines held (R84, R87, R175). -/

/-- A range of VAs that an engine reads. -/
structure Range where
  va  : Nat
  len : Nat
deriving DecidableEq, Repr

/-- A range line by line. -/
def Range.pieces (r : Range) : List Range :=
  if r.len = 0 then []
  else
    (List.range ((r.va + r.len - 1) / 128 - r.va / 128 + 1)).map (fun i =>
      let a := max r.va ((r.va / 128 + i) * 128)
      ⟨a, min (r.va + r.len) ((r.va / 128 + i + 1) * 128) - a⟩)

/-- The key of a line in a slice. -/
def sliceKey (slice ia : Nat) : Nat := slice * 2 ^ 45 + lineOf ia

/-- The line that the home slice holds for a domain: one of another owner does not serve it (R175). -/
def l2Hit (s : State) (part dom ia : Nat) : Option L2Line :=
  match s.l2 with
  | [] => none
  | l => (lookupAt l (sliceKey (homeSlice (partAt s part) ia) ia)).filter (fun x => dom == x.owner || dom == 0)

/-- Where an access of a domain finds a line: at home, where the slice holds it, its page being present or not; else at the memory side. -/
def homePlace (s : State) (part dom ia : Nat) : Place :=
  match l2Hit s part dom ia, homeStack (partAt s part) ia with
  | some x, some (stack, loc) =>
    let (_, e, size) := endEntry s stack loc
    match (if isLeaf e size then leafOf e size loc else .unmapped) with
    | .leaf pa _ _ => .at stack pa x.cls x.owner size
    | _ => place s part dom ia
  | _, _ => place s part dom ia

/-- An access reaches the stack: its line is not held at home, or never is (R84, R87). -/
def atStack (s : State) (part dom ia cls : Nat) : Bool := isNa s cls || (l2Hit s part dom ia).isNone

/-- A write reaches the stack also where its class writes through (R87). -/
def writeAtStack (s : State) (part dom ia cls : Nat) : Bool := atStack s part dom ia cls || decide (classWp (classAt s cls) = 1)

/-- Sets of a slice of 2 MiB and 16 ways (R10). -/
def sliceSets : Nat := 1024

/-- A sequencer context has read a line for a fetch that has still to retire: its line is pinned already (R134). -/
def Req.pins (r : Req) : Bool :=
  match r.src, r.kind, r.state with
  | .seq _ _ _, .pull false, .ready _ => true
  | _, _, _ => false

/-- A line of a partition is pinned (R134). -/
def linePinned (s : State) (part line : Nat) : Bool :=
  s.seqs.any (fun e => e.2.pins.any (fun x => x.1 == line) && partOfCore s (e.1 / 4) == some part) ||
    s.net.any (fun e => e.2.pins && e.2.part == part && lineOf e.2.ia == line)

/-- The lines and replicas of a slice in the set of a line: their keys and ways. -/
def setLines (s : State) (slice line : Nat) : List (Nat × Nat) :=
  let same := fun (k : Nat) => k / 2 ^ 45 == slice && k % 2 ^ 45 % sliceSets == line % sliceSets
  ((s.l2.filter (fun e => same e.1)).map (fun e => (e.1, e.2.way))) ++
    ((s.replicas.filter (fun e => same e.1)).map (fun e => (e.1, e.2.way)))

/-- The number under which a slice holds a pinned line when no way of its set is free (log 57). -/
def spareWay : Nat := 16

/-- The eviction ranks of a slice's ways in the set of a line: insertion ages, pinned lines apart; a replica goes first (R87, R134). -/
def setRanks (s : State) (part slice line : Nat) : List (Nat × Nat) :=
  (setLines s slice line).filterMap (fun e =>
    match lookupAt s.l2 e.1 with
    | some x => if linePinned s part (e.1 % 2 ^ 45) then none else some (e.2, x.age)
    | none => some (e.2, 8))

/-- A request put into the network under the next number. -/
def sendReq (s : State) (r : Req) : State := { s with nextId := s.nextId + 1, net := setAt s.net s.nextId r }

/-- A line that leaves its home slice is written back if it is dirty: an ordinary request at its bank (R87, R153). Its bytes stand in memory
already (log 57). -/
def writeBack (part : Nat) (s : State) (e : Nat × L2Line) : State :=
  let ia := e.1 % 2 ^ 45 * 128
  match (if e.2.dirty then homeStack (partAt s part) ia else none) with
  | none => s
  | some (stack, loc) =>
    let (_, entry, size) := endEntry s stack loc
    match (if isLeaf entry size then leafOf entry size loc else .unmapped) with
    | .leaf pa cls _ =>
      let bank := bankOf stack pa
      if bankTakes s bank then countActivation s bank pa
      else
        interrupt (sendReq s ⟨.group 0xFF 63 (2 ^ 80) 8, 0, part, 0, 0, 0, ia, 128, (partAt s part).gen, s.dt, .writeBack,
          .atBank bank s.nextId pa cls 0⟩) bank
    | _ => s

/-- Lines leave the home slices of a partition. -/
def releaseLines (s : State) (part : Nat) (gone : Nat × L2Line → Bool) : State :=
  (s.l2.filter gone).foldl (writeBack part) { s with l2 := s.l2.filter (fun e => !gone e) }

/-- The way of a slice that a fill of a class takes for a line, with whatever stood there gone (log 57). -/
def takeWay (s : State) (part slice line cls : Nat) : Option (State × Nat) :=
  let held := setLines s slice line
  match chooseWay (waysOf 16 (classWays (classAt s cls))) (held.map Prod.snd) (setRanks s part slice line) with
  | none => none
  | some w =>
    let gone := (held.filter (fun e => e.2 == w || (e.2 == spareWay && !linePinned s part (e.1 % 2 ^ 45)))).map Prod.fst
    some ({ releaseLines s part (fun e => gone.contains e.1) with replicas := s.replicas.filter (fun e => !gone.contains e.1) }, w)

/-- The home slice holds a line after an access of it, unless its class is NA; a write leaves it dirty under write-back (R87; log 57). -/
def fillL2 (s : State) (part ia cls owner : Nat) (write : Bool) : State :=
  if isNa s cls then s
  else
    let slice := homeSlice (partAt s part) ia
    let dirty := write && classWp (classAt s cls) == 0
    match lookupAt s.l2 (sliceKey slice ia) with
    | some x => { s with l2 := setAt s.l2 (sliceKey slice ia) { x with owner := owner, cls := cls, dirty := x.dirty || dirty } }
    | none =>
      match takeWay s part slice (lineOf ia) cls with
      | none => s
      | some (s, w) => { s with l2 := setAt s.l2 (sliceKey slice ia) ⟨owner, cls, w, classAge (classAt s cls), dirty⟩ }

/-- A line that a tile fetch has read stays in its home slice (R134), unless its class is NA. -/
def holdLine (s : State) (part ia cls owner : Nat) : State :=
  let key := sliceKey (homeSlice (partAt s part) ia) ia
  if isNa s cls || (lookupAt s.l2 key).isSome then s
  else { s with l2 := setAt s.l2 key ⟨owner, cls, spareWay, classAge (classAt s cls), false⟩ }

/-- A line leaves its home slice, written back if it was dirty. -/
def dropL2 (s : State) (part ia : Nat) : State := releaseLines s part (fun e => e.1 == sliceKey (homeSlice (partAt s part) ia) ia)

/-- What an access that was served at a place leaves in the caches beyond the core: the translation, where it reached the memory side,
and the line at home (R174, R87). -/
def cacheAccess (s : State) (part dom ia tclass cls owner : Nat) (write : Bool) : State :=
  let s := match atStack s part dom ia cls, homeStack (partAt s part) ia with
    | true, some (k, loc) => fillXlat s k loc tclass
    | _, _ => s
  fillL2 s part ia cls owner write

/-! Reading at home. -/

/-- Who reads: where the access comes from, the PC of the instruction that waits for it, and whether it is that instruction's fetch. -/
structure Asker where
  src  : Src
  pc   : Nat
  code : Bool := false
deriving DecidableEq, Repr

/-- The die that an access leaves; an engine of the IOD, whose core number is 0xFF, crosses no link between compute dies. -/
def Asker.die (a : Asker) : Option Nat := if a.src.core < Config.coreCount then some (dieOfCore a.src.core) else none

/-- An engine of the IOD at a work of its own. -/
def iodAsker (work : Nat) : Asker := ⟨.group 0xFF 63 work 8, 0, false⟩

/-- An agent that asks for `n` bytes at an IA, as a request: what it waits for at the PC tells it from others (log 13). -/
def Asker.req (a : Asker) (s : State) (part : Nat) (d : DomReg) (ia n : Nat) (k : ReqKind) : Req :=
  ⟨a.src, 0, part, d.id, d.tclass, a.pc, ia, n, (partAt s part).gen, s.dt, k, .inFlight⟩

/-- The reads of groups, and all writes. -/
def ReqKind.isRead : ReqKind → Bool
  | .load .. => true
  | .atom .. => true
  | .corner .. => true
  | _ => false

def ReqKind.isWrite : ReqKind → Bool
  | .load .. => false
  | .corner .. => false
  | .pull _ => false
  | .writeBack => false
  | _ => true

def ReqKind.nearMemory (k : ReqKind) : Bool :=
  match k with
  | .red _ _ nm => nm
  | _ => false

def ReqKind.isPull (k : ReqKind) : Bool :=
  match k with
  | .pull _ => true
  | _ => false

/-- The kinds of request that an agent asks for and takes itself. -/
def ReqKind.asked (k : ReqKind) : Bool :=
  match k with
  | .pull _ => true
  | .put _ _ => true
  | .rowAdd _ _ _ => true
  | _ => false

/-- A read that an asker has sent from the instruction at which it stands. -/
def Req.pullOf (r : Req) (a : Asker) : Bool :=
  r.kind == .pull a.code && r.src.uid == a.src.uid && r.src.strand == a.src.strand && r.va == a.pc

/-- The read of an asker that covers some bytes; one of no bytes looks up a page. -/
def pulled (s : State) (a : Asker) (part ia n : Nat) : Option Req :=
  (s.net.find? (fun e => e.2.pullOf a && e.2.part == part && decide (e.2.ia ≤ ia ∧ ia + n ≤ e.2.ia + e.2.size) &&
    (decide (e.2.size = 0) == decide (n = 0)))).map Prod.snd

/-- The request has been performed, or has failed. -/
def Req.over (r : Req) : Bool :=
  match r.state with
  | .ready _ => true
  | .failed => true
  | _ => false

/-- A near-memory reduction of a line is at its stack: home holds every later access to the line (R113). -/
def reducing (s : State) (part ia : Nat) : Bool :=
  s.net.any (fun e => e.2.part == part && lineOf e.2.ia == lineOf ia && e.2.kind.nearMemory && (match e.2.state with | .atStack .. => true | _ => false))

/-- A write of a core to a line has not been performed (R96). -/
def ownWriting (s : State) (core part ia : Nat) : Bool :=
  s.net.any (fun e => e.2.src.core == core && e.2.part == part && lineOf e.2.ia == lineOf ia && e.2.kind.isWrite && e.2.state != .lost &&
    !e.2.over)

/-- An access is parked at the page of an IA (R178). -/
def pageWaited (s : State) (part ia : Nat) : Bool :=
  s.net.any (fun e => match e.2.state with
    | .parked _ _ => e.2.part == part && pageOf s part e.2.ia == pageOf s part ia
    | _ => false)

/-- Work that has arrived at a stack's base logic is still in its queue (R159). -/
def stackBusy (s : State) (stack : Nat) : Bool :=
  s.net.any (fun e => match e.2.state with | .atStack b _ _ => bankStack b == stack | _ => false)

/-- The stack's base logic, as it works for a command of a core: it bears slot 63 (Table 31.1). -/
def Src.baseLogic (x : Src) : Bool :=
  match x with
  | .group core slot _ _ => decide (core < Config.coreCount) && slot == 63
  | .seq _ _ _ => false

/-- What a read at home gives: its bytes, an error response of a kind, or one that is logged already (kind 0); `park` where the read cannot
be made in this step. -/
inductive HomeRead where
  | data (v : Nat)
  | error (kind : Nat)
  | park
  | absent
deriving DecidableEq, Repr

/-- The `n` bytes at an IA, which lie in one page and one line, as home holds them (R95, R111): those of the asker's request, or, where no
request is out and nothing holds the read up, those there now. -/
def readHome (s : State) (who : Asker) (part dom ia n : Nat) : HomeRead :=
  match pulled s who part ia n with
  | some r =>
    match r.state with
    | .ready v => .data (v / 256 ^ (ia - r.ia) % 256 ^ n)
    | .failed => .error 0
    | _ => .park
  | none =>
    let way := legs s who.die part ia (l2Hit s part dom ia).isNone
    if s.ahead || (closedEnd s (way ++ wayBack way)).isSome || reducing s part ia || ownWriting s who.src.core part ia ||
        pageWaited s part ia then .park
    else
      match homePlace s part dom ia with
      | .error k => .error k
      | .park => .park
      | .absent => .absent
      | .at stack pa cls _ _ =>
        if (atStack s part dom ia cls && !bankTakes s (bankOf stack pa)) || (who.src.baseLogic && stackBusy s stack) then .park
        else if poisonedAt s (physKey stack pa) n then .error 3
        else .data (readLE s.mem (physKey stack pa) n)

/-- A failing access of an asker is logged (R383), where it is not yet. -/
def logRead (s : State) (part ia dom core slot kind : Nat) : State :=
  if kind = 0 then s else logAccess s part ia dom core slot kind

/-- What waited goes on: the requests for it are given up. -/
def dropPulls (s : State) (a : Asker) : State :=
  { s with net := s.net.filter (fun e => !e.2.pullOf a) }

/-- The strands of a group, or a context, stop where they stand: their requests for what they waited for are given up. -/
def forgetPulls (s : State) (uid : Nat) : State :=
  { s with net := s.net.filter (fun e => !(e.2.kind.isPull && e.2.src.uid == uid)) }

/-! What a strand has read (R97; log 9). -/

def seenKey (uid strand ia : Nat) : Nat := (uid * 8 + strand) * 2 ^ 45 + lineOf ia

/-- The bytes of a line, as a mask of 128 bits, that an access of `n` bytes touches. -/
def byteMask (ia n : Nat) : Nat := (2 ^ n - 1) * 2 ^ (ia % 128)

/-- What a strand has read of some bytes of a line, piece by piece. -/
def seenAt (s : State) (src : Src) (ia n : Nat) : List Seen :=
  ((getAt [] s.seen (seenKey src.uid src.strand ia)).filter (fun e => e.1 &&& byteMask ia n != 0)).map Prod.snd

/-- A mask of bytes joins those of which the same is known. -/
def joinSeen (m : Nat) (x : Seen) : List (Nat × Seen) → List (Nat × Seen)
  | [] => [(m, x)]
  | (k, y) :: t => if y = x then (k ||| m, y) :: t else (k, y) :: joinSeen m x t

/-- The bytes of an access get what `f` makes of what was known of them. -/
def splitSeen (m : Nat) (f : Seen → Seen) (l : List (Nat × Seen)) : List (Nat × Seen) :=
  let known := l.foldl (fun k e => k ||| e.1) 0
  let parts := l.flatMap (fun e => [(e.1 - (e.1 &&& m), e.2), (e.1 &&& m, f e.2)]) ++ [(m - (m &&& known), f Seen.none)]
  (parts.filter (fun e => e.1 != 0)).foldl (fun acc e => joinSeen e.1 e.2 acc) []

def noteSeen (s : State) (src : Src) (ia n : Nat) (f : Seen → Seen) : State :=
  let k := seenKey src.uid src.strand ia
  { s with seen := putAt [] s.seen k (splitSeen (byteMask ia n) f (getAt [] s.seen k)) }

/-- A strand has read bytes elsewhere than in L1, at a version of their line. -/
def Seen.ofHome (v : Nat) (e : Seen) : Seen := { e with ver := max e.ver v }

/-- What shows the store numbered `id` shows version `v` from now on. -/
def Seen.landed (id v : Nat) (e : Seen) : Seen :=
  if e.own.contains id then { e with top := max e.top v, own := e.own.filter (· != id) } else e

def Copy.landed (id v : Nat) (e : Copy) : Copy :=
  if e.own.contains id then { e with top := max e.top v, own := e.own.filter (· != id) } else e

/-! Writing at home. -/

/-- The key of a line of a partition in the tables of leases and versions. -/
def lineKey (part ia : Nat) : Nat := part * 2 ^ 45 + lineOf ia

/-- The version of a line. -/
def versionAt (s : State) (part ia : Nat) : Nat := getAt 0 s.versions (lineKey part ia)

/-- A line's version advances: what shows the store numbered `id`, in flight until now, shows this version (R97, log 9). -/
def bumpVersion (s : State) (part ia id : Nat) : State :=
  let v := versionAt s part ia + 1
  { s with
    versions := putAt 0 s.versions (lineKey part ia) v
    l1 := s.l1.map (fun e => (e.1, e.2.landed id v))
    seen := s.seen.map (fun e => (e.1, e.2.map (fun x => (x.1, x.2.landed id v)))) }

/-- The latest lease on a line (R94). -/
def leaseAt (s : State) (part ia : Nat) : Nat := getAt 0 s.leases (lineKey part ia)

/-- The completion time of a write performed now at a line's home, or for an NA line at its bank (R94, R392). -/
def completionTime (s : State) (part ia cls : Nat) : Nat :=
  let slice := homeSlice (partAt s part) ia
  let arrival := dtSlice s slice
  if isUnsync s (.slice slice) then arrival + 2 ^ 16 + 4
  else if isNa s cls then arrival + 4
  else max arrival (leaseAt s part ia) + 4

/-- A write performed at home now: the state and its completion time. -/
def performWrite (s : State) (writer : Nat × Nat) (part ia stack pa cls owner n val mask id : Nat) : State × Nat :=
  (fillL2 (bumpVersion (writePhys s writer (physKey stack pa) n val mask) part ia id) part ia cls owner true, completionTime s part ia cls)

/-- A write performed at the bank by the base logic, where home holds no copy (R113, R168). -/
def performAtBank (s : State) (writer : Nat × Nat) (part ia stack pa n val mask id : Nat) : State :=
  bumpVersion (writePhys s writer (physKey stack pa) n val mask) part ia id

/-! Ranges of VAs. -/

/-- What reading a range of VAs gives: its bytes, a failed check (R78), the first error response with its IA and kind, or a page to wait
for. -/
inductive VaRead where
  | bytes (bs : List Byte)
  | denied
  | fails (ia kind : Nat)
  | waits
deriving DecidableEq, Repr

/-- The bytes from a VA, read at home one by one. -/
def readVaBytes (s : State) (who : Asker) (part : Nat) (d : DomReg) (perms va : Nat) : Nat → VaRead
  | 0 => .bytes []
  | n + 1 =>
    match rangeIa d.ranges perms va with
    | none => .denied
    | some ia =>
      match readHome s who part d.id ia 1 with
      | .data b =>
        match readVaBytes s who part d perms (va + 1) n with
        | .bytes bs => .bytes (BitVec.ofNat 8 b :: bs)
        | r => r
      | .error k => .fails ia k
      | .park => .waits
      | .absent => .fails ia 2

/-- A read of a range of VAs: its check comes first. -/
def readVa (s : State) (who : Asker) (part : Nat) (d : DomReg) (perms va n : Nat) : VaRead :=
  if (rangeFail d.ranges perms va n).isSome then .denied else readVaBytes s who part d perms va n

/-- The error response that a read of an engine of the IOD meets is logged (R383). -/
def logVa (s : State) (part dom : Nat) (r : VaRead) : State :=
  match r with
  | .fails ia k => logRead s part ia dom 0xFF 63 k
  | _ => s

/-- The pieces of ranges as IAs with their lengths, those that no entry covers left out. -/
def iaPieces (d : DomReg) (rs : List Range) : List (Nat × Nat) :=
  rs.flatMap (fun r => r.pieces.filterMap (fun p => (rangeIa d.ranges 0 p.va).map (fun ia => (ia, p.len))))

/-- An asker sends a read of a line's bytes, unless one covers them. -/
def sendPull (a : Asker) (part : Nat) (d : DomReg) (s : State) (p : Nat × Nat) : State :=
  if (pulled s a part p.1 p.2).isSome then s else sendReq s (a.req s part d p.1 p.2 (.pull a.code))

/-- What an asker reads leaves as requests, line by line (R98, R111). -/
def askRanges (a : Asker) (part : Nat) (d : DomReg) (rs : List Range) (s : State) : State :=
  (iaPieces d rs).foldl (sendPull a part d) s

/-- The pages of some VAs are looked up. -/
def askPages (a : Asker) (part : Nat) (d : DomReg) (vas : List Nat) (s : State) : State :=
  (vas.filterMap (rangeIa d.ranges 0)).foldl (fun s ia => sendPull a part d s (ia, 0)) s

/-- What an engine's read of bytes of a line leaves outside the core: the row's activation, and what caches hold (R87, R156, R174). -/
def lineRead (s : State) (part : Nat) (d : DomReg) (ia : Nat) : State :=
  match homePlace s part d.id ia with
  | .at stack pa cls owner _ =>
    let s := if atStack s part d.id ia cls then countActivation s (bankOf stack pa) pa else s
    cacheAccess s part d.id ia d.tclass cls owner false
  | _ => s

/-- Pieces of lines have been read: the requests that brought some of them are given up. -/
def piecesRead (s : State) (who : Asker) (part : Nat) (d : DomReg) (ps : List (Nat × Nat)) : State :=
  (ps.filter (fun p => (pulled s who part p.1 p.2).isNone)).foldl (fun s p => lineRead s part d p.1) (dropPulls s who)

def rangesRead (s : State) (who : Asker) (part : Nat) (d : DomReg) (rs : List Range) : State := piecesRead s who part d (iaPieces d rs)

/-! Frames in memory of domain 0 (R179, R204): pieces of 64 bytes. -/

/-- `n` bytes to which the spec gives contents and no places, of the save numbered `mark`. -/
def openBytes (mark from' n : Nat) : List Byte := (List.range n).map (fun i => Config.freeByte mark (from' + i))

/-- Where 64 bytes of a frame are written: the IA, the stack, the physical address, the class and the owner of the page. -/
structure Spot where
  ia    : Nat
  stack : Nat
  pa    : Nat
  cls   : Nat
  owner : Nat
deriving DecidableEq, Repr

/-- The closed end that an access of domain 0 from a die meets on its way and back (R171). -/
def frameEnd (s : State) (die : Option Nat) (part ia : Nat) : Option (Nat × Nat) :=
  let way := legs s die part ia (l2Hit s part 0 ia).isNone
  closedEnd s (way ++ wayBack way)

/-- The places of `n` pieces of 64 bytes from an IA upward, which are memory of domain 0 (R172), for a core of a die, or where they are,
without one; none if one cannot be written. -/
def spotsFrom (s : State) (die : Option Nat) (part : Nat) : Nat → Nat → Option (List Spot)
  | 0, _ => some []
  | n + 1, ia =>
    match homePlace s part 0 ia, frameEnd s die part ia with
    | .at stack pa cls owner _, none => (spotsFrom s die part n (ia + 64)).map (fun l => ⟨ia, stack, pa, cls, owner⟩ :: l)
    | _, _ => none

/-- Bytes written to such places, 64 to each. -/
def writeSpots (part : Nat) (s : State) : List Spot → List Byte → State
  | [], _ => s
  | p :: ps, bs =>
    writeSpots part (performWrite s (0, 0) part p.ia p.stack p.pa p.cls p.owner 64 (ofBytes (bs.take 64)) (2 ^ 512 - 1) 0).1 ps (bs.drop 64)

/-- Some link between dies of a partition has an end that is closed. -/
def someEndClosed (s : State) (part : Nat) : Bool :=
  (partAt s part).dies.any (fun d => (partAt s part).dies.any (linkClosed s d))

/-- 4 bytes of a frame hold uncorrectable data, or no answer brings them to a die (log 82). -/
def damagedAt (s : State) (die : Option Nat) (part ia : Nat) : Bool :=
  match homePlace s part 0 ia with
  | .at stack pa _ _ _ => poisonedAt s (physKey stack pa) 4 || (frameEnd s die part ia).isSome
  | _ => false

def damagedRange (s : State) (die : Option Nat) (part ia n : Nat) : Bool :=
  (!s.memPoison.isEmpty || someEndClosed s part) && (List.range (n / 32)).any (fun i => damagedAt s die part (ia + 32 * i))

/-- The failing accesses of a frame of `n` bytes, line by line: a line with the closed end or the error that it meets (R383, R395). -/
def frameErrors (s : State) (die : Option Nat) (part ia n : Nat) (reads : Bool) : List (Nat × Option (Nat × Nat) × Nat) :=
  (Range.pieces ⟨ia, n⟩).filterMap (fun p =>
    match frameEnd s die part p.va, homePlace s part 0 p.va with
    | some e, _ => some (p.va, some e, 7)
    | none, .error k => some (p.va, none, k)
    | none, .absent => some (p.va, none, 2)
    | none, .park => none
    | none, .at stack pa _ _ _ => if reads && poisonedAt s (physKey stack pa) p.len then some (p.va, none, 3) else none)

def logFrameError (part core slot : Nat) (s : State) (x : Nat × Option (Nat × Nat) × Nat) : State :=
  match x.2.1 with
  | some e => dropFlit s e x.1 0 core slot
  | none => logAccess s part x.1 0 core slot x.2.2

/-- What the reads of a frame by a core meet is logged. -/
def logFrameReads (s : State) (core slot part ia n : Nat) : State :=
  (frameErrors s (some (dieOfCore core)) part ia n true).foldl (logFrameError part core slot) s

/-- A frame that cannot be written is given up at the first write that fails, which is logged. -/
def logFrameWrite (s : State) (core slot part ia n : Nat) : State :=
  ((frameErrors s (some (dieOfCore core)) part ia n false).take 1).foldl (logFrameError part core slot) s

end Sys2Proof.Machine
end

