-- ==== Sys2Proof/Machine/Regs.lean ====
section
/-! DEFINITION. Groups and their registers: lookup, reading with the rules of R374 and R58, the writes of fixed-latency and
variable-latency producers (R55, R56), strands, gangs and lanes (R32, R33, R220). -/

namespace Sys2Proof.Machine

/-! Groups. -/

def handlerSlot : Nat := 32

def groupKey (core slot : Nat) : Nat := core * 64 + slot
def groupAt (s : State) (core slot : Nat) : Option Group := lookupAt s.groups (groupKey core slot)
def setGroup (s : State) (core slot : Nat) (g : Group) : State := { s with groups := setAt s.groups (groupKey core slot) g }
def dropGroup (s : State) (core slot : Nat) : State := { s with groups := eraseAt s.groups (groupKey core slot) }
def modifyGroup (s : State) (core slot : Nat) (f : Group → Group) : State :=
  { s with groups := modifyAt s.groups (groupKey core slot) f }
def blockAt (s : State) (b : Nat) : Option Block := lookupAt s.blocks b
def setBlock (s : State) (b : Nat) (x : Block) : State := { s with blocks := setAt s.blocks b x }
def modifyBlock (s : State) (b : Nat) (f : Block → Block) : State := { s with blocks := modifyAt s.blocks b f }

/-- The block of a group; the handler slot has none. -/
def blockOf (s : State) (g : Group) : Option Block := g.block.bind (blockAt s)

/-- The node run of a group (Table 3.1's launch). -/
def runOf (s : State) (g : Group) : Option NodeRun := (blockOf s g).bind (fun b => lookupAt s.runs b.run)

/-- The graph launch of a group, 0 for none. -/
def launchOf (s : State) (g : Group) : Nat := ((runOf s g).map NodeRun.graph).getD 0

/-- The launch that the accesses of a group belong to: those of the handler slot belong to the launch of the group it serves. -/
def accessLaunch (s : State) (core : Nat) (g : Group) : Nat :=
  match g.serves with
  | some q => match groupAt s core q with
    | some h => launchOf s h
    | none => 0
  | none => launchOf s g

/-- A fresh number. -/
def takeId (s : State) : Nat × State := (s.nextId, { s with nextId := s.nextId + 1 })

/-- A group or block belongs to a node run. -/
def noteUid (s : State) (run uid : Nat) : State := { s with runs := modifyAt s.runs run (fun x => { x with uids := x.uids ++ [uid] }) }

/-- A completion time of a write by a group, a command or a sequencer: the node run keeps the largest (R109). -/
def raiseRun (s : State) (uid t : Nat) : State :=
  { s with runs := s.runs.map (fun e => if e.2.uids.contains uid then (e.1, { e.2 with maxT := max e.2.maxT t }) else e) }

/-! Deques (R192): 64 tasks on the core, further ones at the bottom spilled to the core's area in memory of domain 0. -/

def dequeSize : Nat := 64

/-- The lowest free place of the area. -/
def Core.freePlace (c : Core) : Nat :=
  ((List.range (c.spilled.length + 1)).find? (fun k => c.spilled.all (fun e => e.1 != k))).getD 0

/-- A task enters at the bottom. -/
def Core.pushTask (c : Core) (t : Task) : Core :=
  if c.deque.length < dequeSize then { c with deque := c.deque ++ [t] } else { c with spilled := c.spilled ++ [(c.freePlace, t)] }

/-- The task that a full deque of a core spills is written to the area: 64 bytes a task, to whose places the spec gives no meaning (log
81). -/
def spillTask (s : State) (core : Nat) : State :=
  let c := coreAt s core
  let part := (partOfCore s core).getD 0
  if c.deque.length < dequeSize then s
  else writeSpots part s ((spotsFrom s (some (dieOfCore core)) part 1 (Config.taskArea core + 64 * c.freePlace)).getD [])
      (openBytes s.free 16384 64)

/-- The tasks from the top to the bottom. -/
def Core.tasks (c : Core) : List Task := c.deque ++ c.spilled.map Prod.snd

/-- The bottom task. -/
def Core.bottomTask (c : Core) : Option Task := c.tasks.getLast?

/-- The deque without its bottom task. -/
def Core.popBottom (c : Core) : Core :=
  if c.spilled.isEmpty then { c with deque := c.deque.dropLast } else { c with spilled := c.spilled.dropLast }

/-- The deque without its top task; the first spilled task comes back to the core. -/
def Core.popTop (c : Core) : Core := { c with deque := c.deque.drop 1 ++ (c.spilled.take 1).map Prod.snd, spilled := c.spilled.drop 1 }

/-! Registers. -/

def Group.vreg (g : Group) (n : Nat) : VReg := getAt VReg.start g.v n
def Group.setV (g : Group) (n : Nat) (r : VReg) : Group := { g with v := putAt VReg.start g.v n r }
def Group.sreg (g : Group) (n : Nat) : SReg := getAt SReg.start g.s n
def Group.setS (g : Group) (n : Nat) (r : SReg) : Group := { g with s := putAt SReg.start g.s n r }
def Group.preg (g : Group) (n : Nat) : PReg := if n = 0 then ⟨0xFFFFFFFF, []⟩ else getAt PReg.start g.p n
def Group.setP (g : Group) (n : Nat) (r : PReg) : Group := if n = 0 then g else { g with p := putAt PReg.start g.p n r }
def Group.qreg (g : Group) (n : Nat) : QReg := if n = 0 then ⟨true, []⟩ else getAt QReg.start g.q n
def Group.setQ (g : Group) (n : Nat) (r : QReg) : Group := if n = 0 then g else { g with q := putAt QReg.start g.q n r }
def Group.count (g : Group) (f : Nat) : Nat := getAt 0 g.counts f
def Group.setCount (g : Group) (f k : Nat) : Group := { g with counts := putAt 0 g.counts f k }

def Strand.start (pc : Dword) : Strand := ⟨pc, 0, 0xF, 0, [], [], 0, none, none, false, 0, [], [], []⟩

def Group.strand (g : Group) (i : Nat) : Strand := g.strands.getD i (Strand.start 0)

/-! Results that are not yet readable (R55, R374). -/

/-- The tick from which no reader receives an earlier value any more. -/
def lastTick (ts : List Nat) : Nat := ts.foldl max 0

/-- From tick `ready` on every fixed-latency result written to the register has landed; from tick `readable` on no reader receives an
earlier value, which is sooner where a later result with a shorter latency has replaced one (R56). -/
def VReg.ready (r : VReg) : Nat := lastTick (r.olds.map OldLanes.til)
def VReg.readable (r : VReg) : Nat := lastTick ((r.olds.filter (fun o => o.mask != 0)).map OldLanes.til)
def SReg.ready (r : SReg) : Nat := lastTick (r.olds.map Prod.fst)
def PReg.ready (r : PReg) : Nat := lastTick (r.olds.map OldBits.til)
def QReg.ready (r : QReg) : Nat := lastTick (r.olds.map Prod.fst)

/-- Earlier values after a result that will be readable at `til`: those still to be had end with it at the latest, and the present value
joins them. -/
def pushOld {α : Type} (dt til : Nat) (now : α) (olds : List (Nat × α)) : List (Nat × α) :=
  ((olds.filter (fun o => decide (dt < o.1))).map (fun o => (min o.1 til, o.2))) ++ [(til, now)]

/-- The same in the lanes of `mask`: elsewhere earlier values end when they did. A result that is replaced in all its lanes still lands when
it would have (R56, R279). -/
def pushLanes (dt til : Nat) (mask : Word) (now : List Word) (olds : List OldLanes) : List OldLanes :=
  (olds.filter (fun o => decide (dt < o.til))).flatMap (fun o =>
    { o with mask := o.mask &&& ~~~mask } :: ([{ o with mask := o.mask &&& mask, til := min o.til til }].filter (fun o => o.mask != 0))) ++
    [⟨til, mask, now⟩]

def pushBits (dt til : Nat) (mask now : Word) (olds : List OldBits) : List OldBits :=
  (olds.filter (fun o => decide (dt < o.til))).flatMap (fun o =>
    [{ o with mask := o.mask &&& ~~~mask }, { o with mask := o.mask &&& mask, til := min o.til til }].filter (fun o => o.mask != 0)) ++
    [⟨til, mask, now⟩]

/-- Which of the readable values an early reader receives: one chosen by a free value (R374). -/
def chooseOld {α : Type} (free : Nat) (now : α) (olds : List α) : α :=
  (now :: olds).getD (Config.freeChoice free % (olds.length + 1)) now

/-- What an early reader of a register receives: its value or one of those still to be had. -/
def readEarly {α : Type} (free dt : Nat) (now : α) (olds : List (Nat × α)) : α :=
  if lastTick (olds.map Prod.fst) ≤ dt then now else chooseOld free now ((olds.filter (fun o => decide (dt < o.1))).map Prod.snd)

/-- What a reader at tick `dt` receives from lane `l` of vector register `n`: zero from a dead register (R58), the value once it is
readable (R55), and one of the allowed values before (R374). -/
def Group.readV (g : Group) (free dt n l : Nat) : Word :=
  let r := g.vreg n
  if r.dead then 0
  else if r.ready ≤ dt then laneOf r.lanes l
  else chooseOld (free + n * 32 + l) (laneOf r.lanes l)
    ((r.olds.filter (fun o => decide (dt < o.til) && laneBit o.mask l)).map (fun o => laneOf o.lanes l))

/-- What a reader receives from a uniform register. -/
def Group.readS (g : Group) (free dt n : Nat) : Word := readEarly (free + 2048 + n) dt (g.sreg n).val (g.sreg n).olds

/-- What a reader receives from a lane of a predicate. -/
def Group.readP (g : Group) (free dt n l : Nat) : Bool :=
  let r := g.preg n
  if r.ready ≤ dt then laneBit r.val l
  else chooseOld (free + 2112 + n * 32 + l) (laneBit r.val l)
    ((r.olds.filter (fun o => decide (dt < o.til) && laneBit o.mask l)).map (fun o => laneBit o.bits l))

/-- What a reader receives from a uniform predicate. -/
def Group.readQ (g : Group) (free dt n : Nat) : Bool := readEarly (free + 2368 + n) dt (g.qreg n).val (g.qreg n).olds

/-- What reader `l` receives from LR of strand `i`, and a `getsr` of lane `l` from a group's mode register whose value is `now` (R50). -/
def Group.readLr (g : Group) (free dt i l : Nat) : Word := readEarly (free + 2416 + l) dt (g.strand i).lr (g.strand i).lrOlds
def Group.readMode (g : Group) (free dt n l : Nat) (now : Word) : Word :=
  readEarly (free + 2384 + l) dt now (getAt [] g.srOlds n)

/-- Free values one instruction may use. -/
def freeSpan : Nat := 2500

/-- The tag a reader sees: a dead register carries I32 (R58, R375). -/
def VReg.seenTag (r : VReg) : Nat := if r.dead then 0 else r.tag

/-- A register as a write finds it: a dead one is revived with zeros (R58). -/
def VReg.revived (r : VReg) : VReg :=
  if r.dead then { r with lanes := List.replicate 32 0, tag := 0, dead := false, poison := 0, olds := [] } else r

/-- The lanes of `mask` replaced by a function of the lane. -/
def mergeLanes (old : List Word) (mask : Word) (f : Nat → Word) : List Word :=
  perLane (fun l => if laneBit mask l then f l else laneOf old l)

/-- A word as it is written under a tag: the container bits of the elements of F6X4 are zero (R65). -/
def container (tag : Nat) (w : Word) : Word := if tag = 9 then w &&& 0x3F3F3F3F else w

/-- A fixed-latency write at tick `dt`, readable from dt + lat (R55): the lanes of `mask` take `f`, the tag is written (every reader sees it
at once, log 76), a dead register revives, and the lanes written lose their poison (R384). -/
def VReg.write (r : VReg) (dt lat tag : Nat) (mask : Word) (f : Nat → Word) : VReg :=
  let r := r.revived
  { r with
    lanes := mergeLanes r.lanes mask (fun l => container tag (f l))
    tag := tag
    poison := r.poison &&& ~~~mask
    olds := pushLanes dt (dt + lat) mask r.lanes r.olds }

def Group.writeV (g : Group) (dt lat n tag : Nat) (mask : Word) (f : Nat → Word) : Group :=
  g.setV n ((g.vreg n).write dt lat tag mask f)

def SReg.write (r : SReg) (dt lat : Nat) (w : Word) : SReg := ⟨w, true, false, pushOld dt (dt + lat) r.val r.olds⟩

def Group.writeS (g : Group) (dt lat n : Nat) (w : Word) : Group := g.setS n ((g.sreg n).write dt lat w)

def Group.writeP (g : Group) (dt lat n : Nat) (mask : Word) (f : Nat → Bool) : Group :=
  let r := g.preg n
  g.setP n ⟨maskOf (fun l => if laneBit mask l then f l else laneBit r.val l), pushBits dt (dt + lat) mask r.val r.olds⟩

def Group.writeQ (g : Group) (dt lat n : Nat) (b : Bool) : Group :=
  let r := g.qreg n
  g.setQ n ⟨b, pushOld dt (dt + lat) r.val r.olds⟩

/-- A variable-latency producer marks its destination at issue (R56): the tag, and empty until the active lanes have been written. -/
def VReg.mark (r : VReg) (tag : Nat) (mask : Word) : VReg :=
  let r := r.revived
  { r with tag := tag, full := decide (mask = 0), owed := mask, issued := mask, olds := [] }

def Group.markV (g : Group) (n tag : Nat) (mask : Word) : Group := g.setV n ((g.vreg n).mark tag mask)

/-- A result lands in a lane; the register is full once no lane is owed (R56). A poisoned lane reads zero (R384). -/
def VReg.land (r : VReg) (l : Nat) (w : Word) (poisoned : Bool) : VReg :=
  let bit := BitVec.twoPow 32 l
  let owed := r.owed &&& ~~~bit
  { r with
    lanes := mergeLanes r.lanes bit (fun _ => if poisoned then 0 else w)
    poison := if poisoned then r.poison ||| bit else r.poison &&& ~~~bit
    owed := owed
    full := decide (owed = 0) }

def Group.landV (g : Group) (n l : Nat) (w : Word) (poisoned : Bool) : Group :=
  g.setV n ((g.vreg n).land l w poisoned)

/-- A variable-latency producer of a uniform register. -/
def Group.markS (g : Group) (n : Nat) : Group := g.setS n { g.sreg n with full := false, olds := [] }

def Group.landS (g : Group) (n : Nat) (w : Word) (poisoned : Bool) : Group :=
  g.setS n ⟨if poisoned then 0 else w, true, poisoned, []⟩

/-- A register dropped: dead, with the tag bits it has (R198). -/
def VReg.dropped (r : VReg) : VReg :=
  { r with lanes := List.replicate 32 0, full := true, dead := true, poison := 0, olds := [], owed := 0, issued := 0 }

/-- A register made dead (R58): it loses its poison. -/
def Group.killV (g : Group) (n : Nat) : Group := g.setV n { (g.vreg n).dropped with tag := 0 }

/-- Lanes of a register poisoned: they read as zero (R384). -/
def VReg.poisoned (r : VReg) (mask : Word) : VReg :=
  { r with lanes := mergeLanes r.lanes mask (fun _ => 0), poison := r.poison ||| mask }

/-- A uniform register poisoned. -/
def SReg.poisoned (r : SReg) : SReg := { r with val := 0, poison := true }

/-- s61 and s63 belong to every group (R47); another uniform register lies within the allocation. -/
def Group.hasS (g : Group) (n : Nat) : Bool := decide (n < g.ns) || decide (n = 61) || decide (n = 63)
def Group.hasV (g : Group) (n : Nat) : Bool := decide (n < g.nv)

/-! Strands, gangs and lanes. -/

/-- All lanes of a strand have exited (R40). -/
def Strand.gone (t : Strand) : Bool := t.exited == 0xF

def Group.modifyStrand (g : Group) (i : Nat) (f : Strand → Strand) : Group := { g with strands := g.strands.modify i f }

/-- The strands that have not exited, ascending. -/
def Group.live (g : Group) : List Nat := (List.range 8).filter (fun i => !(g.strand i).gone)

/-- The strands of a gang (R32). -/
def Group.gangStrands (g : Group) (gang : Nat) : List Nat := g.live.filter (fun i => (g.strand i).gang == gang)

/-- A change to every strand of a list. -/
def Group.onStrands (g : Group) (is : List Nat) (f : Strand → Strand) : Group :=
  { g with strands := (List.range 8).map (fun i => if is.contains i then f (g.strand i) else g.strand i) }

/-- The lanes of some strands that are in their strand's active mask and have not exited (R220). -/
def Group.activeLanes (g : Group) (is : List Nat) : Word :=
  maskOf (fun l =>
    let t := g.strand (l / 4)
    is.contains (l / 4) && (t.active &&& ~~~t.exited).getLsbD (l % 4))

/-- An address that becomes a PC: bit 0 is clear (R209, R413; log 55). -/
def evenPc (va : Dword) : Dword := va &&& 0xFFFFFFFFFFFFFFFE

/-- The lanes in ascending order. -/
def lanesOf (m : Word) : List Nat := (List.range 32).filter (fun l => laneBit m l)

/-- Strands that agree on their PC form a gang, named by its lowest strand (R33). -/
def Group.repart (g : Group) (is : List Nat) : Group :=
  { g with strands := (List.range 8).map (fun i =>
      let t := g.strand i
      if is.contains i then
        { t with gang := (is.find? (fun j => (g.strand j).pc == t.pc)).getD i }
      else t) }

/-- Every gang parts by PC (R33). -/
def Group.repartAll (g : Group) : Group :=
  { g with strands := (List.range 8).map (fun i =>
      let t := g.strand i
      if t.gone then t
      else { t with gang := ((g.gangStrands t.gang).find? (fun j => (g.strand j).pc == t.pc)).getD i }) }

/-- A barrier on which the strands that remain have all executed an arriving instruction: the group has arrived (R41). -/
def Group.arriveRest (g : Group) (upTo : Nat) : Group :=
  { g with bars := g.bars.map (fun e =>
      if !e.2.arrived && !g.live.isEmpty && g.live.all (fun i => e.2.strands.getLsbD i)
      then (e.1, { e.2 with arrived := true, upTo := upTo }) else e) }

end Sys2Proof.Machine
end

