-- ==== Sys2Proof/Machine/Life.lean ====
section
/-! DEFINITION. How things end: loop back-edges and retirement (R37, R54), barrier phases (R41, R42), the exit of groups, blocks, nodes
and graph launches (R40, R43, R186, R206), and the status a launch reports (R426). -/

namespace Sys2Proof.Machine

/-! Retirement. -/

/-- The loop rule at the end instruction (R37 rule 2): the stack and the next PC when the instruction at `pc` sets the address that
follows it. -/
def loopBack (pc next : Dword) : List LoopEntry → List LoopEntry × Dword
  | [] => ([], next)
  | e :: t =>
    if e.stop = pc then
      if e.count.toNat > 1 then ({ e with count := e.count - 1 } :: t, evenPc e.start) else loopBack pc next t
    else (e :: t, next)

/-- A strand retires an instruction of `len` bytes that sets the following address: the loop rule applies. -/
def Strand.advance (t : Strand) (len : Nat) : Strand :=
  let (ls, pc) := loopBack t.pc (t.pc + BitVec.ofNat 64 len) t.loops
  { t with loops := ls, pc := pc }

/-- An entry pops while its body does not contain the target of a taken branch (R37 rule 3). -/
def popOutside (target : Dword) : List LoopEntry → List LoopEntry
  | [] => []
  | e :: t => if e.start.toNat ≤ target.toNat ∧ target.toNat ≤ e.stop.toNat then e :: t else popOutside target t

/-! Barriers (R41, R42). -/

/-- The sequencer context of a block. -/
def seqOf (s : State) (b : Block) : Option SeqCtx := b.ctx.bind (fun k => lookupAt s.seqs (b.core * 4 + k))

/-- The sequencer is a participant of a barrier and has not halted (R128). -/
def seqParticipates (s : State) (b : Block) (bar : Nat) : Bool :=
  match seqOf s b with
  | some x => !x.halted && x.bmask.getLsbD bar
  | none => false

/-- The slots of the block whose groups are resident. -/
def Block.liveSlots (s : State) (bid : Nat) (b : Block) : List Nat :=
  b.slots.filter (fun q => match groupAt s b.core q with | some g => g.block == some bid | none => false)

/-- The expected count of a barrier (R41); an exited group still counts at a sequencer's barrier until its writes are performed (R42). -/
def expectedCount (s : State) (bid : Nat) (b : Block) (bar : Nat) : Nat :=
  (Block.liveSlots s bid b).length + (if seqParticipates s b bar then b.leaving.length + 1 else 0)

/-- The arrivals of a barrier's current phase: those of the groups that count at it, and the sequencer's. -/
def arrivalCount (s : State) (bid : Nat) (b : Block) (bar : Nat) : Nat :=
  let x := getAt Barrier.none b.bars bar
  ((Block.liveSlots s bid b).filter (fun q => match groupAt s b.core q with | some g => laneBit x.groups g.gid | none => false)).length +
    (if seqParticipates s b bar then (b.leaving.filter (fun e => laneBit x.groups e.1)).length else 0) + (if x.seq then 1 else 0)

/-- A strand waits for a phase of a barrier to complete before it arrives there (R42). -/
def Strand.awaits (t : Strand) (bar phase : Nat) : Bool :=
  match t.held with
  | some (.arrival b p _) => b == bar && p == phase
  | _ => false

/-- A group's strands that waited for a phase of a barrier go on (R42), and each gang parts by the PCs its strands now have (R33). -/
def Group.releasePhase (g : Group) (bar phase : Nat) : Group :=
  let is := (List.range 8).filter (fun i =>
    match (g.strand i).held with
    | some (.barrier b p _ _ _) => b == bar && p == phase
    | _ => false)
  let g := g.onStrands is (fun t =>
    match t.held with
    | some (.barrier _ _ _ len _) => { t.advance len with held := none }
    | _ => t)
  let g := g.onStrands (List.range 8) (fun t => if t.awaits bar phase then { t with held := none } else t)
  let gb := getAt GroupBar.none g.bars bar
  let waited := if gb.last = some phase then is.foldl (fun w i => w ||| BitVec.twoPow 8 i) gb.waited else gb.waited
  if is.isEmpty then g else { g.repartAll with bars := putAt GroupBar.none g.bars bar { gb with waited := waited } }

/-- If the arrival set has reached the expected count, the phase advances, the set empties and waiting strands go on (R41). -/
def completePhase (s : State) (bid bar : Nat) : State :=
  match blockAt s bid with
  | none => s
  | some b =>
    let x := getAt Barrier.none b.bars bar
    let arrivals := arrivalCount s bid b bar
    if arrivals = 0 ∨ arrivals < expectedCount s bid b bar then s
    else
      let s := setBlock s bid { b with bars := putAt Barrier.none b.bars bar ⟨x.phase + 1, 0, false⟩ }
      (Block.liveSlots s bid b).foldl (fun s q => modifyGroup s b.core q (fun g => g.releasePhase bar x.phase)) s

/-- All sixteen barriers. -/
def completePhases (s : State) (bid : Nat) : State := (List.range 16).foldl (fun s bar => completePhase s bid bar) s

/-! Outstanding accesses of a group. -/

/-- Where the answer of an access that nothing waits for any more goes: it is discarded (R379, R395). -/
def Src.orphan : Src → Src
  | .group c q uid t => .group c q (uid + 2 ^ 80) t
  | .seq c k uid => .seq c k (uid + 2 ^ 80)

/-- An answer of memory; `lanes` answers whose flags word is 32 or above come from a unit of the core (the function unit, a reduction, a
work list) and are no reads of memory. -/
def ReplyKind.isRead : ReplyKind → Bool
  | .ack => false
  | .lanes _ fl => decide (fl < 32)
  | _ => true

/-- A read that a group issued before `upTo` has not returned (R99). -/
def readsOut (s : State) (uid upTo : Nat) : Bool :=
  s.net.any (fun r => r.1 < upTo && r.2.src.uid == uid && r.2.kind.isRead) ||
  s.replies.any (fun r => r.1 < upTo && r.2.src.uid == uid && r.2.kind.isRead) ||
  s.gathers.any (fun r => r.1 < upTo && r.2.src.uid == uid)

/-- A write that a group issued before `upTo` has not returned its T (R99). -/
def writesOut (s : State) (uid upTo : Nat) : Bool :=
  s.net.any (fun r => r.1 < upTo && r.2.src.uid == uid && r.2.kind.isWrite) ||
  s.replies.any (fun r => r.1 < upTo && r.2.src.uid == uid && (r.2.time.isSome || r.2.kind == .ack))

/-- A host-bound write that a group issued before `upTo` has not drained (R110). -/
def hostOut (s : State) (uid upTo : Nat) : Bool :=
  s.cmds.any (fun c => c.1 < upTo && c.2.uid == uid &&
    (match c.2.work with | .writes _ _ _ h => !h.isEmpty | _ => false))

/-! Launches (R186, R426). -/

/-- The first event of a launch that ends a group or refuses it (R426): of those of one tick the least, and later ones leave it. -/
def launchEvent (s : State) (l code : Nat) : State :=
  { s with launches := modifyAt s.launches l (fun x =>
      match x.first with
      | none => { x with first := some code, firstAt := s.dt }
      | some c => if x.firstAt = s.dt ∧ code < c then { x with first := some code } else x) }

/-- The STATUS of a launch (R426). -/
def launchStatus (l : GraphLaunch) : Word :=
  BitVec.ofNat 32 (l.first.getD 0 + (if l.thermal then 2 ^ 10 else 0) + (if l.saveFail then 2 ^ 11 else 0) +
    (if l.reset then 2 ^ 12 else 0))

/-- Finished work joins the function's records to be written (R361). -/
def pushRecord (s : State) (f : Nat) (r : Record) : State :=
  setFn s f { fnAt s f with finished := (fnAt s f).finished ++ [r] }

def runsOf (s : State) (l : GraphLaunch) : List (Nat × NodeRun) :=
  l.runs.filterMap (fun r => (lookupAt s.runs r).map (fun x => (r, x)))

/-- A graph launch is finished when none of its nodes is ready or running and each has completed, or one was refused (R186, R381). -/
def launchCheck (s : State) (l : Nat) : State :=
  match lookupAt s.launches l with
  | none => s
  | some x =>
    let rs := runsOf s x
    let busy := rs.any (fun r => r.2.stage == .ready || r.2.stage == .running)
    let all := rs.all (fun r => r.2.stage == .complete)
    let refused := rs.any (fun r => r.2.stage == .refused)
    if x.done || busy || !(all || refused) then s
    else
      let s := { s with launches := setAt s.launches l { x with done := true } }
      pushRecord s x.fn ⟨x.handle, 0, 0, x.tag, x.start, 0, some l⟩

/-- A waiting node becomes ready when all its predecessors are complete, unless a node of the launch was refused (R186, R381). -/
def readyNodes (s : State) (l : Nat) : State :=
  match lookupAt s.launches l with
  | none => s
  | some x =>
    let rs := runsOf s x
    if rs.any (fun r => r.2.stage == .refused) then s
    else
      let ready := rs.filter (fun r =>
        r.2.stage == .waiting &&
          rs.all (fun p => !p.2.entry.succs.contains r.2.node || p.2.stage == .complete))
      { s with runs := ready.foldl (fun m r => setAt m r.1 { r.2 with stage := .ready, readyAt := s.dt }) s.runs }

/-- A node is complete when all its blocks and tasks have been placed and have ended (R43). -/
def nodeCheck (s : State) (r : Nat) : State :=
  match lookupAt s.runs r with
  | none => s
  | some x =>
    if x.stage = .running ∧ x.nextBlock ≥ x.entry.blocks ∧ x.live = 0 then
      let s := { s with runs := setAt s.runs r { x with stage := .complete, lists := [] } }
      launchCheck (readyNodes s x.graph) x.graph
    else s

/-! Blocks and groups. -/

/-- A block ends when its groups have exited and its sequencer, if it owns one, has halted (R40). -/
def blockCheck (s : State) (bid : Nat) : State :=
  match blockAt s bid with
  | none => s
  | some b =>
    let seqDone := match seqOf s b with | some x => x.halted || (b.seqFault.isSome && x.fault.isNone) | none => true
    if (Block.liveSlots s bid b).isEmpty && seqDone then
      let s := { forgetPulls s bid with
        blocks := eraseAt s.blocks bid
        seqs := match b.ctx with | some k => eraseAt s.seqs (b.core * 4 + k) | none => s.seqs
        runs := modifyAt s.runs b.run (fun x => { x with live := x.live - 1 }) }
      nodeCheck s b.run
    else s

/-- An arrival leaves a barrier's current phase. -/
def Barrier.without (x : Barrier) (gid : Nat) : Barrier := { x with groups := x.groups &&& ~~~(BitVec.twoPow 32 gid) }

/-- An answer is still to write a register of a group (R206). -/
def registersOwed (s : State) (uid : Nat) : Bool :=
  readsOut s uid (s.nextId + 1) || s.replies.any (fun r => r.2.src.uid == uid && r.2.kind != .ack)

/-- The tick from which every fixed-latency result of a group's vector registers is readable (R55). -/
def Group.resultsBy (g : Group) : Nat := lastTick (g.v.map (fun e => e.2.ready))

/-- The vector granules of an exited group still drain (R206, R419): an answer is owed, or a fixed-latency result has not landed. -/
def drains (s : State) (dt : Nat) (d : Draining) : Bool := registersOwed s d.uid || decide (dt < d.til)

/-- A group that has no lane left leaves (R40): a pending store error is recorded (R385), it is removed from every barrier in one step,
at a sequencer's barrier once its writes are performed (R42), its granules drain while writes to its registers are outstanding (R206), and
its block may end. -/
def groupGone (s : State) (core slot : Nat) : State :=
  match groupAt s core slot with
  | none => s
  | some g =>
    let l := launchOf s g
    let s := if g.storeErr.isSome then launchEvent s l (0x100 + 0x10) else s
    let s := dropGroup (forgetPulls s g.uid) core slot
    let c := coreAt s core
    let d : Draining := ⟨g.uid, g.nv / 8, g.resultsBy⟩
    let s := setCore s core { c with
      queue := c.queue.filter (· != slot)
      draining := if drains s s.dt d then c.draining ++ [d] else c.draining }
    match g.block with
    | none => s
    | some bid =>
      let late := writesOut s g.uid (s.nextId + 1)
      let s := modifyBlock s bid (fun b =>
        { b with
          bars := b.bars.map (fun e => if late && seqParticipates s b e.1 then e else (e.1, e.2.without g.gid))
          leaving := if late && b.ctx.isSome then b.leaving ++ [(g.gid, g.uid)] else b.leaving })
      blockCheck (completePhases s bid) bid

/-- A group ends without a handler, as though every lane had exited (R373): the launch records the cause, with bit 9 where the handler
slot faulted. -/
def endGroup (s : State) (core slot cause : Nat) (handlerFault : Bool) : State :=
  match groupAt s core slot with
  | none => s
  | some g =>
    groupGone (launchEvent s (launchOf s g) (cause + 0x100 + (if handlerFault then 0x200 else 0))) core slot

/-- All groups of a block end (R400). -/
def endBlock (s : State) (bid cause : Nat) (handlerFault : Bool) : State :=
  match blockAt s bid with
  | none => s
  | some b =>
    let s := modifyBlock s bid (fun b => { b with seqFault := some cause })
    let s := (Block.liveSlots s bid b).foldl (fun s q => endGroup s b.core q cause handlerFault) s
    blockCheck s bid

/-- An exited group whose writes a sequencer's barriers still wait for, and its removal from their count and arrival sets (R42). -/
def Block.waitsFor (b : Block) (uid : Nat) : Bool := b.leaving.any (fun x => x.2 == uid)
def Block.remove (b : Block) (uid : Nat) : Block :=
  { b with
    leaving := b.leaving.filter (fun x => x.2 != uid)
    bars := b.bars.map (fun e => (e.1, (b.leaving.filter (fun x => x.2 == uid)).foldl (fun x l => x.without l.1) e.2)) }

/-- After an answer landed: draining granules of groups without outstanding writes are free (R206), and exited groups whose writes are
performed leave the count and the arrival set of the sequencer's barriers, those of a saved block too (R42). -/
def settle (s : State) (core uid : Nat) : State :=
  let c := coreAt s core
  let s := if c.draining.any (fun d => !drains s s.dt d) then
      setCore s core { c with draining := c.draining.filter (drains s s.dt) } else s
  if writesOut s uid (s.nextId + 1) then s
  else
    let s : State := { s with
      saved := s.saved.map (fun e => if e.2.block.waitsFor uid then (e.1, { e.2 with block := e.2.block.remove uid }) else e) }
    match s.blocks.find? (fun b => b.2.waitsFor uid) with
    | some (bid, b) => completePhases (setBlock s bid (b.remove uid)) bid
    | none => s

end Sys2Proof.Machine
end

