-- ==== Sys2Proof/Machine/Ops.lean ====
section
/-! DEFINITION. The shared operations of the core stream: leaving a gate call, taking a trap and returning from one (R202, R372, R373,
R397), and issuing an instruction with its checks in the order of R411. -/

namespace Sys2Proof.Machine

/-! Gate calls: what the end of a call does (R180, R397). -/

/-- Scrubbed and saved registers together after a return: a result register, numbered below `results`, keeps the callee's value below `keep`
and is zero from there on; another one takes the saved value where one was saved, and is zero otherwise. -/
def mergeTables {α : Type} (cur saved : Assoc α) (keep results : Nat) : Assoc α :=
  (cur.filter (fun e => decide (e.1 < keep))) ++ (saved.filter (fun e => decide (results ≤ e.1)))

/-- The group after the innermost call returned, keeping `kv` vector and `ks` uniform results, with `status` in s63. -/
def Group.popCall (g : Group) (f : CallFrame) (rest : List CallFrame) (kv ks : Nat) (status : Word) : Group :=
  let g := { g with
    v := mergeTables g.v f.v kv f.nvr, s := mergeTables g.s f.s ks f.nur, p := f.p, q := f.q,
    fpm := f.fpm, fpf := f.fpf, nfv := f.nfv, cbwin := f.cbwin, gmode := f.gmode, srOlds := [],
    dom := f.dom, storeErr := f.storeErr, calls := rest, regionOpen := false,
    strands := (List.range 8).map (fun i =>
      let t : Strand := f.strands.getD i (Strand.start 0)
      { t with pc := f.resume, held := none, prev := (g.strand i).prev }) }
  g.setS 63 ⟨status, true, false, []⟩

/-- Every register is full and every completion flag counts zero (R180). -/
def Group.quiet (g : Group) : Bool :=
  g.v.all (fun e => e.2.full) && g.s.all (fun e => e.2.full) && g.counts.all (fun e => e.2 == 0)

/-- `levels` calls end as `gabort` would end them. -/
def Group.popCalls (g : Group) (status : Word) : Nat → Group
  | 0 => g
  | n + 1 =>
    match g.calls with
    | [] => g
    | f :: rest => (g.popCall f rest 0 0 status).popCalls status n

/-- The group's block is being saved (R198). -/
def beingSaved (s : State) (g : Group) : Bool :=
  match blockOf s g with
  | some b => match b.preempt with
    | .saving _ _ _ => true
    | _ => false
  | none => false

/-- The IA of a caller's frame in the save area of a gate: it depends on the core, the slot and the nesting depth (R179). -/
def gateFrame (save core slot depth : Nat) : Nat := save + ((core * 32 + slot) * 4 + depth) * 2 ^ 14

/-- The size of such a frame. -/
def gateFrameSize : Nat := 2 ^ 14

/-- The callers' frames of a group in a slot, innermost first, with their IAs. -/
def callerFrames (core slot : Nat) : List CallFrame → List (Nat × CallFrame)
  | [] => []
  | f :: rest => (gateFrame f.save core slot rest.length, f) :: callerFrames core slot rest

/-- The places that such a frame takes, for a core. -/
def gateSpots (s : State) (core part ia : Nat) : Option (List Spot) := spotsFrom s (some (dieOfCore core)) part (gateFrameSize / 64) ia

/-- A frame of free values is written at an IA by a core, where memory is there to take it (log 11). -/
def writeOpenFrame (s : State) (core slot part ia mark : Nat) : State :=
  match gateSpots s core part ia with
  | some l => writeSpots part s l (openBytes mark 0 gateFrameSize)
  | none => logFrameWrite s core slot part ia gateFrameSize

/-- One of the frames that the innermost `levels` calls of a group return from holds uncorrectable data (R397). -/
def callsDamaged (s : State) (core slot levels : Nat) (g : Group) : Bool :=
  ((callerFrames core slot g.calls).take levels).any (fun f =>
    damagedRange s (some (dieOfCore core)) ((partOfCore s core).getD 0) f.1 gateFrameSize)

/-- Such a frame ends the group, and the reads that failed are logged (R383, R397). -/
def endDamagedCalls (s : State) (core slot levels : Nat) (g : Group) : State :=
  endGroup (((callerFrames core slot g.calls).take levels).foldl (fun s f =>
    logFrameReads s core slot ((partOfCore s core).getD 0) f.1 gateFrameSize) s) core slot 0x0F false

/-- An unwinding group whose accesses have landed leaves its calls and runs on (R397), or stands still if its block is being saved;
a frame with uncorrectable data ends the group. -/
def tryUnwind (s : State) (core slot : Nat) : State :=
  match groupAt s core slot with
  | none => s
  | some g =>
    match g.stop with
    | .unwinding n st =>
      if !g.quiet then s
      else if callsDamaged s core slot n g then endDamagedCalls s core slot n g
      else setGroup s core slot { g.popCalls st n with stop := if beingSaved s g then .saving none else .running }
    | _ => s

/-- The innermost `levels` calls of a group end with a status (R397). -/
def unwind (s : State) (core slot levels : Nat) (status : Word) : State :=
  tryUnwind (modifyGroup s core slot (fun g => { g with stop := .unwinding levels status })) core slot

/-! Traps (R202, R203, R371 to R373). -/

/-- The end of a group for a cause where no handler serves it: in a call the call ends (R397), else the group (R373); a sequencer's fault
ends the block (R400). -/
def endUnserved (s : State) (core slot : Nat) (t : TrapRec) (handlerFault : Bool) : State :=
  match groupAt s core slot with
  | none => s
  | some g =>
    if t.strand = 8 then
      match g.block with
      | some b => endBlock s b t.cause handlerFault
      | none => s
    else if g.calls.isEmpty then endGroup s core slot t.cause handlerFault
    else unwind s core slot 1 0x00010002

/-- The group that runs a handler for a trap (R202). -/
def handlerGroup (uid slot : Nat) (d : DomReg) (t : TrapRec) : Group :=
  let g : Group :=
    { uid := uid, block := none, gid := 0, nv := 64, ns := 64, v := [], s := [], p := [], q := [], counts := [], flagErr := 0,
      fpm := 0, fpf := 0, nfv := 0x2C, cbwin := 0, gmode := 0, srOlds := [], fpfReady := 0, rh := 0, dom := d, storeErr := none,
      strands := List.replicate 8 (Strand.start (evenPc d.handler)), bars := [], flash := none, regionOpen := false, pricking := false,
      calls := [], stop := .running, serves := some slot, control := 0 }
  let put (g : Group) (n : Nat) (w : Nat) : Group := g.setS n ⟨BitVec.ofNat 32 w, true, false, []⟩
  [(0, t.cause), (1, slot), (2, t.strand), (4, t.pc.toNat), (5, t.pc.toNat / 2 ^ 32), (6, t.va.toNat), (7, t.va.toNat / 2 ^ 32)].foldl
    (fun g e => put g e.1 e.2) g

/-- The handler slot begins to serve a waiting group. -/
def enterHandler (s : State) (core slot : Nat) : State :=
  match groupAt s core slot with
  | none => s
  | some g =>
    match g.stop with
    | .waiting t =>
      let (uid, s) := takeId s
      let s := match blockOf s g with
        | some b => noteUid s b.run uid
        | none => s
      setGroup (setGroup s core slot { g with stop := .served t }) core handlerSlot (handlerGroup uid slot g.dom t)
    | _ => s

/-- The first waiting group of the core's queue is served if the slot is free (R202). -/
def serveNext (s : State) (core : Nat) : State :=
  match groupAt s core handlerSlot with
  | some _ => s
  | none =>
    match (coreAt s core).queue with
    | [] => s
    | q :: rest => enterHandler (setCore s core { coreAt s core with queue := rest }) core q

/-- A condition met in the handler slot is raised to the group that it serves, which ends (R373, R415; log 77), and the slot is free. -/
def handlerFaults (s : State) (core cause : Nat) : State :=
  match groupAt s core handlerSlot with
  | none => s
  | some h =>
    let s := dropGroup (forgetPulls s h.uid) core handlerSlot
    match h.serves with
    | none => s
    | some q =>
      match groupAt s core q with
      | some g => match g.stop with
        | .served t => endUnserved s core q { t with cause := cause } true
        | _ => s
      | none => s

/-- TAKING A TRAP: the one operation by which a group stops for a cause (R202, R372, R373). A trap of the handler slot ends what the slot
serves; a group without a handler ends; any other group stops as it stands and is served by the handler slot, at once where the slot is
free and otherwise in the order of the traps. The saved registers of the entry are those of `handlerGroup`: the cause, the slot, the
strand, the PC and the VA; the slot runs from the HANDLER of the group's current domain. -/
def takeTrap (s : State) (core slot : Nat) (t : TrapRec) : State :=
  if slot = handlerSlot then handlerFaults s core t.cause
  else
    match groupAt s core slot with
    | none => s
    | some g =>
      if g.dom.handler = 0 then endUnserved s core slot t false
      else
        let s := setGroup (forgetPulls s g.uid) core slot { g with stop := .waiting t }
        serveNext (setCore s core { coreAt s core with queue := (coreAt s core).queue ++ [slot] }) core

/-- RETURNING FROM A TRAP: the handler's `exit` resumes the group it served, or ends it if the control word holds 1 (R202, R397, R400).
The gangs part by the PCs their strands now have (R33, R285), a group of which the handler ended the strands that had not arrived at a
barrier has arrived there (R41), and a group whose masks the handler left without a lane is gone. -/
def handlerExit (s : State) (core : Nat) : State :=
  match groupAt s core handlerSlot with
  | none => s
  | some h =>
    let s := dropGroup (forgetPulls s h.uid) core handlerSlot
    match h.serves with
    | none => s
    | some q =>
      match groupAt s core q with
      | none => s
      | some g =>
        match g.stop with
        | .served t =>
          if t.strand = 8 then endUnserved s core q t false
          else if h.control = 1 then
            if g.calls.isEmpty then endGroup s core q t.cause false else unwind s core q 1 0x00010003
          else
            let g := g.repartAll.arriveRest s.nextId
            let g := g.onStrands (List.range 8) (fun t => { t with loopsAbove := [], divAbove := [] })
            let s := setGroup s core q { g with stop := .running }
            if g.live.isEmpty then groupGone s core q else s
        | _ => s

/-! Issuing. -/

/-- Where an instruction may execute (R181, R203, R415). -/
inductive Zone where
  | any
  /-- Refused with 0x03 inside a gate call and in the handler slot. -/
  | block
  /-- Refused with 0x03 in the handler slot: `gcall`. -/
  | notHandler
  /-- Refused with 0x03 in a gate call: `exit`. -/
  | notCall
  /-- 0x1E outside the handler slot: `xrd`, `xwr`. -/
  | handlerOnly
deriving DecidableEq, Repr

/-- What an instruction needs in order to issue: its length and gap, its guard (a predicate, or a uniform predicate), where it may
execute, its sources and destinations, whether a variable-latency unit writes those, the tags that sources accept (R53), the vector
registers its fields name where these are not all it uses (R411), whether it closes a flashback region (R197), and whether it first waits
for code that it reads (R412). -/
structure Needs where
  len    : Nat := 4
  gap    : Nat := 0
  guard  : Option Nat := none
  qguard : Option Nat := none
  zone   : Zone := .any
  vsrc   : List Nat := []
  ssrc   : List Nat := []
  psrc   : List Nat := []
  qsrc   : List Nat := []
  vdst   : List Nat := []
  sdst   : List Nat := []
  varLat : Bool := false
  tags   : List (Nat × List Nat) := []
  named  : Option (List Nat) := none
  closes : Bool := false
  code   : Bool := false
deriving DecidableEq, Repr

/-- A condition that an issue meets: its code, the strand, and the VA for s6:s7. -/
structure Cond where
  code   : Nat
  strand : Nat
  va     : Nat
deriving DecidableEq, Repr

/-- The port of a slot (R190): slot mod 4, and for the handler slot the port of the slot it serves. -/
def portOf (g : Group) (slot : Nat) : Nat :=
  match g.serves with
  | some q => q % 4
  | none => slot % 4

/-- Within a tick ports are taken in order: a port that has been taken, or is passed by, issues nothing more (R93, R190). -/
def portTaken (s : State) (core : Nat) (g : Group) (slot : Nat) : Bool :=
  (coreAt s core).portUsed.any (fun p => decide (p < 4 ∧ portOf g slot ≤ p))

/-- The context of an issue of a gang (R32, R220). -/
def issueCtx (n : Needs) (s : State) (core slot gang : Nat) (g : Group) : Ctx :=
  let is := g.gangStrands gang
  let all := g.activeLanes is
  let act := match n.guard with
    | some p => maskOf (fun l => laneBit all l && g.readP s.free s.dt p l)
    | none => all
  let q := match n.qguard with
    | some q => g.readQ s.free s.dt q
    | none => true
  ⟨core, slot, gang, g, is, all, act, q, (g.strand (is.headD 0)).pc, s.dt, s.free, none⟩

/-! Reading operands. -/

def Ctx.v (c : Ctx) (n l : Nat) : Word := c.g.readV c.free c.dt n l
def Ctx.s (c : Ctx) (n : Nat) : Word := c.g.readS c.free c.dt n
def Ctx.p (c : Ctx) (n l : Nat) : Bool := c.g.readP c.free c.dt n l
def Ctx.qv (c : Ctx) (n : Nat) : Bool := c.g.readQ c.free c.dt n
def Ctx.tag (c : Ctx) (n : Nat) : Nat := (c.g.vreg n).seenTag
def Ctx.low (c : Ctx) : Nat := c.is.headD 0

/-- The active lanes, ascending. -/
def Ctx.lanes (c : Ctx) : List Nat := lanesOf c.act

/-- A 64-bit value from a pair of uniform registers (R47). -/
def Ctx.s64 (c : Ctx) (n : Nat) : Nat := pair64 (c.s n) (c.s (n + 1))

/-! The checks of R411. -/

/-- The condition with the lowest code; of those the one of the lowest strand (log 17). -/
def worst : List Cond → Option Cond
  | [] => none
  | x :: t =>
    match worst t with
    | none => some x
    | some y => if y.code < x.code ∨ (y.code = x.code ∧ y.strand < x.strand) then some y else some x

/-- A strand is held in `regang`, `fbp` or a gate instruction. -/
def Strand.gathered (t : Strand) : Bool := t.held == some .gather

/-- Every strand of a group that has not exited is held in `regang`, `fbp` or a gate instruction (R34). -/
def Group.allGathered (g : Group) : Bool := g.live.all (fun i => (g.strand i).gathered)

/-- A held strand issues nothing; once every strand of the group is gathered, one of its gangs performs the release. -/
def Group.blocks (g : Group) (i : Nat) : Bool :=
  match (g.strand i).held with
  | none => false
  | some .gather => !g.allGathered
  | some _ => true

/-- The group's block has stopped for a sequencer fault (R400). -/
def seqFaulted (s : State) (g : Group) : Bool :=
  match blockOf s g with
  | some b => b.seqFault.isSome
  | none => false

/-- The gang cannot issue at all now: its group does not run, its strands are held, the port is taken, or the gap of a strand is not over
(R32, R54, R190). -/
def notReady (n : Needs) (s : State) (c : Ctx) : Bool :=
  c.g.stop != .running || seqFaulted s c.g || c.is.isEmpty || portTaken s c.core c.g c.slot ||
  c.is.any (fun i =>
    c.g.blocks i ||
    (match (c.g.strand i).prev with
     | some t => decide (c.dt < t + 1 + n.gap)
     | none => false))

/-- 0x03 and 0x1E. -/
def zoneConds (n : Needs) (c : Ctx) : List Cond :=
  let call := !c.g.calls.isEmpty
  let handler := decide (c.slot = handlerSlot)
  let bad := match n.zone with
    | .any => 0
    | .block => if call || handler then 3 else 0
    | .notHandler => if handler then 3 else 0
    | .notCall => if call then 3 else 0
    | .handlerOnly => if handler then 0 else 0x1E
  if bad = 0 then [] else [⟨bad, c.low, 0⟩]

/-- 0x04 for a list of vector and uniform registers (R375). -/
def allocConds (c : Ctx) (vs ss : List Nat) : List Cond :=
  if vs.all c.g.hasV && ss.all c.g.hasS then [] else [⟨4, c.low, 0⟩]

def Needs.namedV (n : Needs) : List Nat := n.named.getD (n.vsrc ++ n.vdst)

/-- An empty source (R56, R375). -/
def emptySource (n : Needs) (c : Ctx) : Bool :=
  n.vsrc.any (fun r => !(c.g.vreg r).full) || n.ssrc.any (fun r => !(c.g.sreg r).full)

/-- An empty destination, or for a variable-latency producer one whose fixed-latency result is not yet readable (R56). -/
def destBusy (n : Needs) (c : Ctx) : Bool :=
  n.vdst.any (fun r => !(c.g.vreg r).full || (n.varLat && decide (c.dt < (c.g.vreg r).ready))) ||
  n.sdst.any (fun r => !(c.g.sreg r).full || (n.varLat && decide (c.dt < (c.g.sreg r).ready)))

/-- A source, guard or old predicate value that is read before it is readable (R374). -/
def earlySource (n : Needs) (c : Ctx) : Bool :=
  n.vsrc.any (fun r => !(c.g.vreg r).dead && decide (c.dt < (c.g.vreg r).readable)) ||
  n.ssrc.any (fun r => decide (c.dt < (c.g.sreg r).ready)) ||
  (n.psrc ++ n.guard.toList).any (fun r => decide (c.dt < (c.g.preg r).ready)) ||
  (n.qsrc ++ n.qguard.toList).any (fun r => decide (c.dt < (c.g.qreg r).ready))

/-- The lowest strand with an active lane in which a source is poisoned. -/
def poisonConds (n : Needs) (c : Ctx) : List Cond :=
  (n.vsrc.flatMap (fun r =>
    match (lanesOf ((c.g.vreg r).poison &&& c.act)).head? with
    | some l => [(⟨0x0F, l / 4, 0⟩ : Cond)]
    | none => [])) ++
  (if n.ssrc.any (fun r => (c.g.sreg r).poison) then [⟨0x0F, c.low, 0⟩] else [])

/-- The top loop entry's end lies within the instruction's bytes but does not begin there (R376). -/
def misplacedEnd (n : Needs) (c : Ctx) : List Cond :=
  match c.is.find? (fun i =>
      match (c.g.strand i).loops with
      | e :: _ => decide (c.pc.toNat < e.stop.toNat) && decide (e.stop.toNat < c.pc.toNat + n.len)
      | [] => false) with
  | some i => [⟨0x0A, i, 0⟩]
  | none => []

def flagOf (g : Word) (i : Nat) : Bool := bitOf g.toNat i

/-- The conditions of the last step of R411 that every instruction shares. -/
def commonConds (n : Needs) (c : Ctx) : List Cond :=
  (if flagOf c.g.gmode 1 && n.vsrc.any (fun r => (c.g.vreg r).dead) then [⟨0x06, c.low, 0⟩] else []) ++
  (if n.tags.any (fun t => !t.2.contains (c.tag t.1)) then [⟨0x07, c.low, 0⟩] else []) ++
  (if flagOf c.g.gmode 2 && earlySource n c then [⟨0x08, c.low, 0⟩] else []) ++
  misplacedEnd n c ++ poisonConds n c

/-- How an issue comes out: it stays where it is, traps, or executes. -/
inductive Verdict where
  | stall
  | trap (x : Cond)
  | go
deriving DecidableEq, Repr

/-- The checks of R411 in their order: `late` are the conditions an instruction adds to the encoding stage once the fields themselves have
passed, `own` those it adds to the last stage, `wait` what it waits for beyond its registers. -/
def verdict (n : Needs) (late own : Ctx → State → List Cond) (wait : Ctx → State → Bool) (c : Ctx) (s : State) : Verdict :=
  if notReady n s c then .stall
  else
    match worst (zoneConds n c ++ allocConds c n.namedV (n.ssrc ++ n.sdst)) with
    | some x => .trap x
    | none =>
      match worst (late c s) with
      | some x => .trap x
      | none =>
        if emptySource n c then (if flagOf c.g.gmode 0 then .trap ⟨0x05, c.low, 0⟩ else .stall)
        else if destBusy n c || (n.code && wait c s) then .stall
        else
          match worst (commonConds n c ++ own c s) with
          | some x => .trap x
          | none => if wait c s then .stall else .go

/-- The trap record of a condition. -/
def Ctx.trapRec (c : Ctx) (x : Cond) : TrapRec := ⟨x.code, x.strand, c.pc, BitVec.ofNat 64 x.va⟩

/-- The issue takes its port for this tick and its free values. -/
def takePort (s : State) (c : Ctx) : State :=
  let s := setCore s c.core { coreAt s c.core with portUsed := (coreAt s c.core).portUsed ++ [portOf c.g c.slot] }
  { s with free := s.free + freeSpan }

/-- The group closes its flashback region if the instruction is one of Table 14.4. -/
def closeRegion (s : State) (c : Ctx) (closes : Bool) : State :=
  if closes then modifyGroup s c.core c.slot (fun g => { g with regionOpen := false }) else s

/-- An engine command of a core as a reader and writer of memory. -/
def commandAsker (core slot id : Nat) : Asker := ⟨.group core slot id 8, 0, false⟩

/-- Who reads memory: the gang, or the command that it has issued. -/
def Ctx.asker (c : Ctx) : Asker :=
  match c.asks with
  | some id => commandAsker c.core c.slot id
  | none => ⟨.group c.core c.slot c.g.uid c.low, c.pc.toNat, false⟩

/-- A failing fetch of a jump-table entry or of a loop's end is logged where it met an error response (R412); it waits no longer. -/
def logFetch (s : State) (c : Ctx) (va : Nat) : State :=
  let part := (partOfCore s c.core).getD 0
  (List.range 4).foldl (fun (acc : State × Bool) i =>
    if acc.2 then acc
    else match rangeIa c.g.dom.ranges permX (va + i) with
      | none => (acc.1, true)
      | some ia => match readHome s c.asker part c.g.dom.id ia 1 with
        | .error k => (logRead acc.1 part ia c.g.dom.id c.core c.slot k, true)
        | _ => acc) (s, false) |>.1 |> (dropPulls · c.asker)

/-- ISSUING: the one operation by which an instruction of the core stream executes for the gang whose turn it is; `stalled` is what becomes
of the state where the instruction stays where it is. -/
def issueOr (stalled : Ctx → State → State) (need : Ctx → State → Needs) (base : Needs) (late own : Ctx → State → List Cond)
    (wait : Ctx → State → Bool) (eff : Ctx → State → State) (s : State) : Host.Outcome State Fault Refusal :=
  match s.cur with
  | .gang core slot gang =>
    match groupAt s core slot with
    | none => .next s
    | some g =>
      let c := issueCtx base s core slot gang g
      let n := need c s
      match verdict n late own wait c s with
      | .stall => .next (stalled c s)
      | .trap x =>
        let s := takePort s c
        .next (takeTrap (if x.code = 0x0B then logFetch s c x.va else s) core slot (c.trapRec x))
      | .go => .next (eff c (closeRegion (takePort s c) c n.closes))
  | _ => .fault .wrongAgent

/-- What becomes of a stalled instruction that reads memory as it issues: what it cannot read at once leaves as requests. -/
def stallReading (n : Needs) (rs : Ctx → List Range) (c : Ctx) (s : State) : State :=
  if notReady n s c || emptySource n c || destBusy n c then s
  else askRanges c.asker ((partOfCore s c.core).getD 0) c.g.dom (rs c) s

/-- An issue that waits without a trace. -/
def issueWith (need : Ctx → State → Needs) (base : Needs) (late own : Ctx → State → List Cond) (wait : Ctx → State → Bool)
    (eff : Ctx → State → State) : State → Host.Outcome State Fault Refusal := issueOr (fun _ s => s) need base late own wait eff

def noConds : Ctx → State → List Cond := fun _ _ => []
def noWait : Ctx → State → Bool := fun _ _ => false

/-- An issue with needs known from the instruction alone. -/
def issue (n : Needs) (own : Ctx → State → List Cond) (wait : Ctx → State → Bool) (eff : Ctx → State → State) (s : State) :
    Host.Outcome State Fault Refusal := issueWith (fun _ _ => n) n noConds own wait eff s

/-! Reading code (R209, R212). -/

/-- What reading bytes of code gives. -/
inductive CodeRead where
  | bytes (bs : List Byte)
  /-- The first byte that lacks PX or meets an error response. -/
  | fails (va : Nat)
  /-- A page is not present: the read waits. -/
  | waits
deriving DecidableEq, Repr

/-- Code bytes under PX of a domain, as an engine read, which follows the core's earlier writes to their lines (R212, R111, R412). -/
def readCode (s : State) (who : Asker) (part : Nat) (d : DomReg) (va : Nat) : Nat → CodeRead
  | 0 => .bytes []
  | n + 1 =>
    match rangeIa d.ranges permX va with
    | none => .fails va
    | some ia =>
      match readHome s who part d.id ia 1 with
      | .data b =>
        match readCode s who part d (va + 1) n with
        | .bytes bs => .bytes (BitVec.ofNat 8 b :: bs)
        | r => r
      | .park => .waits
      | _ => .fails va

/-! Retiring. -/

/-- The gang's strands retire an instruction that sets the following address; `extra` are the ticks a `nop` adds (R37,
R54). Strands that it sends to different addresses part (R33; log 60). -/
def retireOn (g : Group) (is : List Nat) (dt len extra : Nat) : Group :=
  (g.onStrands is (fun t => { t.advance len with prev := some (dt + extra), waitOnly := false, held := none })).repart is

/-- A change to the group followed by retirement. -/
def finish (c : Ctx) (len : Nat) (f : Group → Group) (s : State) : State :=
  modifyGroup s c.core c.slot (fun g => retireOn (f g) c.is c.dt len 0)

/-- The gang retires, the group unchanged. -/
def retire (c : Ctx) (len : Nat) (s : State) : State := finish c len id s

/-- An instruction that only changes its group's registers. -/
def issueRegs (n : Needs) (f : Ctx → Group → Group) (s : State) : Host.Outcome State Fault Refusal :=
  issue n noConds noWait (fun c s => finish c n.len (f c) s) s

end Sys2Proof.Machine
end

