-- ==== Sys2Proof/Machine/Flags.lean ====
section
/-! DEFINITION. The shapes of the register instructions: how a lane result, a predicate and a uniform result are written with their tags
and latencies (R52, R55), and how floating-point flags reach FPF (R50, R70, R258). -/

namespace Sys2Proof.Machine

/-- The tags a scalar FP32 operand accepts (R53). -/
def fpTags : List Nat := [0, 2]

/-- Tag codes (Table 4.4). -/
def tagI32 : Nat := 0
def tagUI32 : Nat := 1
def tagFP32 : Nat := 2
def tagBF16 : Nat := 3
def tagFP16 : Nat := 4
def tagI16 : Nat := 5
def tagB8 : Nat := 6
def tagI8 : Nat := 7
def tagUI8 : Nat := 8
def tagF6 : Nat := 9
def tagF4 : Nat := 10
def tagI4 : Nat := 11
def tagE8M0 : Nat := 12

/-- The needs of a lane instruction on vector registers. -/
def laneNeeds (len : Nat) (g p : Nat) (src dst : List Nat) : Needs :=
  { len := len, gap := g, guard := some p, vsrc := src, vdst := dst }

/-- A lane instruction with two sources whose result is tagged I32 with L = 2 (R229). -/
def intOp2 (len g p d a b : Nat) (f : Word → Word → Word) : State → Host.Outcome State Fault Refusal :=
  issueRegs (laneNeeds len g p [a, b] [d]) (fun c gr => gr.writeV c.dt 2 d tagI32 c.act (fun l => f (c.v a l) (c.v b l)))

/-- The same with one source. -/
def intOp1 (len g p d a : Nat) (f : Word → Word) : State → Host.Outcome State Fault Refusal :=
  issueRegs (laneNeeds len g p [a] [d]) (fun c gr => gr.writeV c.dt 2 d tagI32 c.act (fun l => f (c.v a l)))

/-- The same with the old destination as a third source (R229). -/
def intOp3 (len g p d a b : Nat) (f : Word → Word → Word → Word) : State → Host.Outcome State Fault Refusal :=
  issueRegs (laneNeeds len g p [a, b, d] [d])
    (fun c gr => gr.writeV c.dt 2 d tagI32 c.act (fun l => f (c.v a l) (c.v b l) (c.v d l)))

/-- `mov` (R235): the value and the tag of a. -/
def moveOp (len g p d a : Nat) : State → Host.Outcome State Fault Refusal :=
  issueRegs (laneNeeds len g p [a] [d]) (fun c gr => gr.writeV c.dt 2 d (c.tag a) c.act (fun l => c.v a l))

/-- The old predicate is a source where the result combines with it (R222). -/
def oldPred (x : Nat) (k : Fin 8) : List Nat := if k.val = 0 then [] else [x]

/-- An integer compare into a predicate (R236). -/
def intCompare (g p x : Nat) (k : Fin 8) (a b : Nat) (f : Word → Word → Bool) : State → Host.Outcome State Fault Refusal :=
  issueRegs { laneNeeds 4 g p [a, b] [] with psrc := oldPred x k }
    (fun c gr => gr.writeP c.dt 2 x c.act (fun l => Alu.combine k (c.p x l) (f (c.v a l) (c.v b l))))

/-- A uniform instruction: it acts once per issue and changes nothing when its q guard is false (R239). -/
def uniformNeeds (len g q : Nat) (src dst : List Nat) : Needs :=
  { len := len, gap := g, qguard := some q, ssrc := src, sdst := dst }

def uniOp2 (len g q d a b : Nat) (f : Word → Word → Word) : State → Host.Outcome State Fault Refusal :=
  issueRegs (uniformNeeds len g q [a, b] [d]) (fun c gr => if c.q then gr.writeS c.dt 2 d (f (c.s a) (c.s b)) else gr)

def uniOp1 (len g q d a : Nat) (f : Word → Word) : State → Host.Outcome State Fault Refusal :=
  issueRegs (uniformNeeds len g q [a] [d]) (fun c gr => if c.q then gr.writeS c.dt 2 d (f (c.s a)) else gr)

/-- A uniform compare (R239). -/
def uniCompare (g q x : Nat) (k : Fin 8) (a b : Nat) (f : Word → Word → Bool) : State → Host.Outcome State Fault Refusal :=
  issueRegs { uniformNeeds 4 g q [a, b] [] with qsrc := oldPred x k }
    (fun c gr => if c.q then gr.writeQ c.dt 2 x (Alu.combine k (c.qv x) (f (c.s a) (c.s b))) else gr)

/-! Floating point. -/

/-- Flags raised into FPF by an instruction issued at `dt`: the results are written at `ready`, which a `getsr` or `setsr` of FPF waits
for (R50). -/
def Group.raise (g : Group) (fl : Flags) (ready : Nat) : Group :=
  { g with fpf := g.fpf ||| fl.zeroExtend 32, fpfReady := max g.fpfReady ready }

/-- The flags of every active lane together (R70). -/
def laneFlags (c : Ctx) (f : Nat → Flags) : Flags := c.lanes.foldl (fun fl l => fl ||| f l) 0

/-- The rounding mode of FPM (R49). -/
def Ctx.rm (c : Ctx) : RoundMode := RoundMode.ofWord c.g.fpm

/-- A lane result with flags, L = 4 (R242). -/
def fpWrite (c : Ctx) (d tag : Nat) (f : Nat → Word × Flags) (gr : Group) : Group :=
  (gr.writeV c.dt 4 d tag c.act (fun l => (f l).1)).raise (laneFlags c (fun l => (f l).2)) (c.dt + 4)

/-- FP32 operands accept I32 and FP32 (R53). -/
def fpNeeds (len g p : Nat) (src dst : List Nat) : Needs :=
  { laneNeeds len g p src dst with tags := src.map (fun r => (r, fpTags)) }

/-- A scalar FP32 instruction with two sources (R243). -/
def fpOp2 (len g p d a b : Nat) (f : RoundMode → Word → Word → Word × Flags) : State → Host.Outcome State Fault Refusal :=
  issueRegs (fpNeeds len g p [a, b] [d]) (fun c gr => fpWrite c d tagFP32 (fun l => f c.rm (c.v a l) (c.v b l)) gr)

def fpOp1 (len g p d a : Nat) (f : RoundMode → Word → Word × Flags) : State → Host.Outcome State Fault Refusal :=
  issueRegs (fpNeeds len g p [a] [d]) (fun c gr => fpWrite c d tagFP32 (fun l => f c.rm (c.v a l)) gr)

/-- An FP32 compare into a predicate, L = 4 (R245). -/
def fpCompare (g p x : Nat) (k : Fin 8) (a b : Nat) (f : Word → Word → Bool × Flags) : State → Host.Outcome State Fault Refusal :=
  issueRegs { fpNeeds 4 g p [a, b] [] with psrc := oldPred x k }
    (fun c gr => (gr.writeP c.dt 4 x c.act (fun l => Alu.combine k (c.p x l) (f (c.v a l) (c.v b l)).1)).raise
      (laneFlags c (fun l => (f (c.v a l) (c.v b l)).2)) (c.dt + 4))

/-! Variable-latency results of the core's own units. -/

/-- An answer set on its way; its number is the next one. -/
def sendReply (s : State) (r : Reply) : State :=
  let (id, s) := takeId s
  { s with replies := setAt s.replies id r }

/-- The source that the accesses of a gang carry. -/
def Ctx.src (c : Ctx) (l : Nat) : Src := .group c.core c.slot c.g.uid (l / 4)

/-- The lanes' results of a unit of the core are marked empty now and land with a `LOAD_REPLY` (R56); their flags are raised when they
land (R50); `fp` tells a floating-point instruction, whose flags a `getsr` or `setsr` of FPF waits for. `regs` gives a register and its
tag, `f` its value in a lane. -/
def sendUnit (c : Ctx) (regs : List (Nat × Nat)) (f : Nat → Nat → Word) (fp : Bool) (fl : Flags) (s : State) : State :=
  let s := modifyGroup s c.core c.slot (fun g => regs.foldl (fun g r => g.markV r.1 r.2 c.act) g)
  if c.act = 0 then s
  else
    sendReply s ⟨c.src (c.lanes.headD 0), accessLaunch s c.core c.g,
      .lanes (regs.flatMap (fun r => c.lanes.map (fun l => (r.1, l, f r.1 l)))) (if fp then 32 + fl.toNat else 64), none, none, none⟩

end Sys2Proof.Machine
end

