-- ==== Sys2Proof/Machine/Access.lean ====
section
/-! DEFINITION. Accesses of lanes to global memory as they leave the core: L1 (R83, R97), requests in the network (R88, R93), and what a
store, an atomic and a reduction do in the issuing core's L1 (R263, R268, R270). -/

namespace Sys2Proof.Machine

/-- The keys of a line in a core's L1 and of a replica in a slice. -/
def l1Key (core ia : Nat) : Nat := core * 2 ^ 45 + lineOf ia
def replicaKey (slice ia : Nat) : Nat := sliceKey slice ia

/-- The strands that issued a command: its reads are theirs (R111). -/
def Cmd.readers (c : Cmd) : List Src := c.strands.map (fun i => .group c.core c.slot c.uid i)

/-- The strands for which a request reads: its own, or those that issued the command. -/
def Req.readers (r : Req) (s : State) : List Src :=
  if r.kind.isPull then ((lookupAt s.cmds r.src.uid).map Cmd.readers).getD [] else [r.src]

/-- The VAs of a domain at an IA. -/
def vasOf (d : DomReg) (ia : Nat) : List Nat :=
  (d.ranges.map (fun w =>
    w.1.toNat / 2 ^ 21 % 2 ^ 27 * 2 ^ 21 + (ia - w.2.toNat % 2 ^ 31 * 2 ^ 21))).filter (fun va => rangeIa d.ranges 0 va == some ia)

/-- A command may yet read one of some bytes: they lie in its ranges, and no read of it has been performed there. -/
def mayRead (s : State) (id : Nat) (c : Cmd) (ia n : Nat) : Bool :=
  match c.work with
  | .reading _ _ rs =>
    (List.range n).any (fun i =>
      (vasOf c.dom (ia + i)).any (fun va => rs.any (fun r => decide (r.1 ≤ va ∧ va < r.1 + r.2))) &&
        !(s.net.any (fun e => e.2.kind.isPull && e.2.src.uid == id && e.2.over && decide (e.2.ia ≤ ia + i ∧ ia + i < e.2.ia + e.2.size))))
  | _ => false

/-- A read of one of some bytes by the same strand, or by a command of it, has not been performed (R97, R111). -/
def strandReading (s : State) (src : Src) (ia n below : Nat) : Bool :=
  s.net.any (fun r => r.1 < below && r.2.src == src && r.2.kind.isRead && decide (r.2.ia < ia + n ∧ ia < r.2.ia + r.2.size)) ||
  s.cmds.any (fun c => c.1 < below && c.2.readers.contains src && mayRead s c.1 c.2 ia n)

/-- A later access of the core to bytes that a command may yet read: a write, or a read of a strand that issued the command (R96, R97,
R111). -/
def readHolds (s : State) (n : Nat) (r : Req) : Bool :=
  s.cmds.any (fun c => decide (c.1 < n ∧ c.1 ≠ r.src.uid) && c.2.core == r.src.core && partOfCore s r.src.core == some r.part &&
    (r.kind.isWrite || (r.readers s).any (fun t => c.2.readers.contains t)) && mayRead s c.1 c.2 r.ia r.size)

/-- A copy in a core's L1 shows nothing older than what a strand has read of the same bytes (R97). -/
def Seen.allowsCopy (e : Seen) (x : Copy) : Bool :=
  decide (e.ver ≤ x.ver) && (e.inst == x.id || (decide (e.top ≤ x.ver) && e.own.isEmpty))

/-- The copy in a core's L1 that a load of `n` bytes by a domain may be served from (R83, R97, R175, R392). -/
def l1Serves (s : State) (src : Src) (dom ia n : Nat) : Option Copy :=
  match lookupAt s.l1 (l1Key src.core ia) with
  | none => none
  | some x =>
    if dtCore s src.core < x.expiry && (dom == x.owner || dom == 0) && !isUnsync s (.core src.core)
        && !strandReading s src ia n s.nextId && (seenAt s src ia n).all (fun e => e.allowsCopy x) then some x
    else none

/-- A strand has read a copy of L1. -/
def Seen.ofCopy (x : Copy) (e : Seen) : Seen :=
  if e.inst = x.id then { e with top := max e.top x.top, own := x.own }
  else ⟨max e.ver e.top, x.id, x.top, x.own⟩

/-- The `n` bytes of a copy from an address. -/
def Copy.bytes (x : Copy) (ia n : Nat) : Nat := x.data / 256 ^ (ia % 128) % 256 ^ n

/-- A loaded number extended to a lane value (Table 18.3). -/
def LoadExt.value (e : LoadExt) (v : Nat) : Word :=
  match e with
  | .z8 => BitVec.ofNat 32 (v % 2 ^ 8)
  | .s8 => BitVec.ofInt 32 (signed 8 v)
  | .z16 => BitVec.ofNat 32 (v % 2 ^ 16)
  | .s16 => BitVec.ofInt 32 (signed 16 v)
  | .word => BitVec.ofNat 32 v
  | .half _ => BitVec.ofNat 32 v

/-- The writes that a load of a lane makes: consecutive registers from the low word up (R261). -/
def loadWrites (regs : List Nat) (lane : Nat) (ext : LoadExt) (v : Nat) : List (Nat × Nat × Word) :=
  (regs.zip (List.range regs.length)).map (fun r => (r.1, lane, ext.value (v / 2 ^ (32 * r.2))))

/-- What an access of a group carries besides its address: its source, launch, partition and domain. -/
structure Access where
  src    : Src
  launch : Nat
  part   : Nat
  dom    : DomReg
deriving DecidableEq, Repr

def Access.req (x : Access) (s : State) (va ia size : Nat) (k : ReqKind) : Req :=
  ⟨x.src, x.launch, x.part, x.dom.id, x.dom.tclass, va, ia, size, (coreAt s x.src.core).gen, s.dt, k, .inFlight⟩

/-- A read of a lane (R261): served from L1 where a copy may serve it, else sent to home. -/
def sendLoad (x : Access) (va ia size : Nat) (regs : List Nat) (lane : Nat) (ext : LoadExt) (ro : Bool) (s : State) : State :=
  match l1Serves s x.src x.dom.id ia size with
  | some y =>
    sendReply (noteSeen s x.src ia size (Seen.ofCopy y))
      ⟨x.src, x.launch, .lanes (loadWrites regs lane ext (y.bytes ia size)) 0, none, none, none⟩
  | none => sendReq s (x.req s va ia size (.load regs lane ext ro))

/-- An element that a gather reads (R289): from L1 or from home. -/
def sendCorner (x : Access) (va ia size gather idx : Nat) (s : State) : State :=
  match l1Serves s x.src x.dom.id ia size with
  | some y =>
    sendReply (noteSeen s x.src ia size (Seen.ofCopy y)) ⟨x.src, x.launch, .corner gather idx (y.bytes ia size), none, none, none⟩
  | none => sendReq s (x.req s va ia size (.corner gather idx))

/-- The enabled bits of an unexpired copy of a line are updated by a store of the core (R83, R91, R263). -/
def updateL1 (s : State) (core ia val mask id : Nat) : State :=
  { s with l1 := modifyAt s.l1 (l1Key core ia) (fun x =>
      if dtCore s core < x.expiry then
        let k := 256 ^ (ia % 128)
        { x with data := x.data - (x.data &&& (mask * k)) + (val &&& mask) * k, own := x.own ++ [id] }
      else x) }

/-- A store of a lane or of the sequencer (R263): L1 at issue, then the hoop. A store of no bits goes nowhere. -/
def sendStore (x : Access) (va ia size val mask : Nat) (s : State) : State :=
  if mask = 0 then s
  else sendReq (updateL1 s x.src.core ia val mask s.nextId) (x.req s va ia size (.store val mask))

/-- An atomic or a reduction drops the issuing core's copy of its line (R268, R270). -/
def dropL1 (s : State) (core ia : Nat) : State := { s with l1 := eraseAt s.l1 (l1Key core ia) }

def sendAtom (x : Access) (va ia : Nat) (op : AtomOp) (a b : Word) (reg lane : Nat) (s : State) : State :=
  sendReq (dropL1 s x.src.core ia) (x.req s va ia 4 (.atom op a b reg lane))

def RedOp.size : RedOp → Nat
  | .addx => 8
  | _ => 4

def sendRed (x : Access) (va ia : Nat) (op : RedOp) (a : Dword) (nm : Bool) (s : State) : State :=
  sendReq (dropL1 s x.src.core ia) (x.req s va ia op.size (.red op a nm))

end Sys2Proof.Machine
end

