-- ==== Sys2Proof/Machine/Operands.lean ====
section
/-! DEFINITION. The operand forms of the memory instructions: global addresses and their checks (R260, R264, R382), and scratchpad
windows (R80, R81, R265, R387). -/

namespace Sys2Proof.Machine

abbrev Out := Host.Outcome State Fault Refusal

/-! Global addresses. -/

/-- The vector and uniform registers that an address of base code `n` and offset register `a` reads (R21, R260). -/
def addrV (n a : Nat) : List Nat := if n = 31 then [a, a + 1] else [a]
def addrS (n : Nat) : List Nat := if n = 31 then [] else [2 * n, 2 * n + 1]

/-- X of a lane (R260). -/
def globalAddr (c : Ctx) (n a l : Nat) : Nat :=
  if n = 31 then pair64 (c.v a l) (c.v (a + 1) l) else (c.s64 (2 * n) + (c.v a l).toNat) % 2 ^ 64

/-- E of a sub-byte store: the element number in the offset (R264). -/
def elementNo (c : Ctx) (n a l : Nat) : Nat :=
  if n = 31 then pair64 (c.v a l) (c.v (a + 1) l) else (c.v a l).toNat

/-- Y of a sub-byte store with 2^k elements a byte (R264). -/
def subByteAddr (c : Ctx) (n a k l : Nat) : Nat :=
  if n = 31 then elementNo c n a l / 2 ^ k else (c.s64 (2 * n) + elementNo c n a l / 2 ^ k) % 2 ^ 64

/-- s6:s7 of a misaligned access: Table 30.1 gives the VA or 0 and the spec does not say which (log 18). -/
def misalignedVa (c : Ctx) (va : Nat) : Nat := if Config.freeChoice c.free % 2 = 0 then va else 0

/-- The conditions of one lane's access of `size` bytes at X with the permissions it needs (R382): 0x0C and 0x11. -/
def laneAccess (c : Ctx) (perms size l x : Nat) : List Cond :=
  (match rangeFail c.g.dom.ranges perms x size with
   | some va => [⟨0x0C, l / 4, va⟩]
   | none => []) ++
  (if x % size = 0 then [] else [⟨0x11, l / 4, misalignedVa c x⟩])

/-- The conditions of all active lanes. -/
def accessConds (perms size : Nat) (addr : Ctx → Nat → Nat) (c : Ctx) (_ : State) : List Cond :=
  c.lanes.flatMap (fun l => laneAccess c perms size l (addr c l))

/-- The IA of a checked VA. -/
def iaOf (c : Ctx) (perms va : Nat) : Nat := (rangeIa c.g.dom.ranges perms va).getD 0

/-- What the accesses of a lane carry. -/
def Ctx.access (c : Ctx) (s : State) (l : Nat) : Access :=
  ⟨c.src l, accessLaunch s c.core c.g, (partOfCore s c.core).getD 0, c.g.dom⟩

/-- One access for each active lane, in ascending order. -/
def forLanes (c : Ctx) (f : Nat → State → State) (s : State) : State := c.lanes.foldl (fun s l => f l s) s

/-- The needs of a global access: `data` are the registers it reads besides the address, `dst` those it writes. -/
def globalNeeds (g p n a : Nat) (data dst : List Nat) : Needs :=
  { laneNeeds 4 g p (addrV n a ++ data) dst with ssrc := addrS n, varLat := true }

/-! Scratchpad. -/

/-- The setting of a window that an access performed at `dt` uses (R80): the latest one that is in force. -/
def Window.at (w : Window) (dt : Nat) : Nat × Nat :=
  match w.olds.find? (fun o => decide (dt < o.2.2)) with
  | .some o => (o.1, o.2.1)
  | .none => (w.base, w.extent)

def windowAt (s : State) (g : Group) (n dt : Nat) : Nat × Nat :=
  match blockOf s g with
  | some b => (getAt Window.none b.windows n).at dt
  | none => (0, 0)

/-- The granules of 512 bytes that a range of the allocation touches (R81). -/
def granulesOf (off len : Nat) : List Nat :=
  if len = 0 then [] else (List.range ((off + len - 1) / 512 - off / 512 + 1)).map (fun i => off / 512 + i)

/-- A granule of the range is owned by an engine. -/
def engineOwned (b : Block) (off len : Nat) : Bool := (granulesOf off len).any (fun k => getAt false b.engine k)

/-- A 4-byte word of the range is poisoned (R394). -/
def scratchPoisoned (b : Block) (off len : Nat) : Bool :=
  (List.range ((off + len - 1) / 4 - off / 4 + 1)).any (fun i => getAt false b.poison (off / 4 + i))

/-- The words that a range of the scratchpad covers whole. -/
def wholeWords (off len : Nat) : List Nat := (List.range ((off + len) / 4 - (off + 3) / 4)).map (fun i => (off + 3) / 4 + i)

/-- The scratchpad written from an offset; the words covered lose their poison. -/
def Block.writeScratch (b : Block) (off : Nat) (bs : List Byte) : Block :=
  { b with
    scratch := writeBytes b.scratch off bs
    poison := (wholeWords off bs.length).foldl (fun m k => putAt false m k false) b.poison }

/-- Words of the scratchpad marked poisoned. -/
def Block.poisonWords (b : Block) (words : List Nat) : Block :=
  { b with poison := words.foldl (fun m w => putAt false m w true) b.poison }

/-- The conditions of a lane's scratchpad access at an offset of a window (R387, R388): 0x0D outside the window, 0x0E on an engine's
granule under DBGCTL.OWNTRAP, 0x11 misaligned. -/
def laneScratch (c : Ctx) (s : State) (n size l off : Nat) : List Cond :=
  let (base, extent) := windowAt s c.g n c.dt
  (if off + size ≤ extent then [] else [⟨0x0D, l / 4, 0⟩]) ++
  (match blockOf s c.g with
   | some b => if (coreAt s c.core).ownTrap && engineOwned b (base + off) size then [⟨0x0E, l / 4, 0⟩] else []
   | none => []) ++
  (if off % size = 0 then [] else [⟨0x11, l / 4, 0⟩])

/-- A lane's scratchpad access waits for an engine's granule (R81). -/
def scratchWaits (n size a : Nat) (c : Ctx) (s : State) : Bool :=
  let (base, _) := windowAt s c.g n c.dt
  match blockOf s c.g with
  | some b => c.lanes.any (fun l => engineOwned b (base + (c.v a l).toNat) size)
  | none => false

end Sys2Proof.Machine
end

