-- ==== Sys2Proof/Machine/Integer.lean ====
section
/-! DEFINITION. The integer, logic, bit-field and uniform instructions (R229 to R241) and their compact forms (R214, R215). -/

namespace Sys2Proof.Machine

/-- `IADD` (R230). -/
def execIadd (g : Fin 4) (p : Fin 8) (d a b : Fin 64) (s : State) : Out :=
  intOp2 4 g p d a b (· + ·) s

/-- `ISUB` (R230). -/
def execIsub (g : Fin 4) (p : Fin 8) (d a b : Fin 64) (s : State) : Out :=
  intOp2 4 g p d a b (· - ·) s

/-- `IMUL` (R230). -/
def execImul (g : Fin 4) (p : Fin 8) (d a b : Fin 64) (s : State) : Out :=
  intOp2 4 g p d a b (· * ·) s

/-- `IMULHS` (R230). -/
def execImulhs (g : Fin 4) (p : Fin 8) (d a b : Fin 64) (s : State) : Out :=
  intOp2 4 g p d a b Alu.mulHighS s

/-- `IMULHU` (R230). -/
def execImulhu (g : Fin 4) (p : Fin 8) (d a b : Fin 64) (s : State) : Out :=
  intOp2 4 g p d a b Alu.mulHighU s

/-- `IMIN` (R230). -/
def execImin (g : Fin 4) (p : Fin 8) (d a b : Fin 64) (s : State) : Out :=
  intOp2 4 g p d a b Alu.minS s

/-- `IMAX` (R230). -/
def execImax (g : Fin 4) (p : Fin 8) (d a b : Fin 64) (s : State) : Out :=
  intOp2 4 g p d a b Alu.maxS s

/-- `UMIN` (R230). -/
def execUmin (g : Fin 4) (p : Fin 8) (d a b : Fin 64) (s : State) : Out :=
  intOp2 4 g p d a b Alu.minU s

/-- `UMAX` (R231). -/
def execUmax (g : Fin 4) (p : Fin 8) (d a b : Fin 64) (s : State) : Out :=
  intOp2 4 g p d a b Alu.maxU s

/-- `IADDS` (R231). -/
def execIadds (g : Fin 4) (p : Fin 8) (d a b : Fin 64) (s : State) : Out :=
  intOp2 4 g p d a b Alu.addSat s

/-- `ISUBS` (R231). -/
def execIsubs (g : Fin 4) (p : Fin 8) (d a b : Fin 64) (s : State) : Out :=
  intOp2 4 g p d a b Alu.subSat s

/-- `IABS` (R231). -/
def execIabs (g : Fin 4) (p : Fin 8) (d a : Fin 64) (s : State) : Out :=
  intOp1 4 g p d a Alu.absSat s

/-- `INEG` (R231). -/
def execIneg (g : Fin 4) (p : Fin 8) (d a : Fin 64) (s : State) : Out :=
  intOp1 4 g p d a (fun x => -x) s

/-- `POPC` (R231). -/
def execPopc (g : Fin 4) (p : Fin 8) (d a : Fin 64) (s : State) : Out :=
  intOp1 4 g p d a Alu.popc s

/-- `CLZ` (R231). -/
def execClz (g : Fin 4) (p : Fin 8) (d a : Fin 64) (s : State) : Out :=
  intOp1 4 g p d a Alu.clz s

/-- `BREV` (R231). -/
def execBrev (g : Fin 4) (p : Fin 8) (d a : Fin 64) (s : State) : Out :=
  intOp1 4 g p d a Alu.brev s

/-- `AND` (R232). -/
def execAnd (g : Fin 4) (p : Fin 8) (d a b : Fin 64) (s : State) : Out :=
  intOp2 4 g p d a b (· &&& ·) s

/-- `OR` (R232). -/
def execOr (g : Fin 4) (p : Fin 8) (d a b : Fin 64) (s : State) : Out :=
  intOp2 4 g p d a b (· ||| ·) s

/-- `XOR` (R232). -/
def execXor (g : Fin 4) (p : Fin 8) (d a b : Fin 64) (s : State) : Out :=
  intOp2 4 g p d a b (· ^^^ ·) s

/-- `ANDN` (R232). -/
def execAndn (g : Fin 4) (p : Fin 8) (d a b : Fin 64) (s : State) : Out :=
  intOp2 4 g p d a b (fun x y => x &&& ~~~y) s

/-- `SHL` (R232). -/
def execShl (g : Fin 4) (p : Fin 8) (d a b : Fin 64) (s : State) : Out :=
  intOp2 4 g p d a b Alu.shl s

/-- `SHR` (R232). -/
def execShr (g : Fin 4) (p : Fin 8) (d a b : Fin 64) (s : State) : Out :=
  intOp2 4 g p d a b Alu.shr s

/-- `SAR` (R232). -/
def execSar (g : Fin 4) (p : Fin 8) (d a b : Fin 64) (s : State) : Out :=
  intOp2 4 g p d a b Alu.sar s

/-- `ROT` (R232). -/
def execRot (g : Fin 4) (p : Fin 8) (d a b : Fin 64) (s : State) : Out :=
  intOp2 4 g p d a b Alu.rot s

/-- `BFE` (R233). -/
def execBfe (g : Fin 4) (p : Fin 8) (d a b : Fin 64) (s : State) : Out :=
  intOp2 4 g p d a b Alu.bfe s

/-- `BFES` (R233). -/
def execBfes (g : Fin 4) (p : Fin 8) (d a b : Fin 64) (s : State) : Out :=
  intOp2 4 g p d a b Alu.bfes s

/-- `LEA4` (R235). -/
def execLea4 (g : Fin 4) (p : Fin 8) (d a b : Fin 64) (s : State) : Out :=
  intOp2 4 g p d a b (fun x y => x + 4 * y) s

/-- `LEA8` (R235). -/
def execLea8 (g : Fin 4) (p : Fin 8) (d a b : Fin 64) (s : State) : Out :=
  intOp2 4 g p d a b (fun x y => x + 8 * y) s

/-- `BFI` (R233). -/
def execBfi (g : Fin 4) (p : Fin 8) (d a b : Fin 64) (s : State) : Out :=
  intOp3 4 g p d a b Alu.bfi s

/-- `BMIX` (R234). -/
def execBmix (g : Fin 4) (p : Fin 8) (d a b : Fin 64) (s : State) : Out :=
  intOp3 4 g p d a b Alu.bmix s

/-- `SEL` (R235): the guard chooses the source, and every lane of the gang that has not exited and is in its strand's active mask takes
part. -/
def execSel (g : Fin 4) (p : Fin 8) (d a b : Fin 64) (s : State) : Out :=
  issueRegs { len := 4, gap := g, guard := none, vsrc := [a, b], vdst := [d], psrc := [p] }
    (fun c gr => gr.writeV c.dt 2 d (c.tag a) c.act (fun l => if c.p p l then c.v a l else c.v b l)) s

/-- `MOV` (R235). -/
def execMov (g : Fin 4) (p : Fin 8) (d a : Fin 64) (s : State) : Out :=
  moveOp 4 g p d a s

/-- `ISETP_EQ` (R236). -/
def execIsetpEq (g : Fin 4) (p x k : Fin 8) (a b : Fin 64) (s : State) : Out :=
  intCompare g p x k a b Alu.eq s

/-- `ISETP_NE` (R236). -/
def execIsetpNe (g : Fin 4) (p x k : Fin 8) (a b : Fin 64) (s : State) : Out :=
  intCompare g p x k a b Alu.ne s

/-- `ISETP_LT` (R236). -/
def execIsetpLt (g : Fin 4) (p x k : Fin 8) (a b : Fin 64) (s : State) : Out :=
  intCompare g p x k a b Alu.lt s

/-- `ISETP_LE` (R236). -/
def execIsetpLe (g : Fin 4) (p x k : Fin 8) (a b : Fin 64) (s : State) : Out :=
  intCompare g p x k a b Alu.le s

/-- `ISETP_GT` (R236). -/
def execIsetpGt (g : Fin 4) (p x k : Fin 8) (a b : Fin 64) (s : State) : Out :=
  intCompare g p x k a b Alu.gt s

/-- `ISETP_GE` (R236). -/
def execIsetpGe (g : Fin 4) (p x k : Fin 8) (a b : Fin 64) (s : State) : Out :=
  intCompare g p x k a b Alu.ge s

/-- `ISETP_ULT` (R236). -/
def execIsetpUlt (g : Fin 4) (p x k : Fin 8) (a b : Fin 64) (s : State) : Out :=
  intCompare g p x k a b Alu.ult s

/-- `ISETP_ULE` (R236). -/
def execIsetpUle (g : Fin 4) (p x k : Fin 8) (a b : Fin 64) (s : State) : Out :=
  intCompare g p x k a b Alu.ule s

/-- `MOVI` (R237): every lane active under guard 0. -/
def execMovi (d : Fin 64) (i : Fin 1048576) (s : State) : Out :=
  issueRegs (laneNeeds 4 0 0 [] [d]) (fun c gr => gr.writeV c.dt 2 d tagI32 c.act (fun _ => Alu.imm20 i)) s

/-- `SADD` (R239). -/
def execSadd (g q : Fin 4) (d a b : Fin 64) (s : State) : Out :=
  uniOp2 4 g q d a b (· + ·) s

/-- `SSUB` (R239). -/
def execSsub (g q : Fin 4) (d a b : Fin 64) (s : State) : Out :=
  uniOp2 4 g q d a b (· - ·) s

/-- `SMUL` (R239). -/
def execSmul (g q : Fin 4) (d a b : Fin 64) (s : State) : Out :=
  uniOp2 4 g q d a b (· * ·) s

/-- `SMULHI` (R239). -/
def execSmulhi (g q : Fin 4) (d a b : Fin 64) (s : State) : Out :=
  uniOp2 4 g q d a b Alu.mulHighS s

/-- `SAND` (R239). -/
def execSand (g q : Fin 4) (d a b : Fin 64) (s : State) : Out :=
  uniOp2 4 g q d a b (· &&& ·) s

/-- `SOR` (R239). -/
def execSor (g q : Fin 4) (d a b : Fin 64) (s : State) : Out :=
  uniOp2 4 g q d a b (· ||| ·) s

/-- `SXOR` (R239). -/
def execSxor (g q : Fin 4) (d a b : Fin 64) (s : State) : Out :=
  uniOp2 4 g q d a b (· ^^^ ·) s

/-- `SSHL` (R239). -/
def execSshl (g q : Fin 4) (d a b : Fin 64) (s : State) : Out :=
  uniOp2 4 g q d a b Alu.shl s

/-- `SSHR` (R239). -/
def execSshr (g q : Fin 4) (d a b : Fin 64) (s : State) : Out :=
  uniOp2 4 g q d a b Alu.shr s

/-- `SSAR` (R239). -/
def execSsar (g q : Fin 4) (d a b : Fin 64) (s : State) : Out :=
  uniOp2 4 g q d a b Alu.sar s

/-- `SMIN` (R239). -/
def execSmin (g q : Fin 4) (d a b : Fin 64) (s : State) : Out :=
  uniOp2 4 g q d a b Alu.minS s

/-- `SMAX` (R239). -/
def execSmax (g q : Fin 4) (d a b : Fin 64) (s : State) : Out :=
  uniOp2 4 g q d a b Alu.maxS s

/-- `SMOV` (R239). -/
def execSmov (g q : Fin 4) (d a : Fin 64) (s : State) : Out :=
  uniOp1 4 g q d a id s

/-- `SSETP_EQ` (R239, R222). -/
def execSsetpEq (g q x : Fin 4) (k : Fin 8) (a b : Fin 64) (s : State) : Out :=
  uniCompare g q x k a b Alu.eq s

/-- `SSETP_LT` (R239, R222). -/
def execSsetpLt (g q x : Fin 4) (k : Fin 8) (a b : Fin 64) (s : State) : Out :=
  uniCompare g q x k a b Alu.lt s

/-- `SSETP_ULT` (R239, R222). -/
def execSsetpUlt (g q x : Fin 4) (k : Fin 8) (a b : Fin 64) (s : State) : Out :=
  uniCompare g q x k a b Alu.ult s

/-- `SMOVI` (R240): written once, unguarded. -/
def execSmovi (d : Fin 64) (i : Fin 1048576) (s : State) : Out :=
  issueRegs (uniformNeeds 4 0 0 [] [d]) (fun c gr => gr.writeS c.dt 2 d (Alu.imm20 i)) s

/-! Compact forms: guard 0, gap 0, two bytes (R214, R215). -/

/-- `COMPACT_MOV` (R214). -/
def execCompactMov (d sl : Fin 32) (s : State) : Out :=
  moveOp 2 0 0 d sl s

/-- `COMPACT_IADD` (R214). -/
def execCompactIadd (d sl : Fin 32) (s : State) : Out :=
  intOp2 2 0 0 d d sl (· + ·) s

/-- `COMPACT_ISUB` (R214). -/
def execCompactIsub (d sl : Fin 32) (s : State) : Out :=
  intOp2 2 0 0 d d sl (· - ·) s

/-- `COMPACT_IMUL` (R214). -/
def execCompactImul (d sl : Fin 32) (s : State) : Out :=
  intOp2 2 0 0 d d sl (· * ·) s

/-- `COMPACT_AND` (R214). -/
def execCompactAnd (d sl : Fin 32) (s : State) : Out :=
  intOp2 2 0 0 d d sl (· &&& ·) s

/-- `COMPACT_OR` (R214). -/
def execCompactOr (d sl : Fin 32) (s : State) : Out :=
  intOp2 2 0 0 d d sl (· ||| ·) s

/-- `COMPACT_XOR` (R214). -/
def execCompactXor (d sl : Fin 32) (s : State) : Out :=
  intOp2 2 0 0 d d sl (· ^^^ ·) s

/-- `COMPACT_SHL` (R214). -/
def execCompactShl (d sl : Fin 32) (s : State) : Out :=
  intOp2 2 0 0 d d sl Alu.shl s

/-- `COMPACT_SHR` (R214). -/
def execCompactShr (d sl : Fin 32) (s : State) : Out :=
  intOp2 2 0 0 d d sl Alu.shr s

/-- `COMPACT_SAR` (R214). -/
def execCompactSar (d sl : Fin 32) (s : State) : Out :=
  intOp2 2 0 0 d d sl Alu.sar s

/-- `SADD_S` (R215). -/
def execSaddS (d sl : Fin 32) (s : State) : Out :=
  uniOp2 2 0 0 d d sl (· + ·) s

/-- `SMOV_S` (R215). -/
def execSmovS (d sl : Fin 32) (s : State) : Out :=
  uniOp1 2 0 0 d sl id s

end Sys2Proof.Machine
end

