-- ==== Sys2Proof/Machine/Floating.lean ====
section
/-! DEFINITION. The floating-point, function-unit, conversion and packed instructions (R242 to R258). -/

namespace Sys2Proof.Machine

/-! Binary32 operations on words with their flags. -/

def faddW (rm : RoundMode) (a b : Word) : Word × Flags := word32 (fp32.add rm (f32 a) (f32 b))
def fsubW (rm : RoundMode) (a b : Word) : Word × Flags := word32 (fp32.add rm (f32 a) (f32 b).neg)
def fmulW (rm : RoundMode) (a b : Word) : Word × Flags := word32 (fp32.mul rm (f32 a) (f32 b))
def ffmaW (rm : RoundMode) (a b x : Word) : Word × Flags := word32 (fp32.fma rm (f32 a) (f32 b) (f32 x))

/-- minimumNumber and maximumNumber (R243). -/
def fminmaxW (max : Bool) (a b : Word) : Word × Flags :=
  let (v, fl) := Fp.minMax max (f32 a) (f32 b)
  (bits32 (fp32.code v), fl)

/-- A sign-bit operation: a NaN A gives the canonical NaN, and NV where it signals (R244). -/
def signOp (f : Word → Word) (a : Word) : Word × Flags :=
  if (f32 a).isNan then (0x7FC00000, if (f32 a).isSnan then flagNV else 0) else (f a, 0)

/-- The conditions of `fsetp` (Table of R245). -/
def nvSignalling (a b : Word) : Flags := if (f32 a).isSnan || (f32 b).isSnan then flagNV else 0
def nvAnyNan (a b : Word) : Flags := if (f32 a).isNan || (f32 b).isNan then flagNV else 0
def unordered (a b : Word) : Bool := (f32 a).isNan || (f32 b).isNan
def fpEq (a b : Word) : Bool × Flags := (!unordered a b && decide ((f32 a).cmp (f32 b) = 0), nvSignalling a b)
def fpNe (a b : Word) : Bool × Flags := (unordered a b || decide ((f32 a).cmp (f32 b) ≠ 0), nvSignalling a b)
def fpLt (a b : Word) : Bool × Flags := (!unordered a b && decide ((f32 a).cmp (f32 b) < 0), nvAnyNan a b)
def fpLe (a b : Word) : Bool × Flags := (!unordered a b && decide ((f32 a).cmp (f32 b) ≤ 0), nvAnyNan a b)
def fpGt (a b : Word) : Bool × Flags := (!unordered a b && decide ((f32 a).cmp (f32 b) > 0), nvAnyNan a b)
def fpGe (a b : Word) : Bool × Flags := (!unordered a b && decide ((f32 a).cmp (f32 b) ≥ 0), nvAnyNan a b)
def fpUn (a b : Word) : Bool × Flags := (unordered a b, nvSignalling a b)

/-- The one-hot class of a value (R246). -/
def fclassW (a : Word) : Word :=
  match f32 a with
  | .nan true => 0x100
  | .nan false => 0x200
  | .inf s => if s then 0x001 else 0x080
  | .num s m e =>
    if m = 0 then (if s then 0x008 else 0x010)
    else if fp32.tiny m e then (if s then 0x004 else 0x020)
    else (if s then 0x002 else 0x040)

/-! Conversions (R250 to R254). -/

/-- NFV's fields (Table 4.3). -/
def Ctx.nfvB8 (c : Ctx) : Nat := c.g.nfv.toNat % 64
def Ctx.nfvF6 (c : Ctx) : Nat := if flagOf c.g.nfv 8 then 0x0F else 0x0E
def Ctx.sat (c : Ctx) : Bool := flagOf c.g.nfv 9

/-- The tag of a conversion's result (Table 17.3). -/
def destTag (f : Nat) : Nat :=
  if f = 0x00 ∨ f = 0x06 then tagI32
  else if f = 0x01 then tagUI32
  else if f = 0x02 then tagFP32
  else if f = 0x03 then tagBF16
  else if f = 0x04 then tagFP16
  else if f = 0x05 then tagI16
  else if f = 0x07 then tagI8
  else if f = 0x08 then tagUI8
  else if f = 0x09 then tagI4
  else if f = 0x0D then tagE8M0
  else if f = 0x0E ∨ f = 0x0F then tagF6
  else if f = 0x10 then tagF4
  else tagB8

/-- A binary8 or FP6 destination that NFV does not name is a tag mismatch (R250). -/
def variantConds (f : Nat) (c : Ctx) : List Cond :=
  if (0x20 ≤ f ∧ f ≠ c.nfvB8) ∨ ((f = 0x0E ∨ f = 0x0F) ∧ f ≠ c.nfvF6) then [⟨0x07, c.low, 0⟩] else []

/-- A value converted to a destination code, in element 0 with zeros above (Table 17.3). -/
def convertW (f : Nat) (c : Ctx) (integer : Bool) (x : Fp) : Word × Flags :=
  let (w, fl) := convertTo f c.rm c.sat integer x
  (BitVec.ofNat 32 w, fl)

/-- A conversion of one value whose source the tag of a, or `src`, names (R250, R251). -/
def convertOp (g p d a f : Nat) (tags : List (Nat × List Nat)) (src : Ctx → Nat) : State → Out :=
  issue { laneNeeds 4 g p [a] [d] with tags := tags } (fun c _ => variantConds f c) noWait
    (fun c s => finish c 4 (fpWrite c d (destTag f)
      (fun l => convertW f c (decide (src c ≠ 0x02)) (valueOf (src c) (c.v a l).toNat))) s)

/-- Element `i` of `w` bits of a word. -/
def elemOf (w i : Nat) (x : Word) : Nat := x.toNat / 2 ^ (w * i) % 2 ^ w

/-- How a tag widens (Table 17.4): the element width, the source format code, the result's element width, format code and tag. -/
structure Widening where
  w   : Nat
  src : Nat
  rw  : Nat
  dst : Nat
  tag : Nat
deriving DecidableEq, Repr

def widening (c : Ctx) (tag : Nat) : Option Widening :=
  match tag with
  | 3 => some ⟨16, 0x03, 32, 0x02, tagFP32⟩
  | 4 => some ⟨16, 0x04, 32, 0x02, tagFP32⟩
  | 5 => some ⟨16, 0x05, 32, 0x00, tagI32⟩
  | 6 => some ⟨8, c.nfvB8, 16, 0x03, tagBF16⟩
  | 9 => some ⟨8, c.nfvF6, 16, 0x03, tagBF16⟩
  | 12 => some ⟨8, 0x0D, 16, 0x03, tagBF16⟩
  | 7 => some ⟨8, 0x07, 16, 0x05, tagI16⟩
  | 8 => some ⟨8, 0x08, 16, 0x05, tagI16⟩
  | 10 => some ⟨4, 0x10, 8, c.nfvF6, tagF6⟩
  | 11 => some ⟨4, 0x09, 8, 0x07, tagI8⟩
  | _ => none

/-- An element code as its format reads it: an FP6 code is the low six bits of its container (R65). -/
def elemCode (fmt x : Nat) : Nat := if fmt = 0x0E ∨ fmt = 0x0F then x % 64 else x

/-- The widened half of a packed word, with NV on a signalling NaN (R253). -/
def widenW (k : Widening) (hi : Bool) (x : Word) : Word × Flags :=
  let n := 32 / k.rw
  (List.range n).foldl (fun acc i =>
    let v := valueOf k.src (elemCode k.src (elemOf k.w (i + if hi then n else 0) x))
    let (r, fl) := convertTo k.dst .rne false (k.src == 0x05 || k.src == 0x07 || k.src == 0x08 || k.src == 0x09) v
    (acc.1 ||| BitVec.ofNat 32 (r * 2 ^ (k.rw * i)), acc.2 ||| fl)) ((0 : Word), (0 : Flags))

def packedTags : List Nat := [3, 4, 5, 6, 7, 8, 9, 10, 11, 12]

/-- `unpk.lo` and `unpk.hi` (R253). -/
def unpackOp (g p d a : Nat) (hi : Bool) : State → Out :=
  issueRegs { laneNeeds 4 g p [a] [d] with tags := [(a, packedTags)] }
    (fun c gr =>
      match widening c (c.tag a) with
      | some k => fpWrite c d k.tag (fun l => widenW k hi (c.v a l)) gr
      | none => gr)

/-- n of `scl`, held to a range beyond which every scaled binary32 value overflows or underflows alike (R254). -/
def sclCount (b : Word) : Int := max (-1000) (min 1000 b.toInt)

def sclW (rm : RoundMode) (a b : Word) : Word × Flags := word32 (fp32.pack rm ((f32 a).scale (sclCount b)))

/-! Packed arithmetic (R255 to R257). -/

def halfTags : List Nat := [3, 4]

/-- The format of a packed 16-bit tag. -/
def halfFormat (tag : Nat) : FpFormat := if tag = tagFP16 then fp16 else bf16

/-- Registers that must carry one and the same of the tags accepted. -/
def sameTag (rs : List Nat) (c : Ctx) (_ : State) : List Cond :=
  match rs with
  | [] => []
  | r :: t => if t.all (fun x => c.tag x == c.tag r) then [] else [⟨0x07, c.low, 0⟩]

/-- Both halves of a word under an operation on the elements. -/
def halves (fm : FpFormat) (f : Fp → Fp → Fp → Nat × Flags) (a b d : Word) : Word × Flags :=
  let el (i : Nat) : Nat × Flags :=
    f (fm.decode (elemOf 16 i a)) (fm.decode (elemOf 16 i b)) (fm.decode (elemOf 16 i d))
  (BitVec.ofNat 32 ((el 0).1 + (el 1).1 * 2 ^ 16), (el 0).2 ||| (el 1).2)

/-- A packed operation on 16-bit elements (R255); `old` says that d is a source too. -/
def halfOp (g p d a b : Nat) (old : Bool) (f : FpFormat → RoundMode → Fp → Fp → Fp → Nat × Flags) : State → Out :=
  let src := if old then [a, b, d] else [a, b]
  issue { laneNeeds 4 g p src [d] with tags := src.map (fun r => (r, halfTags)) } (sameTag src) noWait
    (fun c s => finish c 4 (fpWrite c d (c.tag a)
      (fun l =>
        let fm := halfFormat (c.tag a)
        halves fm (f fm c.rm) (c.v a l) (c.v b l) (if old then c.v d l else 0))) s)

def halfMinMax (max : Bool) (fm : FpFormat) (_ : RoundMode) (x y _z : Fp) : Nat × Flags :=
  let (v, fl) := Fp.minMax max x y
  (fm.code v, fl)

/-- `dot2` (R256). -/
def dot2W (fm : FpFormat) (a b d : Word) : Word × Flags :=
  let el (w : Word) (i : Nat) : Fp := fm.decode (elemOf 16 i w)
  word32 (fp32.sumProducts .rne [(el a 0, el b 0), (el a 1, el b 1)] [f32 d])

/-- The format code of a float element of `dot4`. -/
def dotFormat (c : Ctx) (tag : Nat) : Nat := if tag = tagB8 then c.nfvB8 else c.nfvF6

def dot4FloatW (fa fb : Nat) (a b d : Word) : Word × Flags :=
  let el (f : Nat) (w : Word) (i : Nat) : Fp := valueOf f (elemCode f (elemOf 8 i w))
  word32 (fp32.sumProducts .rne ((List.range 4).map (fun i => (el fa a i, el fb b i))) [f32 d])

/-- An integer element of `dot4`: I8 or UI8. -/
def dotInt (tag : Nat) (w : Word) (i : Nat) : Int := if tag = tagI8 then signed 8 (elemOf 8 i w) else (elemOf 8 i w : Int)

def dot4IntW (ta tb : Nat) (a b d : Word) : Word :=
  Alu.sat32 ((List.range 4).foldl (fun (x : Int) i => x + dotInt ta a i * dotInt tb b i) d.toInt)

def isIntTag (t : Nat) : Bool := t == tagI8 || t == tagUI8

/-- A float and an integer operand together, or a float form with a d that is neither I32 nor FP32, is a tag mismatch (R256). -/
def dot4Conds (a b d : Nat) (c : Ctx) (_ : State) : List Cond :=
  let fa := isIntTag (c.tag a)
  if fa != isIntTag (c.tag b) || (!fa && !fpTags.contains (c.tag d)) then [⟨0x07, c.low, 0⟩] else []

/-- The element width under a tag (R257). -/
def tagWidth (t : Nat) : Nat := if t = 3 ∨ t = 4 ∨ t = 5 then 16 else if t = 10 ∨ t = 11 then 4 else 8

def packW (w : Nat) (a b d : Word) : Word :=
  BitVec.ofNat 32 (d.toNat * 2 ^ (2 * w) + elemOf w 0 b * 2 ^ w + elemOf w 0 a)

/-- A one-source operation of the function unit: variable latency, flags when the results land (R249). -/
def funcOp (g p d a : Nat) (f : Word → Word × Flags) : State → Out :=
  issue { fpNeeds 4 g p [a] [d] with varLat := true } noConds noWait
    (fun c s => retire c 4 (sendUnit c [(d, tagFP32)] (fun _ l => (f (c.v a l)).1) true (laneFlags c (fun l => (f (c.v a l)).2)) s))

/-- `FADD` (R243). -/
def execFadd (g : Fin 4) (p : Fin 8) (d a b : Fin 64) (s : State) : Out :=
  fpOp2 4 g p d a b faddW s

/-- `FSUB` (R243). -/
def execFsub (g : Fin 4) (p : Fin 8) (d a b : Fin 64) (s : State) : Out :=
  fpOp2 4 g p d a b fsubW s

/-- `FMUL` (R243). -/
def execFmul (g : Fin 4) (p : Fin 8) (d a b : Fin 64) (s : State) : Out :=
  fpOp2 4 g p d a b fmulW s

/-- `FMIN` (R243). -/
def execFmin (g : Fin 4) (p : Fin 8) (d a b : Fin 64) (s : State) : Out :=
  fpOp2 4 g p d a b (fun _ => fminmaxW false) s

/-- `FMAX` (R243). -/
def execFmax (g : Fin 4) (p : Fin 8) (d a b : Fin 64) (s : State) : Out :=
  fpOp2 4 g p d a b (fun _ => fminmaxW true) s

/-- `FABS` (R244). -/
def execFabs (g : Fin 4) (p : Fin 8) (d a : Fin 64) (s : State) : Out :=
  fpOp1 4 g p d a (fun _ => signOp (fun x => x &&& 0x7FFFFFFF)) s

/-- `FNEG` (R244). -/
def execFneg (g : Fin 4) (p : Fin 8) (d a : Fin 64) (s : State) : Out :=
  fpOp1 4 g p d a (fun _ => signOp (fun x => x ^^^ 0x80000000)) s

/-- `FCPYS` (R244). -/
def execFcpys (g : Fin 4) (p : Fin 8) (d a b : Fin 64) (s : State) : Out :=
  fpOp2 4 g p d a b (fun _ x y => signOp (fun x => (x &&& 0x7FFFFFFF) ||| (y &&& 0x80000000)) x) s

/-- `FSETP_EQ` (R245). -/
def execFsetpEq (g : Fin 4) (p x k : Fin 8) (a b : Fin 64) (s : State) : Out :=
  fpCompare g p x k a b fpEq s

/-- `FSETP_NE` (R245). -/
def execFsetpNe (g : Fin 4) (p x k : Fin 8) (a b : Fin 64) (s : State) : Out :=
  fpCompare g p x k a b fpNe s

/-- `FSETP_LT` (R245). -/
def execFsetpLt (g : Fin 4) (p x k : Fin 8) (a b : Fin 64) (s : State) : Out :=
  fpCompare g p x k a b fpLt s

/-- `FSETP_LE` (R245). -/
def execFsetpLe (g : Fin 4) (p x k : Fin 8) (a b : Fin 64) (s : State) : Out :=
  fpCompare g p x k a b fpLe s

/-- `FSETP_GT` (R245). -/
def execFsetpGt (g : Fin 4) (p x k : Fin 8) (a b : Fin 64) (s : State) : Out :=
  fpCompare g p x k a b fpGt s

/-- `FSETP_GE` (R245). -/
def execFsetpGe (g : Fin 4) (p x k : Fin 8) (a b : Fin 64) (s : State) : Out :=
  fpCompare g p x k a b fpGe s

/-- `FSETP_UN` (R245). -/
def execFsetpUn (g : Fin 4) (p x k : Fin 8) (a b : Fin 64) (s : State) : Out :=
  fpCompare g p x k a b fpUn s

/-- `FCLASS` (R246): an I32 result with L = 4. -/
def execFclass (g : Fin 4) (p : Fin 8) (d a : Fin 64) (s : State) : Out :=
  issueRegs (fpNeeds 4 g p [a] [d]) (fun c gr => gr.writeV c.dt 4 d tagI32 c.act (fun l => fclassW (c.v a l))) s

/-- `FFMA` (R247). -/
def execFfma (g : Fin 4) (d a b c : Fin 64) (s : State) : Out :=
  issueRegs (fpNeeds 4 g 0 [a, b, c] [d])
    (fun x gr => fpWrite x d tagFP32 (fun l => ffmaW x.rm (x.v a l) (x.v b l) (x.v c l)) gr) s

/-- `FFMA_L` (R247): the addend is the literal word, and the instruction is 8 bytes long. -/
def execFfmaL (g : Fin 4) (d a b : Fin 64) (lit : Word) (s : State) : Out :=
  issueRegs (fpNeeds 8 g 0 [a, b] [d])
    (fun c gr => fpWrite c d tagFP32 (fun l => ffmaW c.rm (c.v a l) (c.v b l) lit) gr) s

/-- The constant bank of a group's launch (R89). -/
def bankWord (s : State) (g : Group) (off : Nat) : Word :=
  match runOf s g with
  | some r => BitVec.ofNat 32 (readLE r.bank off 4)
  | none => 0

/-- The byte of the bank that a constant-window word names (R25, R247). -/
def windowByte (c : Ctx) (n : Nat) : Nat := c.g.cbwin.toNat / 4 % 2 ^ 14 * 4 + 4 * n

/-- `FFMA_C` (R247): the addend is a word of the constant window; beyond the bank it raises 0x1D (Table 33.1). -/
def execFfmaC (g : Fin 4) (d a b c : Fin 64) (s : State) : Out :=
  issue { fpNeeds 4 g 0 [a, b] [d] with zone := .block }
    (fun x _ => if windowByte x c > 65532 then [⟨0x1D, x.low, 0⟩] else []) noWait
    (fun x s => finish x 4 (fpWrite x d tagFP32
      (fun l => ffmaW x.rm (x.v a l) (x.v b l) (bankWord s x.g (windowByte x c)))) s) s

/-- `MOVF` (R248): a pattern, moved. -/
def execMovf (d : Fin 64) (i : Fin 1048576) (s : State) : Out :=
  issueRegs (laneNeeds 4 0 0 [] [d])
    (fun c gr => gr.writeV c.dt 4 d tagFP32 c.act (fun _ => BitVec.ofNat 32 (i.val * 2 ^ 12))) s

/-- `FRCP` (R249). -/
def execFrcp (g : Fin 4) (p : Fin 8) (d a : Fin 64) (s : State) : Out :=
  funcOp g p d a frcp s

/-- `FRSQ` (R249). -/
def execFrsq (g : Fin 4) (p : Fin 8) (d a : Fin 64) (s : State) : Out :=
  funcOp g p d a frsq s

/-- `FSQRT` (R249). -/
def execFsqrt (g : Fin 4) (p : Fin 8) (d a : Fin 64) (s : State) : Out :=
  funcOp g p d a fsqrt s

/-- `FEX2` (R249). -/
def execFex2 (g : Fin 4) (p : Fin 8) (d a : Fin 64) (s : State) : Out :=
  funcOp g p d a fex2 s

/-- `FLG2` (R249). -/
def execFlg2 (g : Fin 4) (p : Fin 8) (d a : Fin 64) (s : State) : Out :=
  funcOp g p d a flg2 s

/-- `FSINP` (R249). -/
def execFsinp (g : Fin 4) (p : Fin 8) (d a : Fin 64) (s : State) : Out :=
  funcOp g p d a fsinp s

/-- `FCOSP` (R249). -/
def execFcosp (g : Fin 4) (p : Fin 8) (d a : Fin 64) (s : State) : Out :=
  funcOp g p d a fcosp s

/-- `FTANH` (R249). -/
def execFtanh (g : Fin 4) (p : Fin 8) (d a : Fin 64) (s : State) : Out :=
  funcOp g p d a ftanh s

/-- `CVT` (R250): the source format is that of the tag of a. -/
def execCvt (g : Fin 4) (p : Fin 8) (d a f : Fin 64) (s : State) : Out :=
  convertOp g p d a f [(a, [0, 1, 2])] (fun c => c.tag a) s

/-- `F2I` (R251). -/
def execF2i (g : Fin 4) (p : Fin 8) (d a f : Fin 64) (s : State) : Out :=
  convertOp g p d a f [(a, fpTags)] (fun _ => 0x02) s

/-- `I2F` (R251): a signed source of any tag. -/
def execI2f (g : Fin 4) (p : Fin 8) (d a f : Fin 64) (s : State) : Out :=
  convertOp g p d a f [] (fun _ => 0x00) s

/-- `TAGSET` (R252): the active lanes are copied bit for bit, but for the container bits of F6X4 (R65; log 71), and the tag is written for
the whole register. -/
def execTagset (g : Fin 4) (p : Fin 8) (d a t : Fin 64) (s : State) : Out :=
  issueRegs (laneNeeds 4 g p [a] [d]) (fun c gr => gr.writeV c.dt 4 d t c.act (fun l => c.v a l)) s

/-- `TAGGET` (R252): the tag alone is read, without waiting, without a poison or a dead check. -/
def execTagget (g : Fin 4) (p : Fin 8) (d a : Fin 64) (s : State) : Out :=
  issueRegs { laneNeeds 4 g p [] [d] with named := some [a, d] }
    (fun c gr => gr.writeV c.dt 4 d tagI32 c.act (fun _ => BitVec.ofNat 32 (c.tag a))) s

/-- `UNPK_LO` (R253). -/
def execUnpkLo (g : Fin 4) (p : Fin 8) (d a : Fin 64) (s : State) : Out := unpackOp g p d a false s

/-- `UNPK_HI` (R253). -/
def execUnpkHi (g : Fin 4) (p : Fin 8) (d a : Fin 64) (s : State) : Out := unpackOp g p d a true s

/-- `SCL` (R254): B may carry any tag. -/
def execScl (g : Fin 4) (p : Fin 8) (d a b : Fin 64) (s : State) : Out :=
  issueRegs { laneNeeds 4 g p [a, b] [d] with tags := [(a, fpTags)] }
    (fun c gr => fpWrite c d tagFP32 (fun l => sclW c.rm (c.v a l) (c.v b l)) gr) s

/-- `HADD2` (R255). -/
def execHadd2 (g : Fin 4) (p : Fin 8) (d a b : Fin 64) (s : State) : Out :=
  halfOp g p d a b false (fun fm rm x y _ => fm.add rm x y) s

/-- `HMUL2` (R255). -/
def execHmul2 (g : Fin 4) (p : Fin 8) (d a b : Fin 64) (s : State) : Out :=
  halfOp g p d a b false (fun fm rm x y _ => fm.mul rm x y) s

/-- `HFMA2` (R255). -/
def execHfma2 (g : Fin 4) (p : Fin 8) (d a b : Fin 64) (s : State) : Out :=
  halfOp g p d a b true (fun fm rm x y z => fm.fma rm x y z) s

/-- `HMIN2` (R255). -/
def execHmin2 (g : Fin 4) (p : Fin 8) (d a b : Fin 64) (s : State) : Out :=
  halfOp g p d a b false (halfMinMax false) s

/-- `HMAX2` (R255). -/
def execHmax2 (g : Fin 4) (p : Fin 8) (d a b : Fin 64) (s : State) : Out :=
  halfOp g p d a b false (halfMinMax true) s

/-- `DOT2` (R256). -/
def execDot2 (g : Fin 4) (p : Fin 8) (d a b : Fin 64) (s : State) : Out :=
  issue { laneNeeds 4 g p [a, b, d] [d] with tags := [(a, halfTags), (b, halfTags), (d, fpTags)] } (sameTag [a, b]) noWait
    (fun c s => finish c 4 (fpWrite c d tagFP32
      (fun l => dot2W (halfFormat (c.tag a)) (c.v a l) (c.v b l) (c.v d l))) s) s

/-- `DOT4` (R256). -/
def execDot4 (g : Fin 4) (p : Fin 8) (d a b : Fin 64) (s : State) : Out :=
  issue { laneNeeds 4 g p [a, b, d] [d] with tags := [(a, [6, 7, 8, 9]), (b, [6, 7, 8, 9])] } (dot4Conds a b d) noWait
    (fun c s =>
      if isIntTag (c.tag a) then
        finish c 4 (fun gr => gr.writeV c.dt 4 d tagI32 c.act
          (fun l => dot4IntW (c.tag a) (c.tag b) (c.v a l) (c.v b l) (c.v d l))) s
      else
        finish c 4 (fpWrite c d tagFP32 (fun l =>
          dot4FloatW (dotFormat c (c.tag a)) (dotFormat c (c.tag b)) (c.v a l) (c.v b l) (c.v d l))) s) s

/-- `PACK` (R257); the container bits of F6X4 are written as zero (R65). -/
def execPack (g : Fin 4) (p : Fin 8) (d a b : Fin 64) (s : State) : Out :=
  issue { laneNeeds 4 g p [a, b, d] [d] with tags := [(a, packedTags), (b, packedTags)] } (sameTag [a, b]) noWait
    (fun c s => finish c 4 (fun gr => gr.writeV c.dt 4 d (c.tag a) c.act
      (fun l => packW (tagWidth (c.tag a)) (c.v a l) (c.v b l) (c.v d l))) s) s

/-! Compact forms (R214). -/

/-- `COMPACT_FADD` (R214). -/
def execCompactFadd (d sl : Fin 32) (s : State) : Out :=
  fpOp2 2 0 0 d d sl faddW s

/-- `COMPACT_FSUB` (R214). -/
def execCompactFsub (d sl : Fin 32) (s : State) : Out :=
  fpOp2 2 0 0 d d sl fsubW s

/-- `COMPACT_FMUL` (R214). -/
def execCompactFmul (d sl : Fin 32) (s : State) : Out :=
  fpOp2 2 0 0 d d sl fmulW s

/-- `COMPACT_FMIN` (R214). -/
def execCompactFmin (d sl : Fin 32) (s : State) : Out :=
  fpOp2 2 0 0 d d sl (fun _ => fminmaxW false) s

/-- `COMPACT_FMAX` (R214). -/
def execCompactFmax (d sl : Fin 32) (s : State) : Out :=
  fpOp2 2 0 0 d d sl (fun _ => fminmaxW true) s

/-- `COMPACT_FNEG` (R214). -/
def execCompactFneg (d sl : Fin 32) (s : State) : Out :=
  fpOp1 2 0 0 d sl (fun _ => signOp (fun x => x ^^^ 0x80000000)) s

end Sys2Proof.Machine
end

