-- ==== Sys2Proof/Machine/LoadStore.lean ====
section
/-! DEFINITION. Loads, stores, scratchpad accesses, constant-bank loads, window settings, atomics and reductions (R259 to R271). -/

namespace Sys2Proof.Machine

/-! Loads (R261). -/

/-- Consecutive registers from `d`. -/
def regsFrom (d k : Nat) : List Nat := (List.range k).map (fun i => d + i)

/-- The parts of an access of `size` bytes that are single-copy atomic (R115, R261): 64-bit halves of 16 bytes, else the whole. -/
def atomicParts (size : Nat) : List (Nat × Nat) := if size = 16 then [(0, 8), (8, 8)] else [(0, size)]

/-- One lane's load: a read for each atomic part. -/
def loadLane (c : Ctx) (x : Access) (size k d va l : Nat) (ext : LoadExt) (ro : Bool) (s : State) : State :=
  (atomicParts size).foldl (fun s part =>
    sendLoad x (va + part.1) (iaOf c permR va + part.1) part.2
      (if size = 16 then regsFrom (d + part.1 / 4) 2 else regsFrom d k) l (if size = 16 then .half d else ext) ro s) s

/-- `ld`: `size` bytes into `k` registers of each active lane, marked empty with a tag at issue (R261). -/
def loadOp (g p d a n size k tag : Nat) (ext : LoadExt) (ro : Bool) : State → Out :=
  issue (globalNeeds g p n a [] (regsFrom d k)) (accessConds permR size (fun c l => globalAddr c n a l)) noWait
    (fun c s =>
      let s := modifyGroup s c.core c.slot (fun gr => (regsFrom d k).foldl (fun gr r => gr.markV r tag c.act) gr)
      retire c 4 (forLanes c (fun l s => loadLane c (c.access s l) size k d (globalAddr c n a l) l ext ro s) s))

/-! Stores (R262 to R264). -/

/-- The bits a store lane writes: address, size, value and mask. -/
structure StoreLane where
  va   : Nat
  size : Nat
  val  : Nat
  mask : Nat
deriving DecidableEq, Repr

/-- A higher active lane writes the same bits of the same location, so this lane's are not stored (R88). -/
def overwritten (c : Ctx) (f : Nat → StoreLane) (l : Nat) : Bool :=
  c.lanes.any (fun j => decide (l < j) && iaOf c permW (f j).va == iaOf c permW (f l).va && (f j).mask == (f l).mask)

/-- One lane's store: a write for each atomic part. -/
def storeLane (c : Ctx) (x : Access) (w : StoreLane) (s : State) : State :=
  (atomicParts w.size).foldl (fun s part =>
    sendStore x (w.va + part.1) (iaOf c permW w.va + part.1) part.2 (w.val / 256 ^ part.1 % 256 ^ part.2)
      (w.mask / 256 ^ part.1 % 256 ^ part.2) s) s

/-- The stores of all active lanes. -/
def storeLanes (c : Ctx) (f : Nat → StoreLane) (s : State) : State :=
  forLanes c (fun l s => if overwritten c f l then s else storeLane c (c.access s l) (f l) s) s

/-- The value of consecutive registers of a lane, low word first (R47). -/
def regsValue (c : Ctx) (d l : Nat) : Nat → Nat
  | 0 => 0
  | k + 1 => (c.v d l).toNat + 2 ^ 32 * regsValue c (d + 1) l k

/-- `st`: `size` bytes from `k` registers of each active lane. -/
def storeOp (g p d a n size k : Nat) : State → Out :=
  issue (globalNeeds g p n a (regsFrom d k) []) (accessConds permW size (fun c l => globalAddr c n a l)) noWait
    (fun c s => retire c 4 (storeLanes c (fun l => ⟨globalAddr c n a l, size, regsValue c d l k % 256 ^ size, ones size⟩) s))

/-- The lane of a sub-byte store of elements of `w` bits (R264). -/
def subByteLane (c : Ctx) (n a k w l : Nat) (v : Nat) : StoreLane :=
  let e := elementNo c n a l % 2 ^ k
  ⟨subByteAddr c n a k l, 1, v * 2 ^ (w * e), (2 ^ w - 1) * 2 ^ (w * e)⟩

/-- `st.n4` and `st.n2`: one element under sub-byte enables; only its byte is checked. -/
def subByteOp (g p d a n k w : Nat) (tags : List Nat) (v : Ctx → Nat → Nat) : State → Out :=
  issue { globalNeeds g p n a [d] [] with tags := [(d, tags)] } (accessConds permW 1 (fun c l => subByteAddr c n a k l)) noWait
    (fun c s => retire c 4 (storeLanes c (fun l => subByteLane c n a k w l (v c l)) s))

/-! Scratchpad (R265). -/

def scratchNeeds (g p a : Nat) (data dst : List Nat) : Needs :=
  { laneNeeds 4 g p (a :: data) dst with zone := .block, varLat := true }

/-- The offset of a lane's scratchpad access in the block's allocation. -/
def scratchOffset (c : Ctx) (s : State) (n a l : Nat) : Nat := (windowAt s c.g n c.dt).1 + (c.v a l).toNat

def scratchConds (n a size : Nat) (c : Ctx) (s : State) : List Cond :=
  c.lanes.flatMap (fun l => laneScratch c s n size l (c.v a l).toNat)

/-- `lds`: read now (R96), landing later; a lane that touches a poisoned word lands poisoned (R394). -/
def ldsOp (g p d a n size k : Nat) : State → Out :=
  issue (scratchNeeds g p a [] (regsFrom d k)) (scratchConds n a size) (scratchWaits n size a)
    (fun c s =>
      match blockOf s c.g with
      | none => s
      | some b =>
        let s := modifyGroup s c.core c.slot (fun gr => (regsFrom d k).foldl (fun gr r => gr.markV r tagI32 c.act) gr)
        let bad := c.lanes.filter (fun l => scratchPoisoned b (scratchOffset c s n a l) size)
        let good := c.lanes.filter (fun l => !bad.contains l)
        let writes := fun ls : List Nat => ReplyKind.lanes (ls.flatMap (fun l =>
          loadWrites (regsFrom d k) l .word (readLE b.scratch (scratchOffset c s n a l) size))) 0
        let s := if good.isEmpty then s else sendReply s ⟨c.src (good.headD 0), accessLaunch s c.core c.g, writes good, none, none, none⟩
        let s := if bad.isEmpty then s
          else sendReply s ⟨c.src (bad.headD 0), accessLaunch s c.core c.g, writes bad, none, some 0, none⟩
        retire c 4 s)

/-- `sts`: performed now; where lanes write the same bytes, the highest one's stand. -/
def stsOp (g p d a n size k : Nat) : State → Out :=
  issue (scratchNeeds g p a (regsFrom d k) []) (scratchConds n a size) (scratchWaits n size a)
    (fun c s =>
      match c.g.block with
      | none => s
      | some bid =>
        retire c 4 (modifyBlock s bid (fun b =>
          c.lanes.foldl (fun b l => b.writeScratch (scratchOffset c s n a l) (toBytes size (regsValue c d l k))) b)))

/-! Atomics and reductions (R268 to R270). -/

/-- `atom`: an atomic of each active lane at home, its old value returning to d. -/
def atomOp (g p d a n : Nat) (tags : List Nat) (op : Ctx → AtomOp) (two : Bool) : State → Out :=
  issue { globalNeeds g p n a (if two then [d, d + 1] else [d]) [d] with
          closes := true, tags := if tags.isEmpty then [] else [(d, tags)] }
    (accessConds (permA + permR + permW) 4 (fun c l => globalAddr c n a l)) noWait
    (fun c s =>
      let s := modifyGroup s c.core c.slot (fun gr => gr.markV d tagI32 c.act)
      retire c 4 (forLanes c (fun l s =>
        let va := globalAddr c n a l
        sendAtom (c.access s l) va (iaOf c (permA + permR + permW) va) (op c) (c.v d l) (if two then c.v (d + 1) l else 0) d l s) s))

/-- `red`: a reduction of each active lane, at home or, with `.nm`, at the home stack. -/
def redOp (g p d a n : Nat) (nm : Bool) (op : RedOp) (tags : List Nat) : State → Out :=
  let k := if op.size = 8 then 2 else 1
  issue { globalNeeds g p n a (regsFrom d k) [] with closes := true, tags := if tags.isEmpty then [] else [(d, tags)] }
    (accessConds (permA + permW) op.size (fun c l => globalAddr c n a l)) noWait
    (fun c s =>
      retire c 4 (forLanes c (fun l s =>
        let va := globalAddr c n a l
        sendRed (c.access s l) va (iaOf c (permA + permW) va) op (BitVec.ofNat 64 (regsValue c d l k)) nm s) s))

/-- `LD_8Z` (R261). -/
def execLd8z (g : Fin 4) (p : Fin 8) (d a : Fin 64) (n : Fin 32) (r : Bool) (s : State) : Out :=
  loadOp g p d a n 1 1 tagI32 .z8 r s

/-- `LD_8S` (R261). -/
def execLd8s (g : Fin 4) (p : Fin 8) (d a : Fin 64) (n : Fin 32) (r : Bool) (s : State) : Out :=
  loadOp g p d a n 1 1 tagI32 .s8 r s

/-- `LD_16Z` (R261). -/
def execLd16z (g : Fin 4) (p : Fin 8) (d a : Fin 64) (n : Fin 32) (r : Bool) (s : State) : Out :=
  loadOp g p d a n 2 1 tagI32 .z16 r s

/-- `LD_16S` (R261). -/
def execLd16s (g : Fin 4) (p : Fin 8) (d a : Fin 64) (n : Fin 32) (r : Bool) (s : State) : Out :=
  loadOp g p d a n 2 1 tagI32 .s16 r s

/-- `LD_32` (R261). -/
def execLd32 (g : Fin 4) (p : Fin 8) (d a : Fin 64) (n : Fin 32) (r : Bool) (s : State) : Out :=
  loadOp g p d a n 4 1 tagI32 .word r s

/-- `LD_F32` (R261). -/
def execLdF32 (g : Fin 4) (p : Fin 8) (d a : Fin 64) (n : Fin 32) (r : Bool) (s : State) : Out :=
  loadOp g p d a n 4 1 tagFP32 .word r s

/-- `LD_64` (R261). -/
def execLd64 (g : Fin 4) (p : Fin 8) (d a : Fin 64) (n : Fin 32) (r : Bool) (s : State) : Out :=
  loadOp g p d a n 8 2 tagI32 .word r s

/-- `LD_128` (R261). -/
def execLd128 (g : Fin 4) (p : Fin 8) (d a : Fin 64) (n : Fin 32) (r : Bool) (s : State) : Out :=
  loadOp g p d a n 16 4 tagI32 .word r s

/-- `ST_8` (R262). -/
def execSt8 (g : Fin 4) (p : Fin 8) (d a : Fin 64) (n : Fin 32) (s : State) : Out :=
  storeOp g p d a n 1 1 s

/-- `ST_16` (R262). -/
def execSt16 (g : Fin 4) (p : Fin 8) (d a : Fin 64) (n : Fin 32) (s : State) : Out :=
  storeOp g p d a n 2 1 s

/-- `ST_32` (R262). -/
def execSt32 (g : Fin 4) (p : Fin 8) (d a : Fin 64) (n : Fin 32) (s : State) : Out :=
  storeOp g p d a n 4 1 s

/-- `ST_64` (R262). -/
def execSt64 (g : Fin 4) (p : Fin 8) (d a : Fin 64) (n : Fin 32) (s : State) : Out :=
  storeOp g p d a n 8 2 s

/-- `ST_128` (R262). -/
def execSt128 (g : Fin 4) (p : Fin 8) (d a : Fin 64) (n : Fin 32) (s : State) : Out :=
  storeOp g p d a n 16 4 s

/-- `ST_N4` (R264). -/
def execStN4 (g : Fin 4) (p : Fin 8) (d a : Fin 64) (n : Fin 32) (s : State) : Out :=
  subByteOp g p d a n 1 4 [10, 11, 9, 0, 1] (fun c l => (c.v d l).toNat % 16) s

/-- `ST_N2` (R264). -/
def execStN2 (g : Fin 4) (p : Fin 8) (d a : Fin 64) (n : Fin 32) (s : State) : Out :=
  subByteOp g p d a n 2 2 [9, 0, 1]
    (fun c l => if c.tag d = tagF6 then (c.v d l).toNat / 16 % 4 else (c.v d l).toNat % 4) s

/-- `LDS_32` (R265). -/
def execLds32 (g : Fin 4) (p : Fin 8) (d a : Fin 64) (n : Fin 32) (s : State) : Out :=
  ldsOp g p d a n 4 1 s

/-- `LDS_64` (R265). -/
def execLds64 (g : Fin 4) (p : Fin 8) (d a : Fin 64) (n : Fin 32) (s : State) : Out :=
  ldsOp g p d a n 8 2 s

/-- `LDS_128` (R265). -/
def execLds128 (g : Fin 4) (p : Fin 8) (d a : Fin 64) (n : Fin 32) (s : State) : Out :=
  ldsOp g p d a n 16 4 s

/-- `STS_32` (R265). -/
def execSts32 (g : Fin 4) (p : Fin 8) (d a : Fin 64) (n : Fin 32) (s : State) : Out :=
  stsOp g p d a n 4 1 s

/-- `STS_64` (R265). -/
def execSts64 (g : Fin 4) (p : Fin 8) (d a : Fin 64) (n : Fin 32) (s : State) : Out :=
  stsOp g p d a n 8 2 s

/-- `STS_128` (R265). -/
def execSts128 (g : Fin 4) (p : Fin 8) (d a : Fin 64) (n : Fin 32) (s : State) : Out :=
  stsOp g p d a n 16 4 s

/-- The byte of the bank that `ldc` reads (R266). -/
def ldcOffset (c : Ctx) (a n : Nat) : Nat := ((c.s a).toNat + 4 * n) % 2 ^ 32

/-- `LDC` (R266): a word of the constant bank into a uniform register, once per issue. -/
def execLdc (g : Fin 4) (d a : Fin 64) (n : Fin 32) (s : State) : Out :=
  issue { len := 4, gap := g, zone := .block, ssrc := [a], sdst := [d], varLat := true }
    (fun c _ => if ldcOffset c a n % 4 ≠ 0 ∨ ldcOffset c a n > 65532 then [⟨0x1D, c.low, 0⟩] else []) noWait
    (fun c s =>
      let s := modifyGroup s c.core c.slot (fun gr => gr.markS d)
      retire c 4 (sendReply s ⟨c.src (4 * c.low), accessLaunch s c.core c.g, .uniform d (bankWord s c.g (ldcOffset c a n)), none, none,
          none⟩)) s

/-- The new window of `wset` breaks R267. -/
def wsetBad (b : Block) (base extent : Nat) : Bool :=
  base % 16 != 0 || extent % 16 != 0 || extent == 0 || decide (b.scratchSize < base + extent)

/-- A window set at `dt`: accesses performed from dt + 2 use it (R80). -/
def Window.set (w : Window) (dt base extent : Nat) : Window :=
  ⟨base, extent, w.olds.filter (fun o => decide (dt < o.2.2)) ++ [(w.base, w.extent, dt + 2)]⟩

/-- `WSET` (R267). -/
def execWset (g : Fin 4) (w : Fin 16) (n : Fin 32) (s : State) : Out :=
  issue { len := 4, gap := g, zone := .block, ssrc := [2 * n.val, 2 * n.val + 1] }
    (fun c s =>
      match blockOf s c.g with
      | some b => if wsetBad b (c.s (2 * n.val)).toNat (c.s (2 * n.val + 1)).toNat then [⟨0x0D, c.low, 0⟩] else []
      | none => []) noWait
    (fun c s =>
      match c.g.block with
      | none => s
      | some bid => retire c 4 (modifyBlock s bid (fun b =>
          let new := (getAt Window.none b.windows w).set c.dt (c.s (2 * n.val)).toNat (c.s (2 * n.val + 1)).toNat
          { b with windows := putAt Window.none b.windows w new }))) s

/-- `ATOM_ADD` (R269). -/
def execAtomAdd (g : Fin 4) (p : Fin 8) (d a : Fin 64) (n : Fin 32) (s : State) : Out :=
  atomOp g p d a n [] (fun _ => .add) false s

/-- `ATOM_ADDF` (R269). -/
def execAtomAddf (g : Fin 4) (p : Fin 8) (d a : Fin 64) (n : Fin 32) (s : State) : Out :=
  atomOp g p d a n fpTags (fun _ => .addf) false s

/-- `ATOM_MIN` (R269). -/
def execAtomMin (g : Fin 4) (p : Fin 8) (d a : Fin 64) (n : Fin 32) (s : State) : Out :=
  atomOp g p d a n [] (fun _ => .min) false s

/-- `ATOM_MAX` (R269). -/
def execAtomMax (g : Fin 4) (p : Fin 8) (d a : Fin 64) (n : Fin 32) (s : State) : Out :=
  atomOp g p d a n [] (fun _ => .max) false s

/-- `ATOM_UMIN` (R269). -/
def execAtomUmin (g : Fin 4) (p : Fin 8) (d a : Fin 64) (n : Fin 32) (s : State) : Out :=
  atomOp g p d a n [] (fun _ => .umin) false s

/-- `ATOM_UMAX` (R269). -/
def execAtomUmax (g : Fin 4) (p : Fin 8) (d a : Fin 64) (n : Fin 32) (s : State) : Out :=
  atomOp g p d a n [] (fun _ => .umax) false s

/-- `ATOM_AND` (R269). -/
def execAtomAnd (g : Fin 4) (p : Fin 8) (d a : Fin 64) (n : Fin 32) (s : State) : Out :=
  atomOp g p d a n [] (fun _ => .and) false s

/-- `ATOM_OR` (R269). -/
def execAtomOr (g : Fin 4) (p : Fin 8) (d a : Fin 64) (n : Fin 32) (s : State) : Out :=
  atomOp g p d a n [] (fun _ => .or) false s

/-- `ATOM_XOR` (R269). -/
def execAtomXor (g : Fin 4) (p : Fin 8) (d a : Fin 64) (n : Fin 32) (s : State) : Out :=
  atomOp g p d a n [] (fun _ => .xor) false s

/-- `ATOM_XCHG` (R269). -/
def execAtomXchg (g : Fin 4) (p : Fin 8) (d a : Fin 64) (n : Fin 32) (s : State) : Out :=
  atomOp g p d a n [] (fun _ => .xchg) false s

/-- `ATOM_CAS` (R269). -/
def execAtomCas (g : Fin 4) (p : Fin 8) (d a : Fin 64) (n : Fin 32) (s : State) : Out :=
  atomOp g p d a n [] (fun _ => .cas) true s

/-- `ATOM_ADDH2` (R269). -/
def execAtomAddh2 (g : Fin 4) (p : Fin 8) (d a : Fin 64) (n : Fin 32) (s : State) : Out :=
  atomOp g p d a n halfTags (fun c => .addh2 (c.tag d == tagBF16)) false s

/-- `RED_ADD` (R270). -/
def execRedAdd (g : Fin 4) (p : Fin 8) (d a : Fin 64) (n : Fin 32) (k : Bool) (s : State) : Out :=
  redOp g p d a n k .add [] s

/-- `RED_ADDF` (R270). -/
def execRedAddf (g : Fin 4) (p : Fin 8) (d a : Fin 64) (n : Fin 32) (k : Bool) (s : State) : Out :=
  redOp g p d a n k .addf fpTags s

/-- `RED_MIN` (R270). -/
def execRedMin (g : Fin 4) (p : Fin 8) (d a : Fin 64) (n : Fin 32) (k : Bool) (s : State) : Out :=
  redOp g p d a n k .min [] s

/-- `RED_MAX` (R270). -/
def execRedMax (g : Fin 4) (p : Fin 8) (d a : Fin 64) (n : Fin 32) (k : Bool) (s : State) : Out :=
  redOp g p d a n k .max [] s

/-- `RED_AND` (R270). -/
def execRedAnd (g : Fin 4) (p : Fin 8) (d a : Fin 64) (n : Fin 32) (k : Bool) (s : State) : Out :=
  redOp g p d a n k .and [] s

/-- `RED_OR` (R270). -/
def execRedOr (g : Fin 4) (p : Fin 8) (d a : Fin 64) (n : Fin 32) (k : Bool) (s : State) : Out :=
  redOp g p d a n k .or [] s

/-- `RED_XOR` (R270). -/
def execRedXor (g : Fin 4) (p : Fin 8) (d a : Fin 64) (n : Fin 32) (k : Bool) (s : State) : Out :=
  redOp g p d a n k .xor [] s

/-- `RED_ADDX` (R270). -/
def execRedAddx (g : Fin 4) (p : Fin 8) (d a : Fin 64) (n : Fin 32) (k : Bool) (s : State) : Out :=
  redOp g p d a n k .addx [] s

end Sys2Proof.Machine
end

