-- ==== Sys2Proof/Machine/Control.lean ====
section
/-! DEFINITION. Branches (R276 to R278), synchronisation within a group (R279), loops and flashback points (R280, R196), fences (R99) and
barriers (R41, R42). -/

namespace Sys2Proof.Machine

/-! Branches. -/

/-- The target at a signed halfword offset of `bits` bits (R22). -/
def targetOf (pc : Dword) (bits off : Nat) : Dword := pc + BitVec.ofInt 64 (2 * signed bits off)

/-- The instruction stands at the end of the strand's top loop entry. -/
def Strand.atEnd (t : Strand) : Bool :=
  match t.loops with
  | e :: _ => e.stop == t.pc
  | [] => false

/-- A strand's next PC (R37); `pops` tells a taken branch of rule 3, which leaves the bodies its target is not in. An instruction that sets
the following address retires under rule 2, a taken branch too where it stands at the end of the top entry. -/
def Strand.goto (t : Strand) (len : Nat) (pops : Bool) (next : Dword) : Strand :=
  if next = t.pc + BitVec.ofNat 64 len ∧ (!pops || t.atEnd) then t.advance len
  else { t with pc := next, loops := if pops then popOutside next t.loops else t.loops }

/-- The lanes 0 to 3 of a strand that are active before the guard (R277). -/
def Strand.lanes4 (t : Strand) : List Nat := (List.range 4).filter (fun j => (t.active &&& ~~~t.exited).getLsbD j)

def mask4 (js : List Nat) : BitVec 4 := js.foldl (fun w j => w ||| BitVec.twoPow 4 j) 0

/-- How a branch leaves a strand: its next PC, the lanes that go there, the paths to be taken later (R35, R278), and whether the strand
itself takes the branch. -/
structure Split where
  next  : Dword
  mask  : BitVec 4
  rest  : List (Dword × BitVec 4)
  taken : Bool
deriving DecidableEq, Repr

/-- The split of `bra` (R35): where some lanes take the branch, the strand falls through. -/
def splitTwo (lanes : List Nat) (takes : Nat → Bool) (target fall : Dword) : Split :=
  let taking := lanes.filter takes
  let others := lanes.filter (fun j => !takes j)
  if taking.isEmpty then ⟨fall, mask4 lanes, [], false⟩
  else if others.isEmpty then ⟨target, mask4 lanes, [], true⟩
  else ⟨fall, mask4 others, [(target, mask4 taking)], false⟩

/-- The targets that some lanes go to, in the order of the lowest lane of each. -/
def distinctTargets (lanes : List Nat) (target : Nat → Dword) : List Dword :=
  lanes.foldl (fun ts j => if ts.contains (target j) then ts else ts ++ [target j]) []

/-- The split of `brx`, `callx` and `jtab` (R35, R278): the target of the lowest active lane is next. -/
def splitMany (lanes : List Nat) (takes : Nat → Bool) (target : Nat → Dword) (fall : Dword) : Split :=
  match distinctTargets lanes target with
  | [] => ⟨fall, 0, [], false⟩
  | t :: ts =>
    let on := fun x : Dword => mask4 (lanes.filter (fun j => target j == x))
    ⟨t, on t, ts.map (fun x => (x, on x)), lanes.any (fun j => takes j && target j == t)⟩

/-- A strand takes its split. -/
def Strand.split (t : Strand) (len : Nat) (pops : Bool) (x : Split) : Strand :=
  let before := t.active &&& ~~~t.exited
  let t' := t.goto len (pops && x.taken) x.next
  if x.rest.isEmpty then t'
  else { t' with
    active := x.mask
    div := (x.rest.map (fun e => (⟨e.1, e.2, before, false⟩ : DivEntry))).reverse ++ t.div }

/-- 0x09 for a strand whose split needs more entries than remain free (R376). -/
def splitConds (c : Ctx) (f : Nat → Split) : List Cond :=
  c.is.flatMap (fun i => if !(f i).rest.isEmpty && decide (4 < (f i).rest.length + (c.g.strand i).div.length) then [(⟨0x09, i, 0⟩ : Cond)]
    else [])

/-- Each strand of the gang changes on its own, and the gang parts by next PC (R33). -/
def moveStrands (c : Ctx) (f : Nat → Strand → Strand) (s : State) : State :=
  modifyGroup s c.core c.slot (fun g =>
    let g := { g with strands := (List.range 8).map (fun i =>
      if c.is.contains i then { f i (g.strand i) with prev := some c.dt, waitOnly := false, held := none } else g.strand i) }
    g.repart (c.is.filter (fun i => !(g.strand i).gone)))

def fallOf (c : Ctx) (len : Nat) : Dword := c.pc + BitVec.ofNat 64 len

/-- A per-strand branch: `f` gives each strand's split. -/
def branchOp (n : Needs) (f : Ctx → State → Nat → Split) (conds : Ctx → State → List Cond) (wait : Ctx → State → Bool) : State → Out :=
  issue n conds wait (fun c s => moveStrands c (fun i t => t.split n.len true (f c s i)) s)

/-- A guard acts on the lanes of a branch without removing them (R277). -/
def Ctx.takes (c : Ctx) (i j : Nat) : Bool := laneBit c.act (4 * i + j)

def braSplit (len bits off : Nat) (c : Ctx) (_ : State) (i : Nat) : Split :=
  splitTwo (c.g.strand i).lanes4 (c.takes i) (targetOf c.pc bits off) (fallOf c len)

/-- `bra` at a given length and offset width. -/
def braOp (len g p bits off : Nat) : State → Out :=
  branchOp { len := len, gap := g, guard := some p }
    (braSplit len bits off) (fun c s => splitConds c (braSplit len bits off c s)) noWait

/-- `BRA` (R277). -/
def execBra (g : Fin 4) (p : Fin 8) (o : Fin 262144) (s : State) : Out := braOp 4 g p 18 o s

/-- `BRA_S` (R215). -/
def execBraS (o : Fin 1024) (s : State) : Out := braOp 2 0 0 10 o s

/-- `BRA_Q` (R277): the whole gang goes one way. -/
def execBraQ (g q : Fin 4) (o : Fin 262144) (s : State) : Out :=
  issue { len := 4, gap := g, qguard := some q } noConds noWait
    (fun c s => moveStrands c (fun _ t => t.goto 4 c.q (if c.q then targetOf c.pc 18 o else fallOf c 4)) s) s

/-- `CALL` (R277). -/
def execCall (g : Fin 4) (o : Fin 262144) (s : State) : Out :=
  issue { len := 4, gap := g } noConds noWait
    (fun c s => moveStrands c (fun _ t =>
      { t.goto 4 false (targetOf c.pc 18 o) with lr := (fallOf c 4).truncate 32, lrOlds := [] }) s) s

/-- `join` (R36). -/
def Strand.join (t : Strand) (len : Nat) : Strand :=
  match t.div with
  | [] => t.advance len
  | e :: rest =>
    if e.running then
      { t.advance len with active := e.rmask &&& ~~~t.exited, div := rest }
    else { t with active := e.mask &&& ~~~t.exited, pc := e.pc, div := { e with running := true } :: rest }

def joinOp (len g : Nat) : State → Out :=
  issue { len := len, gap := g } noConds noWait (fun c s => moveStrands c (fun _ t => t.join len) s)

/-- `JOIN` (R36). -/
def execJoin (g : Fin 4) (s : State) : Out := joinOp 4 g s

/-- `JOIN_S` (R215). -/
def execJoinS (s : State) : Out := joinOp 2 0 s

/-- The target of a lane of `brx` and `callx` (R277). -/
def registerTarget (c : Ctx) (r i j : Nat) : Dword :=
  if c.takes i j then c.pc + BitVec.ofInt 64 (2 * (c.v r (4 * i + j)).toInt) else fallOf c 4

def registerSplit (r : Nat) (c : Ctx) (_ : State) (i : Nat) : Split :=
  splitMany (c.g.strand i).lanes4 (c.takes i) (registerTarget c r i) (fallOf c 4)

/-- `BRX` (R277, R278). -/
def execBrx (g : Fin 4) (p : Fin 8) (r : Fin 64) (s : State) : Out :=
  branchOp (laneNeeds 4 g p [r] []) (registerSplit r) (fun c s => splitConds c (registerSplit r c s)) noWait s

/-- `CALLX` (R277): LR is written in every strand in which some active lane goes to a register target. -/
def execCallx (g : Fin 4) (p : Fin 8) (r : Fin 64) (s : State) : Out :=
  issue (laneNeeds 4 g p [r] []) (fun c s => splitConds c (registerSplit r c s)) noWait
    (fun c s => moveStrands c (fun i t =>
      let t' := t.split 4 false (registerSplit r c s i)
      if t.lanes4.any (c.takes i) then { t' with lr := (fallOf c 4).truncate 32, lrOlds := [] } else t') s) s

/-- A `setsr` of LR in a strand is not yet readable (R50). -/
def Group.lrEarly (g : Group) (dt i : Nat) : Bool := decide (dt < lastTick ((g.strand i).lrOlds.map Prod.fst))

/-- 0x08 for an early read of LR under GAPCHECK (R374). -/
def lrConds (c : Ctx) (is : List Nat) : List Cond :=
  if flagOf c.g.gmode 2 then ((is.filter (c.g.lrEarly c.dt)).map (fun i => (⟨8, i, 0⟩ : Cond))) else []

def retOp (len g : Nat) : State → Out :=
  issue { len := len, gap := g } (fun c _ => lrConds c c.is) noWait
    (fun c s => moveStrands c (fun i t =>
      t.goto len false (BitVec.ofNat 64 (t.pc.toNat / 2 ^ 32 * 2 ^ 32 + (c.g.readLr c.free c.dt i i).toNat))) s)

/-- `RET` (R277): bits [47:32] are those of the PC. -/
def execRet (g : Fin 4) (s : State) : Out := retOp 4 g s

/-- `COMPACT_RET` (R215). -/
def execCompactRet (s : State) : Out := retOp 2 0 s

/-- A target at an offset that the spec does not call signed: T of `jtab` and the pricking of `fbp` (R277, Table 15.9, R196; log 53). -/
def targetAhead (pc : Dword) (off : Nat) : Dword := pc + BitVec.ofNat 64 (2 * off)

/-- The VA of a lane's jump-table entry (R277). -/
def entryVa (c : Ctx) (r toff l : Nat) : Nat :=
  ((targetAhead c.pc toff).toNat + 4 * (c.v r l).toNat) % 2 ^ 64

def entryRead (c : Ctx) (s : State) (r toff l : Nat) : CodeRead :=
  readCode s c.asker ((partOfCore s c.core).getD 0) c.g.dom (entryVa c r toff l) 4

/-- The target of a lane of `jtab` (R277). -/
def tableTarget (c : Ctx) (s : State) (r toff i j : Nat) : Dword :=
  if c.takes i j then
    match entryRead c s r toff (4 * i + j) with
    | .bytes bs => targetAhead c.pc toff + BitVec.ofInt 64 (2 * signed 32 (ofBytes bs))
    | _ => fallOf c 4
  else fallOf c 4

/-- The entry of a lane of `jtab` could be read, or is not needed. -/
def entryKnown (c : Ctx) (s : State) (r toff i j : Nat) : Bool :=
  !c.takes i j || (match entryRead c s r toff (4 * i + j) with | .bytes _ => true | _ => false)

/-- The split of `jtab` over some lanes of a strand. -/
def tableSplit (r toff : Nat) (lanes : List Nat) (c : Ctx) (s : State) (i : Nat) : Split :=
  splitMany lanes (c.takes i) (tableTarget c s r toff i) (fallOf c 4)

/-- The conditions of `jtab` (R411, R412, R414): an entry that fails raises 0x0B with its VA, and 0x09 is met where the entries that could
be read already need more of the stack than is free. -/
def jtabConds (r toff : Nat) (c : Ctx) (s : State) : List Cond :=
  c.lanes.flatMap (fun l =>
    match entryRead c s r toff l with
    | .fails _ => [(⟨0x0B, l / 4, entryVa c r toff l⟩ : Cond)]
    | _ => []) ++
  splitConds c (fun i => tableSplit r toff ((c.g.strand i).lanes4.filter (entryKnown c s r toff i)) c s i)

/-- `JTAB` (R277, R278): the entries are fetched, and the instruction waits for one whose page is not present. -/
def execJtab (g : Fin 4) (p : Fin 8) (r : Fin 64) (t : Fin 4096) (s : State) : Out :=
  let n : Needs := { laneNeeds 4 g p [r] [] with code := true }
  issueOr (stallReading n (fun c => c.lanes.map (fun l => ⟨entryVa c r t l, 4⟩))) (fun _ _ => n) n noConds (jtabConds r t)
    (fun c s => c.lanes.any (fun l => entryRead c s r t l == .waits))
    (fun c s => moveStrands c (fun i st => st.split 4 true (tableSplit r t (c.g.strand i).lanes4 c s i)) s) s

/-! Waiting and no-operations. -/

def nopOp (len g n : Nat) : State → Out :=
  issue { len := len, gap := g } noConds noWait
    (fun c s => modifyGroup s c.core c.slot (fun gr => retireOn gr c.is c.dt len n))

/-- `NOP_LONG` (R279, R54). -/
def execNopLong (g : Fin 4) (n : Fin 65536) (s : State) : Out := nopOp 4 g n s

/-- `NOP_N` (R215). -/
def execNopN (n : Fin 32) (s : State) : Out := nopOp 2 0 n s

/-- Marking registers dead waits for their results, and for them to be full (R58, R279). -/
def deadOp (len g : Nat) (rs : List Nat) : State → Out :=
  issueRegs { len := len, gap := g, vdst := rs, varLat := true } (fun _ gr => rs.foldl (fun gr r => gr.killV r) gr)

/-- `DEAD` (R58). -/
def execDead (g : Fin 4) (f : Fin 64) (n : Fin 128) (s : State) : Out := deadOp 4 g (regsFrom f n) s

/-- `DEAD2` (R215). -/
def execDead2 (d sl : Fin 32) (s : State) : Out := deadOp 2 0 [d.val, sl.val] s

/-- Every masked flag counts zero (R57). -/
def flagsIdle (g : Group) (m : Nat) : Bool := (List.range 12).all (fun f => !bitOf m f || g.count f == 0)

/-- `waitf` (R57): once the counts are zero an error mark of a masked flag raises 0x10, and those marks clear (R385). -/
def waitfOp (len g m : Nat) : State → Out :=
  issue { len := len, gap := g } noConds (fun c _ => !flagsIdle c.g m)
    (fun c s =>
      let mask := BitVec.ofNat 12 m
      if c.g.flagErr &&& mask = 0 then retire c len s
      else takeTrap (modifyGroup s c.core c.slot (fun gr => { gr with flagErr := gr.flagErr &&& ~~~mask })) c.core c.slot
        (c.trapRec ⟨0x10, c.low, 0⟩))

/-- `WAITF` (R57). -/
def execWaitf (g : Fin 4) (m : Fin 4096) (s : State) : Out := waitfOp 4 g m s

/-- `WAITF_S` (R215). -/
def execWaitfS (m : Fin 1024) (s : State) : Out := waitfOp 2 0 m s

/-! Gathering (R34, R196, R180). -/

/-- The gang's strands are held; once every strand of the group is, at one address, `act` happens for all of them; held addresses that
differ raise 0x09 for the lowest strand, and all stay held (R376). -/
def gather (c : Ctx) (act : List Nat → State → State) (s : State) : State :=
  let s := modifyGroup s c.core c.slot (fun g => g.onStrands c.is (fun t => { t with held := some .gather, prev := some c.dt }))
  match groupAt s c.core c.slot with
  | none => s
  | some g =>
    if g.allGathered then
      let low := g.live.headD 0
      if g.live.all (fun i => (g.strand i).pc == (g.strand low).pc) then act g.live s
      else takeTrap s c.core c.slot ⟨0x09, low, (g.strand low).pc, 0⟩
    else s

/-- A gang that is held with its whole group, and whose group is not yet ready, waits on. -/
def gatherWait (ready : Group → Bool) (c : Ctx) (_ : State) : Bool :=
  c.is.all (fun i => (c.g.strand i).gathered) && c.g.allGathered && !ready c.g

def regangOp (len g : Nat) : State → Out :=
  issue { len := len, gap := g } noConds noWait
    (fun c s => gather c (fun is s => modifyGroup s c.core c.slot (fun g => retireOn g is c.dt len 0)) s)

/-- `REGANG` (R34). -/
def execRegang (g : Fin 4) (s : State) : Out := regangOp 4 g s

/-- `COMPACT_REGANG` (R215). -/
def execCompactRegang (s : State) : Out := regangOp 2 0 s

/-- The registers of an `fbp` mask. -/
def maskRegs (lo hi : Word) : List Nat := (List.range 64).filter (fun i => bitOf (pair64 lo hi) i)

/-- `FBP` (R196): gathered, it waits until the registers of its mask are full and records the flashback point. -/
def execFbp (g : Fin 4) (i : Fin 65536) (lo hi : Word) (s : State) : Out :=
  issue { len := 12, gap := g, zone := .block } noConds (gatherWait (fun gr => (maskRegs lo hi).all (fun r => (gr.vreg r).full)))
    (fun c s => gather c (fun is s => modifyGroup s c.core c.slot (fun gr =>
      if (maskRegs lo hi).all (fun r => (gr.vreg r).full) then
        retireOn { gr with
          flash := some ⟨fallOf c 12, if i.val = 0 then none else some (targetAhead c.pc i), BitVec.ofNat 64 (pair64 lo hi),
            (List.range 8).map (fun j =>
              let t := gr.strand j
              ⟨t.active, t.exited, t.lr, t.div, t.loops⟩), gr.bars.map (fun e => (e.1, e.2.waited))⟩
          regionOpen := true } is c.dt 12 0
      else gr)) s) s

/-- `PRET` (R196): the PC becomes the resume PC; without a pricking pending it raises 0x0A (R376). -/
def execPret (g : Fin 4) (s : State) : Out :=
  issue { len := 4, gap := g, zone := .block } (fun c _ => if c.g.pricking then [] else [⟨0x0A, c.low, 0⟩]) noWait
    (fun c s =>
      let resume := ((c.g.flash).map FlashPoint.resume).getD c.pc
      modifyGroup (moveStrands c (fun _ t => { t with pc := resume }) s) c.core c.slot (fun gr => { gr with pricking := false })) s

/-! Loops (R37, R280). -/

/-- The first halfword at a loop's end, which tells its instruction's length. -/
def endHalf (c : Ctx) (s : State) (stop : Dword) : CodeRead :=
  readCode s c.asker ((partOfCore s c.core).getD 0) c.g.dom stop.toNat 2

/-- The address after the instruction at a loop's end (R37), its literal words included (R210; log 54), with bit 0 clear (R413; log 55). -/
def afterEnd (c : Ctx) (s : State) (stop : Dword) : Dword :=
  match endHalf c s stop with
  | .bytes bs => evenPc (stop + BitVec.ofNat 64 (coreLength (leNat bs)))
  | _ => stop

def endConds (c : Ctx) (s : State) (i : Nat) (stop : Dword) : List Cond :=
  match endHalf c s stop with
  | .fails _ => [⟨0x0B, i, stop.toNat⟩]
  | _ => []

/-- The loop instructions at a count and an end offset (R37 rule 1, R376, R412). -/
def loopOp (n : Needs) (count : Ctx → Word) (e : Nat) : State → Out :=
  issueOr (stallReading n (fun c => if count c = 0 then [⟨(c.pc + BitVec.ofNat 64 (2 * e)).toNat, 2⟩] else [])) (fun _ _ => n) n noConds
    (fun c s =>
      let stop := c.pc + BitVec.ofNat 64 (2 * e)
      (if e < 2 then [⟨0x0A, c.low, 0⟩] else []) ++
      (if count c = 0 then endConds c s c.low stop
       else c.is.flatMap (fun i => if (c.g.strand i).loops.length ≥ 4 then [(⟨0x0A, i, 0⟩ : Cond)] else [])))
    (fun c s => count c == 0 && endHalf c s (c.pc + BitVec.ofNat 64 (2 * e)) == .waits)
    (fun c s =>
      let stop := c.pc + BitVec.ofNat 64 (2 * e)
      moveStrands c (fun _ t =>
        if count c = 0 then t.goto 4 false (afterEnd c s stop)
        else ({ t with loops := ⟨fallOf c 4, stop, count c⟩ :: t.loops } : Strand).advance 4) s)

/-- `LOOP` (R280). -/
def execLoop (g : Fin 4) (x : Fin 64) (e : Fin 1024) (s : State) : Out :=
  loopOp { len := 4, gap := g, ssrc := [x] } (fun c => c.s x) e s

/-- `LOOPI` (R280). -/
def execLoopi (g : Fin 4) (n e : Fin 256) (s : State) : Out :=
  loopOp { len := 4, gap := g } (fun _ => BitVec.ofNat 32 n) e s

/-- `LBRK` (R37 rule 4). -/
def execLbrk (g : Fin 4) (s : State) : Out :=
  let n : Needs := { len := 4, gap := g }
  let ends := fun (c : Ctx) => c.is.filterMap (fun i => (c.g.strand i).loops.head?.map (fun e => (⟨e.stop.toNat, 2⟩ : Range)))
  issueOr (stallReading n ends) (fun _ _ => n) n noConds
    (fun c s => c.is.flatMap (fun i => match (c.g.strand i).loops with
      | e :: _ => endConds c s i e.stop
      | [] => []))
    (fun c s => c.is.any (fun i => match (c.g.strand i).loops with
      | e :: _ => endHalf c s e.stop == .waits
      | [] => false))
    (fun c s => moveStrands c (fun _ t => match t.loops with
      | e :: rest => ({ t with loops := rest } : Strand).goto 4 false (afterEnd c s e.stop)
      | [] => t.advance 4) s) s

/-! Fences (R99). -/

/-- A fence holds its gang until its conditions over everything issued before it hold (`FENCE_COMPLETE`). -/
def fenceOp (g scope : Nat) : State → Out :=
  issue { len := 4, gap := g } noConds noWait
    (fun c s => modifyGroup s c.core c.slot (fun gr =>
      gr.onStrands c.is (fun t => { t with held := some (.fence scope s.nextId), prev := some c.dt })))

/-- `FENCE_B` (R99). -/
def execFenceB (g : Fin 4) (s : State) : Out := fenceOp g 0 s

/-- `FENCE_D` (R99). -/
def execFenceD (g : Fin 4) (s : State) : Out := fenceOp g 1 s

/-- `FENCE_S` (R99). -/
def execFenceS (g : Fin 4) (s : State) : Out := fenceOp g 2 s

/-! Barriers (R41, R42). -/

def strandMask (is : List Nat) : BitVec 8 := is.foldl (fun w i => w ||| BitVec.twoPow 8 i) 0

/-- The group has arrived on a barrier and its phase is not complete (R42). -/
def hasArrived (s : State) (g : Group) (bar : Nat) : Bool :=
  (getAt GroupBar.none g.bars bar).arrived ||
  (match blockOf s g with
   | some b => laneBit (getAt Barrier.none b.bars bar).groups g.gid
   | none => false)

def phaseOf (s : State) (g : Group) (bar : Nat) : Nat :=
  match blockOf s g with
  | some b => (getAt Barrier.none b.bars bar).phase
  | none => 0

/-- The gang's strands have executed an arriving instruction; with the last strand the group arrives, its arrival counting once the fence
conditions hold over what it issued before (R41, R100, `BARRIER_ARRIVAL`). -/
def Group.arrive (g : Group) (bar : Nat) (is : List Nat) (upTo : Nat) : Group :=
  let b := getAt GroupBar.none g.bars bar
  let strands := b.strands ||| strandMask is
  let all := g.live.all (fun i => strands.getLsbD i)
  let b' : GroupBar := { b with strands := strands, arrived := all, upTo := if all then upTo else b.upTo }
  { g with bars := putAt GroupBar.none g.bars bar b' }

/-- A strand has already the phase it would wait for: that of the group's last arrival, if no wait of it has consumed it (R42; log 35). -/
def waitOver (s : State) (g : Group) (bar i : Nat) : Bool :=
  let b := getAt GroupBar.none g.bars bar
  match b.last with
  | some p => !b.arrived && !b.waited.getLsbD i && decide (p < phaseOf s g bar)
  | none => false

/-- Strands wait for the current phase of a barrier. -/
def holdAt (c : Ctx) (bar len : Nat) (arrives : Bool) (s : State) : State :=
  modifyGroup s c.core c.slot (fun g =>
    g.onStrands c.is (fun t => { t with held := some (.barrier bar (phaseOf s c.g bar) c.dt len arrives), prev := some c.dt }))

/-- The wait of `bar.wait` and of a `bar.sync` that timed out. -/
def waitBar (c : Ctx) (bar len : Nat) (s : State) : State :=
  if c.is.all (waitOver s c.g bar) then
    finish c len (fun g =>
      let b := getAt GroupBar.none g.bars bar
      let b' : GroupBar := { b with waited := b.waited ||| strandMask c.is }
      { g with bars := putAt GroupBar.none g.bars bar b' }) s
  else holdAt c bar len false s

def barNeeds (len g : Nat) (closes : Bool) : Needs := { len := len, gap := g, zone := .block, closes := closes }

/-- An arriving instruction that must first let the phase complete in which its group has arrived: its strands wait for that (R42, R377). -/
def holdArrival (n : Needs) (bar : Nat) (late : Ctx → State → Bool) (c : Ctx) (s : State) : State :=
  if late c s && decide (verdict n noConds noConds noWait c s = .go) then
    modifyGroup s c.core c.slot (fun g => g.onStrands c.is (fun t => { t with held := some (.arrival bar (phaseOf s c.g bar) c.dt) }))
  else s

/-- An arriving instruction: `late` tells that its group has already arrived in the current phase. -/
def arriveOp (n : Needs) (bar : Nat) (late : Ctx → State → Bool) (eff : Ctx → State → State) : State → Out :=
  issueOr (holdArrival n bar late) (fun _ _ => n) n noConds noConds late eff

/-- `BAR_ARR` (R42). -/
def execBarArr (g : Fin 4) (n : Fin 16) (s : State) : Out :=
  arriveOp (barNeeds 4 g true) n (fun c s => hasArrived s c.g n)
    (fun c s => finish c 4 (fun gr => gr.arrive n c.is s.nextId) s) s

/-- `BAR_WAIT` (R42). -/
def execBarWait (g : Fin 4) (n : Fin 16) (s : State) : Out :=
  issue (barNeeds 4 g false) noConds noWait (fun c s => waitBar c n 4 s) s

/-- `bar.sync`: arrives and waits; after a timeout it only waits (R42, R377). -/
def barSyncOp (len g n : Nat) : State → Out :=
  arriveOp (barNeeds len g true) n
    (fun c s => !c.is.all (fun i => (c.g.strand i).waitOnly) && hasArrived s c.g n)
    (fun c s =>
      if c.is.all (fun i => (c.g.strand i).waitOnly) then waitBar c n len s
      else holdAt c n len true (modifyGroup s c.core c.slot (fun gr => gr.arrive n c.is s.nextId)))

/-- `BAR_SYNC` (R42). -/
def execBarSync (g : Fin 4) (n : Fin 16) (s : State) : Out := barSyncOp 4 g n s

/-- `BAR_S` (R215). -/
def execBarS (n : Fin 16) (s : State) : Out := barSyncOp 2 0 n s

end Sys2Proof.Machine
end

