-- ==== Sys2Proof/Machine/System.lean ====
section
/-! DEFINITION. The system instructions: `trap` and `brk` (R282), special registers (R48 to R50, R283), `exit` and `yield` (R40, R191),
`spawn` (R192, R284), the access window (R203, R285), and gates (R179 to R181). -/

namespace Sys2Proof.Machine

/-! `trap` and `brk` (R282). -/

/-- With an active lane the instruction retires, and the gang stops with the cause; s4:s5 holds the instruction's address. -/
def trapOp (len g p cause : Nat) : State → Out :=
  issue { len := len, gap := g, guard := some p } noConds noWait
    (fun c s =>
      let s := retire c len s
      if c.lanes.isEmpty then s else takeTrap s c.core c.slot ⟨cause, c.low, c.pc, 0⟩)

/-- `TRAP` (R282). -/
def execTrap (g : Fin 4) (p : Fin 8) (_ : Fin 65536) (s : State) : Out := trapOp 4 g p 0x19 s

/-- `BRK` (R282). -/
def execBrk (g : Fin 4) (p : Fin 8) (_ : Fin 65536) (s : State) : Out := trapOp 4 g p 0x1A s

/-- `COMPACT_BRK` (R215). -/
def execCompactBrk (s : State) : Out := trapOp 2 0 0 0x1A s

/-! Special registers (Table 4.2). -/

/-- The special registers of 64 bits. -/
def wideSr (n : Nat) : Bool := decide (n = 6 ∨ n = 13)

/-- A special register that is one value for its group (R48, R283); the handler slot, which belongs to no block and no launch (R415), has
free values for GROUPID, BLOCKID and LAUNCHID (log 6). LR is that of strand `low`. -/
def readSr (s : State) (core : Nat) (g : Group) (low n : Nat) : Nat :=
  let free := (Config.freeWord (s.free + n)).toNat
  match n with
  | 2 => if g.serves.isSome then free else g.gid
  | 3 => match blockOf s g with
    | some b => b.bid
    | none => free
  | 4 => core
  | 5 => match runOf s g with
    | some r => r.launchId.toNat
    | none => free
  | 6 => dtCore s core
  | 8 => g.fpm.toNat
  | 9 => g.fpf.toNat
  | 10 => g.nfv.toNat
  | 11 => g.cbwin.toNat
  | 12 => g.gmode.toNat
  | 13 => g.rh
  | 14 => (g.strand low).lr.toNat
  | 15 => g.dom.id
  | _ => 0

/-- A special register of a lane: LANEID and STRANDID differ from lane to lane. -/
def laneSr (s : State) (core : Nat) (g : Group) (low n l : Nat) : Nat :=
  if n = 0 then l else if n = 1 then l / 4 else readSr s core g low n

/-- NFV written: a B8 outside 0x20 to 0x3B leaves B8 as it is (R49). -/
def writeNfv (old w : Word) : Word :=
  let b8 := w &&& 0x3F
  let keep := if 0x20 ≤ b8.toNat ∧ b8.toNat ≤ 0x3B then b8 else old &&& 0x3F
  (w &&& 0x300) ||| keep

/-- A special register written (R49, R283): reserved bits are discarded, registers that are RO keep their value, and LR is set in the
strands `is`. -/
def Group.writeSr (g : Group) (is : List Nat) (n : Nat) (w : Word) : Group :=
  match n with
  | 8 => { g with fpm := w &&& 3, srOlds := putAt [] g.srOlds 8 [] }
  | 9 => { g with fpf := w &&& 0x1F, srOlds := putAt [] g.srOlds 9 [] }
  | 10 => { g with nfv := writeNfv g.nfv w, srOlds := putAt [] g.srOlds 10 [] }
  | 11 => { g with cbwin := w &&& 0xFFFC, srOlds := putAt [] g.srOlds 11 [] }
  | 12 => { g with gmode := w &&& 7, srOlds := putAt [] g.srOlds 12 [] }
  | 14 => g.onStrands is (fun t => { t with lr := w &&& 0xFFFFFFFE, lrOlds := [] })
  | _ => g

/-- A mode register of a group by its number. -/
def Group.modeReg (g : Group) (n : Nat) : Word :=
  match n with
  | 8 => g.fpm
  | 9 => g.fpf
  | 10 => g.nfv
  | 11 => g.cbwin
  | 12 => g.gmode
  | _ => 0

/-- A number of a mode register. -/
def isMode (n : Nat) : Bool := decide (8 ≤ n ∧ n ≤ 12)

/-- `setsr` writes a special register with L = 2: what it governs it governs from now on, and a reader may still receive the earlier value
for two ticks (R50, R283, R374). -/
def Group.setSr (g : Group) (dt : Nat) (is : List Nat) (n : Nat) (w : Word) : Group :=
  let g' := g.writeSr is n w
  if isMode n then { g' with srOlds := putAt [] g.srOlds n (pushOld dt (dt + 2) (g.modeReg n) (getAt [] g.srOlds n)) }
  else if n = 14 then
    { g' with strands := (List.range 8).map (fun i =>
        if is.contains i then { g'.strand i with lrOlds := pushOld dt (dt + 2) (g.strand i).lr (g.strand i).lrOlds } else g'.strand i) }
  else g'

/-- What `getsr` reads in a lane: a register that an earlier `setsr` wrote may still give the value before it (R374). -/
def earlySr (s : State) (c : Ctx) (n l : Nat) : Nat :=
  if n = 14 then (c.g.readLr c.free c.dt c.low l).toNat
  else if isMode n then (c.g.readMode c.free c.dt n l (c.g.modeReg n)).toNat
  else laneSr s c.core c.g c.low n l

/-- 0x08 for a special register read before it is readable, under GAPCHECK (R374). -/
def srConds (n : Nat) (c : Ctx) (_ : State) : List Cond :=
  if n = 14 then lrConds c [c.low]
  else if flagOf c.g.gmode 2 && decide (c.dt < lastTick ((getAt [] c.g.srOlds n).map Prod.fst)) then [⟨8, c.low, 0⟩] else []

/-- An earlier FP instruction of the group has still to raise its flags (R50). -/
def fpfBusy (n : Nat) (c : Ctx) (s : State) : Bool :=
  n == 9 && (decide (c.dt < c.g.fpfReady) || s.replies.any (fun r => r.2.src.uid == c.g.uid &&
    (match r.2.kind with
     | .lanes _ fl => decide (32 ≤ fl ∧ fl < 64)
     | _ => false)))

/-- `GETSR` (R48, R283). -/
def execGetsr (g : Fin 4) (p : Fin 8) (d : Fin 64) (u : Bool) (n : Fin 512) (s : State) : Out :=
  let ds := if wideSr n then [d.val, d + 1] else [d.val]
  issue { len := 4, gap := g, guard := some p.val, vdst := if u then [] else ds, sdst := if u then ds else [] } (srConds n) (fpfBusy n)
    (fun c s =>
      let value := fun l => earlySr s c n l
      let word := fun (k l : Nat) => BitVec.ofNat 32 (value l / 2 ^ (32 * k))
      finish c 4 (fun gr =>
        if u then
          let one := fun k => match (lanesOf c.all).head? with
            | some l => word k l
            | none => if n.val < 2 then 0 else word k 0
          (ds.zip (List.range 2)).foldl (fun gr e => gr.writeS c.dt 2 e.1 (one e.2)) gr
        else (ds.zip (List.range 2)).foldl (fun gr e => gr.writeV c.dt 2 e.1 tagI32 c.act (word e.2)) gr) s) s

/-- `SETSR` (R50, R283). -/
def execSetsr (g : Fin 4) (x : Fin 64) (u : Bool) (n : Fin 512) (s : State) : Out :=
  issue { len := 4, gap := g, vsrc := if u then [] else [x.val], ssrc := if u then [x.val] else [] } noConds (fpfBusy n)
    (fun c s => finish c 4 (fun gr =>
      let w := if u then some (c.s x) else (c.lanes.head?).map (c.v x)
      match w with
      | some w => gr.setSr c.dt c.is n w
      | none => gr) s) s

/-! `exit` and `yield`. -/

/-- The lanes of a strand in a mask of 32 lanes. -/
def lanesMask (w : Word) (i : Nat) : BitVec 4 := (w >>> (4 * i)).truncate 4

/-- Lanes of a strand exit (R40): they leave every mask it holds, and a strand without lanes holds no entry any more (R36). -/
def Strand.exitLanes (t : Strand) (m : BitVec 4) : Strand :=
  let t : Strand := { t with
    exited := t.exited ||| m
    active := t.active &&& ~~~m
    div := t.div.map (fun e : DivEntry => { e with mask := e.mask &&& ~~~m, rmask := e.rmask &&& ~~~m }) }
  if t.gone then { t with div := [], loops := [], held := none, waitOnly := false } else t

/-- `exit`: the active lanes under the guard end; the strands that remain go on, and with the last strand the group is gone, which in the
handler slot returns from the trap. -/
def exitOp (len g p : Nat) : State → Out :=
  issue { len := len, gap := g, guard := some p, zone := .notCall } noConds noWait
    (fun c s =>
      let s := closeRegion s c (c.act != 0)
      let s := modifyGroup s c.core c.slot (fun gr =>
        let gr := { gr with strands := (List.range 8).map (fun i =>
          if c.is.contains i then (gr.strand i).exitLanes (lanesMask c.act i) else gr.strand i) }
        (retireOn gr (c.is.filter (fun i => !(gr.strand i).gone)) c.dt len 0).arriveRest s.nextId)
      match groupAt s c.core c.slot with
      | none => s
      | some gr =>
        if !gr.live.isEmpty then s
        else if c.slot = handlerSlot then handlerExit s c.core
        else groupGone s c.core c.slot)

/-- `EXIT` (R40). -/
def execExit (g : Fin 4) (p : Fin 8) (s : State) : Out := exitOp 4 g p s

/-- `COMPACT_EXIT` (R215). -/
def execCompactExit (s : State) : Out := exitOp 2 0 0 s

/-- A polite request is pending for the block of a group (R198). -/
def politePending (s : State) (g : Group) : Bool :=
  match blockOf s g with
  | some b => match b.preempt with
    | .polite _ => true
    | _ => false
  | none => false

/-- `yield` (R191): a strand is held at the address after it while a polite request is pending. -/
def yieldOp (len g : Nat) : State → Out :=
  issue { len := len, gap := g } noConds noWait
    (fun c s => finish c len id s |> fun s =>
      if politePending s c.g then
        modifyGroup s c.core c.slot (fun gr => gr.onStrands c.is (fun t => { t with held := some .yield }))
      else s)

/-- `YIELD` (R191). -/
def execYield (g : Fin 4) (s : State) : Out := yieldOp 4 g s

/-- `COMPACT_YIELD` (R215). -/
def execCompactYield (s : State) : Out := yieldOp 2 0 s

/-! `spawn` (R192, R284). -/

/-- The fields of s(n+2) of a task record. -/
def taskGroups (w : Word) : Nat := w.toNat % 64
def taskRegs (w : Word) : Nat := w.toNat / 2 ^ 6 % 16
def taskUregs (w : Word) : Nat := w.toNat / 2 ^ 10 % 4 + 1
def taskScratch (w : Word) : Nat := w.toNat / 2 ^ 12 % 128

/-- A task record within R192. -/
def taskValid (w : Word) : Bool :=
  decide (w.toNat < 2 ^ 19) && decide (1 ≤ taskGroups w ∧ taskGroups w ≤ 32) && decide (1 ≤ taskRegs w ∧ taskRegs w ≤ 8) &&
    decide (taskScratch w ≤ 112)

/-- A task joins the bottom of its core's deque, and its launch counts it (R43, R192). -/
def spawnTask (c : Ctx) (n : Nat) (s : State) : State :=
  match blockOf s c.g with
  | none => s
  | some b =>
    match lookupAt s.runs b.run with
    | none => s
    | some r =>
      let w := c.s (n + 2)
      let t : Task := ⟨b.run, r.entry.blocks + r.nextTask, c.s64 n, taskGroups w, taskRegs w, taskUregs w, taskScratch w, c.s (n + 3),
        c.g.dom, c.core⟩
      let s := { spillTask s c.core with runs := setAt s.runs b.run { r with nextTask := r.nextTask + 1, live := r.live + 1 } }
      setCore s c.core ((coreAt s c.core).pushTask t)

/-- `SPAWN` (R284): 0x15 for a task record outside R192 (R414). -/
def execSpawn (g : Fin 4) (n : Fin 64) (s : State) : Out :=
  issue { len := 4, gap := g, zone := .block, ssrc := regsFrom n 4, closes := true }
    (fun c _ => if taskValid (c.s (n + 2)) then [] else [⟨0x15, c.low, 0⟩]) noWait
    (fun c s => retire c 4 (spawnTask c n s)) s

/-! The access window (R203, R285). -/

/-- The fields of a selector. -/
def selIndex (x : Word) : Nat := x.toNat % 64
def selStrand (x : Word) : Nat := x.toNat / 2 ^ 6 % 8
def selClass (x : Word) : Nat := x.toNat / 2 ^ 9 % 16
def selWord (x : Word) : Nat := x.toNat / 2 ^ 13 % 8

/-- The group that the handler slot serves. -/
def servedGroup (s : State) (core : Nat) (h : Group) : Option (Nat × Group) :=
  h.serves.bind (fun q => (groupAt s core q).map (fun g => (q, g)))

/-- The strand whose trap a served group reports; the strands of its gang share LANEID's gang and LR (R48). -/
def servedStrand (g : Group) : Nat :=
  match g.stop with
  | .served t => if t.strand < 8 then t.strand else 0
  | _ => 0

/-- A selector that is valid for a group (R203, R414): each class bounds INDEX, STRAND and WORD, and a field that a class does not use is
zero (log 20). `uni` tells a uniform register of the handler. -/
def selectorValid (g : Group) (uni : Bool) (x : Word) : Bool :=
  let i := selIndex x
  let t := selStrand x
  let w := selWord x
  decide (x.toNat < 2 ^ 16) &&
    (match selClass x with
     | 0 => !uni && g.hasV i && t == 0 && w == 0
     | 1 => g.hasS i && t == 0 && w == 0
     | 2 => decide (i < 8) && t == 0 && w == 0
     | 3 => i == 0 && t == 0 && w == 0
     | 4 => g.hasV i && t == 0 && w == 0
     | 5 => decide (i < 16) && i != 7 && t == 0 && decide (w < if wideSr i then 2 else 1)
     | 6 => i == 0 && decide (w < 2)
     | 7 => i == 0 && w == 0
     | 8 => i == 0 && w == 0
     | 9 => decide (i < 4) && decide (w < 6)
     | 10 => decide (i < 4) && decide (w < 4)
     | 11 => decide (i < 12) && t == 0 && w == 0
     | 12 => i == 0 && t == 0 && w == 0
     | _ => false)

/-- 0x1E for a selector that is not valid, once the register that holds it is full. -/
def selectorConds (uni : Bool) (x : Nat) (c : Ctx) (s : State) : List Cond :=
  if !(c.g.sreg x).full then []
  else
    match servedGroup s c.core c.g with
    | some (_, g) => if selectorValid g uni (c.s x) then [] else [⟨0x1E, c.low, 0⟩]
    | none => [⟨0x1E, c.low, 0⟩]

/-- Entry number `i` of a stack counted from its bottom, and of the entries written above its depth (Table 14.7; log 20). -/
def fromBottom {α : Type} (l : List α) (above : Assoc α) (i : Nat) : Option α :=
  if i < l.length then l.reverse[i]? else lookupAt above i

/-- Entry number `i` replaced within the depth, and among the entries above it: a stack's depth does not change (R285). -/
def setFromBottom {α : Type} (l : List α) (i : Nat) (f : α → α) : List α :=
  if i < l.length then l.modify (l.length - 1 - i) f else l

def setAbove {α : Type} (l : List α) (above : Assoc α) (i : Nat) (start : α) (f : α → α) : Assoc α :=
  if i < l.length then above else setAt above i (f ((lookupAt above i).getD start))

/-- The words of a loop entry and of a divergence entry (Table 14.7). -/
def LoopEntry.toNat (e : LoopEntry) : Nat := e.start.toNat + 2 ^ 64 * e.stop.toNat + 2 ^ 128 * e.count.toNat
def DivEntry.toNat (e : DivEntry) : Nat :=
  e.pc.toNat + 2 ^ 64 * e.mask.toNat + 2 ^ 72 * e.rmask.toNat + 2 ^ 80 * (if e.running then 1 else 0)

def LoopEntry.ofNat (n : Nat) : LoopEntry :=
  ⟨BitVec.ofNat 64 n, BitVec.ofNat 64 (n / 2 ^ 64), BitVec.ofNat 32 (n / 2 ^ 128)⟩
def DivEntry.ofNat (n : Nat) : DivEntry :=
  ⟨BitVec.ofNat 64 n &&& 0xFFFFFFFFFFFFFFFE, BitVec.ofNat 4 (n / 2 ^ 64), BitVec.ofNat 4 (n / 2 ^ 72), bitOf n 80⟩

/-- Word `w` of a number read and replaced. -/
def wordOf (n w : Nat) : Word := BitVec.ofNat 32 (n / 2 ^ (32 * w))
def replaceWord (n w : Nat) (x : Word) : Nat := n - (n / 2 ^ (32 * w) % 2 ^ 32) * 2 ^ (32 * w) + x.toNat * 2 ^ (32 * w)

/-- The q registers in one word, bit i for q i (R203). -/
def qWord (g : Group) : Word := BitVec.ofNat 32 ((List.range 4).foldl (fun n i => n + (if (g.qreg i).val then 2 ^ i else 0)) 0)

/-- What `xrd` reads for a class other than 0 (R203, R285). A stack entry that is not there holds a free value (log 20). -/
def windowRead (s : State) (core : Nat) (h g : Group) (x : Word) : Word :=
  let i := selIndex x
  let t := g.strand (selStrand x)
  let w := selWord x
  match selClass x with
  | 1 => (g.sreg i).val
  | 2 => (g.preg i).val
  | 3 => qWord g
  | 4 => BitVec.ofNat 32 (g.vreg i).seenTag
  | 5 =>
    let low := servedStrand g
    let v := if i = 0 then ((lanesOf (g.activeLanes (g.gangStrands (g.strand low).gang))).headD 0)
      else if i = 1 then ((lanesOf (g.activeLanes (g.gangStrands (g.strand low).gang))).headD 0) / 4
      else readSr s core g ((g.gangStrands (g.strand low).gang).headD low) i
    wordOf v w
  | 6 => wordOf t.pc.toNat w
  | 7 => t.lr
  | 8 => BitVec.ofNat 32 (t.active.toNat + 16 * t.exited.toNat)
  | 9 => match fromBottom t.loops t.loopsAbove i with
    | some e => wordOf e.toNat w
    | none => Config.freeWord (s.free + i)
  | 10 => match fromBottom t.div t.divAbove i with
    | some e => wordOf e.toNat w
    | none => Config.freeWord (s.free + i)
  | 11 => BitVec.ofNat 32 (g.count i)
  | _ => h.control

/-- The addressed register of the stopped group is empty: `xrd` waits (R285). -/
def windowEmpty (x : Nat) (c : Ctx) (s : State) : Bool :=
  match servedGroup s c.core c.g with
  | some (_, g) =>
    let w := c.s x
    (selClass w == 0 && !(g.vreg (selIndex w)).full) || (selClass w == 1 && !(g.sreg (selIndex w)).full)
  | none => false

/-- `XRD` (R285): the value arrives with a reply; a vector destination gets tag I32 (log 61). -/
def execXrd (g : Fin 4) (d : Fin 64) (u : Bool) (x : Fin 64) (s : State) : Out :=
  let n : Needs :=
    { len := 4, gap := g, zone := .handlerOnly, ssrc := [x.val], vdst := if u then [] else [d.val],
      sdst := if u then [d.val] else [], varLat := true }
  issueWith (fun _ _ => n) n (selectorConds u x) noConds (windowEmpty x)
    (fun c s =>
      match servedGroup s c.core c.g with
      | none => s
      | some (_, t) =>
        let sel := c.s x
        let one := windowRead s c.core c.g t sel
        let r := t.vreg (selIndex sel)
        let value := fun l => if selClass sel = 0 then (if r.dead then 0 else laneOf r.lanes l) else one
        let src : Src := c.src (c.lanes.headD 0)
        let s :=
          if u then
            sendReply (modifyGroup s c.core c.slot (fun gr => gr.markS d)) ⟨src, accessLaunch s c.core c.g, .uniform d one, none, none,
                none⟩
          else sendUnit c [(d.val, tagI32)] (fun _ l => value l) false 0 s
        retire c 4 s) s

/-- Loop and divergence entries of which a word is replaced. -/
def LoopEntry.withWord (w : Nat) (v : Word) (e : LoopEntry) : LoopEntry := LoopEntry.ofNat (replaceWord e.toNat w v)
def DivEntry.withWord (w : Nat) (v : Word) (e : DivEntry) : DivEntry := DivEntry.ofNat (replaceWord e.toNat w v)

/-- A word written to a strand by class and WORD. The other words of an entry above the depth start from zero (log 20). -/
def Strand.windowWrite (t : Strand) (cls i w : Nat) (v : Word) : Strand :=
  match cls with
  | 6 => { t with pc := BitVec.ofNat 64 (replaceWord t.pc.toNat w (if w = 0 then v &&& 0xFFFFFFFE else v)), held := none, waitOnly := false }
  | 7 => { t with lr := v &&& 0xFFFFFFFE, lrOlds := [] }
  | 8 => { t with active := BitVec.ofNat 4 v.toNat, exited := BitVec.ofNat 4 (v.toNat / 16) }
  | 9 => { t with
      loops := setFromBottom t.loops i (LoopEntry.withWord w v)
      loopsAbove := setAbove t.loops t.loopsAbove i (LoopEntry.ofNat 0) (LoopEntry.withWord w v) }
  | 10 => { t with
      div := setFromBottom t.div i (DivEntry.withWord w v)
      divAbove := setAbove t.div t.divAbove i (DivEntry.ofNat 0) (DivEntry.withWord w v) }
  | _ => t

/-- What `xwr` does to the stopped group: a register written is full, revived, and free of poison where it is written (R203, R384). -/
def Group.windowWrite (g : Group) (x : Word) (lanes : Word) (f : Nat → Word) (v : Word) : Group :=
  let i := selIndex x
  match selClass x with
  | 0 =>
    let r := (g.vreg i).revived
    g.setV i { r with lanes := mergeLanes r.lanes lanes (fun l => container r.tag (f l)), full := true, poison := r.poison &&& ~~~lanes, olds := [], owed := 0 }
  | 1 => g.setS i ⟨v, true, false, []⟩
  | 2 => g.setP i ⟨v, []⟩
  | 3 => (List.range 4).foldl (fun g k => g.setQ k ⟨laneBit v k, []⟩) g
  | 4 => g.setV i { g.vreg i with tag := v.toNat % 16 }
  | 5 => g.writeSr (g.gangStrands (g.strand (servedStrand g)).gang) i v
  | 11 => g.setCount i (v.toNat % 64)
  | 12 => g
  | cls => g.modifyStrand (selStrand x) (fun t => t.windowWrite cls i (selWord x) v)

/-- `XWR` (R203, R285). With no active lane a vector source writes nothing (log 20). -/
def execXwr (g : Fin 4) (d : Fin 64) (u : Bool) (x : Fin 64) (s : State) : Out :=
  let n : Needs := { len := 4, gap := g, zone := .handlerOnly, ssrc := if u then [x.val, d.val] else [x.val], vsrc := if u then [] else [d.val] }
  issueWith (fun _ _ => n) n (selectorConds u x) noConds noWait
    (fun c s =>
      match servedGroup s c.core c.g with
      | none => s
      | some (q, t) =>
        let sel := c.s x
        let v := if u then c.s d else c.v d (c.lanes.headD 0)
        let s :=
          if !u && c.act == 0 then s
          else if selClass sel = 12 then modifyGroup s c.core c.slot (fun gr => { gr with control := v })
          else setGroup s c.core q (t.windowWrite sel c.act (c.v d) v)
        retire c 4 s) s

/-! Gates (R179 to R181, R396). -/

/-- Bytes at an IA of a domain, read at home. -/
def readIa (s : State) (who : Asker) (part dom ia : Nat) : Nat → CodeRead
  | 0 => .bytes []
  | n + 1 =>
    match readHome s who part dom ia 1 with
    | .data b =>
      match readIa s who part dom (ia + 1) n with
      | .bytes bs => .bytes (BitVec.ofNat 8 b :: bs)
      | r => r
    | .park => .waits
    | _ => .fails ia

/-- A gate entry (Table 13.5). -/
structure GateEntry where
  dom    : Nat
  valid  : Bool
  nva    : Nat
  nua    : Nat
  nvr    : Nat
  nur    : Nat
  entry  : Nat
  aclKey : Nat
  budget : Nat
  save   : Nat
deriving DecidableEq, Repr

def GateEntry.ofBytes (b : List Byte) : GateEntry :=
  ⟨fieldLE b 0 2 % 4096, bitOf (fieldLE b 2 1) 0, fieldLE b 3 1, fieldLE b 4 1, fieldLE b 5 1, fieldLE b 6 1, fieldLE b 8 8,
    fieldLE b 16 4, fieldLE b 20 4, fieldLE b 24 8⟩

/-- Entry `i` of the eyelet table, read from memory of domain 0 where the table has it. -/
def gateRead (s : State) (who : Asker) (part i : Nat) : CodeRead :=
  let p := partAt s part
  if i < p.eyeletCount then readIa s who part 0 (p.eyeletIa + 32 * i) 32 else .fails 0

/-- The registers of a gate lie in the caller's allocation. -/
def GateEntry.fits (e : GateEntry) (g : Group) : Bool := decide (max e.nva e.nvr ≤ g.nv ∧ max e.nua e.nur ≤ g.ns)

/-- 0x04 of `gcall`, which nothing that the instruction waits for precedes (R372, R396). -/
def gateLate (i : Nat) (c : Ctx) (s : State) : List Cond :=
  match gateRead s c.asker ((partOfCore s c.core).getD 0) i with
  | .bytes bs => if (GateEntry.ofBytes bs).valid && !(GateEntry.ofBytes bs).fits c.g then [⟨4, c.low, 0⟩] else []
  | _ => []

/-- The checks of `gcall` (R180, R396): 0x04 for registers of a valid gate beyond the allocation, 0x16 for a gate that is not valid, not in
the table, not readable, or closed to the caller, 0x17 at depth 4. -/
def gateConds (s : State) (who : Asker) (part i : Nat) (g : Group) : List Cond :=
  let cond := fun (n : Nat) => (⟨n, g.live.headD 0, 0⟩ : Cond)
  (match gateRead s who part i with
   | .bytes bs =>
     let e := GateEntry.ofBytes bs
     (if e.valid && !e.fits g then [cond 4] else []) ++
     (if e.valid && (e.aclKey == 0 || ((domainAt s part g.dom.id).keys.any (fun k => k.toNat == e.aclKey))) then [] else [cond 0x16])
   | _ => [cond 0x16]) ++
  (if g.calls.length < 4 then [] else [cond 0x17])

/-- A read of the eyelet table that meets an error response is logged (R383). -/
def logEyelet (s : State) (who : Asker) (core slot part i : Nat) : State :=
  match gateRead s who part i with
  | .fails ia => match readHome s who part 0 ia 1 with
    | .error k => if i < (partAt s part).eyeletCount then logRead s part ia 0 core slot k else s
    | _ => s
  | _ => s

/-- The pieces of lines that hold the entry of a gate. -/
def eyeletPieces (s : State) (part i : Nat) : List (Nat × Nat) :=
  (Range.pieces ⟨(partAt s part).eyeletIa + 32 * i, 32⟩).map (fun p => (p.va, p.len))

/-- The entry of a gate cannot be read at once: its lines are asked for as a read of domain 0. -/
def waitEyelet (s : State) (who : Asker) (part i : Nat) : State :=
  (eyeletPieces s part i).foldl (sendPull who part (domReg s part 0)) s

/-- The entry of a gate has been read. -/
def eyeletRead (s : State) (who : Asker) (part i : Nat) : State := piecesRead s who part (domReg s part 0) (eyeletPieces s part i)

/-- The group after a call of a gate by the caller at `pc` (R180). -/
def Group.enterGate (g : Group) (e : GateEntry) (callee : DomReg) (pc : Dword) (dt mark : Nat) : Group :=
  let f : CallFrame :=
    { v := g.v.filter (fun r => decide (e.nva ≤ r.1)), s := g.s.filter (fun r => decide (e.nua ≤ r.1)), p := g.p, q := g.q,
      fpm := g.fpm, fpf := g.fpf, nfv := g.nfv, cbwin := g.cbwin, gmode := g.gmode, strands := g.strands,
      resume := pc + 4, dom := g.dom, nvr := e.nvr, nur := e.nur, storeErr := g.storeErr,
      budget := e.budget * 1024, used := 0, save := e.save, mark := mark }
  let low := g.live.headD 0
  let g' : Group := { g with
    v := g.v.filter (fun r => decide (r.1 < e.nva)), s := g.s.filter (fun r => decide (r.1 < e.nua)), p := [], q := [],
    fpm := 0, fpf := 0, nfv := 0x2C, cbwin := 0, gmode := 0, srOlds := [], dom := callee, storeErr := none, calls := f :: g.calls,
        regionOpen := false,
    strands := (List.range 8).map (fun i =>
      let t := g.strand i
      { Strand.start (evenPc (BitVec.ofNat 64 e.entry)) with active := ~~~t.exited, exited := t.exited, gang := low, prev := some dt }) }
  g'.setS 61 ⟨BitVec.ofNat 32 g.dom.id, true, false, []⟩

/-- A group in gate 0 puts its request to the mapping service and waits inside the gate (R176; log 19). -/
def requestService (s : State) (core slot part : Nat) (g : Group) : State :=
  let w := fun i => (g.sreg i).val
  let r : MapReq := ⟨none, some g.uid, (match g.calls with | f :: _ => f.dom.id | [] => g.dom.id), w 0, pair64 (w 2) (w 3),
    w 5 ++ w 4, w 6, w 7, 0, s.dt⟩
  let s := setPart s part { partAt s part with mapQueue := (partAt s part).mapQueue ++ [r] }
  setGroup s core slot (g.onStrands g.live (fun t => { t with held := some .service }))

/-- What the gathered and quiet group does at `gcall`: a check that fails stops it before any effect, its strands no longer held (R372,
R396); else the caller's frame is written to the gate's save area (R179). -/
def callGate (c : Ctx) (i : Nat) (s : State) : State :=
  match groupAt s c.core c.slot with
  | none => s
  | some g =>
    let part := (partOfCore s c.core).getD 0
    match gateRead s c.asker part i with
    | .waits => waitEyelet s c.asker part i
    | r =>
      match worst (gateConds s c.asker part i g) with
      | some x =>
        takeTrap (setGroup (dropPulls (logEyelet s c.asker c.core c.slot part i) c.asker) c.core c.slot (g.onStrands g.live (fun t => { t with held := none })))
          c.core c.slot ⟨x.code, x.strand, c.pc, 0⟩
      | none =>
        let e := GateEntry.ofBytes (match r with | .bytes bs => bs | _ => [])
        let g' := g.enterGate e (domReg s part e.dom) c.pc c.dt c.free
        let s := writeOpenFrame (eyeletRead s c.asker part i) c.core c.slot part (gateFrame e.save c.core c.slot g.calls.length) c.free
        let s := setGroup s c.core c.slot g'
        if i = 0 then requestService s c.core c.slot part g' else s

/-- `GCALL` (R180): gathered as by `regang`, then once every register is full and no flag counts. It waits for the page of the gate's
entry. -/
def execGcall (g : Fin 4) (i : Fin 65536) (s : State) : Out :=
  let n : Needs := { len := 4, gap := g, zone := .notHandler, code := true }
  let waits := fun (c : Ctx) (s : State) => gateRead s c.asker ((partOfCore s c.core).getD 0) i == .waits
  issueOr (fun c s => if waits c s && !notReady n s c then waitEyelet s c.asker ((partOfCore s c.core).getD 0) i else s) (fun _ _ => n) n
    (gateLate i) noConds (fun c s => waits c s || gatherWait Group.quiet c s)
    (fun c s => gather c (fun _ s =>
      match groupAt s c.core c.slot with
      | some gr => if gr.quiet then callGate c i s else s
      | none => s) s) s

/-- 0x17 at depth 0 (R396). -/
def depthConds (c : Ctx) (_ : State) : List Cond := if c.g.calls.isEmpty then [⟨0x17, c.low, 0⟩] else []

/-- Leaving a gate with results kept or scrubbed and a status (R180); uncorrectable data in the caller's frame, at the address that the
group's core and slot give now, ends the group (R179, R397). -/
def leaveGate (g : Nat) (keep : CallFrame → Nat × Nat) (status : Word) : State → Out :=
  issue { len := 4, gap := g } depthConds (gatherWait Group.quiet)
    (fun c s => gather c (fun _ s =>
      match groupAt s c.core c.slot with
      | none => s
      | some gr =>
        match gr.calls with
        | [] => s
        | f :: rest =>
          if !gr.quiet then s
          else if callsDamaged s c.core c.slot 1 gr then endDamagedCalls s c.core c.slot 1 gr
          else setGroup s c.core c.slot (gr.popCall f rest (keep f).1 (keep f).2 status)) s)

/-- `GRET` (R180). -/
def execGret (g : Fin 4) (s : State) : Out := leaveGate g (fun f => (f.nvr, f.nur)) 0 s

/-- `GABORT` (R180). -/
def execGabort (g : Fin 4) (i : Fin 65536) (s : State) : Out :=
  leaveGate g (fun _ => (0, 0)) (if i.val = 0 then 1 else BitVec.ofNat 32 i) s

end Sys2Proof.Machine
end

