-- ==== Sys2Proof/Machine/Lattice.lean ====
section
/-! DEFINITION. Lattices: descriptors, footprints, values, gradients and splats (R116 to R125), and the lattice instructions (R288 to R291,
R398). -/

namespace Sys2Proof.Machine

/-! Descriptors. -/

/-- A lattice descriptor (Table 9.1). -/
structure Lattice where
  base  : Nat
  kind  : Nat
  dims  : Nat
  fmt   : Nat
  ch    : Nat
  order : Nat
  ro    : Bool
  edges : List Nat
  ext   : List Nat
  scale : List Word
  off   : List Word
  l     : Nat
  e     : Int
deriving DecidableEq, Repr

def Lattice.ofBytes (b : List Byte) : Lattice :=
  let edge := fieldLE b 14 2
  ⟨fieldLE b 0 8, fieldLE b 8 1, fieldLE b 9 1, fieldLE b 10 1, fieldLE b 11 1, fieldLE b 12 1, bitOf (fieldLE b 13 1) 0,
    [edge % 8, edge / 8 % 8, edge / 64 % 8],
    [fieldLE b 16 4, fieldLE b 20 4, fieldLE b 24 4],
    [BitVec.ofNat 32 (fieldLE b 28 4), BitVec.ofNat 32 (fieldLE b 32 4), BitVec.ofNat 32 (fieldLE b 36 4)],
    [BitVec.ofNat 32 (fieldLE b 40 4), BitVec.ofNat 32 (fieldLE b 44 4), BitVec.ofNat 32 (fieldLE b 48 4)],
    fieldLE b 52 1, signed 8 (fieldLE b 53 1)⟩

/-- Bytes of an element of a format (R117). -/
def elemSize (fmt : Nat) : Nat :=
  match fmt with
  | 0x02 => 4
  | 0x03 => 2
  | 0x04 => 2
  | 0x0A => 8
  | _ => 1

/-- The exact value of an element: FX64 n counts as n·2^−E (R117). -/
def elemValue (fmt : Nat) (e : Int) (raw : Nat) : Fp :=
  if fmt = 0x0A then (Fp.ofInt (signed 64 raw)).scale (-e) else valueOf fmt raw

def b8Code (fmt : Nat) : Bool := decide (0x20 ≤ fmt ∧ fmt ≤ 0x3B)

/-- A descriptor that keeps every rule of Table 9.1. -/
def latticeValid (b : List Byte) : Bool :=
  let d := Lattice.ofBytes b
  let used := List.range d.dims
  b.length == 64 && decide (d.kind < 3) && decide (1 ≤ d.dims ∧ d.dims ≤ 3) &&
  (d.fmt == 0x02 || d.fmt == 0x03 || d.fmt == 0x04 || d.fmt == 0x0A || b8Code d.fmt) &&
  decide (1 ≤ d.ch ∧ d.ch ≤ 8) && (d.order == 0 || d.order == 1 || d.order == 3) &&
  decide (fieldLE b 13 1 < 2) && decide (fieldLE b 14 2 < 512) && fieldLE b 54 10 == 0 &&
  used.all (fun k => decide (d.edges.getD k 0 < 5) && decide (1 ≤ d.ext.getD k 0 ∧ d.ext.getD k 0 ≤ 2 ^ 24)) &&
  d.base % elemSize d.fmt == 0 &&
  (if d.kind = 1 then decide (10 ≤ d.l ∧ d.l ≤ 28) else true) &&
  (if d.kind = 2 then d.dims == 1 && d.ch == 1 && d.ro else true)

/-- Positions a dimension has (Table 20.1). -/
def Lattice.positions (d : Lattice) : Nat := if d.order = 3 then 4 else d.order + 1

/-! Footprints (R119 to R121). -/

/-- n·2^−k rounded to an integer, ties to even. -/
def rneInt (n : Int) (k : Nat) : Int :=
  let q := n / (2 ^ k : Nat)
  let r := n % (2 ^ k : Nat)
  if 2 * r > (2 ^ k : Nat) ∨ (2 * r = (2 ^ k : Nat) ∧ q % 2 = 1) then q + 1 else q

/-- The index and the 16-bit fraction of a coordinate in a dimension; none for a non-finite access (R119). -/
def cellOf (s o c : Word) : Option (Int × Int) :=
  match f32 c, f32 (bits32 (fp32.fma .rne (f32 c) (f32 s) (f32 o)).1) with
  | .num _ _ _, .num neg m e =>
    let mag : Int := if neg then -(m : Int) else m
    let k := if e < 0 then (-e).toNat else 0
    let n := clampInt (-(2 ^ (24 + k) : Nat)) (2 ^ (24 + k) : Nat) (mag * (2 ^ e.toNat : Nat))
    let i := n / (2 ^ k : Nat)
    let q := rneInt (n % (2 ^ k : Nat) * 65536) k
    some (if q = 65536 then (i + 1, 0) else (i, q))
  | _, _ => none

/-- A position of a footprint: its place, and its weight and derivative in units of 2^−40 (Table 9.2). -/
structure Foot where
  pos : Int
  w   : Int
  dw  : Int
deriving DecidableEq, Repr

/-- The positions of a cell (Table 9.2). -/
def footOf (order : Nat) (i q : Int) : List Foot :=
  let one : Int := (2 ^ 40 : Nat)
  match order with
  | 0 => [⟨if q < 32768 then i else i + 1, one, 0⟩]
  | 1 => [⟨i, one - q * 2 ^ 24, -one⟩, ⟨i + 1, q * 2 ^ 24, one⟩]
  | _ =>
    let q2 := q * q
    let q3 := q2 * q
    [⟨i - 1, rneInt (-q3 + 2 * q2 * 2 ^ 16 - q * 2 ^ 32) 9, (-3 * q2 + 4 * q * 2 ^ 16 - 2 ^ 32) * 2 ^ 7⟩,
      ⟨i, rneInt (3 * q3 - 5 * q2 * 2 ^ 16 + 2 * 2 ^ 48) 9, (9 * q2 - 10 * q * 2 ^ 16) * 2 ^ 7⟩,
      ⟨i + 1, rneInt (-3 * q3 + 4 * q2 * 2 ^ 16 + q * 2 ^ 32) 9, (-9 * q2 + 8 * q * 2 ^ 16 + 2 ^ 32) * 2 ^ 7⟩,
      ⟨i + 2, rneInt (q3 - q2 * 2 ^ 16) 9, (3 * q2 - 2 * q * 2 ^ 16) * 2 ^ 7⟩]

/-- The index of a position under an edge rule (Table 9.3); none where it is dropped. A position outside under TRAP is refused before. -/
def edgeIndex (rule n : Nat) (p : Int) : Option Nat :=
  match rule with
  | 0 => some (min (max p 0) ((n : Int) - 1)).toNat
  | 1 => some (p % (n : Int)).toNat
  | 2 =>
    let m := p % (2 * (n : Int))
    some (if m < n then m.toNat else (2 * (n : Int) - 1 - m).toNat)
  | _ => if 0 ≤ p ∧ p < n then some p.toNat else none

def outsideTrap (rule n : Nat) (p : Int) : Bool := rule == 4 && !decide (0 ≤ p ∧ p < n)

/-- A footprint after the edge rule: distinct indices with merged weights and derivatives (R121). -/
def mergeFoot (rule n : Nat) (fs : List Foot) : List (Nat × Int × Int) :=
  fs.foldl (fun acc f =>
    match edgeIndex rule n f.pos with
    | none => acc
    | some k =>
      if acc.any (fun a => a.1 == k) then acc.map (fun a => if a.1 = k then (k, a.2.1 + f.w, a.2.2 + f.dw) else a)
      else acc ++ [(k, f.w, f.dw)]) []

/-- The cells of the dimensions; none for a non-finite access. -/
def Lattice.cells (d : Lattice) (cs : List Word) : Option (List (Int × Int)) :=
  (List.range d.dims).mapM (fun k => cellOf (d.scale.getD k 0) (d.off.getD k 0) (cs.getD k 0))

def Lattice.feet (d : Lattice) (cells : List (Int × Int)) : List (List Foot) := cells.map (fun c => footOf d.order c.1 c.2)

/-- Some position lies outside a dimension whose edge rule is TRAP (R398). -/
def Lattice.traps (d : Lattice) (feet : List (List Foot)) : Bool :=
  (List.range d.dims).any (fun k => (feet.getD k []).any (fun f => outsideTrap (d.edges.getD k 0) (d.ext.getD k 0) f.pos))

/-! Corners (R122). -/

/-- A corner: an index in each dimension, W, and G of each dimension. -/
structure Corner where
  idx : List Nat
  w   : Word
  g   : List Word
deriving DecidableEq, Repr

/-- rne32 of an integer in units of 2^−40k. -/
def weight32 (k : Nat) (n : Int) : Word := bits32 (fp32.pack .rne (.num (decide (n < 0)) n.natAbs (-(40 * (k : Int))))).1

/-- All choices of one entry of each list. -/
def choices {α : Type} : List (List α) → List (List α)
  | [] => [[]]
  | xs :: rest => xs.flatMap (fun x => (choices rest).map (fun t => x :: t))

def productInt (l : List Int) : Int := l.foldl (· * ·) 1

/-- The corners of merged footprints. -/
def cornersOf (merged : List (List (Nat × Int × Int))) : List Corner :=
  (choices merged).map (fun c =>
    let k := c.length
    { idx := c.map (fun e => e.1)
      w := weight32 k (productInt (c.map (fun e => e.2.1)))
      g := (List.range k).map (fun d =>
        weight32 k (productInt ((c.zip (List.range k)).map (fun e => if e.2 = d then e.1.2.2 else e.1.2.1)))) })

/-- A weight that is not zero. -/
def nonzero32 (w : Word) : Bool := !(f32 w).isZero

def Corner.used (c : Corner) : Bool := nonzero32 c.w || c.g.any nonzero32

/-- The corners of an access; none when it is non-finite. -/
def Lattice.corners (d : Lattice) (cs : List Word) : Option (List Corner) :=
  (d.cells cs).map (fun cells =>
    cornersOf ((List.range d.dims).map (fun k =>
      mergeFoot (d.edges.getD k 0) (d.ext.getD k 0) ((d.feet cells).getD k []))))

/-- The address of an element (R117, R118). -/
def Lattice.address (d : Lattice) (idx : List Nat) (ch : Nat) : Nat :=
  let i0 := idx.getD 0 0
  let i1 := idx.getD 1 0
  let i2 := idx.getD 2 0
  let z := elemSize d.fmt
  if d.kind = 1 then
    let h := (i0 % 2 ^ 32) ^^^ (i1 * 0x71C3A93B % 2 ^ 32) ^^^ (i2 * 0xE2C4867D % 2 ^ 32)
    d.base + (h % 2 ^ d.l * d.ch + ch) * z
  else d.base + (((i2 * d.ext.getD 1 0 + i1) * d.ext.getD 0 0 + i0) * d.ch + ch) * z

/-- A destination of a read from its landed elements (R122): rne32 of the exact sum of the products, and a gradient times its scale; none
where an element it needs met an error. -/
def GatherOut.result (o : GatherOut) (fmt : Nat) (e : Int) (elem : Nat → Option Nat) : Option Word :=
  (o.terms.mapM (fun t => (elem t.1).map (fun raw => ((f32 t.2).mul (elemValue fmt e raw)).1))).map (fun ps =>
    let v := (fp32.pack .rne (exactSum .rne ps).1).1
    match o.scale with
    | none => bits32 v
    | some sc => bits32 (fp32.mul .rne (fp32.decode v) (f32 sc)).1)

/-- The destinations of a read over corners numbered in their order: element number of corner `k`, channel `ch`, is k·CH + ch. -/
def Lattice.outs (d : Lattice) (cs : List Corner) (dst : Nat) (grads : Bool) : List GatherOut :=
  let num := cs.zip (List.range cs.length)
  let terms := fun (ch : Nat) (f : Corner → Word) =>
    num.filterMap (fun e => if nonzero32 (f e.1) then some (e.2 * d.ch + ch, f e.1) else none)
  (List.range d.ch).flatMap (fun ch =>
    let base := if grads then dst + ch * (d.dims + 1) else dst + ch
    ⟨base, terms ch Corner.w, none⟩ ::
      (if grads then (List.range d.dims).map (fun k => ⟨base + 1 + k, terms ch (fun c => c.g.getD k 0), some (d.scale.getD k 0)⟩)
       else []))

/-- The elements of corners: number and address. -/
def Lattice.elements (d : Lattice) (cs : List Corner) : List (Nat × Nat) :=
  (cs.zip (List.range cs.length)).flatMap (fun e =>
    (List.range d.ch).map (fun ch => (e.2 * d.ch + ch, d.address e.1.idx ch)))

/-! The shared checks (R288, R398, R411). -/

/-- The descriptors of a launch. -/
def latticeTable (s : State) (g : Group) : List (List Byte) := ((runOf s g).map NodeRun.lattice).getD []

def latticeBytes (s : State) (g : Group) (slot : Nat) : List Byte := (latticeTable s g).getD slot []

def latticeAt (s : State) (g : Group) (slot : Nat) : Lattice := Lattice.ofBytes (latticeBytes s g slot)

/-- What a lattice instruction uses beyond its fields: the coordinate registers, the other sources and the destinations (Table 20.1). -/
structure LatUse where
  coords : Bool
  src    : Lattice → List Nat
  dst    : Lattice → List Nat

def latNeeds (g p d a slot : Nat) (u : LatUse) (c : Ctx) (s : State) : Needs :=
  let x := latticeAt s c.g slot
  let cs := regsFrom a x.dims
  { laneNeeds 4 g p (cs ++ u.src x) (u.dst x) with
    zone := .block, varLat := true, named := some [d, a]
    tags := ((if u.coords then cs else []) ++ u.src x).map (fun r => (r, fpTags)) }

/-- The slot, the descriptor, and for a splat RO and FMT (0x13, R398, R411), then the registers that the descriptor implies (0x04). -/
def latLate (slot a : Nat) (u : LatUse) (writes : Lattice → Bool) (c : Ctx) (s : State) : List Cond :=
  let x := latticeAt s c.g slot
  if slot ≥ (latticeTable s c.g).length ∨ !latticeValid (latticeBytes s c.g slot) ∨ !writes x then [⟨0x13, c.low, 0⟩]
  else allocConds c (regsFrom a x.dims ++ u.src x ++ u.dst x) []

/-- The lowest failing byte of a lane's elements (R382). -/
def elementConds (c : Ctx) (perms size l : Nat) (vas : List Nat) : List Cond :=
  match (vas.filterMap (fun va => rangeFail c.g.dom.ranges perms va size)).min? with
  | some va => [⟨0x0C, l / 4, va⟩]
  | none => []

def coordsOf (c : Ctx) (x : Lattice) (a l : Nat) : List Word := (List.range x.dims).map (fun k => c.v (a + k) l)

/-- 0x12 and 0x0C of accesses at coordinates: a lane may meet both, since the corners that lie inside are range-checked too (R382, R411). -/
def latConds (slot a perms : Nat) (used : Corner → Bool) (c : Ctx) (s : State) : List Cond :=
  let x := latticeAt s c.g slot
  c.lanes.flatMap (fun l =>
    match x.cells (coordsOf c x a l) with
    | none => []
    | some cells =>
      let cs := ((x.corners (coordsOf c x a l)).getD []).filter used
      (if x.traps (x.feet cells) then [(⟨0x12, l / 4, 0⟩ : Cond)] else []) ++
        elementConds c perms (elemSize x.fmt) l ((x.elements cs).map Prod.snd))

/-- A lattice instruction. -/
def latOp (g p d a slot : Nat) (u : LatUse) (closes : Bool) (writes : Lattice → Bool) (own : Ctx → State → List Cond)
    (eff : Ctx → State → Lattice → State) : State → Out :=
  issueWith (fun c s => { latNeeds g p d a slot u c s with closes := closes }) (laneNeeds 4 g p [] []) (latLate slot a u writes) own noWait
    (fun c s => retire c 4 (eff c s (latticeAt s c.g slot)))

/-- A gather of a lane set on its way: its elements are read one by one, and a lane that needs none lands by itself. -/
def startGather (c : Ctx) (x : Lattice) (l : Nat) (els : List (Nat × Nat)) (outs : List GatherOut) (s : State) : State :=
  let y := c.access s l
  if els.isEmpty then
    sendReply s ⟨c.src l, y.launch, .lanes (outs.map (fun o => (o.reg, l, (o.result x.fmt x.e (fun _ => some 0)).getD 0))) 64, none,
        none, none⟩
  else
    let (id, s) := takeId s
    let s := { s with gathers := setAt s.gathers id ⟨c.src l, y.launch, l, x.fmt, x.e, els.length, [], outs⟩ }
    els.foldl (fun s e => sendCorner y e.2 (iaOf c (permL + permR) e.2) (elemSize x.fmt) id e.1 s) s

/-- Marking the destinations and starting each lane's read; a lane without a plan gets the canonical NaN. -/
def latRead (c : Ctx) (x : Lattice) (dst : List Nat) (plan : Nat → Option (List (Nat × Nat) × List GatherOut)) (s : State) : State :=
  let s := modifyGroup s c.core c.slot (fun gr => dst.foldl (fun gr r => gr.markV r tagFP32 c.act) gr)
  forLanes c (fun l s =>
    match plan l with
    | some (els, outs) => startGather c x l els outs s
    | none => sendReply s ⟨c.src l, accessLaunch s c.core c.g, .lanes (dst.map (fun r => (r, l, (0x7FC00000 : Word)))) 64, none, none,
        none⟩) s

/-! The instructions. -/

def readOp (g p d a slot : Nat) (grads : Bool) : State → Out :=
  let dst := fun x : Lattice => regsFrom d (if grads then x.ch * (x.dims + 1) else x.ch)
  latOp g p d a slot ⟨true, fun _ => [], dst⟩ false (fun _ => true) (latConds slot a (permL + permR) Corner.used)
    (fun c s x => latRead c x (dst x) (fun l =>
      (x.corners (coordsOf c x a l)).map (fun cs =>
        let cs := cs.filter Corner.used
        (x.elements cs, x.outs cs d grads))) s)

/-- `ILD` (R289). -/
def execIld (g : Fin 4) (p : Fin 8) (d a : Fin 64) (sl : Fin 16) (s : State) : Out := readOp g p d a sl false s

/-- `ILDG` (R289). -/
def execIldg (g : Fin 4) (p : Fin 8) (d a : Fin 64) (sl : Fin 16) (s : State) : Out := readOp g p d a sl true s

/-- FMT that splats accept, and a descriptor they may write (R116, R398). -/
def splatOk (x : Lattice) : Bool := !x.ro && (x.fmt == 0x02 || x.fmt == 0x0A)

/-- A corner's update by an exact amount (R124): an FP32 or an FX64 add at home. -/
def sendAmount (c : Ctx) (x : Lattice) (l va : Nat) (t : Fp) (s : State) : State :=
  let ia := iaOf c (permL + permW) va
  if x.fmt = 0x0A then sendRed (c.access s l) va ia .addx (BitVec.ofInt 64 (toFx64 x.e t)) false s
  else sendRed (c.access s l) va ia .addf (BitVec.ofNat 64 (fp32.pack .rne t).1) false s

/-- A splat (R124): `amount` is the exact amount of a corner and a channel in a lane. -/
def splatOp (g p d a slot : Nat) (src : Lattice → List Nat) (used : Corner → Bool) (amount : Ctx → Lattice → Nat → Corner → Nat → Fp) :
    State → Out :=
  latOp g p d a slot ⟨true, src, fun _ => []⟩ true splatOk (latConds slot a (permL + permW) used)
    (fun c s x => forLanes c (fun l s =>
      (((x.corners (coordsOf c x a l)).getD []).filter used).foldl (fun s k =>
        (List.range x.ch).foldl (fun s ch => sendAmount c x l (x.address k.idx ch) (amount c x l k ch) s) s) s) s)

/-- `ISPL` (R124, R289). -/
def execIspl (g : Fin 4) (p : Fin 8) (d a : Fin 64) (sl : Fin 16) (s : State) : Out :=
  splatOp g p d a sl (fun x => regsFrom d x.ch) (fun k => nonzero32 k.w)
    (fun c _ l k ch => ((f32 k.w).mul (f32 (c.v (d + ch) l))).1) s

/-- `ISPLG` (R124, R289). -/
def execIsplg (g : Fin 4) (p : Fin 8) (d a : Fin 64) (sl : Fin 16) (s : State) : Out :=
  splatOp g p d a sl (fun x => regsFrom d (x.ch * x.dims)) (fun k => k.g.any nonzero32)
    (fun c x l k ch => (exactSum .rne (((List.range x.dims).filter (fun j => nonzero32 (k.g.getD j 0))).map (fun j =>
      ((((f32 (k.g.getD j 0)).mul (f32 (x.scale.getD j 0))).1).mul (f32 (c.v (d + ch * x.dims + j) l))).1))).1) s

/-- The integer indices of a lane. -/
def indicesOf (c : Ctx) (x : Lattice) (a l : Nat) : List Int := (List.range x.dims).map (fun k => (c.v (a + k) l).toInt)

/-- Where integer indices lead: none where a dimension drops them (R290). -/
def Lattice.place (x : Lattice) (ps : List Int) : Option (List Nat) :=
  (List.range x.dims).mapM (fun k => edgeIndex (x.edges.getD k 0) (x.ext.getD k 0) (ps.getD k 0))

def Lattice.indexTraps (x : Lattice) (ps : List Int) : Bool :=
  (List.range x.dims).any (fun k => outsideTrap (x.edges.getD k 0) (x.ext.getD k 0) (ps.getD k 0))

/-- 0x12 and 0x0C of accesses at integer indices: a lane with an index outside under TRAP has no element. -/
def indexConds (slot a perms : Nat) (c : Ctx) (s : State) : List Cond :=
  let x := latticeAt s c.g slot
  c.lanes.flatMap (fun l =>
    if x.indexTraps (indicesOf c x a l) then [(⟨0x12, l / 4, 0⟩ : Cond)]
    else
      match x.place (indicesOf c x a l) with
      | some idx => elementConds c perms (elemSize x.fmt) l ((List.range x.ch).map (x.address idx))
      | none => [])

/-- `IFETCH` (R290): a dropped index reads +0. -/
def execIfetch (g : Fin 4) (p : Fin 8) (d a : Fin 64) (sl : Fin 16) (s : State) : Out :=
  let dst := fun x : Lattice => regsFrom d x.ch
  latOp g p d a sl ⟨false, fun _ => [], dst⟩ false (fun _ => true) (indexConds sl a (permL + permR))
    (fun c s x => latRead c x (dst x) (fun l =>
      match x.place (indicesOf c x a l) with
      | some idx => some ((List.range x.ch).map (fun ch => (ch, x.address idx ch)),
          (List.range x.ch).map (fun ch => ⟨d + ch, [(ch, 0x3F800000)], none⟩))
      | none => some ([], (List.range x.ch).map (fun ch => ⟨d + ch, [], none⟩))) s) s

/-- An element converted for `istx`: RNE, saturation from NFV.SAT (R290). -/
def storedElement (c : Ctx) (x : Lattice) (w : Word) : Nat :=
  if x.fmt = 0x0A then intCode 64 (toFx64 x.e (f32 w)) else (convertTo x.fmt .rne (flagOf c.g.nfv 9) false (f32 w)).1

/-- `ISTX` (R290): lanes that write one element leave the highest lane's value (R88). -/
def execIstx (g : Fin 4) (p : Fin 8) (d a : Fin 64) (sl : Fin 16) (s : State) : Out :=
  latOp g p d a sl ⟨false, fun x => regsFrom d x.ch, fun _ => []⟩ false (fun x => !x.ro) (indexConds sl a (permL + permW))
    (fun c s x =>
      let va := fun (l ch : Nat) => (x.place (indicesOf c x a l)).map (fun idx => x.address idx ch)
      forLanes c (fun l s => (List.range x.ch).foldl (fun s ch =>
        match va l ch with
        | some v =>
          if c.lanes.any (fun j => decide (l < j) && (va j ch).map (iaOf c (permL + permW)) == some (iaOf c (permL + permW) v)) then s
          else sendStore (c.access s l) v (iaOf c (permL + permW) v) (elemSize x.fmt) (storedElement c x (c.v (d + ch) l))
            (ones (elemSize x.fmt)) s
        | none => s) s) s) s

/-- The weights that `iwgt` gives for register number `r` of its range (R291). -/
def weightWord (x : Lattice) (cells : List (Int × Int)) (r : Nat) : Word :=
  let n := x.positions
  let r' := r % (x.dims * n)
  let f := ((x.feet cells).getD (r' / n) []).getD (r' % n) ⟨0, 0, 0⟩
  weight32 1 (if r < x.dims * n then f.w else f.dw)

/-- `IWGT` (R291). -/
def execIwgt (g : Fin 4) (p : Fin 8) (d a : Fin 64) (sl : Fin 16) (s : State) : Out :=
  let dst := fun x : Lattice => regsFrom d (2 * x.positions * x.dims)
  latOp g p d a sl ⟨true, fun _ => [], dst⟩ false (fun _ => true) noConds
    (fun c s x => sendUnit c ((dst x).map (fun r => (r, tagFP32))) (fun r l =>
      match x.cells (coordsOf c x a l) with
      | some cells => weightWord x cells (r - d)
      | none => 0x7FC00000) false 0 s) s

/-- `ICELL` (R291). -/
def execIcell (g : Fin 4) (p : Fin 8) (d a : Fin 64) (sl : Fin 16) (s : State) : Out :=
  let dst := fun x : Lattice => regsFrom d (2 * x.dims)
  latOp g p d a sl ⟨true, fun _ => [], dst⟩ false (fun _ => true) noConds
    (fun c s x => sendUnit c ((dst x).map (fun r => (r, tagI32))) (fun r l =>
      match x.cells (coordsOf c x a l) with
      | some cells =>
        let k := r - d
        if k < x.dims then BitVec.ofInt 32 (cells.getD k (0, 0)).1 else BitVec.ofInt 32 (cells.getD (k - x.dims) (0, 0)).2
      | none => if r - d < x.dims then 0x80000000 else 0) false 0 s) s

end Sys2Proof.Machine
end

