-- ==== Sys2Proof/Machine/WorkList.lean ====
section
/-! DEFINITION. Work lists (R300 to R304, R378), sorted windows (R305), and the fence conditions that an insertion waits for (R99). -/

namespace Sys2Proof.Machine

/-- The conditions of a fence of scope 0 `.b`, 1 `.d` or 2 `.s` over what a group issued under numbers below `upTo` (R99, R392). Writes
enter the hoop when they issue. -/
def fenceHolds (s : State) (core : Nat) (g : Group) (scope upTo : Nat) : Bool :=
  !isUnsync s (.core core) && !readsOut s g.uid upTo &&
  (scope == 0 || (!writesOut s g.uid upTo && decide (g.rh + 4 ≤ dtCore s core))) &&
  (scope != 2 || !hostOut s g.uid upTo)

/-! Work lists. -/

/-- The work list of a launch by its number. -/
def listAt (s : State) (g : Group) (w : Nat) : Option WorkList := (runOf s g).bind (fun r => r.lists[w]?)

/-- 0x15 for a list at or above WLN, one whose descriptor breaks Table 20.7, or a KIND that the instruction does not accept (R414). -/
def listConds (w : Nat) (kinds : List Nat) (c : Ctx) (s : State) : List Cond :=
  match listAt s c.g w with
  | some l => if l.bad ∨ !kinds.contains l.kind then [⟨0x15, c.low, 0⟩] else []
  | none => [⟨0x15, c.low, 0⟩]

def setList (s : State) (g : Group) (w : Nat) (l : WorkList) : State :=
  match blockOf s g with
  | some b => { s with runs := modifyAt s.runs b.run (fun r => { r with lists := r.lists.set w l }) }
  | none => s

/-- Entries that the engine's own store holds (R300). -/
def engineEntries : Nat := 4096

/-- The entries of a list. -/
def WorkList.count (l : WorkList) : Nat := l.entries.length + l.places.length

/-- The domain of a launch. -/
def launchDomain (s : State) (g : Group) : DomReg :=
  match lookupAt s.launches (launchOf s g) with
  | some l => domReg s l.part l.dom
  | none => g.dom

/-- 0x1C once the fence has been waited out (R378): the items exceed the free entries, or the spill area they need fails R78. -/
def spillConds (w : Nat) (c : Ctx) (s : State) : List Cond :=
  if !fenceHolds s c.core c.g 1 s.nextId then []
  else
    match listAt s c.g w with
    | none => []
    | some l =>
      let n := l.count + c.lanes.length
      if engineEntries + l.cap < n then [⟨0x1C, c.low, 0⟩]
      else if n ≤ engineEntries then []
      else
        match rangeFail (launchDomain s c.g).ranges (permR + permW) l.spill (8 * (n - engineEntries)) with
        | some _ => [⟨0x1C, c.low, l.spill⟩]
        | none => []

/-- The needs of a work-list instruction. -/
def listNeeds (g p : Nat) (src dst : List Nat) (closes : Bool) : Needs :=
  { laneNeeds 4 g p src dst with zone := .block, varLat := true, closes := closes }

/-! The spill area (R300; log 67). -/

/-- An entry in an operation: its value and key, and its place if it stands in the spill area. -/
abbrev Item := (Word × Word) × Option Nat

/-- The engine at work on a list of a launch. -/
def listWork (launch w : Nat) : Nat := 2 ^ 67 + 4 * launch + w
def listAsker (s : State) (g : Group) (w : Nat) : Asker := iodAsker (listWork (launchOf s g) w)

/-- A write of the engine into the area has still to be performed: the engine reads there when it has. -/
def listWriting (s : State) (who : Asker) : Bool :=
  s.net.any (fun e => e.2.src.uid == who.src.uid && !e.2.kind.isPull && !e.2.over)

/-- An entry read back; of one that cannot be read the spec says nothing: its words are free values (log 67). -/
def readPlace (s : State) (who : Asker) (part : Nat) (d : DomReg) (l : WorkList) (k : Nat) : Option (Word × Word) :=
  match readVa s who part d permR (l.spill + 8 * k) 8 with
  | .bytes bs => some (BitVec.ofNat 32 (fieldLE bs 0 4), BitVec.ofNat 32 (fieldLE bs 4 4))
  | .waits => none
  | _ => some (Config.freeWord (s.free + 2 * k), Config.freeWord (s.free + 2 * k + 1))

/-- Entries read back, none while one waits. -/
def readPlaces (s : State) (who : Asker) (part : Nat) (d : DomReg) (l : WorkList) : List Nat → Option (List (Word × Word))
  | [] => some []
  | k :: t =>
    match readPlace s who part d l k, readPlaces s who part d l t with
    | some e, some es => some (e :: es)
    | _, _ => none

/-- The items of a list of which the engine has read back the first `n` of the area; it has no need of the others. -/
def WorkList.items (l : WorkList) (s : State) (who : Asker) (part : Nat) (d : DomReg) (n : Nat) : Option (List Item) :=
  if !(l.places.take n).isEmpty && listWriting s who then none
  else
    (readPlaces s who part d l (l.places.take n)).map (fun es =>
      l.entries.map (fun e => (e, none)) ++ (es ++ List.replicate (l.places.length - es.length) (0, 0)).zip (l.places.map some))

/-- Items behind those of the engine's store: each keeps its place, or gets a free one. -/
def assignPlaces : List Item → List Nat → List (Nat × Item)
  | [], _ => []
  | (e, some k) :: t, free => (k, (e, some k)) :: assignPlaces t free
  | (e, none) :: t, free => (free.headD 0, (e, none)) :: assignPlaces t (free.drop 1)

/-- The items behind the engine's store with their places. -/
def placed (is : List Item) : List (Nat × Item) :=
  let out := is.drop engineEntries
  let used := out.filterMap Prod.snd
  assignPlaces out ((List.range out.length).filter (fun k => !used.contains k))

/-- A list of some items. -/
def WorkList.withItems (l : WorkList) (is : List Item) : WorkList :=
  { l with entries := (is.take engineEntries).map Prod.fst, places := (placed is).map Prod.fst }

/-- An entry that has left the store, or has come beyond it, is written to its place: value, then key. -/
def spillItem (who : Asker) (part launch : Nat) (d : DomReg) (l : WorkList) (s : State) (x : Nat × Item) : State :=
  match x.2.2, rangeIa d.ranges (permR + permW) (l.spill + 8 * x.1) with
  | none, some ia =>
    let e := x.2.1
    sendReq s { who.req s part d ia 8 (.put (e.1.toNat + e.2.toNat * 2 ^ 32) (ones 8)) with launch := launch }
  | _, _ => s

/-- The completion time of an engine's write that has been performed. -/
def Req.doneAt (r : Req) : Nat :=
  match r.kind.isPull, r.state with
  | false, .ready t => t
  | _, _ => 0

/-- What the engine has asked for and has got is over: its launch's record waits for the times of its writes (R109). -/
def listDone (s : State) (who : Asker) (launch : Nat) : State :=
  let t := (s.net.filter (fun e => e.2.src.uid == who.src.uid)).foldl (fun t e => max t e.2.doneAt) 0
  { s with
    net := s.net.filter (fun e => !(e.2.src.uid == who.src.uid && (e.2.kind.isPull || e.2.over)))
    launches := modifyAt s.launches launch (fun x => { x with maxT := max x.maxT t }) }

/-- A list changed by an operation of the engine that has read the first `n` places of the area. -/
def changeList (c : Ctx) (w n : Nat) (l : WorkList) (is : List Item) (s : State) : State :=
  let who := listAsker s c.g w
  let part := (partOfCore s c.core).getD 0
  let d := launchDomain s c.g
  let ks := l.places.take n
  let s := ks.foldl (fun s k => logVa s part d.id (readVa s who part d permR (l.spill + 8 * k) 8)) s
  let s := rangesRead s who part d (ks.map (fun k => ⟨l.spill + 8 * k, 8⟩))
  (placed is).foldl (spillItem who part (launchOf s c.g) d l)
    (setList (if l.places.isEmpty then s else listDone s who (launchOf s c.g)) c.g w (l.withItems is))

/-- The items with which an operation works. -/
def itemsOf (c : Ctx) (w n : Nat) (l : WorkList) (s : State) : Option (List Item) :=
  l.items s (listAsker s c.g w) ((partOfCore s c.core).getD 0) (launchDomain s c.g) n

/-- An operation of the engine on a list: it needs the first `need` places of the area, and waits until they are read back, once nothing
else holds it up. -/
def listOp (n : Needs) (w : Nat) (need : Ctx → WorkList → Nat) (own : Ctx → State → List Cond) (wait : Ctx → State → Bool)
    (f : Ctx → WorkList → List Item → State → State) : State → Out :=
  let items := fun (c : Ctx) (s : State) => (listAt s c.g w).bind (fun l => (itemsOf c w (need c l) l s).map (fun is => (l, is)))
  issueOr
    (fun c s =>
      match listAt s c.g w with
      | some l =>
        if notReady n s c || emptySource n c || destBusy n c || wait c s || listWriting s (listAsker s c.g w) then s
        else askRanges (listAsker s c.g w) ((partOfCore s c.core).getD 0) (launchDomain s c.g)
          ((l.places.take (need c l)).map (fun k => ⟨l.spill + 8 * k, 8⟩)) s
      | none => s)
    (fun _ _ => n) n noConds own (fun c s => wait c s || ((listAt s c.g w).isSome && (items c s).isNone))
    (fun c s => retire c 4 (match items c s with
      | some (l, is) => f c l is s
      | none => s))

/-- An item placed behind every item whose key is not larger (R302, R303). -/
def insertKey (e : Item) : List Item → List Item
  | [] => [e]
  | x :: t => if x.1.2.toNat ≤ e.1.2.toNat then x :: insertKey e t else e :: x :: t

/-- An insertion: it waits for the fence conditions, then puts in the items of the active lanes in ascending order. By key it needs to
know all keys. -/
def insertOp (g p w : Nat) (src kinds : List Nat) (conds : Ctx → List Cond) (put : Ctx → Nat → List Item → List Item) : State → Out :=
  let need := fun (_ : Ctx) (l : WorkList) => if l.kind = 1 then l.places.length else 0
  listOp (listNeeds g p src [] true) w need (fun c s => listConds w kinds c s ++ conds c ++ spillConds w c s)
    (fun c s => !fenceHolds s c.core c.g 1 s.nextId)
    (fun c l is => changeList c w (need c l) l (c.lanes.foldl (fun is k => put c k is) is))

/-- `WLPUSH` (R302). -/
def execWlpush (g : Fin 4) (p : Fin 8) (a : Fin 64) (w : Fin 4) (s : State) : Out :=
  insertOp g p w [a] [0] (fun _ => []) (fun c k is => is ++ [((c.v a k, 0), none)]) s

/-- `WLINS` (R302): 0x15 for a key of 0xFFFF_FFFF. -/
def execWlins (g : Fin 4) (p : Fin 8) (a : Fin 64) (w : Fin 4) (s : State) : Out :=
  insertOp g p w [a, a + 1] [1]
    (fun c => c.lanes.flatMap (fun k => if c.v (a + 1) k = 0xFFFFFFFF then [(⟨0x15, k / 4, 0⟩ : Cond)] else []))
    (fun c k is => insertKey ((c.v a k, c.v (a + 1) k), none) is) s

/-- What `wlpop` gives a lane: an entry of the list, or the mark of an exhausted one (R303). -/
def popped (l : WorkList) (is : List Item) (k : Nat) : Word × Word :=
  match is[k]? with
  | some e => if l.kind = 1 then e.1 else (e.1.1, 0)
  | none => (0, 0xFFFFFFFF)

/-- `WLPOP` (R303): performed when it issues, landing later. The engine's store is filled up again from the spill area. -/
def execWlpop (g : Fin 4) (p : Fin 8) (d : Fin 64) (w : Fin 4) (s : State) : Out :=
  let need := fun (c : Ctx) (_ : WorkList) => c.lanes.length
  listOp (listNeeds g p [] [d, d + 1] true) w need (listConds w [0, 1]) noWait
    (fun c l is s =>
      let item := fun k => popped l is ((c.lanes.filter (fun j => decide (j < k))).length)
      changeList c w (need c l) l (is.drop c.lanes.length)
        (sendUnit c [(d.val, tagI32), (d + 1, tagI32)] (fun r k => if r = d.val then (item k).1 else (item k).2) false 0 s)) s

/-- `WLCNT` (R303). -/
def execWlcnt (g : Fin 4) (p : Fin 8) (d : Fin 64) (w : Fin 4) (s : State) : Out :=
  issue (listNeeds g p [] [d] false) (listConds w [0, 1]) noWait
    (fun c s => retire c 4 (match listAt s c.g w with
      | some l => sendUnit c [(d.val, tagI32)] (fun _ _ => BitVec.ofNat 32 l.count) false 0 s
      | none => s)) s

/-! Sorted windows (R305). -/

def padWord : Word := 0xFFFFFFFF

/-- The window of a half in a register: an inactive lane contributes a pad. -/
def windowOf (c : Ctx) (a h : Nat) : List Word :=
  (List.range 16).map (fun i => if laneBit c.act (16 * h + i) then c.v a (16 * h + i) else padWord)

/-- A stable insertion: behind every value that is not larger. -/
def insertStable (w : Word) : List Word → List Word
  | [] => [w]
  | x :: t => if x.toNat ≤ w.toNat then x :: insertStable w t else w :: x :: t

/-- A stable ascending sort. -/
def sortStable (l : List Word) : List Word := l.foldl (fun acc w => insertStable w acc) []

/-- The distinct values of a list without pads, ascending. -/
def distinctSorted (l : List Word) : List Word :=
  sortStable (l.foldl (fun acc w => if w == padWord || acc.contains w then acc else acc ++ [w]) [])

def isectWindow (a b : List Word) : List Word := distinctSorted (a.filter (fun w => b.contains w))
def unionWindow (a b : List Word) : List Word := distinctSorted (a ++ b)
def mergeWindow (a b : List Word) : List Word := sortStable (a ++ b)

/-- A sorted-window instruction: slot i of a half's result goes to its lane i of d, slot 16 + i to its lane i of d + 1. -/
def windowOp (g p d a b : Nat) (dst : List Nat) (f : List Word → List Word → List Word) : State → Out :=
  issue { laneNeeds 4 g p [a, b] dst with zone := .notCall, varLat := true } noConds noWait
    (fun c s => retire c 4 (sendUnit c (dst.map (fun r => (r, tagI32))) (fun r l =>
      (f (windowOf c a (l / 16)) (windowOf c b (l / 16))).getD ((if r = d then 0 else 16) + l % 16) padWord) false 0 s))

/-- `ISECT` (R305). -/
def execIsect (g : Fin 4) (p : Fin 8) (d a b : Fin 64) (s : State) : Out := windowOp g p d a b [d] isectWindow s

/-- `UNION` (R305). -/
def execUnion (g : Fin 4) (p : Fin 8) (d a b : Fin 64) (s : State) : Out := windowOp g p d a b [d, d + 1] unionWindow s

/-- `MERGE` (R305). -/
def execMerge (g : Fin 4) (p : Fin 8) (d a b : Fin 64) (s : State) : Out := windowOp g p d a b [d, d + 1] mergeWindow s

end Sys2Proof.Machine
end

