-- ==== Sys2Proof/Machine/Engine.lean ====
section
/-! DEFINITION. Commands to the engines: how one is issued (R292, R57, R81), the copies (R295 to R297, R366), the near-bank commands
(R145 to R152, R403) and the collectives (R298, R299, R408). Inputs are read when the command issues or by requests after it, effects follow when it completes
(log 13). -/

namespace Sys2Proof.Machine

/-- The distinct values of a list, in order of first appearance. -/
def distinct (l : List Nat) : List Nat := l.foldl (fun acc x => if acc.contains x then acc else acc ++ [x]) []

/-! Issuing a command. -/

/-- What a command that passes its checks will do: the ranges of the allocation it takes; the ranges of global memory that it reads, for
itself and through the stacks' base logic, with all those that it may yet read; whether a read is still out; the failing accesses to log
(IA, slot and kind); an error mark; and its work. -/
structure Plan where
  granules : List Nat
  reads    : List Range := []
  rows     : List Range := []
  may      : List Range := []
  parks    : Bool := false
  logs     : List (Nat × Nat × Nat) := []
  err      : Bool := false
  work     : CmdWork
deriving DecidableEq, Repr

/-- Any of the granules is owned by an engine (R81). -/
def granulesBusy (b : Block) (ks : List Nat) : Bool := ks.any (fun k => getAt false b.engine k)

/-- The strands that a command of a gang reads for. -/
def Ctx.srcs (c : Ctx) : List Src := c.is.map (fun i => .group c.core c.slot c.g.uid i)

/-- An earlier read, by one of its strands, of bytes that a command reads has not been performed: they are not read in this step (R97,
R111). -/
def readsWait (c : Ctx) (s : State) (rs : List Range) : Bool :=
  !(s.net.isEmpty && s.cmds.isEmpty) &&
    (iaPieces c.g.dom rs).any (fun p => c.srcs.any (fun t => strandReading s t p.1 p.2 s.nextId))

/-- A command waits for its flag's count and for its granules (R57, R81). -/
def commandWaits (f : Nat) (plan : Ctx → State → Plan) (c : Ctx) (s : State) : Bool :=
  c.act != 0 && (decide (63 ≤ c.g.count f) ||
    (match blockOf s c.g with
     | some b => granulesBusy b (plan c s).granules
     | none => false))

/-- An engine's read of some bytes of a line has been performed: its strands have seen them too (R97, R111). -/
def engineHasRead (c : Ctx) (s : State) (p : Nat × Nat) : State :=
  let part := (partOfCore s c.core).getD 0
  lineRead (c.srcs.foldl (fun s t => noteSeen s t p.1 p.2 (Seen.ofHome (versionAt s part p.1))) s) part c.g.dom p.1

/-- Who reads and writes for a command, and who reads rows for it at the stacks (R165). -/
def Cmd.asker (c : Cmd) (id : Nat) : Asker := commandAsker c.core c.slot id
def Cmd.baseAsker (c : Cmd) (id : Nat) : Asker := commandAsker c.core 63 id

/-- The partition of a command's core. -/
def Cmd.part (c : Cmd) (s : State) : Nat := (partOfCore s c.core).getD 0

/-- What a command still has to read leaves as requests. -/
def askPlan (s : State) (id : Nat) (c : Cmd) (x : Plan) : State :=
  askRanges (c.baseAsker id) (c.part s) c.dom x.rows (askRanges (c.asker id) (c.part s) c.dom x.reads s)

/-- Failing reads of a command are logged (R383). -/
def logPlan (s : State) (part dom core : Nat) (logs : List (Nat × Nat × Nat)) : State :=
  logs.foldl (fun s e => logRead s part e.1 dom core e.2.1 e.2.2) s

/-- The fields of word 0 of a `coll` record (Table 20.6). -/
def collOp (w : Nat) : Nat := w % 8
def collFast (w : Nat) : Bool := bitOf w 3
def collType (w : Nat) : Nat := w / 2 ^ 4 % 4
def collComm (w : Nat) : Nat := w / 2 ^ 12 % 2 ^ 12
def collPeer (w : Nat) : Nat := w / 2 ^ 24 % 2 ^ 8

def commAt (s : State) (k : Nat) : Option Comm := lookupAt s.comms k

/-- OP, COMM and PEER of a `coll` by its issue. -/
def collKey (op : Option EngineOp) (c : Ctx) : Option (Nat × Nat × Nat) :=
  match op with
  | some (.coll n) => let w := (c.s (2 * n)).toNat; some (collOp w, collComm w, collPeer w)
  | _ => none

/-- A send of the device to itself, or a receive from itself, takes its place in the order of its communicator (R299). -/
def noteSelf (s : State) (id : Nat) (key : Option (Nat × Nat × Nat)) : State :=
  match key with
  | some (op, comm, peer) =>
    match commAt s comm with
    | some x =>
      if peer ≠ x.rank then s
      else if op = 3 then { s with comms := setAt s.comms comm { x with sends := x.sends ++ [id] } }
      else if op = 4 then { s with comms := setAt s.comms comm { x with recvs := x.recvs ++ [id] } }
      else s
    | none => s
  | none => s

/-- A command enters: its flag counts it, and its granules become the engine's. Its reads are made now, or leave as requests (R111). -/
def enterCommand (c : Ctx) (f : Nat) (op : Option EngineOp) (x : Plan) (s : State) : State :=
  match c.g.block with
  | none => s
  | some bid =>
    let later := op.isSome && (x.parks || readsWait c s (x.reads ++ x.rows))
    let s := if later then s
      else (iaPieces c.g.dom (x.reads ++ x.rows)).foldl (engineHasRead c)
        (logPlan s ((partOfCore s c.core).getD 0) c.g.dom.id c.core x.logs)
    let (id, s) := takeId s
    let work := match op, later with
      | some o, true => .reading o { c with asks := some id } (x.may.map (fun r => (r.va, r.len)))
      | _, _ => x.work
    let cmd : Cmd :=
      ⟨c.core, c.slot, c.g.uid, bid, launchOf s c.g, c.is, f, x.granules, c.g.dom, x.err && !later, s.dt, 0, work, none, none, [],
          collKey op c⟩
    let s := noteSelf { s with cmds := setAt s.cmds id cmd } id cmd.coll
    let s := modifyBlock s bid (fun b => { b with engine := x.granules.foldl (fun m k => putAt false m k true) b.engine })
    let s := modifyGroup s c.core c.slot (fun g => g.setCount f (g.count f + 1))
    match work with
    | .reading _ _ _ => askPlan s id cmd x
    | .looking vas _ _ => askPages (cmd.asker id) (cmd.part s) cmd.dom vas s
    | _ => s

/-- The needs of a command: its record is s(2n) to s(2n+3), and the registers that the record names. -/
def commandNeeds (g p n : Nat) (vsrc : List Nat) (more : List Nat) (closes : Bool) : Needs :=
  { laneNeeds 4 g p vsrc [] with zone := .block, ssrc := regsFrom (2 * n) 4 ++ more, closes := closes }

/-- An engine command: with no active lane it does nothing (R292). `more` gives registers that the record names, `op` tells a command that
reads global memory. -/
def commandOp (g p f n : Nat) (vsrc : List Nat) (more : Ctx → List Nat) (closes : Bool) (conds : Ctx → State → List Cond)
    (op : Option EngineOp) (plan : Ctx → State → Plan) : State → Out :=
  issueWith (fun c _ => commandNeeds g p n vsrc (more c) (closes && c.act != 0)) (laneNeeds 4 g p [] []) noConds
    (fun c s => if c.act = 0 then [] else conds c s) (commandWaits f plan)
    (fun c s => retire c 4 (if c.act = 0 then s else enterCommand c f op (plan c s) s))

/-- A word of the record. -/
def Ctx.word (c : Ctx) (n i : Nat) : Nat := (c.s (2 * n + i)).toNat

def cond15 (c : Ctx) (b : Bool) : List Cond := if b then [⟨0x15, c.low, 0⟩] else []
def cond11 (c : Ctx) (va : Nat) (b : Bool) : List Cond := if b then [⟨0x11, c.low, misalignedVa c va⟩] else []

/-- 0x0C over a global range (R382). -/
def globalConds (c : Ctx) (perms va len : Nat) : List Cond :=
  match rangeFail c.g.dom.ranges perms va len with
  | some x => [⟨0x0C, c.low, x⟩]
  | none => []

/-! Windows (R295, R387). -/

/-- The window and the byte offset of a window word (R295). -/
def windowNo (w : Nat) : Nat := w % 16
def windowOff (w : Nat) : Nat := w / 16 * 16

/-- 0x0D for a range outside its window. -/
def windowConds (c : Ctx) (s : State) (n off len : Nat) : List Cond :=
  if off + len ≤ (windowAt s c.g n c.dt).2 then [] else [⟨0x0D, c.low, 0⟩]

/-- The place of a window's offset in the allocation. -/
def placeOf (c : Ctx) (s : State) (n off : Nat) : Nat := (windowAt s c.g n c.dt).1 + off

/-- Two byte ranges share a byte. -/
def overlap (a la b lb : Nat) : Bool := decide (a < b + lb ∧ b < a + la ∧ 0 < la ∧ 0 < lb)

def scratchOf (s : State) (g : Group) : List Host.Cell := ((blockOf s g).map Block.scratch).getD []

def scratchBad (s : State) (g : Group) (off len : Nat) : Bool :=
  match blockOf s g with
  | some b => scratchPoisoned b off len
  | none => false

/-! The host window (R366). -/

/-- The host address of a VA range that lies wholly in the window of a function bound to the domain. -/
def hostAddress (s : State) (part dom va len : Nat) : Option Nat :=
  (s.fns.find? (fun e =>
    let lo := e.2.hwva * 2 ^ 21
    e.2.bound == some (part, dom) && decide (0 < e.2.hwsize ∧ lo ≤ va ∧ va + len ≤ lo + e.2.hwsize * 2 ^ 21))).map
    (fun e => e.2.hwhost * 2 ^ 21 + (va - e.2.hwva * 2 ^ 21))

/-! Copies. -/

/-- What an engine's read of an element gives: its bytes as a number, an error to log, or a page to wait for. -/
inductive EngineRead where
  | value (v : Nat)
  | fails (ia kind : Nat)
  | waits
deriving DecidableEq, Repr

/-- Two reads together. -/
def EngineRead.and2 (f : Nat → Nat → Nat) (a b : EngineRead) : EngineRead :=
  match a, b with
  | .value x, .value y => .value (f x y)
  | .waits, _ => .waits
  | _, .waits => .waits
  | .fails i k, _ => .fails i k
  | _, y => y

/-- An engine's read of bytes of one line, at a VA that passed its check. -/
def linePart (s : State) (who : Asker) (part : Nat) (d : DomReg) (perms : Nat) (r : Range) : EngineRead :=
  match rangeIa d.ranges perms r.va with
  | none => .fails 0 2
  | some ia =>
    match readHome s who part d.id ia r.len with
    | .data v => .value v
    | .error k => .fails ia k
    | .park => .waits
    | .absent => .fails ia 2

/-- The parts of a read, from the lowest, as one number. -/
def lineParts (s : State) (who : Asker) (part : Nat) (d : DomReg) (perms : Nat) : List Range → EngineRead
  | [] => .value 0
  | [r] => linePart s who part d perms r
  | r :: t => EngineRead.and2 (fun a b => a + b * 256 ^ r.len) (linePart s who part d perms r) (lineParts s who part d perms t)

/-- An engine's read of `n` bytes at a VA that passed its check, line by line. -/
def engineRead (s : State) (who : Asker) (part : Nat) (d : DomReg) (perms va n : Nat) : EngineRead :=
  lineParts s who part d perms (Range.pieces ⟨va, n⟩)

/-- The failing reads that an error response met, as the log of a slot takes them; a failure of kind 0 met none. -/
def readLogs (slot : Nat) (rs : List EngineRead) : List (Nat × Nat × Nat) :=
  rs.filterMap (fun r => match r with | .fails ia k => if k = 0 then none else some (ia, slot, k) | _ => none)

/-- The words of a length. -/
def wordOffsets (len : Nat) : List Nat := (List.range (len / 4)).map (fun i => 4 * i)

/-- A VA of 48 bits in two words. -/
def recordVa (c : Ctx) (n : Nat) : Nat := c.word n 0 + c.word n 1 % 2 ^ 16 * 2 ^ 32

def lenBad (len : Nat) : Bool := decide (len < 4 ∨ 458752 < len)

/-- The conditions of `cpy.g2s` and `cpy.s2g` (R296, R387, R408). -/
def copyConds (n perms : Nat) (c : Ctx) (s : State) : List Cond :=
  let va := recordVa c n
  let len := c.word n 3
  let w := c.word n 2
  (if (hostAddress s ((partOfCore s c.core).getD 0) c.g.dom.id va len).isSome then [] else globalConds c perms va len) ++
  windowConds c s (windowNo w) (windowOff w) len ++
  cond11 c va (va % 4 != 0 || len % 4 != 0) ++
  cond15 c (decide (2 ^ 16 ≤ c.word n 1) || lenBad len)

/-- `cpy.g2s`: the source words as they are read now, those of the host when the command completes; one that fails is not written (R384). -/
def planG2s (n : Nat) (c : Ctx) (s : State) : Plan :=
  let va := recordVa c n
  let len := c.word n 3
  let off := placeOf c s (windowNo (c.word n 2)) (windowOff (c.word n 2))
  let part := (partOfCore s c.core).getD 0
  match hostAddress s part c.g.dom.id va len with
  | some h => { granules := granulesOf off len, work := .fromHost off h len }
  | none =>
    let rs := (wordOffsets len).map (fun i => (i, engineRead s c.asker part c.g.dom permR (va + i) 4))
    { granules := granulesOf off len
      reads := [⟨va, len⟩]
      may := [⟨va, len⟩]
      parks := rs.any (fun r => r.2 == .waits)
      logs := readLogs c.slot (rs.map Prod.snd)
      err := rs.any (fun r => match r.2 with | .fails _ _ => true | _ => false)
      work := .writes (rs.filterMap (fun r => match r.2 with | .value v => some (off + r.1, toBytes 4 v) | _ => none)) [] [] [] }

/-- `CPY_G2S` (R296). -/
def execCpyG2s (g : Fin 4) (p : Fin 8) (f : Fin 16) (n : Fin 32) (s : State) : Out :=
  commandOp g p f n [] (fun _ => []) false (copyConds n permR) (some (.g2s n)) (planG2s n) s

/-- `cpy.s2g`: to memory, or to the host (R366). A poisoned source word is an error response to the engine (R394). -/
def planS2g (n : Nat) (c : Ctx) (s : State) : Plan :=
  let va := recordVa c n
  let len := c.word n 3
  let off := placeOf c s (windowNo (c.word n 2)) (windowOff (c.word n 2))
  let part := (partOfCore s c.core).getD 0
  let mem := scratchOf s c.g
  let good := (wordOffsets len).filter (fun i => !scratchBad s c.g (off + i) 4)
  { granules := granulesOf off len
    err := decide (good.length < (wordOffsets len).length)
    work := match hostAddress s part c.g.dom.id va len with
      | some h => .writes [] [] [] (good.map (fun i => (h + i, readBytes mem (off + i) 4)))
      | none => .writes [] [] (good.map (fun i =>
          ⟨va + i, iaOf c permW (va + i), c.g.dom.id, 4, readLE mem (off + i) 4, ones 4⟩)) [] }

/-- `CPY_S2G` (R296). -/
def execCpyS2g (g : Fin 4) (p : Fin 8) (f : Fin 16) (n : Fin 32) (s : State) : Out :=
  commandOp g p f n [] (fun _ => []) false (copyConds n permW) none (planS2g n) s

/-- The conditions of `cpy.s2s` (R296, R408). -/
def s2sConds (n : Nat) (c : Ctx) (s : State) : List Cond :=
  let len := c.word n 3
  windowConds c s (windowNo (c.word n 0)) (windowOff (c.word n 0)) len ++
  windowConds c s (windowNo (c.word n 2)) (windowOff (c.word n 2)) len ++
  cond11 c 0 (len % 4 != 0) ++ cond15 c (c.word n 1 != 0 || lenBad len)

/-- `cpy.s2s`: every source byte is read before any byte is written. -/
def planS2s (n : Nat) (c : Ctx) (s : State) : Plan :=
  let len := c.word n 3
  let src := placeOf c s (windowNo (c.word n 0)) (windowOff (c.word n 0))
  let dst := placeOf c s (windowNo (c.word n 2)) (windowOff (c.word n 2))
  let mem := scratchOf s c.g
  let good := (wordOffsets len).filter (fun i => !scratchBad s c.g (src + i) 4)
  { granules := granulesOf src len ++ granulesOf dst len
    err := decide (good.length < (wordOffsets len).length)
    work := .writes (good.map (fun i => (dst + i, readBytes mem (src + i) 4))) [] [] [] }

/-- `CPY_S2S` (R296). -/
def execCpyS2s (g : Fin 4) (p : Fin 8) (f : Fin 16) (n : Fin 32) (s : State) : Out :=
  commandOp g p f n [] (fun _ => []) false (s2sConds n) none (planS2s n) s

/-- N and CAP of `cpy.cmp`. -/
def cmpCount (c : Ctx) (n : Nat) : Nat := c.word n 2 % 2 ^ 11
def cmpCap (c : Ctx) (n : Nat) : Nat := c.word n 2 / 2 ^ 16

/-- The conditions of `cpy.cmp` (R292, R297, R408). -/
def cmpConds (n : Nat) (c : Ctx) (s : State) : List Cond :=
  let at' := fun i => placeOf c s (windowNo (c.word n i)) (windowOff (c.word n i))
  let len := 4 * cmpCount c n
  let cap := 4 * cmpCap c n
  windowConds c s (windowNo (c.word n 0)) (windowOff (c.word n 0)) len ++
  windowConds c s (windowNo (c.word n 1)) (windowOff (c.word n 1)) cap ++
  windowConds c s (windowNo (c.word n 3)) (windowOff (c.word n 3)) 4 ++
  cond15 c (decide (cmpCount c n < 1 ∨ 1024 < cmpCount c n ∨ 1024 < cmpCap c n) || c.word n 2 / 2 ^ 11 % 2 ^ 5 != 0 ||
    overlap (at' 1) cap (at' 0) len || overlap (at' 1) cap (at' 3) 4 || overlap (at' 3) 4 (at' 0) len)

/-- The elements that `cpy.cmp` selects, ascending. -/
def cmpSelected (c : Ctx) (a n : Nat) : List Nat :=
  (List.range (cmpCount c n)).filter (fun j => laneBit c.act (j / 32) && laneBit (c.v a (j / 32)) (j % 32))

/-- `cpy.cmp` (R297, R408): the first CAP selected elements, and the count of all. -/
def planCmp (a n : Nat) (c : Ctx) (s : State) : Plan :=
  let at' := fun i => placeOf c s (windowNo (c.word n i)) (windowOff (c.word n i))
  let mem := scratchOf s c.g
  let sel := cmpSelected c a n
  let put := (sel.take (cmpCap c n)).zip (List.range (cmpCap c n))
  let bad := fun e : Nat × Nat => scratchBad s c.g (at' 0 + 4 * e.1) 4
  { granules := granulesOf (at' 0) (4 * cmpCount c n) ++ granulesOf (at' 1) (4 * cmpCap c n) ++ granulesOf (at' 3) 4
    err := put.any bad
    work := .writes (((put.filter (fun e => !bad e)).map (fun e => (at' 1 + 4 * e.2, readBytes mem (at' 0 + 4 * e.1) 4))) ++
      [(at' 3, toBytes 4 sel.length)]) [] [] [] }

/-- `CPY_CMP` (R297). -/
def execCpyCmp (g : Fin 4) (p : Fin 8) (f : Fin 16) (a : Fin 64) (n : Fin 32) (s : State) : Out :=
  commandOp g p f n [a] (fun _ => []) false (cmpConds n) none (planCmp a n) s

/-! Near-bank commands (R145 to R152). -/

/-- The fields of a near-bank record (Table 11.3). -/
def nbBase (c : Ctx) (n : Nat) : Nat := recordVa c n
def nbPch (c : Ctx) (n : Nat) : Nat := c.word n 1 / 2 ^ 16 % 64
/-- The stack that a region's base names, if its IA lies in 0x0 to 0xB. -/
def nbStack (c : Ctx) (n : Nat) : Option Nat :=
  match rangeIa c.g.dom.ranges 0 (nbBase c n) with
  | some ia => if ia / 2 ^ 48 < 12 then some (ia / 2 ^ 48) else none
  | none => none

/-- What every near-bank record is checked for (R403): a base of 2 MiB, reserved bits of word 1, and the command's own fields. -/
def nbConds (n : Nat) (bad : Bool) (c : Ctx) : List Cond :=
  cond15 c (nbBase c n % rowBytes != 0 || decide (2 ^ 22 ≤ c.word n 1) || bad)

/-- What the home stack finds of a region's page (R145, R403). -/
inductive RegionPage where
  /-- A 2 MiB page of a class with WP = 2 under IA[51:48] 0x0 to 0xB that the domain may use. -/
  | good
  /-- Another page, with the error response to log where there is one: its IA and kind. -/
  | bad (log : Option (Nat × Nat))
  | waits
deriving DecidableEq, Repr

def pageFound (s : State) (part dom stack ia : Nat) : RegionPage :=
  match place s part dom ia with
  | .at k _ cls _ size => if k == stack && decide (ia / 2 ^ 48 < 12) && size == rowBytes && isNa s cls then .good else .bad none
  | .error k => .bad (some (ia, k))
  | .park => .waits
  | .absent => .bad (some (ia, 2))

/-- The look-up of a page for an asker, at once or by its request. -/
def regionPage (s : State) (who : Asker) (part : Nat) (d : DomReg) (stack va : Nat) : RegionPage :=
  match rangeIa d.ranges 0 va with
  | none => .bad none
  | some ia =>
    match pulled s who part ia 0 with
    | some r =>
      (match r.state with
       | .ready _ => pageFound s part d.id stack ia
       | .failed => .bad none
       | _ => .waits)
    | none =>
      let way := (who.die.toList.map (fun x => (dieOfStack stack, x)))
      if s.ahead || (closedEnd s (way ++ wayBack way)).isSome || pageWaited s part ia then .waits else pageFound s part d.id stack ia

/-- What is to log of pages that failed, each once, under the stack's own slot. -/
def pageLogs (found : List RegionPage) : List (Nat × Nat × Nat) :=
  let logs := found.filterMap (fun x => match x with | .bad l => l | _ => none)
  (logs.foldl (fun acc e => if acc.contains e then acc else acc ++ [e]) []).map (fun e => (e.1, 63, e.2))

/-- The plan of a near-bank command: at the home stack a region that fails makes it complete with an error mark in no bank (R403); a page
that cannot be looked up at once is looked up by a request. -/
def nbPlan (n : Nat) (c : Ctx) (s : State) (granules : List Nat) (firstRows : List Nat) (work : Nat → CmdWork) : Plan :=
  let vas := distinct (firstRows.map (fun r => nbBase c n + r * rowBytes))
  let stack := (nbStack c n).getD 0
  let found := vas.map (regionPage s c.asker ((partOfCore s c.core).getD 0) c.g.dom stack)
  if (nbStack c n).isSome && found.any (fun x => x == .waits) then { granules := granules, work := .looking vas stack (work stack) }
  else
    let ok := (nbStack c n).isSome && found.all (fun x => x == .good)
    { granules := granules
      logs := pageLogs found
      err := !ok
      work := if ok then work stack else .writes [] [] [] [] }

def permNb : Nat := permR + permW + permA

def nbBanks (c : Ctx) (n stack : Nat) : List Nat := c.lanes.map (fun l => bankNo stack (nbPch c n) l)

/-- The conditions of `nb.ld` (R148, R403). -/
def nbLdConds (n : Nat) (c : Ctx) (_ : State) : List Cond :=
  let w := c.word n 2
  let poff := w % 2 ^ 16
  let nw := w / 2 ^ 16 % 128
  globalConds c permNb (nbBase c n) rowBytes ++
  nbConds n (decide (2 ^ 23 ≤ w ∨ nw < 1 ∨ 64 < nw ∨ 65536 < poff + 4 * nw) || poff % 4 != 0 || c.word n 3 != 0) c

/-- `nb.ld`: words of the constant bank for the stores of the active lanes' banks. -/
def planNbLd (n : Nat) (c : Ctx) (s : State) : Plan :=
  let w := c.word n 2
  nbPlan n c s [] [0] (fun k => .nbLoad (nbBanks c n k)
    ((List.range (w / 2 ^ 16 % 128)).map (fun i => bankWord s c.g (w % 2 ^ 16 + 4 * i))))

/-- `NB_LD` (R148). -/
def execNbLd (g : Fin 4) (p : Fin 8) (f : Fin 16) (n : Fin 32) (s : State) : Out :=
  commandOp g p f n [] (fun _ => []) false (nbLdConds n) none (planNbLd n) s

/-- The start rows that the active lanes name. -/
def startRows (c : Ctx) (a : Nat) : List Nat := c.lanes.map (fun l => (c.v a l).toNat)

/-- The conditions of `nb.run` (R145, R149, R403): the rows of each lane are checked whatever their number. -/
def nbRunConds (a n : Nat) (c : Ctx) (_ : State) : List Cond :=
  let w := c.word n 2
  let count := w % 2 ^ 16
  (match ((startRows c a).filterMap (fun r => rangeFail c.g.dom.ranges permNb (nbBase c n + r * rowBytes) (count * rowBytes))).min? with
   | some x => [⟨0x0C, c.low, x⟩]
   | none => []) ++
  nbConds n (decide (2 ^ 23 ≤ w ∨ count < 1 ∨ 61440 < count ∨ 2 ^ 16 ≤ c.word n 3) || c.word n 3 % 16 != 0 ||
    (startRows c a).any (fun r => decide (61440 < r + count))) c

/-- `nb.run`: the banks of the active lanes with their start rows, COUNT, ENTRY, RC and the four parameters. -/
def planNbRun (a n : Nat) (c : Ctx) (s : State) : Plan :=
  let w := c.word n 2
  nbPlan n c s [] (startRows c a) (fun k =>
    .nbRun (c.lanes.map (fun l => (bankNo k (nbPch c n) l, (c.v a l).toNat))) [] (w % 2 ^ 16) (w / 2 ^ 16 % 64) (bitOf w 22)
      ((List.range 4).map (fun i => bankWord s c.g (c.word n 3 % 2 ^ 16 + 4 * i))) (nbBase c n))

/-- `NB_RUN` (R149): each lane's register holds its bank's start row. -/
def execNbRun (g : Fin 4) (p : Fin 8) (f : Fin 16) (a : Fin 64) (n : Fin 32) (s : State) : Out :=
  commandOp g p f n [a] (fun _ => []) true (nbRunConds a n) none (planNbRun a n) s

/-- The bytes that `nb.get` and `nb.get.sum` write: offset in the window and length, one range for each bank or one for all. -/
def getRanges (c : Ctx) (n : Nat) (sum : Bool) : List Nat :=
  let off := c.word n 3 % 2 ^ 16
  if sum then [off] else c.lanes.map (fun l => off + 16 * l)

/-- The conditions of `nb.get` and `nb.get.sum` (R150, R403). -/
def nbGetConds (n : Nat) (sum : Bool) (c : Ctx) (s : State) : List Cond :=
  let w := c.word n 2
  globalConds c permNb (nbBase c n) rowBytes ++
  (getRanges c n sum).flatMap (fun o => windowConds c s (w % 16) o 16) ++
  nbConds n (w / 16 != (if sum then w / 32 % 2 * 2 else 0) || decide (2 ^ 16 ≤ c.word n 3) || c.word n 3 % 16 != 0) c

def planNbGet (n : Nat) (sum : Bool) (c : Ctx) (s : State) : Plan :=
  let w := c.word n 2
  let base := placeOf c s (w % 16) 0
  nbPlan n c s ((getRanges c n sum).flatMap (fun o => granulesOf (base + o) 16)) [0] (fun k =>
    .nbGet (nbBanks c n k) [] (if sum then some (bitOf w 5) else none) (base + c.word n 3 % 2 ^ 16))

/-- `nb.get` and `nb.get.sum` (R150). -/
def nbGetOp (g p f n : Nat) (sum : Bool) : State → Out :=
  commandOp g p f n [] (fun _ => []) false (nbGetConds n sum) none (planNbGet n sum)

/-- `NB_GET` (R150). -/
def execNbGet (g : Fin 4) (p : Fin 8) (f : Fin 16) (n : Fin 32) (s : State) : Out := nbGetOp g p f n false s

/-- `NB_GET_SUM` (R150). -/
def execNbGetSum (g : Fin 4) (p : Fin 8) (f : Fin 16) (n : Fin 32) (s : State) : Out := nbGetOp g p f n true s

/-- The conditions of `nb.mode` (R152, R403). -/
def nbModeConds (n : Nat) (c : Ctx) (_ : State) : List Cond :=
  globalConds c permNb (nbBase c n) rowBytes ++ nbConds n (decide (2 ≤ c.word n 2) || c.word n 3 != 0) c

def planNbMode (n : Nat) (c : Ctx) (s : State) : Plan :=
  nbPlan n c s [] [0] (fun k => .nbMode (nbBanks c n k) k (nbPch c n) (bitOf (c.word n 2) 0))

/-- `NB_MODE` (R152). -/
def execNbMode (g : Fin 4) (p : Fin 8) (f : Fin 16) (n : Fin 32) (s : State) : Out :=
  commandOp g p f n [] (fun _ => []) false (nbModeConds n) none (planNbMode n) s

/-! Collectives (R298, R299). -/

/-- Bytes of an element. -/
def collSize (w : Nat) : Nat := if collType w = 2 then 8 else 4

/-- Elements that an operation reads and writes at a device (R299); a send has no DST and a receive no SRC. -/
def collIn (w count : Nat) : Nat := if collOp w = 4 then 0 else count
def collOut (w count devices : Nat) : Nat :=
  match collOp w with
  | 0 => count
  | 1 => count / devices
  | 2 => count * devices
  | 3 => 0
  | _ => count

/-- The uniform pair that an operand word in global form names. -/
def operandPair (w : Nat) : Nat := w / 2 ^ 5 % 64

/-- The registers that the operand words of a full record name. -/
def collRegs (n : Nat) (c : Ctx) : List Nat :=
  if (regsFrom (2 * n) 4).all (fun r => (c.g.sreg r).full) then
    [c.word n 1, c.word n 2].flatMap (fun w =>
      if bitOf w 4 ∧ operandPair w % 2 = 0 then [operandPair w, operandPair w + 1] else [])
  else []

/-- The lowest byte of a global operand of `len` bytes that fails its check (R298, R382). -/
def operandFail (c : Ctx) (w len perms : Nat) : Option Nat :=
  if len ≠ 0 ∧ bitOf w 4 ∧ operandPair w % 2 = 0 then rangeFail c.g.dom.ranges perms (c.s64 (operandPair w)) len else none

/-- The other conditions of one operand of `len` bytes (R298, R387, R408). -/
def operandConds (c : Ctx) (s : State) (w len : Nat) : List Cond :=
  if len = 0 then cond15 c (w != 0)
  else if bitOf w 4 then
    cond15 c (w % 16 != 0 || decide (2 ^ 11 ≤ w) || operandPair w % 2 != 0) ++
    (if operandPair w % 2 = 0 then cond11 c (c.s64 (operandPair w)) (c.s64 (operandPair w) % 8 != 0) else [])
  else windowConds c s (w % 16) (w / 32 * 32) len

/-- Where an operand lies: in the allocation, or at a VA. -/
def operandScratch (c : Ctx) (s : State) (w : Nat) : Option Nat :=
  if bitOf w 4 then none else some (placeOf c s (w % 16) (w / 32 * 32))

def operandVa (c : Ctx) (w : Nat) : Nat := if bitOf w 4 then c.s64 (operandPair w) else 0

/-- The conditions of `coll` (R298, R299, R408); a communicator that is not set up and a COUNT or PEER that does not fit it are fields
outside their range (log 21). -/
def collConds (n : Nat) (c : Ctx) (s : State) : List Cond :=
  let w := c.word n 0
  let count := c.word n 3
  let devices := ((commAt s (collComm w)).map Comm.devices).getD 1
  let inLen := collIn w count * collSize w
  let outLen := collOut w count devices * collSize w
  let p2p := decide (collOp w = 3 ∨ collOp w = 4)
  (match ((operandFail c (c.word n 1) inLen permR).toList ++ (operandFail c (c.word n 2) outLen permW).toList).min? with
   | some x => [⟨0x0C, c.low, x⟩]
   | none => []) ++
  operandConds c s (c.word n 1) inLen ++ operandConds c s (c.word n 2) outLen ++
  cond15 c (decide (5 ≤ collOp w) || w / 2 ^ 6 % 64 != 0 || (!p2p && collPeer w != 0) || (p2p && decide (devices ≤ collPeer w)) ||
    (commAt s (collComm w)).isNone || decide (count < 1 ∨ 2 ^ 24 < count) || (collOp w == 1 && count % devices != 0) ||
    (match operandScratch c s (c.word n 1), operandScratch c s (c.word n 2) with
     | some a, some b => overlap a inLen b outLen
     | none, none => overlap (operandVa c (c.word n 1)) inLen (operandVa c (c.word n 2)) outLen
     | _, _ => false))

/-- The own elements of a `coll`, read now. -/
def collReads (n : Nat) (c : Ctx) (s : State) : List EngineRead :=
  let w := c.word n 0
  let z := collSize w
  (List.range (collIn w (c.word n 3))).map (fun i =>
    match operandScratch c s (c.word n 1) with
    | some off => if scratchBad s c.g (off + z * i) z then .fails 0 0 else .value (readLE (scratchOf s c.g) (off + z * i) z)
    | none => engineRead s c.asker ((partOfCore s c.core).getD 0) c.g.dom permR (operandVa c (c.word n 1) + z * i) z)

/-- The plan of `coll`; the contributions of the peers arrive with its completion. -/
def planColl (n : Nat) (c : Ctx) (s : State) : Plan :=
  let w := c.word n 0
  let count := c.word n 3
  let devices := ((commAt s (collComm w)).map Comm.devices).getD 1
  let rs := collReads n c s
  let src := operandScratch c s (c.word n 1)
  let dst := operandScratch c s (c.word n 2)
  let range := fun (o : Option Nat) (len : Nat) => match o with | some off => granulesOf off len | none => []
  let bad := (List.range rs.length).filter (fun i => match rs[i]? with | some (.fails _ _) => true | _ => false)
  { granules := range src (collIn w count * collSize w) ++ range dst (collOut w count devices * collSize w)
    reads := if src.isNone then [⟨operandVa c (c.word n 1), collIn w count * collSize w⟩] else []
    may := if src.isNone then [⟨operandVa c (c.word n 1), collIn w count * collSize w⟩] else []
    parks := rs.any (fun r => r == .waits)
    logs := readLogs c.slot rs
    err := !bad.isEmpty
    work := .coll (collOp w) (collFast w) (collType w) (collComm w) (collPeer w) count
      (rs.map (fun r => match r with | .value v => BitVec.ofNat 64 v | _ => 0)) bad dst (operandVa c (c.word n 2)) }

/-- `COLL` (R299). -/
def execColl (g : Fin 4) (p : Fin 8) (f : Fin 16) (n : Fin 32) (s : State) : Out :=
  commandOp g p f n [] (collRegs n) true (collConds n) (some (.coll n)) (planColl n) s

end Sys2Proof.Machine
end

