-- ==== Sys2Proof/Machine/Pkl.lean ====
section
/-! DEFINITION. The product-key lookup unit: its descriptor (R160, R161), the forward query (R162 to R166), the backward pass (R167, R168)
and its commands (R293, R294, R407). -/

namespace Sys2Proof.Machine

/-! The descriptor (Table 12.1). -/

structure PklDesc where
  abase : Nat
  bbase : Nat
  ka    : Nat
  kb    : Nat
  dh    : Nat
  kfmt  : Nat
  khalf : Nat
  k     : Nat
  vfmt  : Nat
  umode : Nat
  dv    : Nat
  eta   : Word
  rstr  : Nat
  vbase : Nat
  gbase : Nat
  gstr  : Nat
deriving DecidableEq, Repr

def PklDesc.ofBytes (b : List Byte) : PklDesc :=
  ⟨fieldLE b 0 8, fieldLE b 8 8, fieldLE b 16 2, fieldLE b 18 2, fieldLE b 20 2, fieldLE b 22 1, fieldLE b 23 1, fieldLE b 24 1,
    fieldLE b 25 1, fieldLE b 26 1, fieldLE b 28 2, BitVec.ofNat 32 (fieldLE b 32 4), fieldLE b 36 4, fieldLE b 40 8, fieldLE b 48 8,
    fieldLE b 56 4⟩

/-- Bytes of a key element and of a value element. -/
def PklDesc.z (d : PklDesc) : Nat := elemSize d.kfmt
def PklDesc.vz (d : PklDesc) : Nat := elemSize d.vfmt

/-- A descriptor that keeps every rule of Table 12.1. -/
def pklTableOk (b : List Byte) : Bool :=
  let d := PklDesc.ofBytes b
  b.length == 128 && decide (1 ≤ d.ka ∧ d.ka ≤ 8192) && decide (1 ≤ d.kb ∧ d.kb ≤ 8192) &&
  decide (4 ≤ d.dh ∧ d.dh ≤ 512) && d.dh % 4 == 0 && (d.kfmt == 0x03 || d.kfmt == 0x04 || b8Code d.kfmt) &&
  decide (1 ≤ d.khalf ∧ d.khalf ≤ 64 ∧ d.khalf ≤ min d.ka d.kb) && decide (1 ≤ d.k ∧ d.k ≤ 64 ∧ d.k ≤ d.khalf * d.khalf) &&
  (d.vfmt == 0x02 || d.vfmt == 0x03) && decide (d.umode < 2) && fieldLE b 27 1 == 0 &&
  decide (1 ≤ d.dv ∧ d.dv ≤ 4096 ∧ d.dv * d.vz ≤ 16384) && fieldLE b 30 2 == 0 &&
  d.rstr % 4096 == 0 && decide (d.dv * d.vz ≤ d.rstr) &&
  (d.umode == 0 || (d.gstr % 4096 == 0 && decide (d.dv * 4 ≤ d.gstr))) && fieldLE b 60 68 == 0

/-- A table base that keeps R161: translated through the domain's range entries, whatever their permissions. -/
def pklBaseOk (s : State) (part : Nat) (d : DomReg) (va : Nat) : Bool :=
  match rangeIa d.ranges 0 va with
  | some ia => decide (ia / 2 ^ 48 = 15) && ia / 2 ^ 12 % 2 ^ 36 % (partAt s part).stacks.length == 0
  | none => false

/-! Reading (R111, R169, R407). -/

/-- A command of the unit as it reads: the machine, who reads, the partition, the domain and the descriptor. -/
structure PklView where
  s    : State
  who  : Asker
  part : Nat
  dom  : DomReg
  d    : PklDesc
deriving DecidableEq, Repr

/-- A page of a class with WP other than 2, which the stack base logic does not read for a gather (R160). -/
def PklView.wrongClass (v : PklView) (ia : Nat) : Bool :=
  match place v.s v.part v.dom.id ia with
  | .at _ _ cls _ _ => !isNa v.s cls
  | _ => false

/-- Who reads: the unit, or the stacks' base logic for it. -/
def Asker.atStacks (a : Asker) (rows : Bool) : Asker :=
  match rows, a.src with
  | true, .group core _ uid t => { a with src := .group core 63 uid t }
  | _, _ => a

/-- A byte of a table: `rows` asks for the interleaved region and for a class with WP = 2. A failure of kind 0 is not logged. -/
def PklView.byte (v : PklView) (rows : Bool) (va : Nat) : EngineRead :=
  match rangeIa v.dom.ranges permR va with
  | none => .fails 0 0
  | some ia =>
    if rows && (ia / 2 ^ 48 != 15 || v.wrongClass ia) then .fails 0 0
    else
      match readHome v.s (v.who.atStacks rows) v.part v.dom.id ia 1 with
      | .data b => .value b
      | .error k => .fails ia k
      | .park => .waits
      | .absent => .fails ia 2

/-- An element of `n` bytes. -/
def PklView.elem (v : PklView) (rows : Bool) (va : Nat) : Nat → EngineRead
  | 0 => .value 0
  | n + 1 =>
    match v.byte rows va, v.elem rows (va + 1) n with
    | .value b, .value x => .value (b + 256 * x)
    | .waits, _ => .waits
    | _, .waits => .waits
    | .fails ia k, _ => .fails ia k
    | _, x => x

/-- What a whole read gives. -/
inductive PklRead where
  | values (vs : List Nat)
  | fails (logs : List (Nat × Nat × Nat))
  | waits
deriving DecidableEq, Repr

/-- All elements together: the failing ones are logged where they met an error response. -/
def collectReads (slot : Nat) (rs : List EngineRead) : PklRead :=
  if rs.any (fun r => r == .waits) then .waits
  else if rs.any (fun r => match r with | .fails _ _ => true | _ => false) then .fails (readLogs slot rs)
  else .values (rs.filterMap (fun r => match r with | .value v => some v | _ => none))

/-- Elements read together from ranges of `z`-byte elements; the stack base logic reads rows, with slot 63 (Table 31.1). -/
def PklView.read (v : PklView) (rows : Bool) (z : Nat) (rs : List Range) : PklRead :=
  collectReads (if rows then 63 else v.who.src.slot)
    (rs.flatMap (fun r => (List.range (r.len / z)).map (fun i => v.elem rows (r.va + i * z) z)))

/-- The stack that an element lies on. -/
def PklView.stackOf (v : PklView) (va : Nat) : Nat :=
  match rangeIa v.dom.ranges 0 va with
  | some ia => ((homeStack (partAt v.s v.part) ia).map Prod.fst).getD 0
  | none => 0

/-! Arithmetic (R162: RNE, no flag). -/

def rne (x : Fp) : Word := bits32 (fp32.pack .rne x).1
def mul32 (a b : Word) : Word := bits32 (fp32.mul .rne (f32 a) (f32 b)).1
def sub32 (a b : Word) : Word := bits32 (fp32.add .rne (f32 a) (f32 b).neg).1
def fma32 (a b c : Word) : Word := bits32 (fp32.fma .rne (f32 a) (f32 b) (f32 c)).1

/-- rne32 of the exact sum of products. -/
def dot32 (xs ys : List Fp) : Word := bits32 (fp32.sumProducts .rne (xs.zip ys) []).1

/-- The correctly rounded quotient (R164). -/
def div32 (a b : Word) : Word :=
  rne (match f32 a, f32 b with
    | .nan _, _ => .nan false
    | _, .nan _ => .nan false
    | .inf _, .inf _ => .nan false
    | .inf s, .num r _ _ => .inf (s != r)
    | .num s _ _, .inf r => .num (s != r) 0 0
    | .num s m e, .num r n f =>
      if n = 0 then (if m = 0 then .nan false else .inf (s != r))
      else if m * 2 ^ 200 % n = 0 then .num (s != r) (m * 2 ^ 200 / n) (e - f - 200)
      else .num (s != r) (2 * (m * 2 ^ 200 / n) + 1) (e - f - 201))

/-! Selection (R163). -/

/-- A score with its index ranks ahead of another. -/
def ranksAhead (x y : Word × Nat) : Bool :=
  match (f32 x.1).isNan, (f32 y.1).isNan with
  | true, true => decide (x.2 < y.2)
  | true, false => false
  | false, true => true
  | false, false =>
    let c := (f32 x.1).cmp (f32 y.1)
    decide (0 < c) || (decide (c = 0) && decide (x.2 < y.2))

def insertRanked (x : Word × Nat) : List (Word × Nat) → List (Word × Nat)
  | [] => [x]
  | y :: t => if ranksAhead x y then x :: y :: t else y :: insertRanked x t

/-- The `n` best of a list, in rank order. -/
def takeRanked (n : Nat) (l : List (Word × Nat)) : List (Word × Nat) :=
  l.foldl (fun acc x => (insertRanked x acc).take n) []

/-! The forward query (Table 12.2). -/

/-- An entry of the candidate record, with its score (Table 12.3). -/
structure Candidate where
  score : Word
  slot  : Nat
  sa    : Word
  sb    : Word
deriving DecidableEq, Repr

/-- Steps 2 to 4; a NaN among the half scores of `pkqs` is recorded as the canonical one (R69). -/
def selectCandidates (d : PklDesc) (sa sb : List Word) : List Candidate :=
  let ia := takeRanked d.khalf (sa.zip (List.range sa.length))
  let ib := takeRanked d.khalf (sb.zip (List.range sb.length))
  let all := ia.flatMap (fun x => ib.map (fun y => (addf32 x.1 y.1, x.2 * d.kb + y.2)))
  (takeRanked d.k all).map (fun c => ⟨c.1, c.2, canonical32 (laneOf sa (c.2 / d.kb)), canonical32 (laneOf sb (c.2 % d.kb))⟩)

/-- The softmax weights (R164). -/
def softmax (scores : List Word) : List Word :=
  let m := laneOf scores 0
  let e := scores.map (fun x => (fex2 (mul32 (sub32 x m) 0x3FB8AA3B)).1)
  let t := e.foldl addf32 0
  e.map (fun x => div32 x t)

/-- One element of the gather (R165): weights, values and their stacks in rank order. -/
def gatherElem (terms : List (Word × Fp × Nat)) : Word :=
  let part := fun (k : Nat) => (terms.filter (fun t => t.2.2 == k)).foldl
    (fun acc t => bits32 (fp32.fma .rne (f32 t.1) t.2.1 (f32 acc)).1) (0 : Word)
  ((List.range Config.stackCount).filter (fun k => terms.any (fun t => t.2.2 == k))).foldl (fun acc k => addf32 acc (part k)) 0

/-- What a query comes to: its page waits, it fails with errors to log, or it gives its words, its record and its row updates. -/
inductive QueryEnd where
  | waits
  | fails (logs : List (Nat × Nat × Nat))
  | done (out : List Word) (record : List Word) (rows : List RowUpdate)
deriving DecidableEq, Repr

/-- With the ranges that it has read, or would: of key rows, and of value rows. -/
structure QueryResult where
  reads : List Range
  rows  : List Range
  fin   : QueryEnd
deriving DecidableEq, Repr

/-- A read on which a query goes on. -/
def PklRead.bind (r : PklRead) (reads rows : List Range) (f : List Nat → QueryResult) : QueryResult :=
  match r with
  | .waits => ⟨reads, rows, .waits⟩
  | .fails l => ⟨reads, rows, .fails l⟩
  | .values vs => let x := f vs; ⟨reads ++ x.reads, rows ++ x.rows, x.fin⟩

/-- Rows of the value table. -/
def PklDesc.valueRows (d : PklDesc) (slots : List Nat) : List Range := slots.map (fun k => ⟨d.vbase + k * d.rstr, d.dv * d.vz⟩)

/-- Key rows: row `i` of table A, or of table B with `i` counted on from KA. -/
def PklDesc.keyRows (d : PklDesc) (is : List Nat) : List Range :=
  is.map (fun i => ⟨if i < d.ka then d.abase + i * d.dh * d.z else d.bbase + (i - d.ka) * d.dh * d.z, d.dh * d.z⟩)

/-- The row at a place among key rows that were read. -/
def PklDesc.keyRow (d : PklDesc) (keys : List Nat) (i : Nat) : List Fp := ((keys.drop (i * d.dh)).take d.dh).map (valueOf d.kfmt)

/-- Steps 2 to 7 from the half scores. -/
def forwardFrom (v : PklView) (sa sb : List Word) : QueryResult :=
  let d := v.d
  let cs := selectCandidates d sa sb
  let slots := cs.map Candidate.slot
  let w := softmax (cs.map Candidate.score)
  (v.read true d.vz (d.valueRows slots)).bind [] (d.valueRows slots) (fun vs =>
    let out := (List.range d.dv).map (fun x =>
      gatherElem ((List.range cs.length).map (fun r =>
        (laneOf w r, valueOf d.vfmt (vs.getD (r * d.dv + x) 0), v.stackOf (d.vbase + slots.getD r 0 * d.rstr + x * d.vz)))))
    let record := (cs.zip w).flatMap (fun e => [BitVec.ofNat 32 e.1.slot, e.2, e.1.sa, e.1.sb])
    ⟨[], [], .done out record []⟩)

/-- `pkq`: from the query's elements. -/
def forwardQuery (v : PklView) (q : List Nat) : QueryResult :=
  let d := v.d
  let rows := d.keyRows (List.range (d.ka + d.kb))
  (v.read false d.z rows).bind rows [] (fun keys =>
    let half := fun (h : Nat) => ((q.drop (h * d.dh)).take d.dh).map (valueOf d.kfmt)
    forwardFrom v ((List.range d.ka).map (fun i => dot32 (half 0) (d.keyRow keys i)))
      ((List.range d.kb).map (fun j => dot32 (half 1) (d.keyRow keys (d.ka + j)))))

/-! The backward pass (Tables 12.4, R168). -/

/-- One half of dq: the half gradients summed in rank order, then the exact sums over their key rows. -/
def halfGradient (dh : Nat) (row : Nat → List Fp) (terms : List (Nat × Word)) : List Word :=
  let is := distinct (terms.map Prod.fst)
  let gr := is.map (fun i => (row i, (terms.filter (fun t => t.1 == i)).foldl (fun acc t => addf32 acc t.2) (0 : Word)))
  (List.range dh).map (fun k => dot32 (gr.map (fun e => f32 e.2)) (gr.map (fun e => e.1.getD k (.num false 0 0))))

/-- The updates of a query in rank order, then element order (R168). -/
def rowUpdates (v : PklView) (query : Nat) (recs : List (Nat × Word)) (g : List Word) : List RowUpdate :=
  let d := v.d
  (recs.zip (List.range recs.length)).flatMap (fun (r, rank) =>
    (List.range d.dv).map (fun x =>
      let va := if d.umode = 0 then d.vbase + r.1 * d.rstr + x * d.vz else d.gbase + r.1 * d.gstr + x * 4
      { stack := v.stackOf va
        va := va
        fmt := if d.umode = 0 then d.vfmt else 0x02
        size := if d.umode = 0 then d.vz else 4
        query := query
        rank := rank
        term := if d.umode = 0 then mul32 (mul32 d.eta r.2) (laneOf g x) else mul32 r.2 (laneOf g x)
        mode := d.umode }))

/-- The rows that `pkb` updates pass R78 with PW and lie in the interleaved region. -/
def updatesOk (dom : DomReg) (d : PklDesc) (slots : List Nat) : Bool :=
  slots.all (fun k =>
    let va := if d.umode = 0 then d.vbase + k * d.rstr else d.gbase + k * d.gstr
    let z := if d.umode = 0 then d.vz else 4
    (List.range (d.dv * z)).all (fun i =>
      match rangeIa dom.ranges permW (va + i) with
      | some ia => decide (ia / 2 ^ 48 = 15)
      | none => false))

/-- `pkb` and `pkbq` from the records (SLOT and W) and the upstream gradient: only the key rows that the slots name are read. -/
def backwardQuery (v : PklView) (query : Nat) (recs : List (Nat × Word)) (g : List Word) (update : Bool) : QueryResult :=
  let d := v.d
  let slots := recs.map Prod.fst
  if slots.any (fun k => decide (d.ka * d.kb ≤ k)) || (update && !updatesOk v.dom d slots) then ⟨[], [], .fails []⟩
  else
    let named := distinct (slots.map (· / d.kb)) ++ distinct (slots.map (fun k => d.ka + k % d.kb))
    (v.read false d.z (d.keyRows named)).bind (d.keyRows named) [] (fun keys =>
      (v.read true d.vz (d.valueRows slots)).bind [] (d.valueRows slots) (fun vs =>
        let row := fun (i : Nat) => d.keyRow keys (named.findIdx (· == i))
        let dots := (List.range recs.length).map (fun r =>
          dot32 (g.map f32) (((vs.drop (r * d.dv)).take d.dv).map (valueOf d.vfmt)))
        let c := (recs.zip dots).foldl (fun c e => fma32 e.1.2 e.2 c) (0 : Word)
        let ds := (recs.zip dots).map (fun e => mul32 e.1.2 (sub32 e.2 c))
        let terms := slots.zip ds
        let dq := halfGradient d.dh row (terms.map (fun t => (t.1 / d.kb, t.2))) ++
          halfGradient d.dh (fun j => row (d.ka + j)) (terms.map (fun t => (t.1 % d.kb, t.2)))
        ⟨[], [], .done dq [] (if update then rowUpdates v query recs g else [])⟩))

/-! The commands (R293, R294, R407). -/

def PklForm.forward : PklForm → Bool
  | .query => true
  | .scores => true
  | _ => false

/-- The descriptors of the launch, and the one that a record names. -/
def pklTable (s : State) (g : Group) : List (List Byte) := ((runOf s g).map NodeRun.pkl).getD []
def pklBytes (c : Ctx) (s : State) (n : Nat) : List Byte := (pklTable s c.g).getD (c.word n 0 % 8) []
def pklDesc (c : Ctx) (s : State) (n : Nat) : PklDesc := PklDesc.ofBytes (pklBytes c s n)

/-- The record's slot lies below PKLN and its descriptor keeps Table 12.1. -/
def pklUsable (c : Ctx) (s : State) (n : Nat) : Bool :=
  decide (c.word n 0 % 8 < (pklTable s c.g).length) && pklTableOk (pklBytes c s n)

def pklQueries (c : Ctx) (n : Nat) : Nat := c.word n 0 / 2 ^ 8 % 32 + 1

def roundUp16 (x : Nat) : Nat := (x + 15) / 16 * 16

/-- A range of a command: the window, the offset in it, and the length. -/
structure PklRange where
  window : Nat
  off    : Nat
  len    : Nat
deriving DecidableEq, Repr

/-- The bytes that a query reads in WIN, and writes in WOUT. -/
def pklInLen (f : PklForm) (d : PklDesc) : Nat :=
  match f with
  | .query => 2 * d.dh * d.z
  | .scores => 4 * (d.ka + d.kb)
  | _ => 4 * d.dv

def pklOutLen (f : PklForm) (d : PklDesc) : Nat := if f.forward then 4 * d.dv else 8 * d.dh

/-- The three ranges of a query (Table 20.3): in, out and record. -/
def pklRanges (f : PklForm) (c : Ctx) (n : Nat) (d : PklDesc) (q : Nat) : PklRange × PklRange × PklRange :=
  let w0 := c.word n 0
  let w1 := c.word n 1
  (⟨w0 / 2 ^ 16 % 16, 16 * (w1 % 2 ^ 16) + q * roundUp16 (pklInLen f d), pklInLen f d⟩,
   ⟨w0 / 2 ^ 20 % 16, 16 * (w1 / 2 ^ 16) + q * roundUp16 (pklOutLen f d), pklOutLen f d⟩,
   ⟨w0 / 2 ^ 24 % 16, 16 * (c.word n 2 % 2 ^ 16) + q * 16 * d.k, 16 * d.k⟩)

def PklRange.place (r : PklRange) (c : Ctx) (s : State) : Nat := placeOf c s r.window r.off

/-- Ranges of all queries: those written and those read. -/
def pklWritten (f : PklForm) (c : Ctx) (n : Nat) (d : PklDesc) : List PklRange :=
  (List.range (pklQueries c n)).flatMap (fun q =>
    let (_, o, r) := pklRanges f c n d q
    if f.forward then [o, r] else [o])

def pklReadRanges (f : PklForm) (c : Ctx) (n : Nat) (d : PklDesc) : List PklRange :=
  (List.range (pklQueries c n)).flatMap (fun q =>
    let (i, _, r) := pklRanges f c n d q
    if f.forward then [i] else [i, r])

/-- Some range that is written overlaps another one that is written or read. -/
def pklOverlaps (c : Ctx) (s : State) (written read : List PklRange) : Bool :=
  match written with
  | [] => false
  | x :: t => (t ++ read).any (fun y => overlap (x.place c s) x.len (y.place c s) y.len) || pklOverlaps c s t read

/-- The bits of the record that are reserved. -/
def pklReserved (c : Ctx) (n : Nat) : Bool :=
  (c.word n 0 &&& 0xF000E0F8) != 0 || decide (2 ^ 16 ≤ c.word n 2) || c.word n 3 != 0

def cond14 (c : Ctx) (b : Bool) : List Cond := if b then [⟨0x14, c.low, 0⟩] else []

/-- The conditions of a PKL command. The ranges of a descriptor that breaks Table 12.1 are formed from its fields as they stand (log 31);
below PKLN there is one. -/
def pklConds (f : PklForm) (n : Nat) (c : Ctx) (s : State) : List Cond :=
  let d := pklDesc c s n
  let part := (partOfCore s c.core).getD 0
  let table := fun (va rows : Nat) => (rangeFail c.g.dom.ranges permR va (rows * d.dh * d.z)).toList
  if !decide (c.word n 0 % 8 < (pklTable s c.g).length) then cond14 c true
  else
    (if f == .scores then []
     else
      match (table d.abase d.ka ++ table d.bbase d.kb).min? with
      | some x => [⟨0x0C, c.low, x⟩]
      | none => []) ++
    (pklWritten f c n d ++ pklReadRanges f c n d).flatMap (fun r => windowConds c s r.window r.off r.len) ++
    cond14 c (!pklUsable c s n || pklReserved c n || !pklBaseOk s part c.g.dom d.vbase ||
      (d.umode == 1 && !pklBaseOk s part c.g.dom d.gbase) || pklOverlaps c s (pklWritten f c n d) (pklReadRanges f c n d))

/-- The little-endian elements of a scratchpad range. -/
def scratchElems (c : Ctx) (s : State) (off z n : Nat) : List Nat :=
  (List.range n).map (fun i => readLE (scratchOf s c.g) (off + i * z) z)

/-- The records of a query: SLOT and W of each rank. -/
def pklRecords (c : Ctx) (s : State) (d : PklDesc) (r : PklRange) : List (Nat × Word) :=
  (List.range d.k).map (fun i =>
    (readLE (scratchOf s c.g) (r.place c s + 16 * i) 4, BitVec.ofNat 32 (readLE (scratchOf s c.g) (r.place c s + 16 * i + 4) 4)))

/-- One query of a command; a poisoned word of its ranges that are read fails it. -/
def pklQuery (f : PklForm) (c : Ctx) (s : State) (n : Nat) (d : PklDesc) (q : Nat) : QueryResult :=
  let (i, _, r) := pklRanges f c n d q
  let v : PklView := ⟨s, c.asker, (partOfCore s c.core).getD 0, c.g.dom, d⟩
  let off := i.place c s
  if scratchBad s c.g off i.len || (!f.forward && scratchBad s c.g (r.place c s) r.len) then ⟨[], [], .fails []⟩
  else
    let word := fun (k : Nat) => (scratchElems c s (off + 4 * k) 4 (i.len / 4 - k)).map (BitVec.ofNat 32)
    match f with
    | .query => forwardQuery v (scratchElems c s off d.z (2 * d.dh))
    | .scores => forwardFrom v ((word 0).take d.ka) ((word d.ka).take d.kb)
    | .back => backwardQuery v q (pklRecords c s d r) (word 0) true
    | .backQ => backwardQuery v q (pklRecords c s d r) (word 0) false

/-- The words of a range of the allocation. -/
def wordsOf (off len : Nat) : List Nat := (List.range (len / 4)).map (fun i => off / 4 + i)

/-- What a query writes into the scratchpad: its words, or the poisoned words of a query that failed. -/
def queryWrites (f : PklForm) (c : Ctx) (s : State) (n : Nat) (d : PklDesc) (q : Nat) (x : QueryEnd) :
    List (Nat × List Byte) × List Nat :=
  let (_, o, r) := pklRanges f c n d q
  let bytes := fun (ws : List Word) => ws.flatMap (fun w => toBytes 4 w.toNat)
  match x with
  | .done out record _ => ((o.place c s, bytes out) :: (if f.forward then [(r.place c s, bytes record)] else []), [])
  | _ =>
    let zero := fun (y : PklRange) => (y.place c s, List.replicate y.len (0 : Byte))
    ((zero o) :: (if f.forward then [zero r] else []),
      wordsOf (o.place c s) o.len ++ (if f.forward then wordsOf (r.place c s) r.len else []))

/-- The plan of a PKL command. Which value rows it reads depends on what it has read before, so all of the value table may yet be read. -/
def planPkl (f : PklForm) (n : Nat) (c : Ctx) (s : State) : Plan :=
  let d := pklDesc c s n
  let rs := (List.range (pklQueries c n)).map (fun q => (q, pklQuery f c s n d q))
  let ends := rs.map (fun e => e.2.fin)
  let ws := rs.map (fun e => queryWrites f c s n d e.1 e.2.fin)
  { granules := distinct ((pklWritten f c n d ++ pklReadRanges f c n d).flatMap (fun r => granulesOf (r.place c s) r.len))
    reads := rs.flatMap (fun e => e.2.reads)
    rows := rs.flatMap (fun e => e.2.rows)
    may := (if f == .scores then [] else [⟨d.abase, d.ka * d.dh * d.z⟩, ⟨d.bbase, d.kb * d.dh * d.z⟩]) ++ [⟨d.vbase, d.ka * d.kb * d.rstr⟩]
    parks := ends.any (fun e => e == .waits)
    logs := ends.flatMap (fun e => match e with | .fails l => l | _ => [])
    err := ends.any (fun e => match e with | .fails _ => true | _ => false)
    work := if f == .back then
        .updates (ws.flatMap Prod.fst) (ws.flatMap Prod.snd) (ends.flatMap (fun e => match e with | .done _ _ rows => rows | _ => []))
      else .writes (ws.flatMap Prod.fst) (ws.flatMap Prod.snd) [] [] }

def pklOp (f : PklForm) (g p fl n : Nat) : State → Out :=
  commandOp g p fl n [] (fun _ => []) (f == .back) (pklConds f n) (some (.pkl f n)) (planPkl f n)

/-- The plan of a command that reads global memory. -/
def planOf : EngineOp → Ctx → State → Plan
  | .g2s n => planG2s n
  | .coll n => planColl n
  | .pkl f n => planPkl f n

/-- `PKQ` (R162, R293). -/
def execPkq (g : Fin 4) (p : Fin 8) (f : Fin 16) (n : Fin 32) (s : State) : Out := pklOp .query g p f n s

/-- `PKQS` (R162, R293). -/
def execPkqs (g : Fin 4) (p : Fin 8) (f : Fin 16) (n : Fin 32) (s : State) : Out := pklOp .scores g p f n s

/-- `PKB` (R167, R293). -/
def execPkb (g : Fin 4) (p : Fin 8) (f : Fin 16) (n : Fin 32) (s : State) : Out := pklOp .back g p f n s

/-- `PKBQ` (R167, R293). -/
def execPkbq (g : Fin 4) (p : Fin 8) (f : Fin 16) (n : Fin 32) (s : State) : Out := pklOp .backQ g p f n s

end Sys2Proof.Machine
end

