-- ==== Sys2Proof/Machine/Frames.lean ====
section
/-! DEFINITION. Context frames (R204, R205, R386, R418): the bytes of a group frame and of a block frame, where they are written, and what
damage to them does (R380). Bytes whose place the spec gives no meaning are free values (log 6, log 12). -/

namespace Sys2Proof.Machine

/-! Sections. -/

/-- A section begins on a 64-byte boundary and is padded with zeros to one (R204). -/
def section64 (bs : List Byte) : List Byte := bs ++ List.replicate ((64 - bs.length % 64) % 64) 0

/-! Group frames (Table 14.6). -/

/-- The vector registers that a frame holds: those that are not dead (R180, R199, R200). -/
def Group.heldV (g : Group) : List Nat := (List.range g.nv).filter (fun n => !(g.vreg n).dead)

/-- The uniform registers that a frame holds: the allocation, and s61 and s63 always (R47). -/
def Group.heldS (g : Group) : List Nat := (List.range 64).filter (fun n => decide (n < g.ns) || n == 61 || n == 63)

/-- A mask of register numbers. -/
def numbersMask (ns : List Nat) : Nat := ns.foldl (fun m n => m + 2 ^ n) 0

/-- A group that has been rewound is saved in a flashback frame: its region is open and it is neither parked nor trapped (R198, R418). -/
def Group.rewound (g : Group) : Bool :=
  g.flash.isSome && g.regionOpen && decide (g.stop = .saving none) &&
      !(!g.live.isEmpty && g.live.all (fun i => (g.strand i).held == some .yield))

/-- The lanes of a register that the frame records as poisoned. -/
def Group.poisonV (g : Group) (n : Nat) : Nat := if (g.vreg n).dead then 0 else (g.vreg n).poison.toNat

def Group.poisonS (g : Group) : List Nat := g.heldS.filter (fun n => (g.sreg n).poison)

/-- POIS (R386). -/
def Group.anyPoison (g : Group) : Bool := !g.poisonS.isEmpty || (List.range g.nv).any (fun n => g.poisonV n != 0)

/-- The size of a group's frame in bytes. -/
def Group.frameSize (g : Group) : Nat :=
  64 + 128 * g.heldV.length + (4 * g.heldS.length + 63) / 64 * 64 + 64 + 8 * 176 + 64 + (if g.anyPoison then 320 else 0)

def Group.headerBytes (g : Group) (dt : Nat) : List Byte :=
  toBytes 2 (if g.rewound then 2 else 1) ++ toBytes 2 0 ++ toBytes 4 g.frameSize ++ toBytes 8 g.rh ++ toBytes 8 dt ++ toBytes 2 g.dom.id ++
    toBytes 1 g.calls.length ++ toBytes 1 (g.nv / 8) ++ toBytes 1 (g.ns / 16) ++ toBytes 1 (if g.pricking then 1 else 0) ++
    toBytes 1 (if g.anyPoison then 1 else 0) ++ toBytes 1 0 ++ toBytes 8 (numbersMask g.heldV) ++ toBytes 8 (numbersMask g.heldS) ++
    (List.range 8).flatMap (fun i => toBytes 1 (g.strand i).gang)

def Group.vectorBytes (g : Group) : List Byte :=
  g.heldV.flatMap (fun n => (List.range 32).flatMap (fun l => toBytes 4 ((g.vreg n).lanes.getD l 0).toNat))

def Group.uniformBytes (g : Group) : List Byte := g.heldS.flatMap (fun n => toBytes 4 (g.sreg n).val.toNat)

/-- p1 to p7, q1 to q3 and the tags, that of register 2i in the low nibble. -/
def Group.predicateBytes (g : Group) : List Byte :=
  (List.range 7).flatMap (fun i => toBytes 4 (g.preg (i + 1)).val.toNat) ++
    toBytes 4 ((List.range 4).foldl (fun v i => v + (if decide (0 < i) && (g.qreg i).val then 2 ^ i else 0)) 0) ++
    (List.range 32).flatMap (fun i => toBytes 1 ((g.vreg (2 * i)).tag + 16 * (g.vreg (2 * i + 1)).tag))

/-- A strand record (Table 14.7); entries stand in it from the bottom of their stack. -/
def Strand.recordBytes (t : Strand) : List Byte :=
  toBytes 8 t.pc.toNat ++ toBytes 4 t.lr.toNat ++ toBytes 1 (t.active.toNat + 16 * t.exited.toNat) ++ toBytes 1 t.loops.length ++
    toBytes 1 t.div.length ++ toBytes 1 0 ++
    (List.range 4).flatMap (fun i => toBytes 24 (((fromBottom t.loops [] i).map LoopEntry.toNat).getD 0)) ++
    (List.range 4).flatMap (fun i => toBytes 16 (((fromBottom t.div [] i).map DivEntry.toNat).getD 0))

/-- The pending trap record (R418), zero when none is pending. -/
def Group.trapBytes (g : Group) : List Byte :=
  match g.stop with
  | .saving (some t) => toBytes 2 (t.cause % 256 + 2 ^ 8 * (t.strand % 8) + 2 ^ 15) ++ toBytes 8 t.va.toNat ++ toBytes 8 t.pc.toNat
  | _ => toBytes 18 0

/-- The control section; the spec gives its wait state no code. -/
def Group.controlBytes (g : Group) (mark : Nat) : List Byte :=
  (List.range 12).flatMap (fun f => toBytes 1 (getAt 0 g.counts f)) ++ toBytes 4 g.fpm.toNat ++ toBytes 4 g.fpf.toNat ++
    toBytes 4 g.nfv.toNat ++ toBytes 4 g.cbwin.toNat ++ toBytes 4 g.gmode.toNat ++ openBytes mark (64 * g.gid) 4 ++
    toBytes 8 (g.storeErr.getD 0) ++ toBytes 2 g.flagErr.toNat ++ g.trapBytes

/-- The poison section (R386). -/
def Group.poisonBytes (g : Group) : List Byte :=
  if g.anyPoison then (List.range 64).flatMap (fun n => toBytes 4 (g.poisonV n)) ++ toBytes 8 (numbersMask g.poisonS) ++ toBytes 56 0 else []

/-- A GROUP FRAME: its sections in the order of Table 14.6. -/
def Group.frameBytes (g : Group) (dt mark : Nat) : List Byte :=
  section64 (g.headerBytes dt) ++ g.vectorBytes ++ section64 g.uniformBytes ++ g.predicateBytes ++
    (List.range 8).flatMap (fun i => (g.strand i).recordBytes) ++ g.controlBytes mark ++ g.poisonBytes

/-! Block frames (Table 14.8). -/

/-- The groups that wait at a barrier, one bit a group. -/
def waitingAt (gs : List Group) (n : Nat) : Nat :=
  numbersMask ((gs.filter (fun g => g.live.any (fun i => match (g.strand i).held with
    | some (.barrier b _ _ _ _) => b == n
    | some (.arrival b _ _) => b == n
    | _ => false))).map Group.gid)

def barrierBytes (b : Block) (gs : List Group) (q : Option SeqCtx) : List Byte :=
  (List.range 16).flatMap (fun n =>
    let x := getAt Barrier.none b.bars n
    let waits := match q with
      | some y => (match y.waiting with
        | some (k, _, _) => k == n
        | none => false)
      | none => false
    toBytes 4 x.phase ++ toBytes 4 x.groups.toNat ++ toBytes 4 (waitingAt gs n) ++
      toBytes 4 ((if x.seq then 1 else 0) + (if waits then 2 else 0)))

def windowBytes (b : Block) : List Byte :=
  (List.range 16).flatMap (fun n =>
    let w := getAt Window.none b.windows n
    toBytes 4 w.base ++ toBytes 4 w.extent)

def scratchBytes (b : Block) : List Byte := readBytes b.scratch 0 b.scratchSize

/-- The sequencer's section (R141): 128 bytes of state to which the spec gives no places, each tile with its scale area, and the granted
units at 5 bytes an element. -/
def SeqCtx.frameBytes (q : SeqCtx) (mark : Nat) : List Byte :=
  openBytes mark 4096 128 ++
    (List.range 8).flatMap (fun t => readBytes q.tiles (4096 * t) 4096 ++ readBytes q.scales (256 * t) 256) ++
    (List.range q.nacc).flatMap (fun u => (List.range 1024).flatMap (fun e => toBytes 5 (getAt 0 q.acc (1024 * u + e))))

/-- The sections of a block frame before the group frames. -/
def SavedBlock.upperBytes (x : SavedBlock) : List Byte :=
  openBytes x.mark 8192 64 ++ barrierBytes x.block x.groups x.seq ++ windowBytes x.block ++ scratchBytes x.block ++
    ((x.seq.map (fun q => q.frameBytes x.mark)).getD [])

def SavedBlock.upperSize (x : SavedBlock) : Nat :=
  64 + 256 + 128 + x.block.scratchSize + ((x.seq.map (fun q => 128 + 34816 + 5120 * q.nacc)).getD 0)

/-- The size of a block frame in bytes. -/
def SavedBlock.frameSize (x : SavedBlock) : Nat := x.groups.foldl (fun n g => n + g.frameSize) x.upperSize

/-! Writing (R199, R204). -/

/-- Where the frames of a domain stand for a save: at the place that firmware chose in its CSAVE area. -/
def SavedBlock.at (x : SavedBlock) (s : State) (dom : Nat) : Nat := (domainAt s x.part dom).csave + x.place

/-- The groups of a saved block with the IAs of their frames; inside a call the frame goes to the callee domain's area (R182). -/
def SavedBlock.framesFrom (x : SavedBlock) (s : State) : List Group → Nat → List (Group × Nat)
  | [], _ => []
  | g :: gs, off => (g, x.at s g.dom.id + off) :: x.framesFrom s gs (off + g.frameSize)

def SavedBlock.frames (x : SavedBlock) (s : State) : List (Group × Nat) := x.framesFrom s x.groups x.upperSize

/-- The places of the group frames. -/
def SavedBlock.groupSpots (x : SavedBlock) (s : State) (die : Option Nat) : List (Group × Nat) → Option (List Spot)
  | [] => some []
  | f :: fs =>
    match spotsFrom s die x.part (f.1.frameSize / 64) f.2, x.groupSpots s die fs with
    | some l, some l' => some (l ++ l')
    | _, _ => none

/-- The places of a block frame, as a core of a die writes it. -/
def SavedBlock.spots (x : SavedBlock) (s : State) (die : Option Nat) : Option (List Spot) :=
  match spotsFrom s die x.part (x.upperSize / 64) (x.at s x.dom), x.groupSpots s die (x.frames s) with
  | some l, some l' => some (l ++ l')
  | _, _ => none

/-- The callers' frames of the groups with their places in the areas of the callers' domains, after that domain's part of the frame
(R182; log 12). -/
def SavedBlock.callers (x : SavedBlock) (s : State) : List (Nat × CallFrame) :=
  let fs := x.groups.flatMap Group.calls
  (fs.zip (List.range fs.length)).map (fun e => (x.at s e.1.dom.id + x.frameSize + gateFrameSize * e.2, e.1))

/-- A caller's frame is copied by a core: what cannot be read of it is logged and arrives as poison. -/
def copyFrame (s : State) (core part source dest mark : Nat) : State :=
  let s' := writeOpenFrame s core 63 part dest mark
  if damagedRange s (some (dieOfCore core)) part source gateFrameSize then
    let s' := logFrameReads s' core 63 part source gateFrameSize
    match homePlace s' part 0 dest with
    | .at stack pa _ _ _ => setPoison s' (physKey stack pa / 32) true
    | _ => s'
  else s'

/-- Frames copied one after the other, from some IAs to others. -/
def copyFrames (s : State) (core part : Nat) (from' to' : List (Nat × CallFrame)) : State :=
  (from'.zip to').foldl (fun s e => copyFrame s core part e.1.1 e.2.1 e.1.2.mark) s

/-- Where the callers' frames of a group stand while it is resident. -/
def residentCallers (s : State) (g : Group) : List (Nat × CallFrame) :=
  match s.groups.find? (fun e => e.2.uid == g.uid) with
  | some e => callerFrames (e.1 / 64) (e.1 % 64) g.calls
  | none => []

def SavedBlock.groupBytes (x : SavedBlock) : List Byte := x.groups.flatMap (fun g => g.frameBytes x.dt x.mark)

/-- A frame can be written: its sections begin at multiples of 64, and its pages are there. -/
def frameOk (s : State) (core : Nat) (x : SavedBlock) : Bool :=
  decide (x.at s x.dom % 64 = 0) && (x.spots s (some (dieOfCore core))).isSome &&
      (x.callers s).all (fun e => (gateSpots s core x.part e.1).isSome)

/-- The parts of a frame that a core writes and reads: their IAs and sizes. -/
def SavedBlock.parts (x : SavedBlock) (s : State) : List (Nat × Nat) :=
  (x.at s x.dom, x.upperSize) :: (x.frames s).map (fun e => (e.2, e.1.frameSize)) ++ (x.callers s).map (fun e => (e.1, gateFrameSize))

/-- A frame that cannot be written: the first write that fails is logged (R380, R383). -/
def logUnwritten (s : State) (core : Nat) (x : SavedBlock) : State :=
  (((x.parts s).flatMap (fun p => frameErrors s (some (dieOfCore core)) x.part p.1 p.2 false)).take 1).foldl (logFrameError x.part core 63) s

/-- THE FRAME OF A BLOCK IS WRITTEN by its core, and the callers' frames of its groups are copied out of the gates' save areas. -/
def writeFrame (s : State) (core : Nat) (x : SavedBlock) : State :=
  copyFrames (writeSpots x.part s ((x.spots s (some (dieOfCore core))).getD []) (x.upperBytes ++ x.groupBytes)) core x.part
    (x.groups.flatMap (residentCallers s)) (x.callers s)

/-- What changes in a saved group is recorded in its frame (R199, R207, R379). -/
def recordGroups (s : State) (bid : Nat) : State :=
  match lookupAt s.saved bid with
  | some x => writeSpots x.part s ((x.groupSpots s none (x.frames s)).getD []) x.groupBytes
  | none => s

/-! Damage (R380). -/

/-- A group as a restore to a die finds it whose frame is at an IA: damaged register lanes are poisoned. -/
def Group.withDamage (g : Group) (s : State) (die : Option Nat) (part ia : Nat) : Group :=
  let g' := (List.range g.heldV.length).foldl (fun (r : Group) i =>
    let n := g.heldV.getD i 0
    let bad := numbersMask ((List.range 32).filter (fun l => damagedAt s die part (ia + 64 + 128 * i + 4 * l)))
    if bad = 0 then r else r.setV n ((r.vreg n).poisoned (BitVec.ofNat 32 bad))) g
  (List.range g.heldS.length).foldl (fun (r : Group) i =>
    let n := g.heldS.getD i 0
    if damagedAt s die part (ia + 64 + 128 * g.heldV.length + 4 * i) then r.setS n (r.sreg n).poisoned else r) g'

/-- Damage in a group's header, strand or control section, or in its predicates and tags (log 12). -/
def Group.frameBroken (g : Group) (s : State) (die : Option Nat) (part ia : Nat) : Bool :=
  let after := ia + 64 + 128 * g.heldV.length + (4 * g.heldS.length + 63) / 64 * 64
  damagedRange s die part ia 64 || damagedRange s die part after (64 + 8 * 176 + 64)

/-- No byte of the frame holds uncorrectable data, as a core reads it. -/
def SavedBlock.clean (x : SavedBlock) (s : State) (core : Nat) : Bool :=
  let die := some (dieOfCore core)
  !damagedRange s die x.part (x.at s x.dom) x.upperSize && (x.frames s).all (fun e => !damagedRange s die x.part e.2 e.1.frameSize)

/-- The reads of the frame that fail are logged (R383). -/
def logRestore (s : State) (core : Nat) (x : SavedBlock) : State :=
  ((x.at s x.dom, x.upperSize) :: (x.frames s).map (fun e => (e.2, e.1.frameSize))).foldl (fun s p =>
    logFrameReads s core 63 x.part p.1 p.2) s

/-- Damage that ends the block: in a header, strand or control section, or in the barriers, windows and sequencer of the block (log 12). -/
def SavedBlock.broken (x : SavedBlock) (s : State) (core : Nat) : Bool :=
  let die := some (dieOfCore core)
  damagedRange s die x.part (x.at s x.dom) 448 ||
    damagedRange s die x.part (x.at s x.dom + 448 + x.block.scratchSize) (x.upperSize - 448 - x.block.scratchSize) ||
    (x.frames s).any (fun e => e.1.frameBroken s die x.part e.2)

/-- The block as a restore finds it: damaged lanes are poisoned, and so are damaged words of the scratchpad. -/
def SavedBlock.withDamage (x : SavedBlock) (s : State) (core : Nat) : SavedBlock :=
  let die := some (dieOfCore core)
  { x with
    groups := (x.frames s).map (fun e => e.1.withDamage s die x.part e.2)
    block := { x.block with
      poison := ((List.range (x.block.scratchSize / 4)).filter (fun i => damagedAt s die x.part (x.at s x.dom + 448 + 4 * i))).foldl
        (fun m i => putAt false m i true) x.block.poison } }

end Sys2Proof.Machine
end

