-- ==== Sys2Proof/Machine/Lane.lean ====
section
/-! DEFINITION. The lane operations (R272 to R275). -/

namespace Sys2Proof.Machine

/-- A shuffle (R273): each active lane reads a from its source lane where that lane is active in this issue, and from itself otherwise. -/
def shuffleOp (g p d a : Nat) (src : List Nat) (from' : Ctx → Nat → Option Nat) : State → Out :=
  issueRegs (laneNeeds 4 g p (a :: src) [d])
    (fun c gr => gr.writeV c.dt 4 d (c.tag a) c.act (fun l =>
      match from' c l with
      | some j => if j < 32 ∧ laneBit c.act j = true then c.v a j else c.v a l
      | none => c.v a l))

/-- `SHFL_IDX` (R273). -/
def execShflIdx (g : Fin 4) (p : Fin 8) (d a b : Fin 64) (s : State) : Out :=
  shuffleOp g p d a [b.val] (fun c l => some ((c.v b l).toNat % 32)) s

/-- `SHFL_UP` (R273). -/
def execShflUp (g : Fin 4) (p : Fin 8) (d a : Fin 64) (n : Fin 32) (s : State) : Out :=
  shuffleOp g p d a [] (fun _ l => if n.val ≤ l then some (l - n.val) else none) s

/-- `SHFL_DN` (R273). -/
def execShflDn (g : Fin 4) (p : Fin 8) (d a : Fin 64) (n : Fin 32) (s : State) : Out :=
  shuffleOp g p d a [] (fun _ l => some (l + n.val)) s

/-- `SHFL_XOR` (R273). -/
def execShflXor (g : Fin 4) (p : Fin 8) (d a : Fin 64) (n : Fin 32) (s : State) : Out :=
  shuffleOp g p d a [] (fun _ l => some (l ^^^ n.val)) s

/-- How many active lanes hold a true predicate (R274). -/
def pollCount (c : Ctx) (x : Nat) : Nat := (c.lanes.filter (fun l => c.p x l)).length

/-- A poll (R274): q is written once per issue from the number of active lanes and of those in which the predicate is true. -/
def pollOp (g p q x : Nat) (f : Nat → Nat → Bool) : State → Out :=
  issueRegs { laneNeeds 4 g p [] [] with psrc := [x] }
    (fun c gr => gr.writeQ c.dt 4 q (f c.lanes.length (pollCount c x)))

/-- `POLL_SOME` (R274). -/
def execPollSome (g : Fin 4) (p : Fin 8) (q : Fin 4) (x : Fin 8) (s : State) : Out :=
  pollOp g p q x (fun _ k => decide (k ≥ 1)) s

/-- `POLL_EVERY` (R274). -/
def execPollEvery (g : Fin 4) (p : Fin 8) (q : Fin 4) (x : Fin 8) (s : State) : Out :=
  pollOp g p q x (fun n k => decide (k = n)) s

/-- `POLL_AGREE` (R274). -/
def execPollAgree (g : Fin 4) (p : Fin 8) (q : Fin 4) (x : Fin 8) (s : State) : Out :=
  pollOp g p q x (fun n k => decide (k = 0 ∨ k = n)) s

/-- `POLL_MOST` (R274). -/
def execPollMost (g : Fin 4) (p : Fin 8) (q : Fin 4) (x : Fin 8) (s : State) : Out :=
  pollOp g p q x (fun n k => decide (2 * k > n)) s

/-- `BALLOT` (R274): with no active lane it writes nothing. -/
def execBallot (g : Fin 4) (p : Fin 8) (d : Fin 64) (x : Fin 8) (s : State) : Out :=
  issueRegs { laneNeeds 4 g p [] [d] with psrc := [x] }
    (fun c gr =>
      if c.act = 0 then gr
      else gr.writeV c.dt 4 d tagI32 c.act (fun _ => maskOf (fun l => laneBit c.act l && c.p x l))) s

/-- One level of the pairwise tree (R275): adjacent terms, of which one or both may be missing. -/
def treeLevel {α : Type} (f : α → α → α) : List (Option α) → List (Option α)
  | x :: y :: t =>
    (match x, y with
     | some a, some b => some (f a b)
     | some a, none => some a
     | none, some b => some b
     | none, none => none) :: treeLevel f t
  | l => l

/-- `n` levels of the tree. -/
def treeSum {α : Type} (f : α → α → α) : Nat → List (Option α) → List (Option α)
  | 0, l => l
  | n + 1, l => treeSum f n (treeLevel f l)

/-- The root of the tree over 2^n terms. -/
def treeRoot {α : Type} (f : α → α → α) (n : Nat) (l : List (Option α)) : Option α := ((treeSum f n l).head?).join

/-- An FP32 addition of the tree under RNE, with its flags. -/
def addFlagged (x y : Word × Flags) : Word × Flags :=
  let (r, fl) := word32 (fp32.add .rne (f32 x.1) (f32 y.1))
  (r, x.2 ||| y.2 ||| fl)


/-- The sum of `redadd.f` and its flags (R275): the tree over the active lanes, and NV for a signalling NaN in any of them. -/
def redaddFloat (c : Ctx) (a : Nat) : Word × Flags :=
  let terms := (List.range 32).map (fun l => if laneBit c.act l then some (c.v a l, (0 : Flags)) else none)
  let (r, fl) := (treeRoot addFlagged 5 terms).getD (0, 0)
  (canonical32 r, fl ||| (if c.lanes.any (fun l => (f32 (c.v a l)).isSnan) then flagNV else 0))

/-- The sum of `redadd.i` (R275). -/
def redaddInt (c : Ctx) (a : Nat) : Word :=
  (treeRoot (fun x y : Word => x + y) 5 ((List.range 32).map (fun l => if laneBit c.act l then some (c.v a l) else none))).getD 0

/-- `REDADD_F` (R275). -/
def execRedaddF (g : Fin 4) (p : Fin 8) (d a : Fin 64) (s : State) : Out :=
  issue { fpNeeds 4 g p [a] [d] with varLat := true } noConds noWait
    (fun c s => retire c 4 (sendUnit c [(d, tagFP32)] (fun _ _ => (redaddFloat c a).1) true (redaddFloat c a).2 s)) s

/-- `REDADD_I` (R275). -/
def execRedaddI (g : Fin 4) (p : Fin 8) (d a : Fin 64) (s : State) : Out :=
  issue { laneNeeds 4 g p [a] [d] with varLat := true } noConds noWait
    (fun c s => retire c 4 (sendUnit c [(d, tagI32)] (fun _ _ => redaddInt c a) false 0 s)) s

end Sys2Proof.Machine
end

