-- ==== Sys2Proof/Machine/NearBank.lean ====
section
/-! DEFINITION. Near-bank units: visits and rows (R144, R153, R155, R156), how runs start, suspend, end and fail (R149, R151, R152, R402,
R403), and the near-bank stream (R318 to R326). -/

namespace Sys2Proof.Machine

/-! Commands at a bank (R151). -/

/-- The banks that a command still addresses. -/
def CmdWork.banks : CmdWork → List Nat
  | .looking _ _ w => w.banks
  | .nbLoad bs _ => bs
  | .nbRun w r _ _ _ _ _ => w.map Prod.fst ++ r
  | .nbGet bs _ _ _ => bs
  | .nbMode bs _ _ _ => bs
  | _ => []

/-- A command with a lower number is outstanding at a bank. -/
def earlierAt (s : State) (id bank : Nat) : Bool := s.cmds.any (fun c => decide (c.1 < id) && c.2.work.banks.contains bank)

/-- A run of a bank is suspended by a switch of mode (R152). -/
def suspendedAt (s : State) (bank : Nat) : Bool := (nbuAt s bank).suspended

/-- A switch of mode has reached its turn: no earlier switch of the pseudo-channel and no earlier command at its banks is outstanding. At a
bank where a run is suspended nothing holds up a switch to compute mode, which lets the run go on (R151, R152). -/
def modeReady (s : State) (id : Nat) (banks : List Nat) (stack pch : Nat) (compute : Bool) : Bool :=
  !(s.cmds.any (fun c => decide (c.1 < id) && (match c.2.work with | .nbMode _ k p _ => k == stack && p == pch | _ => false))) &&
  banks.all (fun b => !earlierAt s id b || (compute && suspendedAt s b))

/-- A switch to normal mode is waiting for the runs of a pseudo-channel to reach a row boundary (R152). -/
def stopPending (s : State) (stack pch : Nat) : Bool :=
  s.cmds.any (fun c => match c.2.work with
    | .nbMode bs k p compute => k == stack && p == pch && !compute && modeReady s c.1 bs k p compute
    | _ => false)

/-! Rows (R144, R155 to R157). -/

/-- The columns that a visit has written. -/
def Nbu.columns (x : Nbu) : List Nat := (List.range 32).filter (fun c => (List.range 8).any (fun j => (lookupAt x.written (c * 8 + j)).isSome))

/-- The writes of a visit are performed when its row closes, with T the tick plus 4 (R157, R321). -/
def performVisit (s : State) (bank : Nat) (x : Nbu) (r : RunView) (pa : Nat) : State :=
  x.columns.foldl (fun s c =>
    let at' := pa + bankOffset bank + 32 * c
    let words := (List.range 8).map (fun j => lookupAt x.written (c * 8 + j))
    let val := (List.range 8).foldl (fun v j => v + ((words.getD j none).getD 0).toNat * 2 ^ (32 * j)) 0
    let mask := (List.range 8).foldl (fun v j => v + (if (words.getD j none).isSome then 2 ^ 32 - 1 else 0) * 2 ^ (32 * j)) 0
    performAtBank s (r.id, 0) r.part (r.ia x.row + bankOffset bank + 32 * c) (bankStack bank) at' 32 val mask 0) s

/-- The run's command learns the completion time of writes performed now. -/
def raiseMaxT (s : State) (id t : Nat) : State :=
  { s with cmds := modifyAt s.cmds id (fun c => { c with maxT := max c.maxT t }) }

/-- What the run's command keeps of its rows (R155): its first activation, its last precharge, and the rows activated and precharged. -/
def Cmd.opened (c : Cmd) (dt : Nat) : Cmd := { c with firstAct := some (c.firstAct.getD dt) }
def Cmd.closed (c : Cmd) (dt bank row : Nat) : Cmd :=
  { c with lastPre := some dt, rows := if c.rows.contains (bank, row) then c.rows else c.rows ++ [(bank, row)] }

/-- A row closes: the bank is precharged, the visit's writes are performed, and a row boundary begins. -/
def closeRow (s : State) (bank : Nat) (x : Nbu) (r : RunView) : State × Nbu :=
  match x.openRow with
  | none => (s, { x with visit := none, written := [] })
  | some pa =>
    let s' := performVisit s bank x r pa
    let s' := { s' with cmds := modifyAt s'.cmds r.id (fun c => c.closed s.dt bank (pa / 2 ^ 21)) }
    (if x.columns.isEmpty then s' else raiseMaxT s' r.id (s.dt + 4),
      { x with openRow := none, visit := none, written := [], pathFree := 0, lastRead := none, boundary := some 0, lastServed := none,
               bankFree := s.dt + rowTicks })

/-- Refresh credit of a run that has ended at all its banks (R155, R405): its rows count as refreshed at its first activation. -/
def creditRun (s : State) (c : Cmd) : State :=
  match c.work, c.firstAct, c.lastPre with
  | .nbRun [] [] _ _ true _ _, some t0, some t1 =>
    if t1 ≤ t0 + refreshWindow then
      { s with credit := c.rows.foldl (fun m e =>
          putAt 0 m (e.1 * 2 ^ 16 + e.2) (max (getAt 0 m (e.1 * 2 ^ 16 + e.2)) t0)) s.credit }
    else s
  | _, _, _ => s

/-- The bank's run is over; the command goes on with its other banks, and after the last one its rows get their credit. -/
def endRun (s : State) (bank : Nat) (x : Nbu) (r : RunView) (err : Bool) : State :=
  let s := setNbu s bank { x with cmd := none, boundary := none, lastServed := none, suspended := false }
  match lookupAt s.cmds r.id with
  | none => s
  | some c =>
    let c := { c with
      err := c.err || err
      work := match c.work with
        | .nbRun w run n e rc ps b => .nbRun w (run.filter (· != bank)) n e rc ps b
        | w => w }
    creditRun { s with cmds := setAt s.cmds r.id c } c

/-- A NEAR-BANK UNIT STOPS (R402): it precharges, the visit's writes are performed, its run ends and the flag gets an error mark. -/
def nbuStop (s : State) (bank : Nat) (x : Nbu) (r : RunView) : State :=
  let (s, x) := closeRow s bank x r
  endRun s bank x r true

/-- A row opens (R144, R403): a page that does not translate, or is no 2 MiB page of a class with WP = 2, stops the unit. -/
def openRow (s : State) (bank : Nat) (x : Nbu) (r : RunView) : State :=
  let va := r.base + x.row * rowBytes
  match rangeIa r.cmd.dom.ranges 0 va with
  | none => nbuStop s bank x r
  | some ia =>
    match place s r.part r.cmd.dom.id ia with
    | .park => s
    | .at k pa cls _ size =>
      if k == bankStack bank && size == rowBytes && isNa s cls && decide (ia / 2 ^ 48 < 12) then
        let s := { s with cmds := modifyAt s.cmds r.id (fun c => c.opened s.dt) }
        countActivation (setNbu s bank { x with openRow := some pa, bankFree := s.dt + rowTicks }) bank pa
      else nbuStop s bank x r
    | .error kind => nbuStop (logAccess s r.part ia r.cmd.dom.id r.cmd.core 63 kind) bank x r
    | .absent => nbuStop s bank x r

/-- The rows that a command's run has still to visit at a bank: the first one and how many. -/
def Cmd.toVisit (c : Cmd) (s : State) (bank : Nat) : Nat × Nat :=
  match c.work with
  | .nbRun w run count _ _ _ _ =>
    match w.find? (fun p => p.1 == bank) with
    | some p => (p.2, count)
    | none => if run.contains bank then ((nbuAt s bank).row, (nbuAt s bank).left) else (0, 0)
  | _ => (0, 0)

/-- The region that a command's run sweeps. -/
def CmdWork.regionBase : CmdWork → Nat
  | .nbRun _ _ _ _ _ _ base => base
  | _ => 0

/-- An access that a core issues after its `nb.run` comes to a row that the run has still to visit: a write enters the row's coherence order
after the visit, and a read of a strand that issued the command does not pass its read (R96, R97, R111; log 69). -/
def runHolds (s : State) (n core part ia bank : Nat) (write : Bool) (readers : List Src) : Bool :=
  s.cmds.any (fun e =>
    decide (e.1 < n) && e.2.core == core && partOfCore s core == some part && (write || readers.any (fun t => e.2.readers.contains t)) &&
      (let (row, k) := e.2.toVisit s bank
       (List.range k).any (fun i =>
        rangeIa e.2.dom.ranges 0 (e.2.work.regionBase + (row + i) * rowBytes) == some (ia / rowBytes * rowBytes))))

/-! Starting (R149). -/

/-- The first command that addresses a bank. -/
def firstAt (s : State) (bank : Nat) : Option (Nat × Cmd) := s.cmds.find? (fun c => c.2.work.banks.contains bank)

/-- A write that the core issued before its `nb.run`, or a read of the strands that issued it, has not been performed at the bank: the first
visit follows it (R97, R157). -/
def startWaits (s : State) (id : Nat) (c : Cmd) (bank : Nat) : Bool :=
  s.net.any (fun e => decide (e.1 < id) && e.2.src.core == c.core && !e.2.over && e.2.state != .lost &&
    (e.2.kind.isWrite || (e.2.readers s).any (fun t => c.readers.contains t)) &&
    (match homePlace s e.2.part e.2.dom e.2.ia with
     | .at stack pa _ _ _ => bankOf stack pa == bank
     | _ => false))

/-- A run that waits at a free bank starts; in normal mode it is refused there (R403). -/
def startRun (s : State) (bank : Nat) : State :=
  match firstAt s bank with
  | none => s
  | some (id, c) =>
    match c.work with
    | .nbRun w run n e rc ps b =>
      match w.find? (fun p => p.1 == bank) with
      | none => s
      | some (_, row) =>
        let w' := w.filter (fun p => p.1 != bank)
        if startWaits s id c bank then s
        else if inCompute s (bankStack bank) (bankPch bank) then
          let s := { s with cmds := setAt s.cmds id { c with work := .nbRun w' (run ++ [bank]) n e rc ps b } }
          setNbu s bank { nbuAt s bank with
            upc := e, k := [], e := ps, masks := [], cond := 0, row := row, left := n, poison := [], cmd := some id, openRow := none,
            written := [], visit := none, pathFree := 0, lastRead := none, suspended := false, boundary := some 0, lastServed := none }
        else
          let c := { c with err := true, work := .nbRun w' run n e rc ps b }
          creditRun { s with cmds := setAt s.cmds id c } c
    | _ => s

/-- What a unit does between microinstructions: a waiting run starts, or the next row opens. A unit that a switch of mode stops, or that
has served requests at this boundary, does not open its row by itself (R152, R153). -/
def nbuAdvance (s : State) (bank : Nat) : State :=
  let x := nbuAt s bank
  match runView s x with
  | none => startRun s bank
  | some r =>
    if x.openRow.isSome || x.suspended || x.boundary != some 0 || stopPending s (bankStack bank) (bankPch bank) ||
        !unitResumes s bank 0 then s
    else openRow s bank x r

/-- A unit that would execute a microinstruction now: it runs, its row is open and its activation over, and its pseudo-channel computes. -/
def nbuRuns (s : State) (bank : Nat) : Bool :=
  let x := nbuAt s bank
  (runView s x).isSome && x.openRow.isSome && !x.suspended && inCompute s (bankStack bank) (bankPch bank) && decide (x.bankFree ≤ s.dt)

/-! Executing microinstructions (R318). -/

/-- A near-bank unit at a microinstruction. -/
structure NbuView where
  bank : Nat
  x    : Nbu
  r    : RunView
deriving DecidableEq, Repr

/-- The lanes that the top of the mask stack enables. -/
def Nbu.top (x : Nbu) : BitVec 8 := x.masks.headD 0xFF
def Nbu.parent (x : Nbu) : BitVec 8 := x.masks.getD 1 0xFF
def Nbu.lanes (x : Nbu) : List Nat := (List.range 8).filter (fun j => x.top.getLsbD j)

/-- A register by its code (R226): k0 to k7, n0 to n3, and e0 to e3 broadcast. -/
def Nbu.reg (x : Nbu) (c j : Nat) : Word := if c < 12 then laneOf (getAt [] x.k c) j else laneOf x.e (c - 12)

/-- The enabled lanes of a register replaced. -/
def Nbu.setReg (x : Nbu) (c : Nat) (f : Nat → Word) : Nbu :=
  { x with k := setAt x.k c ((List.range 8).map (fun j => if x.top.getLsbD j then f j else x.reg c j)) }

/-- One microinstruction: whether it uses the column path, whether it closes the visit, and the registers it reads. It waits for the tick,
for the column path and for an `nrd`; one that breaks the visit's bound stops the unit (R144, R318). -/
def nbuOp (column closing : Bool) (reads : List Nat) (f : NbuView → State → State) (s : State) : Out :=
  match s.cur with
  | .nbu bank =>
    let x := nbuAt s bank
    match runView s x with
    | none => .next s
    | some r =>
      if x.suspended || !inCompute s (bankStack bank) (bankPch bank) || x.lastTick == some s.dt ||
          (match x.lastRead with | some (c, t) => reads.contains c && decide (s.dt < t) | none => false) ||
          (column && decide (s.dt < x.pathFree)) then .next s
      else if (match x.visit with
          | some t0 => if closing then decide (t0 + 64 < s.dt) else decide (t0 + 64 ≤ s.dt + (if column then 1 else 0))
          | none => false) then .next (nbuStop s bank x r)
      else .next (f ⟨bank, { x with lastTick := some s.dt }, r⟩ s)
  | _ => .fault .wrongAgent

/-- The unit after a microinstruction that goes on to the next word; µPC wraps (R318). -/
def NbuView.next (v : NbuView) (x : Nbu) (s : State) : State := setNbu s v.bank { x with upc := (v.x.upc + 1) % 64 }

/-- An operation of each enabled lane. -/
def nbuLane (reads : List Nat) (d : Nat) (f : Nbu → Nat → Word) : State → Out :=
  nbuOp false false reads (fun v s => v.next (v.x.setReg d (f v.x)) s)

/-- `NBU_IALU` (R319). -/
def execNbuIalu (op : NbuIalu) (d a b : Fin 16) (s : State) : Out :=
  nbuLane [a, b] d (fun x j =>
    let u := x.reg a j
    let w := x.reg b j
    match op with
    | .iadd => u + w
    | .isub => u - w
    | .imin => Alu.minS u w
    | .imax => Alu.maxS u w) s

/-- `NBU_LOGIC` (R319). -/
def execNbuLogic (op : NbuLogic) (d a b : Fin 16) (s : State) : Out :=
  nbuLane [a, b] d (fun x j =>
    let u := x.reg a j
    let w := x.reg b j
    match op with
    | .and => u &&& w
    | .or => u ||| w
    | .xor => u ^^^ w
    | .andn => u &&& ~~~w
    | .shl => Alu.shl u w
    | .shr => Alu.shr u w
    | .sar => Alu.sar u w
    | .rot => Alu.rot u w) s

/-- `NBU_FALU` (R319): RNE, no flag (R143). -/
def execNbuFalu (op : NbuFalu) (d a b : Fin 16) (s : State) : Out :=
  nbuLane [a, b] d (fun x j =>
    let u := x.reg a j
    let w := x.reg b j
    match op with
    | .fadd => (faddW .rne u w).1
    | .fsub => (fsubW .rne u w).1
    | .fmul => (fmulW .rne u w).1
    | .fmin => (fminmaxW false u w).1
    | .fmax => (fminmaxW true u w).1) s

/-- `NBU_FFMA` (R319). -/
def execNbuFfma (d a b c : Fin 16) (s : State) : Out :=
  nbuLane [a, b, c] d (fun x j => (ffmaW .rne (x.reg a j) (x.reg b j) (x.reg c j)).1) s

/-- `NBU_MOVI` (R319): `movi` and `movf`. -/
def execNbuMovi (float : Bool) (d : Fin 16) (i : Fin 1048576) (s : State) : Out :=
  nbuLane [] d (fun _ _ => if float then BitVec.ofNat 32 (i.val * 2 ^ 12) else Alu.imm20 i) s

/-- `NBU_FCMP` (R319): the lane condition of each enabled lane. -/
def execNbuFcmp (op : NbuFcmp) (k : Fin 8) (a b : Fin 16) (s : State) : Out :=
  nbuOp false false [a, b] (fun v s =>
    let x := v.x
    let test := fun (j : Nat) =>
      let u := x.reg a j
      let w := x.reg b j
      match op with
      | .eq => (fpEq u w).1
      | .ne => (fpNe u w).1
      | .lt => (fpLt u w).1
      | .le => (fpLe u w).1
      | .gt => (fpGt u w).1
      | .ge => (fpGe u w).1
      | .un => (fpUn u w).1
    let cond := (List.range 8).foldl (fun c j =>
      if (if x.top.getLsbD j then Alu.combine k (x.cond.getLsbD j) (test j) else x.cond.getLsbD j) then c ||| BitVec.twoPow 8 j else c) 0
    v.next { x with cond := cond } s) s

/-! Rows and columns (R320 to R322). -/

/-- The column that an access addresses (R321). -/
def columnOf (x : Nbu) (a c : Nat) (ix : Bool) : Nat := (c + (if ix then (x.reg a 0).toNat % 32 else 0)) % 32

/-- A column access begins or continues the visit and takes the column path for 2 ticks. -/
def Nbu.access (x : Nbu) (dt : Nat) : Nbu :=
  { x with visit := some (x.visit.getD dt), boundary := none, lastServed := none, pathFree := dt + 2 }

/-- `NRD` (R321): a poisoned column word ends the run (R402). -/
def execNrd (d a : Fin 16) (c : Fin 32) (ix : Bool) (s : State) : Out :=
  nbuOp true false (if ix then [a] else []) (fun v s =>
    match v.x.openRow with
    | none => nbuStop s v.bank v.x v.r
    | some pa =>
      let x := v.x.access s.dt
      let col := columnOf x a c ix
      let key := physKey (bankStack v.bank) (pa + bankOffset v.bank + 32 * col)
      let whole := (List.range 8).all (fun j => (lookupAt x.written (col * 8 + j)).isSome)
      if poisonedAt s key 32 && !whole then
        let ia := v.r.ia x.row + bankOffset v.bank + 32 * col
        nbuStop (logAccess s v.r.part ia v.r.cmd.dom.id v.r.cmd.core 63 3) v.bank { x with poison := putAt false x.poison d true } v.r
      else
        let word := fun (j : Nat) => (lookupAt x.written (col * 8 + j)).getD (BitVec.ofNat 32 (readLE s.mem (key + 4 * j) 4))
        v.next { x.setReg d word with lastRead := some (d.val, s.dt + 2) } s) s

/-- `NWR` (R321): the open row changes at once, memory when the row closes. -/
def execNwr (d a : Fin 16) (c : Fin 32) (ix : Bool) (s : State) : Out :=
  nbuOp true false (d.val :: (if ix then [a.val] else [])) (fun v s =>
    if v.x.openRow.isNone then nbuStop s v.bank v.x v.r
    else
      let x := v.x.access s.dt
      let col := columnOf x a c ix
      v.next { x with written := x.lanes.foldl (fun m j => setAt m (col * 8 + j) (x.reg d j)) x.written } s) s

/-- `NNEXT` (R322). -/
def execNnext (a : Fin 64) (h : Bool) (s : State) : Out :=
  nbuOp false true [] (fun v s =>
    let (s, x) := closeRow s v.bank v.x v.r
    if h && x.cond.getLsbD 0 then setNbu s v.bank { x with upc := a.val }
    else
      let x := { x with row := x.row + 1, left := x.left - 1 }
      if x.left = 0 then endRun s v.bank x v.r false
      else setNbu s v.bank { x with upc := a.val }) s

/-- `NEND` (R324). -/
def execNend (s : State) : Out :=
  nbuOp false true [] (fun v s =>
    let (s, x) := closeRow s v.bank v.x v.r
    endRun s v.bank x v.r false) s

/-! The mask stack and sums (R323, R324). -/

/-- `NIF` (R323): a fifth push stops the unit (R326). -/
def execNif (s : State) : Out :=
  nbuOp false false [] (fun v s =>
    if v.x.masks.length ≥ 4 then nbuStop s v.bank v.x v.r
    else v.next { v.x with masks := (v.x.top &&& v.x.cond) :: v.x.masks } s) s

/-- `NELSE` (R323). -/
def execNelse (s : State) : Out :=
  nbuOp false false [] (fun v s =>
    match v.x.masks with
    | [] => nbuStop s v.bank v.x v.r
    | t :: rest => v.next { v.x with masks := (v.x.parent &&& ~~~t) :: rest } s) s

/-- `NENDIF` (R323). -/
def execNendif (s : State) : Out :=
  nbuOp false false [] (fun v s =>
    match v.x.masks with
    | [] => nbuStop s v.bank v.x v.r
    | _ :: rest => v.next { v.x with masks := rest } s) s

/-- A fixed tree over 2^n leaves, wrapping for integers; a NaN at its root is the canonical one, a lone leaf's too (R69, R150, R324). -/
def laneTree (int : Bool) (n : Nat) (leaves : List (Option Word)) : Word :=
  let v := (treeRoot (fun p q => if int then p + q else addf32 p q) n leaves).getD 0
  if !int && (f32 v).isNan then 0x7FC00000 else v

/-- `NSUM` (R324): a fixed tree over the enabled lanes. -/
def execNsum (d a : Fin 16) (t : Bool) (s : State) : Out :=
  nbuOp false false [a] (fun v s =>
    let x := v.x
    let leaves := (List.range 8).map (fun j => if x.top.getLsbD j then some (x.reg a j) else none)
    let sum := laneTree t 3 leaves
    v.next (x.setReg d (fun _ => sum)) s) s

/-! Completing the near-bank commands (R146, R148, R150, R152). -/

/-- A command may complete now: it has been carried out at every bank it addresses, and for a switch to normal mode every run of the
pseudo-channel stands at a row boundary. -/
def nbCanComplete (s : State) (id : Nat) (w : CmdWork) : Bool :=
  match w with
  | .nbLoad bs _ => bs.isEmpty
  | .nbRun waiting running _ _ _ _ _ => waiting.isEmpty && running.isEmpty
  | .nbGet bs _ _ _ => bs.isEmpty
  | .nbMode bs k p compute =>
    modeReady s id bs k p compute &&
    (compute || (List.range 32).all (fun b =>
      let x := nbuAt s (bankNo k p b)
      (runView s x).isNone || x.suspended || x.boundary.isSome))
  | _ => true

/-- Lane 0 of a bank's accumulators, each with whether it is poisoned (R325). -/
def nbValues (s : State) (bank : Nat) : List (Word × Bool) :=
  (List.range 4).map (fun i => ((nbuAt s bank).reg (8 + i) 0, getAt false (nbuAt s bank).poison (8 + i)))

/-- Words for the store of a bank's unit (R148). -/
def loadStore (s : State) (bank : Nat) (ws : List Word) : State :=
  let x := nbuAt s bank
  setNbu s bank { x with prog := (ws.zip (List.range ws.length)).foldl (fun m e => putAt 0 m e.2 e.1) x.prog }

/-- `nb.ld` and `nb.get` are carried out at the banks where their turn has come, at each of them by itself (R151). -/
def nbProceed (s : State) (id : Nat) (w : CmdWork) : State × CmdWork :=
  match w with
  | .nbLoad bs ws =>
    let now := bs.filter (fun b => !earlierAt s id b)
    (now.foldl (fun s b => loadStore s b ws) s, .nbLoad (bs.filter (fun b => !now.contains b)) ws)
  | .nbGet bs got sum off =>
    let now := bs.filter (fun b => !earlierAt s id b)
    (s, .nbGet (bs.filter (fun b => !now.contains b)) (got ++ now.map (fun b => (b, nbValues s b))) sum off)
  | w => (s, w)

/-- The words that `nb.get` writes: place, word and poison. -/
def nbGetWords (got : List (Nat × List (Word × Bool))) (sum : Option Bool) (offset : Nat) : List (Nat × Word × Bool) :=
  match sum with
  | none => got.flatMap (fun b => (List.range 4).map (fun i => (offset + 16 * bankLane b.1 + 4 * i, b.2.getD i (0, false))))
  | some int =>
    (List.range 4).map (fun i =>
      let leaves := (List.range 32).map (fun l => (got.find? (fun b => bankLane b.1 == l)).map (fun b => (b.2.getD i (0, false)).1))
      (offset + 4 * i, laneTree int 5 leaves, got.any (fun b => (b.2.getD i (0, false)).2)))

/-- A unit suspends at its row boundary, its bank precharged (R152). -/
def suspendRun (s : State) (bank : Nat) : State :=
  let x := nbuAt s bank
  match runView s x with
  | some _ => setNbu s bank { x with suspended := true, openRow := none }
  | none => s

/-- A suspended unit resumes from its kept state (R152). -/
def resumeRun (s : State) (bank : Nat) : State :=
  let x := nbuAt s bank
  if x.suspended then setNbu s bank { x with suspended := false, boundary := some 0, lastServed := none } else s

/-- The pseudo-channel's mode changes. -/
def switchMode (s : State) (stack pch : Nat) (compute : Bool) : State :=
  let s := (List.range 32).foldl (fun s b => if compute then resumeRun s (bankNo stack pch b) else suspendRun s (bankNo stack pch b)) s
  { s with computeMode := putAt false s.computeMode (stack * 64 + pch) compute }

/-- The effect of a near-bank command when it completes; `nb.get` writes its words into a block's scratchpad. -/
def nbComplete (s : State) (block : Nat) (w : CmdWork) : State :=
  match w with
  | .nbGet _ got sum off =>
    let words := nbGetWords got sum off
    modifyBlock s block (fun b =>
      (words.foldl (fun (b : Block) w => b.writeScratch w.1 (toBytes 4 w.2.1.toNat)) b).poisonWords
        (words.filterMap (fun w => if w.2.2 then some (w.1 / 4) else none)))
  | .nbMode _ k p compute => switchMode s k p compute
  | _ => s

end Sys2Proof.Machine
end

