-- ==== Sys2Proof/Machine/Network.lean ====
section
/-! DEFINITION. Requests beyond the core: performing them at home (R92 to R95, R102, R113), replicas and leases (R83, R86, R97), near-memory
reductions (R158, R159), answers landing (R56, R94, R384), and lost or overdue requests (R389, R395). -/

namespace Sys2Proof.Machine

/-- An event, which no instruction stream contains. One whose conditions do not hold leaves the state as it is (log 4). -/
def eventOp (f : State → State) (s : State) : Out :=
  match s.cur with
  | .outside => .next (f s)
  | _ => .fault .wrongAgent

/-! The way of a request (R84, R395). -/

/-- The die of a request's home stack. -/
def Req.stackDie (r : Req) (s : State) : Nat :=
  match homeStack (partAt s r.part) r.ia with
  | some (k, _) => dieOfStack k
  | none => homeDie s r.part r.ia

/-- The die of its home slice; the look-up of a page goes straight to the stack. -/
def Req.homeDie (r : Req) (s : State) : Nat := if r.size = 0 then r.stackDie s else Sys2Proof.Machine.homeDie s r.part r.ia

/-- The compute die that it comes from; a request of the IOD crosses no link on its way to home (log 40). -/
def Req.coreDie (r : Req) (s : State) : Nat := if r.src.core < Config.coreCount then dieOfCore r.src.core else r.homeDie s

/-- A request that leaves its die, on its way to home or beyond it. -/
def Req.crosses (r : Req) (s : State) : Bool := r.homeDie s != r.coreDie s || r.stackDie s != r.homeDie s

/-- It goes on from its home to the stack: home does not hold its line, or the stack is to carry it out. -/
def Req.goesOn (r : Req) (s : State) : Bool := r.kind.nearMemory || (l2Hit s r.part r.dom r.ia).isNone

/-- No response has come within 65,536 ticks of the tick in which the core sent it (R395; log 72). -/
def Req.overdue (r : Req) (s : State) : Bool := r.crosses s && decide (r.sent + Config.replyLimit ≤ s.dt)

/-- An answer arrives: no closed end is in its way, and it is not overdue. What a time-out has put in its place arrives always. -/
def Reply.lands (r : Reply) (s : State) : Bool :=
  match r.req with
  | some q => !q.overdue s && !linkClosed s (q.coreDie s) (q.homeDie s)
  | none => true

/-! Answers. -/

/-- A group wherever it is: resident at a core and slot, or saved with a block. -/
inductive GroupPlace where
  | resident (core slot : Nat)
  | saved (block : Nat)
deriving DecidableEq, Repr

def findGroup (s : State) (uid : Nat) : Option GroupPlace :=
  match s.groups.find? (fun e => e.2.uid == uid) with
  | some e => some (.resident (e.1 / 64) (e.1 % 64))
  | none => (s.saved.find? (fun e => e.2.groups.any (fun g => g.uid == uid))).map (fun e => .saved e.1)

/-- A change to a group wherever it is; one that is saved changes in its frame too (R199). -/
def changeGroup (s : State) (uid : Nat) (f : Group → Group) : State :=
  match findGroup s uid with
  | some (.resident core slot) => modifyGroup s core slot f
  | some (.saved b) =>
    recordGroups { s with saved := modifyAt s.saved b (fun x =>
        { x with groups := x.groups.map (fun g => if g.uid = uid then f g else g) }) } b
  | none => s

/-- A change to a sequencer context wherever it is. -/
def changeSeq (s : State) (block : Nat) (f : SeqCtx → SeqCtx) : State :=
  { s with
    seqs := s.seqs.map (fun e => if e.2.block = block then (e.1, f e.2) else e)
    saved := s.saved.map (fun e => if e.1 = block then (e.1, { e.2 with seq := e.2.seq.map f }) else e) }

/-- Words land in lanes; a register that a rewind has made dead takes none (R199). -/
def Group.landWrites (g : Group) (ws : List (Nat × Nat × Word)) (poisoned : Bool) : Group :=
  ws.foldl (fun g w => if (g.vreg w.1).dead then g else g.landV w.1 w.2.1 w.2.2 poisoned) g

/-- Flags that land with a result (R50). -/
def Group.landFlags (g : Group) (fl : Nat) : Group :=
  if 32 ≤ fl ∧ fl < 64 then { g with fpf := g.fpf ||| BitVec.ofNat 32 (fl % 32) } else g

/-- All elements of a gather have landed: its destinations are written, poisoned where an element they need met an error (R122, R384). -/
def Group.landGather (g : Group) (x : Gather) : Group :=
  x.outs.foldl (fun g o =>
    match o.result x.fmt x.exp (fun k => (lookupAt x.landed k).join) with
    | some w => g.landWrites [(o.reg, x.lane, w)] false
    | none => g.landWrites [(o.reg, x.lane, 0)] true) g

/-- An element of a gather lands; none for an error response. -/
def landCorner (s : State) (id idx : Nat) (v : Option Nat) : State :=
  match lookupAt s.gathers id with
  | none => s
  | some x =>
    let x := { x with landed := setAt x.landed idx v }
    if x.landed.length < x.wanted then { s with gathers := setAt s.gathers id x }
    else changeGroup { s with gathers := eraseAt s.gathers id } x.src.uid (fun g => g.landGather x)

/-- What an answer does at its group's registers; `bad` for an error response (R384). -/
def landKind (s : State) (uid : Nat) (k : ReplyKind) (bad : Bool) : State :=
  match k with
  | .lanes ws fl => changeGroup s uid (fun g => (g.landWrites ws bad).landFlags fl)
  | .uniform r w => changeGroup s uid (fun g => g.landS r w bad)
  | .corner id idx v => landCorner s id idx (if bad then none else some v)
  | .ack => s

/-- The completion time that an answer carries: it raises the group's RH (R94), and the launch's record and the node's successors wait
for it (R109). -/
def landTime (s : State) (uid launch : Nat) (t : Option Nat) : State :=
  match t with
  | none => s
  | some t => raiseRun { changeGroup s uid (fun g => { g with rh := max g.rh t }) with
      launches := modifyAt s.launches launch (fun x => { x with maxT := max x.maxT t }) } uid t

/-- The error of a write or an atomic: the group's pending store error keeps the first VA (R385), a sequencer remembers it (R401). -/
def landError (s : State) (r : Reply) (va : Nat) : State :=
  match r.time, r.src with
  | none, _ => s
  | some _, .group _ _ uid _ => changeGroup s uid (fun g => { g with storeErr := some (g.storeErr.getD va) })
  | some _, .seq _ _ block => changeSeq s block (fun x => { x with writeErr := true })

/-- After an answer: draining granules, barriers that waited for writes, and a call that unwinds. -/
def afterLanding (s : State) (src : Src) : State :=
  let s := settle s src.core src.uid
  match findGroup s src.uid with
  | some (.resident core slot) => tryUnwind s core slot
  | _ => s

/-- ONE ANSWER LANDS. -/
def land (s : State) (n : Nat) (r : Reply) : State :=
  let s := { s with replies := eraseAt s.replies n }
  let s := landKind s r.src.uid r.kind r.err.isSome
  let s := landTime s r.src.uid r.launch r.time
  let s := match r.err with
    | some va => landError s r va
    | none => s
  afterLanding s r.src

/-- An answer of the kind that `which` tells lands. -/
def landEvent (n : Nat) (which : Reply → Bool) : State → Out :=
  eventOp (fun s =>
    match lookupAt s.replies n with
    | some r => if which r && r.lands s then land s n r else s
    | none => s)

/-- `LOAD_REPLY` (R56): a result lands, and with an atomic's also its completion time. -/
def execLoadReply (n : Nat) (s : State) : Out := landEvent n (fun r => r.err.isNone && r.kind != .ack) s

/-- `WRITE_ACK` (R94). -/
def execWriteAck (n : Nat) (s : State) : Out := landEvent n (fun r => r.err.isNone && r.kind == .ack) s

/-- `ERROR_RESPONSE` (R384). -/
def execErrorResponse (n : Nat) (s : State) : Out := landEvent n (fun r => r.err.isSome) s

/-! Arithmetic at home (Tables 18.6, 18.7, 11.5). -/

/-- A sum in a 16-bit format, RNE, without flags. -/
def halfAdd (f : FpFormat) (a b : Nat) : Nat := (f.add .rne (f.decode a) (f.decode b)).1

/-- The new value of an atomic. -/
def AtomOp.result (op : AtomOp) (old x y : Word) : Word :=
  match op with
  | .add => old + x
  | .addf => addf32 old x
  | .min => Alu.minS old x
  | .max => Alu.maxS old x
  | .umin => Alu.minU old x
  | .umax => Alu.maxU old x
  | .and => old &&& x
  | .or => old ||| x
  | .xor => old ^^^ x
  | .xchg => x
  | .cas => if old = x then y else old
  | .addh2 bf =>
    let f := if bf then bf16 else fp16
    BitVec.ofNat 32 (halfAdd f (old.toNat % 2 ^ 16) (x.toNat % 2 ^ 16) + 2 ^ 16 * halfAdd f (old.toNat / 2 ^ 16) (x.toNat / 2 ^ 16))

/-- The new value of a reduction's location, of `RedOp.size` bytes. -/
def RedOp.result (op : RedOp) (old : Nat) (x : Dword) : Nat :=
  let a := BitVec.ofNat 32 old
  let b := x.truncate 32
  match op with
  | .add => (a + b).toNat
  | .addf => (addf32 a b).toNat
  | .min => (Alu.minS a b).toNat
  | .max => (Alu.maxS a b).toNat
  | .and => (a &&& b).toNat
  | .or => (a ||| b).toNat
  | .xor => (a ^^^ b).toNat
  | .addx => (BitVec.ofInt 64 (fx64Add (signed 64 old) x.toInt)).toNat

/-! The order of requests (R93, R96, R178). -/

/-- Two requests of one instruction: their lanes have no order (R268, R270). -/
def sameIssue (a b : Req) : Bool :=
  a.src.uid == b.src.uid && a.sent == b.sent &&
    (match a.src, b.src with
     | .group .., .group .. => true
     | _, _ => false)

def sameLine (a b : Req) : Bool := a.part == b.part && lineOf a.ia == lineOf b.ia

/-- An earlier request of the core to the line, other than of the same instruction. -/
def Req.follows (r e : Req) (n m : Nat) : Bool := decide (m < n) && sameLine e r && e.src.core == r.src.core && !sameIssue e r

/-- An earlier request of the core to the line is still on its way to home (R93; log 62). -/
def orderBlocks (s : State) (n : Nat) (r : Req) : Bool :=
  s.net.any (fun e => r.follows e.2 n e.1 &&
    (match e.2.state with
     | .inFlight => true
     | .rehash => true
     | _ => false))

/-- An earlier request of the core to the line is in the queue of a bank. -/
def ownQueued (s : State) (n : Nat) (r : Req) : Bool :=
  s.net.any (fun e => r.follows e.2 n e.1 && (match e.2.state with | .atBank .. => true | _ => false))

/-- The place in the order of parked accesses; a request that has not parked comes after them. -/
def Req.parkOrder (r : Req) (next : Nat) : Nat :=
  match r.state with
  | .parked _ o => o
  | _ => next

/-- An access parked earlier at the same page has still to be replayed (R178). -/
def parkBlocks (s : State) (r : Req) : Bool :=
  s.net.any (fun e =>
    match e.2.state with
    | .parked _ o =>
      decide (o < r.parkOrder s.nextId) && e.2.part == r.part && pageOf s e.2.part e.2.ia == pageOf s r.part r.ia
    | _ => false)

/-! Error responses. -/

/-- Nothing waits for an answer any more (R379, R395). -/
def Src.isOrphan (x : Src) : Bool := decide (2 ^ 80 ≤ x.uid)

/-- A request answered; `err` for an error response. The answer keeps the request's number, so that fences wait for it (R99). What an agent
asked for it finds at the request itself: `val` is what was read, or the completion time of a write. -/
def answer (s : State) (n : Nat) (r : Req) (k : ReplyKind) (val : Nat) (t : Option Nat) (err : Option Nat) : State :=
  if r.src.isOrphan then { s with net := eraseAt s.net n }
  else if r.kind.asked then { s with net := setAt s.net n { r with state := if err.isSome then .failed else .ready val } }
  else { s with net := eraseAt s.net n, replies := setAt s.replies n ⟨r.src, r.launch, k, t, err, some r⟩ }

/-- What an error response carries: the lanes or the element it poisons, or a failed write. -/
def ReqKind.failed (k : ReqKind) : ReplyKind :=
  match k with
  | .load regs lane ext _ => .lanes (loadWrites regs lane ext 0) 0
  | .atom _ _ _ reg lane => .lanes [(reg, lane, 0)] 0
  | .corner g i => .corner g i 0
  | _ => .ack

/-- Copies that show a store which is not performed are dropped. -/
def forgetStore (s : State) (n : Nat) : State :=
  { s with
    l1 := s.l1.filter (fun e => !e.2.own.contains n)
    seen := s.seen.map (fun e => (e.1, e.2.map (fun x => (x.1, { x.2 with own := x.2.own.filter (· != n) })))) }

/-- An error response to a request: that of a write, an atomic's too, is its acknowledgement, with no time to wait for (R384). -/
def errorAnswer (s : State) (n : Nat) (r : Req) : State :=
  answer s n r r.kind.failed 0 (if r.kind.isWrite then some 0 else none) (some r.va)

/-- A request fails at the memory side: the error is logged, and an error response goes back (R383, R384). -/
def failRequest (s : State) (n : Nat) (r : Req) (slot kind : Nat) : State :=
  errorAnswer (forgetStore (logAccess s r.part r.ia r.dom r.src.core slot kind) n) n r

/-! Copies (R83, R86, R97). -/

/-- The bits of stores of a core, still in flight to a line, over the line's data, with their numbers. -/
def overlay (s : State) (core part ia data : Nat) : Nat × List Nat :=
  s.net.foldl (fun acc e =>
    match e.2.kind with
    | .store v m =>
      if e.2.src.core == core && e.2.part == part && lineOf e.2.ia == lineOf ia then
        let k := 256 ^ (e.2.ia % 128)
        (acc.1 - (acc.1 &&& (m * k)) + (v &&& m) * k, acc.2 ++ [e.1])
      else acc
    | _ => acc) (data, [])

/-- A write of the core to the line is on its way whose result its L1 cannot show. -/
def fillBlocked (s : State) (core part ia : Nat) : Bool :=
  s.net.any (fun e => e.2.src.core == core && e.2.part == part && lineOf e.2.ia == lineOf ia &&
    (match e.2.kind with
     | .atom .. => true
     | .red .. => true
     | .poison => true
     | _ => false))

/-- The whole line's data at home, unless a part of it is poisoned. -/
def lineData (s : State) (stack pa : Nat) : Option Nat :=
  let key := physKey stack (pa / 128 * 128)
  if poisonedAt s key 128 then none else some (readLE s.mem key 128)

/-- The tick at which a lease granted now expires (R83). -/
def leaseEnd (s : State) (part ia cls : Nat) : Nat :=
  dtSlice s (homeSlice (partAt s part) ia) + 2 ^ classLease (classAt s cls)

/-- Home grants a lease on a line (R94). -/
def grantLease (s : State) (part ia t : Nat) : State :=
  { s with leases := putAt 0 s.leases (lineKey part ia) (max (getAt 0 s.leases (lineKey part ia)) t) }

/-- No lease is granted of an NA class, or by a slice that is unsynchronised (R87, R392). -/
def leasable (s : State) (part ia cls : Nat) : Bool :=
  !isNa s cls && !isUnsync s (.slice (homeSlice (partAt s part) ia))

/-- The sets of an L1 (R79). -/
def l1Sets : Nat := 512

/-- The copies of a core's L1 in the set of a line, with their keys. -/
def l1Set (s : State) (core line : Nat) : Assoc Copy :=
  s.l1.filter (fun e => e.1 / 2 ^ 45 == core && e.1 % 2 ^ 45 % l1Sets == line % l1Sets)

/-- A copy enters a core's L1: the ways above the carve-out hold one line of each set each, and the oldest copy makes room (R79; log 57). -/
def placeL1 (s : State) (core ia : Nat) (x : Copy) : State :=
  let key := l1Key core ia
  let set := (l1Set s core (lineOf ia)).filter (fun e => e.1 != key)
  let ways := (List.range 8).filter (fun w => decide ((coreAt s core).carve ≤ w))
  match chooseWay ways (set.map (fun e => e.2.way)) (set.map (fun e => (e.2.way, s.nextId - e.2.id))) with
  | none => s
  | some w =>
    let gone := (set.filter (fun e => e.2.way == w)).map Prod.fst
    { s with l1 := setAt (s.l1.filter (fun e => !gone.contains e.1)) key { x with way := w } }

/-- A read at home fills the core's L1 (R83, log 9). -/
def fillL1 (s : State) (r : Req) (stack pa cls owner : Nat) : State :=
  if !leasable s r.part r.ia cls || isUnsync s (.core r.src.core) || fillBlocked s r.src.core r.part r.ia then s
  else
    match lineData s stack pa with
    | none => s
    | some d =>
      let (d, own) := overlay s r.src.core r.part r.ia d
      let v := versionAt s r.part r.ia
      let t := leaseEnd s r.part r.ia cls
      let (id, s) := takeId s
      grantLease (placeL1 s r.src.core r.ia ⟨d, t, owner, cls, 0, r.launch, id, v, v, own⟩) r.part r.ia t

/-- A read at home makes a replica in the sector of the requester, where the class may take a way of the slice (R86, R87). -/
def fillReplica (s : State) (r : Req) (stack pa cls owner : Nat) : State :=
  let slice := replicaSlice r.src.core r.ia
  match lineData s stack pa, takeWay s r.part slice (lineOf r.ia) cls with
  | some d, some (s, w) =>
    let v := versionAt s r.part r.ia
    let t := leaseEnd s r.part r.ia cls
    let (id, s) := takeId s
    grantLease { s with replicas := setAt s.replicas (replicaKey slice r.ia) ⟨d, t, owner, cls, w, r.launch, id, v, v, []⟩ } r.part r.ia t
  | _, _ => s

/-- The answer to a read of some data. -/
def ReqKind.answer (k : ReqKind) (v : Nat) : ReplyKind :=
  match k with
  | .load regs lane ext _ => .lanes (loadWrites regs lane ext v) 0
  | .corner g i => .corner g i v
  | _ => .ack

/-- A read that a copy may serve: a load or a corner. -/
def ReqKind.plainRead (k : ReqKind) : Bool :=
  match k with
  | .load .. => true
  | .corner .. => true
  | _ => false

def ReqKind.readOnly (k : ReqKind) : Bool :=
  match k with
  | .load _ _ _ ro => ro
  | _ => false

/-- A read of a class may use a replica (R86); the loads of an unsynchronised core go to home (R392). -/
def replicable (s : State) (r : Req) (cls : Nat) : Bool :=
  r.kind.plainRead && (r.kind.readOnly || classRepl (classAt s cls)) && !isNa s cls &&
    !isUnsync s (.slice (replicaSlice r.src.core r.ia)) && !isUnsync s (.core r.src.core)

/-- The replica that serves a read (R86, R97, R175); no write of its own core holds it up (R96). -/
def replicaServes (s : State) (n : Nat) (r : Req) : Option Copy :=
  let slice := replicaSlice r.src.core r.ia
  match lookupAt s.replicas (replicaKey slice r.ia) with
  | none => none
  | some x =>
    if replicable s r x.cls && dtSlice s slice < x.expiry && (r.dom == x.owner || r.dom == 0) && !strandReading s r.src r.ia r.size n &&
        (seenAt s r.src r.ia r.size).all (fun e => e.own.isEmpty && decide (max e.ver e.top ≤ x.ver)) then some x
    else none

/-- A read served by a replica. It fills no L1 (log 63). -/
def serveReplica (s : State) (n : Nat) (r : Req) (x : Copy) : State :=
  answer (noteSeen s r.src r.ia r.size (Seen.ofHome x.ver)) n r (r.kind.answer (x.bytes r.ia r.size)) 0 none none

/-! Performing a request at home. -/

/-- A write acknowledged with its completion time. -/
def ackWrite (n : Nat) (r : Req) (k : ReplyKind) (x : State × Nat) : State := answer x.1 n r k x.2 (some x.2) none

/-- Strands have read what an access of theirs reads at home. -/
def Req.noteHome (r : Req) (s : State) : State :=
  (r.readers s).foldl (fun s t => noteSeen s t r.ia r.size (Seen.ofHome (versionAt s r.part r.ia))) s

/-- The element after a row update of `pkb` (R168). -/
def rowResult (fmt mode : Nat) (term : Word) (old : Nat) : Nat :=
  let f := if fmt = 0x02 then fp32 else bf16
  (f.add .rne (f.decode old) (if mode = 0 then (f32 term).neg else f32 term)).1

/-- The issuing core's copy and its sector's replica of a line that an engine writes are dropped, so that reads after the flag has
fallen see the write (R111). -/
def dropCopies (s : State) (core ia : Nat) : State :=
  { dropL1 s core ia with replicas := eraseAt s.replicas (replicaKey (replicaSlice core ia) ia) }

/-- A request performed at its home, whose page it has found (R94, R102, R113). -/
def performRequest (s : State) (n : Nat) (r : Req) (stack pa cls owner : Nat) : State :=
  let key := physKey stack pa
  let read := !poisonedAt s key r.size
  let old := readLE s.mem key r.size
  let put := fun (v m : Nat) => performWrite s (r.src.uid, r.sent) r.part r.ia stack pa cls owner r.size v m n
  match r.kind with
  | .store v m => ackWrite n r .ack (put v m)
  | .poison =>
    ackWrite n r .ack (fillL2 (bumpVersion (poisonPhys s key r.size) r.part r.ia n) r.part r.ia cls owner true,
        completionTime s r.part r.ia cls)
  | .atom op x y reg lane =>
    if read then
      let s' := put (op.result (BitVec.ofNat 32 old) x y).toNat (ones 4)
      ackWrite n r (.lanes [(reg, lane, BitVec.ofNat 32 old)] 0) (r.noteHome s'.1, s'.2)
    else failRequest s n r r.src.slot 3
  | .red op x _ => if read then ackWrite n r .ack (put (op.result old x) (ones r.size)) else failRequest s n r r.src.slot 3
  | .put v m =>
    let x := performWrite s (r.src.uid, 0) r.part r.ia stack pa cls owner r.size v m n
    ackWrite n r .ack (dropCopies x.1 r.src.core r.ia, x.2)
  | .rowAdd fmt mode term =>
    if read then
      ackWrite n r .ack (performAtBank s (r.src.uid, 0) r.part r.ia stack pa r.size (rowResult fmt mode term old) (ones r.size) n, s.dt + 4)
    else failRequest s n r 63 3
  | .pull code =>
    if read then
      let s := r.noteHome s
      answer (match r.src, code with
        | .seq _ _ _, false => holdLine s r.part r.ia cls owner
        | _, _ => s) n r .ack old none none
    else failRequest s n r r.src.slot 3
  | .writeBack => s
  | k =>
    if read then answer (fillL1 (r.noteHome s) r stack pa cls owner) n r (k.answer old) 0 none none
    else failRequest s n r r.src.slot 3

/-- The answer of a request does not arrive: a closed end has dropped it (R171, R395). -/
def loseAnswer (s : State) (n : Nat) (r : Req) (at' : Nat × Nat) : State :=
  let s := dropFlit s at' r.ia r.dom r.src.core r.src.slot
  { s with net := setAt s.net n { r with state := .lost }, replies := eraseAt s.replies n }

/-- The answer of a request comes back, from its stack where it went there. A closed end on the way drops it: between the stack and home,
and on to the agent where that takes the answer at once. -/
def passBack (s : State) (n : Nat) (r : Req) (stack : Option Nat) : State :=
  let way := stack.toList.map (fun k => (r.homeDie s, dieOfStack k)) ++ (if r.kind.asked then [(r.coreDie s, r.homeDie s)] else [])
  match closedEnd s way with
  | some e => loseAnswer s n r e
  | none => s

/-- A request performed where it was found, with what it leaves in the caches (R87, R174). `replica` makes a replica of what a read finds;
`miss` says that the access reached the stack, whose answer to home a closed end may drop. -/
def serveHome (s : State) (n : Nat) (r : Req) (replica miss : Bool) (stack pa cls owner : Nat) : State :=
  let s := cacheAccess s r.part r.dom r.ia r.tclass cls owner false
  let s := if replica && replicable s r cls && leasable s r.part r.ia cls then fillReplica s r stack pa cls owner else s
  let s := performRequest s n r stack pa cls owner
  let s := if miss then bankServed s (bankOf stack pa) pa (serveKey r) else s
  passBack s n r (if miss then some stack else none)

/-- A request that may still reach its home or its bank's queue. -/
def Req.coming (r : Req) : Bool :=
  match r.state with
  | .inFlight => true
  | .parked _ _ => true
  | _ => false

/-- The line request of an instruction joins the queue of a bank whole (R88, R153). -/
def queueLine (s : State) (r : Req) (bank pa cls owner : Nat) : State :=
  let (o, s) := takeId s
  let line := pa / 128 * 128
  let join := fun (x : Req) =>
    if x.coming && serveKey x == serveKey r then { x with state := .atBank bank o (line + x.ia % 128) cls owner } else x
  interrupt { s with net := s.net.map (fun e => (e.1, join e.2)) } bank

/-- The other loads of an instruction to the line of one of them: its bank serves them with it, so that they see one state of the line
(R88, R347). -/
def loadsBeside (s : State) (n : Nat) (r : Req) : List (Nat × Req) :=
  s.net.filter (fun e => e.1 != n && e.2.coming && serveKey e.2 == serveKey r && e.2.dom == r.dom && e.2.kind.plainRead && r.kind.plainRead)

/-- A request that reaches a bank where nothing else waits is served at once. -/
def serveLine (s : State) (n : Nat) (r : Req) (replica : Bool) (stack pa cls owner : Nat) : State :=
  (loadsBeside s n r).foldl (fun s e => serveHome s e.1 e.2 false false stack (pa / 128 * 128 + e.2.ia % 128) cls owner)
    (serveHome s n r replica true stack pa cls owner)

/-- Work of the stack's base logic: near-memory reductions, and what it reads and updates for the PKL (R158, R165, R168). -/
def Req.forStack (r : Req) : Bool := r.kind.nearMemory || r.src.baseLogic

/-- Work passes on to a stack's base logic and joins its queue; of a near-memory reduction the home slice writes its copy of the line back
and drops it (R113, R159). -/
def forwardNm (s : State) (n : Nat) (r : Req) (bank pa : Nat) : State :=
  let (o, s) := takeId (if r.kind.nearMemory then dropL2 s r.part r.ia else s)
  interrupt { s with net := setAt s.net n { r with state := .atStack bank o pa } } bank

/-- What arriving at home does: nothing while an order, a link or a bank holds the request, an error response, parking, or its effect. -/
inductive Arrival where
  | waits
  | absent
  | next (s : State)
deriving DecidableEq, Repr

/-- A request at its home has found its page: it waits its turn, goes to the stack's base logic or to the queue of a bank, or is
performed. -/
def arriveAt (s : State) (n : Nat) (r : Req) (replica : Bool) (stack pa cls owner : Nat) : Arrival :=
  let miss := if r.kind.isWrite then writeAtStack s r.part r.dom r.ia cls else atStack s r.part r.dom r.ia cls
  let bank := bankOf stack pa
  if parkBlocks s r then .waits
  else if r.size = 0 then .next (passBack (answer s n r .ack 0 none none) n r none)
  else if (!miss && ownQueued s n r) || runHolds s n r.src.core r.part r.ia bank r.kind.isWrite (r.readers s) || readHolds s n r ||
      ((miss || r.forStack) && linkClosed s (dieOfStack stack) (r.homeDie s)) then .waits
  else if r.src.baseLogic && !isNa s cls then .next { s with net := setAt s.net n { r with state := .failed } }
  else if r.forStack then .next (forwardNm s n r bank pa)
  else if miss && !bankTakes s bank then .next (queueLine s r bank pa cls owner)
  else .next (if miss then serveLine s n r replica stack pa cls owner else serveHome s n r replica false stack pa cls owner)

/-- What a request finds at its page; the look-up of a page asks the memory side. -/
def Req.finds (r : Req) (s : State) : Place := if r.size = 0 then place s r.part r.dom r.ia else homePlace s r.part r.dom r.ia

/-- ONE REQUEST REACHES ITS HOME, or a replica on its way there. -/
def arrive (s : State) (n : Nat) (r : Req) (replica : Bool) : Arrival :=
  let rehash := Arrival.next { s with net := setAt s.net n { r with state := .rehash } }
  let stale := decide (r.src.core < Config.coreCount) && r.gen != (partAt s r.part).gen
  match (if replica then replicaServes s n r else none) with
  | some x => if stale then rehash else .next (serveReplica s n r x)
  | none =>
    if linkClosed s (r.homeDie s) (r.coreDie s) || orderBlocks s n r || reducing s r.part r.ia then .waits
    else if stale then rehash
    else if r.goesOn s && linkClosed s (r.stackDie s) (r.homeDie s) then .waits
    else
      match r.finds s with
      | .error k => .next (failRequest s n r r.src.slot k)
      | .absent => .absent
      | .park =>
        match r.state with
        | .parked _ _ => .waits
        | _ =>
          let (o, s) := takeId s
          .next { s with net := setAt s.net n { r with state := .parked s.dt o } }
      | .at stack pa cls owner _ => arriveAt s n r replica stack pa cls owner

/-- `HOME_REQUEST` (R94): `replica` says that a read takes the way over a replica, where R86 allows it. A request in the queue of a bank is
served there in its turn (R153). -/
def execHomeRequest (n : Nat) (replica : Bool) (s : State) : Out :=
  match s.cur with
  | .outside =>
    match lookupAt s.net n with
    | none => .next s
    | some r =>
      match r.state with
      | .atBank bank o pa cls owner =>
        .next (if !bankReady s bank (serveKey r) o then s
          else if r.kind = .writeBack then bankServed { s with net := eraseAt s.net n } bank pa (serveKey r)
          else serveHome s n r replica true (bankStack bank) pa cls owner)
      | _ =>
        if r.coming then
          match arrive s n r replica with
          | .waits => .next s
          | .absent => .fault .noSuchAddress
          | .next s' => .next s'
        else .next s
  | _ => .fault .wrongAgent

/-- `REHASH_RESPONSE` (R389): the response reaches the requester, which reloads its map and sends the request again. -/
def execRehashResponse (n : Nat) (s : State) : Out :=
  eventOp (fun s =>
    match lookupAt s.net n with
    | some r =>
      if r.state = .rehash ∧ !linkClosed s (r.coreDie s) (r.homeDie s) then
        let p := partAt s r.part
        { setCore s r.src.core ((coreAt s r.src.core).loadMap p) with net := setAt s.net n { r with gen := p.gen, state := .inFlight } }
      else s
    | none => s) s

/-! Near-memory reductions (R113, R158, R159). -/

/-- The place of a request in a stack's queue. -/
def Req.stackOrder (r : Req) (stack : Nat) : Option Nat :=
  match r.state with
  | .atStack bank o _ => if bankStack bank = stack then some o else none
  | _ => none

/-- The first work in a stack's queue. -/
def firstAtStack (s : State) (stack : Nat) : Option (Nat × Req) :=
  s.net.find? (fun e =>
    match e.2.stackOrder stack with
    | none => false
    | some o => s.net.all (fun f => match f.2.stackOrder stack with | some p => decide (o ≤ p) | none => true))

/-- The completion time of a reduction performed at its stack now (R113, R392). -/
def nmTime (s : State) (part ia : Nat) : Nat :=
  let slice := homeSlice (partAt s part) ia
  if isUnsync s (.slice slice) then dtSlice s slice + 2 ^ 16 + 4 else max (dtSlice s slice) (leaseAt s part ia) + 4

/-- The stack's base logic carries out a request: a reduction, or what the PKL has asked of it (R406 where the element is uncorrectable). -/
def stackWork (s : State) (n : Nat) (r : Req) (stack pa : Nat) : State :=
  let key := physKey stack pa
  match r.kind with
  | .red op x _ =>
    if poisonedAt s key r.size then failRequest s n r 63 3
    else ackWrite n r .ack (performAtBank s (r.src.uid, r.sent) r.part r.ia stack pa r.size
      (op.result (readLE s.mem key r.size) x) (ones r.size) n, nmTime s r.part r.ia)
  | _ => performRequest s n r stack pa 0 0

/-- `NM_REDUCTION` (R158, R159): the first work in the queue of a stack's base logic, as one indivisible step at the bank. A closed end on
the way of its answer drops it (R171). -/
def execNmReduction (stack : Nat) (s : State) : Out :=
  eventOp (fun s =>
    match firstAtStack s stack with
    | none => s
    | some (n, r) =>
      match r.state with
      | .atStack bank o pa =>
        if !bankReady s bank (serveKey r) o then s
        else passBack (bankServed (stackWork s n r stack pa) bank pa (serveKey r)) n r (some stack)
      | _ => s) s

/-! Lost and overdue requests (R395). -/

/-- The error response of KIND 5, in place of whatever would come; of an access that an agent asked for it stands at the request. -/
def timeOut (s : State) (n : Nat) (r : Req) : State :=
  let s := failRequest s n r r.src.slot 5
  { s with replies := modifyAt s.replies n (fun x => { x with req := none }) }

/-- `REQUEST_TIMEOUT` (R395): KIND 5 for a request that has waited 65,536 ticks for a response since it left its die. What the memory side
still makes of it, or has made, is discarded. -/
def execRequestTimeout (n : Nat) (s : State) : Out :=
  eventOp (fun s =>
    match lookupAt s.net n, (lookupAt s.replies n).bind Reply.req with
    | some r, _ =>
      if !r.overdue s || r.over || r.src.isOrphan then s
      else
        let s' := timeOut s n r
        match r.state with
        | .inFlight => s'
        | .rehash => s'
        | .lost => s'
        | _ =>
          let o := { r with src := r.src.orphan }
          if r.kind.asked then sendReq s' o else { s' with net := setAt s'.net n o }
    | none, some r => if r.overdue s then timeOut s n r else s
    | none, none => s) s

/-- `FIREWALL_DROP` (R395): what is on its way between a core, its home and its home stack and arrives at a closed end of a link is dropped,
counted in DROPS and logged as KIND 7: a request, or an answer. -/
def execFirewallDrop (n die peer : Nat) (s : State) : Out :=
  eventOp (fun s =>
    if !linkClosed s die peer then s
    else
      match lookupAt s.net n, (lookupAt s.replies n).bind Reply.req with
      | some r, _ =>
        let toHome := r.homeDie s == die && r.coreDie s == peer
        let toStack := r.stackDie s == die && r.homeDie s == peer && !linkClosed s (r.homeDie s) (r.coreDie s) && r.goesOn s
        let back := r.coreDie s == die && r.homeDie s == peer
        if (r.state = .inFlight ∧ (toHome || toStack)) ∨ (r.state = .rehash ∧ back) then loseAnswer (forgetStore s n) n r (die, peer) else s
      | none, some r => if r.coreDie s == die && r.homeDie s == peer then loseAnswer s n r (die, peer) else s
      | none, none => s) s

end Sys2Proof.Machine
end

