-- ==== Sys2Proof/Machine/Sync.lean ====
section
/-! DEFINITION. Events of groups: fences (R99, R385), barriers (R41, R42, R100, R101, R377), the handler slot (R202), and gate budgets (R397). -/

namespace Sys2Proof.Machine

/-- The strands of a gang of a running group, with the group; none where the group does not run. -/
def gangOf (s : State) (core slot gang : Nat) : Option (Group × List Nat) :=
  match groupAt s core slot with
  | none => none
  | some g =>
    let is := g.gangStrands gang
    if g.stop == .running && !seqFaulted s g && !is.isEmpty then some (g, is) else none

/-- What holds a gang: its strands are held alike. -/
def Group.gangHold (g : Group) (is : List Nat) : Option Hold := (g.strand (is.headD 0)).held

/-- `FENCE_COMPLETE` (R99, R385): the conditions hold; a pending store error is reported by `fence.d` and `fence.s` with its VA, and clears;
the fence will issue again. -/
def execFenceComplete (core slot gang : Nat) (s : State) : Out :=
  eventOp (fun s =>
    match gangOf s core slot gang with
    | none => s
    | some (g, is) =>
      match g.gangHold is with
      | some (.fence scope upTo) =>
        if !fenceHolds s core g scope upTo then s
        else
          match (if scope = 0 then none else g.storeErr) with
          | some va =>
            let low := is.headD 0
            let s := setGroup s core slot { g.onStrands is (fun t => { t with held := none }) with storeErr := none }
            takeTrap s core slot ⟨0x10, low, (g.strand low).pc, BitVec.ofNat 64 va⟩
          | none => setGroup s core slot ((g.onStrands is (fun t => { t.advance 4 with held := none })).repart is)
      | _ => s) s

/-- `BARRIER_ARRIVAL` (R100, R101): the group's arrival counts once the `fence.b` conditions hold over what it issued before, and at a
barrier of the sequencer once its global writes have returned their T. -/
def execBarrierArrival (core slot bar : Nat) (s : State) : Out :=
  eventOp (fun s =>
    match groupAt s core slot with
    | none => s
    | some g =>
      match g.block with
      | none => s
      | some bid =>
        match blockAt s bid with
        | none => s
        | some b =>
          let gb := getAt GroupBar.none g.bars bar
          if gb.arrived && fenceHolds s core g 0 gb.upTo && (!seqParticipates s b bar || !writesOut s g.uid gb.upTo) then
            let x := getAt Barrier.none b.bars bar
            let s := setBlock s bid { b with bars := putAt Barrier.none b.bars bar { x with groups := x.groups ||| BitVec.twoPow 32 g.gid } }
            let gb' : GroupBar := ⟨0, false, gb.upTo, some x.phase, 0⟩
            let s := setGroup s core slot { g with bars := putAt GroupBar.none g.bars bar gb' }
            completePhase s bid bar
          else s) s

/-- Since when a gang waits at a barrier, and whether its waiting instruction has arrived there. -/
def Hold.barrierWait : Hold → Option (Nat × Bool)
  | .barrier _ _ since _ arrives => some (since, arrives)
  | .arrival _ _ since => some (since, false)
  | _ => none

/-- `BARRIER_TIMEOUT` (R377): a gang that has waited for BARTO ticks raises 0x1B; its counted arrival stays counted, and the instruction
that made it will only wait, however often it times out. -/
def execBarrierTimeout (core slot gang : Nat) (s : State) : Out :=
  eventOp (fun s =>
    match gangOf s core slot gang with
    | none => s
    | some (g, is) =>
      match (g.gangHold is).bind Hold.barrierWait with
      | some (since, arrives) =>
        let barto := (partAt s ((partOfCore s core).getD 0)).barto
        if barto ≠ 0 ∧ since + barto ≤ s.dt then
          let low := is.headD 0
          let s := setGroup s core slot (g.onStrands is (fun t => { t with held := none, waitOnly := t.waitOnly || arrives }))
          takeTrap s core slot ⟨0x1B, low, (g.strand low).pc, 0⟩
        else s
      | _ => s) s

/-- `HANDLER_ENTRY` (R202): the first group that waits for the handler slot is served. -/
def execHandlerEntry (core : Nat) (s : State) : Out := eventOp (fun s => serveNext s core) s

/-- How many calls end when budgets run out: up to the outermost call whose budget is used up, counted from the innermost (R397). -/
def exhausted (calls : List CallFrame) : Nat :=
  (calls.zip (List.range calls.length)).foldl (fun n e => if e.1.budget ≠ 0 ∧ e.1.budget ≤ e.1.used then e.2 + 1 else n) 0

/-- `GATE_BUDGET_EXHAUSTED` (R397). -/
def execGateBudgetExhausted (core slot : Nat) (s : State) : Out :=
  eventOp (fun s =>
    match groupAt s core slot with
    | none => s
    | some g =>
      let n := exhausted g.calls
      match g.stop with
      | .running => if n = 0 then s else unwind s core slot n 0x00010001
      | .unwinding m _ => if n ≤ m then s else unwind s core slot n 0x00010001
      | _ => s) s

end Sys2Proof.Machine
end

