-- ==== Sys2Proof/Machine/Complete.lean ====
section
/-! DEFINITION. The completion of engine commands (R81, R111, R57): their writes, row updates (R168, R407), collectives (R107, R299, R409), and
events of near-bank units (R144, R153, R155, R404, R405). -/

namespace Sys2Proof.Machine

/-! Writes (R111). -/

/-- A request that the core issued before the command to the line is not performed yet (R93). -/
def earlierRequest (s : State) (id core part ia : Nat) : Bool :=
  s.net.any (fun e => decide (e.1 < id) && e.2.src.core == core && e.2.part == part && lineOf e.2.ia == lineOf ia && e.2.state != .lost &&
    !e.2.over)

/-- What an agent's access to a byte finds: it waits for its turn; it cannot be made in this step and leaves as a request; an error
response; or its place. -/
inductive EngineSpot where
  | waits
  | asks
  | fails (kind : Nat)
  | at (stack pa cls owner : Nat)
deriving DecidableEq, Repr

/-- What an access to a byte finds at home and beyond it. -/
def homeSpot (s : State) (who : Asker) (part dom ia : Nat) : EngineSpot :=
  let way := legs s who.die part ia (l2Hit s part dom ia).isNone
  if reducing s part ia || pageWaited s part ia || (closedEnd s (way ++ wayBack way)).isSome then .asks
  else
    match homePlace s part dom ia with
    | .error k => .fails k
    | .absent => .fails 2
    | .park => .asks
    | .at stack pa cls owner _ =>
      if (writeAtStack s part dom ia cls && !bankTakes s (bankOf stack pa)) || (who.src.baseLogic && stackBusy s stack) then .asks
      else .at stack pa cls owner

/-- A command also follows what its core has sent to the line before it, and writes nothing that an earlier command is to read (R93,
R96). -/
def engineSpot (s : State) (id : Nat) (c : Cmd) (who : Asker) (dom ia : Nat) : EngineSpot :=
  let part := c.part s
  if earlierRequest s id c.core part ia ||
      s.cmds.any (fun e => decide (e.1 < id) && e.2.core == c.core && mayRead s e.1 e.2 ia 1) then .waits
  else
    match homeSpot s who part dom ia with
    | .at stack pa cls owner => if runHolds s id c.core part ia (bankOf stack pa) true [] then .waits else .at stack pa cls owner
    | r => r

/-- An agent's write at the place that it has found, with its completion time. -/
def storeAt (s : State) (writer : Nat × Nat) (part tclass stack pa cls owner : Nat) (w : GWrite) : State × Nat :=
  let miss := writeAtStack s part w.dom w.ia cls
  let s := cacheAccess s part w.dom w.ia tclass cls owner false
  let (s, t) := performWrite s writer part w.ia stack pa cls owner w.size w.val w.mask 0
  (if miss then countActivation s (bankOf stack pa) pa else s, t)

/-- What becomes of a pending write: it waits, or it is done, with its completion time, or none for an error response. -/
inductive EngineWrite where
  | waits (s : State)
  | done (s : State) (t : Option Nat)
deriving DecidableEq, Repr

/-- The request that an agent has sent for a write. -/
def asked (s : State) (a : Asker) (part ia size : Nat) (k : ReqKind) : Option (Nat × Req) :=
  s.net.find? (fun e => e.2.kind == k && e.2.src == a.src && e.2.va == a.pc && e.2.part == part && e.2.ia == ia && e.2.size == size)

/-- A write that leaves as a request, and what its request comes to. -/
def askWrite (s : State) (a : Asker) (part : Nat) (d : DomReg) (ia size : Nat) (k : ReqKind) : EngineWrite :=
  match asked s a part ia size k with
  | none => .waits (sendReq s (a.req s part d ia size k))
  | some (n, r) =>
    match r.state with
    | .ready t => .done { s with net := eraseAt s.net n } (some t)
    | .failed => .done { s with net := eraseAt s.net n } none
    | _ => .waits s

/-- One write of firmware or of an engine of the IOD is performed at home. -/
def agentWrite (s : State) (who : Asker) (part : Nat) (d : DomReg) (w : GWrite) : EngineWrite :=
  let ask := askWrite s who part d w.ia w.size (.put w.val w.mask)
  if (asked s who part w.ia w.size (.put w.val w.mask)).isSome then ask
  else
    match homeSpot s who part d.id w.ia with
    | .waits => .waits s
    | .asks => ask
    | .fails k => .done (logRead s part w.ia d.id 0xFF 63 k) none
    | .at stack pa cls owner =>
      let x := storeAt s (who.src.uid, who.pc) part d.tclass stack pa cls owner w
      .done x.1 (some x.2)

/-- One write of a command is performed at home. -/
def engineWrite (s : State) (id : Nat) (c : Cmd) (w : GWrite) : EngineWrite :=
  let part := c.part s
  let who := c.asker id
  let ask := askWrite s who part { c.dom with id := w.dom } w.ia w.size (.put w.val w.mask)
  if (asked s who part w.ia w.size (.put w.val w.mask)).isSome then ask
  else
    match engineSpot s id c who w.dom w.ia with
    | .waits => .waits s
    | .asks => ask
    | .fails k => .done (logRead s part w.ia w.dom c.core c.slot k) none
    | .at stack pa cls owner =>
      let x := storeAt s (id, 0) part c.dom.tclass stack pa cls owner w
      .done (dropCopies x.1 c.core w.ia) (some x.2)

/-- The state, the largest completion time and whether some write failed. -/
structure WriteTotal where
  s   : State
  t   : Nat
  err : Bool
deriving DecidableEq, Repr

/-- All writes of a command: one waits, or they are done. -/
inductive WritesEnd where
  | waits (s : State)
  | done (x : WriteTotal)
deriving DecidableEq, Repr

def engineWrites (id : Nat) (c : Cmd) (x : WriteTotal) : List GWrite → WritesEnd
  | [] => .done x
  | w :: ws =>
    match engineWrite x.s id c w with
    | .waits s => .waits s
    | .done s (some t) => engineWrites id c ⟨s, max x.t t, x.err⟩ ws
    | .done s none => engineWrites id c ⟨s, x.t, true⟩ ws

/-! Row updates of `pkb` (R168, R407). -/

/-- The element after an update. -/
def RowUpdate.result (u : RowUpdate) (old : Nat) : Nat := rowResult u.fmt u.mode u.term old

/-- The IAs of an element's bytes, which may lie in two granules. -/
def RowUpdate.ias (u : RowUpdate) (d : DomReg) : List Nat := (List.range u.size).map (fun i => (rangeIa d.ranges permW (u.va + i)).getD 0)

/-- A byte of an element at its place: its IA, stack and physical address. -/
structure ByteAt where
  ia    : Nat
  stack : Nat
  pa    : Nat
deriving DecidableEq, Repr

/-- The bytes of an element, from the lowest. -/
inductive ElementSpot where
  | waits
  | asks
  | fails (ia kind : Nat)
  | at (bs : List ByteAt)
deriving DecidableEq, Repr

/-- A page of a class with WP other than 2 fails with no error response: its kind is 0 (R160). -/
def elementSpot (s : State) (id : Nat) (c : Cmd) : List Nat → ElementSpot
  | [] => .at []
  | ia :: t =>
    match engineSpot s id c (c.baseAsker id) c.dom.id ia, elementSpot s id c t with
    | .waits, _ => .waits
    | _, .waits => .waits
    | .asks, _ => .asks
    | _, .asks => .asks
    | .fails k, _ => .fails ia k
    | .at stack pa cls _, r =>
      if !isNa s cls then .fails ia 0
      else if poisonedAt s (physKey stack pa) 1 then .fails ia 3
      else
        match r with
        | .at bs => .at (⟨ia, stack, pa⟩ :: bs)
        | r => r

/-- The request for an update of an element that lies in one line. -/
def askRow (s : State) (id : Nat) (c : Cmd) (u : RowUpdate) : EngineWrite :=
  askWrite s (c.baseAsker id) (c.part s) c.dom ((u.ias c.dom).headD 0) u.size (.rowAdd u.fmt u.mode u.term)

/-- One update at its stack, with T the tick plus 4 (R169): none for a failure, which ends the query's updates there. -/
def rowStep (s : State) (id : Nat) (c : Cmd) (u : RowUpdate) : EngineWrite :=
  let part := c.part s
  let ia := (u.ias c.dom).headD 0
  let whole := decide (ia % 128 + u.size ≤ 128)
  if (asked s (c.baseAsker id) part ia u.size (.rowAdd u.fmt u.mode u.term)).isSome then askRow s id c u
  else
    match elementSpot s id c (u.ias c.dom) with
    | .waits => .waits s
    | .asks => if whole then askRow s id c u else .waits s
    | .fails ia k => .done (logRead s part ia c.dom.id c.core 63 k) none
    | .at bs =>
      let old := ofBytes (bs.map (fun b => readByte s.mem (physKey b.stack b.pa)))
      let new := (bs.zip (toBytes u.size (u.result old)))
      .done (new.foldl (fun s e =>
        countActivation (performAtBank s (id, 0) part e.1.ia e.1.stack e.1.pa 1 e.2.toNat 255 0) (bankOf e.1.stack e.1.pa) e.1.pa) s)
        (some (s.dt + 4))

/-- All updates in order (log 73); `failed` are the queries that have failed at a stack. -/
def rowSteps (id : Nat) (c : Cmd) (x : WriteTotal) (failed : List (Nat × Nat)) : List RowUpdate → WritesEnd
  | [] => .done x
  | u :: us =>
    if failed.contains (u.stack, u.query) then rowSteps id c x failed us
    else
      match rowStep x.s id c u with
      | .waits s => .waits s
      | .done s (some t) => rowSteps id c ⟨s, max x.t t, x.err⟩ failed us
      | .done s none => rowSteps id c ⟨s, x.t, true⟩ ((u.stack, u.query) :: failed) us

/-- An update may be made before the others: none of an earlier query or rank is left at its stack (R168). -/
def RowUpdate.first (u : RowUpdate) (rows : List RowUpdate) : Bool :=
  rows.all (fun v => v.stack != u.stack || decide (u.query < v.query) || (v.query == u.query && decide (u.rank ≤ v.rank)))

/-! Collectives (R107, R299). -/

/-- A combination of two elements (Table 20.6). -/
def collCombine (type : Nat) (a b : Dword) : Dword :=
  let x : Word := a.truncate 32
  let y : Word := b.truncate 32
  match type with
  | 0 => (addf32 x y).zeroExtend 64
  | 1 => (x + y).zeroExtend 64
  | 2 => BitVec.ofInt 64 (fx64Add a.toInt b.toInt)
  | _ => (Alu.maxS x y).zeroExtend 64

/-- One level of the fixed tree: adjacent results in ascending order, an odd one passes up. -/
def pairLevel (f : Dword → Dword → Dword) : List Dword → List Dword
  | a :: b :: t => f a b :: pairLevel f t
  | l => l

/-- The fixed tree over contributions in rank order; `n` levels suffice for 2^n of them. -/
def fixedTree (f : Dword → Dword → Dword) : Nat → List Dword → Dword
  | 0, l => l.headD 0
  | n + 1, l => fixedTree f n (pairLevel f l)

/-- The entries of a list other than those at two places. -/
def dropTwo (l : List Dword) (i j : Nat) : List Dword :=
  ((l.zip (List.range l.length)).filter (fun e => e.2 != i && e.2 != j)).map Prod.fst

/-- A tree given as steps: of the m results at hand, entry k combines those numbered k / m and k mod m. None where a step names no two. -/
def stepTree (f : Dword → Dword → Dword) : List Nat → List Dword → Option Dword
  | _, [a] => some a
  | k :: ks, l =>
    let i := k / l.length
    let j := k % l.length
    match l[i]?, l[j]? with
    | some a, some b => if i = j then none else stepTree f ks (f a b :: dropTwo l i j)
    | _, _ => none
  | [], _ => none

/-- The elements of a contribution, from its words. -/
def collElements (type : Nat) : List Word → List Dword
  | [] => []
  | [a] => [a.zeroExtend 64]
  | a :: b :: t => if type = 2 then (b ++ a) :: collElements type t else a.zeroExtend 64 :: collElements type (b :: t)

/-- A `coll` as its participants compare it (R299, R409). -/
structure CollHead where
  op    : Nat
  fast  : Bool
  type  : Nat
  count : Nat
deriving DecidableEq, Repr

/-- What another rank brings (log 14): word 0 and word 3 of its record, then the words of its elements. -/
def peerHead : List Word → Option CollHead
  | w :: n :: _ => some ⟨collOp w.toNat, collFast w.toNat, collType w.toNat, n.toNat⟩
  | _ => none

def peerElements (type : Nat) (p : List Word) : List Dword := collElements type (p.drop 2)

/-- The reduced element: in fixed-tree mode R107's, in fast mode that of the tree which `tree` tells: P − 1 steps for each element, or the
same steps for all of them where there are fewer. A NaN is the canonical one (R69). -/
def collReduced (fast : Bool) (type : Nat) (tree : List Nat) (i : Nat) (l : List Dword) : Dword :=
  let f := collCombine type
  let fixed := fixedTree f 9 l
  let n := l.length - 1
  let own := (tree.drop (i * n)).take n
  let v := if !fast then fixed else (stepTree f (if own.length < n then tree.take n else own) l).getD fixed
  if type = 0 ∧ (f32 (v.truncate 32)).isNan then 0x7FC00000 else v

/-- What an operation among devices writes: elements of DST by their number. None where the participants disagree, which is a failure
(R409). A send to the own rank meets the own receive (log 74). -/
def collResults (h : CollHead) (cm : Comm) (peer : Nat) (own : List Dword) (bad : List Nat) (peers : List (List Word)) (tree : List Nat) :
    Option (List (Nat × Dword)) :=
  let others := (List.range cm.devices).filter (· != cm.rank)
  let agree := fun (r : Nat) (op : Nat) => peerHead (peers.getD r []) == some { h with op := op }
  let sends := fun (r : Nat) => (peerElements h.type (peers.getD r [])).length == h.count
  let all := (List.range cm.devices).map (fun r => if r = cm.rank then own else peerElements h.type (peers.getD r []))
  let fits := others.all (fun r => agree r h.op && sends r)
  let reduced := fun (i : Nat) => collReduced h.fast h.type tree i (all.map (fun l => l.getD i 0))
  let good := fun (i : Nat) => !bad.contains i
  match h.op with
  | 0 => if fits then some (((List.range h.count).filter good).map (fun i => (i, reduced i))) else none
  | 1 =>
    let n := h.count / cm.devices
    if fits then some (((List.range n).filter (fun i => good (cm.rank * n + i))).map (fun i => (i, reduced (cm.rank * n + i)))) else none
  | 2 =>
    if fits then
      some ((List.range cm.devices).flatMap (fun r =>
        ((List.range h.count).filter (fun i => r != cm.rank || good i)).map (fun i => (r * h.count + i, (all.getD r []).getD i 0))))
    else none
  | 3 => if agree peer 4 then some [] else none
  | _ =>
    if agree peer 3 && sends peer then
      some ((List.range h.count).map (fun i => (i, (peerElements h.type (peers.getD peer [])).getD i 0)))
    else none

/-- A collective that has not completed 2^28 ticks after its issue (R409). -/
def collLate (s : State) (c : Cmd) : Bool := decide (c.issued + Config.collLimit ≤ s.dt)

/-- A collective has other devices to meet: its operation is of all ranks of several, or its peer is not the device itself. -/
def meetsPeers (s : State) (c : Cmd) : Bool :=
  match c.coll with
  | some (op, comm, peer) =>
    let x := (commAt s comm).getD ⟨1, 0, [], []⟩
    if 3 ≤ op then peer != x.rank else decide (1 < x.devices)
  | none => false

/-- What the device's send to itself, or its receive from itself, is matched with (R299): the command that was issued at the same place in
their order, and that place; none where it has not been issued. -/
def selfPartner (s : State) (n : Nat) (c : Cmd) : Option (Nat × Nat) :=
  match c.coll with
  | some (_, comm, _) =>
    match commAt s comm with
    | some x =>
      match x.sends.findIdx? (· == n), x.recvs.findIdx? (· == n) with
      | some i, _ => (x.recvs[i]?).map (fun m => (m, i))
      | none, some i => (x.sends[i]?).map (fun m => (m, i))
      | none, none => none
    | none => none
  | none => none

/-- A pair of which both are over leaves the order. -/
def dropPair (s : State) (c : Cmd) (i : Nat) : State :=
  match c.coll with
  | some (_, comm, _) =>
    { s with comms := modifyAt s.comms comm (fun x => { x with sends := x.sends.eraseIdx i, recvs := x.recvs.eraseIdx i }) }
  | none => s

/-! Completing a command. -/

/-- A change to a block, resident or saved. -/
def changeBlock (s : State) (bid : Nat) (f : Block → Block) : State :=
  { modifyBlock s bid f with saved := modifyAt s.saved bid (fun x => { x with block := f x.block }) }

/-- Words written by a command into the scratchpad, the poisoned ones marked. -/
def landScratch (s : State) (bid : Nat) (ws : List (Nat × List Byte)) (poisoned : List Nat) : State :=
  changeBlock s bid (fun b => (ws.foldl (fun (b : Block) w => b.writeScratch w.1 w.2) b).poisonWords poisoned)

/-- THE END OF A COMMAND (R57, R81, R111): RH is raised, the granules return, and the flag falls, with its error mark, all in one step. -/
def finishCommand (s : State) (id : Nat) (c : Cmd) (t : Nat) (err : Bool) : State :=
  let t := max c.maxT t
  let s := dropPulls { s with cmds := eraseAt s.cmds id } (c.asker id)
  let s := changeBlock s c.block (fun b => { b with engine := c.granules.foldl (fun m k => putAt false m k false) b.engine })
  let s := changeGroup s c.uid (fun g =>
    { g.setCount c.flag (g.count c.flag - 1) with
      rh := max g.rh t
      flagErr := if c.err || err then g.flagErr ||| BitVec.twoPow 12 c.flag else g.flagErr })
  let s := raiseRun { s with launches := modifyAt s.launches c.launch (fun x => { x with maxT := max x.maxT t }) } c.uid t
  match findGroup s c.uid with
  | some (.resident core slot) => tryUnwind s core slot
  | _ => s

/-- The writes of a `coll` into DST: to memory, or into the scratchpad. -/
def landColl (s : State) (id : Nat) (c : Cmd) (type : Nat) (dst : Option Nat) (dstVa : Nat) (rs : List (Nat × Dword)) : State :=
  let z := if type = 2 then 8 else 4
  match dst with
  | some off => finishCommand (landScratch s c.block (rs.map (fun r => (off + z * r.1, toBytes z r.2.toNat))) []) id c 0 false
  | none =>
    let ws := rs.map (fun r =>
      let va := dstVa + z * r.1
      (⟨va, (rangeIa c.dom.ranges permW va).getD 0, c.dom.id, z, r.2.toNat, ones z⟩ : GWrite))
    match engineWrites id c ⟨s, 0, false⟩ ws with
    | .done x => finishCommand x.s id c x.t x.err
    | .waits _ => { s with cmds := setAt s.cmds id { c with work := .writes [] [] ws [] } }

/-- A `coll` fails: it completes with an error mark, and DST keeps what it holds; so does what it is matched with at the device itself
(R409). -/
def failColl (s : State) (n : Nat) : State :=
  match lookupAt s.cmds n with
  | none => s
  | some c =>
    let s' := finishCommand s n c 0 true
    match selfPartner s n c with
    | none => s'
    | some (m, i) =>
      dropPair (match lookupAt s'.cmds m with
        | some x => finishCommand s' m x 0 true
        | none => s') c i

/-- A receive of the device from itself takes what its send brings, and both are over; where they disagree both fail (R299, R409). -/
def endSelfColl (s : State) (n : Nat) (c : Cmd) (m i : Nat) (x : Cmd) : State :=
  match c.work, x.work with
  | .coll _ fast type _ _ count _ _ dst dstVa, .coll _ fast' type' _ _ count' own bad _ _ =>
    if collLate s x then s
    else if fast' = fast ∧ type' = type ∧ count' = count then
      let rs := ((List.range count).filter (fun i => !bad.contains i)).map (fun i => (i, own.getD i 0))
      dropPair (landColl (finishCommand s m x 0 false) n c type dst dstVa rs) c i
    else failColl s n
  | _, _ => s

/-- A `coll` ends: with the other devices, or with the device itself as its peer, where the send waits for the receive; a partner that has
failed fails it too. -/
def endColl (s : State) (n : Nat) (c : Cmd) (peers : List (List Word)) (tree : List Nat) : State :=
  match c.work with
  | .coll op fast type comm peer count own bad dst dstVa =>
    let cm := (commAt s comm).getD ⟨1, 0, [], []⟩
    if 3 ≤ op ∧ peer = cm.rank then
      match selfPartner s n c with
      | none => s
      | some (m, i) =>
        match lookupAt s.cmds m with
        | none => failColl s n
        | some x => if op = 4 then endSelfColl s n c m i x else s
    else
      match collResults ⟨op, fast, type, count⟩ cm peer own bad peers tree with
      | none => failColl s n
      | some rs => landColl s n c type dst dstVa rs
  | _ => s

/-- A command that reads goes on with what its requests have brought: the rest leaves as requests, or its work begins (R111). -/
def readOn (s : State) (id : Nat) (c : Cmd) (op : EngineOp) (at' : Ctx) : State :=
  let x := planOf op at' { s with ahead := true }
  if x.parks then askPlan s id c x
  else
    { logPlan (dropPulls s (c.asker id)) (c.part s) c.dom.id c.core x.logs with
      cmds := setAt s.cmds id { c with work := x.work, err := c.err || x.err } }

/-- The pages of a near-bank command's region have been looked up, or their look-ups are out (R145, R403). -/
def lookOn (s : State) (id : Nat) (c : Cmd) (vas : List Nat) (stack : Nat) (work : CmdWork) : State :=
  let found := vas.map (regionPage { s with ahead := true } (c.asker id) (c.part s) c.dom stack)
  if found.any (fun x => x == .waits) then
    let s := if s.net.any (fun e => e.2.pullOf (c.asker id) && !e.2.over) then s else dropPulls s (c.asker id)
    askPages (c.asker id) (c.part s) c.dom vas s
  else
    let ok := found.all (fun x => x == .good)
    { logPlan (dropPulls s (c.asker id)) (c.part s) c.dom.id c.core (pageLogs found) with
      cmds := setAt s.cmds id { c with work := if ok then work else .writes [] [] [] [], err := c.err || !ok } }

/-- The host answers accesses to an address with an error (R421). -/
def hostRefuses (s : State) (addr : Nat) : Bool := s.hostBad.contains (addr / 4096)

/-- An earlier command of the group still has host-bound writes to hand over (R366). -/
def hostWaits (s : State) (n : Nat) (c : Cmd) : Bool := hostOut s c.uid n

/-- `ENGINE_COMMAND_COMPLETE` (R111): `peers` are the contributions of the ranks of a collective, `tree` the tree of its fast mode. -/
def execEngineCommandComplete (n : Nat) (peers : List (List Word)) (tree : List Nat) (s : State) : Out :=
  eventOp (fun s =>
    match lookupAt s.cmds n with
    | none => s
    | some c =>
      if c.coll.isSome && collLate s c then s
      else
      match c.work with
      | .writes sc po gw host =>
        if !host.isEmpty && (!s.linkUp || hostWaits s n c) then s
        else
          match engineWrites n c ⟨s, 0, false⟩ gw with
          | .waits _ => s
          | .done x =>
            let s := { x.s with hostMem := host.foldl (fun m w => writeBytes m w.1 w.2) x.s.hostMem }
            finishCommand (landScratch s c.block sc po) n c x.t x.err
      | .fromHost off host len =>
        if !s.linkUp then s
        else
          let good := (wordOffsets len).filter (fun i => !hostRefuses s (host + i))
          finishCommand (landScratch s c.block (good.map (fun i => (off + i, readBytes s.hostMem (host + i) 4))) []) n c 0
            (decide (good.length < (wordOffsets len).length))
      | .updates sc po rows =>
        match rowSteps n c ⟨s, 0, false⟩ [] rows with
        | .waits _ => s
        | .done x => finishCommand (landScratch x.s c.block sc po) n c x.t x.err
      | .coll .. => endColl s n c peers tree
      | .reading op x _ => readOn s n c op x
      | .looking vas stack w => lookOn s n c vas stack w
      | w =>
        let (s, w) := nbProceed s n w
        let c := { c with work := w }
        if nbCanComplete s n w then finishCommand (nbComplete s c.block w) n c 0 false else { s with cmds := setAt s.cmds n c }) s

/-- A pending write of a command is performed before the command completes: a write, or a row update whose turn may be next at its
stack. -/
def engineTurn (s : State) (id sel : Nat) : State :=
  match lookupAt s.cmds id with
  | none => s
  | some c =>
    let put := fun (s : State) (t : Option Nat) (w : CmdWork) =>
      { s with cmds := setAt s.cmds id { c with work := w, maxT := max c.maxT (t.getD 0), err := c.err || t.isNone } }
    match c.work with
    | .writes sc po gw host =>
      match gw[sel]? with
      | none => s
      | some w =>
        match engineWrite s id c w with
        | .waits s' => s'
        | .done s' t => put s' t (.writes sc po (gw.eraseIdx sel) host)
    | .updates sc po rows =>
      match rows[sel]? with
      | none => s
      | some u =>
        if !u.first rows then s
        else
          match rowStep s id c u with
          | .waits s' => s'
          | .done s' (some t) => put s' (some t) (.updates sc po (rows.eraseIdx sel))
          | .done s' none => put s' none (.updates sc po (rows.filter (fun v => !(v.stack == u.stack && v.query == u.query))))
    | _ => s

/-- `COLL_TIMEOUT` (R409). -/
def execCollTimeout (n : Nat) (s : State) : Out :=
  eventOp (fun s =>
    match lookupAt s.cmds n with
    | some c => if c.coll.isSome && collLate s c then failColl s n else s
    | none => s) s

/-- `PEER_PORT_UNREACHABLE` (R409): the outstanding collectives that have other devices to meet fail (log 27). -/
def execPeerPortUnreachable (_ : Nat) (s : State) : Out :=
  eventOp (fun s => s.cmds.foldl (fun s e => if meetsPeers s e.2 then failColl s e.1 else s) s) s

/-! Near-bank units. -/

/-- `NBU_RESUME` (R153): after requests have been served at a row boundary, the unit opens its row again and continues. -/
def execNbuResume (bank : Nat) (s : State) : Out :=
  eventOp (fun s =>
    let x := nbuAt s bank
    match runView s x, x.boundary with
    | some r, some (n + 1) =>
      if x.suspended || x.openRow.isSome || stopPending s (bankStack bank) (bankPch bank) || !unitResumes s bank (n + 1) then s
      else openRow s bank x r
    | _, _ => s) s

/-- `VISIT_BOUND` (R144): a visit that passes tick 64 without its end stops the unit. -/
def execVisitBound (bank : Nat) (s : State) : Out :=
  eventOp (fun s =>
    let x := nbuAt s bank
    match runView s x, x.visit with
    | some r, some t0 => if t0 + 64 < s.dt then nbuStop s bank x r else s
    | _, _ => s) s

/-- The refresh of a row at a bank that a run holds: at a row boundary, first of all, once what was opening is closed again (R153). -/
def refreshBetween (s : State) (bank row : Nat) : State :=
  let s := interrupt s bank
  let x := nbuAt s bank
  match x.boundary with
  | none => s
  | some n =>
    if n < 8 ∧ x.openRow.isNone ∧ x.bankFree ≤ s.dt ∧ !lineUnserved s bank then
      setNbu { s with credit := putAt 0 s.credit (bank * 2 ^ 16 + row) s.dt } bank
        { x with boundary := some (n + 1), lastServed := none, bankFree := s.dt + 2 * rowTicks }
    else s

/-- `REFRESH_DUE` (R155, R405): a row whose latest refresh or credit is tREFW old is refreshed, at a row boundary where a run holds the
bank. -/
def execRefreshDue (bank row : Nat) (s : State) : Out :=
  eventOp (fun s =>
    let key := bank * 2 ^ 16 + row
    if row < Config.rowCount ∧ getAt 0 s.credit key + refreshWindow ≤ s.dt then
      if governed s bank then refreshBetween s bank row else { s with credit := putAt 0 s.credit key s.dt }
    else s) s

/-- The banks of a pseudo-channel. -/
def pchBanks (stack pch : Nat) : List Nat := (List.range 32).map (fun b => bankNo stack pch b)

/-- The unit's run belongs to a launch. -/
def runOfLaunch (s : State) (bank launch : Nat) : Bool :=
  match runView s (nbuAt s bank) with
  | some r => r.cmd.launch == launch
  | none => false

/-- Pseudo-channels of the package. -/
def pchCount : Nat := Config.stackCount * 64

/-- The pseudo-channels in normal mode that hold suspended runs of a launch. -/
def suspendedPchs (s : State) (launch : Nat) : List Nat :=
  distinct ((s.nbus.filter (fun e => e.2.suspended && runOfLaunch s e.1 launch)).map (fun e => e.1 / 32))

/-- `SUSPENDED_RUN_FLUSH` (R404): once every block of a launch has ended, pseudo-channels that hold its suspended runs are switched to
compute mode; one whose runs of the launch have ended returns to normal mode, its other runs standing at row boundaries. -/
def execSuspendedRunFlush (launch : Nat) (s : State) : Out :=
  eventOp (fun s =>
    match lookupAt s.launches launch with
    | none => s
    | some l =>
      if !l.done then s
      else
        let ks := (suspendedPchs s launch).filter (fun k => !inCompute s (k / 64) (k % 64))
        let s := ks.foldl (fun s k => switchMode s (k / 64) (k % 64) true) s
        let back := l.flushed.filter (fun k =>
          (pchBanks (k / 64) (k % 64)).all (fun b =>
            !runOfLaunch s b launch &&
              (let x := nbuAt s b
               (runView s x).isNone || x.suspended || x.boundary.isSome)))
        let s := back.foldl (fun s k => switchMode s (k / 64) (k % 64) false) s
        { s with launches := setAt s.launches launch { l with flushed := (l.flushed.filter (fun k => !back.contains k)) ++ ks } }) s

end Sys2Proof.Machine
end

