-- ==== Sys2Proof/Machine/Sequencer.lean ====
section
/-! DEFINITION. The sequencer stream (R126 to R135, R140, R307 to R317, R400, R401): its turns and faults, its registers, tile fetches,
accumulation, the bobbin stack's tile operations and its barriers. A turn executes and retires one instruction, an `mmam` one K-step. -/

namespace Sys2Proof.Machine

/-! The context whose turn it is. -/

/-- A sequencer context with its block, its launch and the domain its accesses are made under. -/
structure SeqView where
  core   : Nat
  ctx    : Nat
  x      : SeqCtx
  b      : Block
  launch : Nat
  part   : Nat
  dom    : DomReg
deriving DecidableEq, Repr

def seqView (s : State) (core ctx : Nat) : Option SeqView :=
  match lookupAt s.seqs (core * 4 + ctx) with
  | none => none
  | some x =>
    match blockAt s x.block with
    | none => none
    | some b =>
      let launch := ((lookupAt s.runs b.run).map NodeRun.graph).getD 0
      let part := (partOfCore s core).getD 0
      let dom := ((lookupAt s.launches launch).map GraphLaunch.dom).getD 0
      some ⟨core, ctx, x, b, launch, part, domReg s part dom⟩

def SeqView.set (v : SeqView) (s : State) (x : SeqCtx) : State := { s with seqs := setAt s.seqs (v.core * 4 + v.ctx) x }

/-- What the accesses of a context carry; its number is its block's. -/
def SeqView.access (v : SeqView) : Access := ⟨.seq v.core v.ctx v.x.block, v.launch, v.part, v.dom⟩

/-- How an instruction of the stream comes out. -/
inductive SeqStep where
  /-- It waits; the state may record what for. -/
  | wait (s : State)
  | fault (cause : Nat)
  /-- A fault whose error response is logged (R383). -/
  | faultLog (cause ia kind : Nat)
  | done (s : State)
deriving DecidableEq, Repr

/-- Who reads for a context. -/
def SeqView.asker (v : SeqView) : Asker := ⟨v.access.src, v.x.pc.toNat, false⟩

/-- A recorded fault is delivered once the context's writes have completed: to the block's lowest-numbered group that has not exited, which
finishes a trap of its own first; where every group has exited the block ends (R400). -/
def deliverFault (v : SeqView) (cause : Nat) (s : State) : State :=
  if writesOut s v.x.block (s.nextId + 1) then s
  else
    let s' := v.set s { v.x with fault := none }
    match (Block.liveSlots s v.x.block v.b).head? with
    | none => endBlock (launchEvent s' v.launch (cause + 0x100)) v.x.block cause false
    | some q =>
      match groupAt s v.core q with
      | none => s
      | some g => if g.stop = .running then takeTrap s' v.core q ⟨cause, 8, v.x.pc, 0⟩ else s

/-- A SEQUENCER FAULT (R400, R401): from now on neither the context nor a group of the block goes on; error responses are logged, and the
fault is delivered. -/
def seqFault (v : SeqView) (cause : Nat) (logs : List (Nat × Nat)) (s : State) : State :=
  let s := forgetPulls (logs.foldl (fun s e => logRead s v.part e.1 v.dom.id v.core 63 e.2) s) v.x.block
  let v' := { v with x := { v.x with fault := some cause }, b := { v.b with seqFault := some cause } }
  deliverFault v' cause (v'.set (setBlock s v.x.block v'.b) v'.x)

/-- The port numbers 8 to 11 stand for the contexts: one instruction a tick (R127). -/
def seqPort (ctx : Nat) : Nat := 8 + ctx

def SeqView.idle (v : SeqView) (s : State) : Bool :=
  dieStopped s (dieOfCore v.core) || !v.x.started || v.x.halted || v.b.seqFault.isSome || (match v.b.preempt with | .saving _ _ _ => !v.x.haltWait | _ => false) ||
  (coreAt s v.core).portUsed.contains (seqPort v.ctx)

/-- The one operation by which an instruction of the sequencer stream executes. -/
def seqOp (f : SeqView → State → SeqStep) (s : State) : Out :=
  match s.cur with
  | .seq core ctx =>
    match seqView s core ctx with
    | none => .next s
    | some v =>
      if v.idle s then .next s
      else
        match f v s with
        | .wait s' => .next s'
        | .fault cause => .next (seqFault v cause [] s)
        | .faultLog cause ia kind => .next (seqFault v cause [(ia, kind)] s)
        | .done s' => .next (setCore s' core { coreAt s' core with portUsed := (coreAt s' core).portUsed ++ [seqPort ctx] })
  | _ => .fault .wrongAgent

/-- The context after an instruction that changes only the context and goes on to the next word. -/
def SeqView.next (v : SeqView) (s : State) (x : SeqCtx) : SeqStep := .done (v.set s { x with pc := v.x.pc + 4 })

/-! Registers (R307, R308). -/

def SeqView.m (v : SeqView) (r : Nat) : Word := getAt 0 v.x.m r
def SeqCtx.setM (x : SeqCtx) (r : Nat) (w : Word) : SeqCtx := { x with m := putAt 0 x.m r w }
def SeqView.pair (v : SeqView) (r : Nat) : Nat := pair64 (v.m r) (v.m (r + 1))
def SeqCtx.setPair (x : SeqCtx) (r n : Nat) : SeqCtx := (x.setM r (BitVec.ofNat 32 n)).setM (r + 1) (BitVec.ofNat 32 (n / 2 ^ 32))

/-- A sign-extended immediate of `n` bits. -/
def sextImm (n i : Nat) : Word := BitVec.ofInt 32 (signed n i)

/-- `MNOP` (R308). -/
def execMnop (s : State) : Out := seqOp (fun v s => v.next s v.x) s

/-- `MSET` (R308). -/
def execMset (d : Fin 16) (i : Fin 2097152) (s : State) : Out := seqOp (fun v s => v.next s (v.x.setM d (sextImm 21 i))) s

/-- `MSET_H` (R308). -/
def execMsetH (d : Fin 16) (i : Fin 65536) (s : State) : Out :=
  seqOp (fun v s => v.next s (v.x.setM d (BitVec.ofNat 32 (i.val * 2 ^ 16 + (v.m d).toNat % 2 ^ 16)))) s

/-- `MADD` (R308). -/
def execMadd (d a b : Fin 16) (s : State) : Out := seqOp (fun v s => v.next s (v.x.setM d (v.m a + v.m b))) s

/-- `MADD_IMM` (R308). -/
def execMaddImm (d a : Fin 16) (i : Fin 65536) (s : State) : Out :=
  seqOp (fun v s => v.next s (v.x.setM d (v.m a + sextImm 16 i))) s

/-- A 64-bit addition modulo 2^64. -/
def wrapAdd (a : Nat) (b : Int) : Nat := (((a : Int) + b) % (2 ^ 64 : Nat)).toNat

/-- `MADD_W` (R308). -/
def execMaddW (d a b : Fin 16) (s : State) : Out := seqOp (fun v s => v.next s (v.x.setPair d (wrapAdd (v.pair a) (v.pair b)))) s

/-- `MADD_W_IMM` (R308). -/
def execMaddWImm (d a : Fin 16) (i : Fin 65536) (s : State) : Out :=
  seqOp (fun v s => v.next s (v.x.setPair d (wrapAdd (v.pair a) (signed 16 i)))) s

/-- The target of a branch: PC + 4·offset (R307). -/
def SeqView.target (v : SeqView) (bits o : Nat) : Dword := v.x.pc + BitVec.ofInt 64 (4 * signed bits o)

/-- `MBNZ` (R308). -/
def execMbnz (c : Fin 16) (k : Bool) (o : Fin 2097152) (s : State) : Out :=
  seqOp (fun v s =>
    let w := if k then v.m c - 1 else v.m c
    let x := v.x.setM c w
    .done (v.set s { x with pc := if w ≠ 0 then v.target 21 o else v.x.pc + 4 })) s

/-- `MJMP` (R308). -/
def execMjmp (o : Fin 67108864) (s : State) : Out := seqOp (fun v s => .done (v.set s { v.x with pc := v.target 26 o })) s

/-! The tile configuration (Table 10.2). -/

def tcfgMt (w : Word) : Nat := 16 * 2 ^ (w.toNat % 4)
def tcfgNt (w : Word) : Nat := if bitOf w.toNat 2 then 128 else 64
def tcfgInt (w : Word) : Bool := bitOf w.toNat 3
def tcfgScaled (w : Word) : Bool := decide (w.toNat / 2 ^ 4 % 4 = 1)
def tcfgA (w : Word) : Nat := w.toNat / 2 ^ 8 % 64
def tcfgB (w : Word) : Nat := w.toNat / 2 ^ 16 % 64

/-- TCFG at block start (Table 10.2). -/
def tcfgReset : Word := 0x002C2C00

/-- The units of a logical accumulator (R131). -/
def tcfgUnits (w : Word) : Nat := tcfgMt w / 16 * (tcfgNt w / 64)

/-- A unit number that R131 admits. -/
def SeqView.unitOk (v : SeqView) (n : Nat) : Bool :=
  n % tcfgUnits v.x.tcfg == 0 && decide (n + tcfgUnits v.x.tcfg ≤ v.x.nacc)

/-- The place of element (i, j) of the accumulator that begins at unit n (R131). -/
def accIndex (w : Word) (n i j : Nat) : Nat := (n + j / 64 * (tcfgMt w / 16) + i / 16) * 1024 + i % 16 * 64 + j % 64

/-- The elements of a logical accumulator, row by row. -/
def accElems (w : Word) : List (Nat × Nat) :=
  (List.range (tcfgMt w)).flatMap (fun i => (List.range (tcfgNt w)).map (fun j => (i, j)))

/-- The accumulator holds a poisoned element (R401). -/
def SeqView.accPoisoned (v : SeqView) (n : Nat) : Bool :=
  (accElems v.x.tcfg).any (fun e => getAt false v.x.accPoison (accIndex v.x.tcfg n e.1 e.2))

/-- `TCFG` (R309, R131): the register is written and every unit cleared. -/
def execTcfg (t : Fin 4) (n c : Bool) (sm : Fin 4) (a b : Fin 64) (s : State) : Out :=
  seqOp (fun v s =>
    v.next s { v.x with
      tcfg := BitVec.ofNat 32 (t.val + (if n then 4 else 0) + (if c then 8 else 0) + sm.val * 2 ^ 4 + a.val * 2 ^ 8 + b.val * 2 ^ 16)
      acc := []
      accPoison := [] }) s

/-- `MZERO` (R312). -/
def execMzero (n : Fin 32) (s : State) : Out :=
  seqOp (fun v s =>
    if !v.unitOk n then .fault 0x1F
    else
      let is := (accElems v.x.tcfg).map (fun e => accIndex v.x.tcfg n e.1 e.2)
      v.next s { v.x with acc := is.foldl eraseAt v.x.acc, accPoison := is.foldl eraseAt v.x.accPoison }) s

/-! Reads of memory and of windows (R133, R310). -/

/-- A range of a source in bytes: of a window, or of global memory. -/
structure Piece where
  addr : Nat
  len  : Nat
deriving DecidableEq, Repr

/-- A window's place and extent now (R80). -/
def SeqView.window (v : SeqView) (s : State) (n : Nat) : Nat × Nat := (getAt Window.none v.b.windows n).at (dtCore s v.core)

/-- A range outside its window or, under DBGCTL.OWNTRAP, in a granule of an engine (R387, R388). -/
def SeqView.windowBad (v : SeqView) (s : State) (n : Nat) (p : Piece) : Bool :=
  let (base, extent) := v.window s n
  decide (extent < p.addr + p.len) || ((coreAt s v.core).ownTrap && engineOwned v.b (base + p.addr) p.len)

/-- A range that fails its check: R78 with some permissions, or the window's. -/
def SeqView.pieceBad (v : SeqView) (s : State) (win : Option Nat) (perms : Nat) (p : Piece) : Bool :=
  match win with
  | some n => v.windowBad s n p
  | none => (rangeFail v.dom.ranges perms p.addr p.len).isSome

/-- A read of a few bytes of one page or of a window. A failing window word is not logged. -/
def SeqView.read (v : SeqView) (s : State) (win : Option Nat) (addr n : Nat) : EngineRead :=
  match win with
  | some w =>
    let off := (v.window s w).1 + addr
    if scratchPoisoned v.b off n then .fails 0 0 else .value (readLE v.b.scratch off n)
  | none => engineRead s v.asker v.part v.dom permR addr n

/-- The distinct lines of ranges of global memory. -/
def SeqView.lines (v : SeqView) (ps : List Piece) : List Nat :=
  distinct (ps.flatMap (fun p =>
    (List.range ((p.addr + p.len - 1) / 128 - p.addr / 128 + 1)).map (fun k =>
      lineOf ((rangeIa v.dom.ranges permR ((p.addr / 128 + k) * 128)).getD 0))))

def EngineRead.isFail : EngineRead → Bool
  | .fails _ _ => true
  | _ => false

def EngineRead.get : EngineRead → Nat
  | .value v => v
  | _ => 0

/-- Ranges of global memory. -/
def Piece.range (p : Piece) : Range := ⟨p.addr, p.len⟩

/-- The error responses that reading some ranges meets: each line once, with its IA and kind (R383). -/
def SeqView.failing (v : SeqView) (s : State) (perms : Nat) (rs : List Range) : List (Nat × Nat) :=
  (rs.flatMap (fun r => r.pieces.filterMap (fun p =>
    match engineRead s v.asker v.part v.dom perms p.va p.len with
    | .fails ia k => if k = 0 then none else some (ia, k)
    | _ => none))).foldl (fun acc e => if acc.any (fun a => lineOf a.1 == lineOf e.1 && a.2 == e.2) then acc else acc ++ [e]) []

/-- The context waits for what it reads, which leaves as requests (R98, R101). -/
def SeqView.waitFor (v : SeqView) (rs : List Range) (s : State) : SeqStep := .wait (askRanges v.asker v.part v.dom rs s)

/-- The context has read some ranges: error responses are logged, and what it waited for is over. -/
def SeqView.hasRead (v : SeqView) (perms : Nat) (rs : List Range) (s : State) : State :=
  let logs := v.failing s perms rs
  rangesRead (logs.foldl (fun s e => logRead s v.part e.1 v.dom.id v.core 63 e.2) s) v.asker v.part v.dom rs

/-- A row that a fetch fills: its number, its 64 bytes as a number, and its 4 scale bytes where the fetch brings scales. -/
structure RowRead where
  row   : Nat
  bytes : EngineRead
  scale : Option EngineRead
deriving DecidableEq, Repr

/-- Rows laid into a tile register; a row that met an error response is poisoned (R401). -/
def SeqCtx.fillRows (x : SeqCtx) (t : Nat) (rows : List RowRead) : SeqCtx :=
  rows.foldl (fun x r =>
    let bad := r.bytes.isFail || (match r.scale with | some e => e.isFail | none => false)
    { x with
      tiles := writeBytes x.tiles (t * 4096 + r.row * 64) (toBytes 64 r.bytes.get)
      scales := match r.scale with
        | some e => writeBytes x.scales (t * 256 + r.row * 4) (toBytes 4 e.get)
        | none => x.scales
      tilePoison := putAt false x.tilePoison (t * 64 + r.row) bad
      readErr := x.readErr || bad }) x

def RowRead.reads (r : RowRead) : List EngineRead := r.bytes :: r.scale.toList

/-- The lines that a context has pinned (R134). -/
def SeqCtx.pinned (x : SeqCtx) : List Nat := distinct (x.pins.map Prod.fst)

/-- The context's share of pins is not enough for some more lines. No `mma` of the model is issued and not retired, so such a fetch has
nothing to wait for (R134, R401). -/
def SeqView.pinsBad (v : SeqView) (lines : List Nat) : Bool := decide (64 < (distinct (v.x.pins.map Prod.fst ++ lines)).length)

/-- The lines of some ranges stay in their home slices (R134). -/
def SeqView.hold (v : SeqView) (rs : List Range) (s : State) : State :=
  (iaPieces v.dom rs).foldl (fun s p =>
    match homePlace s v.part v.dom.id p.1 with
    | .at _ _ cls owner _ => holdLine s v.part p.1 cls owner
    | _ => s) s

/-- The checks and the waits of a tile fetch (R78, R80, R134, R401), then its rows. -/
def SeqView.fetch (v : SeqView) (s : State) (win : Option Nat) (t : Nat) (ps : List Piece) (rows : List RowRead) : SeqStep :=
  let lines := if win.isSome then [] else v.lines ps
  let rs := if win.isSome then [] else ps.map Piece.range
  if ps.any (v.pieceBad s win permR) || v.pinsBad lines then .fault 0x1F
  else if rows.any (fun r => r.reads.any (fun e => e == .waits)) then v.waitFor rs s
  else
    let pins := v.x.pins ++ lines.map (fun l => (l, t))
    v.next (v.hold rs (v.hasRead permR rs (v.set s { v.x with pins := pins }))) { v.x.fillRows t rows with pins := pins }

/-- The scale source of a fetch (R310): its base and whether the register that names it is admitted; none without scales. -/
def SeqView.scaleBase (v : SeqView) (a : Nat) (win : Option Nat) : Option (Nat × Bool) :=
  if tcfgScaled v.x.tcfg then
    match win with
    | none => some (v.pair (a + 2), a % 4 == 0)
    | some _ => some ((v.m (a + 1)).toNat, a % 2 == 0)
  else none

/-- The 64 bytes of FP6 codes assembled from a low and a high plane (R66, R310). -/
def planes (low high : Nat) : Nat :=
  (List.range 64).foldl (fun acc k => acc + (low / 16 ^ k % 16 + 16 * (high / 4 ^ k % 4)) * 256 ^ k) 0

/-- `TLD` (R310). -/
def execTld (t : Fin 8) (a : Fin 16) (x : Bool) (w sr : Fin 16) (r : Fin 64) (p : Bool) (s : State) : Out :=
  seqOp (fun v s =>
    let win := if x then some w.val else none
    let addr := if x then (v.m a).toNat else v.pair a
    let str := (v.m sr).toNat
    let high := addr + (v.m (sr + 1)).toNat
    let sc := v.scaleBase a win
    let rows := List.range (r.val + 1)
    let ps := rows.flatMap (fun i =>
      (if p then [⟨addr + i * str, 32⟩, ⟨high + i * (str / 2), 16⟩] else [⟨addr + i * str, 64⟩]) ++
      (match sc with | some e => [⟨e.1 + 4 * i, 4⟩] | none => []))
    if (if p then addr % 32 != 0 || str % 32 != 0 || high % 16 != 0 else addr % 64 != 0 || str % 64 != 0) ||
        (match sc with | some e => !e.2 | none => false) then .fault 0x1F
    else
      v.fetch s win t ps (rows.map (fun i =>
        ⟨i, if p then EngineRead.and2 planes (v.read s win (addr + i * str) 32) (v.read s win (high + i * (str / 2)) 16)
            else v.read s win (addr + i * str) 64,
          sc.map (fun e => v.read s win (e.1 + 4 * i) 4)⟩))) s

/-- Bits of an element under the size field Z of `tldt` and `bpop.t` (R307). -/
def zBits (z : Nat) : Nat := if z = 0 then 8 else if z = 1 then 16 else 4

/-- Tile row `r` of a transposed source of 512/zBits rows (R133, R311): element k is element r of source row k, which `elem` reads. -/
def transposedRow (z r : Nat) (elem : Nat → Nat → EngineRead) : EngineRead :=
  (List.range (512 / zBits z)).foldl (fun acc k => EngineRead.and2 (fun a e => a + e * 2 ^ (zBits z * k)) acc (elem k r)) (.value 0)

/-- Element `r` of a source row that begins at `addr`. -/
def SeqView.element (v : SeqView) (s : State) (win : Option Nat) (z addr r : Nat) : EngineRead :=
  if z = 2 then EngineRead.and2 (fun b _ => b / 16 ^ (r % 2) % 16) (v.read s win (addr + r / 2) 1) (.value 0)
  else v.read s win (addr + r * (zBits z / 8)) (zBits z / 8)

/-- `TLDT` (R311). -/
def execTldt (t : Fin 8) (a : Fin 16) (x : Bool) (w sr : Fin 16) (z : Fin 4) (s : State) : Out :=
  seqOp (fun v s =>
    let win := if x then some w.val else none
    let addr := if x then (v.m a).toNat else v.pair a
    let str := (v.m sr).toNat
    let sc := v.scaleBase a win
    let row := 8 * zBits z
    let ps := (List.range (512 / zBits z)).map (fun k => ⟨addr + k * str, row⟩) ++
      (match sc with | some e => (List.range 64).map (fun i => ⟨e.1 + 4 * i, 4⟩) | none => [])
    if addr % row != 0 || str % row != 0 || (match sc with | some e => !e.2 | none => false) then .fault 0x1F
    else
      v.fetch s win t ps ((List.range 64).map (fun i =>
        ⟨i, transposedRow z i (fun k r => v.element s win z (addr + k * str) r), sc.map (fun e => v.read s win (e.1 + 4 * i) 4)⟩))) s

/-! Accumulation (R135). -/

/-- Elements of a K-step of an operand class (Table 10.3). -/
def stepElems (fmt : Nat) : Nat :=
  match operandClass fmt with
  | some 1 => 32
  | some 2 => 128
  | _ => 64

/-- Element `k` of a 64-byte row; an FP6 code stands in the low bits of its container (R130). -/
def rowElem (fmt row k : Nat) : Nat :=
  match operandClass fmt with
  | some 1 => row / 2 ^ (16 * k) % 2 ^ 16
  | some 2 => row / 2 ^ (4 * k) % 16
  | _ => if fmt = 0x0E ∨ fmt = 0x0F then row / 2 ^ (8 * k) % 64 else row / 2 ^ (8 * k) % 256

/-- The integer of an exact integer value. -/
def Fp.int : Fp → Int
  | .num s m e => (if s then -1 else 1) * ((m * 2 ^ e.toNat : Nat) : Int)
  | _ => 0

/-- One element of a K-step: the accumulator's old pattern, the two rows and their scale words. -/
def stepElem (w : Word) (old rowA rowB scA scB : Nat) : Nat :=
  let fa := tcfgA w
  let fb := tcfgB w
  let prods := (List.range (stepElems fa)).map (fun k =>
    let p := ((valueOf fa (rowElem fa rowA k)).mul (valueOf fb (rowElem fb rowB k))).1
    if tcfgScaled w then
      ((p.mul (e8m0Decode (scA / 256 ^ (k / 32) % 256))).1.mul (e8m0Decode (scB / 256 ^ (k / 32) % 256))).1
    else p)
  if tcfgInt w then intCode 40 (satS40 (prods.foldl (fun a p => a + p.int) (signed 40 old)))
  else (fp40.pack .rne (exactSum .rne (fp40.decode old :: prods)).1).1

/-- A K-step over a whole logical accumulator. -/
def kStep (x : SeqCtx) (n : Nat) (rowA rowB scA scB : Nat → Nat) : SeqCtx :=
  { x with acc := (accElems x.tcfg).foldl (fun acc e =>
      let k := accIndex x.tcfg n e.1 e.2
      putAt 0 acc k (stepElem x.tcfg (getAt 0 acc k) (rowA e.1) (rowB e.2) (scA e.1) (scB e.2))) x.acc }

/-- A row of a tile register, and its scale area. -/
def SeqCtx.row (x : SeqCtx) (t i : Nat) : Nat := readLE x.tiles (t * 4096 + i * 64) 64
def SeqCtx.scale (x : SeqCtx) (t i : Nat) : Nat := readLE x.scales (t * 256 + i * 4) 4

/-- The tile registers of a B operand (R132). -/
def tilesOfB (w : Word) (tb : Nat) : List Nat := if tcfgNt w = 128 then [tb, tb + 1] else [tb]

/-- `MMA` (R135, R312). -/
def execMma (n : Fin 32) (a b : Fin 8) (s : State) : Out :=
  seqOp (fun v s =>
    let w := v.x.tcfg
    let tb := fun (j : Nat) => b.val + j / 64
    if !v.unitOk n || (tcfgNt w == 128 && b.val % 2 != 0) then .fault 0x1F
    else if (List.range (tcfgMt w)).any (fun i => getAt false v.x.tilePoison (a.val * 64 + i)) ||
        (List.range (tcfgNt w)).any (fun j => getAt false v.x.tilePoison (tb j * 64 + j % 64)) || v.accPoisoned n then .fault 0x0F
    else
      let x := kStep v.x n (v.x.row a) (fun j => v.x.row (tb j) (j % 64)) (v.x.scale a) (fun j => v.x.scale (tb j) (j % 64))
      v.next s { x with pins := x.pins.filter (fun p => !(a.val :: tilesOfB w b).contains p.2) }) s

/-- A format that `mmam` accepts (R313). -/
def notFp6 (f : Nat) : Bool := f != 0x0E && f != 0x0F

/-- The elements of a K-step whose rows met an error response are poisoned, all that the step updates (R401). -/
def SeqCtx.poisonStep (x : SeqCtx) (n : Nat) : SeqCtx :=
  { x with
    accPoison := (accElems x.tcfg).foldl (fun m e => putAt false m (accIndex x.tcfg n e.1 e.2) true) x.accPoison
    readErr := true }

/-- `MMAM` (R313): one K-step a turn; the remaining count stands in the context. -/
def execMmam (n : Fin 32) (a b c : Fin 16) (s : State) : Out :=
  seqOp (fun v s =>
    let w := v.x.tcfg
    let mt := tcfgMt w
    let total := (v.m c).toNat
    let baseA := v.pair a
    let baseB := v.pair b
    let k := if v.x.mmamLeft = 0 then 0 else total - v.x.mmamLeft
    let rs : List Range := [⟨baseA + k * mt * 64, mt * 64⟩, ⟨baseB + k * 4096, 4096⟩]
    if !v.unitOk n || tcfgNt w != 64 || tcfgScaled w || !notFp6 (tcfgA w) || !notFp6 (tcfgB w) ||
        baseA % 128 != 0 || baseB % 128 != 0 then .fault 0x1F
    else if total = 0 then v.next s v.x
    else if v.x.mmamLeft = 0 && (v.pieceBad s none permR ⟨baseA, total * mt * 64⟩ || v.pieceBad s none permR ⟨baseB, total * 4096⟩) then
      .fault 0x1F
    else if v.pinsBad (v.lines (rs.map (fun r => ⟨r.va, r.len⟩))) then .fault 0x1F
    else if v.x.mmamLeft = 0 && v.accPoisoned n then .fault 0x0F
    else
      let ra := (List.range mt).map (fun i => v.read s none (baseA + k * mt * 64 + i * 64) 64)
      let rb := (List.range 64).map (fun j => v.read s none (baseB + k * 4096 + j * 64) 64)
      if (ra ++ rb).any (fun e => e == .waits) then v.waitFor rs s
      else
        let row := fun (l : List EngineRead) (i : Nat) => (l.getD i (.value 0)).get
        let x := kStep v.x n (row ra) (row rb) (fun _ => 0) (fun _ => 0)
        let x := if (ra ++ rb).any EngineRead.isFail then x.poisonStep n else x
        let left := total - k - 1
        .done (v.set (v.hasRead permR rs s) { x with mmamLeft := left, pc := if left = 0 then v.x.pc + 4 else v.x.pc })) s

/-! The bobbin stack (R140, R315). -/

/-- Bytes of a tile entry. -/
def tileEntry (w : Word) : Nat := if tcfgScaled w then 4352 else 4096

/-- A push of `size` bytes that R140, R317 and R401 refuse. -/
def SeqView.pushBad (v : SeqView) (s : State) (size : Nat) : Bool :=
  v.x.bcell == 0 || decide (v.x.blimit < v.x.bptr + size) || v.x.bptr % 128 != 0 || v.pieceBad s none permW ⟨v.x.bptr, size⟩

/-- A pop of `size` bytes that R140, R317 and R401 refuse. -/
def SeqView.popBad (v : SeqView) (s : State) (size : Nat) : Bool :=
  v.x.bcell == 0 || decide (v.x.bptr < v.x.bbase + size) || v.x.bptr % 128 != 0 || v.pieceBad s none permR ⟨v.x.bptr - size, size⟩

/-- A write of the context into global memory at a checked address. -/
def SeqView.store (v : SeqView) (va size val mask : Nat) (s : State) : State :=
  sendStore v.access va ((rangeIa v.dom.ranges permW va).getD 0) size val mask s

/-- A write that leaves its column words poisoned (R401, Table 31.3). -/
def SeqView.storePoison (v : SeqView) (va size : Nat) (s : State) : State :=
  let ia := (rangeIa v.dom.ranges permW va).getD 0
  sendReq (dropL1 s v.core ia) (v.access.req s va ia size .poison)

/-- `BPUSH` (R315). -/
def execBpush (t : Fin 8) (s : State) : Out :=
  seqOp (fun v s =>
    let size := tileEntry v.x.tcfg
    if v.pushBad s size then .fault 0x1F
    else if (List.range 64).any (fun i => getAt false v.x.tilePoison (t.val * 64 + i)) then .fault 0x0F
    else
      let s := (List.range 64).foldl (fun s i => v.store (v.x.bptr + 64 * i) 64 (v.x.row t i) (ones 64) s) s
      let s := if size = 4352 then
          (List.range 64).foldl (fun s i => v.store (v.x.bptr + 4096 + 4 * i) 4 (v.x.scale t i) (ones 4) s) s
        else s
      v.next s { v.x with bptr := v.x.bptr + size }) s

/-- A pop of a tile entry whose rows `rowOf` forms from the entry's address. -/
def popTile (t : Nat) (rowOf : SeqView → State → Nat → Nat → EngineRead) : State → Out :=
  seqOp (fun v s =>
    let size := tileEntry v.x.tcfg
    if v.popBad s size then .fault 0x1F
    else
      let at' := v.x.bptr - size
      let rows := (List.range 64).map (fun i =>
        (⟨i, rowOf v s at' i, if size = 4352 then some (v.read s none (at' + 4096 + 4 * i) 4) else none⟩ : RowRead))
      let rs : List Range := [⟨at', size⟩]
      if rows.any (fun r => r.reads.any (fun e => e == .waits)) then v.waitFor rs s
      else
        let x := v.x.fillRows t rows
        v.next (v.hasRead permR rs s) { x with bptr := at' })

/-- `BPOP` (R315). -/
def execBpop (t : Fin 8) (s : State) : Out := popTile t (fun v s at' i => v.read s none (at' + 64 * i) 64) s

/-- `BPOP_T` (R315): source rows of 64 elements stand one after another in the entry. -/
def execBpopT (t : Fin 8) (z : Fin 4) (s : State) : Out :=
  popTile t (fun v s at' i => transposedRow z i (fun k r => v.element s none z (at' + k * 8 * zBits z) r)) s

/-! Barriers (R101, R128, R316). -/

/-- The errors of the context's earlier writes and reads, reported by `mbar.a` and `mhalt` (R401). -/
def SeqView.pendingFault (v : SeqView) : Option Nat :=
  if v.x.readErr then some 0x0F else if v.x.writeErr then some 0x10 else none

/-- `MBAR_A` (R128): its writes have entered the hoop when they were issued. -/
def execMbarA (n : Fin 16) (s : State) : Out :=
  seqOp (fun v s =>
    if !v.x.bmask.getLsbD n then .fault 0x1F
    else
      let bar := getAt Barrier.none v.b.bars n
      match v.pendingFault with
      | some c => .fault c
      | none =>
        if bar.seq then .wait s
        else
          let s := v.set s { v.x with barLast := putAt none v.x.barLast n (some bar.phase), pc := v.x.pc + 4 }
          let s := setBlock s v.x.block { v.b with bars := putAt Barrier.none v.b.bars n { bar with seq := true } }
          .done (completePhase s v.x.block n)) s

/-- `MBAR_W` (R128, R401): it waits for the phase of the pending arrival, or for the current one. -/
def execMbarW (n : Fin 16) (s : State) : Out :=
  seqOp (fun v s =>
    if !v.x.bmask.getLsbD n then .fault 0x1F
    else
      let phase := (getAt Barrier.none v.b.bars n).phase
      let pending := getAt none v.x.barLast n
      let (target, since) := match v.x.waiting with
        | some (_, p, t) => (p, t)
        | none => (pending.getD phase, s.dt)
      if target < phase then
        v.next s { v.x with waiting := none, barLast := if pending = some target then putAt none v.x.barLast n none else v.x.barLast }
      else if (partAt s v.part).barto ≠ 0 ∧ since + (partAt s v.part).barto ≤ s.dt then .fault 0x1F
      else .wait (v.set s { v.x with waiting := some (n.val, target, since) })) s

/-! Halting (R127, R128). -/

/-- The sequencer leaves its barriers as an exited group does, and its block may end. -/
def SeqView.leave (v : SeqView) (s : State) : State :=
  let s := v.set s { v.x with halted := true, haltWait := false, pc := v.x.pc + 4 }
  let s := modifyBlock s v.x.block (fun b => { b with bars := b.bars.map (fun e => (e.1, { e.2 with seq := false })) })
  blockCheck (completePhases s v.x.block) v.x.block

/-- `MHALT` (R127): it writes BPTR to its cell, then waits for every acknowledgement of the context; an error is raised in place of
retiring (R401). -/
def execMhalt (s : State) : Out :=
  seqOp (fun v s =>
    if v.x.haltWait ∨ v.x.bcell = 0 then
      if writesOut s v.x.block (s.nextId + 1) then .wait s
      else
        match v.pendingFault with
        | some c => .fault c
        | none => .done (v.leave s)
    else if v.x.readErr then .fault 0x0F
    else if v.x.bcell % 8 ≠ 0 ∨ v.pieceBad s none permW ⟨v.x.bcell, 8⟩ then .fault 0x1F
    else .wait (v.store v.x.bcell 8 v.x.bptr (ones 8) (v.set s { v.x with haltWait := true }))) s

end Sys2Proof.Machine
end

