-- ==== Sys2Proof/Machine/Drain.lean ====
section
/-! DEFINITION. The drain of an accumulator (R136, R137) and the optimizer update (R138, R139), with the fates of their errors (R401). -/

namespace Sys2Proof.Machine

/-! Records (R314). -/

/-- The record of `mdrain` or `mupd`: its bytes once it has been read, after the checks of the unit and the record's address; `f` goes on
from the bytes. -/
def withRecord (v : SeqView) (n r : Nat) (f : List Byte → SeqStep) (s : State) : SeqStep :=
  let va := v.pair r
  if !v.unitOk n || va % 64 != 0 || v.pieceBad s none permR ⟨va, 64⟩ then .fault 0x1F
  else
    match v.read s none va 64 with
    | .waits => v.waitFor [⟨va, 64⟩] s
    | .fails ia kind => .faultLog 0x0F ia kind
    | .value w => f (toBytes 64 w)

/-! The drain (Table 10.4). -/

structure DrainRec where
  dst    : Nat
  stride : Nat
  ofmt   : Nat
  bwd    : Bool
  push   : Bool
  win    : Bool
  tr     : Bool
  sat    : Bool
  wnum   : Nat
  slot   : Nat
  apply  : Bool
  scale  : Nat
  bias   : Nat
  pfmt   : Nat
deriving DecidableEq, Repr

def DrainRec.ofBytes (b : List Byte) : DrainRec :=
  let mode := fieldLE b 13 1
  let act := fieldLE b 15 1
  ⟨fieldLE b 0 8, fieldLE b 8 4, fieldLE b 12 1, bitOf mode 0, bitOf mode 1, bitOf mode 2, bitOf mode 3, bitOf mode 4,
    fieldLE b 14 1, act % 16, bitOf act 4, fieldLE b 16 8, fieldLE b 24 8, fieldLE b 32 1⟩

/-- Bits of an output element. -/
def outBits (fmt : Nat) : Nat :=
  if fmt = 0x00 ∨ fmt = 0x02 then 32 else if fmt = 0x03 ∨ fmt = 0x04 then 16 else if fmt = 0x10 then 4 else 8

/-- The fields keep Table 10.4. -/
def drainFieldsOk (b : List Byte) : Bool :=
  let d := DrainRec.ofBytes b
  decide (fieldLE b 13 1 < 32) && !(d.push && d.bwd) && decide (d.wnum < 16) && decide (fieldLE b 15 1 < 32) &&
  ([0x00, 0x02, 0x03, 0x04, 0x07, 0x10].contains d.ofmt || b8Code d.ofmt) && (d.pfmt == 0x02 || d.pfmt == 0x03) &&
  d.scale % 4 == 0 && d.bias % 4 == 0 && fieldLE b 33 31 == 0

/-- The descriptors of the launch. -/
def SeqView.lattices (v : SeqView) (s : State) : List (List Byte) := ((lookupAt s.runs v.b.run).map NodeRun.lattice).getD []

/-- With ACT[4] set the slot holds a kind-2 function table (R136). -/
def drainTableOk (v : SeqView) (s : State) (d : DrainRec) : Bool :=
  let b := (v.lattices s).getD d.slot []
  !d.apply || (decide (d.slot < (v.lattices s).length) && latticeValid b && (Lattice.ofBytes b).kind == 2)

/-- Bytes of an element of the pushed or popped entry, and of the entry (R140). -/
def pushSize (d : DrainRec) : Nat := if d.pfmt = 0x02 then 4 else 2
def drainEntry (w : Word) (d : DrainRec) : Nat := (tcfgMt w * tcfgNt w * pushSize d + 127) / 128 * 128

/-- The drain pops an entry. -/
def DrainRec.pops (d : DrainRec) : Bool := d.bwd && d.apply

/-- The ranges that the output covers: a row of output elements, or with TR a column. -/
def outPieces (w : Word) (d : DrainRec) : List Piece :=
  let (outer, inner) := if d.tr then (tcfgNt w, tcfgMt w) else (tcfgMt w, tcfgNt w)
  (List.range outer).map (fun o => ⟨d.dst + o * d.stride, inner * outBits d.ofmt / 8⟩)

/-- Where element (i, j) goes: its byte, and the bit in it. -/
def outPlace (d : DrainRec) (i j : Nat) : Nat × Nat :=
  let (o, k) := if d.tr then (j, i) else (i, j)
  (d.dst + o * d.stride + k * outBits d.ofmt / 8, k * outBits d.ofmt % 8)

/-- The faults that the record, its ranges and the bobbin stack raise at issue (R136, R314, R317, R401). -/
def drainBad (v : SeqView) (s : State) (b : List Byte) : Bool :=
  let d := DrainRec.ofBytes b
  let w := v.x.tcfg
  let z := max (outBits d.ofmt / 8) 1
  let vec := fun (va : Nat) => va != 0 && v.pieceBad s none permR ⟨va, 4 * tcfgNt w⟩
  !drainFieldsOk b || !drainTableOk v s d || d.dst % z != 0 || d.stride % z != 0 ||
  (outPieces w d).any (v.pieceBad s (if d.win then some d.wnum else none) permW) || vec d.scale || vec d.bias ||
  (d.push && v.pushBad s (drainEntry w d)) || (d.pops && v.popBad s (drainEntry w d))

/-- An element of a column vector, where the record names one. -/
def columnRead (v : SeqView) (s : State) (base j : Nat) : Option EngineRead :=
  if base = 0 then none else some (v.read s none (base + 4 * j) 4)

/-- A binary operation on reads of words. -/
def wordOp (f : Word → Word → Word) : EngineRead → EngineRead → EngineRead :=
  EngineRead.and2 (fun a b => (f (BitVec.ofNat 32 a) (BitVec.ofNat 32 b)).toNat)

/-- rne32 of an accumulator element (R71). -/
def accWord (x : SeqCtx) (n i j : Nat) : Word :=
  let a := getAt 0 x.acc (accIndex x.tcfg n i j)
  rne (if tcfgInt x.tcfg then Fp.ofInt (signed 40 a) else fp40.decode a)

/-- The pre-activation of element (i, j): scaled and biased (R137). -/
def preElem (v : SeqView) (s : State) (d : DrainRec) (n i j : Nat) : EngineRead :=
  let x := EngineRead.value (accWord v.x n i j).toNat
  let x := match columnRead v s d.scale j with | some e => wordOp mul32 x e | none => x
  match columnRead v s d.bias j with | some e => wordOp addf32 x e | none => x

/-- The popped element (i, j) as a binary32 pattern. -/
def poppedElem (v : SeqView) (s : State) (d : DrainRec) (i j : Nat) : EngineRead :=
  let at' := v.x.bptr - drainEntry v.x.tcfg d + (i * tcfgNt v.x.tcfg + j) * pushSize d
  match v.read s none at' (pushSize d) with
  | .value r => .value (if d.pfmt = 0x02 then r else r * 2 ^ 16)
  | e => e

/-- The function table. -/
def drainTable (v : SeqView) (s : State) (d : DrainRec) : Lattice := Lattice.ofBytes ((v.lattices s).getD d.slot [])

/-- The elements that the table is read at for an argument: number and address. -/
def tableElems (x : Lattice) (arg : Word) : List (Nat × Nat) := x.elements (((x.corners [arg]).getD []).filter Corner.used)

/-- The table's value, or its derivative, at an argument (R122, R125). -/
def tableAt (v : SeqView) (s : State) (x : Lattice) (grad : Bool) (arg : Word) : EngineRead :=
  match x.corners [arg] with
  | none => .value 0x7FC00000
  | some cs =>
    let cs := cs.filter Corner.used
    let rs := (x.elements cs).map (fun e => (e.1, engineRead s v.asker v.part v.dom (permL + permR) e.2 (elemSize x.fmt)))
    let elem := fun (k : Nat) => match rs.find? (fun e => e.1 == k) with | some (_, .value r) => some r | _ => none
    match rs.find? (fun e => e.2 == .waits), rs.find? (fun e => e.2.isFail) with
    | some _, _ => .waits
    | none, some (_, e) => e
    | none, none =>
      match (x.outs cs 0 true)[if grad then 1 else 0]? with
      | some o => .value ((o.result x.fmt x.e elem).getD 0).toNat
      | none => .value 0

/-- The argument of the table for element (i, j): the pre-activation, or the popped element. -/
def tableArg (v : SeqView) (s : State) (d : DrainRec) (n i j : Nat) : EngineRead :=
  if d.bwd then poppedElem v s d i j else preElem v s d n i j

/-- The table would be read outside its range entries or outside an edge that traps. -/
def tableBad (v : SeqView) (s : State) (d : DrainRec) (n : Nat) : Bool :=
  d.apply && (accElems v.x.tcfg).any (fun e =>
    match tableArg v s d n e.1 e.2 with
    | .value a =>
      let x := drainTable v s d
      let arg := BitVec.ofNat 32 a
      (match x.cells [arg] with
       | some cells => x.traps (x.feet cells)
       | none => false) ||
      (tableElems x arg).any (fun t => (rangeFail v.dom.ranges (permL + permR) t.2 (elemSize x.fmt)).isSome)
    | _ => false)

/-- The value that element (i, j) is written with, before its conversion. -/
def outElem (v : SeqView) (s : State) (d : DrainRec) (n i j : Nat) : EngineRead :=
  let x := preElem v s d n i j
  if !d.apply then x
  else
    match tableArg v s d n i j with
    | .value a =>
      let t := tableAt v s (drainTable v s d) d.bwd (BitVec.ofNat 32 a)
      if d.bwd then wordOp mul32 x t else t
    | e => e

/-- The code of a written element. -/
def outCode (d : DrainRec) (x : Nat) : Nat := (convertTo d.ofmt .rne d.sat false (f32 (BitVec.ofNat 32 x))).1

/-- The code of a pushed element. -/
def pushCode (d : DrainRec) (x : Nat) : Nat := if d.pfmt = 0x02 then x else (bf16.pack .rne (f32 (BitVec.ofNat 32 x))).1

/-- The output in a window: every element in its order; words of a poisoned element are poisoned (Table 31.3). -/
def drainWindow (v : SeqView) (d : DrainRec) (base : Nat) (outs : List (Nat × Nat × EngineRead)) (b : Block) : Block :=
  let bits := outBits d.ofmt
  let scratch := outs.foldl (fun m e =>
    let (a, k) := outPlace d e.1 e.2.1
    writeMasked m (base + a) (outCode d e.2.2.get * 2 ^ k) ((2 ^ bits - 1) * 2 ^ k) (max (bits / 8) 1)) b.scratch
  let clear := (outPieces v.x.tcfg d).flatMap (fun p => wholeWords (base + p.addr) p.len)
  let bad := outs.filterMap (fun e => if e.2.2.isFail then some ((base + (outPlace d e.1 e.2.1).1) / 4) else none)
  ({ b with scratch := scratch, poison := clear.foldl (fun m k => putAt false m k false) b.poison } : Block).poisonWords bad

/-- The output in memory, element by element. -/
def drainMemory (v : SeqView) (d : DrainRec) (outs : List (Nat × Nat × EngineRead)) (s : State) : State :=
  let bits := outBits d.ofmt
  outs.foldl (fun s e =>
    let (a, k) := outPlace d e.1 e.2.1
    if e.2.2.isFail then v.storePoison a (max (bits / 8) 1) s
    else v.store a (max (bits / 8) 1) (outCode d e.2.2.get * 2 ^ k) ((2 ^ bits - 1) * 2 ^ k) s) s

/-- The pushed entry, in row-major order. -/
def drainPush (v : SeqView) (d : DrainRec) (pres : List EngineRead) (s : State) : State :=
  (pres.zip (List.range pres.length)).foldl (fun s e =>
    let va := v.x.bptr + e.2 * pushSize d
    if e.1.isFail then v.storePoison va (pushSize d) s else v.store va (pushSize d) (pushCode d e.1.get) (ones (pushSize d)) s) s

/-- The ranges of memory that a drain reads under PR: the columns and the popped entry. -/
def drainReads (v : SeqView) (d : DrainRec) : List Range :=
  (if d.scale = 0 then [] else [⟨d.scale, 4 * tcfgNt v.x.tcfg⟩]) ++ (if d.bias = 0 then [] else [⟨d.bias, 4 * tcfgNt v.x.tcfg⟩]) ++
  (if d.pops then [⟨v.x.bptr - drainEntry v.x.tcfg d, drainEntry v.x.tcfg d⟩] else [])

/-- The elements of the function table that it reads. -/
def drainTableReads (v : SeqView) (s : State) (d : DrainRec) (n : Nat) : List Range :=
  if d.apply then
    (accElems v.x.tcfg).flatMap (fun e =>
      match tableArg v s d n e.1 e.2 with
      | .value a => (tableElems (drainTable v s d) (BitVec.ofNat 32 a)).map (fun t => ⟨t.2, elemSize (drainTable v s d).fmt⟩)
      | _ => [])
  else []

/-- `MDRAIN` (R136, R137, R314). -/
def execMdrain (n : Fin 32) (r : Fin 16) (s : State) : Out :=
  seqOp (fun v s => withRecord v n r (fun b =>
    let d := DrainRec.ofBytes b
    let w := v.x.tcfg
    if drainBad v s b then .fault 0x1F
    else if v.accPoisoned n then .fault 0x0F
    else if tableBad v s d n then .fault 0x1F
    else
      let pres := (accElems w).map (fun e => preElem v s d n e.1 e.2)
      let outs := (accElems w).map (fun e => (e.1, e.2, outElem v s d n e.1 e.2))
      let rs := drainReads v d
      let ts := drainTableReads v s d n
      if (pres ++ outs.map (fun e => e.2.2)).any (fun e => e == .waits) then v.waitFor (rs ++ ts) s
      else
        let bad := (pres ++ outs.map (fun e => e.2.2)).any EngineRead.isFail
        let s := v.hasRead (permL + permR) ts (v.hasRead permR rs s)
        let s := if d.push then drainPush v d pres s else s
        let s := if d.win then modifyBlock s v.x.block (drainWindow v d (v.window s d.wnum).1 outs) else drainMemory v d outs s
        v.next s { v.x with
          bptr := if d.push then v.x.bptr + drainEntry w d else if d.pops then v.x.bptr - drainEntry w d else v.x.bptr
          readErr := v.x.readErr || bad }) s) s

/-! The optimizer update (Table 10.5). -/

structure UpdateRec where
  w      : Nat
  stride : Nat
  rule   : Nat
  lr     : Word
  b1     : Word
  nb1    : Word
  b2     : Word
  nb2    : Word
  eps    : Word
  c1     : Word
  c2     : Word
  mb     : Nat
  vb     : Nat
deriving DecidableEq, Repr

def UpdateRec.ofBytes (b : List Byte) : UpdateRec :=
  let f := fun k => BitVec.ofNat 32 (fieldLE b k 4)
  ⟨fieldLE b 0 8, fieldLE b 8 4, fieldLE b 12 1, f 16, f 20, f 24, f 28, f 32, f 36, f 40, f 44, fieldLE b 48 8, fieldLE b 56 8⟩

/-- The tiles that a rule reads and writes: W, then M, then V. -/
def UpdateRec.tiles (u : UpdateRec) : List Nat :=
  match u.rule with
  | 0 => [u.w]
  | 1 => [u.w, u.mb]
  | _ => [u.w, u.mb, u.vb]

/-- The faults of an update record and its ranges (R314, R317). -/
def updateBad (v : SeqView) (s : State) (b : List Byte) : Bool :=
  let u := UpdateRec.ofBytes b
  decide (3 ≤ u.rule) || fieldLE b 13 3 != 0 || u.w % 4 != 0 || u.mb % 4 != 0 || u.vb % 4 != 0 || u.stride % 4 != 0 ||
  u.tiles.any (fun base => (List.range (tcfgMt v.x.tcfg)).any (fun i =>
    v.pieceBad s none (permR + permW) ⟨base + i * u.stride, 4 * tcfgNt v.x.tcfg⟩))

/-- The new W, M and V of an element (R139). -/
def updateElem (u : UpdateRec) (g w m x : Word) : List Word :=
  match u.rule with
  | 0 => [sub32 w (mul32 u.lr g)]
  | 1 =>
    let m' := addf32 (mul32 u.b1 m) g
    [sub32 w (mul32 u.lr m'), m']
  | _ =>
    let m' := addf32 (mul32 u.b1 m) (mul32 u.nb1 g)
    let v' := addf32 (mul32 u.b2 x) (mul32 u.nb2 (mul32 g g))
    let d := addf32 (fsqrt (mul32 v' u.c2)).1 u.eps
    [sub32 w (mul32 u.lr (div32 (mul32 m' u.c1) d)), m', v']

/-- `MUPD` (R138, R139, R314). -/
def execMupd (n : Fin 32) (r : Fin 16) (s : State) : Out :=
  seqOp (fun v s =>
    if tcfgInt v.x.tcfg then .fault 0x1F
    else
      withRecord v n r (fun b =>
        let u := UpdateRec.ofBytes b
        if updateBad v s b then .fault 0x1F
        else if v.accPoisoned n then .fault 0x0F
        else
          let place := fun (base i j : Nat) => base + i * u.stride + 4 * j
          let reads := (accElems v.x.tcfg).map (fun e =>
            (e.1, e.2, u.tiles.map (fun base => v.read s none (place base e.1 e.2) 4)))
          let all := reads.flatMap (fun e => e.2.2)
          let rs : List Range := u.tiles.flatMap (fun base => (List.range (tcfgMt v.x.tcfg)).map (fun i => ⟨base + i * u.stride,
              4 * tcfgNt v.x.tcfg⟩))
          if all.any (fun e => e == .waits) then v.waitFor rs s
          else
            let s := reads.foldl (fun s e =>
              let old := fun (k : Nat) => BitVec.ofNat 32 (e.2.2.getD k (.value 0)).get
              if e.2.2.any EngineRead.isFail then u.tiles.foldl (fun s base => v.storePoison (place base e.1 e.2.1) 4 s) s
              else
                (u.tiles.zip (updateElem u (accWord v.x n e.1 e.2.1) (old 0) (old 1) (old 2))).foldl
                  (fun s t => v.store (place t.1 e.1 e.2.1) 4 t.2.toNat (ones 4) s) s) (v.hasRead permR rs s)
            v.next s { v.x with readErr := v.x.readErr || all.any EngineRead.isFail }) s) s

end Sys2Proof.Machine
end

