-- ==== Sys2Proof/Machine/Launch.lean ====
section
/-! DEFINITION. Launching and placing work (R185 to R189, R192, R193, R195, R381): launch words, node starts, the block dispatcher, tasks, and
the start of a sequencer context (R126, R140). -/

namespace Sys2Proof.Machine

/-! Graphs (Table 14.1). -/

/-- A node entry of 128 bytes, with the graph's successor list. -/
def NodeEntry.ofBytes (b : List Byte) (succs : List Nat) : NodeEntry :=
  { entry := fieldLE b 0 8, blocks := fieldLE b 8 4, groups := fieldLE b 12 1, regs := fieldLE b 13 1, uregs := fieldLE b 14 1,
    scratch := fieldLE b 15 1, prio := fieldLE b 16 1, hint := fieldLE b 17 1, nacc := fieldLE b 18 1, npred := fieldLE b 19 1,
    bmask := fieldLE b 20 2, soff := fieldLE b 22 2, seqEntry := fieldLE b 24 8, cbImg := fieldLE b 32 8, cbLen := fieldLE b 40 4,
    argOff := fieldLE b 44 2, argLen := fieldLE b 46 2, latN := fieldLE b 48 1, pklN := fieldLE b 49 1, wlN := fieldLE b 50 1,
    succs := (succs.drop (fieldLE b 52 4)).take (fieldLE b 51 1), tables := fieldLE b 56 8, wlva := fieldLE b 64 8 }

/-- The number of a function's graph in the table of graphs. -/
def graphKey (fn handle : Nat) : Nat := fn * 2 ^ 16 + handle

/-! Launch words (R185, R186, R381). -/

/-- The function's graph launches whose record is still to be written. -/
def outstandingLaunches (s : State) (fn : Nat) : Nat := (s.launches.filter (fun e => e.2.fn == fn)).length

/-- Work refused before it began: its record carries the STATUS. -/
def refuseWork (s : State) (fn handle kind : Nat) (status tag : Word) : State :=
  pushRecord s fn ⟨handle, kind, status, tag, s.dt, 0, none⟩

/-- A node of a new launch. -/
def newRun (graph node : Nat) (e : NodeEntry) : NodeRun :=
  ⟨graph, node, e, .waiting, 0, none, 0, [], [], [], [], 0, 0, 0, [], 0⟩

/-- A graph launch begins: its nodes without predecessors become ready. -/
def beginLaunch (s : State) (fn part dom handle arg : Nat) (tag : Word) (g : Graph) : State :=
  let (l, s) := takeId s
  let nodes := g.nodes.zip (List.range g.nodes.length)
  let ids := nodes.map (fun e => s.nextId + e.2)
  let s := { s with
    nextId := s.nextId + nodes.length
    runs := nodes.foldl (fun m e => setAt m (s.nextId + e.2) (newRun l e.2 e.1)) s.runs
    launches := setAt s.launches l
      { fn := fn, part := part, dom := dom, handle := handle, arg := arg, tag := tag, start := s.dt, runs := ids, first := none,
        firstAt := 0, thermal := false, saveFail := false, reset := false, maxT := 0, done := false, flushed := [] } }
  readyNodes s l

/-- `LAUNCH_WORD` (R185, R359): a launch in the domain of the function's binding; handle in bits [15:0], the argument buffer's VA / 16
in the rest; a word of a function that is not bound does nothing. -/
def execLaunchWord (fn : Nat) (w : BitVec 64) (s : State) : Out :=
  eventOp (fun s =>
    let handle := w.toNat % 2 ^ 16
    let tag := BitVec.ofNat 32 (w.toNat / 2 ^ 16)
    match s.linkUp, (fnAt s fn).bound with
    | true, some (part, dom) =>
      match lookupAt s.graphs (graphKey fn handle) with
      | none => refuseWork s fn handle 0 0x01 tag
      | some g =>
        if 64 ≤ outstandingLaunches s fn then refuseWork s fn handle 0 0x02 tag
        else beginLaunch s fn part dom handle (w.toNat / 2 ^ 16 * 16) tag g
    | _, _ => s) s

/-! Node starts (R185, R381). -/

/-- A work-list descriptor (Table 20.7). -/
def WorkList.ofBytes (b : List Byte) : WorkList :=
  let spill := fieldLE b 0 8
  let cap := fieldLE b 8 4
  let kind := fieldLE b 12 1
  ⟨spill, cap, kind,
    spill % 128 != 0 || !((List.range 15).any (fun i => cap == 2 ^ (10 + i))) || decide (1 < kind) || fieldLE b 13 19 != 0, [], []⟩

/-- `n` pieces of `k` bytes. -/
def pieces (b : List Byte) (k n : Nat) : List (List Byte) := (List.range n).map (fun i => (b.drop (k * i)).take k)

/-- Reads of the launch unit and of firmware are logged for an engine of the IOD (Table 31.1). -/
def logFirmware (s : State) (part dom ia kind : Nat) : State := logError s (logStack s part ia) ⟨ia, dom, 0xFF, 63, kind, s.dt⟩

def VaRead.failed (r : VaRead) : Bool :=
  match r with
  | .denied => true
  | .fails _ _ => true
  | _ => false

def VaRead.data (r : VaRead) : List Byte :=
  match r with
  | .bytes b => b
  | _ => []

/-- The constant bank: the image, then the arguments over it (R185). -/
def fillBank (e : NodeEntry) (img args : List Byte) : Assoc Byte :=
  writeBytes (writeBytes [] 0 img) e.argOff args

/-- A node starts with what was read: its bank, its descriptors, its work lists, and the next LAUNCHID. -/
def startRunOf (s : State) (run : Nat) (x : NodeRun) (part : Nat) (img args tables lists : List Byte) : State :=
  let e := x.entry
  let p := partAt s part
  let s := setPart s part { p with launchCtr := p.launchCtr + 1 }
  { s with runs := setAt s.runs run { x with
      stage := .running
      launchId := p.launchCtr
      bank := fillBank e img args
      lattice := pieces tables 64 e.latN
      pkl := pieces (tables.drop (64 * e.latN)) 128 e.pklN
      lists := (pieces lists 32 e.wlN).map WorkList.ofBytes } }

/-- A node refused at its start: it is the launch's event, and no later node of the launch becomes ready (R381). -/
def refuseNode (s : State) (run : Nat) (x : NodeRun) (code : Nat) : State :=
  let s := { s with runs := setAt s.runs run { x with stage := .refused } }
  launchCheck (launchEvent s x.graph code) x.graph

/-- Every write of a node's groups, commands and sequencers is performed, and DT has passed the largest of their completion times by the
skew margin (R109). -/
def runVisible (s : State) (x : NodeRun) : Bool :=
  x.uids.all (fun u => !writesOut s u (s.nextId + 1) && s.cmds.all (fun c => c.2.uid != u)) && (x.maxT == 0 || decide (x.maxT + 4 ≤ s.dt))

/-- The predecessors of a node in its launch. -/
def predecessors (s : State) (l : GraphLaunch) (node : Nat) : List NodeRun :=
  ((runsOf s l).map Prod.snd).filter (fun p => p.entry.succs.contains node)

/-- `NODE_START` (R109, R185, R381): once the writes of its predecessors are visible, a ready node's image, arguments and tables are
read. -/
def execNodeStart (launch node : Nat) (s : State) : Out :=
  eventOp (fun s =>
    match lookupAt s.launches launch with
    | none => s
    | some l =>
      match (runsOf s l).find? (fun r => r.2.node == node && r.2.stage == .ready) with
      | none => s
      | some (run, x) =>
        let e := x.entry
        let d := domReg s l.part l.dom
        let who := iodAsker (2 ^ 64 + run)
        let rs : List Range :=
          [⟨l.arg, e.argLen⟩, ⟨e.cbImg, e.cbLen⟩, ⟨e.tables, 64 * e.latN + 128 * e.pklN⟩, ⟨e.wlva, 32 * e.wlN⟩]
        let read := fun (i : Nat) => let r := rs.getD i ⟨0, 0⟩; readVa s who l.part d permR r.va r.len
        let all := (List.range 4).map read
        if !(predecessors s l node).all (runVisible s) then s
        else if all.any (fun r => r == .waits) then askRanges who l.part d rs s
        else
          let s := rangesRead s who l.part d rs
          if all.any VaRead.failed then
            refuseNode (all.foldl (fun s r => logVa s l.part l.dom r) s) run x (if (read 0).failed then 0x03 else 0x04)
          else startRunOf s run x l.part (read 1).data (read 0).data (read 2).data (read 3).data) s

/-! Fitting a block on a core (R187). -/

/-- What a block or task asks for; `regs` and `uregs` are granules of a group, `scratch` granules of 4 KiB. -/
structure Shape where
  groups  : Nat
  regs    : Nat
  uregs   : Nat
  scratch : Nat
  nacc    : Nat
deriving DecidableEq, Repr

def NodeEntry.shape (e : NodeEntry) : Shape := ⟨e.groups, e.regs, e.uregs, e.scratch, e.nacc⟩
def Task.shape (t : Task) : Shape := ⟨t.groups, t.regs, t.uregs, t.scratch, 0⟩

def freeSlots (s : State) (core : Nat) : List Nat := (List.range 32).filter (fun q => (groupAt s core q).isNone)

/-- The groups resident in the slots of a core. -/
def groupsOn (s : State) (core : Nat) : List Group := (List.range 32).filterMap (fun q => groupAt s core q)

/-- Vector granules that resident or draining groups hold. -/
def granulesUsed (s : State) (core : Nat) : Nat :=
  ((groupsOn s core).map (fun g => g.nv / 8)).sum + ((coreAt s core).draining.map Draining.granules).sum

/-- The blocks resident on a core. -/
def blocksOn (s : State) (core : Nat) : List (Nat × Block) := s.blocks.filter (fun e => e.2.core == core)

/-- Bytes that the carve-out may reach. -/
def carveLimit : Nat := 458752

/-- The lowest place of a run of `size` bytes among the allocations of some blocks (R79, R82; which place is log 56). -/
def scratchPlace (bs : List Block) (size : Nat) : Option Nat :=
  (0 :: bs.map (fun b => b.scratchBase + b.scratchSize)).filter (fun base =>
    decide (base + size ≤ carveLimit) && bs.all (fun b => !overlap base size b.scratchBase b.scratchSize)) |>.min?

/-- The carve-out follows the allocations of a core: it grows or shrinks at its top, and the lines of ways that it reclaims from L1 are
dropped (R82; log 56). -/
def fitCarve (s : State) (core : Nat) : State :=
  let ways := ((blocksOn s core).map (fun e => (e.2.scratchBase + e.2.scratchSize + 65535) / 65536)).foldl max 0
  { setCore s core { coreAt s core with carve := ways } with
    l1 := s.l1.filter (fun e => e.1 / 2 ^ 45 != core || decide (ways ≤ e.2.way)) }

/-- Free contexts and free accumulator units of a core. -/
def freeContexts (s : State) (core : Nat) : List Nat := (List.range 4).filter (fun k => (lookupAt s.seqs (core * 4 + k)).isNone)

def freeUnits (s : State) (core : Nat) : List Nat :=
  let used := (List.range 4).flatMap (fun k => ((lookupAt s.seqs (core * 4 + k)).map SeqCtx.units).getD [])
  (List.range 32).filter (fun u => !used.contains u)

/-- A core of a partition that may take work at all. -/
def coreUsable (s : State) (part core : Nat) : Bool :=
  (partAt s part).cores.contains core && !(coreAt s core).fenced && !(coreAt s core).fencing && !dieStopped s (dieOfCore core)

def fits (s : State) (core : Nat) (x : Shape) : Bool :=
  decide (x.groups ≤ (freeSlots s core).length) && decide (granulesUsed s core + x.groups * x.regs ≤ 256) &&
    (scratchPlace ((blocksOn s core).map Prod.snd) (4096 * x.scratch)).isSome &&
    (x.nacc == 0 || (!(freeContexts s core).isEmpty && decide (x.nacc ≤ (freeUnits s core).length)))

/-! Choosing a core (R187). -/

/-- The first key: 0 in the preferred sector, 1 on its die, 2 elsewhere; without a preference all are equal. -/
def sectorKey (p : Part) (hint core : Nat) : Nat :=
  if !p.stacks.contains hint then 0
  else if sectorOfCore core = hint then 0 else if dieOfCore core = dieOfStack hint then 1 else 2

/-- The keys of a core, ascending. -/
def coreKey (s : State) (part hint core : Nat) : Nat :=
  (sectorKey (partAt s part) hint core * 33 + (32 - (freeSlots s core).length)) * 256 + core

/-- The element with the least key. -/
def least {α : Type} (key : α → Nat) : List α → Option α
  | [] => none
  | x :: t =>
    match least key t with
    | none => some x
    | some y => if key x ≤ key y then some x else some y

/-- A core is reserved for the next block of another run (R189); a task or a saved block is of no run here, so that any reservation keeps it
away. -/
def reservedFor (s : State) (part : Nat) (run : Option Nat) (core : Nat) : Bool :=
  (partAt s part).reserved.any (fun e => e.2 == core && run != some e.1)

/-- The core on which a block of a run is placed. -/
def chooseCore (s : State) (part run hint : Nat) (x : Shape) : Option Nat :=
  least (coreKey s part hint)
    ((partAt s part).cores.filter (fun c => coreUsable s part c && !reservedFor s part (some run) c && fits s c x))

/-! Placing a block (R30, R187). -/

/-- A group at its start (R30, R47, R49). -/
def newGroup (uid bid gid : Nat) (x : Shape) (d : DomReg) (entry : Nat) (arg : Word) : Group :=
  let g : Group :=
    { uid := uid, block := some bid, gid := gid, nv := 8 * x.regs, ns := 16 * x.uregs, v := [], s := [], p := [], q := [], counts := [],
      flagErr := 0, fpm := 0, fpf := 0, nfv := 0x2C, cbwin := 0, gmode := 0, srOlds := [], fpfReady := 0, rh := 0, dom := d,
          storeErr := none,
      strands := List.replicate 8 (Strand.start (evenPc (BitVec.ofNat 64 entry))), bars := [], flash := none, regionOpen := false,
      pricking := false, calls := [], stop := .running, serves := none, control := 0 }
  g.setS 0 ⟨arg, true, false, []⟩

/-- A context at its placement (R126). -/
def newSeq (bid nacc bmask : Nat) (units : List Nat) (entry : Nat) : SeqCtx :=
  { block := bid, started := false, units := units, nacc := nacc, bmask := BitVec.ofNat 16 bmask, pc := BitVec.ofNat 64 entry, m := [],
    tcfg := tcfgReset, tiles := [], scales := [], acc := [], bptr := 0, bbase := 0, blimit := 0, bcell := 0, mmamLeft := 0,
    haltWait := false, halted := false, pins := [], tilePoison := [], accPoison := [], writeErr := false, readErr := false,
    barLast := [], waiting := none, fault := none }

/-- What is placed: the run, its number in BLOCKID, whether it is a task, its shape, entry, argument word, domain and priority, and the
barrier mask and entry of its sequencer, and the stack of its preferred sector. -/
structure Incoming where
  run   : Nat
  bid   : Nat
  task  : Bool
  shape : Shape
  entry : Nat
  arg   : Word
  dom   : DomReg
  prio  : Nat
  bmask : Nat
  seqEntry : Nat
  hint  : Nat
deriving DecidableEq, Repr

/-- A block with all its groups appears on a core that it fits. -/
def placeBlock (s : State) (core : Nat) (x : Incoming) : State :=
  let (id, s) := takeId s
  let slots := (freeSlots s core).take x.shape.groups
  let ctx := if x.shape.nacc = 0 then none else (freeContexts s core).head?
  let b : Block :=
    { run := x.run, bid := x.bid, task := x.task, core := core, slots := slots, groups := x.shape.groups, regs := x.shape.regs,
      uregs := x.shape.uregs, scratchBase := (scratchPlace ((blocksOn s core).map Prod.snd) (4096 * x.shape.scratch)).getD 0,
      scratchSize := 4096 * x.shape.scratch, nacc := x.shape.nacc, ctx := ctx, windows := [], scratch := [], poison := [], engine := [],
      bars := [], prio := x.prio, placed := s.dt, order := id, hint := x.hint, kept := false, preempt := .none, seqFault := none,
          leaving := [] }
  let s := fitCarve (setBlock s id b) core
  let s := match ctx with
    | some k =>
      let q := newSeq id x.shape.nacc x.bmask ((freeUnits s core).take x.shape.nacc) x.seqEntry
      { s with seqs := setAt s.seqs (core * 4 + k) q }
    | none => s
  let s := noteUid s x.run id
  (slots.zip (List.range slots.length)).foldl (fun s e =>
    let (uid, s) := takeId s
    setGroup (noteUid s x.run uid) core e.1 (newGroup uid id e.2 x.shape x.dom x.entry x.arg)) s

/-! The dispatcher (R187, R189, R195). -/

/-- The runs of a partition with blocks to place. -/
def placeable (s : State) (part : Nat) : List (Nat × NodeRun) :=
  s.runs.filter (fun r => r.2.stage == .running && decide (r.2.nextBlock < r.2.entry.blocks) &&
    (match lookupAt s.launches r.2.graph with
     | some l => l.part == part
     | none => false))

/-- Before in the dispatcher's order: higher priority, then longer ready, then the lower number. -/
def runBefore (a b : Nat × NodeRun) : Bool :=
  let pa := a.2.entry.prio % 8
  let pb := b.2.entry.prio % 8
  decide (pb < pa) || (pa == pb && (decide (a.2.readyAt < b.2.readyAt) || (a.2.readyAt == b.2.readyAt && decide (a.1 ≤ b.1))))

/-- The first run of a list in the dispatcher's order. -/
def firstRun : List (Nat × NodeRun) → Option (Nat × NodeRun)
  | [] => none
  | x :: t =>
    match firstRun t with
    | none => some x
    | some y => if runBefore x y then some x else some y

def chooseFor (s : State) (part : Nat) (r : Nat × NodeRun) : Option Nat := chooseCore s part r.1 r.2.entry.hint r.2.entry.shape

/-- What an instruction of a group waits for is parked at a page. -/
def probing (s : State) (uid : Nat) : Bool :=
  s.net.any (fun e => e.2.kind.isPull && e.2.src.uid == uid && (match e.2.state with | .parked _ _ => true | _ => false))

/-- A saved block whose groups wait for no page (R178). -/
def savedReady (s : State) (x : SavedBlock) : Bool := x.groups.all (fun g => !readsOut s g.uid (s.nextId + 1) && !probing s g.uid)

/-- What a saved block asks for of a core. -/
def SavedBlock.shape (x : SavedBlock) : Shape :=
  ⟨x.groups.length, x.block.regs, x.block.uregs, x.block.scratchSize / 4096, x.block.nacc⟩

/-- A core that could take a saved block (R189, R195). -/
def restorable (s : State) (x : SavedBlock) (core : Nat) : Bool :=
  coreUsable s x.part core && !reservedFor s x.part none core && fits s core x.shape

/-- A saved block of a level at or above `prio` could be restored: it goes first, since it heads its level (R187, R195). -/
def restoreFirst (s : State) (part prio : Nat) : Bool :=
  s.saved.any (fun e => e.2.part == part && savedReady s e.2 && decide (prio ≤ e.2.block.prio) &&
    (partAt s part).cores.any (restorable s e.2))

/-- The head node cannot place its next block: it is blocked from now on (R189). -/
def noteBlocked (s : State) (part : Nat) : State :=
  match firstRun (placeable s part) with
  | none => s
  | some r =>
    if (chooseFor s part r).isNone && r.2.blockedSince.isNone then
      { s with runs := setAt s.runs r.1 { r.2 with blockedSince := some s.dt } }
    else s

/-- `BLOCK_PLACE` (R187): the first node in the dispatcher's order of which a block fits places it; one block a tick. -/
def execBlockPlace (part : Nat) (s : State) : Out :=
  eventOp (fun s =>
    let s := noteBlocked s part
    match firstRun ((placeable s part).filter (fun r => (chooseFor s part r).isSome)) with
    | none => s
    | some (run, r) =>
      match chooseFor s part (run, r), lookupAt s.launches r.graph with
      | some core, some l =>
        if (partAt s part).placedAt = some s.dt ∨ restoreFirst s part (r.entry.prio % 8) then s
        else
          let e := r.entry
          let p := partAt s part
          let s := setPart s part { p with
            placedAt := some s.dt
            reserved := p.reserved.filter (fun e => e.1 != run) }
          let s := { s with runs := setAt s.runs run { r with nextBlock := r.nextBlock + 1, live := r.live + 1, blockedSince := none } }
          placeBlock s core ⟨run, r.nextBlock, false, e.shape, e.entry, 0, domReg s part l.dom, e.prio % 8, e.bmask, e.seqEntry, e.hint⟩
      | _, _ => s) s

/-- SCHEDCTL (Table 14.2). -/
def Part.polite (p : Part) : Nat := p.schedctl.toNat % 2 ^ 24
def Part.reserve (p : Part) : Nat := p.schedctl.toNat / 2 ^ 32 % 2 ^ 24

/-- A polite request to a block that is not being pre-empted (R194, R198). -/
def beginPolite (s : State) (bid : Nat) : State :=
  modifyBlock s bid (fun b => if b.preempt = .none then { b with preempt := .polite s.dt } else b)

/-- The state without a block and its groups, for asking what would fit then. -/
def withoutBlock (s : State) (bid : Nat) : State :=
  match blockAt s bid with
  | none => s
  | some b =>
    let s := b.slots.foldl (fun s q => match groupAt s b.core q with
      | some g => if g.block = some bid then dropGroup s b.core q else s
      | none => s) s
    { s with
      blocks := eraseAt s.blocks bid
      seqs := match b.ctx with | some k => eraseAt s.seqs (b.core * 4 + k) | none => s.seqs }

/-- Blocks of lower priority on a core, in the order of eviction: lowest priority first, then the most recently placed (R195). -/
def victims (s : State) (core prio : Nat) : Nat → List Nat
  | 0 => []
  | n + 1 =>
    match least (fun e : Nat × Block => e.2.prio * 2 ^ 80 + (2 ^ 80 - 1 - min (2 ^ 80 - 1) e.2.order))
        ((blocksOn s core).filter (fun e => decide (e.2.prio < prio) && !e.2.kept)) with
    | none => []
    | some e => e.1 :: victims (withoutBlock s e.1) core prio n

/-- The shortest start of the eviction order after which the block fits; none where no eviction helps. -/
def evictions (s : State) (core : Nat) (x : Shape) : List Nat → Option (List Nat)
  | [] => if fits s core x then some [] else none
  | v :: vs => if fits s core x then some [] else (evictions (withoutBlock s v) core x vs).map (fun l => v :: l)

/-- Blocks of lower priority that hold what a run lacks on its core are asked to leave (R195). -/
def evictFor (s : State) (core : Nat) (r : NodeRun) : State :=
  match evictions s core r.entry.shape (victims s core (r.entry.prio % 8) 32) with
  | some vs => vs.foldl beginPolite s
  | none => s

/-- `RESERVE_TIMEOUT` (R189, R195): a head node blocked for RESERVE ticks reserves the core it would choose if resources were free; as long
as it waits there, blocks of lower priority that hold what it lacks are asked to leave. -/
def execReserveTimeout (part : Nat) (s : State) : Out :=
  eventOp (fun s =>
    match firstRun (placeable s part) with
    | none => s
    | some (run, r) =>
      match r.blockedSince with
      | none => s
      | some t =>
        let p := partAt s part
        if s.dt < t + p.reserve then s
        else
          match p.reserved.find? (fun e => e.1 == run) with
          | some e => evictFor s e.2 r
          | none =>
            match least (coreKey s part r.entry.hint)
                (p.cores.filter (fun c => coreUsable s part c && !reservedFor s part (some run) c)) with
            | none => s
            | some core => evictFor (setPart s part { p with reserved := p.reserved ++ [(run, core)] }) core r) s

/-! Tasks (R192, R193). -/

/-- The places of `n` things from number `k` on, cyclically after its own. -/
def cyclicAfter (base n k : Nat) : List Nat := (List.range (n - 1)).map (fun i => base + (k + 1 + i) % n)

/-- The cores that a core steals from, in order: its sector, its die's other sectors, the other dies of the partition (R193). -/
def stealOrder (p : Part) (core : Nat) : List Nat :=
  let sector := sectorOfCore core
  let die := dieOfCore core
  let coresOf := fun (k : Nat) => (List.range 16).map (fun i => 16 * k + i)
  let sectorsOf := fun (d : Nat) => (List.range 3).map (fun i => 3 * d + i)
  cyclicAfter (16 * sector) 16 (core % 16) ++ (cyclicAfter (3 * die) 3 (sector % 3)).flatMap coresOf ++
    (((cyclicAfter 0 4 die).filter (fun d => p.dies.contains d)).flatMap sectorsOf).flatMap coresOf

/-- A task starts on a core. -/
def placeTask (s : State) (core : Nat) (t : Task) : State :=
  placeBlock s core ⟨t.run, t.bid, true, t.shape, t.entry, t.arg, t.dom,
      ((lookupAt s.runs t.run).map (fun r => r.entry.prio % 8)).getD 0, 0, 0,
    sectorOfCore t.core⟩

/-- `TASK_STEAL` (R43, R193): the bottom task of the core's own deque, or where that is empty the top task of the first deque of which it
fits. -/
def execTaskSteal (core : Nat) (s : State) : Out :=
  eventOp (fun s =>
    match partOfCore s core with
    | none => s
    | some part =>
      if !coreUsable s part core then s
      else
        let may := fun (t : Task) => fits s core t.shape && !reservedFor s part none core
        match (coreAt s core).bottomTask with
        | some t => if may t then placeTask (setCore s core (coreAt s core).popBottom) core t else s
        | none =>
          match (stealOrder (partAt s part) core).find? (fun c =>
              match (coreAt s c).deque with
              | t :: _ => may t
              | [] => false) with
          | none => s
          | some c =>
            match (coreAt s c).deque with
            | t :: _ => placeTask (setCore s c (coreAt s c).popTop) core t
            | [] => s) s

/-! The sequencer's start (R126, R140). -/

/-- The start record of a context from its launch's bank. -/
def startRecord (s : State) (b : Block) : List Byte :=
  match lookupAt s.runs b.run with
  | some r => readBytes r.bank r.entry.soff 96
  | none => []

/-- `SEQUENCER_START` (R126, R140): the context reads its start record and its cell; a cell that cannot be read is a sequencer fault. -/
def execSequencerStart (core ctx : Nat) (s : State) : Out :=
  eventOp (fun s =>
    match seqView s core ctx with
    | none => s
    | some v =>
      if v.x.started || v.b.seqFault.isSome then s
      else
        let rec96 := startRecord s v.b
        let bcell := fieldLE rec96 80 8
        let x := { v.x with
          started := true
          m := (List.range 16).foldl (fun m i => putAt 0 m i (BitVec.ofNat 32 (fieldLE rec96 (4 * i) 4))) []
          bbase := fieldLE rec96 64 8
          blimit := fieldLE rec96 72 8
          bcell := bcell }
        if bcell = 0 then v.set s x
        else
          match readVa s v.asker v.part v.dom permR bcell 8 with
          | .bytes bs => v.set (v.hasRead permR [⟨bcell, 8⟩] s) { x with bptr := ofBytes bs }
          | .denied => seqFault v 0x1F [] s
          | .fails ia k => seqFault v 0x0F [(ia, k)] s
          | .waits => askRanges v.asker v.part v.dom [⟨bcell, 8⟩] s) s

end Sys2Proof.Machine
end

