-- ==== Sys2Proof/Machine/Mapping.lean ====
section
/-! DEFINITION. The mapping service (R176, R177), page-in (R178, R391), page retirement (R19, R177), and unmaps that wait for pins (R390). -/

namespace Sys2Proof.Machine

/-! Page tables (R173). -/

/-- A leaf that is present, of a class. -/
def leafPte (pa cls : Nat) : Nat := 7 + cls * 2 ^ 3 + pa / 2 ^ 8 * 2 ^ 8

/-- A pointer to a table. -/
def pointerPte (pa : Nat) : Nat := 3 + pa / 2 ^ 8 * 2 ^ 8

/-- A page-table entry written at a physical address. -/
def writePte (s : State) (stack pa e : Nat) : State := { s with mem := writeBytes s.mem (physKey stack pa) (toBytes 8 e) }

/-- A piece of memory for a table, cleared (log 22); none where its page is assigned to a domain. -/
def newTable (s : State) (stack : Nat) : Option (State × Nat) :=
  let x := stackAt s stack
  let pa := Config.rowCount * 2 ^ 21 - 4096 * (x.tables + 1)
  if (ownerOf s stack pa).isSome then none
  else
    let s := { s with stackRegs := putAt Stack.reset s.stackRegs stack { x with tables := x.tables + 1 } }
    some ({ s with mem := writeBytes s.mem (physKey stack pa) (List.replicate 4096 0) }, pa)

/-- The table that an entry points to, made where the entry is empty; none where the entry is a leaf or no piece is to be had. -/
def tableAtEntry (s : State) (stack a : Nat) : Option (State × Nat) :=
  let e := readPte s stack a
  if isPointer e then some (s, pteAddr e)
  else if bitOf e 0 then none
  else
    match newTable s stack with
    | none => none
    | some (s, pa) => some (writePte s stack a (pointerPte pa), pa)

/-- A leaf installed for a stack-local address. -/
def installLeaf (s : State) (stack loc size pa cls : Nat) : Option State :=
  match tableAtEntry s stack (entryAt (tableBase s stack) loc 1) with
  | none => none
  | some (s, t2) =>
    if size = 2 ^ 21 then some (writePte s stack (entryAt t2 loc 2) (leafPte pa cls))
    else
      match tableAtEntry s stack (entryAt t2 loc 2) with
      | none => none
      | some (s, t3) => some (writePte s stack (entryAt t3 loc 3) (leafPte pa cls))

/-! Requests (R176). -/

def MapReq.pageSize (r : MapReq) : Nat := if bitOf r.size.toNat 0 then 2 ^ 21 else 2 ^ 16
def MapReq.cls (r : MapReq) : Nat := r.size.toNat / 2 ^ 4 % 2 ^ 4

/-- The pages of a request: its home stack, which is the partition's, and the stack-local address of each (R9; log 22); none where IA or
COUNT is not admissible. -/
def MapReq.pages (r : MapReq) (p : Part) : Option (Nat × List Nat) :=
  match homeStack p r.ia with
  | none => none
  | some (stack, loc) =>
    if p.stacks.contains stack ∧ r.ia < 2 ^ 52 ∧ loc % r.pageSize = 0 ∧ 1 ≤ r.count.toNat ∧ r.count.toNat ≤ 65536 then
      some (stack, (List.range r.count.toNat).map (fun i => loc + i * r.pageSize))
    else none

/-- The IA of the 4 KiB piece at a stack-local address (R76). -/
def iaOfLocal (p : Part) (stack loc : Nat) : Nat :=
  if loc < 2 ^ 48 then stack * 2 ^ 48 + loc
  else
    let ks := p.stacks
    let idx := (ks.findIdx? (· == stack)).getD 0
    15 * 2 ^ 48 + ((loc - 2 ^ 48) / 2 ^ 12 * ks.length + idx) * 2 ^ 12 + loc % 2 ^ 12

/-- The IAs of the 4 KiB pieces of a page. -/
def pageIas (p : Part) (stack loc size : Nat) : List Nat := (List.range (size / 2 ^ 12)).map (fun i => iaOfLocal p stack (loc + i * 2 ^ 12))

/-- A valid range entry of a domain covers an IA. -/
def iaCovered (ranges : List (Dword × Dword)) (ia : Nat) : Bool :=
  ranges.any (fun e =>
    let base := e.2.toNat % 2 ^ 31
    let size := e.2.toNat / 2 ^ 32 % 2 ^ 27
    e.1.toNat % 2 == 1 && decide (base ≤ ia / 2 ^ 21 ∧ ia / 2 ^ 21 < base + size))

/-- The pages that a request may change: all of them under range entries of its domain. -/
def MapReq.target (r : MapReq) (s : State) (part : Nat) : Option (Nat × List Nat) :=
  let p := partAt s part
  match r.pages p with
  | none => none
  | some (stack, locs) =>
    if locs.all (fun loc => (pageIas p stack loc r.pageSize).all (iaCovered (domainAt s part r.dom).ranges)) then some (stack, locs)
    else none

/-- The service's answer: a map record, or s0 and the return of gate 0 (R176, R364; log 19). -/
def answerMap (s : State) (r : MapReq) (status : Word) : State :=
  match r.fn, r.gate with
  | some (f, _), _ => pushRecord s f ⟨0, 4, status, r.tag, r.start, 0, none⟩
  | none, some uid =>
    changeGroup s uid (fun g =>
      match g.calls with
      | c :: rest =>
        if g.live.any (fun i => (g.strand i).held == some .service) then (g.setS 0 ⟨status, true, false, []⟩).popCall c rest c.nvr c.nur 0
        else g
      | [] => g)
  | none, none => s

/-- A refusal's status: a free value that is not zero (log 6). -/
def refusedStatus (s : State) : Word := Config.freeWord s.free ||| 1

/-- The request at the head of the queue is done. -/
def endMap (s : State) (part : Nat) (r : MapReq) (status : Option Word) : State :=
  let p := partAt s part
  let s := setPart s part { p with mapQueue := p.mapQueue.drop 1, unmap := none }
  match status with
  | some w => answerMap s r w
  | none => answerMap { s with free := s.free + 1 } r (refusedStatus s)

/-- One operation of the service on the first request of a partition, if that request asks for it; an OP outside Table R176 is refused. -/
def mapOp (op part : Nat) (f : MapReq → State → State) : State → Out :=
  eventOp (fun s =>
    match (partAt s part).mapQueue with
    | [] => s
    | r :: _ =>
      if r.op.toNat < 1 ∨ 5 < r.op.toNat then endMap s part r none
      else if r.op.toNat = op then f r s
      else s)

/-! Parked accesses (R178). -/

/-- The order of a parked request. -/
def Req.parkedOrder (r : Req) : Option Nat :=
  match r.state with
  | .parked _ o => some o
  | _ => none

/-- A request goes to a page of a stack. -/
def Req.toPage (r : Req) (s : State) (stack loc size : Nat) : Bool :=
  match homeStack (partAt s r.part) r.ia with
  | some (k, l) => k == stack && l / size == loc / size
  | none => false

/-- The requests parked at pages, in arrival order. -/
def parkedAt (s : State) (stack : Nat) (locs : List Nat) (size : Nat) : List (Nat × Nat) :=
  let rs := s.net.filterMap (fun e =>
    match e.2.parkedOrder with
    | some o => if locs.any (fun loc => e.2.toPage s stack loc size) then some (o, e.1) else none
    | none => none)
  rs.foldl (fun acc x => (acc.filter (fun y => decide (y.1 < x.1))) ++ [x] ++ (acc.filter (fun y => decide (x.1 < y.1)))) []

/-- The parked accesses of pages that are present now arrive again, in order; one that must wait stays in its place. -/
def replayParked (s : State) (stack : Nat) (locs : List Nat) (size : Nat) : State :=
  (parkedAt s stack locs size).foldl (fun s e =>
    match lookupAt s.net e.2 with
    | none => s
    | some r =>
      match arrive s e.2 r false with
      | .next s' => s'
      | _ => s) s

/-! Map (R176). -/

/-- The physical page of a map's page `i`, if it exists and is assigned to the domain. -/
def MapReq.physOk (r : MapReq) (s : State) (stack pa : Nat) : Bool :=
  pa % r.pageSize == 0 && decide (pa / 2 ^ 21 < Config.rowCount) &&
    (List.range (r.pageSize / 2 ^ 16)).all (fun i => ownerOf s stack (pa + i * 2 ^ 16) == some r.dom)

/-- Leaves for all pages of a map. -/
def installAll (stack size cls : Nat) (s : State) : List (Nat × Nat) → Option State
  | [] => some s
  | (loc, pa) :: t =>
    match installLeaf s stack loc size pa cls with
    | some s => installAll stack size cls s t
    | none => none

/-- `MAP` (R176). -/
def execMap (part : Nat) (s : State) : Out :=
  mapOp 1 part (fun r s =>
    let pa := r.phys.toNat % 2 ^ 37
    match r.target s part with
    | none => endMap s part r none
    | some (stack, locs) =>
      let ps := (List.range locs.length).map (fun i => pa + i * r.pageSize)
      if r.phys.toNat / 2 ^ 56 = stack ∧ ps.all (r.physOk s stack) then
        match installAll stack r.pageSize r.cls s (locs.zip ps) with
        | some s' => replayParked (endMap s' part r (some 0)) stack locs r.pageSize
        | none => endMap s part r none
      else endMap s part r none) s

/-! Changes of entries. -/

/-- A line lies in one of the pages. -/
def linesIn (p : Part) (stack : Nat) (locs : List Nat) (size line : Nat) : Bool :=
  match homeStack p (line * 128) with
  | some (k, l) => k == stack && locs.any (fun loc => l / size == loc / size)
  | none => false

/-- A line of a table by slices lies in one of the pages. -/
def heldIn (s : State) (part stack : Nat) (locs : List Nat) (size key : Nat) : Bool :=
  (partAt s part).stacks.contains (key / 2 ^ 45 / 16) && linesIn (partAt s part) stack locs size (key % 2 ^ 45)

/-- Lines of the pages leave the home slices, written back (R177); pinned ones stay (R134). -/
def dropLines (s : State) (part stack : Nat) (locs : List Nat) (size : Nat) : State :=
  releaseLines s part (fun e => heldIn s part stack locs size e.1 && !linePinned s part (e.1 % 2 ^ 45))

/-- Copies of lines of the pages leave the L1s of the partition. -/
def dropLeased (s : State) (part stack : Nat) (locs : List Nat) (size : Nat) : State :=
  { s with l1 := s.l1.filter (fun e =>
      !((partAt s part).cores.contains (e.1 / 2 ^ 45) && linesIn (partAt s part) stack locs size (e.1 % 2 ^ 45))) }

/-- Replicas of lines of the pages are dropped, in the slices of the partition. -/
def dropReplicas (s : State) (part stack : Nat) (locs : List Nat) (size : Nat) : State :=
  { s with replicas := s.replicas.filter (fun e => !heldIn s part stack locs size e.1) }

/-- The end entries of the pages, all of them valid leaves of the request's size, changed; none where one is not. -/
def changeLeaves (r : MapReq) (stack : Nat) (f : Nat → Nat) (s : State) : List Nat → Option State
  | [] => some s
  | loc :: t =>
    let (a, e, size) := endEntry s stack loc
    if bitOf e 0 && bitOf e 2 && size == r.pageSize then changeLeaves r stack f (writePte s stack a (f e)) t else none

def changeOp (op part : Nat) (f : MapReq → Nat → Nat) (after : Nat → MapReq → Nat → List Nat → State → State) : State → Out :=
  mapOp op part (fun r s =>
    match r.target s part with
    | none => endMap s part r none
    | some (stack, locs) =>
      match changeLeaves r stack (f r) s locs with
      | some s' => after part r stack locs (endMap s' part r (some 0))
      | none => endMap s part r none)

/-- `SET_CLASS` (R176): lines of the pages are fetched anew under their new class (log 57); no L1 holds a line of an NA class (R83). -/
def execSetClass (part : Nat) (s : State) : Out :=
  changeOp 3 part (fun r e => e - e / 2 ^ 3 % 2 ^ 4 * 2 ^ 3 + r.cls * 2 ^ 3)
    (fun part r stack locs s =>
      let s := dropLines s part stack locs r.pageSize
      if isNa s r.cls then dropReplicas (dropLeased s part stack locs r.pageSize) part stack locs r.pageSize else s) s

/-- `MARK_NOT_PRESENT` (R176). -/
def execMarkNotPresent (part : Nat) (s : State) : Out :=
  changeOp 4 part (fun _ e => if bitOf e 1 then e - 2 else e)
    (fun part r stack locs s => forgetXlat (dropLines s part stack locs r.pageSize) stack locs r.pageSize) s

/-! Page-in (R178, R391). -/

/-- `MARK_PRESENT` (R176, R178). -/
def execMarkPresent (part : Nat) (s : State) : Out :=
  changeOp 5 part (fun _ e => if bitOf e 1 then e else e + 2) (fun _ r stack locs s => replayParked s stack locs r.pageSize) s

/-- `PAGE_IN_ABANDON` (R391): firmware gives up a page-in, after 100 ms or when it finds the contents lost; the accesses parked at the page
receive KIND 4 in arrival order, and the entry stays as it is. -/
def execPageInAbandon (ia : Nat) (s : State) : Out :=
  eventOp (fun s =>
    s.parts.foldl (fun s p =>
      match homeStack p.2 ia with
      | none => s
      | some (stack, loc) =>
        let (_, e, size) := endEntry s stack loc
        if bitOf e 0 && !bitOf e 1 then
          (parkedAt s stack [loc] size).foldl (fun s x =>
            match lookupAt s.net x.2 with
            | some r => if r.part = p.1 then failRequest s x.2 r r.src.slot 4 else s
            | none => s) s
        else s) s) s

/-- Ticks of a microsecond (R11). -/
def microsecond : Nat := 800

/-- A group has waited for a page longer than PGWAIT.LIMIT, and every access of it that is parked is a read (R178). -/
def pageWaitOver (s : State) (uid : Nat) : Bool :=
  let parked := s.net.filter (fun e => e.2.src.uid == uid && e.2.parkedOrder.isSome)
  parked.all (fun e => !e.2.kind.isWrite) &&
    parked.any (fun e =>
      match e.2.state, homeStack (partAt s e.2.part) e.2.ia with
      | .parked since _, some (stack, _) => decide (since + microsecond * ((stackAt s stack).pgwait.toNat % 2 ^ 16) ≤ s.dt)
      | _, _ => false)

/-- `PAGE_IN_SAVE` (R178, R194): the pre-emption of the parked group's block begins. -/
def execPageInSave (core slot : Nat) (s : State) : Out :=
  eventOp (fun s =>
    match groupAt s core slot with
    | some g =>
      match g.block with
      | some b => if pageWaitOver s g.uid then beginPolite s b else s
      | none => s
    | none => s) s

/-! Unmap (R177, R390). -/

/-- The contexts of a partition that hold pins in the pages, by their blocks. -/
def pinHolders (s : State) (part stack : Nat) (locs : List Nat) (size : Nat) : List Nat :=
  let p := partAt s part
  s.seqs.filterMap (fun e =>
    if p.cores.contains (e.1 / 4) && (e.2.pins.any (fun x => linesIn p stack locs size x.1) ||
        s.net.any (fun r => r.2.pins && r.2.src.uid == e.2.block && linesIn p stack locs size (lineOf r.2.ia))) then some e.2.block
    else none)

/-- The page of a request lies within a valid leaf of a larger page. -/
def insideLeaf (s : State) (stack loc size : Nat) : Bool :=
  let (_, e, sz) := endEntry s stack loc
  bitOf e 0 && decide (size < sz)

/-- V cleared in the end entry of an address, if the request covers the whole page of the entry. -/
def clearEntry (s : State) (stack loc size : Nat) : State :=
  let (a, e, sz) := endEntry s stack loc
  if bitOf e 0 && decide (sz ≤ size) then writePte s stack a (e - 1) else s

/-- V cleared in every entry of the pages: one leaf of their size, or the 64 KiB leaves of a 2 MiB page (log 22). -/
def clearLeaves (stack size : Nat) (s : State) : List Nat → State
  | [] => s
  | loc :: t =>
    let (_, _, sz) := endEntry s stack loc
    let s' := if sz = 2 ^ 16 ∧ size = 2 ^ 21 then (List.range 32).foldl (fun s i => clearEntry s stack (loc + i * 2 ^ 16) size) s
      else clearEntry s stack loc size
    clearLeaves stack size s' t

/-- The latest lease granted on a line of the pages. -/
def latestLease (s : State) (part stack : Nat) (locs : List Nat) (size : Nat) : Nat :=
  s.leases.foldl (fun t e =>
    if e.1 / 2 ^ 45 = part ∧ linesIn (partAt s part) stack locs size (e.1 % 2 ^ 45) then max t e.2 else t) 0

/-- `UNMAP` (R177): the first turn accepts the request; once no line is pinned, lines and replicas are dropped and the entries cleared.
A request for a part of a larger page is refused (log 22). -/
def execUnmap (part : Nat) (s : State) : Out :=
  mapOp 2 part (fun r s =>
    match r.target s part with
    | none => endMap s part r none
    | some (stack, locs) =>
      let p := partAt s part
      let x : Unmapping := p.unmap.getD ⟨r, s.dt, none⟩
      if x.lease.isSome then s
      else if locs.any (fun loc => insideLeaf s stack loc r.pageSize) then endMap s part r none
      else if !(pinHolders s part stack locs r.pageSize).isEmpty then setPart s part { p with unmap := some x }
      else
        let s := dropReplicas (dropLines s part stack locs r.pageSize) part stack locs r.pageSize
        let s := forgetXlat (clearLeaves stack r.pageSize s locs) stack locs r.pageSize
        setPart s part { p with unmap := some { x with lease := some (latestLease s part stack locs r.pageSize) } }) s

/-- `UNMAP_RETURN` (R177). -/
def execUnmapReturn (part : Nat) (s : State) : Out :=
  eventOp (fun s =>
    match (partAt s part).unmap with
    | some x =>
      match x.lease with
      | some t => if t = 0 ∨ t + 4 ≤ s.dt then endMap s part x.req (some 0) else s
      | none => s
    | none => s) s

/-- `UNMAP_PIN_TIMEOUT` (R390): pins that have remained for 2^20 ticks: the blocks that hold them are saved. -/
def execUnmapPinTimeout (part : Nat) (s : State) : Out :=
  eventOp (fun s =>
    match (partAt s part).unmap with
    | some x =>
      match x.lease, x.req.target s part with
      | none, some (stack, locs) =>
        if x.since + Config.pinWait ≤ s.dt then (pinHolders s part stack locs x.req.pageSize).foldl beginPolite s else s
      | _, _ => s
    | none => s) s

/-! Retiring a page (R19, R177). -/

/-- The bytes, the poison and the ownership of a page moved to another physical page of the stack. -/
def movePage (s : State) (stack old new size : Nat) : State :=
  let words := List.range (size / 32)
  let pages := List.range (size / 2 ^ 16)
  { s with
    mem := writeBytes s.mem (physKey stack new) (readBytes s.mem (physKey stack old) size)
    memPoison := words.foldl (fun m i =>
      putAt false m (physKey stack new / 32 + i) (getAt false s.memPoison (physKey stack old / 32 + i))) s.memPoison
    owners := pages.foldl (fun m i =>
      putAt 0 (putAt 0 m (stack * 2 ^ 21 + new / 2 ^ 16 + i) (ownerAt s stack (old + i * 2 ^ 16)))
          (stack * 2 ^ 21 + old / 2 ^ 16 + i) 0) s.owners }

/-- Nothing that has found a physical page is still on its way to it: firmware parks accesses across the move of a page (R177). -/
def pageQuiet (s : State) (stack old size : Nat) : Bool :=
  let here := fun (k pa : Nat) => k == stack && decide (old ≤ pa ∧ pa < old + size)
  s.net.all (fun e => match e.2.state with
    | .atBank bank _ pa _ _ => !here (bankStack bank) pa
    | .atStack bank _ pa => !here (bankStack bank) pa
    | _ => true) &&
  s.nbus.all (fun e => match e.2.openRow with
    | some pa => !here (bankStack e.1) pa
    | none => true)

/-- `PAGE_RETIRE` (R19): firmware moves a page to a new physical page of its stack and repoints its entry, once no access that has found the
old page is on its way; the IA stays. -/
def execPageRetire (ia stack pa : Nat) (s : State) : Out :=
  eventOp (fun s =>
    match partOfDie s (dieOfStack stack) with
    | none => s
    | some part =>
      match homeStack (partAt s part) ia with
      | none => s
      | some (k, loc) =>
        let (a, e, size) := endEntry s k loc
        if k = stack ∧ bitOf e 0 ∧ bitOf e 2 ∧ size < 2 ^ 30 ∧ pa % size = 0 ∧ pa / 2 ^ 21 < Config.rowCount ∧
            pteAddr e / size * size ≠ pa ∧
            pageQuiet s stack (pteAddr e / size * size) size then
          forgetXlat (writePte (movePage s stack (pteAddr e / size * size) pa size) stack a (e % 2 ^ 8 + pa / 2 ^ 8 * 2 ^ 8)) stack
            [loc / size * size] size
        else s) s

end Sys2Proof.Machine
end

