-- ==== Sys2Proof/Machine/Preempt.lean ====
section
/-! DEFINITION. Pre-emption of blocks (R194, R198 to R201, R379, R380, R418): the polite and the hard stage, the save with its waits, and the
restore. A saved block stands in the state beside its frame in memory (log 12). -/

namespace Sys2Proof.Machine

/-! Stages (R198). -/

/-- Every strand of a group that has not exited is held at `yield` (R191). -/
def Group.parked (g : Group) : Bool :=
  !g.live.isEmpty && g.live.all (fun i => (g.strand i).held == some .yield)

/-- The groups of a block that have not exited, with their slots. -/
def groupsOf (s : State) (bid : Nat) (b : Block) : List (Nat × Group) :=
  (Block.liveSlots s bid b).filterMap (fun q => (groupAt s b.core q).map (fun g => (q, g)))

/-- POLITE of the partition of a block. -/
def politeOf (s : State) (b : Block) : Nat := (partAt s ((partOfCore s b.core).getD 0)).polite

/-- Every group is parked and the sequencer has halted (R198). -/
def politeDone (s : State) (bid : Nat) (b : Block) : Bool :=
  (groupsOf s bid b).all (fun e => e.2.parked) &&
    (match seqOf s b with
     | some x => x.halted
     | none => true)

/-- `POLITE_REQUEST` (R198): a pre-emption begins at firmware's request; it joins one that has begun (R194). -/
def execPoliteRequest (bid : Nat) (s : State) : Out := eventOp (fun s => beginPolite s bid) s

/-- The strands of a group saved at their precise PCs: a fence will issue again, other waits stand (R204). -/
def Group.stand (g : Group) : Group :=
  g.onStrands g.live (fun t => match t.held with
    | some (.fence _ _) => { t with held := none }
    | _ => t)

/-- A REWIND (R198 to R200): the strands take their snapshots at the pricking, or at the resume PC, as one gang; barrier waits of the region
are undone. Registers outside the mask are given up only once the frame is written (R380). -/
def Group.rewind (g : Group) (f : FlashPoint) : Group :=
  let low := (((List.range 8).zip f.strands).find? (fun e => e.2.exited != 0xF)).map Prod.fst |>.getD 0
  { g with
    strands := (List.range 8).map (fun i =>
      let t := g.strand i
      match f.strands[i]? with
      | some x => { t with
          pc := f.pricking.getD f.resume, lr := x.lr, active := x.active, exited := x.exited, div := x.div, loops := x.loops,
          gang := low, held := none, waitOnly := false }
      | none => t)
    bars := g.bars.map (fun e => (e.1, { e.2 with waited := getAt 0 f.waited e.1 }))
    pricking := f.pricking.isSome }

/-- A flashback frame holds no vector register outside the mask (R198, R380). -/
def Group.dropUnmasked (g : Group) : Group :=
  match g.flash with
  | some f =>
    if g.rewound then ((List.range g.nv).filter (fun n => !f.mask.getLsbD n)).foldl (fun g n => g.setV n (g.vreg n).dropped) g else g
  | none => g

/-- A group that runs stops for the save: one in an open region that is not parked is rewound. -/
def Group.stopRunning (g : Group) : Group :=
  let g := match g.flash with
    | some f => if g.regionOpen && !g.parked then g.rewind f else g.stand
    | none => g.stand
  { g with stop := .saving none }

/-- A group stops issuing for the save: a handler's run for it is abandoned, and its trap stays pending (R418). -/
def stopGroup (s : State) (core slot : Nat) (g : Group) : State :=
  match g.stop with
  | .running => setGroup (if g.stopRunning.rewound then forgetPulls s g.uid else s) core slot g.stopRunning
  | .waiting t =>
    let s := setCore s core { coreAt s core with queue := (coreAt s core).queue.filter (· != slot) }
    setGroup s core slot { g.stand with stop := .saving (some t) }
  | .served t => serveNext (dropGroup (setGroup s core slot { g.stand with stop := .saving (some t) }) core handlerSlot) core
  | _ => s

/-! Waits (R199). -/

/-- A request on its way: not parked, and not performed for what asked for it. -/
def Req.moving (r : Req) : Bool := r.parkedOrder.isNone && !r.over

/-- The accesses of a group allow its save: none is outstanding but reads that have been parked for PGWAIT.LIMIT (R178); a late save waits
for no write that is not parked (R379). -/
def accessesDone (s : State) (late : Bool) (uid : Nat) : Bool :=
  s.net.all (fun e => e.2.src.uid != uid || !e.2.moving || (late && e.2.kind.isWrite)) &&
  s.replies.all (fun e => e.2.src.uid != uid || (late && e.2.kind == .ack)) &&
  (s.net.all (fun e => e.2.src.uid != uid || e.2.parkedOrder.isNone) || pageWaitOver s uid)

/-- A flashback frame will not hold a vector register: a result destined for it is not waited for (R199). -/
def Group.unmasked (g : Group) (n : Nat) : Bool := g.rewound && (match g.flash with | some f => !f.mask.getLsbD n | none => false)

/-- Every fixed-latency result that a save waits for is readable (R199). -/
def Group.settled (g : Group) (dt : Nat) : Bool :=
  g.v.all (fun e => decide (e.2.ready ≤ dt) || g.unmasked e.1) && g.s.all (fun e => decide (e.2.ready ≤ dt)) &&
      g.p.all (fun e => decide (e.2.ready ≤ dt)) &&
    g.q.all (fun e => decide (e.2.ready ≤ dt)) && decide (g.fpfReady ≤ dt) &&
    g.srOlds.all (fun e => decide (lastTick (e.2.map Prod.fst) ≤ dt)) &&
    g.strands.all (fun t => decide (lastTick (t.lrOlds.map Prod.fst) ≤ dt))

/-- The group stands still. -/
def Group.stopped (g : Group) : Bool :=
  match g.stop with
  | .saving _ => true
  | _ => false

/-- The context of a block has completed what it has issued: no `mhalt` waits for its writes (R141). -/
def haltDone (s : State) (b : Block) : Bool :=
  match seqOf s b with
  | some q => !q.haltWait || q.halted
  | none => true

/-- A save may write its frame: its groups stand still with their accesses done and results readable, no engine command holds granules of
the block, and what the sequencer and exited groups wrote has its completion times. -/
def saveReady (s : State) (bid : Nat) (b : Block) (late : Bool) : Bool :=
  (groupsOf s bid b).all (fun e => e.2.stopped && e.2.settled s.dt && accessesDone s late e.2.uid) &&
  s.cmds.all (fun c => c.2.block != bid || c.2.granules.isEmpty) &&
  (late || (b.leaving.isEmpty && !writesOut s bid (s.nextId + 1) && haltDone s b))

/-- The waits of a save are over: the core begins to write its frame. -/
def beginWriting (s : State) (bid : Nat) : State :=
  match blockAt s bid with
  | none => s
  | some b =>
    match b.preempt with
    | .saving since late none => if saveReady s bid b late then setBlock s bid { b with preempt := .saving since late (some s.dt) } else s
    | _ => s

/-- `HARD_STAGE` (R198): POLITE ticks after the request, or once everything is done, the groups that remain stop; the sequencer stops
between two instructions (R141). -/
def execHardStage (bid : Nat) (s : State) : Out :=
  eventOp (fun s =>
    match blockAt s bid with
    | none => s
    | some b =>
      match b.preempt with
      | .polite since =>
        if since + politeOf s b ≤ s.dt ∨ politeDone s bid b then
          let s := setBlock s bid { b with preempt := .saving s.dt false none }
          beginWriting ((groupsOf s bid b).foldl (fun s e => stopGroup s b.core e.1 e.2) s) bid
        else s
      | _ => s) s

/-! Saving and giving up. -/

/-- What a group has waited at a barrier is kept as the number of ticks; so is what a sequencer has waited (R377). -/
def Strand.saveWait (t : Strand) (dt : Nat) : Strand :=
  match t.held with
  | some (.barrier b p since len a) => { t with held := some (.barrier b p (dt - since) len a) }
  | some (.arrival b p since) => { t with held := some (.arrival b p (dt - since)) }
  | _ => t

def SeqCtx.saveWait (x : SeqCtx) (dt : Nat) : SeqCtx :=
  { x with pins := [], waiting := x.waiting.map (fun w => (w.1, w.2.1, dt - w.2.2)) }

/-- What a frame keeps of a block: its groups in GROUPID order and its context, whose pins are released (R141). -/
def savedOf (s : State) (bid : Nat) (b : Block) (at' : Nat) : SavedBlock :=
  { block := b
    groups := (List.range 32).filterMap (fun k => ((groupsOf s bid b).find? (fun e => e.2.gid == k)).map (fun e =>
      e.2.dropUnmasked.onStrands (List.range 8) (fun t => t.saveWait s.dt)))
    seq := (seqOf s b).map (fun q => q.saveWait s.dt)
    part := (partOfCore s b.core).getD 0
    dom := ((((lookupAt s.runs b.run).bind (fun r => lookupAt s.launches r.graph)).map GraphLaunch.dom)).getD 0
    place := at'
    dt := s.dt
    mark := s.free }

/-- The block leaves its core. -/
def saveBlock (s : State) (bid : Nat) (b : Block) (x : SavedBlock) : State :=
  let s := (groupsOf s bid b).foldl (fun s e => dropGroup s b.core e.1) s
  { s with
    blocks := eraseAt s.blocks bid
    seqs := match b.ctx with | some k => eraseAt s.seqs (b.core * 4 + k) | none => s.seqs
    saved := setAt s.saved bid x
    free := s.free + 1 }


/-- A group goes on after a stop for a save: at its PC, or with its trap, whose handler is entered afresh (R380, R418). -/
def resumeGroup (s : State) (core slot : Nat) : State :=
  match groupAt s core slot with
  | none => s
  | some g =>
    let g := g.onStrands g.live (fun t => if t.held = some .yield then { t with held := none } else t)
    match g.stop with
    | .saving none => setGroup s core slot { g with stop := .running }
    | .saving (some t) =>
      serveNext (setCore (setGroup s core slot { g with stop := .waiting t }) core
        { coreAt s core with queue := (coreAt s core).queue ++ [slot] }) core
    | _ => s

/-- A GROUP IS RESET (R425): it ends as under R373; the cause is that of its trap, or none (log 23). -/
def resetGroup (s : State) (core slot : Nat) : State :=
  match groupAt s core slot with
  | none => s
  | some g =>
    let cause := match g.stop with
      | .waiting t => t.cause
      | .served t => t.cause
      | .saving (some t) => t.cause
      | _ => 0
    let s := match g.stop with
      | .served _ => dropGroup s core handlerSlot
      | _ => s
    serveNext (endGroup s core slot cause false) core

/-- A block ends after a failed save (R424). -/
def endUnsaved (s : State) (bid : Nat) (b : Block) : State :=
  let launch := ((lookupAt s.runs b.run).map NodeRun.graph).getD 0
  let s := { s with launches := modifyAt s.launches launch (fun l => { l with saveFail := true }) }
  let s := modifyBlock s bid (fun b => { b with seqFault := some (b.seqFault.getD 0) })
  blockCheck ((groupsOf s bid b).foldl (fun s e => resetGroup s b.core e.1) s) bid

/-- The save is abandoned (R380, R424): SAVEFAIL counts it, and the block goes on where it is; on a core that is being fenced it ends. -/
def abandonSave (s : State) (bid : Nat) (b : Block) : State :=
  let s := { s with health := { s.health with saveFail := min 65535 (s.health.saveFail + 1) } }
  if (coreAt s b.core).fencing then endUnsaved s bid b
  else
    let s := setBlock s bid { b with preempt := .none, kept := true }
    (groupsOf s bid b).foldl (fun s e => resumeGroup s b.core e.1) s

/-- `CONTEXT_SAVE` (R199, R204, R205, R380): once its waits are over the frame is written at 128 bytes a tick, at the place in the CSAVE
area that firmware has chosen, or it cannot be written. -/
def execContextSave (bid : Nat) (at' : Option Nat) (s : State) : Out :=
  eventOp (fun s =>
    match blockAt s bid with
    | none => s
    | some b =>
      match b.preempt with
      | .saving _ _ none => beginWriting s bid
      | .saving _ late (some begun) =>
        if !saveReady s bid b late then s
        else
          match at' with
          | none => abandonSave s bid b
          | some a =>
            let x := savedOf s bid b a
            if s.dt < begun + (x.frameSize + 127) / 128 then s
            else if frameOk s b.core x then saveBlock (writeFrame s b.core x) bid b x
            else abandonSave (logUnwritten s b.core x) bid b
      | _ => s) s

/-! Overdue replies (R379). -/

/-- The four registers of the `ld.128` of which a request is a half. -/
def ReqKind.quad : ReqKind → List Nat
  | .load _ _ (.half d) _ => regsFrom d 4
  | _ => []

/-- The vector registers that the instruction of an outstanding request or answer writes. -/
def overdueRegs (s : State) (uid : Nat) : List Nat :=
  let regs := fun (k : ReplyKind) => match k with
    | .lanes ws _ => ws.map Prod.fst
    | _ => []
  s.net.flatMap (fun e => if e.2.src.uid = uid ∧ e.2.moving then regs e.2.kind.failed ++ e.2.kind.quad else []) ++
    s.replies.flatMap (fun e => if e.2.src.uid = uid then regs e.2.kind ++ ((e.2.req.map (fun q => q.kind.quad)).getD []) else [])

/-- Gathers of a group of which some element is not parked. -/
def overdueGathers (s : State) (uid : Nat) : List Nat :=
  let ofKind := fun (k : ReplyKind) => match k with
    | .corner id _ _ => [id]
    | _ => []
  (s.net.flatMap (fun e => if e.2.src.uid = uid ∧ e.2.moving then ofKind e.2.kind.failed else [])) ++
    (s.replies.flatMap (fun e => if e.2.src.uid = uid then ofKind e.2.kind else []))

/-- The uniform registers that answers would have written. -/
def overdueUniform (s : State) (uid : Nat) : List Nat :=
  s.replies.filterMap (fun e =>
    match e.2.kind with
    | .uniform r _ => if e.2.src.uid = uid then some r else none
    | _ => none)

/-- An outstanding producer of a register is given up: the lanes that its instruction was to write are poisoned (R379). -/
def Group.giveUp (g : Group) (n : Nat) : Group :=
  let r := g.vreg n
  if r.dead then g else g.setV n { r.poisoned r.issued with full := true, owed := 0 }

/-- A group's overdue replies: the active lanes of their instructions are poisoned in each destination register, and the replies will be
discarded; an overdue acknowledgement raises RH beyond the point at which it turns into an error. -/
def makeOverdue (s : State) (core slot since : Nat) (g : Group) : State :=
  let gathers := overdueGathers s g.uid
  let regs := overdueRegs s g.uid ++ gathers.flatMap (fun id =>
    match lookupAt s.gathers id with
    | some x => x.outs.map GatherOut.reg
    | none => [])
  let acks := s.net.any (fun e => e.2.src.uid == g.uid && e.2.moving && e.2.kind.isWrite) ||
    s.replies.any (fun e => e.2.src.uid == g.uid && (e.2.kind == .ack || e.2.time.isSome))
  let g' := (overdueUniform s g.uid).foldl (fun g r => g.landS r 0 true) (regs.foldl (fun g n => g.giveUp n) g)
  let s := setGroup s core slot { g' with rh := if acks then max g.rh (since + 131072) else g.rh }
  { s with
    net := s.net.map (fun e =>
      if e.2.src.uid = g.uid ∧ e.2.moving ∧ e.2.kind.isRead then (e.1, { e.2 with src := e.2.src.orphan }) else e)
    replies := s.replies.map (fun e => if e.2.src.uid = g.uid ∧ e.2.kind ≠ .ack then (e.1, { e.2 with src := e.2.src.orphan }) else e)
    gathers := s.gathers.map (fun e => if gathers.contains e.1 then (e.1, { e.2 with src := e.2.src.orphan }) else e) }

/-- `SAVE_REPLY_TIMEOUT` (R379): what is outstanding 16,384 ticks after the save began, other than parked accesses, holds it up no
longer. -/
def execSaveReplyTimeout (bid : Nat) (s : State) : Out :=
  eventOp (fun s =>
    match blockAt s bid with
    | none => s
    | some b =>
      match b.preempt with
      | .saving since false none =>
        if s.dt < since + Config.saveWait then s
        else
          let s := setBlock s bid { b with preempt := .saving since true none }
          (groupsOf s bid b).foldl (fun s e => tryUnwind (makeOverdue s b.core e.1 since e.2) b.core e.1) s
      | _ => s) s

/-! Restoring (R200). -/

def Strand.restoreWait (t : Strand) (dt : Nat) : Strand :=
  match t.held with
  | some (.barrier b p n len a) => { t with held := some (.barrier b p (dt - n) len a), wait := 0 }
  | some (.arrival b p n) => { t with held := some (.arrival b p (dt - n)), wait := 0 }
  | _ => { t with wait := 0 }

/-- A group rebuilt from its frame: its domain register is loaded for the domain it runs in. -/
def Group.restored (g : Group) (s : State) (part : Nat) : Group :=
  { g.onStrands (List.range 8) (fun t => t.restoreWait s.dt) with dom := domReg s part g.dom.id }

/-- A saved block appears on a core that it fits: its scratchpad with every granule THREAD, its windows, barriers and context, the
callers' frames at the addresses of the new core and slots (R182), then its groups; a phase that a group's leaving has completed meanwhile
is over (R42). -/
def restoreBlock (s : State) (bid core : Nat) (x : SavedBlock) : State :=
  let (order, s) := takeId s
  let slots := (freeSlots s core).take x.groups.length
  let ctx := if x.seq.isSome then (freeContexts s core).head? else none
  let b : Block := { x.block with
    core := core, slots := slots, ctx := ctx, engine := [], placed := s.dt, order := order, preempt := .none, kept := false
    scratchBase := (scratchPlace ((blocksOn s core).map Prod.snd) x.block.scratchSize).getD 0 }
  let units := (freeUnits s core).take x.block.nacc
  let s := { fitCarve (setBlock s bid b) core with saved := eraseAt s.saved bid }
  let s := match ctx, x.seq with
    | some k, some q =>
      let q' : SeqCtx := { q with units := units, waiting := q.waiting.map (fun w => (w.1, w.2.1, s.dt - w.2.2)) }
      { s with seqs := setAt s.seqs (core * 4 + k) q' }
    | _, _ => s
  let s := copyFrames s core x.part (x.callers s) ((slots.zip x.groups).flatMap (fun e => callerFrames core e.1 e.2.calls))
  completePhases ((slots.zip x.groups).foldl (fun s e => resumeGroup (setGroup s core e.1 (e.2.restored s x.part)) core e.1) s) bid

/-- A node of a level above a saved block's could be placed: it goes first (R187). -/
def placeFirst (s : State) (x : SavedBlock) : Bool :=
  (placeable s x.part).any (fun r => decide (x.block.prio < r.2.entry.prio % 8) && (chooseFor s x.part r).isSome) ||
    s.saved.any (fun e => e.2.part == x.part && savedReady s e.2 && decide (x.block.prio < e.2.block.prio) &&
      (partAt s x.part).cores.any (restorable s e.2))

/-- `RESTORE` (R187, R195, R200, R380): on any core of the partition where the block fits and that is not reserved, one block a tick.
Lanes that are damaged in the frame are poisoned; damage to what steers the block ends it, and its launch reports 0x0F. -/
def execRestore (bid core : Nat) (s : State) : Out :=
  eventOp (fun s =>
    match lookupAt s.saved bid with
    | none => s
    | some x =>
      if savedReady s x && restorable s x core && (partAt s x.part).placedAt != some s.dt && !placeFirst s x then
        let s := setPart s x.part { partAt s x.part with placedAt := some s.dt }
        if x.clean s core then restoreBlock s bid core x
        else
          let s' := restoreBlock (logRestore s core x) bid core (x.withDamage s core)
          if x.broken s core then endBlock s' bid 0x0F false else s'
      else s) s

/-- `THERMAL_MIGRATION` (R201): the pre-emption of a block that has been resident for 1,600,000 ticks begins. -/
def execThermalMigration (bid : Nat) (s : State) : Out :=
  eventOp (fun s =>
    match blockAt s bid with
    | some b => if b.placed + Config.migrateAfter ≤ s.dt then beginPolite s bid else s
    | none => s) s

end Sys2Proof.Machine
end

