-- ==== Sys2Proof/Machine/Health.lean ====
section
/-! DEFINITION. Partitions (R170), bring-up and measurement (R367, R368, R422), resets (R425), heat and age (R369, R370, R423, R424), the
host link and ports (R19, R420), slice retirement (R85, R389) and copies of device time (R392). -/

namespace Sys2Proof.Machine

/-! Bring-up (R367, R422). -/

/-- The step that runs next: after a failure of steps 1 to 3 only step 4 still runs. -/
def nextStep (s : State) : Option Nat :=
  match s.bringUpFailed with
  | none => if s.bringUp < 5 then some (s.bringUp + 1) else none
  | some k => if k ≤ 3 ∧ s.bringUp < 4 then some 4 else none

/-- READY of the PF (R367). -/
def State.isReady (s : State) : Bool := s.bringUp == 5

/-- A step fails: bring-up stops at it, and the report keeps the first failure (R422). -/
def failStep (s : State) (k code unit : Nat) : State :=
  let h := s.health
  { s with
    bringUpFailed := some k
    health := if h.bstep = 0 then { h with bstep := k, bcode := code, bunit := unit % 256 } else h }

/-- Step 4 negotiates the modules and the rate of the host link (R358). -/
def linkWidths (modules rate : Nat) : Bool := (modules == 1 || modules == 2 || modules == 4) && decide (1 ≤ rate ∧ rate ≤ 4)

/-- A step succeeds: the measurement is recorded at step 1 (R368), the link is up after step 4, every stack is zero after step 5. -/
def passStep (s : State) (k modules rate : Nat) : State :=
  let s := { s with bringUp := k }
  match k with
  | 1 => { s with measured := s.image }
  | 4 => { s with linkUp := true, health := { s.health with linkw := modules, linkr := rate } }
  | 5 => { s with mem := [], memPoison := [], covers := [] }
  | _ => s

/-- `BRING_UP_STEP` (R367, R422): an image whose signature does not verify fails step 1 with BCODE 1, whatever else is reported;
BCODE is 1, 2 or 3. -/
def execBringUpStep (result : BringUpResult) (s : State) : Out :=
  eventOp (fun s =>
    match nextStep s with
    | none => s
    | some k =>
      if k = 1 ∧ !s.imageSigned then failStep s 1 1 0
      else
        match result with
        | .failure code unit => if 1 ≤ code ∧ code ≤ 3 then failStep s k code unit else s
        | .success modules rate => if k = 4 ∧ !linkWidths modules rate then s else passStep s k modules rate) s

/-- `DOE_IMAGE_WRITE` (R422, R367): the host replaces the image, which runs from the next package reset. -/
def execDoeImageWrite (image : BitVec 512) (sig : Bool) (s : State) : Out :=
  eventOp (fun s => if s.linkUp then { s with replacement := some (image, sig) } else s) s

/-- `SPDM_MEASUREMENT` (R368): the digest and the partition layout, signed; a VF's request also reports its partition and domain. -/
def execSpdmMeasurement (fn : Nat) (s : State) : Out :=
  eventOp (fun s =>
    if s.linkUp then
      { s with
        free := s.free + 1
        spdm := some ⟨s.measured, s.parts.map (fun p => (p.1, p.2.dies)), fn, if fn = 0 then none else (fnAt s fn).bound,
          Config.signature s.measured s.free⟩ }
    else s) s

/-! Partitions (R170). -/

/-- The permitted sets of dies (R9). -/
def permittedDies : List (List Nat) := [[0], [1], [2], [3], [0, 1], [2, 3], [0, 1, 2, 3]]

/-- The partitions that hold one of some dies, with their numbers. -/
def partsOfDies (s : State) (dies : List Nat) : List (Nat × Part) := s.parts.filter (fun p => p.2.dies.any dies.contains)

/-- A die changes its partition unless the same set of dies is formed again. -/
def dieChanges (s : State) (dies : List Nat) (die : Nat) : Bool := s.parts.all (fun p => !(p.2.dies.contains die && p.2.dies == dies))

/-- Every physical page of a stack is written with zeros; its tables are gone with it. -/
def zeroStack (s : State) (stack : Nat) : State :=
  { s with
    mem := s.mem.filter (fun c => c.1 / 2 ^ 37 != stack)
    memPoison := s.memPoison.filter (fun c => c.1 / 2 ^ 32 != stack)
    covers := s.covers.filter (fun c => c.1 / 2 ^ 32 != stack)
    owners := s.owners.filter (fun c => c.1 / 2 ^ 21 != stack)
    stackRegs := eraseAt s.stackRegs stack }

/-- What the caches of some dies hold is dropped; dirty lines are written back. -/
def dropDieCopies (s : State) (dies : List Nat) : State :=
  let off := fun (slice : Nat) => !dies.contains (dieOfSlice slice)
  { s with
    l1 := s.l1.filter (fun e => !dies.contains (dieOfCore (e.1 / 2 ^ 45)))
    replicas := s.replicas.filter (fun e => off (e.1 / 2 ^ 45))
    l2 := s.l2.filter (fun e => off (e.1 / 2 ^ 45)) }

/-- A partition's leases are void. -/
def voidLeases (s : State) (part : Nat) : State := { s with leases := s.leases.filter (fun e => e.1 / 2 ^ 45 != part) }

/-- A binding ends, and with it the graphs that were registered under it and the block that the function performs (R359; log 65). -/
def unbind (s : State) (fn : Nat) : State :=
  setFn { s with graphs := s.graphs.filter (fun e => e.1 / 2 ^ 16 != fn) } fn { fnAt s fn with bound := none, copy := none }

/-- A partition is no more: its domains, its map requests and the bindings to it end. -/
def dissolve (s : State) (part : Nat) : State :=
  let s := voidLeases s part
  let s := (s.fns.filter (fun f => f.2.bound.map Prod.fst == some part)).foldl (fun s f => unbind s f.1) s
  { s with
    parts := eraseAt s.parts part
    versions := s.versions.filter (fun e => e.1 / 2 ^ 45 != part)
    domains := s.domains.filter (fun e => e.1 / 4096 != part) }

/-- `PARTITION_SETUP` (R170): a permitted set of dies, once no launch is resident on the dies concerned; retired slices stay retired. Every
core takes over the new map, whose GEN starts at 0 (R85; log 66). -/
def execPartitionSetup (dies : List Nat) (s : State) : Out :=
  eventOp (fun s =>
    let old := partsOfDies s dies
    let busy := s.launches.any (fun l => old.any (fun p => p.1 == l.2.part))
    if !s.isReady || !permittedDies.contains dies || busy then s
    else
      let changed := dies.filter (dieChanges s dies)
      let retired := (old.flatMap (fun p => p.2.retired)).filter (fun x => dies.contains (dieOfSlice x))
      let all := dies ++ old.flatMap (fun p => p.2.dies)
      let s := dropDieCopies (old.foldl (fun s p => dissolve s p.1) s) all
      let s := (changed.flatMap (fun d => [3 * d, 3 * d + 1, 3 * d + 2])).foldl zeroStack s
      let p : Part := { Part.reset with dies := dies, retired := retired }
      let s := setPart s (dies.headD 0) p
      p.cores.foldl (fun s c => setCore s c ((coreAt s c).loadMap p)) s) s

/-! Resets (R425). -/

/-- `GROUP_RESET` (R425). -/
def execGroupReset (core slot : Nat) (s : State) : Out :=
  eventOp (fun s => if slot < 32 then resetGroup s core slot else s) s

/-- A launch ends with its partition: its record carries STATUS bit 12. -/
def endWithPartition (s : State) (l : Nat) (x : GraphLaunch) : State :=
  let s := { s with launches := setAt s.launches l { x with reset := true, done := true, flushed := [] } }
  if x.done then s else pushRecord s x.fn ⟨x.handle, 0, 0, x.tag, x.start, 0, some l⟩

/-- A near-bank unit of a partition that is reset: no run, no open row, its registers and program kept. -/
def Nbu.stopped (x : Nbu) : Nbu :=
  { x with
    cmd := none, openRow := none, written := [], visit := none, pathFree := 0, lastRead := none, lastTick := none, bankFree := 0
    suspended := false, boundary := none, lastServed := none }

/-- The pairs of a communicator of which a command is still outstanding. -/
def Comm.prune (x : Comm) (alive : Nat → Bool) : Comm :=
  let stays := fun (i : Nat) => (x.sends[i]?).any alive || (x.recvs[i]?).any alive
  let keep := fun (l : List Nat) => ((l.zip (List.range l.length)).filter (fun e => stays e.2)).map Prod.fst
  { x with sends := keep x.sends, recvs := keep x.recvs }

/-- A core of a partition that is reset. -/
def Core.cleared (c : Core) : Core := { c with queue := [], deque := [], spilled := [], carve := 0, draining := [] }

/-- A PARTITION RESET (R425): launches end, what is resident, saved or in flight is discarded, caches are dropped and leases void,
pseudo-channels return to normal mode, LOCK clears. -/
def resetPartition (s : State) (part : Nat) : State :=
  let p := partAt s part
  let mine := s.launches.filter (fun l => l.2.part == part)
  let ids := mine.map Prod.fst
  let s := mine.foldl (fun s l => endWithPartition s l.1 l.2) s
  let s := dropDieCopies (voidLeases s part) p.dies
  let s := { s with
    groups := s.groups.filter (fun e => !p.cores.contains (e.1 / 64))
    blocks := s.blocks.filter (fun e => !p.cores.contains e.2.core)
    seqs := s.seqs.filter (fun e => !p.cores.contains (e.1 / 4))
    saved := s.saved.filter (fun e => e.2.part != part)
    runs := s.runs.filter (fun e => !ids.contains e.2.graph)
    net := s.net.filter (fun e => e.2.part != part)
    replies := s.replies.filter (fun e => !p.cores.contains e.2.src.core)
    gathers := s.gathers.filter (fun e => !p.cores.contains e.2.src.core)
    cmds := s.cmds.filter (fun e => !p.cores.contains e.2.core)
    comms := s.comms.map (fun e => (e.1, e.2.prune (fun n => s.cmds.any (fun c => c.1 == n && !p.cores.contains c.2.core))))
    nbus := s.nbus.map (fun e => if p.stacks.contains (bankStack e.1) then (e.1, e.2.stopped) else e)
    computeMode := s.computeMode.filter (fun e => !p.stacks.contains (e.1 / 64))
    dlfw := s.dlfw.map (fun e => if p.dies.contains (e.1 / 4) then (e.1, { e.2 with locked := false }) else e) }
  let s := p.cores.foldl (fun s c => setCore s c (coreAt s c).cleared) s
  setPart s part { p with
    mapQueue := p.mapQueue.filter (fun r => r.gate.isNone)
    unmap := p.unmap.filter (fun x => x.req.gate.isNone)
    reserved := []
    placedAt := none }

/-- `PARTITION_RESET` (R425). -/
def execPartitionReset (part : Nat) (s : State) : Out :=
  eventOp (fun s => if (partAt s part).dies.isEmpty then s else resetPartition s part) s

/-- `PACKAGE_RESET` (R425, R367): everything but the firmware image, the fenced cores, with those that are being fenced, and the ageing
history is reset, DT is 0, and bring-up begins anew; the replacement image, if there is one, is the image now. The turns to come and the
host's memory are not the part's. -/
def execPackageReset (s : State) : Out :=
  eventOp (fun s =>
    let h := s.health
    { State.reset with
      agenda := s.agenda, free := s.free, nextId := s.nextId
      cores := s.cores.filterMap (fun c =>
        if c.2.fenced || c.2.fencing then some (c.1, { Core.idle with fenced := c.2.fenced, fencing := true }) else none)
      health := { Health.reset with fenced := h.fenced, eolh := h.eolh, eollo := h.eollo, eolhi := h.eolhi }
      monitors := s.monitors
      mem := s.mem, memPoison := s.memPoison
      hostMem := s.hostMem, hostBad := s.hostBad
      image := (s.replacement.map Prod.fst).getD s.image
      imageSigned := (s.replacement.map Prod.snd).getD s.imageSigned }) s

/-! Heat and age. -/

/-- `THERMAL_TRIP` (R423): a compute die at 110 °C is powered down, its partition's outstanding launches get STATUS bit 10, and the
partition is reset. -/
def execThermalTrip (die : Nat) (s : State) : Out :=
  eventOp (fun s =>
    if 4 ≤ die ∨ getAt false s.poweredDown die ∨ getAt 0 s.temps die < tripTemperature then s
    else
      let s := { s with poweredDown := putAt false s.poweredDown die true }
      match partOfDie s die with
      | none => s
      | some part =>
        let s := { s with launches := s.launches.map (fun l => if l.2.part = part then (l.1, { l.2 with thermal := true }) else l) }
        resetPartition s part) s

/-- Firmware withholds issue slots and engine starts on a die: it is above its throttle temperature, or the module draws more than its cap
(R369). -/
def isThrottled (s : State) (die : Nat) : Bool :=
  decide (s.health.tthr < getAt 0 s.temps die) || decide (s.health.pwrcap < s.health.pwrnow)

/-- The dies of the package: four compute dies, the IOD and twelve stacks (R8). -/
def dieCount : Nat := 17

/-- `TEMPERATURE_THROTTLE` (R369): a die's temperature is measured; TMAX is that of the hottest die. -/
def execTemperatureThrottle (die temp : Nat) (s : State) : Out :=
  eventOp (fun s =>
    if dieCount ≤ die then s
    else
      let temps := putAt 0 s.temps die (temp % 256)
      { s with temps := temps, health := { s.health with tmax := temps.foldl (fun t e => max t e.2) 0 } }) s

/-- The module's power over the last millisecond is measured (R370). -/
def measurePower (s : State) (watts : Nat) : State := { s with health := { s.health with pwrnow := watts % 4096 } }

/-- Path-delay monitors of the package: four a core, in the cores' order, then sixteen a die (R8, R370). -/
def monitorCount : Nat := 4 * Config.coreCount + 16 * dieCount

/-- `MONITOR_SAMPLE` (R370): all monitors are sampled. -/
def execMonitorSample (values : List Word) (s : State) : Out :=
  eventOp (fun s => if values.length = monitorCount then { s with monitors := values } else s) s

/-- `EOL_PUBLISH` (R370, R424): below 1,000 hours the PF is sent a message. -/
def execEolPublish (h lo hi : Word) (s : State) : Out :=
  eventOp (fun s =>
    { s with
      health := { s.health with eolh := h, eollo := lo, eolhi := hi }
      pfMessages := if lo.toNat < 1000 then s.pfMessages + 1 else s.pfMessages }) s

/-- Fencing a core begins: the dispatcher no longer chooses it, and its blocks are asked to leave (R424). -/
def beginFencing (s : State) (core : Nat) : State :=
  let s := setCore s core { coreAt s core with fencing := true }
  (blocksOn s core).foldl (fun s b => beginPolite s b.1) s

/-- Once no block is left on it the core is fenced, and FENCED counts it. -/
def endFencing (s : State) (core : Nat) : State :=
  let c := coreAt s core
  if c.fencing && !c.fenced && (blocksOn s core).isEmpty then
    setCore { s with health := { s.health with fenced := s.health.fenced + 1 } } core { c with fenced := true }
  else s

/-- A reason to fence a core: a path-delay monitor of its past its limit, a second uncorrectable error in its state within an hour, or a
copy of DT that has been unsynchronised for 2^20 ticks (R392, R424; log 78). -/
def mustFence (s : State) (core : Nat) : Bool :=
  (coreAt s core).failing ||
    (List.range 4).any (fun i =>
      match s.monitors[4 * core + i]? with
      | some v => decide ((Config.delayLimit (4 * core + i)).toNat < v.toNat)
      | none => false) ||
    s.unsync.any (fun u => u.copy == .core core && decide (u.since + Config.unsyncLimit ≤ s.dt))

/-- `CORE_FENCE` (R424): firmware begins to fence a core where there is a reason, gives up the saves that it says have failed, which ends
their blocks with STATUS bit 11, and fences the core when its blocks are gone. -/
def execCoreFence (core : Nat) (failed : List Nat) (s : State) : Out :=
  eventOp (fun s =>
    if Config.coreCount ≤ core ∨ !((coreAt s core).fencing || mustFence s core) then s
    else
      let s := if (coreAt s core).fencing then s else beginFencing s core
      let s := failed.foldl (fun s bid =>
        match blockAt s bid with
        | none => s
        | some b =>
          match b.preempt with
          | .saving _ _ _ => if b.core = core then abandonSave s bid b else s
          | _ => s) s
      endFencing s core) s

/-! The host link and the ports. -/

/-- `FLIT_REPLAY` (R420): nothing that the part shows changes. -/
def execFlitReplay (s : State) : Out := eventOp (fun s => s) s

/-- `LINK_RETRAIN` (R420, R358): a link that is up goes down to retrain; one that retrains is up again, at the same or a lower rate. A link
that is lost is tried again a second later (log 79). -/
def execLinkRetrain (rate modules : Nat) (s : State) : Out :=
  eventOp (fun s =>
    let h := s.health
    match s.linkUp, s.retrain with
    | true, _ => { s with linkUp := false, retrain := some (s.dt, false) }
    | false, some (since, lost) =>
      if linkWidths modules rate ∧ rate ≤ h.linkr ∧ !(lost && decide (s.dt < since + Config.second)) then
        { s with linkUp := true, retrain := none, health := { h with linkw := modules, linkr := rate } }
      else s
    | false, none => s) s

/-- `LINK_LOST` (R420): retraining has failed for a second; the PF reports an uncorrectable error through AER, once, and each later second
is a try of its own. -/
def execLinkLost (s : State) : Out :=
  eventOp (fun s =>
    match s.retrain with
    | some (since, lost) =>
      if s.dt < since + Config.second then s
      else { s with retrain := some (s.dt, true), aer := if lost then s.aer else s.aer + 1 }
    | none => s) s

/-- `SWETAFIN_LANE_LOSS` (R19): of the eight lanes of a port, those lost are marked; the port runs on the rest. -/
def execSwetafinLaneLoss (port lane : Nat) (s : State) : Out :=
  eventOp (fun s =>
    if port < 12 ∧ lane < 8 then { s with lanes := putAt 0 s.lanes port (getAt 0 s.lanes port ||| 2 ^ lane) } else s) s

/-! Slices (R85, R389). -/

/-- A line whose home is a slice is pinned by a sequencer of the partition. -/
def slicePinned (s : State) (part slice : Nat) : Bool :=
  s.seqs.any (fun e => (partAt s part).cores.contains (e.1 / 4) && e.2.pins.any (fun x => homeSlice (partAt s part) (x.1 * 128) == slice))

/-- Each slice of a partition writes its dirty lines back, and drops the lines and replicas whose home differs under a new map (R389). -/
def dropMoved (s : State) (part : Nat) (p p' : Part) : State :=
  let mine := fun (key : Nat) => p.slices.contains (key / 2 ^ 45)
  let s := (s.l2.filter (fun e => mine e.1)).foldl (writeBack part) s
  let s := { s with l2 := s.l2.map (fun (e : Nat × L2Line) => if mine e.1 then (e.1, { e.2 with dirty := false }) else e) }
  let stays := fun (key : Nat) =>
    let ia := key % 2 ^ 45 * 128
    !mine key || (p'.slices.contains (key / 2 ^ 45) && homeSlice p ia == homeSlice p' ia)
  { s with l2 := s.l2.filter (fun e => stays e.1), replicas := s.replicas.filter (fun e => stays e.1) }

/-- The slice leaves the map: its lines are dropped, as are those elsewhere whose home moves, and GEN advances in every core and slice of
the partition. -/
def retireSlice (s : State) (part slice : Nat) : State :=
  let p := partAt s part
  let p' : Part := { p with retired := p.retired ++ [slice], gen := (p.gen + 1) % 16 }
  p'.cores.foldl (fun s c => setCore s c ((coreAt s c).loadMap p')) (setPart (dropMoved s part p p') part p')

/-- A slice may be retired: it is in the map, which keeps another one, and no line of it is pinned. -/
def mayRetire (s : State) (part slice : Nat) : Bool :=
  (partAt s part).slices.contains slice && decide (1 < (partAt s part).slices.length) && !slicePinned s part slice

/-- `SLICE_RETIRE` (R389). -/
def execSliceRetire (slice : Nat) (s : State) : Out :=
  eventOp (fun s =>
    match partOfDie s (dieOfSlice slice) with
    | some part => if mayRetire s part slice then retireSlice s part slice else s
    | none => s) s

/-! Copies of device time (R392). -/

/-- How far a copy is off. -/
def skewOf (s : State) : DtCopy → Int
  | .core n => getAt 0 s.skewCore n
  | .slice n => getAt 0 s.skewSlice n

def setSkew (s : State) (c : DtCopy) (k : Int) : State :=
  match c with
  | .core n => { s with skewCore := putAt 0 s.skewCore n k }
  | .slice n => { s with skewSlice := putAt 0 s.skewSlice n k }

/-- A copy that the part has. -/
def copyValid : DtCopy → Bool
  | .core n => decide (n < Config.coreCount)
  | .slice n => decide (n < Config.coreCount)

/-- The die and the core number with which a copy is logged. -/
def copyPlace : DtCopy → Nat × Nat
  | .core n => (sectorOfCore n, n)
  | .slice n => (n / 16, 0xFF)

/-- `DT_SYNC_CHECK` (R392): every 4,096 ticks; a copy more than 2 ticks off is unsynchronised, and the L1 of such a core holds no copy. -/
def execDtSyncCheck (copy : DtCopy) (s : State) : Out :=
  eventOp (fun s =>
    if s.dt % 4096 = 0 ∧ 2 < (skewOf s copy).natAbs ∧ !isUnsync s copy then
      let s := { s with unsync := s.unsync ++ [⟨copy, s.dt⟩] }
      match copy with
      | .core n => { s with l1 := s.l1.filter (fun e => e.1 / 2 ^ 45 != n) }
      | .slice _ => s
    else s) s

/-- `DT_RELOAD` (R392): the copy equals the reference again, and its die logs KIND 6; one that is ahead stands still until then, for no copy
moves backward (R11; log 7). -/
def execDtReload (copy : DtCopy) (s : State) : Out :=
  eventOp (fun s =>
    if !isUnsync s copy then s
    else if 0 < skewOf s copy then (if s.lagging.contains copy then s else { s with lagging := s.lagging ++ [copy] })
    else
      let s := { setSkew s copy 0 with
        unsync := s.unsync.filter (fun u => u.copy != copy), lagging := s.lagging.filter (fun c => c != copy) }
      logError s (copyPlace copy).1 ⟨0, 0, (copyPlace copy).2, 63, 6, s.dt⟩) s

/-- `DT_UNSYNC_TIMEOUT` (R392, R424): after 2^20 ticks a core is fenced, and a slice is retired. -/
def execDtUnsyncTimeout (copy : DtCopy) (s : State) : Out :=
  eventOp (fun s =>
    if s.unsync.any (fun u => u.copy == copy && decide (u.since + Config.unsyncLimit ≤ s.dt)) then
      match copy with
      | .core n => endFencing (if (coreAt s n).fencing then s else beginFencing s n) n
      | .slice n =>
        match partOfDie s (dieOfSlice n) with
        | some part => if mayRetire s part n then retireSlice s part n else s
        | none => s
    else s) s

/-! Bit errors (R394). -/

/-- A group whose control data is damaged ends without a handler, with cause 0x0F (R373, R397); in the handler slot it is the group served
that ends. -/
def endDamaged (s : State) (core slot : Nat) : State :=
  match groupAt s core slot with
  | none => s
  | some g =>
    if slot = handlerSlot then serveNext (handlerFaults s core 0x0F) core
    else
      let s := match g.stop with
        | .served _ => dropGroup s core handlerSlot
        | _ => s
      serveNext (endGroup s core slot 0x0F false) core

/-- An uncorrectable error arises in a core's state: a second one within an hour is a reason to fence the core (R424). -/
def coreError (s : State) (core : Nat) : State :=
  let c := coreAt s core
  setCore s core { c with
    lastError := some s.dt, failing := c.failing || (match c.lastError with | some t => decide (s.dt ≤ t + Config.hour) | none => false) }

/-- The core in whose state a bit error arises, if one holds what it strikes and it cannot be corrected. -/
def Upset.core (s : State) : Upset → Option Nat
  | .vreg core slot _ _ => (groupAt s core slot).map (fun _ => core)
  | .sreg core slot _ => (groupAt s core slot).map (fun _ => core)
  | .control core slot => (groupAt s core slot).map (fun _ => core)
  | .scratch block _ => (blockAt s block).map Block.core
  | .tile core ctx _ _ => (lookupAt s.seqs (core * 4 + ctx)).map (fun _ => core)
  | .acc core ctx _ => (lookupAt s.seqs (core * 4 + ctx)).map (fun _ => core)
  | _ => none

/-- What a bit error does: a single one is corrected and counted in CECNT; a double one has the effect of Table 31.3. Lines of L1,
replicas and clean lines are dropped by turns of their own; a line whose lease record is lost counts as leased until its slice's DT +
2^16 (R393). -/
def Upset.strike (s : State) : Upset → State
  | .corrected die =>
    let l := getAt ErrorLog.empty s.logs die
    { s with logs := putAt ErrorLog.empty s.logs die { l with cecnt := min (2 ^ 32 - 1) (l.cecnt + 1) } }
  | .vreg core slot n lane =>
    modifyGroup s core slot (fun g =>
      if (g.vreg n).dead then g else g.setV n ((g.vreg n).poisoned (BitVec.twoPow 32 lane)))
  | .sreg core slot n => modifyGroup s core slot (fun g => g.setS n (g.sreg n).poisoned)
  | .control core slot => endDamaged s core slot
  | .scratch block w => modifyBlock s block (fun b => { b with poison := putAt false b.poison w true })
  | .hbm stack pa => poisonPhys s (physKey stack pa) 1
  | .dirtyLine part ia =>
    match lookupAt s.l2 (sliceKey (homeSlice (partAt s part) ia) ia), homePlace s part 0 (ia / 32 * 32) with
    | some x, .at stack pa _ _ _ =>
      if x.dirty then logAccess (poisonPhys (dropL2 s part ia) (physKey stack pa) 1) part ia 0 0xFF 63 3 else s
    | _, _ => s
  | .lease part ia => grantLease s part ia (dtSlice s (homeSlice (partAt s part) ia) + 2 ^ 16)
  | .tile core ctx t row =>
    { s with seqs := modifyAt s.seqs (core * 4 + ctx) (fun x => { x with tilePoison := putAt false x.tilePoison (t * 64 + row) true }) }
  | .acc core ctx e =>
    { s with seqs := modifyAt s.seqs (core * 4 + ctx) (fun x => { x with accPoison := putAt false x.accPoison e true }) }
  | .nbu bank r =>
    let x := { nbuAt s bank with poison := putAt false (nbuAt s bank).poison r true }
    match runView s x with
    | some v => nbuStop s bank x v
    | none => setNbu s bank x

/-- A BIT ERROR ARISES (R394, R424). -/
def upset (s : State) (u : Upset) : State :=
  u.strike (match u.core s with
    | some core => coreError s core
    | none => s)

end Sys2Proof.Machine
end

