-- ==== Sys2Proof/Machine/Host.lean ====
section
/-! DEFINITION. The host: function pages and rings (R360, R361, R421), completion records (R109, R362), copies (R363), graph registration (R184,
R381), and the registers that the host and firmware write. -/

namespace Sys2Proof.Machine

/-! Rings (R360). -/

/-- The host address of item `c` of a ring of 2^k entries of `z` bytes. -/
def ringSlot (base : Dword) (k c z : Nat) : Nat := base.toNat + z * (c % 2 ^ k)

/-- Items of a ring between two counters. -/
def ringCount (tail head : Word) : Nat := (tail - head).toNat

/-- The base of a ring: bits [11:0] are reserved. -/
def ringBase (v : Dword) : Dword := v &&& ~~~(0xFFF : Dword)

/-! Completion records (R361, R362). -/

/-- A work's writes have all been performed, and their times have passed (R109): for a launch, none of its accesses, answers, gathers and
commands is outstanding, and no run of it is suspended (R404). -/
def recordReady (s : State) (r : Record) : Bool :=
  (r.time == 0 || decide (r.time + 4 ≤ s.dt)) &&
  (match r.launch with
   | none => true
   | some l =>
     s.net.all (fun e => e.2.launch != l || (e.2.over && (e.2.doneAt == 0 || decide (e.2.doneAt + 4 ≤ s.dt)))) &&
         !s.replies.any (fun e => e.2.launch == l) && !s.gathers.any (fun e => e.2.launch == l) &&
     !s.cmds.any (fun e => e.2.launch == l) &&
     (match lookupAt s.launches l with
      | some x => x.flushed.isEmpty && (x.maxT == 0 || decide (x.maxT + 4 ≤ s.dt))
      | none => true))

/-- The 32 bytes of a record (Table 29.3). -/
def recordBytes (s : State) (f : Fn) (r : Record) : List Byte :=
  let status := match r.launch.bind (lookupAt s.launches) with
    | some l => launchStatus l
    | none => r.status
  toBytes 2 r.handle ++ toBytes 1 r.kind ++ [0] ++ toBytes 4 f.crtail.toNat ++ toBytes 4 status.toNat ++ toBytes 4 r.tag.toNat ++
    toBytes 8 r.start ++ toBytes 8 s.dt

/-- A finished launch leaves: its replicas are dropped (R86), and nothing of it is kept. -/
def dropLaunch (s : State) (l : Option Nat) : State :=
  match l with
  | none => s
  | some l =>
    { s with
      net := s.net.filter (fun e => e.2.launch != l && !((List.range 4).map (listWork l)).contains e.2.src.uid)
      replicas := s.replicas.filter (fun e => e.2.launch != l)
      runs := s.runs.filter (fun e => e.2.graph != l)
      launches := eraseAt s.launches l }

/-- `COMPLETION_RECORD_WRITE` (R109, R361): the first finished work's record is written, CRTAIL counts it, and the interrupt is sent; where
the host refuses the write the record is held. -/
def execCompletionRecordWrite (fn : Nat) (s : State) : Out :=
  eventOp (fun s =>
    let f := fnAt s fn
    match f.finished with
    | [] => s
    | r :: rest =>
      if !s.linkUp || f.crHeld || decide (2 ^ f.crlog2n ≤ ringCount f.crtail f.crhead) || !recordReady s r then s
      else
        let slot := ringSlot f.crbase f.crlog2n f.crtail.toNat 32
        if hostRefuses s slot then setFn s fn { f with crerr := true, crHeld := true }
        else
          let s := { s with hostMem := writeBytes s.hostMem slot (recordBytes s f r) }
          dropLaunch (setFn s fn { f with finished := rest, crtail := f.crtail + 1, msix := f.msix + 1 }) r.launch) s

/-! Ring registers. -/

/-- The host reaches the page of a function over the link; after a failed bring-up step no VF is offered (R422). -/
def hostReaches (s : State) (fn : Nat) : Bool := s.linkUp && (fn == 0 || s.bringUpFailed.isNone)

/-- A register that the host writes. -/
def hostWrite (fn : Nat) (g : Fn → Fn) (s : State) : State := if hostReaches s fn then setFn s fn (g (fnAt s fn)) else s

/-- The copy ring after a write of its tail or size: if it holds more than its entries the overrun is reported, and it is read no more
(R421). -/
def Fn.checkCopies (f : Fn) : Fn :=
  if 2 ^ f.cqlog2n < ringCount f.cqtail f.cqhead then { f with cqerr := true, cqHeld := true } else f

/-- The map ring. -/
def Fn.checkMaps (f : Fn) : Fn :=
  if 2 ^ f.mqlog2n < ringCount f.mqtail f.mqhead then { f with mqerr := true, mqHeld := true } else f

/-- `CQTAIL_WRITE` (R361, R421). -/
def execCqtailWrite (fn : Nat) (v : Word) (s : State) : Out :=
  eventOp (hostWrite fn (fun f => Fn.checkCopies { f with cqtail := v })) s

/-- The fields of a map request (R364), asked by the bound domain. -/
def mapRequest (s : State) (fn dom number slot : Nat) : MapReq :=
  let b := readBytes s.hostMem slot 32
  ⟨some (fn, number), none, dom, BitVec.ofNat 32 (fieldLE b 0 4), fieldLE b 8 8, BitVec.ofNat 64 (fieldLE b 16 8),
    BitVec.ofNat 32 (fieldLE b 4 4), BitVec.ofNat 32 (fieldLE b 24 1), BitVec.ofNat 32 (fieldLE b 28 4), s.dt⟩

/-- One request is read from the map ring and joins the mapping service's queue; one that the host does not let be read ends with STATUS
0x22, and nothing is known of its TAG (R421; log 79). -/
def readMap (fn part dom : Nat) (s : State) : State :=
  let f := fnAt s fn
  let slot := ringSlot f.mqbase f.mqlog2n f.mqhead.toNat 32
  let s' := setFn s fn { f with mqhead := f.mqhead + 1 }
  if hostRefuses s slot then pushRecord { s' with free := s.free + 1 } fn ⟨0, 4, 0x22, Config.freeWord s.free, s.dt, 0, none⟩
  else setPart s' part { partAt s part with mapQueue := (partAt s part).mapQueue ++ [mapRequest s fn dom f.mqhead.toNat slot] }

/-- `n` requests are read in ring order. -/
def readMaps (fn part dom : Nat) (s : State) : Nat → State
  | 0 => s
  | n + 1 => readMaps fn part dom (readMap fn part dom s) n

/-- The device reads the requests that a map ring releases. -/
def drainMaps (fn : Nat) (s : State) : State :=
  let f := fnAt s fn
  match f.bound with
  | some (part, dom) =>
    if f.mqHeld ∨ 2 ^ f.mqlog2n < ringCount f.mqtail f.mqhead then s else readMaps fn part dom s (ringCount f.mqtail f.mqhead)
  | none => s

/-- `MQTAIL_WRITE` (R361, R364, R421). -/
def execMqtailWrite (fn : Nat) (v : Word) (s : State) : Out :=
  eventOp (fun s =>
    if hostReaches s fn then drainMaps fn (hostWrite fn (fun f => Fn.checkMaps { f with mqtail := v }) s) else s) s

/-- `CRHEAD_WRITE` (R361). -/
def execCrheadWrite (fn : Nat) (v : Word) (s : State) : Out := eventOp (hostWrite fn (fun f => { f with crhead := v })) s

/-- `CRTAIL_READ` (R361): the value counts records that are in host memory. -/
def execCrtailRead (fn : Nat) (s : State) : Out := eventOp (hostWrite fn (fun f => { f with crtailRead := f.crtail })) s

/-- `CRBASE_WRITE` (R421): a held record may be written again. -/
def execCrbaseWrite (fn : Nat) (v : BitVec 64) (s : State) : Out :=
  eventOp (hostWrite fn (fun f => { f with crbase := ringBase v, crHeld := false })) s

/-- CQBASE or MQBASE written: an overrun ring is read again. -/
def writeRingBase (fn : Nat) (mq : Bool) (v : Dword) (s : State) : State :=
  if !hostReaches s fn then s
  else if mq then drainMaps fn (setFn s fn { fnAt s fn with mqbase := ringBase v, mqHeld := false })
  else setFn s fn { fnAt s fn with cqbase := ringBase v, cqHeld := false }

/-- `RING_BASE_WRITE` (R421). -/
def execRingBaseWrite (fn : Nat) (mq : Bool) (v : BitVec 64) (s : State) : Out := eventOp (writeRingBase fn mq v) s

/-! Copy-control blocks (R363, R421). -/

def CopyBlock.ofBytes (b : List Byte) : CopyBlock :=
  ⟨fieldLE b 0 1, BitVec.ofNat 32 (fieldLE b 4 4), fieldLE b 8 8, fieldLE b 16 8, fieldLE b 24 4, fieldLE b 28 2,
    fieldLE b 1 3 == 0 && fieldLE b 30 34 == 0⟩

/-- The block in an entry of the ring, begun now; one that the host does not let be read ends with STATUS 0x22, and nothing is known of its
TAG (R421; log 79). -/
def beginCopy (s : State) (slot : Nat) : HostCopy :=
  if hostRefuses s slot then ⟨⟨0, Config.freeWord s.free, 0, 0, 0, 0, true⟩, s.dt, 0, 0, 0x22⟩
  else ⟨CopyBlock.ofBytes (readBytes s.hostMem slot 64), s.dt, 0, 0, 0⟩

/-- The block that a function performs, with its partition and domain: the next one of its ring where none has begun. Once it is read CQHEAD
counts it (R361), and its work begins (R362). -/
def openCopy (s : State) (fn : Nat) : Option (HostCopy × Nat × Nat × State) :=
  let f := fnAt s fn
  match f.bound, f.copy with
  | some (part, dom), some w => some (w, part, dom, s)
  | some (part, dom), none =>
    if s.linkUp && !f.cqHeld && f.cqhead != f.cqtail then
      let w := beginCopy s (ringSlot f.cqbase f.cqlog2n f.cqhead.toNat 64)
      some (w, part, dom, setFn { s with free := s.free + 1 } fn { f with cqhead := f.cqhead + 1, copy := some w })
    else none
  | none, _ => none

/-- Who asks for what a function's block needs; its place in the ring tells the blocks apart. -/
def copyAsker (s : State) (fn : Nat) : Asker := { iodAsker (2 ^ 65 + fn) with pc := (fnAt s fn).cqhead.toNat }

/-- A block has been performed: its record waits to be written. -/
def endCopy (s : State) (fn handle kind status : Nat) (w : HostCopy) : State :=
  pushRecord (setFn (dropPulls s (copyAsker s fn)) fn { fnAt s fn with copy := none }) fn
    ⟨handle, kind, BitVec.ofNat 32 status, w.block.tag, w.start, w.time, none⟩

/-- The record kind of an operation (Table 29.3). -/
def copyKind (op : Nat) : Nat := if op = 3 then 2 else if op = 4 then 3 else 1

/-- A block with a reserved OP, a nonzero reserved byte, or a HOST or LEN that R363 does not admit (0x20). -/
def CopyBlock.bad (x : CopyBlock) : Bool :=
  !decide (1 ≤ x.op ∧ x.op ≤ 4) || !x.zero ||
    (decide (x.op ≤ 2) && (x.host % 4 != 0 || x.len % 4 != 0 || decide (x.len < 4 ∨ 2 ^ 30 < x.len)))

/-- One event of the copy ring: it goes on with the block if its OP is the event's; a block that is refused whatever its OP is handled by
the first event that meets it. -/
def copyOp (op : Nat) (fn : Nat) (f : HostCopy → Nat → Nat → State → State) : State → Out :=
  eventOp (fun s =>
    match openCopy s fn with
    | none => s
    | some (w, part, dom, s') =>
      let x := w.block
      if w.status = 0x22 then endCopy s' fn 0 1 0x22 w
      else if x.bad && (x.op == op || !decide (1 ≤ x.op ∧ x.op ≤ 4)) then endCopy s' fn 0 (copyKind x.op) 0x20 w
      else if x.op = op then f w part dom s'
      else s)

/-! Copies (R363): an aligned word of the device at a time, or what the copy has of one. -/

/-- The bytes of the element at which a copy stands. -/
def HostCopy.step (w : HostCopy) : Nat := min (4 - (w.block.dev + w.done) % 4) (w.block.len - w.done)

/-- The host answers an access of some bytes with an error: their ends tell, which may lie in two pages. -/
def spanRefused (s : State) (host n : Nat) : Bool := hostRefuses s host || hostRefuses s (host + n - 1)

/-- What becomes of an element: it waits, or it is done, with the time its write needs and its STATUS. -/
inductive CopyStep where
  | waits (s : State)
  | done (s : State) (t status : Nat)
deriving DecidableEq, Repr

/-- One element to the device. -/
def copyIn (fn part : Nat) (d : DomReg) (w : HostCopy) (s : State) : CopyStep :=
  let x := w.block
  let host := x.host + w.done
  let who := copyAsker s fn
  match rangeIa d.ranges permW (x.dev + w.done) with
  | none => .done s 0 0x21
  | some ia =>
    if spanRefused s host w.step then .done s 0 0x22
    else
      match agentWrite s who part d ⟨x.dev + w.done, ia, d.id, w.step, readLE s.hostMem host w.step, ones w.step⟩ with
      | .waits s => .waits s
      | .done s (some t) => .done s t 0
      | .done s none => .done s 0 0x23

/-- One element to the host. -/
def copyOut (fn part : Nat) (d : DomReg) (w : HostCopy) (s : State) : CopyStep :=
  let x := w.block
  let host := x.host + w.done
  let who := copyAsker s fn
  let r : Range := ⟨x.dev + w.done, w.step⟩
  if (rangeIa d.ranges permR r.va).isNone then .done s 0 0x21
  else
  match engineRead s who part d permR r.va r.len with
  | .waits => .waits (askRanges who part d [r] s)
  | .fails ia k => .done (dropPulls (logRead s part ia d.id 0xFF 63 k) who) 0 0x23
  | .value v =>
    let s := rangesRead s who part d [r]
    if spanRefused s host r.len then .done s 0 0x22 else .done { s with hostMem := writeBytes s.hostMem host (toBytes r.len v) } 0 0

/-- The copy after an element: it ends with the last one, and where the host refuses an access or the range fails its check (R363; log
75). -/
def afterElement (fn : Nat) (w : HostCopy) (r : CopyStep) : State :=
  match r with
  | .waits s => s
  | .done s t status =>
    let w := { w with done := w.done + w.step, time := max w.time t, status := if status = 0 then w.status else status }
    if status = 0x21 ∨ status = 0x22 ∨
        w.block.len ≤ w.done then endCopy s fn 0 1 w.status w else setFn s fn { fnAt s fn with copy := some w }

/-- A turn of a copy between the host and the device; its range is checked before its first element. -/
def copyTurn (op perms : Nat) (f : Nat → Nat → DomReg → HostCopy → State → CopyStep) (fn : Nat) : State → Out :=
  copyOp op fn (fun w part dom s =>
    let d := domReg s part dom
    if w.done = 0 ∧ (rangeFail d.ranges perms w.block.dev w.block.len).isSome then endCopy s fn 0 1 0x21 w
    else if !s.linkUp then s
    else afterElement fn w (f fn part d w s))

/-- `HOST_TO_DEVICE` (R363). -/
def execHostToDevice (fn : Nat) (s : State) : Out := copyTurn 1 permW copyIn fn s

/-- `DEVICE_TO_HOST` (R363). -/
def execDeviceToHost (fn : Nat) (s : State) : Out := copyTurn 2 permR copyOut fn s

/-! Registering a graph (R183, R184, R381). -/

/-- Nodes that no remaining node precedes, taken away until none is left or none can be taken; the rest lies on a cycle. -/
def takeSources (nodes : List NodeEntry) (left : List Nat) : Nat → List Nat
  | 0 => left
  | n + 1 =>
    takeSources nodes (left.filter (fun k => left.any (fun j =>
      match nodes[j]? with
      | some e => e.succs.contains k
      | none => false))) n

def hasCycle (nodes : List NodeEntry) : Bool := !(takeSources nodes (List.range nodes.length) nodes.length).isEmpty

/-- NPRED equals the number of successor entries that name the node. -/
def predsOk (nodes : List NodeEntry) : Bool :=
  (nodes.zip (List.range nodes.length)).all (fun e =>
    (nodes.map (fun x => (x.succs.filter (· == e.2)).length)).sum == e.1.npred)

/-- A block of the node fits one core. -/
def NodeEntry.fitsCore (e : NodeEntry) : Bool := decide (e.groups * e.regs ≤ 256 ∧ e.scratch ≤ 112)

/-- The permissions that registration checks (R184). -/
def NodeEntry.readable (e : NodeEntry) (d : DomReg) : Bool :=
  let ok := fun (perms va len : Nat) => len == 0 || (rangeFail d.ranges perms va len).isNone
  ok permX e.entry 2 && (e.nacc == 0 || ok permX e.seqEntry 4) && ok permR e.cbImg e.cbLen &&
    ok permR e.tables (64 * e.latN + 128 * e.pklN) && ok permR e.wlva (32 * e.wlN)

/-- Every field of a node lies within Table 14.1; `b` are its bytes and `n` the number of nodes. -/
def NodeEntry.fieldsOk (e : NodeEntry) (b : List Byte) (n : Nat) : Bool :=
  decide (1 ≤ e.blocks ∧ e.blocks ≤ 2 ^ 24 ∧ 1 ≤ e.groups ∧ e.groups ≤ 32 ∧ 1 ≤ e.regs ∧ e.regs ≤ 8 ∧ 1 ≤ e.uregs ∧ e.uregs ≤ 4) &&
  decide (e.scratch ≤ 112 ∧ e.prio < 8) && (e.hint == 0xFF || decide (e.hint < 12)) &&
  (e.nacc == 0 || (decide (4 ≤ e.nacc ∧ e.nacc ≤ 32) && e.nacc % 4 == 0 && e.soff % 16 == 0 && decide (e.soff ≤ 65440))) &&
  (e.cbLen == 0 || (e.cbLen % 4 == 0 && decide (e.cbLen ≤ 65536))) &&
  (e.argLen == 0 || (e.argLen % 16 == 0 && e.argOff % 16 == 0 && decide (e.argOff + e.argLen ≤ 65536))) &&
  decide (e.latN ≤ 16 ∧ e.pklN ≤ 8 ∧ e.wlN ≤ 4) && fieldLE b 72 56 == 0 && e.succs.all (fun k => decide (k < n)) &&
  e.succs.length == fieldLE b 51 1

/-- The lowest refusal code that a graph record meets (Table 30.3); 0 for none. -/
def graphStatus (nodes : List NodeEntry) (raw : List (List Byte)) (reserved : Bool) (d : DomReg) : Nat :=
  if hasCycle nodes then 0x10
  else if !predsOk nodes then 0x11
  else if !nodes.all NodeEntry.fitsCore then 0x12
  else if !nodes.all (fun e => e.readable d) then 0x13
  else if reserved || !(nodes.zip raw).all (fun e => e.1.fieldsOk e.2 nodes.length) then 0x14
  else 0

/-- The entries of the successor list that the nodes name. -/
def succCount (raw : List (List Byte)) : Nat :=
  raw.foldl (fun n b => if fieldLE b 51 1 = 0 then n else max n (fieldLE b 52 4 + fieldLE b 51 1)) 0

/-- A handle that the function does not use, from a start that firmware chooses; none where all are taken. -/
def freshHandle (s : State) (fn : Nat) : Option Nat :=
  let start := Config.freeHandle s.free % 65535
  ((List.range 65535).map (fun i => 1 + (start + i) % 65535)).find? (fun h => (lookupAt s.graphs (graphKey fn h)).isNone)

/-- A graph record that has been read whole is checked and registered. -/
def registerRead (s : State) (fn : Nat) (w : HostCopy) (head body : List Byte) (n : Nat) (d : DomReg) : State :=
  let raw := pieces body 128 n
  let list := body.drop (128 * n)
  let succs := (pieces list 2 (list.length / 2)).map ofBytes
  let nodes := raw.map (fun b => NodeEntry.ofBytes b succs)
  let st := graphStatus nodes raw (fieldLE head 2 62 != 0 || decide (n < 1 ∨ 1024 < n)) d
  if st ≠ 0 then endCopy s fn 0 2 st w
  else
    match freshHandle s fn with
    | none => endCopy s fn 0 2 0x15 w
    | some h => endCopy { s with graphs := setAt s.graphs (graphKey fn h) ⟨nodes⟩, free := s.free + 1 } fn h 2 0 w

/-- A read of a graph record of which nothing more is known than this: it waits, it fails R78 (0x21), or it meets an error response
(0x23) (R381). -/
def refuseRead (s : State) (fn part : Nat) (d : DomReg) (w : HostCopy) (rs : List Range) (r : VaRead) : State :=
  match r with
  | .denied => endCopy s fn 0 2 0x21 w
  | .fails _ _ => endCopy (logVa s part d.id r) fn 0 2 0x23 w
  | _ => askRanges (copyAsker s fn) part d rs s

/-- The ranges of a graph record: its header, its `n` entries, and a successor list of `k` (R183). -/
def graphRanges (dev n k : Nat) : List Range := [⟨dev, 64⟩, ⟨dev + 64, 128 * n⟩, ⟨dev + 64 + 128 * n, 2 * k⟩]

/-- `REGISTER_GRAPH` (R184, R381): the record is read whole before any check. -/
def execRegisterGraph (fn : Nat) (s : State) : Out :=
  copyOp 3 fn (fun w part dom s =>
    let d := domReg s part dom
    let dev := w.block.dev
    let read := fun (r : Range) => readVa s (copyAsker s fn) part d permR r.va r.len
    match read ⟨dev, 64⟩ with
    | .bytes head =>
      let n := fieldLE head 0 2
      match read ⟨dev + 64, 128 * n⟩ with
      | .bytes entries =>
        let rs := graphRanges dev n (succCount (pieces entries 128 n))
        match read (rs.getD 2 ⟨0, 0⟩) with
        | .bytes list => registerRead (rangesRead s (copyAsker s fn) part d rs) fn w head (entries ++ list) n d
        | r => refuseRead s fn part d w rs r
      | r => refuseRead s fn part d w (graphRanges dev n 0) r
    | r => refuseRead s fn part d w (graphRanges dev 0 0) r) s

/-- `RELEASE_HANDLE` (R363): once every launch that uses the handle has completed. -/
def execReleaseHandle (fn : Nat) (s : State) : Out :=
  copyOp 4 fn (fun w _ _ s =>
    let h := w.block.hdl
    match lookupAt s.graphs (graphKey fn h) with
    | none => endCopy s fn h 3 0x01 w
    | some _ =>
      if s.launches.any (fun e => e.2.fn == fn && e.2.handle == h && !e.2.done) then s
      else endCopy { s with graphs := eraseAt s.graphs (graphKey fn h) } fn h 3 0 w) s

/-! Registers of the device. -/

/-- `PWRCAP_WRITE` (R370, Table 29.6): values outside 500 to 3,600 are ignored. -/
def execPwrcapWrite (v : BitVec 64) (s : State) : Out :=
  eventOp (fun s =>
    let w := v.toNat % 2 ^ 12
    if 500 ≤ w ∧ w ≤ 3600 then { s with health := { s.health with pwrcap := w } } else s) s

/-- `DLFW_WRITE` (R171): ignored once LOCK is set. -/
def execDlfwWrite (die peer : Nat) (v : BitVec 64) (s : State) : Out :=
  eventOp (fun s =>
    let e := getAt Dlfw.reset s.dlfw (die * 4 + peer)
    if e.locked ∨ 4 ≤ die ∨ 4 ≤ peer ∨ die = peer then s
    else
      let e' : Dlfw := { e with opened := bitOf v.toNat 0, locked := bitOf v.toNat 1, part := v.toNat / 2 ^ 4 % 4 }
      { s with dlfw := putAt Dlfw.reset s.dlfw (die * 4 + peer) e' }) s

/-- A value that a replacement-class entry may hold (R87). -/
def classAllowed (w : Word) : Bool :=
  classWp w != 3 && decide (4 ≤ classLease w ∧ classLease w ≤ 16) && (w.toNat % 2 ^ 16 != 0 || classWp w == 2)

/-- No slice and no L1 holds a line of an NA class: those they have leave, but for pinned ones (R83, R87, R134; log 57). -/
def dropClass (s : State) (cls : Nat) : State :=
  let s := { s with replicas := s.replicas.filter (fun e => e.2.cls != cls), l1 := s.l1.filter (fun e => e.2.cls != cls) }
  s.parts.foldl (fun s p => releaseLines s p.1 (fun e =>
    e.2.cls == cls && p.2.slices.contains (e.1 / 2 ^ 45) && !linePinned s p.1 (e.1 % 2 ^ 45))) s

/-- `RCLASS_WRITE` (R87): a value that is not allowed is ignored whole. -/
def execRclassWrite (idx : Nat) (v : Word) (s : State) : Out :=
  eventOp (fun s =>
    let w := v &&& 0x07FFFFFF
    if idx < 16 ∧ classAllowed w then
      let s := { s with classes := putAt classReset s.classes idx w }
      if isNa s idx then dropClass s idx else s
    else s) s

/-- `ELOGACK_WRITE` (R383): frees the oldest entries of a die's log. -/
def execElogackWrite (die : Nat) (v : BitVec 64) (s : State) : Out :=
  eventOp (fun s =>
    let l := getAt ErrorLog.empty s.logs die
    let n := min (v.toNat % 2 ^ 7) l.entries.length
    { s with logs := putAt ErrorLog.empty s.logs die { l with entries := l.entries.drop n, head := (l.head + n) % 64 } }) s

/-- A field of the page that takes a range of values; others are ignored (R370 says so of PWRCAP; for the others it is log 42). -/
def inRange (v lo hi old : Nat) : Nat := if lo ≤ v ∧ v ≤ hi then v else old

/-- A write into a function's page (Tables 29.2, 29.6, 34.1); unlisted offsets and read-only fields ignore it. -/
def writePage (s : State) (fn offset : Nat) (v : Dword) : State :=
  match offset with
  | 0x008 => hostWrite fn (fun f => { f with crbase := ringBase v, crHeld := false }) s
  | 0x010 => hostWrite fn (fun f => { f with crlog2n := inRange (v.toNat % 32) 7 16 f.crlog2n }) s
  | 0x018 => hostWrite fn (fun f => { f with crhead := v.truncate 32 }) s
  | 0x028 => writeRingBase fn false v s
  | 0x030 => hostWrite fn (fun f => Fn.checkCopies { f with cqlog2n := inRange (v.toNat % 32) 6 12 f.cqlog2n }) s
  | 0x048 => writeRingBase fn true v s
  | 0x050 => hostWrite fn (fun f => Fn.checkMaps { f with mqlog2n := inRange (v.toNat % 32) 6 12 f.mqlog2n }) s
  | 0x088 => hostWrite fn (fun f => { f with
      crerr := f.crerr && !bitOf v.toNat 0, cqerr := f.cqerr && !bitOf v.toNat 1, mqerr := f.mqerr && !bitOf v.toNat 2 }) s
  | 0x810 =>
    if fn = 0 then { s with health := { s.health with tthr := inRange (v.toNat / 2 ^ 8 % 2 ^ 8) 80 100 s.health.tthr } } else s
  | _ => s

/-- A VA granule range [a, a + n) meets another. -/
def spansMeet (a n b m : Nat) : Bool := decide (0 < n ∧ 0 < m ∧ a < b + m ∧ b < a + n)

/-- A function's host window meets a valid range entry (R366). -/
def Fn.windowMeets (f : Fn) (ranges : List (Dword × Dword)) : Bool :=
  ranges.any (fun e => e.1.toNat % 2 == 1 && spansMeet f.hwva f.hwsize (e.1.toNat / 2 ^ 21 % 2 ^ 27) (e.2.toNat / 2 ^ 32 % 2 ^ 27))

/-- Range entries of a domain overlap the window of a function bound to it, which firmware never allows (R366). -/
def rangesBarred (s : State) (part dom : Nat) (ranges : List (Dword × Dword)) : Bool :=
  s.fns.any (fun f => f.2.bound == some (part, dom) && f.2.windowMeets ranges)

/-- A change to a domain-table entry. -/
def changeDomain (s : State) (part dom : Nat) (f : Domain → Domain) : State :=
  { s with domains := putAt Domain.none s.domains (part * 4096 + dom) (f (domainAt s part dom)) }

/-- A word of a range entry without its reserved bits (Table 6.1). -/
def rangeWord0 (v : Dword) : Dword := v &&& 0x0000FFFFFFE0003F
def rangeWord1 (v : Dword) : Dword := v &&& 0x07FFFFFF7FFFFFFF

/-- `REGISTER_WRITE` (R5): reserved bits are discarded; firmware never lets a range entry overlap a host window (R366). -/
def execRegisterWrite (r : DevReg) (v : BitVec 64) (s : State) : Out :=
  eventOp (fun s =>
    match r with
    | .page fn offset => writePage s fn offset v
    | .schedctl part => setPart s part { partAt s part with schedctl := v &&& 0x00FFFFFF00FFFFFF }
    | .watchctl part => setPart s part { partAt s part with watchctl := v &&& 0x00000000FFFFFFFF }
    | .dbgctl core => setCore s core { coreAt s core with ownTrap := bitOf v.toNat 0 }
    | .ptbase stack =>
      { s with stackRegs := putAt Stack.reset s.stackRegs stack { stackAt s stack with ptbase := v &&& 0x0000001FFFC00000 } }
    | .xways stack => { s with stackRegs := putAt Stack.reset s.stackRegs stack { stackAt s stack with xways := v } }
    | .pgwait stack => { s with stackRegs := putAt Stack.reset s.stackRegs stack { stackAt s stack with pgwait := v &&& 0xFFFF } }
    | .range part dom entry word1 =>
      let ranges := (domainAt s part dom).ranges.modify entry (fun e => if word1 then (e.1, rangeWord1 v) else (rangeWord0 v, e.2))
      if rangesBarred s part dom ranges then s else changeDomain s part dom (fun d => { d with ranges := ranges })
    | .handler part dom => changeDomain s part dom (fun d => { d with handler := v })
    | .key part dom i => changeDomain s part dom (fun d => { d with keys := d.keys.set i (v.truncate 32) })
    | .tclass part dom => changeDomain s part dom (fun d => { d with tclass := v.toNat % 4 })
    | .csave part dom => changeDomain s part dom (fun d => { d with csave := v.toNat % 2 ^ 52 })
    | .eyeletIa part => setPart s part { partAt s part with eyeletIa := v.toNat % 2 ^ 52 }
    | .eyeletCount part => setPart s part { partAt s part with eyeletCount := min 4096 v.toNat }
    | .owner stack page => { s with owners := putAt 0 s.owners (stack * 2 ^ 21 + page) (v.toNat % 2 ^ 13) }) s

/-! Reading registers (R5): what the host or firmware gets. WO and RSVD bits read as zero, as unlisted offsets do. -/

/-- Fields put together: each a value and the number of its lowest bit. -/
def fieldsOf (fs : List (Nat × Nat)) : Dword := BitVec.ofNat 64 (fs.foldl (fun n f => n + f.1 * 2 ^ f.2) 0)

def flagNat (b : Bool) : Nat := if b then 1 else 0

/-- READY, PART and DOM of a function (Table 29.2). -/
def readyField (s : State) (fn : Nat) : Dword :=
  match (fnAt s fn).bound with
  | some (part, dom) => fieldsOf [(flagNat s.isReady, 0), (part, 8), (dom, 16)]
  | none => fieldsOf [(flagNat (s.isReady && fn == 0), 0)]

/-- The PF's health page and bring-up report (Tables 29.6, 34.1). -/
def readHealth (h : Health) (offset : Nat) : Dword :=
  match offset with
  | 0x090 => fieldsOf [(h.bstep, 0), (h.bcode, 8), (h.bunit, 16)]
  | 0x800 => fieldsOf [(h.pwrcap, 0)]
  | 0x808 => fieldsOf [(h.pwrnow, 0)]
  | 0x810 => fieldsOf [(h.tmax, 0), (h.tthr, 8)]
  | 0x818 => fieldsOf [(h.eolh.toNat, 0), (h.eollo.toNat, 32)]
  | 0x820 => fieldsOf [(h.eolhi.toNat, 0)]
  | 0x828 => fieldsOf [(h.fenced, 0), (h.saveFail, 16)]
  | 0x830 => fieldsOf [(h.linkw, 0), (h.linkr, 8)]
  | _ => 0

/-- A read of a function's page (Tables 29.2, 34.1). -/
def readPage (s : State) (fn offset : Nat) : Dword :=
  let f := fnAt s fn
  match offset with
  | 0x008 => f.crbase
  | 0x010 => fieldsOf [(f.crlog2n, 0)]
  | 0x018 => fieldsOf [(f.crhead.toNat, 0)]
  | 0x020 => fieldsOf [(f.crtail.toNat, 0)]
  | 0x028 => f.cqbase
  | 0x030 => fieldsOf [(f.cqlog2n, 0)]
  | 0x038 => fieldsOf [(f.cqtail.toNat, 0)]
  | 0x040 => fieldsOf [(f.cqhead.toNat, 0)]
  | 0x048 => f.mqbase
  | 0x050 => fieldsOf [(f.mqlog2n, 0)]
  | 0x058 => fieldsOf [(f.mqtail.toNat, 0)]
  | 0x060 => fieldsOf [(f.mqhead.toNat, 0)]
  | 0x068 => fieldsOf [(f.hwva, 21)]
  | 0x070 => fieldsOf [(f.hwsize, 0)]
  | 0x078 => fieldsOf [(f.hwhost, 21)]
  | 0x080 => readyField s fn
  | 0x088 => fieldsOf [(flagNat f.crerr, 0), (flagNat f.cqerr, 1), (flagNat f.mqerr, 2)]
  | _ => if fn = 0 then readHealth s.health offset else 0

/-- A read of a register that REGISTER_WRITE writes. -/
def readDev (s : State) : DevReg → Dword
  | .page fn offset => readPage s fn offset
  | .schedctl part => (partAt s part).schedctl
  | .watchctl part => (partAt s part).watchctl
  | .dbgctl core => fieldsOf [(flagNat (coreAt s core).ownTrap, 0)]
  | .ptbase stack => (stackAt s stack).ptbase
  | .xways stack => (stackAt s stack).xways
  | .pgwait stack => (stackAt s stack).pgwait
  | .range part dom entry word1 =>
    let e := (domainAt s part dom).ranges.getD entry (0, 0)
    if word1 then e.2 else e.1
  | .handler part dom => (domainAt s part dom).handler
  | .key part dom i => ((domainAt s part dom).keys.getD i 0).zeroExtend 64
  | .tclass part dom => fieldsOf [((domainAt s part dom).tclass, 0)]
  | .csave part dom => fieldsOf [((domainAt s part dom).csave, 0)]
  | .eyeletIa part => fieldsOf [((partAt s part).eyeletIa, 0)]
  | .eyeletCount part => fieldsOf [((partAt s part).eyeletCount, 0)]
  | .owner stack page => fieldsOf [(getAt 0 s.owners (stack * 2 ^ 21 + page), 0)]

/-- A word of an error-log entry (Table 31.1), by its index in the ring of 64; one that is not in use reads as zero (log 80). -/
def readLog (l : ErrorLog) (entry word : Nat) : Dword :=
  match l.entries[(entry % 64 + 64 - l.head) % 64]? with
  | none => 0
  | some e =>
    match word with
    | 0 => fieldsOf [(e.ia, 0), (e.dom, 52)]
    | 1 => fieldsOf [(e.core, 0), (e.slot, 8), (e.kind, 16)]
    | 2 => fieldsOf [(e.dt, 0)]
    | _ => 0

/-- A READ OF A REGISTER. -/
def readBus (s : State) : BusReg → Dword
  | .dev r => readDev s r
  | .dlfw die peer =>
    let e := getAt Dlfw.reset s.dlfw (die * 4 + peer)
    fieldsOf [(flagNat e.opened, 0), (flagNat e.locked, 1), (e.part, 4), (e.drops, 8)]
  | .rclass idx => (classAt s idx).zeroExtend 64
  | .elogctl die =>
    let l := getAt ErrorLog.empty s.logs die
    fieldsOf [(l.entries.length, 0), (l.head, 8), (l.ovf, 16), (l.cecnt, 32)]
  | .elogack _ => 0
  | .elog die entry word => readLog (getAt ErrorLog.empty s.logs die) entry word
  | .smap core word =>
    let c := coreAt s core
    match word with
    | 0 => c.smap0
    | 1 => c.smap1
    | 2 => c.smap2
    | _ => fieldsOf [(c.gen, 0), (c.count, 4)]

/-- What the read returned stands in the state; the host reads its pages while the link is up. -/
def readRegister (s : State) (r : BusReg) : State :=
  match r with
  | .dev (.page fn _) => if hostReaches s fn then { s with busRead := readBus s r } else s
  | _ => { s with busRead := readBus s r }

/-! Functions (R359, R366) and communicators (R298). -/

/-- Functions of the part: the PF and up to 255 VFs. -/
def vfNumber (fn : Nat) : Bool := decide (1 ≤ fn ∧ fn ≤ 255)

/-- `VF_BIND` (R359), with no window over the domain's range entries (R366). -/
def execVfBind (fn part dom : Nat) (s : State) : Out :=
  eventOp (fun s =>
    if vfNumber fn && (fnAt s fn).bound.isNone && decide (s.bringUp = 5 ∧ dom < 4096) && !(partAt s part).dies.isEmpty &&
        !(fnAt s fn).windowMeets (domainAt s part dom).ranges then
      setFn s fn { fnAt s fn with bound := some (part, dom) }
    else s) s

/-- `VF_RELEASE` (R359): the binding ends. -/
def execVfRelease (fn : Nat) (s : State) : Out := eventOp (fun s => if vfNumber fn then unbind s fn else s) s

/-- `HOST_WINDOW_SET` (R366): VA and host address in 2 MiB units; firmware never lets the window overlap a range entry of the domain. -/
def execHostWindowSet (fn va size host : Nat) (s : State) : Out :=
  eventOp (fun s =>
    let f := { fnAt s fn with hwva := va % 2 ^ 27, hwsize := size % 2 ^ 16, hwhost := host % 2 ^ 43 }
    match f.bound with
    | some (part, dom) => if f.windowMeets (domainAt s part dom).ranges then s else setFn s fn f
    | none => setFn s fn f) s

/-- `COMMUNICATOR_SETUP` (R298, R299): P devices, this one's rank. -/
def execCommunicatorSetup (comm p rank : Nat) (s : State) : Out :=
  eventOp (fun s => if comm < 4096 ∧ rank < p ∧ p ≤ 256 then { s with comms := setAt s.comms comm ⟨p, rank, [], []⟩ } else s) s

end Sys2Proof.Machine
end

