-- ==== Sys2Proof/Machine/Dispatch.lean ====
section
/-! DEFINITION. One arm for each instruction: its meaning, or its rejection by name. -/

namespace Sys2Proof.Machine

/-- The meaning of an instruction for the agent whose turn it is. -/
def exec (i : Instr) (s : State) : Host.Outcome State Fault Refusal :=
  match i with
  | .iadd g p d a b => Sys2Proof.Machine.execIadd g p d a b s
  | .isub g p d a b => Sys2Proof.Machine.execIsub g p d a b s
  | .imul g p d a b => Sys2Proof.Machine.execImul g p d a b s
  | .imulhs g p d a b => Sys2Proof.Machine.execImulhs g p d a b s
  | .imulhu g p d a b => Sys2Proof.Machine.execImulhu g p d a b s
  | .imin g p d a b => Sys2Proof.Machine.execImin g p d a b s
  | .imax g p d a b => Sys2Proof.Machine.execImax g p d a b s
  | .umin g p d a b => Sys2Proof.Machine.execUmin g p d a b s
  | .umax g p d a b => Sys2Proof.Machine.execUmax g p d a b s
  | .iadds g p d a b => Sys2Proof.Machine.execIadds g p d a b s
  | .isubs g p d a b => Sys2Proof.Machine.execIsubs g p d a b s
  | .iabs g p d a => Sys2Proof.Machine.execIabs g p d a s
  | .ineg g p d a => Sys2Proof.Machine.execIneg g p d a s
  | .popc g p d a => Sys2Proof.Machine.execPopc g p d a s
  | .clz g p d a => Sys2Proof.Machine.execClz g p d a s
  | .brev g p d a => Sys2Proof.Machine.execBrev g p d a s
  | .and g p d a b => Sys2Proof.Machine.execAnd g p d a b s
  | .or g p d a b => Sys2Proof.Machine.execOr g p d a b s
  | .xor g p d a b => Sys2Proof.Machine.execXor g p d a b s
  | .andn g p d a b => Sys2Proof.Machine.execAndn g p d a b s
  | .shl g p d a b => Sys2Proof.Machine.execShl g p d a b s
  | .shr g p d a b => Sys2Proof.Machine.execShr g p d a b s
  | .sar g p d a b => Sys2Proof.Machine.execSar g p d a b s
  | .rot g p d a b => Sys2Proof.Machine.execRot g p d a b s
  | .bfe g p d a b => Sys2Proof.Machine.execBfe g p d a b s
  | .bfes g p d a b => Sys2Proof.Machine.execBfes g p d a b s
  | .bfi g p d a b => Sys2Proof.Machine.execBfi g p d a b s
  | .bmix g p d a b => Sys2Proof.Machine.execBmix g p d a b s
  | .sel g p d a b => Sys2Proof.Machine.execSel g p d a b s
  | .mov g p d a => Sys2Proof.Machine.execMov g p d a s
  | .lea4 g p d a b => Sys2Proof.Machine.execLea4 g p d a b s
  | .lea8 g p d a b => Sys2Proof.Machine.execLea8 g p d a b s
  | .isetpEq g p x k a b => Sys2Proof.Machine.execIsetpEq g p x k a b s
  | .isetpNe g p x k a b => Sys2Proof.Machine.execIsetpNe g p x k a b s
  | .isetpLt g p x k a b => Sys2Proof.Machine.execIsetpLt g p x k a b s
  | .isetpLe g p x k a b => Sys2Proof.Machine.execIsetpLe g p x k a b s
  | .isetpGt g p x k a b => Sys2Proof.Machine.execIsetpGt g p x k a b s
  | .isetpGe g p x k a b => Sys2Proof.Machine.execIsetpGe g p x k a b s
  | .isetpUlt g p x k a b => Sys2Proof.Machine.execIsetpUlt g p x k a b s
  | .isetpUle g p x k a b => Sys2Proof.Machine.execIsetpUle g p x k a b s
  | .fadd g p d a b => Sys2Proof.Machine.execFadd g p d a b s
  | .fsub g p d a b => Sys2Proof.Machine.execFsub g p d a b s
  | .fmul g p d a b => Sys2Proof.Machine.execFmul g p d a b s
  | .fmin g p d a b => Sys2Proof.Machine.execFmin g p d a b s
  | .fmax g p d a b => Sys2Proof.Machine.execFmax g p d a b s
  | .fabs g p d a => Sys2Proof.Machine.execFabs g p d a s
  | .fneg g p d a => Sys2Proof.Machine.execFneg g p d a s
  | .fcpys g p d a b => Sys2Proof.Machine.execFcpys g p d a b s
  | .fsetpEq g p x k a b => Sys2Proof.Machine.execFsetpEq g p x k a b s
  | .fsetpNe g p x k a b => Sys2Proof.Machine.execFsetpNe g p x k a b s
  | .fsetpLt g p x k a b => Sys2Proof.Machine.execFsetpLt g p x k a b s
  | .fsetpLe g p x k a b => Sys2Proof.Machine.execFsetpLe g p x k a b s
  | .fsetpGt g p x k a b => Sys2Proof.Machine.execFsetpGt g p x k a b s
  | .fsetpGe g p x k a b => Sys2Proof.Machine.execFsetpGe g p x k a b s
  | .fsetpUn g p x k a b => Sys2Proof.Machine.execFsetpUn g p x k a b s
  | .fclass g p d a => Sys2Proof.Machine.execFclass g p d a s
  | .ffma g d a b c => Sys2Proof.Machine.execFfma g d a b c s
  | .ffmaL g d a b lit => Sys2Proof.Machine.execFfmaL g d a b lit s
  | .ffmaC g d a b c => Sys2Proof.Machine.execFfmaC g d a b c s
  | .frcp g p d a => Sys2Proof.Machine.execFrcp g p d a s
  | .frsq g p d a => Sys2Proof.Machine.execFrsq g p d a s
  | .fsqrt g p d a => Sys2Proof.Machine.execFsqrt g p d a s
  | .fex2 g p d a => Sys2Proof.Machine.execFex2 g p d a s
  | .flg2 g p d a => Sys2Proof.Machine.execFlg2 g p d a s
  | .fsinp g p d a => Sys2Proof.Machine.execFsinp g p d a s
  | .fcosp g p d a => Sys2Proof.Machine.execFcosp g p d a s
  | .ftanh g p d a => Sys2Proof.Machine.execFtanh g p d a s
  | .cvt g p d a f => Sys2Proof.Machine.execCvt g p d a f s
  | .f2i g p d a f => Sys2Proof.Machine.execF2i g p d a f s
  | .i2f g p d a f => Sys2Proof.Machine.execI2f g p d a f s
  | .tagset g p d a t => Sys2Proof.Machine.execTagset g p d a t s
  | .tagget g p d a => Sys2Proof.Machine.execTagget g p d a s
  | .unpkLo g p d a => Sys2Proof.Machine.execUnpkLo g p d a s
  | .unpkHi g p d a => Sys2Proof.Machine.execUnpkHi g p d a s
  | .scl g p d a b => Sys2Proof.Machine.execScl g p d a b s
  | .hadd2 g p d a b => Sys2Proof.Machine.execHadd2 g p d a b s
  | .hmul2 g p d a b => Sys2Proof.Machine.execHmul2 g p d a b s
  | .hfma2 g p d a b => Sys2Proof.Machine.execHfma2 g p d a b s
  | .hmin2 g p d a b => Sys2Proof.Machine.execHmin2 g p d a b s
  | .hmax2 g p d a b => Sys2Proof.Machine.execHmax2 g p d a b s
  | .dot2 g p d a b => Sys2Proof.Machine.execDot2 g p d a b s
  | .dot4 g p d a b => Sys2Proof.Machine.execDot4 g p d a b s
  | .pack g p d a b => Sys2Proof.Machine.execPack g p d a b s
  | .shflIdx g p d a b => Sys2Proof.Machine.execShflIdx g p d a b s
  | .shflUp g p d a n => Sys2Proof.Machine.execShflUp g p d a n s
  | .shflDn g p d a n => Sys2Proof.Machine.execShflDn g p d a n s
  | .shflXor g p d a n => Sys2Proof.Machine.execShflXor g p d a n s
  | .pollSome g p q x => Sys2Proof.Machine.execPollSome g p q x s
  | .pollEvery g p q x => Sys2Proof.Machine.execPollEvery g p q x s
  | .pollAgree g p q x => Sys2Proof.Machine.execPollAgree g p q x s
  | .pollMost g p q x => Sys2Proof.Machine.execPollMost g p q x s
  | .ballot g p d x => Sys2Proof.Machine.execBallot g p d x s
  | .redaddF g p d a => Sys2Proof.Machine.execRedaddF g p d a s
  | .redaddI g p d a => Sys2Proof.Machine.execRedaddI g p d a s
  | .movi d im => Sys2Proof.Machine.execMovi d im s
  | .movf d im => Sys2Proof.Machine.execMovf d im s
  | .ld8z g p d a n r => Sys2Proof.Machine.execLd8z g p d a n r s
  | .ld8s g p d a n r => Sys2Proof.Machine.execLd8s g p d a n r s
  | .ld16z g p d a n r => Sys2Proof.Machine.execLd16z g p d a n r s
  | .ld16s g p d a n r => Sys2Proof.Machine.execLd16s g p d a n r s
  | .ld32 g p d a n r => Sys2Proof.Machine.execLd32 g p d a n r s
  | .ldF32 g p d a n r => Sys2Proof.Machine.execLdF32 g p d a n r s
  | .ld64 g p d a n r => Sys2Proof.Machine.execLd64 g p d a n r s
  | .ld128 g p d a n r => Sys2Proof.Machine.execLd128 g p d a n r s
  | .st8 g p d a n => Sys2Proof.Machine.execSt8 g p d a n s
  | .st16 g p d a n => Sys2Proof.Machine.execSt16 g p d a n s
  | .st32 g p d a n => Sys2Proof.Machine.execSt32 g p d a n s
  | .st64 g p d a n => Sys2Proof.Machine.execSt64 g p d a n s
  | .st128 g p d a n => Sys2Proof.Machine.execSt128 g p d a n s
  | .stN4 g p d a n => Sys2Proof.Machine.execStN4 g p d a n s
  | .stN2 g p d a n => Sys2Proof.Machine.execStN2 g p d a n s
  | .lds32 g p d a n => Sys2Proof.Machine.execLds32 g p d a n s
  | .lds64 g p d a n => Sys2Proof.Machine.execLds64 g p d a n s
  | .lds128 g p d a n => Sys2Proof.Machine.execLds128 g p d a n s
  | .sts32 g p d a n => Sys2Proof.Machine.execSts32 g p d a n s
  | .sts64 g p d a n => Sys2Proof.Machine.execSts64 g p d a n s
  | .sts128 g p d a n => Sys2Proof.Machine.execSts128 g p d a n s
  | .ldc g d a n => Sys2Proof.Machine.execLdc g d a n s
  | .wset g w n => Sys2Proof.Machine.execWset g w n s
  | .atomAdd g p d a n => Sys2Proof.Machine.execAtomAdd g p d a n s
  | .atomAddf g p d a n => Sys2Proof.Machine.execAtomAddf g p d a n s
  | .atomMin g p d a n => Sys2Proof.Machine.execAtomMin g p d a n s
  | .atomMax g p d a n => Sys2Proof.Machine.execAtomMax g p d a n s
  | .atomUmin g p d a n => Sys2Proof.Machine.execAtomUmin g p d a n s
  | .atomUmax g p d a n => Sys2Proof.Machine.execAtomUmax g p d a n s
  | .atomAnd g p d a n => Sys2Proof.Machine.execAtomAnd g p d a n s
  | .atomOr g p d a n => Sys2Proof.Machine.execAtomOr g p d a n s
  | .atomXor g p d a n => Sys2Proof.Machine.execAtomXor g p d a n s
  | .atomXchg g p d a n => Sys2Proof.Machine.execAtomXchg g p d a n s
  | .atomCas g p d a n => Sys2Proof.Machine.execAtomCas g p d a n s
  | .atomAddh2 g p d a n => Sys2Proof.Machine.execAtomAddh2 g p d a n s
  | .redAdd g p d a n k => Sys2Proof.Machine.execRedAdd g p d a n k s
  | .redAddf g p d a n k => Sys2Proof.Machine.execRedAddf g p d a n k s
  | .redMin g p d a n k => Sys2Proof.Machine.execRedMin g p d a n k s
  | .redMax g p d a n k => Sys2Proof.Machine.execRedMax g p d a n k s
  | .redAnd g p d a n k => Sys2Proof.Machine.execRedAnd g p d a n k s
  | .redOr g p d a n k => Sys2Proof.Machine.execRedOr g p d a n k s
  | .redXor g p d a n k => Sys2Proof.Machine.execRedXor g p d a n k s
  | .redAddx g p d a n k => Sys2Proof.Machine.execRedAddx g p d a n k s
  | .ild g p d a sl => Sys2Proof.Machine.execIld g p d a sl s
  | .ildg g p d a sl => Sys2Proof.Machine.execIldg g p d a sl s
  | .ispl g p d a sl => Sys2Proof.Machine.execIspl g p d a sl s
  | .isplg g p d a sl => Sys2Proof.Machine.execIsplg g p d a sl s
  | .ifetch g p d a sl => Sys2Proof.Machine.execIfetch g p d a sl s
  | .iwgt g p d a sl => Sys2Proof.Machine.execIwgt g p d a sl s
  | .icell g p d a sl => Sys2Proof.Machine.execIcell g p d a sl s
  | .istx g p d a sl => Sys2Proof.Machine.execIstx g p d a sl s
  | .pkq g p f n => Sys2Proof.Machine.execPkq g p f n s
  | .pkqs g p f n => Sys2Proof.Machine.execPkqs g p f n s
  | .pkb g p f n => Sys2Proof.Machine.execPkb g p f n s
  | .pkbq g p f n => Sys2Proof.Machine.execPkbq g p f n s
  | .cpyG2s g p f n => Sys2Proof.Machine.execCpyG2s g p f n s
  | .cpyS2g g p f n => Sys2Proof.Machine.execCpyS2g g p f n s
  | .cpyS2s g p f n => Sys2Proof.Machine.execCpyS2s g p f n s
  | .cpyCmp g p f a n => Sys2Proof.Machine.execCpyCmp g p f a n s
  | .nbLd g p f n => Sys2Proof.Machine.execNbLd g p f n s
  | .nbRun g p f a n => Sys2Proof.Machine.execNbRun g p f a n s
  | .nbGet g p f n => Sys2Proof.Machine.execNbGet g p f n s
  | .nbGetSum g p f n => Sys2Proof.Machine.execNbGetSum g p f n s
  | .nbMode g p f n => Sys2Proof.Machine.execNbMode g p f n s
  | .coll g p f n => Sys2Proof.Machine.execColl g p f n s
  | .sadd g q d a b => Sys2Proof.Machine.execSadd g q d a b s
  | .ssub g q d a b => Sys2Proof.Machine.execSsub g q d a b s
  | .smul g q d a b => Sys2Proof.Machine.execSmul g q d a b s
  | .smulhi g q d a b => Sys2Proof.Machine.execSmulhi g q d a b s
  | .sand g q d a b => Sys2Proof.Machine.execSand g q d a b s
  | .sor g q d a b => Sys2Proof.Machine.execSor g q d a b s
  | .sxor g q d a b => Sys2Proof.Machine.execSxor g q d a b s
  | .sshl g q d a b => Sys2Proof.Machine.execSshl g q d a b s
  | .sshr g q d a b => Sys2Proof.Machine.execSshr g q d a b s
  | .ssar g q d a b => Sys2Proof.Machine.execSsar g q d a b s
  | .smin g q d a b => Sys2Proof.Machine.execSmin g q d a b s
  | .smax g q d a b => Sys2Proof.Machine.execSmax g q d a b s
  | .smov g q d a => Sys2Proof.Machine.execSmov g q d a s
  | .ssetpEq g q x k a b => Sys2Proof.Machine.execSsetpEq g q x k a b s
  | .ssetpLt g q x k a b => Sys2Proof.Machine.execSsetpLt g q x k a b s
  | .ssetpUlt g q x k a b => Sys2Proof.Machine.execSsetpUlt g q x k a b s
  | .smovi d im => Sys2Proof.Machine.execSmovi d im s
  | .bra g p o => Sys2Proof.Machine.execBra g p o s
  | .braQ g q o => Sys2Proof.Machine.execBraQ g q o s
  | .call g o => Sys2Proof.Machine.execCall g o s
  | .join g => Sys2Proof.Machine.execJoin g s
  | .brx g p r => Sys2Proof.Machine.execBrx g p r s
  | .callx g p r => Sys2Proof.Machine.execCallx g p r s
  | .ret g => Sys2Proof.Machine.execRet g s
  | .jtab g p r t => Sys2Proof.Machine.execJtab g p r t s
  | .barArr g n => Sys2Proof.Machine.execBarArr g n s
  | .barWait g n => Sys2Proof.Machine.execBarWait g n s
  | .barSync g n => Sys2Proof.Machine.execBarSync g n s
  | .fenceB g => Sys2Proof.Machine.execFenceB g s
  | .fenceD g => Sys2Proof.Machine.execFenceD g s
  | .fenceS g => Sys2Proof.Machine.execFenceS g s
  | .waitf g m => Sys2Proof.Machine.execWaitf g m s
  | .regang g => Sys2Proof.Machine.execRegang g s
  | .dead g f n => Sys2Proof.Machine.execDead g f n s
  | .nopLong g n => Sys2Proof.Machine.execNopLong g n s
  | .loop g c e => Sys2Proof.Machine.execLoop g c e s
  | .loopi g n e => Sys2Proof.Machine.execLoopi g n e s
  | .lbrk g => Sys2Proof.Machine.execLbrk g s
  | .fbp g im lo hi => Sys2Proof.Machine.execFbp g im lo hi s
  | .pret g => Sys2Proof.Machine.execPret g s
  | .trap g p im => Sys2Proof.Machine.execTrap g p im s
  | .brk g p im => Sys2Proof.Machine.execBrk g p im s
  | .getsr g p d c sl => Sys2Proof.Machine.execGetsr g p d c sl s
  | .setsr g x c sl => Sys2Proof.Machine.execSetsr g x c sl s
  | .gcall g im => Sys2Proof.Machine.execGcall g im s
  | .gret g => Sys2Proof.Machine.execGret g s
  | .gabort g im => Sys2Proof.Machine.execGabort g im s
  | .spawn g n => Sys2Proof.Machine.execSpawn g n s
  | .exit g p => Sys2Proof.Machine.execExit g p s
  | .yield g => Sys2Proof.Machine.execYield g s
  | .xrd g d c x => Sys2Proof.Machine.execXrd g d c x s
  | .xwr g sl c x => Sys2Proof.Machine.execXwr g sl c x s
  | .wlpush g p a w => Sys2Proof.Machine.execWlpush g p a w s
  | .wlpop g p d w => Sys2Proof.Machine.execWlpop g p d w s
  | .wlins g p a w => Sys2Proof.Machine.execWlins g p a w s
  | .wlcnt g p d w => Sys2Proof.Machine.execWlcnt g p d w s
  | .isect g p d a b => Sys2Proof.Machine.execIsect g p d a b s
  | .union g p d a b => Sys2Proof.Machine.execUnion g p d a b s
  | .merge g p d a b => Sys2Proof.Machine.execMerge g p d a b s
  | .compactMov d sl => Sys2Proof.Machine.execCompactMov d sl s
  | .compactIadd d sl => Sys2Proof.Machine.execCompactIadd d sl s
  | .compactIsub d sl => Sys2Proof.Machine.execCompactIsub d sl s
  | .compactImul d sl => Sys2Proof.Machine.execCompactImul d sl s
  | .compactAnd d sl => Sys2Proof.Machine.execCompactAnd d sl s
  | .compactOr d sl => Sys2Proof.Machine.execCompactOr d sl s
  | .compactXor d sl => Sys2Proof.Machine.execCompactXor d sl s
  | .compactShl d sl => Sys2Proof.Machine.execCompactShl d sl s
  | .compactShr d sl => Sys2Proof.Machine.execCompactShr d sl s
  | .compactSar d sl => Sys2Proof.Machine.execCompactSar d sl s
  | .compactFadd d sl => Sys2Proof.Machine.execCompactFadd d sl s
  | .compactFsub d sl => Sys2Proof.Machine.execCompactFsub d sl s
  | .compactFmul d sl => Sys2Proof.Machine.execCompactFmul d sl s
  | .compactFmin d sl => Sys2Proof.Machine.execCompactFmin d sl s
  | .compactFmax d sl => Sys2Proof.Machine.execCompactFmax d sl s
  | .compactFneg d sl => Sys2Proof.Machine.execCompactFneg d sl s
  | .nopN n => Sys2Proof.Machine.execNopN n s
  | .dead2 d sl => Sys2Proof.Machine.execDead2 d sl s
  | .braS o => Sys2Proof.Machine.execBraS o s
  | .barS n => Sys2Proof.Machine.execBarS n s
  | .waitfS m => Sys2Proof.Machine.execWaitfS m s
  | .saddS d sl => Sys2Proof.Machine.execSaddS d sl s
  | .smovS d sl => Sys2Proof.Machine.execSmovS d sl s
  | .compactExit => Sys2Proof.Machine.execCompactExit s
  | .compactRegang => Sys2Proof.Machine.execCompactRegang s
  | .compactRet => Sys2Proof.Machine.execCompactRet s
  | .compactBrk => Sys2Proof.Machine.execCompactBrk s
  | .compactYield => Sys2Proof.Machine.execCompactYield s
  | .joinS => Sys2Proof.Machine.execJoinS s
  | .mnop => Sys2Proof.Machine.execMnop s
  | .mset d im => Sys2Proof.Machine.execMset d im s
  | .msetH d im => Sys2Proof.Machine.execMsetH d im s
  | .madd d a b => Sys2Proof.Machine.execMadd d a b s
  | .maddImm d a im => Sys2Proof.Machine.execMaddImm d a im s
  | .maddW d a b => Sys2Proof.Machine.execMaddW d a b s
  | .maddWImm d a im => Sys2Proof.Machine.execMaddWImm d a im s
  | .mbnz c k o => Sys2Proof.Machine.execMbnz c k o s
  | .mjmp o => Sys2Proof.Machine.execMjmp o s
  | .mhalt => Sys2Proof.Machine.execMhalt s
  | .tcfg t n c sl a b => Sys2Proof.Machine.execTcfg t n c sl a b s
  | .tld t a x w sl r p => Sys2Proof.Machine.execTld t a x w sl r p s
  | .tldt t a x w sl z => Sys2Proof.Machine.execTldt t a x w sl z s
  | .mzero n => Sys2Proof.Machine.execMzero n s
  | .mma n a b => Sys2Proof.Machine.execMma n a b s
  | .mmam n a b c => Sys2Proof.Machine.execMmam n a b c s
  | .mdrain n r => Sys2Proof.Machine.execMdrain n r s
  | .mupd n r => Sys2Proof.Machine.execMupd n r s
  | .bpush t => Sys2Proof.Machine.execBpush t s
  | .bpop t => Sys2Proof.Machine.execBpop t s
  | .bpopT t z => Sys2Proof.Machine.execBpopT t z s
  | .mbarA n => Sys2Proof.Machine.execMbarA n s
  | .mbarW n => Sys2Proof.Machine.execMbarW n s
  | .nrd d a c x => Sys2Proof.Machine.execNrd d a c x s
  | .nwr d a c x => Sys2Proof.Machine.execNwr d a c x s
  | .nnext a h => Sys2Proof.Machine.execNnext a h s
  | .nif => Sys2Proof.Machine.execNif s
  | .nelse => Sys2Proof.Machine.execNelse s
  | .nendif => Sys2Proof.Machine.execNendif s
  | .nsum d a t => Sys2Proof.Machine.execNsum d a t s
  | .nend => Sys2Proof.Machine.execNend s
  | .nbuIalu op d a b => Sys2Proof.Machine.execNbuIalu op d a b s
  | .nbuLogic op d a b => Sys2Proof.Machine.execNbuLogic op d a b s
  | .nbuFalu op d a b => Sys2Proof.Machine.execNbuFalu op d a b s
  | .nbuFcmp op k a b => Sys2Proof.Machine.execNbuFcmp op k a b s
  | .nbuFfma d a b c => Sys2Proof.Machine.execNbuFfma d a b c s
  | .nbuMovi float d im => Sys2Proof.Machine.execNbuMovi float d im s
  | .launchWord fn w => Sys2Proof.Machine.execLaunchWord fn w s
  | .nodeStart launch node => Sys2Proof.Machine.execNodeStart launch node s
  | .blockPlace part => Sys2Proof.Machine.execBlockPlace part s
  | .sequencerStart core ctx => Sys2Proof.Machine.execSequencerStart core ctx s
  | .reserveTimeout part => Sys2Proof.Machine.execReserveTimeout part s
  | .taskSteal core => Sys2Proof.Machine.execTaskSteal core s
  | .completionRecordWrite fn => Sys2Proof.Machine.execCompletionRecordWrite fn s
  | .cqtailWrite fn v => Sys2Proof.Machine.execCqtailWrite fn v s
  | .mqtailWrite fn v => Sys2Proof.Machine.execMqtailWrite fn v s
  | .hostToDevice fn => Sys2Proof.Machine.execHostToDevice fn s
  | .deviceToHost fn => Sys2Proof.Machine.execDeviceToHost fn s
  | .registerGraph fn => Sys2Proof.Machine.execRegisterGraph fn s
  | .releaseHandle fn => Sys2Proof.Machine.execReleaseHandle fn s
  | .map part => Sys2Proof.Machine.execMap part s
  | .unmap part => Sys2Proof.Machine.execUnmap part s
  | .setClass part => Sys2Proof.Machine.execSetClass part s
  | .markNotPresent part => Sys2Proof.Machine.execMarkNotPresent part s
  | .markPresent part => Sys2Proof.Machine.execMarkPresent part s
  | .crheadWrite fn v => Sys2Proof.Machine.execCrheadWrite fn v s
  | .crtailRead fn => Sys2Proof.Machine.execCrtailRead fn s
  | .crbaseWrite fn v => Sys2Proof.Machine.execCrbaseWrite fn v s
  | .ringBaseWrite fn mq v => Sys2Proof.Machine.execRingBaseWrite fn mq v s
  | .pwrcapWrite v => Sys2Proof.Machine.execPwrcapWrite v s
  | .dlfwWrite die peer v => Sys2Proof.Machine.execDlfwWrite die peer v s
  | .rclassWrite idx v => Sys2Proof.Machine.execRclassWrite idx v s
  | .elogackWrite die v => Sys2Proof.Machine.execElogackWrite die v s
  | .registerWrite r v => Sys2Proof.Machine.execRegisterWrite r v s
  | .partitionSetup dies => Sys2Proof.Machine.execPartitionSetup dies s
  | .vfBind fn part dom => Sys2Proof.Machine.execVfBind fn part dom s
  | .spdmMeasurement fn => Sys2Proof.Machine.execSpdmMeasurement fn s
  | .doeImageWrite image sig => Sys2Proof.Machine.execDoeImageWrite image sig s
  | .packageReset => Sys2Proof.Machine.execPackageReset s
  | .bringUpStep result => Sys2Proof.Machine.execBringUpStep result s
  | .partitionReset part => Sys2Proof.Machine.execPartitionReset part s
  | .groupReset core slot => Sys2Proof.Machine.execGroupReset core slot s
  | .thermalTrip die => Sys2Proof.Machine.execThermalTrip die s
  | .temperatureThrottle die temp => Sys2Proof.Machine.execTemperatureThrottle die temp s
  | .monitorSample values => Sys2Proof.Machine.execMonitorSample values s
  | .eolPublish h lo hi => Sys2Proof.Machine.execEolPublish h lo hi s
  | .coreFence core failed => Sys2Proof.Machine.execCoreFence core failed s
  | .flitReplay => Sys2Proof.Machine.execFlitReplay s
  | .linkRetrain rate modules => Sys2Proof.Machine.execLinkRetrain rate modules s
  | .linkLost => Sys2Proof.Machine.execLinkLost s
  | .sliceRetire slice => Sys2Proof.Machine.execSliceRetire slice s
  | .rehashResponse n => Sys2Proof.Machine.execRehashResponse n s
  | .pageRetire ia stack pa => Sys2Proof.Machine.execPageRetire ia stack pa s
  | .dtSyncCheck copy => Sys2Proof.Machine.execDtSyncCheck copy s
  | .dtReload copy => Sys2Proof.Machine.execDtReload copy s
  | .dtUnsyncTimeout copy => Sys2Proof.Machine.execDtUnsyncTimeout copy s
  | .homeRequest n replica => Sys2Proof.Machine.execHomeRequest n replica s
  | .loadReply n => Sys2Proof.Machine.execLoadReply n s
  | .writeAck n => Sys2Proof.Machine.execWriteAck n s
  | .errorResponse n => Sys2Proof.Machine.execErrorResponse n s
  | .nmReduction stack => Sys2Proof.Machine.execNmReduction stack s
  | .pageInAbandon ia => Sys2Proof.Machine.execPageInAbandon ia s
  | .pageInSave core slot => Sys2Proof.Machine.execPageInSave core slot s
  | .unmapPinTimeout part => Sys2Proof.Machine.execUnmapPinTimeout part s
  | .requestTimeout n => Sys2Proof.Machine.execRequestTimeout n s
  | .firewallDrop n die peer => Sys2Proof.Machine.execFirewallDrop n die peer s
  | .fenceComplete core slot gang => Sys2Proof.Machine.execFenceComplete core slot gang s
  | .barrierArrival core slot bar => Sys2Proof.Machine.execBarrierArrival core slot bar s
  | .barrierTimeout core slot gang => Sys2Proof.Machine.execBarrierTimeout core slot gang s
  | .engineCommandComplete n peers tree => Sys2Proof.Machine.execEngineCommandComplete n peers tree s
  | .handlerEntry core => Sys2Proof.Machine.execHandlerEntry core s
  | .gateBudgetExhausted core slot => Sys2Proof.Machine.execGateBudgetExhausted core slot s
  | .politeRequest block => Sys2Proof.Machine.execPoliteRequest block s
  | .hardStage block => Sys2Proof.Machine.execHardStage block s
  | .contextSave block place => Sys2Proof.Machine.execContextSave block place s
  | .saveReplyTimeout block => Sys2Proof.Machine.execSaveReplyTimeout block s
  | .restore saved core => Sys2Proof.Machine.execRestore saved core s
  | .thermalMigration block => Sys2Proof.Machine.execThermalMigration block s
  | .nbuResume bank => Sys2Proof.Machine.execNbuResume bank s
  | .visitBound bank => Sys2Proof.Machine.execVisitBound bank s
  | .refreshDue bank row => Sys2Proof.Machine.execRefreshDue bank row s
  | .suspendedRunFlush launch => Sys2Proof.Machine.execSuspendedRunFlush launch s
  | .collTimeout n => Sys2Proof.Machine.execCollTimeout n s
  | .swetafinLaneLoss port lane => Sys2Proof.Machine.execSwetafinLaneLoss port lane s
  | .vfRelease fn => Sys2Proof.Machine.execVfRelease fn s
  | .hostWindowSet fn va size host => Sys2Proof.Machine.execHostWindowSet fn va size host s
  | .communicatorSetup comm p rank => Sys2Proof.Machine.execCommunicatorSetup comm p rank s
  | .peerPortUnreachable port => Sys2Proof.Machine.execPeerPortUnreachable port s
  | .unmapReturn part => Sys2Proof.Machine.execUnmapReturn part s

end Sys2Proof.Machine
end

