-- ==== Sys2Proof/Machine/Fetch.lean ====
section
/-! DEFINITION. Fetching (R209, R212, R410 to R413, R416, R417): what the turn of a gang, of a sequencer context and of a near-bank unit finds
at its PC, and device time's tick. -/

namespace Sys2Proof.Machine

/-- What a turn finds: nothing to do, a state that the fetch has led to, or an instruction with the state in which it executes. -/
inductive Fetched where
  | stays
  | becomes (s : State)
  | runs (i : Instr) (s : State)
deriving DecidableEq, Repr

/-- The first failing byte of a fetch, where it is an error response: its IA and kind (R383, R412). -/
def codeError (s : State) (who : Asker) (part : Nat) (d : DomReg) (va : Nat) : Option (Nat × Nat) :=
  match rangeIa d.ranges permX va with
  | none => none
  | some ia =>
    match readHome s who part d.id ia 1 with
    | .error k => some (ia, k)
    | .absent => some (ia, 2)
    | _ => none

/-- The bytes of the core instruction at a PC: its first halfword tells how many (R209). -/
def readInstr (s : State) (who : Asker) (part : Nat) (d : DomReg) (pc : Nat) : CodeRead :=
  match readCode s who part d pc 2 with
  | .bytes h => readCode s who part d pc (coreLength (leNat h))
  | r => r

/-- How many bytes a fetch asks for: those of its instruction, once its first halfword is known. -/
def fetchLength (s : State) (who : Asker) (part : Nat) (d : DomReg) : Nat :=
  match readCode s who part d who.pc 2 with
  | .bytes h => coreLength (leNat h)
  | _ => 2

/-- A fetch that cannot be made at once leaves as a request (R212). -/
def fetchWaits (s : State) (who : Asker) (part : Nat) (d : DomReg) (n : Nat) : State := askRanges who part d [⟨who.pc, n⟩] s

/-- `n` bytes have been fetched, as an engine read (R212). -/
def fetchEnds (s : State) (who : Asker) (part : Nat) (d : DomReg) (n : Nat) : State :=
  rangesRead s who part d [⟨who.pc, n⟩]

/-! The core stream. -/

/-- A gang may be picked: its group runs, none of its strands is held, their previous issue was in an earlier tick, the port is free, and
the die issues (R32, R54, R190, R423). -/
def gangFree (s : State) (core slot : Nat) (g : Group) (is : List Nat) : Bool :=
  !dieStopped s (dieOfCore core) && g.stop == .running && !seqFaulted s g && !is.isEmpty && !portTaken s core g slot &&
    is.all (fun i => !g.blocks i &&
      (match (g.strand i).prev with
       | some t => decide (t + 1 ≤ s.dt)
       | none => true))

/-- The gang as it issues whatever stands at its PC. -/
def fetchCtx (s : State) (core slot gang : Nat) (g : Group) : Ctx := issueCtx { len := 2 } s core slot gang g

/-- A condition of the fetch: the gang's issue slot is taken, and its group traps (R410, R412). -/
def fetchTrap (s : State) (core slot gang : Nat) (g : Group) (cause va : Nat) : State :=
  let c := fetchCtx s core slot gang g
  takeTrap (takePort (forgetPulls s g.uid) c) core slot (c.trapRec ⟨cause, c.low, va⟩)

/-- The cause of a word that is no instruction (R410). -/
def decodeCause : DecodeError → Nat
  | .illegal => 0x01
  | _ => 0x02

/-- THE FETCH OF A GANG: the bytes at its PC under PX of its group's domain, decoded. -/
def fetchGang (s : State) (core slot gang : Nat) : Fetched :=
  match groupAt s core slot with
  | none => .stays
  | some g =>
    let is := g.gangStrands gang
    if !gangFree s core slot g is then .stays
    else
      let part := (partOfCore s core).getD 0
      let who := { (fetchCtx s core slot gang g).asker with code := true }
      match readInstr s who part g.dom who.pc with
      | .waits => .becomes (fetchWaits s who part g.dom (fetchLength s who part g.dom))
      | .fails va =>
        let s' := match codeError s who part g.dom va with
          | some (ia, k) => logRead s part ia g.dom.id core slot k
          | none => s
        .becomes (fetchTrap s' core slot gang g 0x0B va)
      | .bytes bs =>
        let s := fetchEnds s who part g.dom bs.length
        match decode bs with
        | .ok (i, _) => .runs i s
        | .error e => .becomes (fetchTrap s core slot gang g (decodeCause e) 0)

/-! The sequencer stream (R416). -/

/-- A fault that a context has met is still to be delivered (R400). -/
noncomputable def faultTurn (s : State) (v : SeqView) : Fetched :=
  match v.x.fault with
  | some cause => .becomes (deliverFault v cause s)
  | none => .stays

/-- THE FETCH OF A CONTEXT: a word under PX of its launch's domain. -/
noncomputable def fetchSeq (s : State) (core ctx : Nat) : Fetched :=
  match seqView s core ctx with
  | none => .stays
  | some v =>
    let who := { v.asker with code := true }
    if v.idle s then faultTurn s v
    else
      match readCode s who v.part v.dom v.x.pc.toNat 4 with
      | .waits => .becomes (fetchWaits s who v.part v.dom 4)
      | .fails va => .becomes (seqFault v 0x1F ((codeError s who v.part v.dom va).toList) s)
      | .bytes bs =>
        let s := fetchEnds s who v.part v.dom 4
        match decodeSeqWord (leNat bs) with
        | .ok i => .runs i s
        | .error _ => .becomes (seqFault v 0x1F [] s)

/-! The near-bank stream (R318, R417). -/

/-- THE FETCH OF A NEAR-BANK UNIT: the word at µPC, where the unit executes; else it starts a run or opens a row. -/
noncomputable def fetchNbu (s : State) (bank : Nat) : Fetched :=
  if nbuRuns s bank then
    let x := nbuAt s bank
    match decodeNbuWord ((getAt 0 x.prog x.upc).toNat) with
    | .ok i => .runs i s
    | .error _ =>
      match runView s x with
      | some r => if x.lastTick = some s.dt then .stays else .becomes (nbuStop s bank x r)
      | none => .stays
  else .becomes (nbuAdvance s bank)

/-! Device time. -/

/-- The calls of a resident group use up a tick of their budgets (R397). -/
def Group.spend (g : Group) : Group := { g with calls := g.calls.map (fun f => { f with used := f.used + 1 }) }

/-- ONE TICK of device time: every port and every sequencer may issue again, and budgets run. A copy that lags does not advance. -/
def tick (s : State) : State :=
  let s := s.lagging.foldl (fun s c => setSkew s c (skewOf s c - 1)) s
  { s with
    dt := s.dt + 1
    lagging := []
    cores := (s.cores.map (fun c => (c.1, { c.2 with portUsed := [], draining := c.2.draining.filter (drains s (s.dt + 1)) }))).filter
      (fun c => c.2 != Core.idle)
    groups := s.groups.map (fun g => if g.2.calls.isEmpty then g else (g.1, g.2.spend)) }

/-- A copy in a core's L1 or a replica leaves before its lease expires (R82, R87). -/
def evictL1 (s : State) (core line : Nat) : State := { s with l1 := eraseAt s.l1 (core * 2 ^ 45 + line) }
def evictReplica (s : State) (slice line : Nat) : State := { s with replicas := eraseAt s.replicas (slice * 2 ^ 45 + line) }

/-- A line leaves its home slice, written back where it was dirty; a pinned line stays (R87, R134). -/
def evictL2 (s : State) (slice line : Nat) : State :=
  match partOfDie s (dieOfSlice slice) with
  | some part => if linePinned s part line then s else releaseLines s part (fun e => e.1 == slice * 2 ^ 45 + line)
  | none => s

/-- The offsets that the copies of device time have, or have after the next tick: the reference's, and those of the copies that are not
unsynchronised. -/
def skews (s : State) : List Int :=
  0 :: ((s.skewCore.filter (fun e => !isUnsync s (.core e.1))).map Prod.snd ++ (s.skewSlice.filter (fun e => !isUnsync s (.slice e.1))).map Prod.snd ++
    (s.lagging.filter (fun c => !isUnsync s c)).map (fun c => skewOf s c - 1))

/-- A COPY OF DEVICE TIME DRIFTS (R11, R392): it gains a tick, or will not advance with the next one. Copies that are not unsynchronised
differ by at most 4 ticks (log 7). -/
def drift (s : State) (copy : DtCopy) (ahead : Bool) : State :=
  let k := skewOf s copy + (if ahead then 1 else -1)
  if copyValid copy && !s.lagging.contains copy && (isUnsync s copy || (skews s).all (fun x => decide ((k - x).natAbs ≤ 4))) then
    if ahead then setSkew s copy k else { s with lagging := s.lagging ++ [copy] }
  else s

end Sys2Proof.Machine
end

