-- ==== Sys2Proof/Machine/Schedule.lean ====
section
/-! DEFINITION. Who moves next (log 4): carrying out a turn, the port scheduler (R190), and the turns of a tick that follow when the agenda is
empty. -/

namespace Sys2Proof.Machine

/-! Carrying out a turn. -/

/-- An agent executes what its fetch has found. -/
def runFetched (a : Agent) (f : Fetched) (s : State) : Out :=
  match f with
  | .stays => .next s
  | .becomes s' => .next s'
  | .runs i s' => exec i { s' with cur := a }

/-- ONE TURN. An event turn carries an event of the table; an instruction of a stream executes only when it is fetched. -/
noncomputable def runTurn (t : Turn) (s : State) : Out :=
  match t with
  | .tick => .next (tick s)
  | .issue core slot gang => runFetched (.gang core slot gang) (fetchGang s core slot gang) s
  | .seq core ctx => runFetched (.seq core ctx) (fetchSeq s core ctx) s
  | .nbu bank => runFetched (.nbu bank) (fetchNbu s bank) s
  | .event i => if i.stream = .event then exec i { s with cur := .outside } else .next s
  | .evict core line => .next (evictL1 s core line)
  | .dropReplica slice line => .next (evictReplica s slice line)
  | .evictL2 slice line => .next (evictL2 s slice line)
  | .drift copy ahead => .next (drift s copy ahead)
  | .power watts => .next (measurePower s watts)
  | .read r => .next (readRegister s r)
  | .engine cmd sel => .next (engineTurn s cmd sel)
  | .upset u => .next (upset s u)
  | .ahead on => .next { s with ahead := on }

/-! The port scheduler (R190). -/

/-- A gang that a port may pick. -/
structure Pick where
  core    : Nat
  slot    : Nat
  gang    : Nat
  wait    : Nat
  order   : Nat
  handler : Bool
deriving DecidableEq, Repr

/-- The gangs of a group, by their names. -/
def Group.gangs (g : Group) : List Nat := (List.range 8).filter (fun k => !(g.gangStrands k).isEmpty)

/-- What the turn of a gang leads to. -/
def gangTurn (s : State) (core slot gang : Nat) : Out := runFetched (.gang core slot gang) (fetchGang s core slot gang) s

/-- The gang would issue now, be it to trap (R32): its turn takes its port. -/
def issuable (s : State) (core slot gang : Nat) : Bool :=
  match groupAt s core slot with
  | none => false
  | some g =>
    !portTaken s core g slot &&
      (match gangTurn s core slot gang with
       | .next s' => portTaken s' core g slot
       | _ => true)

/-- The gang would send requests for what it waits for (R212). -/
def parking (s : State) (core slot gang : Nat) : Bool :=
  !issuable s core slot gang && (match gangTurn s core slot gang with | .next s' => decide (s.nextId < s'.nextId) | _ => false)

/-- The issuable gangs of a port. -/
def candidates (s : State) (core port : Nat) : List Pick :=
  (List.range 33).flatMap (fun q =>
    match groupAt s core q with
    | none => []
    | some g =>
      if portOf g q != port then []
      else (g.gangs.filter (issuable s core q)).map (fun k =>
        ⟨core, q, k, (g.strand k).wait, ((blockOf s g).map Block.order).getD 0, q == handlerSlot⟩))

/-- Before in the order of R190: the handler slot first, then the larger W, the group placed earlier, the lower slot, the lower strand. -/
def Pick.before (a b : Pick) : Bool :=
  if a.handler != b.handler then a.handler
  else if a.wait ≠ b.wait then decide (b.wait < a.wait)
  else if a.order ≠ b.order then decide (a.order < b.order)
  else if a.slot ≠ b.slot then decide (a.slot < b.slot)
  else decide (a.gang ≤ b.gang)

/-- The pick of a port. -/
def pickOf : List Pick → Option Pick
  | [] => none
  | a :: t =>
    match pickOf t with
    | none => some a
    | some b => if a.before b then some a else some b

/-- Firmware withholds the issue slots and engine starts of a throttled die every other tick, and a die that has stopped issues never
(R369, R423; log 4). -/
def withheld (s : State) (core : Nat) : Bool :=
  dieStopped s (dieOfCore core) || (isThrottled s (dieOfCore core) && s.dt % 2 == 1)

/-- What a port picks, if it may. -/
def portPick (s : State) (core port : Nat) : Option Pick :=
  if withheld s core then none else pickOf (candidates s core port)

/-- W after this tick: a gang that is issuable and not picked counts one more, any other starts anew. -/
def Group.count1 (g : Group) (waits : Nat → Bool) : Group :=
  { g with strands := (List.range 8).map (fun i =>
      let t := g.strand i
      { t with wait := if waits i then t.wait + 1 else 0 }) }

/-- The cores that hold groups, ascending. -/
def busyCores (s : State) : List Nat := (List.range Config.coreCount).filter (fun c => s.groups.any (fun g => g.1 / 64 == c))

/-- The picks of all ports. -/
def allPicks (s : State) : List Pick :=
  (busyCores s).flatMap (fun c => (List.range 4).filterMap (fun p => portPick s c p))

/-- The gangs that would. -/
def allParking (s : State) : List (Nat × Nat × Nat) :=
  (s.groups.filter (fun e => !withheld s (e.1 / 64))).flatMap (fun e =>
    (e.2.gangs.filter (parking s (e.1 / 64) (e.1 % 64))).map (fun k => (e.1 / 64, e.1 % 64, k)))

/-- The wait counts of all resident groups of slots move on. -/
def countWaits (s : State) : State :=
  let picked := allPicks s
  { s with groups := s.groups.map (fun e =>
      let core := e.1 / 64
      let slot := e.1 % 64
      if slot = handlerSlot then e
      else
        let may := issuable s core slot
        (e.1, e.2.count1 (fun k => may k && !picked.any (fun p => p.core == core && p.slot == slot && p.gang == k)))) }

/-! The turns that follow of themselves. -/

/-- Instructions put together. -/
def allOf (l : List (List Instr)) : List Instr := l.flatten

/-- The event of a request in flight: it is sent again, or reaches its home. -/
noncomputable def requestEvent (n : Nat) (r : Req) : Instr :=
  match r.state with
  | .rehash => .rehashResponse n
  | _ => .homeRequest n false

noncomputable def replyEvent (n : Nat) (r : Reply) : Instr :=
  if r.err.isSome then .errorResponse n else if r.kind == .ack then .writeAck n else .loadReply n

noncomputable def stackEvent (r : Req) : List Instr :=
  match r.state with
  | .atStack bank _ _ => [.nmReduction (bankStack bank)]
  | _ => []

/-- What is on its way to a closed end of a link is dropped there (R395). -/
noncomputable def dropEvents (s : State) : List Instr :=
  allOf [
    s.net.flatMap (fun e =>
      ([(e.2.homeDie s, e.2.coreDie s), (e.2.stackDie s, e.2.homeDie s),
          (e.2.coreDie s, e.2.homeDie s)].filter (fun x => linkClosed s x.1 x.2)).map (fun x =>
        Instr.firewallDrop e.1 x.1 x.2)),
    s.replies.filterMap (fun e => e.2.req.bind (fun r =>
      if linkClosed s (r.coreDie s) (r.homeDie s) then some (Instr.firewallDrop e.1 (r.coreDie s) (r.homeDie s)) else none))]

/-- Requests that no response has reached in time (R395). -/
noncomputable def overdueEvents (s : State) : List Instr :=
  allOf [
    (s.net.filter (fun e => e.2.overdue s)).map (fun e => Instr.requestTimeout e.1),
    (s.replies.filter (fun e => e.2.req.any (fun r => r.overdue s))).map (fun e => Instr.requestTimeout e.1)]

/-- Events about accesses in flight: dropped flits, requests at their homes, reductions at their stacks, answers, overdue requests. -/
noncomputable def accessEvents (s : State) : List Instr :=
  allOf [
    dropEvents s,
    s.net.map (fun e => requestEvent e.1 e.2),
    s.net.flatMap (fun e => stackEvent e.2),
    s.replies.map (fun e => replyEvent e.1 e.2),
    overdueEvents s]

/-- The event of an engine command; a collective with other devices completes by what they contribute, which is not the part's to say. -/
noncomputable def commandEvent (s : State) (n : Nat) (c : Cmd) : Instr :=
  match c.work with
  | .coll .. => if meetsPeers s c || collLate s c then .collTimeout n else .engineCommandComplete n [] []
  | _ => if c.coll.isSome && collLate s c then .collTimeout n else .engineCommandComplete n [] []

noncomputable def unitEvents (s : State) (bank : Nat) (x : Nbu) : List Instr :=
  ((dueRow s bank).toList.map (fun row => Instr.refreshDue bank row)) ++
    (if (runView s x).isSome then [.nbuResume bank, .visitBound bank] else [])

/-- Events about engine commands and near-bank units. -/
noncomputable def engineEvents (s : State) : List Instr :=
  allOf [s.cmds.map (fun e => commandEvent s e.1 e.2), s.nbus.flatMap (fun e => unitEvents s e.1 e.2)]

noncomputable def holdEvent (core slot gang : Nat) (h : Option Hold) : List Instr :=
  match h with
  | some (.fence _ _) => [.fenceComplete core slot gang]
  | some (.barrier _ _ _ _ _) => [.barrierTimeout core slot gang]
  | some (.arrival _ _ _) => [.barrierTimeout core slot gang]
  | _ => []

noncomputable def eventsOfGroup (core slot : Nat) (g : Group) : List Instr :=
  allOf [
    g.bars.map (fun b => Instr.barrierArrival core slot b.1),
    g.gangs.flatMap (fun k => holdEvent core slot k (g.strand k).held),
    if g.calls.isEmpty then [] else [.gateBudgetExhausted core slot]]

/-- Events of groups: fences, barriers, timeouts, budgets and the handler slot. -/
noncomputable def groupEvents (s : State) : List Instr :=
  allOf [
    s.groups.flatMap (fun e => eventsOfGroup (e.1 / 64) (e.1 % 64) e.2),
    (s.cores.filter (fun c => !c.2.queue.isEmpty)).map (fun c => Instr.handlerEntry c.1)]

/-- A place in the CSAVE areas at which no frame stands: a frame is smaller than 1 MiB. -/
def freePlace (s : State) : Nat :=
  (((List.range (s.saved.length + 1)).map (fun k => 2 ^ 20 * k)).find? (fun a => s.saved.all (fun e => e.2.place != a))).getD 0

noncomputable def eventsOfBlock (s : State) (bid : Nat) (b : Block) : List Instr :=
  match b.preempt with
  | .none => []
  | .polite _ => [.hardStage bid]
  | .saving _ _ _ => [.saveReplyTimeout bid, .contextSave bid (some (freePlace s))]

/-- Where the dispatcher would place a saved block. -/
def restoreCore (s : State) (x : SavedBlock) : Option Nat :=
  least (coreKey s x.part x.block.hint) ((partAt s x.part).cores.filter (restorable s x))

/-- Events of pre-emption. -/
noncomputable def preemptEvents (s : State) : List Instr :=
  allOf [
    s.blocks.flatMap (fun e => eventsOfBlock s e.1 e.2),
    s.saved.filterMap (fun e => (restoreCore s e.2).map (fun c => Instr.restore e.1 c)),
    (s.cores.filter (fun c => c.2.fencing && !c.2.fenced)).map (fun c => Instr.coreFence c.1 [])]

noncomputable def eventsOfLaunch (s : State) (l : Nat) (x : GraphLaunch) : List Instr :=
  allOf [
    ((runsOf s x).filter (fun r => r.2.stage == .ready)).map (fun r => Instr.nodeStart l r.2.node),
    if x.done then [.suspendedRunFlush l] else []]

noncomputable def eventsOfPart (s : State) (n : Nat) (p : Part) : List Instr :=
  allOf [
    [.blockPlace n, .reserveTimeout n],
    if p.mapQueue.isEmpty then [] else [.map n, .unmap n, .unmapReturn n, .setClass n, .markNotPresent n, .markPresent n],
    if p.unmap.isSome then [.unmapPinTimeout n] else [],
    if s.cores.any (fun c => !c.2.deque.isEmpty) then p.cores.map (fun c => Instr.taskSteal c) else []]

noncomputable def eventsOfFn (n : Nat) (f : Fn) : List Instr :=
  allOf [
    if f.copy.isSome || f.cqhead != f.cqtail then [.hostToDevice n, .deviceToHost n, .registerGraph n, .releaseHandle n] else [],
    if f.finished.isEmpty then [] else [.completionRecordWrite n]]

/-- Events of the launch unit, the dispatcher, the copy engine, the mapping service and the completion rings. -/
noncomputable def serviceEvents (s : State) : List Instr :=
  allOf [
    s.launches.flatMap (fun e => eventsOfLaunch s e.1 e.2),
    s.parts.flatMap (fun e => eventsOfPart s e.1 e.2),
    (s.seqs.filter (fun e => !e.2.started)).map (fun e => Instr.sequencerStart (e.1 / 4) (e.1 % 4)),
    s.fns.flatMap (fun e => eventsOfFn e.1 e.2)]

/-- Events of bring-up, of device time, of the link and of heat and age; the default bring-up succeeds with four modules at 32 GT/s, and
retraining succeeds at the same rate (log 4). -/
noncomputable def healthEvents (s : State) : List Instr :=
  allOf [
    if (nextStep s).isSome then [.bringUpStep (.success 4 4)] else [],
    if s.dt % 4096 = 0 then s.skewCore.map (fun e => Instr.dtSyncCheck (.core e.1)) else [],
    if s.dt % 4096 = 0 then s.skewSlice.map (fun e => Instr.dtSyncCheck (.slice e.1)) else [],
    s.unsync.map (fun u => Instr.dtReload u.copy),
    if s.retrain.isSome then [.linkRetrain s.health.linkr s.health.linkw] else [],
    ((List.range 4).filter (fun d => decide (tripTemperature ≤ getAt 0 s.temps d) && !getAt false s.poweredDown d)).map Instr.thermalTrip,
    ((List.range Config.coreCount).filter (fun c => mustFence s c && !(coreAt s c).fencing)).map (fun c => Instr.coreFence c [])]

/-- Banks with a unit's state or a waiting run. -/
def unitBanks (s : State) : List Nat :=
  s.nbus.map Prod.fst ++ s.cmds.flatMap (fun c => match c.2.work with
    | .nbRun w _ _ _ _ _ _ => w.map Prod.fst
    | _ => [])

/-- The events of one tick. -/
noncomputable def tickEvents (s : State) : List Instr :=
  allOf [accessEvents s, engineEvents s, groupEvents s, preemptEvents s, serviceEvents s, healthEvents s]

/-- The turns of one tick: places at pages, the picks of the ports, the sequencers, the near-bank units, the events, and the tick. -/
noncomputable def tickTurns (s : State) : List Turn :=
  List.flatten [
    (allParking s).map (fun p => Turn.issue p.1 p.2.1 p.2.2),
    (allPicks s).map (fun p => Turn.issue p.core p.slot p.gang),
    (s.seqs.filter (fun e => !withheld s (e.1 / 4))).map (fun e => Turn.seq (e.1 / 4) (e.1 % 4)),
    ((unitBanks s).filter (fun b => !withheld s (16 * bankStack b))).map Turn.nbu,
    (tickEvents s).map Turn.event,
    [Turn.tick]]

/-- The next turn, taken off the agenda; an empty agenda first fills with the turns of a tick. -/
noncomputable def takeTurn (s : State) : Turn × State :=
  match s.agenda with
  | t :: rest => (t, { s with agenda := rest })
  | [] =>
    match tickTurns s with
    | t :: rest => (t, { countWaits s with agenda := rest })
    | [] => (.tick, s)

/-! Placing an instruction for the next step (log 3). -/

/-- The range entry that maps VA 0 to 2 MiB onto the first local page of stack 0, with every permission. -/
def placedRange : Dword × Dword := (0x3F, 0x0000000100000000)

/-- Memory of stack 0 with page tables at 4 and 8 MiB that lead local page 0 to the physical page at 16 MiB, which holds some bytes. -/
def placedMemory (m : List Host.Cell) (bs : List Byte) : List Host.Cell :=
  writeBytes (writeBytes (writeBytes m (2 ^ 22) (toBytes 8 (pointerPte (2 ^ 23)))) (2 ^ 23) (toBytes 8 (leafPte (2 ^ 24) 0))) (2 ^ 24) bs

/-- Partition 0 on die 0 with that memory, and domain 0 with that range entry. -/
def placedMachine (s : State) (bs : List Byte) : State :=
  { s with
    mem := placedMemory s.mem bs
    memPoison := s.memPoison.filter (fun e => e.1 != 2 ^ 17 && e.1 != 2 ^ 18 && e.1 != 2 ^ 19)
    stackRegs := putAt Stack.reset s.stackRegs 0 { stackAt s 0 with ptbase := 0x400000 }
    parts := setAt s.parts 0 { partAt s 0 with dies := [0] }
    domains := setAt s.domains 0 { domainAt s 0 0 with ranges := [placedRange] }
    cores := setAt s.cores 0 { coreAt s 0 with portUsed := [] } }

/-- A node that asks for one group with all registers, 16 KiB of scratchpad and one accumulator unit. -/
def placedNode : NodeEntry :=
  { entry := 0, blocks := 1, groups := 1, regs := 8, uregs := 4, scratch := 4, prio := 0, hint := 255, nacc := 1, npred := 0, bmask := 0,
    soff := 0, seqEntry := 0, cbImg := 0, cbLen := 0, argOff := 0, argLen := 0, latN := 0, pklN := 0, wlN := 0, succs := [],
        tables := 0, wlva := 0 }

/-- A launch of that node in domain 0 with its block resident in slot 0 of core 0, its group and its context at VA 0. -/
def placedBlock (s : State) : State :=
  let n := s.nextId
  let d := domReg s 0 0
  let x : GraphLaunch :=
    { fn := 0, part := 0, dom := 0, handle := 0, arg := 0, tag := 0, start := s.dt, runs := [n + 1], first := none, firstAt := 0,
      thermal := false, saveFail := false, reset := false, maxT := 0, done := false, flushed := [] }
  let b : Block :=
    { run := n + 1, bid := 0, task := false, core := 0, slots := [0], groups := 1, regs := 8, uregs := 4, scratchBase := 0,
      scratchSize := 16384, nacc := 1, ctx := some 0, windows := [], scratch := [], poison := [], engine := [], bars := [], prio := 0,
      placed := s.dt, order := n + 2, hint := 255, kept := false, preempt := .none, seqFault := none, leaving := [] }
  let r : NodeRun := { newRun n 0 placedNode with stage := .running, nextBlock := 1, live := 1, uids := [n + 2, n + 3] }
  let q : SeqCtx := { newSeq (n + 2) 1 0 [0] 0 with started := true }
  let s := { s with
    nextId := n + 4
    ahead := false
    launches := setAt s.launches n x
    runs := setAt s.runs (n + 1) r
    seqs := setAt s.seqs 0 q }
  setGroup (setBlock s (n + 2) b) 0 0 (newGroup (n + 3) (n + 2) 0 ⟨1, 8, 4, 4, 1⟩ d 0 0)

/-- Bank 0 in compute mode with an open row, carrying out a run whose program begins with a word. -/
def placedUnit (s : State) (w : Nat) : State :=
  let n := s.nextId
  let c : Cmd :=
    { core := 0, slot := 0, uid := 0, block := 0, launch := 0, strands := [], flag := 0, granules := [], dom := domReg s 0 0, err := false, issued := s.dt,
      maxT := 0, work := .nbRun [] [0] 1 0 false [0, 0, 0, 0] 0, firstAct := none, lastPre := none, rows := [], coll := none }
  let x : Nbu := { nbuAt s 0 with
    prog := putAt 0 (nbuAt s 0).prog 0 (BitVec.ofNat 32 w)
    upc := 0, left := 1, cmd := some n, openRow := some (2 ^ 24), suspended := false, boundary := none, visit := none, lastTick := none,
    bankFree := 0 }
  { setNbu s 0 x with
    nextId := n + 1
    cmds := setAt s.cmds n c
    computeMode := putAt false s.computeMode 0 true }

/-- The instruction of a table word stands where the next step fetches: for a gang, a sequencer context or a near-bank unit, whichever
decoder accepts it first. -/
noncomputable def placeWord (s : State) (nbits w : Nat) : State :=
  let v := w % 2 ^ nbits
  let bs := leBytes 12 v
  let s := placedBlock (placedMachine s bs)
  match decode bs with
  | .ok _ => { s with agenda := .issue 0 0 0 :: s.agenda }
  | .error _ =>
    match decodeSeqWord v with
    | .ok _ => { s with agenda := .seq 0 0 :: s.agenda }
    | .error _ => { placedUnit s v with agenda := .nbu 0 :: s.agenda }

end Sys2Proof.Machine
end

