-- ==== Sys2Proof/Safety.lean ====
section
/-! DEFINITION. The terms in which claims are stated: when a gang may issue (R411), what an instruction leaves unchanged, how a register
is written, and what stays true of every state. -/

namespace Sys2Proof.Safety

open Sys2Proof.Machine

/-! When an instruction issues. -/

/-- The gang has its turn and can issue (R32, R54, R190): its group runs, no strand of it is held back, no port from its own on has been
taken in this tick, and the gap after each strand's previous instruction is over. -/
structure Ready (n : Needs) (s : State) (core slot gang : Nat) (g : Group) : Prop where
  turn     : s.cur = .gang core slot gang
  here     : groupAt s core slot = some g
  runs     : g.stop = .running
  sound    : ∀ b, blockOf s g = some b → b.seqFault = none
  strands  : g.gangStrands gang ≠ []
  port     : ∀ p ∈ (coreAt s core).portUsed, p < 4 → p < portOf g slot
  loose    : ∀ i ∈ g.gangStrands gang, (g.strand i).held = none ∨ ((g.strand i).held = some .gather ∧ g.allGathered = true)
  gap      : ∀ i ∈ g.gangStrands gang, ∀ t, (g.strand i).prev = some t → t + 1 + n.gap ≤ s.dt

/-- The instruction is allowed where it stands (R181, R203, R415). -/
def InZone (z : Zone) (slot : Nat) (g : Group) : Prop :=
  match z with
  | .any => True
  | .block => g.calls = [] ∧ slot ≠ handlerSlot
  | .notHandler => slot ≠ handlerSlot
  | .notCall => g.calls = []
  | .handlerOnly => slot = handlerSlot

/-- Its registers lie within the allocation (R375). -/
structure Allocated (n : Needs) (g : Group) : Prop where
  vector  : ∀ r ∈ n.namedV, r < g.nv
  uniform : ∀ r ∈ n.ssrc ++ n.sdst, r < g.ns ∨ r = 61 ∨ r = 63

/-- Its registers have arrived (R55, R56): sources and destinations are full, and what a variable-latency unit overwrites is readable. -/
structure Arrived (n : Needs) (s : State) (g : Group) : Prop where
  vsrc : ∀ r ∈ n.vsrc, (g.vreg r).full = true
  ssrc : ∀ r ∈ n.ssrc, (g.sreg r).full = true
  vdst : ∀ r ∈ n.vdst, (g.vreg r).full = true ∧ (n.varLat = true → (g.vreg r).ready ≤ s.dt)
  sdst : ∀ r ∈ n.sdst, (g.sreg r).full = true ∧ (n.varLat = true → (g.sreg r).ready ≤ s.dt)

/-- Its sources may be read (R53, R58, R374, R384, R376): no dead source under DEADTRAP, tags it accepts, no early read under GAPCHECK,
no poison in an active lane, and no loop that ends within the instruction. -/
structure Readable (n : Needs) (s : State) (c : Ctx) : Prop where
  dead    : c.g.gmode.getLsbD 1 = true → ∀ r ∈ n.vsrc, (c.g.vreg r).dead = false
  tags    : ∀ t ∈ n.tags, (c.g.vreg t.1).seenTag ∈ t.2
  earlyV  : c.g.gmode.getLsbD 2 = true → ∀ r ∈ n.vsrc, (c.g.vreg r).dead = true ∨ (c.g.vreg r).readable ≤ s.dt
  earlyS  : c.g.gmode.getLsbD 2 = true → ∀ r ∈ n.ssrc, (c.g.sreg r).ready ≤ s.dt
  earlyP  : c.g.gmode.getLsbD 2 = true → ∀ r ∈ n.psrc ++ n.guard.toList, (c.g.preg r).ready ≤ s.dt
  earlyQ  : c.g.gmode.getLsbD 2 = true → ∀ r ∈ n.qsrc ++ n.qguard.toList, (c.g.qreg r).ready ≤ s.dt
  poisonV : ∀ r ∈ n.vsrc, (c.g.vreg r).poison &&& c.act = 0
  poisonS : ∀ r ∈ n.ssrc, (c.g.sreg r).poison = false
  loopEnd : ∀ i ∈ c.is, ∀ e t, (c.g.strand i).loops = e :: t →
    ¬ (c.pc.toNat < e.stop.toNat ∧ e.stop.toNat < c.pc.toNat + n.len)

/-- THE CONDITIONS THAT EVERY INSTRUCTION OF THE CORE STREAM SHARES (R411): with them, and those of its own, it executes. -/
structure MayIssue (n : Needs) (s : State) (core slot gang : Nat) (g : Group) : Prop where
  ready   : Ready n s core slot gang g
  zone    : InZone n.zone slot g
  alloc   : Allocated n g
  arrived : Arrived n s g
  read    : Readable n s (issueCtx n s core slot gang g)

/-! What a step leaves as it was. -/

/-- What an issue leaves of the cores: every other group, every other core, and the issuing core but for the port that the issue takes. -/
structure CoresStand (s t : State) (core slot : Nat) : Prop where
  others : ∀ k, k ≠ groupKey core slot → lookupAt t.groups k = lookupAt s.groups k
  cores  : ∀ k, k ≠ core → coreAt t k = coreAt s k
  port   : { coreAt t core with portUsed := (coreAt s core).portUsed } = coreAt s core

/-- The same, and all bytes of memory. -/
structure Elsewhere (s t : State) (core slot : Nat) : Prop extends CoresStand s t core slot where
  memory : ∀ a, readByte t.mem a = readByte s.mem a

/-- Only the group in a slot changes: everything else of the machine stands. -/
structure OnlyGroup (s t : State) (core slot : Nat) : Prop extends Elsewhere s t core slot where
  rest   : { t with groups := s.groups, cores := s.cores, free := s.free } = s

/-- The gang's strands go on at the following address, or where the loop rule says (R37), the gang parts by PC (R33), and the other
strands stand. -/
structure GoesOn (s : State) (c : Ctx) (len : Nat) (g' : Group) : Prop where
  moved : ∀ i ∈ c.is, (g'.strand i).pc = ((c.g.strand i).advance len).pc ∧ (g'.strand i).loops = ((c.g.strand i).advance len).loops ∧
    (g'.strand i).prev = some s.dt ∧ (g'.strand i).held = none
  masks : ∀ i < 8, (g'.strand i).active = (c.g.strand i).active ∧ (g'.strand i).exited = (c.g.strand i).exited ∧
    (g'.strand i).lr = (c.g.strand i).lr ∧ (g'.strand i).lrOlds = (c.g.strand i).lrOlds ∧ (g'.strand i).div = (c.g.strand i).div
  parts : ∀ i ∈ c.is, ∀ j ∈ c.is, (g'.strand i).gang = (g'.strand j).gang ↔ (g'.strand i).pc = (g'.strand j).pc
  stay  : ∀ i < 8, i ∉ c.is → g'.strand i = c.g.strand i

/-- A reader of lane `l` before tick `til` may still receive the earlier value `w` (R374). -/
def EarlyLane (olds : List OldLanes) (l til : Nat) (w : Word) : Prop := ∃ o ∈ olds, laneBit o.mask l = true ∧ o.til = til ∧
    laneOf o.lanes l = w

/-- A word written under a tag: the bits [8i+7:8i+6] of a register tagged F6X4 are zero (R65). -/
def Held (tag : Nat) (w : Word) : Word := if tag = 9 then w &&& 0x3F3F3F3F else w

/-- A fixed-latency write of a vector register (R52, R55, R58, R65, R374): active lanes take the value, the others keep theirs (zero if the
register was dead), and the tag is written. In an active lane what stood there before may be read until `dt + lat` and no longer; in the
other lanes what could be read early still can. -/
structure Written (r r' : VReg) (act : Word) (dt lat tag : Nat) (value : Nat → Word) : Prop where
  lanes : ∀ l < 32, laneOf r'.lanes l = if laneBit act l then Held tag (value l) else if r.dead then 0 else laneOf r.lanes l
  tag   : r'.tag = tag
  state : r'.full = r.full ∧ r'.dead = false
  early : ∀ l < 32, laneBit act l = true → ∀ til w, EarlyLane r'.olds l til w ↔
    (til = dt + lat ∧ w = if r.dead then 0 else laneOf r.lanes l) ∨
    ∃ u, dt < u ∧ r.dead = false ∧ EarlyLane r.olds l u w ∧ til = min u (dt + lat)
  other : ∀ l < 32, laneBit act l = false → ∀ til w, EarlyLane r'.olds l til w ↔ dt < til ∧ r.dead = false ∧ EarlyLane r.olds l til w
  clean : r'.poison = (if r.dead then 0 else r.poison &&& ~~~act)

/-- THE INSTRUCTION COMPLETES in its group: `exec` answers a next state in which only the issuing group differs, its gang goes on at the
following address, and the rest of the group is as `P` says. -/
def Completes (i : Instr) (n : Needs) (s : State) (core slot gang : Nat) (g : Group) (P : Ctx → Group → Prop) : Prop :=
  ∃ t g', exec i s = .next t ∧ OnlyGroup s t core slot ∧ groupAt t core slot = some g' ∧
    GoesOn s (issueCtx n s core slot gang g) n.len g' ∧ P (issueCtx n s core slot gang g) g'

/-- The instruction completes and writes one vector register: nothing else of its group changes. -/
def WritesLane (i : Instr) (n : Needs) (s : State) (core slot gang : Nat) (g : Group) (d lat : Nat) (tag : Ctx → Nat)
    (value : Ctx → Nat → Word) : Prop :=
  Completes i n s core slot gang g (fun c g' =>
    { g' with v := g.v, strands := g.strands } = g ∧ (∀ k, k ≠ d → g'.vreg k = g.vreg k) ∧
    Written (g.vreg d) (g'.vreg d) c.act s.dt lat (tag c) (value c))

/-- The flags of the active lanes reach FPF, which a `getsr` or `setsr` of it waits for until `ready` (R50, R70). -/
structure Raised (g g' : Group) (c : Ctx) (ready : Nat) (flags : Nat → Flags) : Prop where
  fpf   : ∀ k < 32, g'.fpf.getLsbD k = (g.fpf.getLsbD k || c.lanes.any (fun l => (flags l).getLsbD k))
  ready : g'.fpfReady = max g.fpfReady ready

/-- The instruction completes, writes one vector register four ticks later and raises the flags of its active lanes (R242). -/
def WritesFloat (i : Instr) (n : Needs) (s : State) (core slot gang : Nat) (g : Group) (d : Nat) (tag : Ctx → Nat)
    (value : Ctx → Nat → Word × Flags) : Prop :=
  Completes i n s core slot gang g (fun c g' =>
    { g' with v := g.v, strands := g.strands, fpf := g.fpf, fpfReady := g.fpfReady } = g ∧ (∀ k, k ≠ d → g'.vreg k = g.vreg k) ∧
    Written (g.vreg d) (g'.vreg d) c.act s.dt 4 (tag c) (fun l => (value c l).1) ∧
    Raised g g' c (s.dt + 4) (fun l => (value c l).2))

/-- A reader of a predicate's lane before tick `til` may still receive the earlier bit `b`. -/
def EarlyBit (olds : List OldBits) (l til : Nat) (b : Bool) : Prop := ∃ o ∈ olds, laneBit o.mask l = true ∧ o.til = til ∧
    laneBit o.bits l = b

/-- A write of a predicate (R55, R374), as of a vector register. -/
structure PredWritten (r r' : PReg) (act : Word) (dt lat : Nat) (value : Nat → Bool) : Prop where
  lanes : ∀ l < 32, laneBit r'.val l = if laneBit act l then value l else laneBit r.val l
  early : ∀ l < 32, laneBit act l = true → ∀ til b, EarlyBit r'.olds l til b ↔
    (til = dt + lat ∧ b = laneBit r.val l) ∨ ∃ u, dt < u ∧ EarlyBit r.olds l u b ∧ til = min u (dt + lat)
  other : ∀ l < 32, laneBit act l = false → ∀ til b, EarlyBit r'.olds l til b ↔ dt < til ∧ EarlyBit r.olds l til b

/-- The instruction completes and writes one predicate in its active lanes, readable `lat` ticks later; a write of p0 is discarded (R45). -/
def WritesPred (i : Instr) (n : Needs) (s : State) (core slot gang : Nat) (g : Group) (x lat : Nat) (value : Ctx → Nat → Bool)
    (flags : Option (Ctx → Nat → Flags)) : Prop :=
  Completes i n s core slot gang g (fun c g' =>
    { g' with p := g.p, strands := g.strands, fpf := g.fpf, fpfReady := g.fpfReady } = g ∧ (∀ k, k ≠ x → g'.preg k = g.preg k) ∧
    (x ≠ 0 → PredWritten (g.preg x) (g'.preg x) c.act s.dt lat (value c)) ∧
    (x = 0 → g'.preg 0 = g.preg 0) ∧
    match flags with
    | some f => Raised g g' c (s.dt + 4) (f c)
    | none => g'.fpf = g.fpf ∧ g'.fpfReady = g.fpfReady)

/-- The instruction completes and writes one uniform register where its uniform predicate is true (R239). -/
def WritesUniform (i : Instr) (n : Needs) (s : State) (core slot gang : Nat) (g : Group) (d : Nat) (value : Ctx → Word) : Prop :=
  Completes i n s core slot gang g (fun c g' =>
    { g' with s := g.s, strands := g.strands } = g ∧ (∀ k, k ≠ d → g'.sreg k = g.sreg k) ∧
    if c.q then (g'.sreg d).val = value c ∧ (g'.sreg d).full = true ∧ (g'.sreg d).poison = false ∧ (g'.sreg d).ready = s.dt + 2
    else g'.sreg d = g.sreg d)

/-- The instruction completes and writes one uniform predicate where `writes` holds; a write of q0 is discarded (R45). -/
def WritesQ (i : Instr) (n : Needs) (s : State) (core slot gang : Nat) (g : Group) (x lat : Nat) (writes : Ctx → Bool)
    (value : Ctx → Bool) : Prop :=
  Completes i n s core slot gang g (fun c g' =>
    { g' with q := g.q, strands := g.strands } = g ∧ (∀ k, k ≠ x → g'.qreg k = g.qreg k) ∧
    if writes c ∧ x ≠ 0 then (g'.qreg x).val = value c ∧ (g'.qreg x).ready = s.dt + lat else g'.qreg x = g.qreg x)

/-! THE LANE INSTRUCTIONS (R229 to R258): what each needs, which register it writes, its latency, its tag, and the value of a lane. -/

/-- One lane instruction. -/
structure LaneRow where
  needs : Needs
  d     : Nat
  lat   : Nat
  tag   : Ctx → Nat
  value : Ctx → Nat → Word

/-- The needs of a lane instruction under a guard. -/
def lane (len gap p : Nat) (src : List Nat) (d : Nat) : Needs :=
  { len := len, gap := gap, guard := some p, vsrc := src, vdst := [d] }

/-- A result tagged I32 two ticks later (R229), from two sources, from one, and from two with the old destination. -/
def twoSrc (len gap p d a b : Nat) (f : Word → Word → Word) : Option LaneRow :=
  some ⟨lane len gap p [a, b] d, d, 2, fun _ => 0, fun c l => f (c.v a l) (c.v b l)⟩
def oneSrc (gap p d a : Nat) (f : Word → Word) : Option LaneRow :=
  some ⟨lane 4 gap p [a] d, d, 2, fun _ => 0, fun c l => f (c.v a l)⟩
def threeSrc (gap p d a b : Nat) (f : Word → Word → Word → Word) : Option LaneRow :=
  some ⟨lane 4 gap p [a, b, d] d, d, 2, fun _ => 0, fun c l => f (c.v a l) (c.v b l) (c.v d l)⟩

/-- A sum or difference held to the range of a signed word (R231). -/
def clamp (i : Int) : Word := BitVec.ofInt 32 (max (-(2 ^ 31)) (min (2 ^ 31 - 1) i))

/-- The integer, logic and bit-field instructions, with their compact forms (R230 to R235, R214). -/
def integerRow : Instr → Option LaneRow
  | .iadd g p d a b => twoSrc 4 g p d a b (fun x y => x + y)
  | .isub g p d a b => twoSrc 4 g p d a b (fun x y => x - y)
  | .imul g p d a b => twoSrc 4 g p d a b (fun x y => x * y)
  | .imulhs g p d a b => twoSrc 4 g p d a b (fun x y => BitVec.ofInt 32 (x.toInt * y.toInt / 2 ^ 32))
  | .imulhu g p d a b => twoSrc 4 g p d a b (fun x y => BitVec.ofNat 32 (x.toNat * y.toNat / 2 ^ 32))
  | .imin g p d a b => twoSrc 4 g p d a b (fun x y => if x.toInt ≤ y.toInt then x else y)
  | .imax g p d a b => twoSrc 4 g p d a b (fun x y => if x.toInt ≤ y.toInt then y else x)
  | .umin g p d a b => twoSrc 4 g p d a b (fun x y => if x.toNat ≤ y.toNat then x else y)
  | .umax g p d a b => twoSrc 4 g p d a b (fun x y => if x.toNat ≤ y.toNat then y else x)
  | .iadds g p d a b => twoSrc 4 g p d a b (fun x y => clamp (x.toInt + y.toInt))
  | .isubs g p d a b => twoSrc 4 g p d a b (fun x y => clamp (x.toInt - y.toInt))
  | .iabs g p d a => oneSrc g p d a (fun x => clamp (max x.toInt (-x.toInt)))
  | .ineg g p d a => oneSrc g p d a (fun x => 0 - x)
  | .popc g p d a => oneSrc g p d a Alu.popc
  | .clz g p d a => oneSrc g p d a Alu.clz
  | .brev g p d a => oneSrc g p d a (fun x => maskOf (fun i => laneBit x (31 - i)))
  | .and g p d a b => twoSrc 4 g p d a b (fun x y => x &&& y)
  | .or g p d a b => twoSrc 4 g p d a b (fun x y => x ||| y)
  | .xor g p d a b => twoSrc 4 g p d a b (fun x y => x ^^^ y)
  | .andn g p d a b => twoSrc 4 g p d a b (fun x y => x &&& ~~~y)
  | .shl g p d a b => twoSrc 4 g p d a b (fun x y => x <<< y.toNat)
  | .shr g p d a b => twoSrc 4 g p d a b (fun x y => x >>> y.toNat)
  | .sar g p d a b => twoSrc 4 g p d a b (fun x y => x.sshiftRight y.toNat)
  | .rot g p d a b => twoSrc 4 g p d a b (fun x y => x.rotateLeft (y.toNat % 32))
  | .bfe g p d a b => twoSrc 4 g p d a b Alu.bfe
  | .bfes g p d a b => twoSrc 4 g p d a b Alu.bfes
  | .bfi g p d a b => threeSrc g p d a b Alu.bfi
  | .bmix g p d a b => threeSrc g p d a b Alu.bmix
  | .lea4 g p d a b => twoSrc 4 g p d a b (fun x y => x + 4 * y)
  | .lea8 g p d a b => twoSrc 4 g p d a b (fun x y => x + 8 * y)
  | .compactIadd d b => twoSrc 2 0 0 d d b (fun x y => x + y)
  | .compactIsub d b => twoSrc 2 0 0 d d b (fun x y => x - y)
  | .compactImul d b => twoSrc 2 0 0 d d b (fun x y => x * y)
  | .compactAnd d b => twoSrc 2 0 0 d d b (fun x y => x &&& y)
  | .compactOr d b => twoSrc 2 0 0 d d b (fun x y => x ||| y)
  | .compactXor d b => twoSrc 2 0 0 d d b (fun x y => x ^^^ y)
  | .compactShl d b => twoSrc 2 0 0 d d b (fun x y => x <<< y.toNat)
  | .compactShr d b => twoSrc 2 0 0 d d b (fun x y => x >>> y.toNat)
  | .compactSar d b => twoSrc 2 0 0 d d b (fun x y => x.sshiftRight y.toNat)
  | _ => none

/-- A source lane of a shuffle: its own where the lane named is not active (R273). -/
def shuffled (c : Ctx) (a l : Nat) (from' : Option Nat) : Word :=
  match from' with
  | some j => if j < 32 ∧ laneBit c.act j = true then c.v a j else c.v a l
  | none => c.v a l

/-- The instructions that move bits with a tag of their own: moves, selection, immediates, tags, classes and shuffles (R235, R237, R246,
R248, R252, R273, R214). -/
def moveRow : Instr → Option LaneRow
  | .mov g p d a => some ⟨lane 4 g p [a] d, d, 2, fun c => c.tag a, fun c l => c.v a l⟩
  | .compactMov d a => some ⟨lane 2 0 0 [a] d, d, 2, fun c => c.tag a, fun c l => c.v a l⟩
  | .sel g p d a b => some ⟨{ gap := g, vsrc := [a, b], psrc := [p], vdst := [d] }, d, 2, fun c => c.tag a,
      fun c l => if c.p p l then c.v a l else c.v b l⟩
  | .movi d i => some ⟨lane 4 0 0 [] d, d, 2, fun _ => 0, fun _ _ => (BitVec.ofNat 20 i.val).signExtend 32⟩
  | .movf d i => some ⟨lane 4 0 0 [] d, d, 4, fun _ => 2, fun _ _ => BitVec.ofNat 20 i.val ++ (0 : BitVec 12)⟩
  | .tagset g p d a t => some ⟨lane 4 g p [a] d, d, 4, fun _ => t, fun c l => c.v a l⟩
  | .tagget g p d a => some ⟨{ lane 4 g p [] d with named := some [a, d] }, d, 4, fun _ => 0, fun c _ => BitVec.ofNat 32 (c.tag a)⟩
  | .fclass g p d a => some ⟨{ lane 4 g p [a] d with tags := [(a, [0, 2])] }, d, 4, fun _ => 0, fun c l => fclassW (c.v a l)⟩
  | .shflIdx g p d a b => some ⟨lane 4 g p [a, b] d, d, 4, fun c => c.tag a, fun c l => shuffled c a l (some ((c.v b l).toNat % 32))⟩
  | .shflUp g p d a n => some ⟨lane 4 g p [a] d, d, 4, fun c => c.tag a,
      fun c l => shuffled c a l (if n.val ≤ l then some (l - n) else none)⟩
  | .shflDn g p d a n => some ⟨lane 4 g p [a] d, d, 4, fun c => c.tag a, fun c l => shuffled c a l (some (l + n))⟩
  | .shflXor g p d a n => some ⟨lane 4 g p [a] d, d, 4, fun c => c.tag a, fun c l => shuffled c a l (some (l ^^^ n.val))⟩
  | _ => none

/-! PREDICATES (R222, R236, R245). -/

/-- One compare: the predicate, its latency, the new bit of a lane from the old one, and the flags of a lane. -/
structure PredRow where
  needs : Needs
  x     : Nat
  lat   : Nat
  value : Ctx → Nat → Bool
  flags : Option (Ctx → Nat → Flags)

/-- The combine rule (R222). -/
def combined (k : Fin 8) (old r : Bool) : Bool :=
  match k.val with
  | 1 => old && r
  | 2 => old || r
  | 3 => old ^^ r
  | _ => r

/-- A compare of two vector registers; the old predicate is read where it combines. -/
def compare (gap p x : Nat) (k : Fin 8) (a b lat : Nat) (tags : List (Nat × List Nat)) (f : Word → Word → Bool)
    (fl : Option (Ctx → Nat → Flags)) : Option PredRow :=
  some ⟨{ gap := gap, guard := some p, vsrc := [a, b], psrc := if k.val = 0 then [] else [x], tags := tags }, x, lat,
    fun c l => combined k (c.p x l) (f (c.v a l) (c.v b l)), fl⟩

def icompare (gap p x : Nat) (k : Fin 8) (a b : Nat) (f : Word → Word → Bool) : Option PredRow :=
  compare gap p x k a b 2 [] f none

def nan (w : Word) : Bool := (f32 w).isNan
def snan (w : Word) : Bool := (f32 w).isSnan

/-- NV of the quiet conditions `eq`, `ne` and `un` (a signalling NaN), and of the ordered ones (any NaN) (R245). -/
def quietNv (a b : Word) : Flags := if snan a || snan b then flagNV else 0
def orderNv (a b : Word) : Flags := if nan a || nan b then flagNV else 0

def fcompare (gap p x : Nat) (k : Fin 8) (a b : Nat) (f : Word → Word → Bool) (nv : Word → Word → Flags) : Option PredRow :=
  compare gap p x k a b 4 [(a, [0, 2]), (b, [0, 2])] f (some (fun c l => nv (c.v a l) (c.v b l)))

/-- A relation of two numbers, false of a NaN. -/
def ordered (r : Int → Bool) (a b : Word) : Bool := !(nan a || nan b) && r ((f32 a).cmp (f32 b))

/-- The compares into a predicate. -/
def predRow : Instr → Option PredRow
  | .isetpEq g p x k a b => icompare g p x k a b (fun x y => decide (x = y))
  | .isetpNe g p x k a b => icompare g p x k a b (fun x y => decide (x ≠ y))
  | .isetpLt g p x k a b => icompare g p x k a b (fun x y => x.slt y)
  | .isetpLe g p x k a b => icompare g p x k a b (fun x y => x.sle y)
  | .isetpGt g p x k a b => icompare g p x k a b (fun x y => y.slt x)
  | .isetpGe g p x k a b => icompare g p x k a b (fun x y => y.sle x)
  | .isetpUlt g p x k a b => icompare g p x k a b (fun x y => x.ult y)
  | .isetpUle g p x k a b => icompare g p x k a b (fun x y => x.ule y)
  | .fsetpEq g p x k a b => fcompare g p x k a b (ordered (fun r => decide (r = 0))) quietNv
  | .fsetpNe g p x k a b => fcompare g p x k a b (fun y z => nan y || nan z || decide ((f32 y).cmp (f32 z) ≠ 0)) quietNv
  | .fsetpLt g p x k a b => fcompare g p x k a b (ordered (fun r => decide (r < 0))) orderNv
  | .fsetpLe g p x k a b => fcompare g p x k a b (ordered (fun r => decide (r ≤ 0))) orderNv
  | .fsetpGt g p x k a b => fcompare g p x k a b (ordered (fun r => decide (r > 0))) orderNv
  | .fsetpGe g p x k a b => fcompare g p x k a b (ordered (fun r => decide (r ≥ 0))) orderNv
  | .fsetpUn g p x k a b => fcompare g p x k a b (fun y z => nan y || nan z) quietNv
  | _ => none

/-! FLOATING POINT WITH FLAGS (R243, R244, R247, R250 to R257). -/

/-- One floating-point instruction: its register, its tag, the value and the flags of a lane, and what it requires beyond its needs. -/
structure FloatRow where
  needs : Needs
  d     : Nat
  tag   : Ctx → Nat
  value : Ctx → Nat → Word × Flags
  also  : Ctx → Prop

/-- The constant-window word n that CBWIN places in the constant bank of the launch (R25, R247). -/
def windowWord (s : State) (c : Ctx) (n : Nat) : Word := bankWord s c.g (c.g.cbwin.toNat / 4 % 2 ^ 14 * 4 + 4 * n)

/-- An FP32 instruction: sources tagged I32 or FP32, a result tagged FP32. -/
def float (len gap p d : Nat) (src : List Nat) (f : Ctx → Nat → Word × Flags) : Option FloatRow :=
  some ⟨{ lane len gap p src d with tags := src.map (fun r => (r, [0, 2])) }, d, fun _ => 2, f, fun _ => True⟩

def float2 (len gap p d a b : Nat) (f : RoundMode → Fp → Fp → Nat × Flags) : Option FloatRow :=
  float len gap p d [a, b] (fun c l => word32 (f c.rm (f32 (c.v a l)) (f32 (c.v b l))))

/-- The smaller or larger of two numbers (R243). -/
def pick (max : Bool) (_ : RoundMode) (x y : Fp) : Nat × Flags := (fp32.code (Fp.minMax max x y).1, (Fp.minMax max x y).2)

/-- An operation on the sign bit of A; a NaN becomes the canonical NaN (R244). -/
def signed32 (f : Word → Word) (a : Word) : Word × Flags :=
  if nan a then (0x7FC00000, if snan a then flagNV else 0) else (f a, 0)

/-- A conversion to a destination code, from a source code (R250, R251). -/
def conversion (gap p d a f : Nat) (tags : List (Nat × List Nat)) (src : Ctx → Nat) : Option FloatRow :=
  some ⟨{ lane 4 gap p [a] d with tags := tags }, d, fun _ => destTag f,
    fun c l => convertW f c (decide (src c ≠ 0x02)) (valueOf (src c) (c.v a l).toNat), fun c => variantConds f c = []⟩

/-- A packed 16-bit operation: both elements under the format that the tag of a names (R255). -/
def packed (gap p d a b : Nat) (old : Bool) (f : FpFormat → RoundMode → Fp → Fp → Fp → Nat × Flags) : Option FloatRow :=
  let src := if old then [a, b, d] else [a, b]
  some ⟨{ lane 4 gap p src d with tags := src.map (fun r => (r, [3, 4])) }, d, fun c => c.tag a,
    fun c l => halves (if c.tag a = 4 then fp16 else bf16) (f (if c.tag a = 4 then fp16 else bf16) c.rm) (c.v a l) (c.v b l)
      (if old then c.v d l else 0),
    fun c => ∀ r ∈ src, c.tag r = c.tag a⟩

/-- Half of a packed register widened under its tag (R253). -/
def unpacked (gap p d a : Nat) (hi : Bool) : Option FloatRow :=
  some ⟨{ lane 4 gap p [a] d with tags := [(a, [3, 4, 5, 6, 7, 8, 9, 10, 11, 12])] }, d,
    fun c => ((widening c (c.tag a)).map Widening.tag).getD 0,
    fun c l => ((widening c (c.tag a)).map (fun k => widenW k hi (c.v a l))).getD (0, 0), fun _ => True⟩

/-- The floating-point, conversion and packed instructions of fixed latency that may raise flags. -/
def floatRow (s : State) : Instr → Option FloatRow
  | .fadd g p d a b => float2 4 g p d a b (fun m x y => fp32.add m x y)
  | .fsub g p d a b => float2 4 g p d a b (fun m x y => fp32.add m x y.neg)
  | .fmul g p d a b => float2 4 g p d a b (fun m x y => fp32.mul m x y)
  | .fmin g p d a b => float2 4 g p d a b (pick false)
  | .fmax g p d a b => float2 4 g p d a b (pick true)
  | .fabs g p d a => float 4 g p d [a] (fun c l => signed32 (fun x => x &&& 0x7FFFFFFF) (c.v a l))
  | .fneg g p d a => float 4 g p d [a] (fun c l => signed32 (fun x => x ^^^ 0x80000000) (c.v a l))
  | .fcpys g p d a b => float 4 g p d [a, b]
      (fun c l => signed32 (fun x => (x &&& 0x7FFFFFFF) ||| (c.v b l &&& 0x80000000)) (c.v a l))
  | .ffma g d a b x => float 4 g 0 d [a, b, x]
      (fun c l => word32 (fp32.fma c.rm (f32 (c.v a l)) (f32 (c.v b l)) (f32 (c.v x l))))
  | .ffmaL g d a b lit => float 8 g 0 d [a, b] (fun c l => word32 (fp32.fma c.rm (f32 (c.v a l)) (f32 (c.v b l)) (f32 lit)))
  | .ffmaC g d a b n => some ⟨{ lane 4 g 0 [a, b] d with tags := [(a, [0, 2]), (b, [0, 2])], zone := .block }, d, fun _ => 2,
      fun c l => word32 (fp32.fma c.rm (f32 (c.v a l)) (f32 (c.v b l)) (f32 (windowWord s c n))),
      fun c => c.g.cbwin.toNat / 4 % 2 ^ 14 * 4 + 4 * n ≤ 65532⟩
  | .scl g p d a b => some ⟨{ lane 4 g p [a, b] d with tags := [(a, [0, 2])] }, d, fun _ => 2,
      fun c l => sclW c.rm (c.v a l) (c.v b l), fun _ => True⟩
  | .cvt g p d a f => conversion g p d a f [(a, [0, 1, 2])] (fun c => c.tag a)
  | .f2i g p d a f => conversion g p d a f [(a, [0, 2])] (fun _ => 0x02)
  | .i2f g p d a f => conversion g p d a f [] (fun _ => 0x00)
  | .hadd2 g p d a b => packed g p d a b false (fun fm m x y _ => fm.add m x y)
  | .hmul2 g p d a b => packed g p d a b false (fun fm m x y _ => fm.mul m x y)
  | .hfma2 g p d a b => packed g p d a b true (fun fm m x y z => fm.fma m x y z)
  | .hmin2 g p d a b => packed g p d a b false (fun fm _ x y _ => (fm.code (Fp.minMax false x y).1, (Fp.minMax false x y).2))
  | .hmax2 g p d a b => packed g p d a b false (fun fm _ x y _ => (fm.code (Fp.minMax true x y).1, (Fp.minMax true x y).2))
  | .dot2 g p d a b => some ⟨{ lane 4 g p [a, b, d] d with tags := [(a, [3, 4]), (b, [3, 4]), (d, [0, 2])] }, d, fun _ => 2,
      fun c l => dot2W (if c.tag a = 4 then fp16 else bf16) (c.v a l) (c.v b l) (c.v d l), fun c => c.tag b = c.tag a⟩
  | .unpkLo g p d a => unpacked g p d a false
  | .unpkHi g p d a => unpacked g p d a true
  | .dot4 g p d a b => some ⟨{ lane 4 g p [a, b, d] d with tags := [(a, [6, 7, 8, 9]), (b, [6, 7, 8, 9])] }, d, fun _ => 2,
      fun c l => dot4FloatW (dotFormat c (c.tag a)) (dotFormat c (c.tag b)) (c.v a l) (c.v b l) (c.v d l),
      fun c => c.tag a ∈ [6, 9] ∧ c.tag b ∈ [6, 9] ∧ c.tag d ∈ [0, 2]⟩
  | .compactFadd d b => float2 2 0 0 d d b (fun m x y => fp32.add m x y)
  | .compactFsub d b => float2 2 0 0 d d b (fun m x y => fp32.add m x y.neg)
  | .compactFmul d b => float2 2 0 0 d d b (fun m x y => fp32.mul m x y)
  | .compactFmin d b => float2 2 0 0 d d b (pick false)
  | .compactFmax d b => float2 2 0 0 d d b (pick true)
  | .compactFneg d a => float 2 0 0 d [a] (fun c l => signed32 (fun x => x ^^^ 0x80000000) (c.v a l))
  | _ => none

/-- The packed instructions that raise no flag: `pack` (R257), and `dot4` of integers (R256). -/
def packRow : Instr → Option (LaneRow × (Ctx → Prop))
  | .pack g p d a b => some (⟨{ lane 4 g p [a, b, d] d with
        tags := [(a, [3, 4, 5, 6, 7, 8, 9, 10, 11, 12]), (b, [3, 4, 5, 6, 7, 8, 9, 10, 11, 12])] }, d, 4, fun c => c.tag a,
      fun c l => packW (tagWidth (c.tag a)) (c.v a l) (c.v b l) (c.v d l)⟩, fun c => c.tag b = c.tag a)
  | .dot4 g p d a b => some (⟨{ lane 4 g p [a, b, d] d with tags := [(a, [6, 7, 8, 9]), (b, [6, 7, 8, 9])] }, d, 4, fun _ => 0,
      fun c l => clamp ((c.v d l).toInt + dotInt (c.tag a) (c.v a l) 0 * dotInt (c.tag b) (c.v b l) 0 +
        dotInt (c.tag a) (c.v a l) 1 * dotInt (c.tag b) (c.v b l) 1 + dotInt (c.tag a) (c.v a l) 2 * dotInt (c.tag b) (c.v b l) 2 +
        dotInt (c.tag a) (c.v a l) 3 * dotInt (c.tag b) (c.v b l) 3)⟩, fun c => c.tag a ∈ [7, 8] ∧ c.tag b ∈ [7, 8])
  | _ => none

/-! UNIFORM INSTRUCTIONS (R239, R240, R215, R274). -/

/-- One uniform instruction: its register and its value. -/
structure UniRow where
  needs : Needs
  d     : Nat
  value : Ctx → Word

def uni (len gap q d : Nat) (src : List Nat) (f : Ctx → Word) : Option UniRow :=
  some ⟨{ len := len, gap := gap, qguard := some q, ssrc := src, sdst := [d] }, d, f⟩

def uni2 (len gap q d a b : Nat) (f : Word → Word → Word) : Option UniRow := uni len gap q d [a, b] (fun c => f (c.s a) (c.s b))

/-- The uniform instructions that write a uniform register under a uniform predicate. -/
def uniRow : Instr → Option UniRow
  | .sadd g q d a b => uni2 4 g q d a b (fun x y => x + y)
  | .ssub g q d a b => uni2 4 g q d a b (fun x y => x - y)
  | .smul g q d a b => uni2 4 g q d a b (fun x y => x * y)
  | .smulhi g q d a b => uni2 4 g q d a b (fun x y => BitVec.ofInt 32 (x.toInt * y.toInt / 2 ^ 32))
  | .sand g q d a b => uni2 4 g q d a b (fun x y => x &&& y)
  | .sor g q d a b => uni2 4 g q d a b (fun x y => x ||| y)
  | .sxor g q d a b => uni2 4 g q d a b (fun x y => x ^^^ y)
  | .sshl g q d a b => uni2 4 g q d a b (fun x y => x <<< y.toNat)
  | .sshr g q d a b => uni2 4 g q d a b (fun x y => x >>> y.toNat)
  | .ssar g q d a b => uni2 4 g q d a b (fun x y => x.sshiftRight y.toNat)
  | .smin g q d a b => uni2 4 g q d a b (fun x y => if x.toInt ≤ y.toInt then x else y)
  | .smax g q d a b => uni2 4 g q d a b (fun x y => if x.toInt ≤ y.toInt then y else x)
  | .smov g q d a => uni 4 g q d [a] (fun c => c.s a)
  | .smovi d i => uni 4 0 0 d [] (fun _ => (BitVec.ofNat 20 i.val).signExtend 32)
  | .saddS d b => uni2 2 0 0 d d b (fun x y => x + y)
  | .smovS d a => uni 2 0 0 d [a] (fun c => c.s a)
  | _ => none

/-- One instruction that writes a uniform predicate where `writes` holds. -/
structure QRow where
  needs  : Needs
  x      : Nat
  lat    : Nat
  writes : Ctx → Bool
  value  : Ctx → Bool

def ucompare (gap q x : Nat) (k : Fin 8) (a b : Nat) (f : Word → Word → Bool) : Option QRow :=
  some ⟨{ gap := gap, qguard := some q, ssrc := [a, b], qsrc := if k.val = 0 then [] else [x] }, x, 2, fun c => c.q,
    fun c => combined k (c.qv x) (f (c.s a) (c.s b))⟩

/-- How many active lanes there are, and in how many of them a predicate is true. -/
def activeCount (c : Ctx) : Nat := c.lanes.length
def trueCount (c : Ctx) (x : Nat) : Nat := (c.lanes.filter (fun l => c.p x l)).length

def poll (gap p q x : Nat) (f : Nat → Nat → Bool) : Option QRow :=
  some ⟨{ gap := gap, guard := some p, psrc := [x] }, q, 4, fun _ => true, fun c => f (activeCount c) (trueCount c x)⟩

/-- The uniform compares and the polls. -/
def qRow : Instr → Option QRow
  | .ssetpEq g q x k a b => ucompare g q x k a b (fun y z => decide (y = z))
  | .ssetpLt g q x k a b => ucompare g q x k a b (fun y z => y.slt z)
  | .ssetpUlt g q x k a b => ucompare g q x k a b (fun y z => y.ult z)
  | .pollSome g p q x => poll g p q x (fun _ k => decide (1 ≤ k))
  | .pollEvery g p q x => poll g p q x (fun n k => decide (k = n))
  | .pollAgree g p q x => poll g p q x (fun n k => decide (k = 0 ∨ k = n))
  | .pollMost g p q x => poll g p q x (fun n k => decide (n < 2 * k))
  | _ => none

/-! RESULTS THAT ARRIVE LATER (R56). -/

/-- A destination of a variable-latency producer at issue: tagged, empty, and owed by the active lanes; no lane has changed yet (R56). -/
structure Marked (r r' : VReg) (act : Word) (tag : Nat) : Prop where
  tag   : r'.tag = tag
  empty : r'.full = decide (act = 0)
  owed  : r'.owed = act ∧ r'.issued = act ∧ r'.olds = []
  dead  : r'.dead = false
  lanes : ∀ l < 32, laneOf r'.lanes l = if r.dead then 0 else laneOf r.lanes l

/-- The group after a variable-latency instruction issued: its destinations are marked, its other registers stand. -/
structure MarksRegs (g g' : Group) (act : Word) (regs : List (Nat × Nat)) : Prop where
  rest   : { g' with v := g.v, strands := g.strands, regionOpen := g.regionOpen } = g
  others : ∀ k, k ∉ regs.map Prod.fst → g'.vreg k = g.vreg k
  marked : ∀ r ∈ regs, Marked (g.vreg r.1) (g'.vreg r.1) act r.2

/-- The answer that a unit of the core sends: one word for each register and active lane, no error, no time. -/
def unitReply (s : State) (c : Ctx) (g : Group) (regs : List (Nat × Nat)) (value : Nat → Nat → Word) (flags : Nat) : Reply :=
  ⟨.group c.core c.slot g.uid (c.lanes.headD 0 / 4), accessLaunch s c.core g,
    .lanes (regs.flatMap (fun r => c.lanes.map (fun l => (r.1, l, value r.1 l)))) flags, none, none, none⟩

/-- One instruction of a unit of the core: the destinations with their tags, the value of a register in a lane, and the flags that land
with the results, where the instruction is a floating-point one. -/
structure UnitRow where
  needs : Needs
  regs  : List (Nat × Nat)
  value : Ctx → Nat → Nat → Word
  flags : Ctx → Option Flags

/-- What the instruction's completion leaves: its destinations are marked, its gang goes on, and its results are on their way. -/
def SentUnit (x : UnitRow) (s t : State) (core slot gang : Nat) (g : Group) : Prop :=
  let c := issueCtx x.needs s core slot gang g
  ∃ g', { t with groups := s.groups, cores := s.cores, free := s.free, replies := s.replies, nextId := s.nextId } = s ∧
    Elsewhere s t core slot ∧ groupAt t core slot = some g' ∧ MarksRegs g g' c.act x.regs ∧ GoesOn s c x.needs.len g' ∧
    (c.act = 0 → t.replies = s.replies) ∧
    (c.act ≠ 0 → t.replies = setAt s.replies s.nextId (unitReply s c g x.regs (x.value c)
      (match x.flags c with
       | some f => 32 + f.toNat
       | none => 64)))

/-- A function of one FP32 source, correctly rounded (R249). -/
def function (gap p d a : Nat) (f : Word → Word × Flags) : Option UnitRow :=
  some ⟨{ lane 4 gap p [a] d with tags := [(a, [0, 2])], varLat := true }, [(d, 2)], fun c _ l => (f (c.v a l)).1,
    fun c => some (laneFlags c (fun l => (f (c.v a l)).2))⟩

/-- The window of the 16 lanes of a half (R305): inactive lanes hold the pad. -/
def halfWindow (c : Ctx) (a h : Nat) : List Word :=
  (List.range 16).map (fun i => if laneBit c.act (16 * h + i) then c.v a (16 * h + i) else 0xFFFFFFFF)

/-- Slot k of a sorted window; slots beyond its end hold the pad. -/
def slotOf (w : List Word) (k : Nat) : Word := w.getD k 0xFFFFFFFF

def sorted (gap p d a b : Nat) (regs : List (Nat × Nat)) (f : List Word → List Word → List Word) : Option UnitRow :=
  some ⟨{ gap := gap, guard := some p, vsrc := [a, b], vdst := regs.map Prod.fst, zone := .notCall, varLat := true }, regs,
    fun c r l => slotOf (f (halfWindow c a (l / 16)) (halfWindow c b (l / 16))) ((if r = d then 0 else 16) + l % 16), fun _ => none⟩

/-- The function unit, the lane reductions and the sorted windows (R249, R275, R305). -/
def unitRow : Instr → Option UnitRow
  | .frcp g p d a => function g p d a frcp
  | .frsq g p d a => function g p d a frsq
  | .fsqrt g p d a => function g p d a fsqrt
  | .fex2 g p d a => function g p d a fex2
  | .flg2 g p d a => function g p d a flg2
  | .fsinp g p d a => function g p d a fsinp
  | .fcosp g p d a => function g p d a fcosp
  | .ftanh g p d a => function g p d a ftanh
  | .redaddI g p d a => some ⟨{ lane 4 g p [a] d with varLat := true }, [(d, 0)],
      fun c _ _ => c.lanes.foldl (fun x l => x + c.v a l) 0, fun _ => none⟩
  | .redaddF g p d a => some ⟨{ lane 4 g p [a] d with tags := [(a, [0, 2])], varLat := true }, [(d, 2)],
      fun c _ _ => (redaddFloat c a).1, fun c => some (redaddFloat c a).2⟩
  | .isect g p d a b => sorted g p d a b [(d, 0)] isectWindow
  | .union g p d a b => sorted g p d a b [(d, 0), (d + 1, 0)] unionWindow
  | .merge g p d a b => sorted g p d a b [(d, 0), (d + 1, 0)] mergeWindow
  | _ => none

/-! MEMORY ACCESSES OF LANES. -/

/-- X of a lane: a 64-bit base and an offset, or the whole address in a register pair (R260). -/
def addressOf (c : Ctx) (n a l : Nat) : Nat :=
  if n = 31 then (c.v a l).toNat + (c.v (a + 1) l).toNat * 2 ^ 32
  else ((c.s (2 * n)).toNat + (c.s (2 * n + 1)).toNat * 2 ^ 32 + (c.v a l).toNat) % 2 ^ 64

/-- The needs of a global access: the base pair is uniform, or the offset is a pair (R21, R260). -/
def global (gap p n a : Nat) (data dst : List Nat) : Needs :=
  { gap := gap, guard := some p, vsrc := (if n = 31 then [a, a + 1] else [a]) ++ data, vdst := dst,
    ssrc := if n = 31 then [] else [2 * n, 2 * n + 1], varLat := true }

/-- An access of a lane passes its checks (R78, R92, R382): every byte lies in a range entry with the permissions, and it is aligned. -/
def Granted (c : Ctx) (perms size va : Nat) : Prop := rangeFail c.g.dom.ranges perms va size = none ∧ va % size = 0

/-- The parts that are performed each on its own (R115, R261): 64-bit halves of 16 bytes, else the whole. -/
def parts (size : Nat) : List (Nat × Nat) := if size = 16 then [(0, 8), (8, 8)] else [(0, size)]

/-- A request that a lane sends: it comes from the lane's strand, names the domain and its translation class, and is in flight from this
tick. -/
def FromLane (s : State) (c : Ctx) (l va ia size : Nat) (k : ReqKind) (q : Req) : Prop :=
  q.src = .group c.core c.slot c.g.uid (l / 4) ∧ q.dom = c.g.dom.id ∧ q.tclass = c.g.dom.tclass ∧ q.va = va ∧ q.ia = ia ∧
      q.size = size ∧ q.kind = k ∧
    q.sent = s.dt ∧ q.state = .inFlight

/-- A new request with a property has entered the network. -/
def Sent (s t : State) (P : Req → Prop) : Prop := ∃ id q, s.nextId ≤ id ∧ lookupAt t.net id = some q ∧ P q

/-- Every request of the network that was not there before has a property. -/
def SentOnly (s t : State) (P : Req → Prop) : Prop :=
  ∀ id q, lookupAt t.net id = some q → lookupAt s.net id = some q ∨ P q

/-- The group after an instruction that only reads its registers. -/
def Untouched (g g' : Group) : Prop := { g' with strands := g.strands } = g

/-- The registers that a part of a load writes: one word each, from the low word up (R261). -/
def partRegs (d size off : Nat) : List Nat := if size = 16 then [d + off / 4,
    d + off / 4 + 1] else (List.range ((size + 3) / 4)).map (fun i => d + i)

/-- How a part of a load is extended: a half of 16 bytes is one of two that arrive on their own (R261, R379). -/
def partExt (d size : Nat) (ext : LoadExt) : LoadExt := if size = 16 then .half d else ext

/-- One load: the access size, the tag, the extension, the read-only hint, and the fields of its address. -/
structure LoadRow where
  needs : Needs
  d     : Nat
  size  : Nat
  tag   : Nat
  ext   : LoadExt
  ro    : Bool
  n     : Nat
  a     : Nat

def load (g p d a n size tag : Nat) (ext : LoadExt) (ro : Bool) : Option LoadRow :=
  some ⟨global g p n a [] ((List.range ((size + 3) / 4)).map (fun i => d + i)), d, size, tag, ext, ro, n, a⟩

/-- The loads from global memory (R261). -/
def loadRow : Instr → Option LoadRow
  | .ld8z g p d a n r => load g p d a n 1 0 .z8 r
  | .ld8s g p d a n r => load g p d a n 1 0 .s8 r
  | .ld16z g p d a n r => load g p d a n 2 0 .z16 r
  | .ld16s g p d a n r => load g p d a n 2 0 .s16 r
  | .ld32 g p d a n r => load g p d a n 4 0 .word r
  | .ldF32 g p d a n r => load g p d a n 4 2 .word r
  | .ld64 g p d a n r => load g p d a n 8 0 .word r
  | .ld128 g p d a n r => load g p d a n 16 0 .word r
  | _ => none

/-- A copy of L1 serves a part of a load: it holds the line unexpired, and the domain may see it (R83, R97, R175). -/
def FromL1 (s t : State) (c : Ctx) (regs : List Nat) (l ia size : Nat) (ext : LoadExt) : Prop :=
  ∃ id y, s.nextId ≤ id ∧ lookupAt s.l1 (l1Key c.core ia) = some y ∧ dtCore s c.core < y.expiry ∧
    (c.g.dom.id = y.owner ∨ c.g.dom.id = 0) ∧
    (lookupAt t.replies id).map Reply.kind = some (.lanes (loadWrites regs l ext (y.bytes ia size)) 0)

/-- What a load's completion leaves: its destinations are marked, and each part of each active lane is read from L1 or sent to its home. -/
def Loaded (x : LoadRow) (s t : State) (core slot gang : Nat) (g : Group) : Prop :=
  let c := issueCtx x.needs s core slot gang g
  ∃ g',
    { t with groups := s.groups, cores := s.cores, free := s.free, net := s.net, replies := s.replies, seen := s.seen,
             nextId := s.nextId } = s ∧
    Elsewhere s t core slot ∧ groupAt t core slot = some g' ∧ GoesOn s c x.needs.len g' ∧
    MarksRegs g g' c.act ((List.range ((x.size + 3) / 4)).map (fun i => (x.d + i, x.tag))) ∧
    (∀ l ∈ c.lanes, ∀ o ∈ parts x.size,
      FromL1 s t c (partRegs x.d x.size o.1) l (iaOf c permR (addressOf c x.n x.a l) + o.1) o.2 (partExt x.d x.size x.ext) ∨
      Sent s t (FromLane s c l (addressOf c x.n x.a l + o.1) (iaOf c permR (addressOf c x.n x.a l) + o.1) o.2
        (.load (partRegs x.d x.size o.1) l (partExt x.d x.size x.ext) x.ro))) ∧
    SentOnly s t (fun q => ∃ l ∈ c.lanes, ∃ o ∈ parts x.size, FromLane s c l (addressOf c x.n x.a l + o.1)
      (iaOf c permR (addressOf c x.n x.a l) + o.1) o.2 (.load (partRegs x.d x.size o.1) l (partExt x.d x.size x.ext) x.ro) q)

/-- One store: where a lane stores, how many bytes, the bits and which of them. -/
structure StoreRow where
  needs : Needs
  size  : Nat
  va    : Ctx → Nat → Nat
  val   : Ctx → Nat → Nat
  mask  : Ctx → Nat → Nat

/-- `size` bytes of the registers from d, low word first (R262, R47). -/
def store (g p d a n size : Nat) : Option StoreRow :=
  some ⟨global g p n a ((List.range ((size + 3) / 4)).map (fun i => d + i)) [], size, fun c l => addressOf c n a l,
    fun c l => regsValue c d l ((size + 3) / 4) % 256 ^ size, fun _ _ => 256 ^ size - 1⟩

/-- E of a sub-byte store: the element number, and the byte that holds it where a byte holds `per` elements (R264). -/
def elementOf (c : Ctx) (n a l : Nat) : Nat :=
  if n = 31 then (c.v a l).toNat + (c.v (a + 1) l).toNat * 2 ^ 32 else (c.v a l).toNat
def elementByte (c : Ctx) (n a per l : Nat) : Nat :=
  if n = 31 then elementOf c n a l / per else ((c.s (2 * n)).toNat + (c.s (2 * n + 1)).toNat * 2 ^ 32 + elementOf c n a l / per) % 2 ^ 64

/-- One element of `8 / per` bits under sub-byte enables (R264). -/
def subByte (g p d a n per : Nat) (tags : List Nat) (v : Ctx → Nat → Nat) : Option StoreRow :=
  some ⟨{ global g p n a [d] [] with tags := [(d, tags)] }, 1, fun c l => elementByte c n a per l,
    fun c l => v c l * 2 ^ (8 / per * (elementOf c n a l % per)),
        fun c l => (2 ^ (8 / per) - 1) * 2 ^ (8 / per * (elementOf c n a l % per))⟩

/-- The stores to global memory (R262, R264). -/
def storeRow : Instr → Option StoreRow
  | .st8 g p d a n => store g p d a n 1
  | .st16 g p d a n => store g p d a n 2
  | .st32 g p d a n => store g p d a n 4
  | .st64 g p d a n => store g p d a n 8
  | .st128 g p d a n => store g p d a n 16
  | .stN4 g p d a n => subByte g p d a n 2 [10, 11, 9, 0, 1] (fun c l => (c.v d l).toNat % 16)
  | .stN2 g p d a n => subByte g p d a n 4 [9, 0, 1]
      (fun c l => if c.tag d = 9 then (c.v d l).toNat / 16 % 4 else (c.v d l).toNat % 4)
  | _ => none

/-- A request that carries a part of a lane's store. -/
def StorePart (s : State) (c : Ctx) (x : StoreRow) (l : Nat) (o : Nat × Nat) (q : Req) : Prop :=
  FromLane s c l (x.va c l + o.1) (iaOf c permW (x.va c l) + o.1) o.2
    (.store (x.val c l / 256 ^ o.1 % 256 ^ o.2) (x.mask c l / 256 ^ o.1 % 256 ^ o.2)) q

/-- The store completes: its group keeps every register, no byte of memory changes yet, and the requests that leave are exactly the parts
of the active lanes' stores, but for lanes whose bits a higher lane also stores (R88). -/
def Stores (i : Instr) (x : StoreRow) (s : State) (core slot gang : Nat) (g : Group) : Prop :=
  let c := issueCtx x.needs s core slot gang g
  ∃ t g', exec i s = .next t ∧
    { t with groups := s.groups, cores := s.cores, free := s.free, net := s.net, l1 := s.l1, nextId := s.nextId } = s ∧
    Elsewhere s t core slot ∧ groupAt t core slot = some g' ∧ GoesOn s c x.needs.len g' ∧ Untouched g g' ∧
    (∀ l ∈ c.lanes, (∀ j ∈ c.lanes, l < j → ¬ (iaOf c permW (x.va c j) = iaOf c permW (x.va c l) ∧ x.mask c j = x.mask c l)) →
      ∀ o ∈ parts x.size, Sent s t (StorePart s c x l o)) ∧
    SentOnly s t (fun q => ∃ l ∈ c.lanes, ∃ o ∈ parts x.size, StorePart s c x l o q)

/-- One atomic or reduction: its register, its operation in a lane, what it carries and the permissions it needs. -/
structure AtomRow where
  needs : Needs
  d     : Nat
  op    : Ctx → AtomOp
  two   : Bool
  n     : Nat
  a     : Nat

def atomic (g p d a n : Nat) (tags : List Nat) (op : Ctx → AtomOp) (pair : Bool) : Option AtomRow :=
  some ⟨{ global g p n a (if pair then [d, d + 1] else [d]) [d] with closes := true, tags := if tags.isEmpty then [] else [(d, tags)] },
    d, op, pair, n, a⟩

/-- The atomics (R269). -/
def atomRow : Instr → Option AtomRow
  | .atomAdd g p d a n => atomic g p d a n [] (fun _ => .add) false
  | .atomAddf g p d a n => atomic g p d a n [0, 2] (fun _ => .addf) false
  | .atomMin g p d a n => atomic g p d a n [] (fun _ => .min) false
  | .atomMax g p d a n => atomic g p d a n [] (fun _ => .max) false
  | .atomUmin g p d a n => atomic g p d a n [] (fun _ => .umin) false
  | .atomUmax g p d a n => atomic g p d a n [] (fun _ => .umax) false
  | .atomAnd g p d a n => atomic g p d a n [] (fun _ => .and) false
  | .atomOr g p d a n => atomic g p d a n [] (fun _ => .or) false
  | .atomXor g p d a n => atomic g p d a n [] (fun _ => .xor) false
  | .atomXchg g p d a n => atomic g p d a n [] (fun _ => .xchg) false
  | .atomCas g p d a n => atomic g p d a n [] (fun _ => .cas) true
  | .atomAddh2 g p d a n => atomic g p d a n [3, 4] (fun c => .addh2 (c.tag d == 3)) false
  | _ => none

/-- The atomic completes: d is marked, the line leaves the core's L1, and each active lane sends one atomic to its home (R268). -/
def Atomics (i : Instr) (x : AtomRow) (s : State) (core slot gang : Nat) (g : Group) : Prop :=
  let c := issueCtx x.needs s core slot gang g
  let part := fun l q => FromLane s c l (addressOf c x.n x.a l) (iaOf c (permA + permR + permW) (addressOf c x.n x.a l)) 4
    (.atom (x.op c) (c.v x.d l) (if x.two then c.v (x.d + 1) l else 0) x.d l) q
  ∃ t g', exec i s = .next t ∧
    { t with groups := s.groups, cores := s.cores, free := s.free, net := s.net, l1 := s.l1, nextId := s.nextId } = s ∧
    Elsewhere s t core slot ∧ groupAt t core slot = some g' ∧ GoesOn s c x.needs.len g' ∧ MarksRegs g g' c.act [(x.d, 0)] ∧
        g'.regionOpen = false ∧
    (∀ l ∈ c.lanes, Sent s t (part l) ∧
      lookupAt t.l1 (l1Key core (iaOf c (permA + permR + permW) (addressOf c x.n x.a l))) = none) ∧
    SentOnly s t (fun q => ∃ l ∈ c.lanes, part l q)

structure RedRow where
  needs : Needs
  d     : Nat
  op    : RedOp
  nm    : Bool
  n     : Nat
  a     : Nat

def reduction (g p d a n : Nat) (nm : Bool) (op : RedOp) (tags : List Nat) : Option RedRow :=
  some ⟨{ global g p n a (if op = .addx then [d, d + 1] else [d]) [] with closes := true, tags := if tags.isEmpty then [] else [(d, tags)] },
    d, op, nm, n, a⟩

/-- The return-free reductions (R270). -/
def redRow : Instr → Option RedRow
  | .redAdd g p d a n k => reduction g p d a n k .add []
  | .redAddf g p d a n k => reduction g p d a n k .addf [0, 2]
  | .redMin g p d a n k => reduction g p d a n k .min []
  | .redMax g p d a n k => reduction g p d a n k .max []
  | .redAnd g p d a n k => reduction g p d a n k .and []
  | .redOr g p d a n k => reduction g p d a n k .or []
  | .redXor g p d a n k => reduction g p d a n k .xor []
  | .redAddx g p d a n k => reduction g p d a n k .addx []
  | _ => none

/-- Bytes of a reduction: FX64 elements have eight (R270). -/
def redSize (op : RedOp) : Nat := if op = .addx then 8 else 4

/-- The reduction completes: its group keeps every register, the line leaves the core's L1, and each active lane sends one reduction. -/
def Reduces (i : Instr) (x : RedRow) (s : State) (core slot gang : Nat) (g : Group) : Prop :=
  let c := issueCtx x.needs s core slot gang g
  let amount := fun l => if x.op = .addx then c.v (x.d + 1) l ++ c.v x.d l else (0 : Word) ++ c.v x.d l
  let part := fun l q => FromLane s c l (addressOf c x.n x.a l) (iaOf c (permA + permW) (addressOf c x.n x.a l)) (redSize x.op)
    (.red x.op (amount l) x.nm) q
  ∃ t g', exec i s = .next t ∧
    { t with groups := s.groups, cores := s.cores, free := s.free, net := s.net, l1 := s.l1, nextId := s.nextId } = s ∧
    Elsewhere s t core slot ∧ groupAt t core slot = some g' ∧ GoesOn s c x.needs.len g' ∧
    { g' with strands := g.strands, regionOpen := g.regionOpen } = g ∧ g'.regionOpen = false ∧
    (∀ l ∈ c.lanes, Sent s t (part l) ∧
      lookupAt t.l1 (l1Key core (iaOf c (permA + permW) (addressOf c x.n x.a l))) = none) ∧
    SentOnly s t (fun q => ∃ l ∈ c.lanes, part l q)

/-! SCRATCHPAD AND CONSTANT BANK (R80, R81, R265 to R267). -/

/-- The offset in the block's allocation of a lane's access to a window: the window's base and the lane's offset register (R80, R265). -/
def windowPlace (c : Ctx) (s : State) (n a l : Nat) : Nat := (windowAt s c.g n c.dt).1 + (c.v a l).toNat

/-- The lane's access lies in its window, is aligned, and no engine owns a granule it touches (R81, R387). -/
def InWindow (c : Ctx) (s : State) (b : Block) (n a size l : Nat) : Prop :=
  (c.v a l).toNat + size ≤ (windowAt s c.g n c.dt).2 ∧ (c.v a l).toNat % size = 0 ∧ engineOwned b (windowPlace c s n a l) size = false

structure ScratchRow where
  needs : Needs
  d     : Nat
  size  : Nat
  n     : Nat
  a     : Nat

def scratchLoad (g p d a n size : Nat) : Option ScratchRow :=
  some ⟨{ gap := g, guard := some p, vsrc := [a], vdst := (List.range (size / 4)).map (fun i => d + i), zone := .block, varLat := true },
    d, size, n, a⟩
def scratchStore (g p d a n size : Nat) : Option ScratchRow :=
  some ⟨{ gap := g, guard := some p, vsrc := a :: (List.range (size / 4)).map (fun i => d + i), zone := .block, varLat := true },
    d, size, n, a⟩

def ldsRow : Instr → Option ScratchRow
  | .lds32 g p d a n => scratchLoad g p d a n 4
  | .lds64 g p d a n => scratchLoad g p d a n 8
  | .lds128 g p d a n => scratchLoad g p d a n 16
  | _ => none

def stsRow : Instr → Option ScratchRow
  | .sts32 g p d a n => scratchStore g p d a n 4
  | .sts64 g p d a n => scratchStore g p d a n 8
  | .sts128 g p d a n => scratchStore g p d a n 16
  | _ => none

/-- What a scratchpad load's completion leaves: what it read is on its way, marked poisoned for a lane that touched a poisoned word (R96,
R394). -/
def LoadedScratch (x : ScratchRow) (s t : State) (core slot gang : Nat) (g : Group) (b : Block) : Prop :=
  let c := issueCtx x.needs s core slot gang g
  ∃ g',
    { t with groups := s.groups, cores := s.cores, free := s.free, replies := s.replies, nextId := s.nextId } = s ∧
    Elsewhere s t core slot ∧ groupAt t core slot = some g' ∧ GoesOn s c x.needs.len g' ∧
    MarksRegs g g' c.act ((List.range (x.size / 4)).map (fun i => (x.d + i, 0))) ∧
    ∀ l ∈ c.lanes, ∃ id r ws, s.nextId ≤ id ∧ lookupAt t.replies id = some r ∧ r.kind = .lanes ws 0 ∧
      r.err = (if scratchPoisoned b (windowPlace c s x.n x.a l) x.size then some 0 else none) ∧
      ∀ k < x.size / 4, (x.d + k, l, BitVec.ofNat 32 (readLE b.scratch (windowPlace c s x.n x.a l) x.size / 2 ^ (32 * k))) ∈ ws

/-- A byte of the allocation lies in a lane's access. -/
def Covers (c : Ctx) (s : State) (x : ScratchRow) (l a : Nat) : Prop :=
  windowPlace c s x.n x.a l ≤ a ∧ a < windowPlace c s x.n x.a l + x.size

/-- The scratchpad store completes: the bytes of the highest active lane stand where lanes overlap, and no other byte of the scratchpad,
and nothing else of the block, changes. -/
def StoresScratch (i : Instr) (x : ScratchRow) (s : State) (core slot gang : Nat) (g : Group) (bid : Nat) (b : Block) : Prop :=
  let c := issueCtx x.needs s core slot gang g
  ∃ t g' b', exec i s = .next t ∧
    { t with groups := s.groups, cores := s.cores, free := s.free, blocks := s.blocks } = s ∧
    Elsewhere s t core slot ∧ groupAt t core slot = some g' ∧ GoesOn s c x.needs.len g' ∧ Untouched g g' ∧
    (∀ k, k ≠ bid → lookupAt t.blocks k = lookupAt s.blocks k) ∧ blockAt t bid = some b' ∧
    { b' with scratch := b.scratch, poison := b.poison } = b ∧
    (∀ a, (∀ l ∈ c.lanes, ¬ Covers c s x l a) → readByte b'.scratch a = readByte b.scratch a) ∧
    ∀ l ∈ c.lanes, ∀ k < x.size, (∀ j ∈ c.lanes, l < j → ¬ Covers c s x j (windowPlace c s x.n x.a l + k)) →
      readByte b'.scratch (windowPlace c s x.n x.a l + k) = BitVec.ofNat 8 ((c.v (x.d + k / 4) l).toNat / 2 ^ (8 * (k % 4)))

/-! MOVING THE PC (R35 to R37, R277, R278). -/

/-- A strand stands at the end of its top loop entry. -/
def AtEnd (t : Strand) : Prop := ∃ e rest, t.loops = e :: rest ∧ e.stop = t.pc

/-- A strand goes to an address (R37): the address that follows the instruction retires under the loop rule, for a taken branch only at the
end of the top entry; a taken branch (`pops`) elsewhere leaves the loops whose body does not hold its target. -/
structure JumpsTo (t t' : Strand) (len : Nat) (pops : Bool) (next : Dword) : Prop where
  follows : next = t.pc + BitVec.ofNat 64 len → (pops = true → AtEnd t) →
    t'.pc = (t.advance len).pc ∧ t'.loops = (t.advance len).loops
  leaves : (next ≠ t.pc + BitVec.ofNat 64 len ∨ (pops = true ∧ ¬ AtEnd t)) →
    t'.pc = next ∧ t'.loops = if pops then popOutside next t.loops else t.loops

/-- LR stands, with what an early reader of it may still receive. -/
def KeepsLr (t t' : Strand) : Prop := t'.lr = t.lr ∧ t'.lrOlds = t.lrOlds

/-- The gang's strands move as `P` says, keeping their exited lanes, and part by their PCs; the group is otherwise as it was. -/
structure Moves (s : State) (c : Ctx) (g' : Group) (P : Nat → Strand → Strand → Prop) : Prop where
  rest  : Untouched c.g g'
  moved : ∀ i ∈ c.is, P i (c.g.strand i) (g'.strand i) ∧ (g'.strand i).prev = some s.dt ∧ (g'.strand i).held = none ∧
    (g'.strand i).exited = (c.g.strand i).exited
  parts : ∀ i ∈ c.is, ∀ j ∈ c.is, (g'.strand i).gang = (g'.strand j).gang ↔ (g'.strand i).pc = (g'.strand j).pc
  stay  : ∀ i < 8, i ∉ c.is → g'.strand i = c.g.strand i

/-- The instruction completes and moves its strands. -/
def Branches (i : Instr) (n : Needs) (s : State) (core slot gang : Nat) (g : Group) (P : Ctx → Nat → Strand → Strand → Prop) : Prop :=
  ∃ t g', exec i s = .next t ∧ OnlyGroup s t core slot ∧ groupAt t core slot = some g' ∧
    Moves s (issueCtx n s core slot gang g) g' (P (issueCtx n s core slot gang g))

/-- The lanes of a strand that take part: active and not exited. -/
def partLanes (t : Strand) : BitVec 4 := t.active &&& ~~~t.exited

/-- Those of them that go to the target: the guard is true. -/
def takingLanes (c : Ctx) (i : Nat) (t : Strand) : BitVec 4 :=
  (List.range 4).foldl (fun m j => if (partLanes t).getLsbD j && laneBit c.act (4 * i + j) then m ||| BitVec.twoPow 4 j else m) 0

/-- A two-way branch (R35, R277): all lanes go one way, or the strand falls through with the lanes that do not take the branch, and the
others wait on the divergence stack with the target. -/
def TwoWay (c : Ctx) (len : Nat) (target : Dword) (i : Nat) (t t' : Strand) : Prop :=
  let fall := c.pc + BitVec.ofNat 64 len
  KeepsLr t t' ∧
  (takingLanes c i t = 0 → JumpsTo t t' len false fall ∧ t'.active = t.active ∧ t'.div = t.div) ∧
  (takingLanes c i t ≠ 0 → takingLanes c i t = partLanes t → JumpsTo t t' len true target ∧ t'.active = t.active ∧ t'.div = t.div) ∧
  (takingLanes c i t ≠ 0 → takingLanes c i t ≠ partLanes t → JumpsTo t t' len false fall ∧
    t'.active = partLanes t &&& ~~~takingLanes c i t ∧ t'.div = ⟨target, takingLanes c i t, partLanes t, false⟩ :: t.div)

/-- Room on the divergence stack for a strand that splits in two (R35, R376). -/
def RoomForTwo (c : Ctx) (g : Group) : Prop :=
  ∀ i ∈ c.is, takingLanes c i (g.strand i) ≠ 0 → takingLanes c i (g.strand i) ≠ partLanes (g.strand i) → (g.strand i).div.length < 4

/-- The split of a strand whose lanes go to some targets: a lane takes the branch where the guard is true. -/
def manySplit (c : Ctx) (len i : Nat) (target : Nat → Dword) (t : Strand) : Split :=
  splitMany t.lanes4 (fun j => laneBit c.act (4 * i + j)) target (c.pc + BitVec.ofNat 64 len)

/-- A many-way branch (R35, R278): the strand goes on with the target of its lowest lane, and each other target waits on the stack. -/
def ManyWay (c : Ctx) (len : Nat) (pops : Bool) (i : Nat) (target : Nat → Dword) (t t' : Strand) : Prop :=
  let x := manySplit c len i target t
  JumpsTo t t' len (pops && x.taken) x.next ∧
  (x.rest = [] → t'.active = t.active ∧ t'.div = t.div) ∧
  (x.rest ≠ [] → t'.active = x.mask ∧ t'.div = (x.rest.map (fun e => (⟨e.1, e.2, partLanes t, false⟩ : DivEntry))).reverse ++ t.div)

def RoomForMany (c : Ctx) (g : Group) (len : Nat) (target : Nat → Nat → Dword) : Prop :=
  ∀ i ∈ c.is, (manySplit c len i (target i) (g.strand i)).rest ≠ [] →
    (manySplit c len i (target i) (g.strand i)).rest.length + (g.strand i).div.length ≤ 4

/-- The offset of a branch counts halfwords from its own address (R22). -/
def offsetTarget (pc : Dword) (bits off : Nat) : Dword := pc + BitVec.ofInt 64 (2 * (BitVec.ofNat bits off).toInt)

/-- The target of a lane of `brx` and `callx`: its register counts halfwords from the instruction (R277). -/
def laneTarget (c : Ctx) (r i j : Nat) : Dword :=
  if laneBit c.act (4 * i + j) then c.pc + BitVec.ofInt 64 (2 * (c.v r (4 * i + j)).toInt) else c.pc + 4

/-- The strand pops the divergence entry on top (R36): a path that waits starts, a path that ran closes and its lanes come back. -/
def Joins (len : Nat) (t t' : Strand) : Prop :=
  KeepsLr t t' ∧
  match t.div with
  | [] => t'.pc = (t.advance len).pc ∧ t'.active = t.active ∧ t'.div = []
  | e :: rest =>
    if e.running then t'.pc = (t.advance len).pc ∧ t'.active = e.rmask &&& ~~~t.exited ∧ t'.div = rest
    else t'.pc = e.pc ∧ t'.active = e.mask &&& ~~~t.exited ∧ t'.div = { e with running := true } :: rest

/-- The address after the instruction at a loop's end, whose first halfword the machine has read (R37, R209, R210): an even one is a compact
form; `ffma.l` and `fbp` end with their literal words (log 54), and bit 0 of a PC is clear (R413; log 55). -/
def afterEndOf (stop : Dword) (half : List Byte) : Dword := evenPc (stop + BitVec.ofNat 64 (coreLength (leNat half)))

/-- The instruction at a loop's end can be read, and its first halfword. -/
def EndReads (c : Ctx) (s : State) (stop : Dword) (half : List Byte) : Prop := endHalf c s stop = .bytes half

/-! THE SEQUENCER STREAM (R126 to R140, R307 to R317). -/

/-- A sequencer context has its turn and may execute (R127, R423): its die issues, it was started, has not halted, its block has no
sequencer fault and is not being saved, and the context has not executed in this tick. -/
structure SeqReady (s : State) (core ctx : Nat) (v : SeqView) : Prop where
  turn    : s.cur = .seq core ctx
  runs    : dieStopped s (dieOfCore core) = false
  here    : seqView s core ctx = some v
  started : v.x.started = true
  goes    : v.x.halted = false
  sound   : v.b.seqFault = none
  stays   : ∀ t late w, v.b.preempt ≠ .saving t late w
  port    : (8 + ctx) ∉ (coreAt s core).portUsed

/-- What reads at home leave (R87, R111, R153, R174): the requests that brought them are over, caches hold what was found, banks have served
it, and dirty lines that made room are on their way to their banks. Nothing else changes. -/
def ReadLeaves (s t : State) : Prop :=
  { t with
    net := s.net, nextId := s.nextId, nbus := s.nbus, activations := s.activations, stackRegs := s.stackRegs, l2 := s.l2,
    replicas := s.replicas } = s ∧
  s.nextId ≤ t.nextId ∧ (∀ e ∈ t.net, e ∈ s.net ∨ e.2.kind = .writeBack) ∧
  ∀ k < s.nextId, ∀ r, lookupAt s.net k = some r → r.kind.isPull = false → lookupAt t.net k = some r

/-- How an instruction of a context ends in state t, where `u` is what it found and what its reads left: the context is as `P` says, and
nothing else differs but the tick's port. -/
def SeqEnds (s u t : State) (core ctx : Nat) (P : SeqCtx → Prop) : Prop :=
  ∃ x', { t with seqs := u.seqs, cores := u.cores } = u ∧
    (∀ k, k ≠ core → coreAt t k = coreAt s k) ∧ { coreAt t core with portUsed := (coreAt s core).portUsed } = coreAt s core ∧
    (∀ k, k ≠ core * 4 + ctx → lookupAt t.seqs k = lookupAt s.seqs k) ∧ lookupAt t.seqs (core * 4 + ctx) = some x' ∧ P x'

/-- The context completes: `exec` answers a next state in which only the context differs, as `P` says. -/
def SeqCompletes (i : Instr) (s : State) (core ctx : Nat) (P : SeqCtx → Prop) : Prop :=
  ∃ t, exec i s = .next t ∧ SeqEnds s s t core ctx P

/-- The same for an instruction that reads global memory. -/
def SeqReads (i : Instr) (s : State) (core ctx : Nat) (P : SeqCtx → Prop) : Prop :=
  ∃ t u, exec i s = .next t ∧ ReadLeaves s u ∧ SeqEnds s u t core ctx P

/-- The 64-bit value of a register pair (R307). -/
def pairOf (v : SeqView) (r : Nat) : Nat := (v.m r).toNat + (v.m (r + 1)).toNat * 2 ^ 32

/-- The two words of a 64-bit value in a register pair. -/
def pairWrites (r n : Nat) : List (Nat × Word) := [(r, BitVec.ofNat 32 n), (r + 1, BitVec.ofNat 32 (n / 2 ^ 32))]

/-- The register and branch instructions of the stream: what they write, in order, and where they go (R308). -/
structure SeqRow where
  writes : SeqView → List (Nat × Word)
  pc     : SeqView → Dword

def following (v : SeqView) : Dword := v.x.pc + 4
def wordTarget (v : SeqView) (bits o : Nat) : Dword := v.x.pc + BitVec.ofInt 64 (4 * (BitVec.ofNat bits o).toInt)

def seqRow : Instr → Option SeqRow
  | .mnop => some ⟨fun _ => [], following⟩
  | .mset d i => some ⟨fun _ => [(d, (BitVec.ofNat 21 i.val).signExtend 32)], following⟩
  | .msetH d i => some ⟨fun v => [(d, BitVec.ofNat 16 i.val ++ (v.m d).truncate 16)], following⟩
  | .madd d a b => some ⟨fun v => [(d, v.m a + v.m b)], following⟩
  | .maddImm d a i => some ⟨fun v => [(d, v.m a + (BitVec.ofNat 16 i.val).signExtend 32)], following⟩
  | .maddW d a b => some ⟨fun v => pairWrites d ((pairOf v a + pairOf v b) % 2 ^ 64), following⟩
  | .maddWImm d a i => some ⟨fun v => pairWrites d (BitVec.ofNat 64 (pairOf v a) + (BitVec.ofNat 16 i.val).signExtend 64).toNat, following⟩
  | .mbnz c k o => some ⟨fun v => [(c, if k then v.m c - 1 else v.m c)],
      fun v => if (if k then v.m c - 1 else v.m c) ≠ 0 then wordTarget v 21 o else following v⟩
  | .mjmp o => some ⟨fun _ => [], fun v => wordTarget v 26 o⟩
  | _ => none

/-- The value of a register after writes in order. -/
def afterWrites (old : Word) (r : Nat) : List (Nat × Word) → Word
  | [] => old
  | w :: t => afterWrites (if w.1 = r then w.2 else old) r t

/-- An accumulator unit that an instruction may name (R131): a multiple of the units of a logical accumulator, within the units allotted. -/
def UnitOk (v : SeqView) (n : Nat) : Prop := n % tcfgUnits v.x.tcfg = 0 ∧ n + tcfgUnits v.x.tcfg ≤ v.x.nacc

/-- A place of a logical accumulator (R131). -/
def InAcc (w : Word) (n k : Nat) : Prop := ∃ i < tcfgMt w, ∃ j < tcfgNt w, k = accIndex w n i j

/-- The rows of a tile register that a fetch fills: row i takes the 64 bytes that `bytes i` reads. -/
structure Filled (x x' : SeqCtx) (t : Nat) (rows : List Nat) (bytes : Nat → EngineRead) : Prop where
  filled : ∀ i ∈ rows, x'.row t i = (bytes i).get % 2 ^ 512
  kept   : ∀ u < 8, ∀ i < 64, (u ≠ t ∨ i ∉ rows) → x'.row u i = x.row u i

/-! THE NEAR-BANK STREAM (R142 to R157, R318 to R326). -/

/-- A near-bank unit has its turn and may execute a microinstruction (R144, R318): it carries out a run in compute mode, has not executed
in this tick, the column path and the registers it reads are free, and the visit's bound is not reached. -/
structure NbuReady (s : State) (bank : Nat) (column closing : Bool) (reads : List Nat) (r : RunView) : Prop where
  turn    : s.cur = .nbu bank
  run     : runView s (nbuAt s bank) = some r
  awake   : (nbuAt s bank).suspended = false
  compute : inCompute s (bankStack bank) (bankPch bank) = true
  tick    : (nbuAt s bank).lastTick ≠ some s.dt
  landed  : ∀ c t, (nbuAt s bank).lastRead = some (c, t) → c ∈ reads → t ≤ s.dt
  path    : column = true → (nbuAt s bank).pathFree ≤ s.dt
  bound   : ∀ t, (nbuAt s bank).visit = some t →
    if closing then s.dt ≤ t + 64 else s.dt + (if column then 1 else 0) < t + 64

/-- The unit completes a microinstruction that changes the unit alone. -/
def NbuCompletes (i : Instr) (s : State) (bank : Nat) (P : Nbu → Prop) : Prop :=
  ∃ t, exec i s = .next t ∧ { t with nbus := s.nbus } = s ∧ (∀ b, b ≠ bank → nbuAt t b = nbuAt s b) ∧ P (nbuAt t bank)

/-- The lane operations of the near-bank subset: the registers read, the destination, and the value of a lane. -/
structure NbuRow where
  reads : List Nat
  d     : Nat
  value : Nbu → Nat → Word

def nbuRow : Instr → Option NbuRow
  | .nbuIalu op d a b => some ⟨[a, b], d, fun x j =>
      match op with
      | .iadd => x.reg a j + x.reg b j
      | .isub => x.reg a j - x.reg b j
      | .imin => if (x.reg a j).toInt ≤ (x.reg b j).toInt then x.reg a j else x.reg b j
      | .imax => if (x.reg a j).toInt ≤ (x.reg b j).toInt then x.reg b j else x.reg a j⟩
  | .nbuLogic op d a b => some ⟨[a, b], d, fun x j =>
      match op with
      | .and => x.reg a j &&& x.reg b j
      | .or => x.reg a j ||| x.reg b j
      | .xor => x.reg a j ^^^ x.reg b j
      | .andn => x.reg a j &&& ~~~x.reg b j
      | .shl => x.reg a j <<< (x.reg b j).toNat
      | .shr => x.reg a j >>> (x.reg b j).toNat
      | .sar => (x.reg a j).sshiftRight (x.reg b j).toNat
      | .rot => (x.reg a j).rotateLeft ((x.reg b j).toNat % 32)⟩
  | .nbuFalu op d a b => some ⟨[a, b], d, fun x j =>
      match op with
      | .fadd => (word32 (fp32.add .rne (f32 (x.reg a j)) (f32 (x.reg b j)))).1
      | .fsub => (word32 (fp32.add .rne (f32 (x.reg a j)) (f32 (x.reg b j)).neg)).1
      | .fmul => (word32 (fp32.mul .rne (f32 (x.reg a j)) (f32 (x.reg b j)))).1
      | .fmin => (word32 (pick false .rne (f32 (x.reg a j)) (f32 (x.reg b j)))).1
      | .fmax => (word32 (pick true .rne (f32 (x.reg a j)) (f32 (x.reg b j)))).1⟩
  | .nbuFfma d a b c => some ⟨[a, b, c], d, fun x j => (word32 (fp32.fma .rne (f32 (x.reg a j)) (f32 (x.reg b j)) (f32 (x.reg c j)))).1⟩
  | .nbuMovi float d i => some ⟨[], d, fun _ _ =>
      if float then BitVec.ofNat 20 i.val ++ (0 : BitVec 12) else (BitVec.ofNat 20 i.val).signExtend 32⟩
  | .nsum d a t => some ⟨[a], d, fun x _ =>
      let sum := (treeRoot (fun p q => if t then p + q else addf32 p q) 3
        ((List.range 8).map (fun j => if x.top.getLsbD j then some (x.reg a j) else none))).getD 0
      if t = false ∧ nan sum = true then 0x7FC00000 else sum⟩
  | _ => none

/-- The unit after a microinstruction but for its lane state: the tick is spent and the next word follows, modulo 64. -/
def Stepped (s : State) (bank : Nat) (x' : Nbu) : Prop :=
  x'.upc = ((nbuAt s bank).upc + 1) % 64 ∧ x'.lastTick = some s.dt

end Sys2Proof.Safety
end

