-- ==== Sys2Proof/Safety/System.lean ====
section
/-! DEFINITION. The terms in which claims about the rest of the streams are stated: special registers, waits, gathering, barriers, loops,
branches, traps, exits, gates, the access window, work lists, lattices, engine commands, the sequencer and the near-bank units. -/

namespace Sys2Proof.Safety

open Sys2Proof.Machine

/-! REGISTERS BY THEIR NUMBERS (R47 to R50, R58, R266, R267, R274, R283). -/

/-- `ballot` (R274): with an active lane, d takes the lanes in which x is true, four ticks later; with none, it writes nothing. -/
def Ballots (gap : Fin 4) (p : Fin 8) (d : Fin 64) (x : Fin 8) (s : State) (core slot gang : Nat) (g : Group) : Prop :=
  let n := { lane 4 gap p [] d with psrc := [x.val] }
  let act := (issueCtx n s core slot gang g).act
  (act = 0 → Completes (.ballot gap p d x) n s core slot gang g (fun _ g' => Untouched g g')) ∧
  (act ≠ 0 → WritesLane (.ballot gap p d x) n s core slot gang g d 4 (fun _ => 0)
    (fun c _ => maskOf (fun l => laneBit c.act l && c.p x l)))

/-- The registers that a `dead` names, each of which must have arrived (R58, R279). -/
def deadRow : Instr → Option (Needs × List Nat)
  | .dead g f n => some ({ len := 4, gap := g, vdst := (List.range n).map (fun i => f + i), varLat := true },
      (List.range n).map (fun i => f + i))
  | .dead2 d x => some ({ len := 2, vdst := [d.val, x.val], varLat := true }, [d.val, x.val])
  | _ => none

/-- The registers are dead: they read as zero with tag I32 and are full; every other register stands. -/
structure Killed (g g' : Group) (rs : List Nat) : Prop where
  rest   : { g' with v := g.v, strands := g.strands } = g
  others : ∀ k, k ∉ rs → g'.vreg k = g.vreg k
  dead   : ∀ r ∈ rs, (g'.vreg r).dead = true ∧ (g'.vreg r).full = true ∧ (g'.vreg r).seenTag = 0 ∧
    ∀ free dt l, g'.readV free dt r l = 0

/-- The byte of the constant bank that `ldc` reads (R266). -/
def bankByte (c : Ctx) (a n : Nat) : Nat := ((c.s a).toNat + 4 * n) % 2 ^ 32

def ldcNeeds (gap a d : Nat) : Needs := { gap := gap, zone := .block, ssrc := [a], sdst := [d], varLat := true }

/-- `ldc` completes: its register is empty, and the word of the bank is on its way (R56, R266). -/
def LoadsConstant (gap : Fin 4) (d a : Fin 64) (n : Fin 32) (s : State) (core slot gang : Nat) (g : Group) : Prop :=
  let c := issueCtx (ldcNeeds gap a d) s core slot gang g
  ∃ t g', exec (.ldc gap d a n) s = .next t ∧
    { t with groups := s.groups, cores := s.cores, free := s.free, replies := s.replies, nextId := s.nextId } = s ∧
    Elsewhere s t core slot ∧ groupAt t core slot = some g' ∧ GoesOn s c 4 g' ∧ { g' with s := g.s, strands := g.strands } = g ∧
    (∀ k, k ≠ d.val → g'.sreg k = g.sreg k) ∧ (g'.sreg d).full = false ∧ (g'.sreg d).val = (g.sreg d).val ∧
    t.replies = setAt s.replies s.nextId ⟨.group core slot g.uid c.low, accessLaunch s core g,
      .uniform d (bankWord s g (bankByte c a n)), none, none, none⟩

def wsetNeeds (gap n : Nat) : Needs := { gap := gap, zone := .block, ssrc := [2 * n, 2 * n + 1] }

/-- A window's earlier settings end within two ticks (R80). -/
def SettlesBy (w : Window) (dt : Nat) : Prop := ∀ o ∈ w.olds, o.2.2 ≤ dt + 2

/-- A window of R267: aligned to 16 bytes, not empty, within the allocation. -/
def WindowFits (b : Block) (base extent : Nat) : Prop :=
  base % 16 = 0 ∧ extent % 16 = 0 ∧ extent ≠ 0 ∧ base + extent ≤ b.scratchSize

/-- `wset` completes (R80, R267): from two ticks on accesses use the new window, until then the one that stood; other windows stand. -/
def SetsWindow (gap : Fin 4) (w : Fin 16) (n : Fin 32) (s : State) (core slot gang : Nat) (g : Group) (bid : Nat) (b : Block) : Prop :=
  let c := issueCtx (wsetNeeds gap n) s core slot gang g
  ∃ t g' b', exec (.wset gap w n) s = .next t ∧
    { t with groups := s.groups, cores := s.cores, free := s.free, blocks := s.blocks } = s ∧
    Elsewhere s t core slot ∧ groupAt t core slot = some g' ∧ GoesOn s c 4 g' ∧ Untouched g g' ∧
    (∀ k, k ≠ bid → blockAt t k = blockAt s k) ∧ blockAt t bid = some b' ∧ { b' with windows := b.windows } = b ∧
    (∀ k, k ≠ w.val → getAt Window.none b'.windows k = getAt Window.none b.windows k) ∧
    (∀ dt, s.dt + 2 ≤ dt → windowAt t g w dt = ((c.s (2 * n)).toNat, (c.s (2 * n + 1)).toNat)) ∧
    ∀ dt, s.dt ≤ dt → dt < s.dt + 2 → windowAt t g w dt = windowAt s g w dt

/-! Special registers. -/

/-- The special registers of 64 bits, RH and DT (Table 4.2). -/
def wide (n : Nat) : Bool := n == 6 || n == 13

/-- The value that a reader receives of a special register in a lane (Table 4.2, R48, R283); none where the handler slot has no such
value. What a `setsr` wrote less than two ticks ago may still be read as it was before (R50, R374). -/
def special (s : State) (c : Ctx) (n l : Nat) : Option Nat :=
  match n with
  | 0 => some l
  | 1 => some (l / 4)
  | 2 => if c.g.serves.isSome then none else some c.g.gid
  | 3 => (blockOf s c.g).map Block.bid
  | 4 => some c.core
  | 5 => (runOf s c.g).map (fun r => r.launchId.toNat)
  | 6 => some (dtCore s c.core)
  | 8 => some (c.g.readMode c.free c.dt 8 l c.g.fpm).toNat
  | 9 => some (c.g.readMode c.free c.dt 9 l c.g.fpf).toNat
  | 10 => some (c.g.readMode c.free c.dt 10 l c.g.nfv).toNat
  | 11 => some (c.g.readMode c.free c.dt 11 l c.g.cbwin).toNat
  | 12 => some (c.g.readMode c.free c.dt 12 l c.g.gmode).toNat
  | 13 => some c.g.rh
  | 14 => some (c.g.readLr c.free c.dt c.low l).toNat
  | 15 => some c.g.dom.id
  | _ => none

/-- Every earlier floating-point instruction of the group has raised its flags (R50). -/
def FlagsLanded (s : State) (g : Group) : Prop :=
  g.fpfReady ≤ s.dt ∧ ∀ r ∈ s.replies, r.2.src.uid = g.uid → ∀ ws fl, r.2.kind = .lanes ws fl → ¬(32 ≤ fl ∧ fl < 64)

/-- Earlier values are no longer to be had of LR of some strands. -/
def LrSettled (c : Ctx) (is : List Nat) : Prop := ∀ i ∈ is, lastTick ((c.g.strand i).lrOlds.map Prod.fst) ≤ c.dt

/-- A special register is not read early where GAPCHECK traps an early read (R374). -/
def SpecialReadable (c : Ctx) (n : Nat) : Prop :=
  c.g.gmode.getLsbD 2 = true → (n = 14 → LrSettled c [c.low]) ∧ (n ≠ 14 → lastTick ((getAt [] c.g.srOlds n).map Prod.fst) ≤ c.dt)

/-- What may be read early after a write with L = 2: the value that stood, and what could be read early before it, for two ticks at
most (R374). -/
def EarlierPairs (new old : List (Nat × Word)) (dt : Nat) (stood : Word) : Prop :=
  ∀ til w, (til, w) ∈ new ↔ (til = dt + 2 ∧ w = stood) ∨ ∃ u, dt < u ∧ (u, w) ∈ old ∧ til = min u (dt + 2)

/-- The words of a special register in consecutive registers from d: word k in d + k. -/
def wordRegs (d n : Nat) : List (Nat × Nat) := if wide n then [(d, 0), (d + 1, 1)] else [(d, 0)]

def getsrNeeds (gap p d : Nat) (u : Bool) (n : Nat) : Needs :=
  { gap := gap, guard := some p, vdst := if u then [] else (wordRegs d n).map Prod.fst,
    sdst := if u then (wordRegs d n).map Prod.fst else [] }

/-- `getsr` into vector registers (R283). -/
def ReadsToLanes (i : Instr) (n : Needs) (s : State) (core slot gang : Nat) (g : Group) (d k : Nat) : Prop :=
  Completes i n s core slot gang g (fun c g' =>
    { g' with v := g.v, strands := g.strands } = g ∧ (∀ r, r ∉ (wordRegs d k).map Prod.fst → g'.vreg r = g.vreg r) ∧
    ∀ e ∈ wordRegs d k, ∃ value, Written (g.vreg e.1) (g'.vreg e.1) c.act s.dt 2 0 value ∧
      ∀ l x, special s c k l = some x → value l = BitVec.ofNat 32 (x / 2 ^ (32 * e.2)))

/-- `getsr` into uniform registers: the value of the lowest lane that is active before the guard (R283). -/
def ReadsToUniform (i : Instr) (n : Needs) (s : State) (core slot gang : Nat) (g : Group) (d k : Nat) : Prop :=
  Completes i n s core slot gang g (fun c g' =>
    { g' with s := g.s, strands := g.strands } = g ∧ (∀ r, r ∉ (wordRegs d k).map Prod.fst → g'.sreg r = g.sreg r) ∧
    ∀ e ∈ wordRegs d k, (g'.sreg e.1).full = true ∧ (g'.sreg e.1).poison = false ∧ (g'.sreg e.1).ready = s.dt + 2 ∧
      ∀ l x, (lanesOf c.all).head? = some l → special s c k l = some x → (g'.sreg e.1).val = BitVec.ofNat 32 (x / 2 ^ (32 * e.2)))

def setsrNeeds (gap x : Nat) (u : Bool) : Needs :=
  { gap := gap, vsrc := if u then [] else [x], ssrc := if u then [x] else [] }

/-- A group with a special register written (R49, R283): reserved bits are discarded, a B8 outside its range leaves B8 as it is, and a
register that is read-only keeps its value. LR is a register of the strands. -/
def setSpecial (g : Group) (n : Nat) (w : Word) : Group :=
  match n with
  | 8 => { g with fpm := w &&& 3 }
  | 9 => { g with fpf := w &&& 0x1F }
  | 10 => { g with nfv := (w &&& 0x300) ||| (if 0x20 ≤ (w &&& 0x3F).toNat ∧ (w &&& 0x3F).toNat ≤ 0x3B then w &&& 0x3F else g.nfv &&& 0x3F) }
  | 11 => { g with cbwin := w &&& 0xFFFC }
  | 12 => { g with gmode := w &&& 7 }
  | _ => g

/-- The mode registers of a group by their numbers. -/
def modeValue (g : Group) (n : Nat) : Option Word :=
  match n with
  | 8 => some g.fpm
  | 9 => some g.fpf
  | 10 => some g.nfv
  | 11 => some g.cbwin
  | 12 => some g.gmode
  | _ => none

/-- `setsr` completes with a word, or writes nothing where it has none. The earlier value of the register may still be read for two
ticks. -/
def SetsSpecial (i : Instr) (n : Needs) (s : State) (core slot gang : Nat) (g : Group) (k : Nat) (w : Ctx → Option Word) : Prop :=
  let c := issueCtx n s core slot gang g
  ∃ t g', exec i s = .next t ∧ OnlyGroup s t core slot ∧ groupAt t core slot = some g' ∧
    { g' with strands := g.strands, srOlds := g.srOlds } = (match w c with
      | some x => setSpecial g k x
      | none => g) ∧
    (∀ j, (w c = none ∨ j ≠ k ∨ modeValue g k = none) → getAt [] g'.srOlds j = getAt [] g.srOlds j) ∧
    (∀ v, w c ≠ none → modeValue g k = some v → EarlierPairs (getAt [] g'.srOlds k) (getAt [] g.srOlds k) s.dt v) ∧
    (∀ j ∈ c.is, (g'.strand j).pc = ((g.strand j).advance 4).pc ∧ (g'.strand j).loops = ((g.strand j).advance 4).loops ∧
      (g'.strand j).prev = some s.dt ∧
      (match w c, decide (k = 14) with
       | some x, true => (g'.strand j).lr = x &&& 0xFFFFFFFE ∧
           EarlierPairs (g'.strand j).lrOlds (g.strand j).lrOlds s.dt (g.strand j).lr
       | _, _ => KeepsLr (g.strand j) (g'.strand j))) ∧
    (∀ j < 8, (g'.strand j).active = (g.strand j).active ∧ (g'.strand j).exited = (g.strand j).exited ∧
        (g'.strand j).div = (g.strand j).div) ∧
    ∀ j < 8, j ∉ c.is → g'.strand j = g.strand j

/-! WAITING AND NO-OPERATIONS (R54, R57, R279). -/

/-- A `nop` and the ticks that it adds before the next issue. -/
def nopRow : Instr → Option (Needs × Nat)
  | .nopLong g n => some ({ gap := g }, n.val)
  | .nopN n => some ({ len := 2 }, n.val)
  | _ => none

/-- The instruction completes and only moves its gang on; the next instruction of its strands waits `extra` ticks more (R54). -/
def Idles (i : Instr) (n : Needs) (s : State) (core slot gang : Nat) (g : Group) (extra : Nat) : Prop :=
  let c := issueCtx n s core slot gang g
  ∃ t g', exec i s = .next t ∧ OnlyGroup s t core slot ∧ groupAt t core slot = some g' ∧ Untouched g g' ∧
    (∀ j ∈ c.is, g'.strand j = { (g.strand j).advance n.len with
      prev := some (s.dt + extra), held := none, waitOnly := false, gang := (g'.strand j).gang }) ∧
    (∀ j ∈ c.is, ∀ k ∈ c.is, (g'.strand j).gang = (g'.strand k).gang ↔ (g'.strand j).pc = (g'.strand k).pc) ∧
    ∀ j < 8, j ∉ c.is → g'.strand j = g.strand j

/-- The flags that `waitf` names (R57). -/
def waitfRow : Instr → Option (Needs × Nat)
  | .waitf g m => some ({ gap := g }, m.val)
  | .waitfS m => some ({ len := 2 }, m.val)
  | _ => none

/-- Every named flag counts zero. -/
def CountsZero (g : Group) (m : Nat) : Prop := ∀ f < 12, m.testBit f = true → g.count f = 0

/-- The state in which an issue that met a condition takes its trap: the port of the tick is taken and free values are used up. -/
def issued (s : State) (core slot : Nat) (g : Group) : State :=
  { setCore s core { coreAt s core with portUsed := (coreAt s core).portUsed ++ [portOf g slot] } with free := s.free + freeSpan }

/-- The gang's strands stay at the instruction, held for a reason; the group is otherwise as it was (R34, R42, R99). -/
structure HeldAt (s : State) (c : Ctx) (g' : Group) (h : Hold) : Prop where
  rest : Untouched c.g g'
  held : ∀ j ∈ c.is, g'.strand j = { c.g.strand j with held := some h, prev := some s.dt }
  stay : ∀ j < 8, j ∉ c.is → g'.strand j = c.g.strand j

/-- The fences and their scopes (R99). -/
def fenceRow : Instr → Option (Needs × Nat)
  | .fenceB g => some ({ gap := g }, 0)
  | .fenceD g => some ({ gap := g }, 1)
  | .fenceS g => some ({ gap := g }, 2)
  | _ => none

/-- A fence completes its issue: the strands wait for what was issued before it. -/
def Fences (i : Instr) (n : Needs) (s : State) (core slot gang : Nat) (g : Group) (scope : Nat) : Prop :=
  ∃ t g', exec i s = .next t ∧ OnlyGroup s t core slot ∧ groupAt t core slot = some g' ∧
    HeldAt s (issueCtx n s core slot gang g) g' (.fence scope s.nextId)

/-! GATHERING (R34, R196). -/

/-- With this gang every strand of the group has come to a gathering instruction. -/
def AllCome (c : Ctx) : Prop := ∀ i ∈ c.g.live, i ∈ c.is ∨ (c.g.strand i).held = some .gather

/-- The strands of the group stand at one address. -/
def OneAddress (c : Ctx) : Prop := ∀ i ∈ c.g.live, ∀ j ∈ c.g.live, (c.g.strand i).pc = (c.g.strand j).pc

/-- With this gang every strand of the group has come to a gathering instruction, and all stand at one address. -/
def LastToGather (c : Ctx) : Prop := AllCome c ∧ OneAddress c

def regangRow : Instr → Option Needs
  | .regang g => some { gap := g }
  | .compactRegang => some { len := 2 }
  | _ => none

/-- A gang that is not the last of its group to gather is held at the instruction (R34). -/
def HoldsGang (i : Instr) (n : Needs) (s : State) (core slot gang : Nat) (g : Group) : Prop :=
  ∃ t g', exec i s = .next t ∧ OnlyGroup s t core slot ∧ groupAt t core slot = some g' ∧ HeldAt s (issueCtx n s core slot gang g) g' .gather

/-- `regang` with the last gang (R34): the whole group goes on as one gang. -/
def Regangs (i : Instr) (n : Needs) (s : State) (core slot gang : Nat) (g : Group) : Prop :=
  ∃ t g', exec i s = .next t ∧ OnlyGroup s t core slot ∧ groupAt t core slot = some g' ∧ Untouched g g' ∧
    GoesOn s { issueCtx n s core slot gang g with is := g.live } n.len g'

/-- An offset that the spec does not call signed counts halfwords upward (log 53). -/
def aheadOf (pc : Dword) (off : Nat) : Dword := pc + BitVec.ofNat 64 (2 * off)

/-- The flashback point that `fbp` records (R196): the address after it, the pricking routine unless the offset is zero, the mask, and
each strand's masks, LR and stacks. -/
def flashAt (c : Ctx) (i : Nat) (lo hi : Word) (f : FlashPoint) : Prop :=
  f.resume = c.pc + 12 ∧
  f.pricking = (if i = 0 then none else some (aheadOf c.pc i)) ∧
  f.mask = hi ++ lo ∧ f.waited = c.g.bars.map (fun e => (e.1, e.2.waited)) ∧
  ∀ j < 8, f.strands[j]? = some ⟨(c.g.strand j).active, (c.g.strand j).exited, (c.g.strand j).lr, (c.g.strand j).div, (c.g.strand j).loops⟩

/-- `fbp` of the last gang completes once the registers of the mask are full: the point is recorded and the region opens (R196, R197). -/
def RecordsPoint (gap : Fin 4) (i : Fin 65536) (lo hi : Word) (n : Needs) (s : State) (core slot gang : Nat) (g : Group) : Prop :=
  let c := issueCtx n s core slot gang g
  ∃ t g' f, exec (.fbp gap i lo hi) s = .next t ∧ OnlyGroup s t core slot ∧ groupAt t core slot = some g' ∧
    { g' with strands := g.strands, flash := g.flash, regionOpen := g.regionOpen } = g ∧ g'.regionOpen = true ∧
    g'.flash = some f ∧ flashAt c i lo hi f ∧ GoesOn s { c with is := g.live } 12 g'

/-- `pret` completes: its strands go to the resume address, and the pricking is over (R196). -/
def ReturnsPricking (gap : Fin 4) (n : Needs) (s : State) (core slot gang : Nat) (g : Group) (f : FlashPoint) : Prop :=
  ∃ t g', exec (.pret gap) s = .next t ∧ OnlyGroup s t core slot ∧ groupAt t core slot = some g' ∧ g'.pricking = false ∧
    Moves s (issueCtx n s core slot gang g) { g' with pricking := g.pricking }
      (fun _ t t' => t'.pc = f.resume ∧ t'.loops = t.loops ∧ t'.active = t.active ∧ t'.div = t.div ∧ KeepsLr t t')

/-- The gathering instructions but `gcall`, which has conditions of its gate besides. -/
def gatherRow : Instr → Option Needs
  | .regang g => some { gap := g }
  | .compactRegang => some { len := 2 }
  | .fbp g _ _ _ => some { len := 12, gap := g, zone := .block }
  | .gret g => some { gap := g }
  | .gabort g _ => some { gap := g }
  | _ => none

/-! BARRIERS (R41, R42). -/

/-- The barrier instructions: the barrier, and whether they arrive and wait. -/
def barNeed (len gap : Nat) (arrives : Bool) : Needs := { len := len, gap := gap, zone := .block, closes := arrives }

/-- The group has not arrived since its barrier's phase began. -/
def NotArrived (s : State) (g : Group) (n : Nat) : Prop :=
  (getAt GroupBar.none g.bars n).arrived = false ∧ ∀ b, blockOf s g = some b → laneBit (getAt Barrier.none b.bars n).groups g.gid = false

/-- The strands of a list have executed an arriving instruction at a barrier: when every strand of the group has, the group arrives over
all it has issued (R41, R42, R100). Other barriers stand. -/
structure Arrives (g g' : Group) (n : Nat) (is : List Nat) (upTo : Nat) : Prop where
  others  : ∀ k, k ≠ n → getAt GroupBar.none g'.bars k = getAt GroupBar.none g.bars k
  strands : ∀ i < 8, (getAt GroupBar.none g'.bars n).strands.getLsbD i =
    ((getAt GroupBar.none g.bars n).strands.getLsbD i || is.contains i)
  arrived : (getAt GroupBar.none g'.bars n).arrived =
    g.live.all (fun i => (getAt GroupBar.none g.bars n).strands.getLsbD i || is.contains i)
  upTo    : (getAt GroupBar.none g'.bars n).arrived = true → (getAt GroupBar.none g'.bars n).upTo = upTo
  last    : (getAt GroupBar.none g'.bars n).last = (getAt GroupBar.none g.bars n).last
  waited  : (getAt GroupBar.none g'.bars n).waited = (getAt GroupBar.none g.bars n).waited

/-- The phase of a barrier of the group's block. -/
def phaseNow (s : State) (g : Group) (n : Nat) : Nat := ((blockOf s g).map (fun b => (getAt Barrier.none b.bars n).phase)).getD 0

/-- The phase that a strand would wait for is over: the group's last arrival was in an earlier phase, nothing newer is pending, and no
wait of the strand has consumed it. -/
def PhaseOver (s : State) (g : Group) (n i : Nat) : Prop :=
  ∃ p, (getAt GroupBar.none g.bars n).last = some p ∧ p < phaseNow s g n ∧ (getAt GroupBar.none g.bars n).arrived = false ∧
    (getAt GroupBar.none g.bars n).waited.getLsbD i = false

/-- `bar.arr` completes. -/
def ArrivesOnly (gap : Fin 4) (k : Fin 16) (s : State) (core slot gang : Nat) (g : Group) : Prop :=
  let c := issueCtx (barNeed 4 gap true) s core slot gang g
  ∃ t g', exec (.barArr gap k) s = .next t ∧ OnlyGroup s t core slot ∧ groupAt t core slot = some g' ∧
    { g' with strands := g.strands, bars := g.bars, regionOpen := g.regionOpen } = g ∧ g'.regionOpen = false ∧
    GoesOn s c 4 g' ∧ Arrives g g' k c.is s.nextId

/-- A wait on a barrier: strands for which the phase is over go on; else the gang is held until it is. -/
def WaitsAt (i : Instr) (n : Needs) (k : Nat) (s : State) (core slot gang : Nat) (g : Group) : Prop :=
  let c := issueCtx n s core slot gang g
  ∃ t g', exec i s = .next t ∧ OnlyGroup s t core slot ∧ groupAt t core slot = some g' ∧
    { g' with strands := g.strands, bars := g.bars, regionOpen := g.regionOpen } = g ∧
    ((∀ j ∈ c.is, PhaseOver s g k j) → GoesOn s c n.len g' ∧
      (∀ j < 8, (getAt GroupBar.none g'.bars k).waited.getLsbD j = ((getAt GroupBar.none g.bars k).waited.getLsbD j || c.is.contains j))) ∧
    ((∃ j ∈ c.is, ¬ PhaseOver s g k j) → g'.bars = g.bars ∧
      HeldAt s c { g' with regionOpen := g.regionOpen } (.barrier k (phaseNow s g k) s.dt n.len false))

/-- `bar.sync` arrives and waits (R42). -/
def ArrivesAndWaits (i : Instr) (n : Needs) (k : Nat) (s : State) (core slot gang : Nat) (g : Group) : Prop :=
  let c := issueCtx n s core slot gang g
  ∃ t g', exec i s = .next t ∧ OnlyGroup s t core slot ∧ groupAt t core slot = some g' ∧ Arrives g g' k c.is s.nextId ∧
    g'.regionOpen = false ∧
    HeldAt s c { g' with bars := g.bars, regionOpen := g.regionOpen } (.barrier k (phaseNow s g k) s.dt n.len true)

def syncRow : Instr → Option (Needs × Nat)
  | .barSync g n => some (barNeed 4 g true, n.val)
  | .barS n => some (barNeed 2 0 true, n.val)
  | _ => none

/-! LOOPS (R37, R280). -/

/-- A loop instruction: its needs, the count of an iteration, and the offset of its end in halfwords. -/
def loopRow : Instr → Option (Needs × (Ctx → Word) × Nat)
  | .loop g x e => some ({ gap := g, ssrc := [x.val] }, fun c => c.s x, e.val)
  | .loopi g n e => some ({ gap := g }, fun _ => BitVec.ofNat 32 n, e.val)
  | _ => none

/-- The end of a loop's body (R37). -/
def bodyEnd (c : Ctx) (e : Nat) : Dword := c.pc + BitVec.ofNat 64 (2 * e)

/-- A loop of a count that is not zero is entered: each strand gets an entry, and goes on under the loop rule (R37). -/
def EntersLoop (i : Instr) (n : Needs) (s : State) (core slot gang : Nat) (g : Group) (count : Ctx → Word) (e : Nat) : Prop :=
  Branches i n s core slot gang g (fun c _ t t' =>
    let u : Strand := { t with loops := ⟨c.pc + 4, bodyEnd c e, count c⟩ :: t.loops }
    t'.pc = (u.advance 4).pc ∧ t'.loops = (u.advance 4).loops ∧ t'.active = t.active ∧ t'.div = t.div ∧ KeepsLr t t')

/-- A loop of count zero is passed over: the strands go behind the instruction at its end (R37). -/
def SkipsLoop (i : Instr) (n : Needs) (s : State) (core slot gang : Nat) (g : Group) (e : Nat) (half : List Byte) : Prop :=
  Branches i n s core slot gang g (fun c _ t t' =>
    JumpsTo t t' 4 false (afterEndOf (bodyEnd c e) half) ∧ t'.active = t.active ∧ t'.div = t.div ∧ KeepsLr t t')

/-- `lbrk` (R37): a strand leaves its innermost loop for the address behind its end; without a loop it goes on. -/
def LeavesLoop (gap : Fin 4) (s : State) (core slot gang : Nat) (g : Group) (first : Nat → List Byte) : Prop :=
  Branches (.lbrk gap) { gap := gap } s core slot gang g (fun _ i t t' =>
    (match t.loops with
     | [] => t'.pc = (t.advance 4).pc ∧ t'.loops = []
     | e :: rest => JumpsTo { t with loops := rest } t' 4 false (afterEndOf e.stop (first i))) ∧
    t'.active = t.active ∧ t'.div = t.div ∧ KeepsLr t t')

/-! BRANCHES (R277, R278). -/

/-- A call leaves the address after it in LR (R277). -/
def linkOf (c : Ctx) (len : Nat) : Word := (c.pc + BitVec.ofNat 64 len).truncate 32

/-- A call writes LR, of which nothing earlier is to be had any more. -/
def Links (t' : Strand) (w : Word) : Prop := t'.lr = w ∧ t'.lrOlds = []

/-- LR of the gang's strands is not read early where GAPCHECK traps an early read (R374). -/
def LrReadable (c : Ctx) : Prop := c.g.gmode.getLsbD 2 = true → LrSettled c c.is

/-- The target of `ret`: LR as its reader receives it, under the upper half of the PC (R277, R374). -/
def returnTo (c : Ctx) (i : Nat) (t : Strand) : Dword :=
  BitVec.ofNat 64 (t.pc.toNat / 2 ^ 32 * 2 ^ 32 + (c.g.readLr c.free c.dt i i).toNat)

/-- The target of a lane of `jtab` from the four bytes of its table entry (R277). -/
def entryAddress (c : Ctx) (r toff l : Nat) : Nat := ((aheadOf c.pc toff).toNat + 4 * (c.v r l).toNat) % 2 ^ 64

def EntryIs (c : Ctx) (s : State) (r toff l : Nat) (w : Word) : Prop :=
  ∃ b0 b1 b2 b3, readCode s c.asker ((partOfCore s c.core).getD 0) c.g.dom (entryAddress c r toff l) 4 = .bytes [b0, b1, b2, b3] ∧
    w = b3 ++ b2 ++ b1 ++ b0

def tableTargetOf (c : Ctx) (toff : Nat) (w : Nat → Word) (i j : Nat) : Dword :=
  if laneBit c.act (4 * i + j) then aheadOf c.pc toff + BitVec.ofInt 64 (2 * (w (4 * i + j)).toInt) else c.pc + 4

/-! `trap`, `brk`, `exit`, `yield`, `spawn` (R40, R191, R192, R202, R282, R284). -/

/-- `trap` and `brk`: their causes (R282). -/
def trapRow : Instr → Option (Needs × Nat)
  | .trap g p _ => some ({ gap := g, guard := some p.val }, 0x19)
  | .brk g p _ => some ({ gap := g, guard := some p.val }, 0x1A)
  | .compactBrk => some ({ len := 2, guard := some 0 }, 0x1A)
  | _ => none

/-- The handler slot as a trap leaves it (R202): the cause, the slot, the strand, the PC and the VA in s0 to s7, every strand at the
HANDLER address of the group's domain. -/
structure Serving (h : Group) (slot : Nat) (d : DomReg) (t : TrapRec) : Prop where
  serves : h.serves = some slot
  dom    : h.dom = d
  regs   : h.nv = 64 ∧ h.ns = 64
  s0     : (h.sreg 0).val = BitVec.ofNat 32 t.cause
  s1     : (h.sreg 1).val = BitVec.ofNat 32 slot
  s2     : (h.sreg 2).val = BitVec.ofNat 32 t.strand
  s45    : (h.sreg 5).val ++ (h.sreg 4).val = t.pc
  s67    : (h.sreg 7).val ++ (h.sreg 6).val = t.va
  pc     : ∀ i < 8, (h.strand i).pc = evenPc d.handler ∧ (h.strand i).active = 0xF ∧ (h.strand i).exited = 0
  runs   : h.stop = .running ∧ h.control = 0

/-- A group that may be served at once: it has a handler, and the handler slot is free with none waiting. -/
def HandlerFree (s : State) (core slot : Nat) (g : Group) : Prop :=
  slot ≠ handlerSlot ∧ g.dom.handler ≠ 0 ∧ groupAt s core handlerSlot = none ∧ (coreAt s core).queue = []

/-- The group stops for a condition that its gathering meets, served at once: its registers stand, and its strands stay at their
addresses, held or not (R372, R376, R396). -/
def GatherStops (i : Instr) (s : State) (core slot : Nat) (g : Group) (x : TrapRec) (held : Option Hold) : Prop :=
  ∃ t g' h, exec i s = .next t ∧ groupAt t core slot = some g' ∧ groupAt t core handlerSlot = some h ∧ g'.stop = .served x ∧
    { g' with strands := g.strands, stop := g.stop } = g ∧ Serving h slot g.dom x ∧
    ∀ j ∈ g.live, (g'.strand j).held = held ∧ (g'.strand j).pc = (g.strand j).pc

/-- `trap` and `brk` with an active lane: the instruction retires and the group stops with the cause, served by the handler slot. -/
def RaisesTrap (i : Instr) (n : Needs) (s : State) (core slot gang : Nat) (g : Group) (cause : Nat) : Prop :=
  let c := issueCtx n s core slot gang g
  ∃ t g' h, exec i s = .next t ∧ groupAt t core slot = some g' ∧ groupAt t core handlerSlot = some h ∧
    GoesOn s c n.len g' ∧ g'.stop = .served ⟨cause, c.low, c.pc, 0⟩ ∧
    { g' with strands := g.strands, stop := g.stop } = g ∧ Serving h slot g.dom ⟨cause, c.low, c.pc, 0⟩ ∧
    (∀ k, k ≠ groupKey core slot → k ≠ groupKey core handlerSlot → lookupAt t.groups k = lookupAt s.groups k) ∧
    (∀ a, readByte t.mem a = readByte s.mem a)

def exitRow : Instr → Option Needs
  | .exit g p => some { gap := g, guard := some p.val, zone := .notCall }
  | .compactExit => some { len := 2, guard := some 0, zone := .notCall }
  | _ => none

/-- The lanes of a strand among 32. -/
def laneSet (w : Word) (i : Nat) : BitVec 4 := BitVec.ofNat 4 (w.toNat / 2 ^ (4 * i))

/-- The active lanes leave every mask of their strands; a strand that keeps a lane goes on (R40). -/
structure Exits (c : Ctx) (len : Nat) (g' : Group) : Prop where
  lanes : ∀ j ∈ c.is, (g'.strand j).exited = (c.g.strand j).exited ||| laneSet c.act j ∧
    (g'.strand j).active = (c.g.strand j).active &&& ~~~laneSet c.act j
  goes  : ∀ j ∈ c.is, (c.g.strand j).exited ||| laneSet c.act j ≠ 0xF →
    (g'.strand j).pc = ((c.g.strand j).advance len).pc ∧ (g'.strand j).loops = ((c.g.strand j).advance len).loops ∧
    (g'.strand j).div = (c.g.strand j).div.map (fun e =>
      { e with mask := e.mask &&& ~~~laneSet c.act j, rmask := e.rmask &&& ~~~laneSet c.act j })
  gone  : ∀ j ∈ c.is, (c.g.strand j).exited ||| laneSet c.act j = 0xF → (g'.strand j).div = [] ∧ (g'.strand j).loops = []
  stay  : ∀ j < 8, j ∉ c.is → g'.strand j = c.g.strand j

/-- A strand of the group keeps a lane after the exit. -/
def SomeRemain (c : Ctx) : Prop :=
  ∃ j ∈ c.g.live, j ∉ c.is ∨ (c.g.strand j).exited ||| laneSet c.act j ≠ 0xF

def yieldRow : Instr → Option Needs
  | .yield g => some { gap := g }
  | .compactYield => some { len := 2 }
  | _ => none

/-- A polite request is pending for the group's block (R191, R198). -/
def AskedToYield (s : State) (g : Group) : Prop := ∃ b k, blockOf s g = some b ∧ b.preempt = .polite k

/-- `yield` under a polite request: the strands retire and are held. -/
def YieldsHeld (i : Instr) (n : Needs) (s : State) (core slot gang : Nat) (g : Group) : Prop :=
  let c := issueCtx n s core slot gang g
  ∃ t g', exec i s = .next t ∧ OnlyGroup s t core slot ∧ groupAt t core slot = some g' ∧ Untouched g g' ∧
    (∀ j ∈ c.is, (g'.strand j).pc = ((g.strand j).advance n.len).pc ∧ (g'.strand j).loops = ((g.strand j).advance n.len).loops ∧
      (g'.strand j).held = some .yield ∧ (g'.strand j).prev = some s.dt) ∧
    ∀ j < 8, j ∉ c.is → g'.strand j = g.strand j

/-- A task record within R192: 19 bits, 1 to 32 groups, 1 to 8 register blocks, at most 112 granules of scratchpad. -/
def TaskOk (w : Word) : Prop :=
  w.toNat < 2 ^ 19 ∧ 1 ≤ w.toNat % 64 ∧ w.toNat % 64 ≤ 32 ∧ 1 ≤ w.toNat / 64 % 16 ∧ w.toNat / 64 % 16 ≤ 8 ∧ w.toNat / 4096 % 128 ≤ 112

def spawnNeeds (gap n : Nat) : Needs :=
  { gap := gap, zone := .block, ssrc := [n, n + 1, n + 2, n + 3], closes := true }

/-- A frame or a record of domain 0 is written, by pieces of 64 bytes: only its places of memory change, and what a write at home changes
besides, in caches, leases and banks, with the write-backs it asks for (R87, R94, R97, R153, R394); where nothing can be written the
failure is logged (R383). -/
structure FrameWritten (s t : State) (spots : List Spot) : Prop where
  memory : ∀ a, (∀ p ∈ spots, ¬ (physKey p.stack p.pa ≤ a ∧ a < physKey p.stack p.pa + 64)) → readByte t.mem a = readByte s.mem a
  queues : ∀ k < s.nextId, ∀ r, lookupAt s.net k = some r → r.kind.isPull = false → lookupAt t.net k = some r
  logs   : spots ≠ [] → t.logs = s.logs ∧ t.dlfw = s.dlfw
  rest   : { t with
    groups := s.groups, cores := s.cores, free := s.free, parts := s.parts, mem := s.mem, memPoison := s.memPoison, covers := s.covers,
    versions := s.versions, l1 := s.l1, seen := s.seen, l2 := s.l2, replicas := s.replicas, net := s.net, nextId := s.nextId,
    nbus := s.nbus, activations := s.activations, stackRegs := s.stackRegs, logs := s.logs, dlfw := s.dlfw } = s

/-- Where a core's full deque writes the task it spills: the lowest free place of 64 bytes of its area, as memory of domain 0 (R192; log
81). -/
def taskSpots (s : State) (core : Nat) : List Spot :=
  (spotsFrom s (some (dieOfCore core)) ((partOfCore s core).getD 0) 1 (Config.taskArea core + 64 * (coreAt s core).freePlace)).getD []

/-- `spawn` completes: a task with the fields of its record joins the bottom of the core's deque, behind its 64 places in the spill area
(R192; log 81), and its launch counts it. -/
def Spawns (gap : Fin 4) (n : Fin 64) (s : State) (core slot gang : Nat) (g : Group) (b : Block) (r : NodeRun) : Prop :=
  let c := issueCtx (spawnNeeds gap n) s core slot gang g
  let w := c.s (n + 2)
  let task : Task := ⟨b.run, r.entry.blocks + r.nextTask, (c.s n).toNat + 2 ^ 32 * (c.s (n + 1)).toNat,
    w.toNat % 64, w.toNat / 64 % 16, w.toNat / 1024 % 4 + 1, w.toNat / 4096 % 128, c.s (n + 3), g.dom, core⟩
  ∃ t g', exec (.spawn gap n) s = .next t ∧
    ((coreAt s core).deque.length < 64 → { t with groups := s.groups, cores := s.cores, free := s.free, runs := s.runs } = s) ∧
    (64 ≤ (coreAt s core).deque.length → FrameWritten s { t with runs := s.runs } (taskSpots s core)) ∧ groupAt t core slot = some g' ∧
    GoesOn s c 4 g' ∧ { g' with strands := g.strands, regionOpen := g.regionOpen } = g ∧ g'.regionOpen = false ∧
    (∀ k, k ≠ groupKey core slot → lookupAt t.groups k = lookupAt s.groups k) ∧ (∀ k, k ≠ core → coreAt t k = coreAt s k) ∧
    { coreAt t core with
      portUsed := (coreAt s core).portUsed, deque := (coreAt s core).deque, spilled := (coreAt s core).spilled } = coreAt s core ∧
    ((coreAt s core).deque.length < 64 →
      (coreAt t core).deque = (coreAt s core).deque ++ [task] ∧ (coreAt t core).spilled = (coreAt s core).spilled) ∧
    (64 ≤ (coreAt s core).deque.length →
      (coreAt t core).deque = (coreAt s core).deque ∧ (coreAt t core).spilled = (coreAt s core).spilled ++ [((coreAt s core).freePlace,
          task)] ∧
      ∀ e ∈ (coreAt s core).spilled, e.1 ≠ (coreAt s core).freePlace) ∧
    lookupAt t.runs b.run = some { r with nextTask := r.nextTask + 1, live := r.live + 1 } ∧
    ∀ k, k ≠ b.run → lookupAt t.runs k = lookupAt s.runs k

/-- A group that its handler has served runs on as it stands: its gangs part by PC, it has arrived where only strands that are gone had
not, and what the handler wrote above a stack's depth is dropped (R33, R41, R202, R285). -/
structure Resumed (s : State) (g g' : Group) : Prop where
  rest    : { g' with strands := g.strands, stop := g.stop, bars := g.bars } = g
  bars    : g'.bars = (g.arriveRest s.nextId).bars
  strands : ∀ j < 8, ∃ k, g'.strand j = { g.strand j with gang := k, loopsAbove := [], divAbove := [] }
  parted  : ∀ i ∈ g.live, ∀ j ∈ g.live, (g'.strand i).gang = (g'.strand j).gang ↔
    (g.strand i).gang = (g.strand j).gang ∧ (g.strand i).pc = (g.strand j).pc

/-! GATES AND THE ACCESS WINDOW (R180, R203, R285, R396, R397). -/

/-- No register of the group is empty and no flag counts (R180). -/
def Quiet (g : Group) : Prop :=
  (∀ r ∈ g.v, r.2.full = true) ∧ (∀ r ∈ g.s, r.2.full = true) ∧ ∀ e ∈ g.counts, e.2 = 0

/-- The gate entry `i` as memory of domain 0 holds it (R179). -/
def GateIs (s : State) (who : Asker) (part i : Nat) (e : GateEntry) : Prop :=
  ∃ bs, gateRead s who part i = .bytes bs ∧ e = GateEntry.ofBytes bs

/-- The group's domain may call the gate: no key is asked for, or it holds the key (R180). -/
def HoldsKey (s : State) (part : Nat) (g : Group) (e : GateEntry) : Prop :=
  e.aclKey = 0 ∨ ∃ k ∈ (domainAt s part g.dom.id).keys, k.toNat = e.aclKey

/-- The gate's registers lie within the group's allocation (R180). -/
def GateFits (g : Group) (e : GateEntry) : Prop := max e.nva e.nvr ≤ g.nv ∧ max e.nua e.nur ≤ g.ns

/-- The gate is open to the group (R179, R180). -/
structure GateOpen (s : State) (who : Asker) (part i : Nat) (g : Group) (e : GateEntry) : Prop where
  entry : GateIs s who part i e
  valid : e.valid = true
  key   : HoldsKey s part g e
  fits  : GateFits g e
  depth : g.calls.length < 4

def gcallNeeds (gap : Nat) : Needs := { gap := gap, zone := .notHandler, closes := true }

/-- The group inside a gate (R180): the callee's domain, the arguments kept and every other register at its start value, all strands at
the entry, and what the caller keeps on the call stack. -/
structure Inside (s : State) (part : Nat) (c : Ctx) (e : GateEntry) (g' : Group) (f : CallFrame) : Prop where
  dom     : g'.dom = domReg s part e.dom
  calls   : g'.calls = f :: c.g.calls
  saved   : f.dom = c.g.dom ∧ f.resume = c.pc + 4 ∧ f.p = c.g.p ∧ f.q = c.g.q ∧ f.fpm = c.g.fpm ∧ f.fpf = c.g.fpf ∧ f.nfv = c.g.nfv ∧
    f.cbwin = c.g.cbwin ∧ f.gmode = c.g.gmode ∧ f.nvr = e.nvr ∧ f.nur = e.nur ∧ f.save = e.save ∧ f.budget = e.budget * 1024 ∧ f.used = 0
  vectors : ∀ r, (r < e.nva → g'.vreg r = c.g.vreg r) ∧ (e.nva ≤ r → g'.vreg r = VReg.start)
  scalars : ∀ r, r ≠ 61 → (r < e.nua → g'.sreg r = c.g.sreg r) ∧ (e.nua ≤ r → g'.sreg r = SReg.start)
  caller  : (g'.sreg 61).val = BitVec.ofNat 32 c.g.dom.id
  modes   : g'.fpm = 0 ∧ g'.fpf = 0 ∧ g'.nfv = 0x2C ∧ g'.cbwin = 0 ∧ g'.gmode = 0 ∧ g'.srOlds = [] ∧ g'.p = [] ∧ g'.q = []
  strands : ∀ i < 8, (g'.strand i).pc = evenPc (BitVec.ofNat 64 e.entry) ∧ (g'.strand i).active = ~~~(c.g.strand i).exited ∧
    (g'.strand i).exited = (c.g.strand i).exited ∧ (g'.strand i).div = [] ∧ (g'.strand i).loops = []

/-- Where a `gcall` writes the caller's frame: 16 KiB from SAVE + ((c · 32 + q) · 4 + d) · 16 KiB, as memory of domain 0, by pieces of 64
bytes; none where not all of it can be written (R179; log 11). -/
def frameSpots (s : State) (part : Nat) (e : GateEntry) (core slot depth : Nat) : List Spot :=
  (spotsFrom s (some (dieOfCore core)) part 256 (e.save + ((core * 32 + slot) * 4 + depth) * 2 ^ 14)).getD []

/-- The group after the innermost call returned with a status, keeping so many vector and uniform results (R180). -/
structure Outside (g : Group) (f : CallFrame) (rest : List CallFrame) (kv ks : Nat) (status : Word) (g' : Group) : Prop where
  results : (∀ r < kv, g'.vreg r = g.vreg r) ∧ ∀ r < ks, r ≠ 63 → g'.sreg r = g.sreg r
  dom     : g'.dom = f.dom
  calls   : g'.calls = rest
  status  : (g'.sreg 63).val = status ∧ (g'.sreg 63).full = true
  modes   : g'.fpm = f.fpm ∧ g'.fpf = f.fpf ∧ g'.nfv = f.nfv ∧ g'.cbwin = f.cbwin ∧ g'.gmode = f.gmode ∧ g'.p = f.p ∧ g'.q = f.q ∧
      g'.srOlds = []
  strands : ∀ i < 8, (g'.strand i).pc = f.resume ∧ (g'.strand i).held = none
  lost    : ∀ r, kv ≤ r → lookupAt f.v r = none → g'.vreg r = VReg.start
  kept    : ∀ r, kv ≤ r → ∀ x, lookupAt f.v r = some x → lookupAt g'.v r = some x

/-- `gret` and `gabort`: how many vector and uniform results they keep of a call, and the status (R180). -/
def leaveRow : Instr → Option (Needs × (CallFrame → Nat × Nat) × Word)
  | .gret g => some ({ gap := g, closes := true }, fun f => (f.nvr, f.nur), 0)
  | .gabort g i => some ({ gap := g, closes := true }, fun _ => (0, 0), if i.val = 0 then 1 else BitVec.ofNat 32 i)
  | _ => none

/-- The handler slot serves a group in slot q, and a selector names something of it (R203). -/
structure Serves (s : State) (core slot : Nat) (g : Group) (q : Nat) (h : Group) : Prop where
  serves : g.serves = some q
  other  : q ≠ slot
  here   : groupAt s core q = some h

/-- The fields of a selector: INDEX, STRAND, CLASS and WORD (R203). -/
def indexOf (x : Word) : Nat := x.toNat % 64
def strandOf (x : Word) : Nat := x.toNat / 64 % 8
def classOf (x : Word) : Nat := x.toNat / 512 % 16
def wordNo (x : Word) : Nat := x.toNat / 8192 % 8

/-- What `xrd` reads of a stopped group h in a lane, for a handler g (Table 14.7): vector and uniform registers, predicates, tags, the
PC, LR and the masks of a strand, the flag counts, and the handler's control word. -/
def visible (g h : Group) (x : Word) (l : Nat) : Option Word :=
  match classOf x with
  | 0 => some (if (h.vreg (indexOf x)).dead then 0 else laneOf (h.vreg (indexOf x)).lanes l)
  | 1 => some (h.sreg (indexOf x)).val
  | 2 => some (h.preg (indexOf x)).val
  | 4 => some (BitVec.ofNat 32 (h.vreg (indexOf x)).seenTag)
  | 6 => some (BitVec.ofNat 32 ((h.strand (strandOf x)).pc.toNat / 2 ^ (32 * wordNo x)))
  | 7 => some (h.strand (strandOf x)).lr
  | 8 => some (BitVec.ofNat 32 ((h.strand (strandOf x)).active.toNat + 16 * (h.strand (strandOf x)).exited.toNat))
  | 11 => some (BitVec.ofNat 32 (h.count (indexOf x)))
  | 12 => some g.control
  | _ => none

def xrdNeeds (gap d : Nat) (u : Bool) (x : Nat) : Needs :=
  { gap := gap, zone := .handlerOnly, ssrc := [x], vdst := if u then [] else [d], sdst := if u then [d] else [], varLat := true }

def xwrNeeds (gap d : Nat) (u : Bool) (x : Nat) : Needs :=
  { gap := gap, zone := .handlerOnly, ssrc := if u then [x, d] else [x], vsrc := if u then [] else [d] }

/-- The register that a selector names has arrived (R285). -/
def WindowFull (h : Group) (x : Word) : Prop :=
  (classOf x = 0 → (h.vreg (indexOf x)).full = true) ∧ (classOf x = 1 → (h.sreg (indexOf x)).full = true)

/-- `xrd` into a vector register. -/
def ReadsWindow (gap : Fin 4) (d x : Fin 64) (s : State) (core slot gang : Nat) (g h : Group) : Prop :=
  let c := issueCtx (xrdNeeds gap d false x) s core slot gang g
  ∃ f : Nat → Word, (∀ l w, visible g h (c.s x) l = some w → f l = w) ∧
    ∃ t, exec (.xrd gap d false x) s = .next t ∧
      SentUnit ⟨xrdNeeds gap d false x, [(d.val, 0)], fun _ _ l => f l, fun _ => none⟩ s t core slot gang g

/-- `xrd` into a uniform register. -/
def ReadsWindowUniform (gap : Fin 4) (d x : Fin 64) (s : State) (core slot gang : Nat) (g h : Group) : Prop :=
  let c := issueCtx (xrdNeeds gap d true x) s core slot gang g
  ∃ t g' v, exec (.xrd gap d true x) s = .next t ∧
    { t with groups := s.groups, cores := s.cores, free := s.free, replies := s.replies, nextId := s.nextId } = s ∧
    Elsewhere s t core slot ∧ groupAt t core slot = some g' ∧ GoesOn s c 4 g' ∧ { g' with s := g.s, strands := g.strands } = g ∧
    (∀ k, k ≠ d.val → g'.sreg k = g.sreg k) ∧ (g'.sreg d).full = false ∧
    t.replies = setAt s.replies s.nextId ⟨.group core slot g.uid (c.lanes.headD 0 / 4), accessLaunch s core g, .uniform d v, none, none,
        none⟩ ∧
    ∀ w, visible g h (c.s x) (c.lanes.headD 0) = some w → v = w

/-- What `xwr` writes of a stopped group, for the classes that name one register or one field of a strand (R203): a register written is
full, not dead and free of poison in the lanes written. -/
def Put (h h' : Group) (x lanes : Word) (f : Nat → Word) (v : Word) : Prop :=
  match classOf x with
  | 0 => { h' with v := h.v } = h ∧ (∀ k, k ≠ indexOf x → h'.vreg k = h.vreg k) ∧ (h'.vreg (indexOf x)).full = true ∧
      (h'.vreg (indexOf x)).dead = false ∧ (h'.vreg (indexOf x)).poison &&& lanes = 0 ∧
      ∀ l < 32, laneOf (h'.vreg (indexOf x)).lanes l =
        if laneBit lanes l then Held (if (h.vreg (indexOf x)).dead then 0 else (h.vreg (indexOf x)).tag) (f l)
        else if (h.vreg (indexOf x)).dead then 0 else laneOf (h.vreg (indexOf x)).lanes l
  | 1 => { h' with s := h.s } = h ∧ (∀ k, k ≠ indexOf x → h'.sreg k = h.sreg k) ∧ (h'.sreg (indexOf x)).val = v ∧
      (h'.sreg (indexOf x)).full = true ∧ (h'.sreg (indexOf x)).poison = false
  | 2 => { h' with p := h.p } = h ∧ (∀ k, k ≠ indexOf x → h'.preg k = h.preg k) ∧ (indexOf x ≠ 0 → (h'.preg (indexOf x)).val = v)
  | 4 => { h' with v := h.v } = h ∧ (∀ k, k ≠ indexOf x → h'.vreg k = h.vreg k) ∧ (h'.vreg (indexOf x)).tag = v.toNat % 16
  | 7 => { h' with strands := h.strands } = h ∧ ∀ i < h.strands.length, h'.strand i = if i = strandOf x then
      { h.strand i with lr := v &&& 0xFFFFFFFE, lrOlds := [] } else h.strand i
  | 8 => { h' with strands := h.strands } = h ∧ ∀ i < h.strands.length, h'.strand i = if i = strandOf x then
      { h.strand i with active := BitVec.ofNat 4 v.toNat, exited := BitVec.ofNat 4 (v.toNat / 16) } else h.strand i
  | 11 => { h' with counts := h.counts } = h ∧ (∀ k, k ≠ indexOf x → h'.count k = h.count k) ∧ h'.count (indexOf x) = v.toNat % 64
  | 12 => h' = h
  | _ => True

/-- `xwr` completes: the control word is the handler's, and any other class writes the stopped group; with no active lane a vector source
writes nothing. -/
def WritesWindow (gap : Fin 4) (d : Fin 64) (u : Bool) (x : Fin 64) (s : State) (core slot gang : Nat) (g : Group) (q : Nat) (h : Group) :
    Prop :=
  let n := xwrNeeds gap d u x
  let c := issueCtx n s core slot gang g
  let v := if u then c.s d else c.v d (c.lanes.headD 0)
  ∃ t g' h', exec (.xwr gap d u x) s = .next t ∧ { t with groups := s.groups, cores := s.cores, free := s.free } = s ∧
    groupAt t core slot = some g' ∧ groupAt t core q = some h' ∧ GoesOn s c 4 g' ∧
    { g' with strands := g.strands, control := g.control } = g ∧
    (u = false → c.act = 0 → h' = h ∧ g'.control = g.control) ∧
    (u = true ∨ c.act ≠ 0 → Put h h' (c.s x) c.act (c.v d) v ∧
      g'.control = (if classOf (c.s x) = 12 then v else g.control)) ∧
    ∀ k, k ≠ groupKey core slot → k ≠ groupKey core q → lookupAt t.groups k = lookupAt s.groups k

/-! WORK LISTS (R300 to R304). -/

/-- A list of the group's launch, sound and of a kind. -/
structure HasList (s : State) (g : Group) (w : Nat) (kinds : List Nat) (b : Block) (r : NodeRun) (l : WorkList) : Prop where
  block : blockOf s g = some b
  run   : lookupAt s.runs b.run = some r
  list  : r.lists[w]? = some l
  store : l.entries.length ≤ 4096
  sound : l.bad = false
  kind  : l.kind ∈ kinds

/-- An insertion may be made: what the group issued before is performed (R302), and the items fit the engine's store and the spill area,
of which the domain of the launch may use what they need (R300, R378). -/
structure MayInsert (s : State) (c : Ctx) (l : WorkList) : Prop where
  fence : fenceHolds s c.core c.g 1 s.nextId = true
  fits  : l.entries.length + l.places.length + c.lanes.length ≤ 4096 + l.cap
  spill : l.entries.length + l.places.length + c.lanes.length ≤ 4096 ∨
    rangeFail (launchDomain s c.g).ranges (permR + permW) l.spill (8 * (l.entries.length + l.places.length + c.lanes.length - 4096)) = none

/-- What the engine works with: the entries of its store, then those of the spill area with their places, of which it has read back the
first `n` (R300; log 67). -/
structure AtHand (s : State) (c : Ctx) (w n : Nat) (l : WorkList) (is : List Item) : Prop where
  read   : itemsOf c w n l s = some is
  stored : is.take l.entries.length = l.entries.map (fun e => (e, none))
  behind : (is.drop l.entries.length).map Prod.snd = l.places.map some

/-- The engine's work changes nothing else: its reads of the spill area are answered, and leave in banks and caches what they leave (R87,
R153, R156), its new entries beyond the store are on their way there (R300), and its launch's record waits for what it wrote (R109).
Without a spilled entry before and after, not even that. -/
def ListWorks (s t : State) (who : Asker) (l : WorkList) (len : Nat) : Prop :=
  { t with
    groups := s.groups, cores := s.cores, free := s.free, runs := s.runs, net := s.net, nextId := s.nextId, launches := s.launches,
    nbus := s.nbus, activations := s.activations, stackRegs := s.stackRegs, l2 := s.l2, replicas := s.replicas, logs := s.logs,
    replies := s.replies } = s ∧
  (l.places = [] → len ≤ 4096 →
    { t with groups := s.groups, cores := s.cores, free := s.free, runs := s.runs, net := s.net, nextId := s.nextId, replies := s.replies } = s ∧
    t.net = s.net.filter (fun e => !e.2.pullOf who)) ∧
  (l.places = [] → t.launches = s.launches)

/-- Only the list and the group changed: the list has new items, the first 4,096 in the engine's store and the others at places of the
spill area, to which an entry that has none yet is sent, its value before its key (R300; log 67). -/
def ListChanges (i : Instr) (n : Needs) (s : State) (core slot gang : Nat) (g : Group) (b : Block) (r : NodeRun) (w : Nat) (l : WorkList)
    (P : Ctx → List Item → Prop) : Prop :=
  let c := issueCtx n s core slot gang g
  ∃ t g' is ps, exec i s = .next t ∧ CoresStand s t core slot ∧ ListWorks s t (listAsker s g w) l is.length ∧ t.replies = s.replies ∧
    groupAt t core slot = some g' ∧ GoesOn s c 4 g' ∧ { g' with strands := g.strands, regionOpen := g.regionOpen } = g ∧
    g'.regionOpen = false ∧
    lookupAt t.runs b.run = some { r with lists := r.lists.set w { l with entries := (is.take 4096).map Prod.fst, places := ps } } ∧
    (∀ k, k ≠ b.run → lookupAt t.runs k = lookupAt s.runs k) ∧ P c is ∧ ps.length = is.length - 4096 ∧
    ∀ j < ps.length, ∀ x, is[4096 + j]? = some x →
      (∀ k, x.2 = some k → ps[j]? = some k) ∧
      (x.2 = none → ∃ k ia q, ps[j]? = some k ∧ k < ps.length ∧
        rangeIa (launchDomain s g).ranges (permR + permW) (l.spill + 8 * k) = some ia ∧ q ∈ t.net ∧ s.nextId ≤ q.1 ∧
        q.2.kind = .put (x.1.1.toNat + x.1.2.toNat * 2 ^ 32) (ones 8) ∧ q.2.ia = ia ∧ q.2.size = 8 ∧ q.2.dom = (launchDomain s g).id)

def listNeed (gap p : Nat) (src dst : List Nat) (closes : Bool) : Needs :=
  { gap := gap, guard := some p, vsrc := src, vdst := dst, zone := .block, varLat := true, closes := closes }

/-- A worklist in the order of its keys. -/
def SortedByKey (es : List (Word × Word)) : Prop := es.Pairwise (fun x y => x.2.toNat ≤ y.2.toNat)

/-- `wlins` (R302, R303): the order of keys is kept, and entries of equal keys stay in the order of their arrival. -/
def InsertedInOrder (old new items : List (Word × Word)) : Prop :=
  SortedByKey old → SortedByKey new ∧
    ∀ k, new.filter (fun e => e.2 == k) = old.filter (fun e => e.2 == k) ++ items.filter (fun e => e.2 == k)

/-- `wlpop` completes: the active lanes, in ascending order, take the entries from the front, and lanes beyond the end get the mark of an
exhausted list (R303). -/
def Pops (gap : Fin 4) (p : Fin 8) (d : Fin 64) (w : Fin 4) (s : State) (core slot gang : Nat) (g : Group) (b : Block) (r : NodeRun)
    (l : WorkList) (is : List Item) : Prop :=
  let n := listNeed gap p [] [d.val, d.val + 1] true
  let c := issueCtx n s core slot gang g
  let rank := fun k => (c.lanes.filter (fun j => decide (j < k))).length
  let left := is.drop c.lanes.length
  ∃ t g', exec (.wlpop gap p d w) s = .next t ∧ ListWorks s t (listAsker s g w) l left.length ∧
    Elsewhere s t core slot ∧ groupAt t core slot = some g' ∧ GoesOn s c 4 g' ∧ MarksRegs g g' c.act [(d.val, 0), (d.val + 1, 0)] ∧
        g'.regionOpen = false ∧
    lookupAt t.runs b.run = some { r with lists := r.lists.set w { l with
      entries := (left.take 4096).map Prod.fst, places := (left.drop 4096).filterMap Prod.snd } } ∧
    (∀ k, k ≠ b.run → lookupAt t.runs k = lookupAt s.runs k) ∧
    (c.act = 0 → t.replies = s.replies) ∧
    (c.act ≠ 0 → t.replies = setAt s.replies s.nextId (unitReply s c g [(d.val, 0), (d.val + 1, 0)] (fun x k =>
      match is[rank k]? with
      | some e => if x = d.val then e.1.1 else if l.kind = 1 then e.1.2 else 0
      | none => if x = d.val then 0 else 0xFFFFFFFF) 64))

/-! LATTICES (R116 to R125, R288 to R291). -/

/-- The slot of a lattice instruction holds a descriptor that keeps its table and that the instruction may use, and the registers it
implies lie within the allocation (R288, R398, R411). -/
structure LatticeHere (s : State) (g : Group) (slot : Nat) (may : Lattice → Bool) (x : Lattice) (regs : List Nat) : Prop where
  filled : slot < (latticeTable s g).length
  sound  : latticeValid (latticeBytes s g slot) = true
  named  : x = latticeAt s g slot
  may    : may x = true
  alloc  : ∀ r ∈ regs, r < g.nv

/-- The registers that follow each other from r. -/
def row (r n : Nat) : List Nat := (List.range n).map (fun i => r + i)

/-- The needs of a lattice instruction with DIMS coordinates from a, further sources and destinations (Table 20.1). -/
def latticeNeeds (gap p d a : Nat) (x : Lattice) (real : Bool) (src dst : List Nat) (closes : Bool) : Needs :=
  { gap := gap, guard := some p, zone := .block, varLat := true, vsrc := row a x.dims ++ src, vdst := dst, named := some [d, a],
    tags := ((if real then row a x.dims else []) ++ src).map (fun r => (r, [0, 2])), closes := closes }

/-- The coordinates of a lane. -/
def coords (c : Ctx) (x : Lattice) (a l : Nat) : List Word := (List.range x.dims).map (fun k => c.v (a + k) l)

/-- No lane leaves a dimension whose edge rule is TRAP, and every element of the corners it uses may be accessed (R382, R398). -/
def CornersGranted (c : Ctx) (x : Lattice) (a perms : Nat) (used : Corner → Bool) : Prop :=
  ∀ l ∈ c.lanes, ∀ cells, x.cells (coords c x a l) = some cells → x.traps (x.feet cells) = false ∧
    ∀ cs, x.corners (coords c x a l) = some cs → ∀ e ∈ x.elements (cs.filter used),
      rangeFail c.g.dom.ranges perms e.2 (elemSize x.fmt) = none

/-- An element that a gather waits for is on its way: read at home or served from L1 (R114, R123). -/
def ElementComes (s t : State) (id num va : Nat) : Prop :=
  (∃ k q, s.nextId ≤ k ∧ lookupAt t.net k = some q ∧ q.kind = .corner id num ∧ q.va = va) ∨
  ∃ k r v, s.nextId ≤ k ∧ lookupAt t.replies k = some r ∧ r.kind = .corner id num v

/-- A lane's read in progress (R122): the elements it waits for, and what it forms of them. -/
def LaneReads (s t : State) (c : Ctx) (x : Lattice) (l : Nat) (els : List (Nat × Nat)) (outs : List GatherOut) : Prop :=
  (els ≠ [] → ∃ id y, s.nextId ≤ id ∧ lookupAt t.gathers id = some y ∧ y.src = .group c.core c.slot c.g.uid (l / 4) ∧ y.lane = l ∧
    y.fmt = x.fmt ∧ y.exp = x.e ∧ y.wanted = els.length ∧ y.landed = [] ∧ y.outs = outs ∧ ∀ e ∈ els, ElementComes s t id e.1 e.2) ∧
  (els = [] → ∃ id r ws, s.nextId ≤ id ∧ lookupAt t.replies id = some r ∧ r.kind = .lanes ws 64 ∧
    ∀ o ∈ outs, ∀ w, o.result x.fmt x.e (fun _ => some 0) = some w → (o.reg, l, w) ∈ ws)

/-- A read of a lattice completes its issue: the destinations, tagged FP32, are empty, and each active lane reads what its plan says; a
lane without a plan, whose access is not finite, gets the canonical NaN in all of them (R119, R122, R289, R290). -/
def ReadsLattice (i : Instr) (n : Needs) (s : State) (core slot gang : Nat) (g : Group) (x : Lattice) (dst : List Nat)
    (plan : Ctx → Nat → Option (List (Nat × Nat) × List GatherOut)) : Prop :=
  let c := issueCtx n s core slot gang g
  ∃ t g', exec i s = .next t ∧
    { t with groups := s.groups, cores := s.cores, free := s.free, net := s.net, replies := s.replies, seen := s.seen,
             gathers := s.gathers, nextId := s.nextId } = s ∧
    Elsewhere s t core slot ∧ groupAt t core slot = some g' ∧ GoesOn s c 4 g' ∧ MarksRegs g g' c.act (dst.map (fun r => (r, 2))) ∧
    ∀ l ∈ c.lanes, match plan c l with
      | some y => LaneReads s t c x l y.1 y.2
      | none => ∃ id r ws, s.nextId ≤ id ∧ lookupAt t.replies id = some r ∧ r.kind = .lanes ws 64 ∧ ∀ k ∈ dst, (k, l, 0x7FC00000) ∈ ws

/-- The corners that a read at real coordinates uses. -/
def usedCorners (c : Ctx) (x : Lattice) (a : Nat) (used : Corner → Bool) (l : Nat) : Option (List Corner) :=
  (x.corners (coords c x a l)).map (fun cs => cs.filter used)

/-- A splat completes: every lane sends, for each corner it uses and each channel, an addition of the exact amount to the element, an FP32
or an FX64 one by the format (R124, R289). The group keeps its registers. -/
def Splats (i : Instr) (n : Needs) (s : State) (core slot gang : Nat) (g : Group) (x : Lattice) (a : Nat) (used : Corner → Bool)
    (amount : Ctx → Nat → Corner → Nat → Fp) : Prop :=
  let c := issueCtx n s core slot gang g
  let part := fun l k ch q => FromLane s c l (x.address k.idx ch) (iaOf c (permL + permW) (x.address k.idx ch)) (elemSize x.fmt)
    (if x.fmt = 0x0A then .red .addx (BitVec.ofInt 64 (toFx64 x.e (amount c l k ch))) false
     else .red .addf (BitVec.ofNat 64 (fp32.pack .rne (amount c l k ch)).1) false) q
  ∃ t g', exec i s = .next t ∧
    { t with groups := s.groups, cores := s.cores, free := s.free, net := s.net, l1 := s.l1, nextId := s.nextId } = s ∧
    Elsewhere s t core slot ∧ groupAt t core slot = some g' ∧ GoesOn s c 4 g' ∧
        { g' with strands := g.strands, regionOpen := g.regionOpen } = g ∧
    g'.regionOpen = false ∧
    (∀ l ∈ c.lanes, ∀ cs, usedCorners c x a used l = some cs → ∀ k ∈ cs, ∀ ch < x.ch, Sent s t (part l k ch)) ∧
    SentOnly s t (fun q => ∃ l ∈ c.lanes, ∃ cs, usedCorners c x a used l = some cs ∧ ∃ k ∈ cs, ∃ ch < x.ch, part l k ch q)

/-- The integer indices of a lane (R290). -/
def indices (c : Ctx) (x : Lattice) (a l : Nat) : List Int := (List.range x.dims).map (fun k => (c.v (a + k) l).toInt)

/-- No lane's index leaves a dimension whose edge rule is TRAP, and its element may be accessed. -/
def IndicesGranted (c : Ctx) (x : Lattice) (a perms : Nat) : Prop :=
  ∀ l ∈ c.lanes, x.indexTraps (indices c x a l) = false ∧ ∀ idx, x.place (indices c x a l) = some idx → ∀ ch < x.ch,
    rangeFail c.g.dom.ranges perms (x.address idx ch) (elemSize x.fmt) = none

/-- `istx` completes: each lane whose indices lead somewhere stores its elements, converted, unless a higher lane stores the same one
(R88, R290). -/
def StoresElements (gap : Fin 4) (p : Fin 8) (d a : Fin 64) (sl : Fin 16) (n : Needs) (s : State) (core slot gang : Nat) (g : Group)
    (x : Lattice) : Prop :=
  let c := issueCtx n s core slot gang g
  let va := fun l ch => (x.place (indices c x a l)).map (fun idx => x.address idx ch)
  let part := fun l ch v q => FromLane s c l v (iaOf c (permL + permW) v) (elemSize x.fmt)
    (.store (storedElement c x (c.v (d + ch) l)) (256 ^ elemSize x.fmt - 1)) q
  ∃ t g', exec (.istx gap p d a sl) s = .next t ∧
    { t with groups := s.groups, cores := s.cores, free := s.free, net := s.net, l1 := s.l1, nextId := s.nextId } = s ∧
    Elsewhere s t core slot ∧ groupAt t core slot = some g' ∧ GoesOn s c 4 g' ∧ Untouched g g' ∧
    (∀ l ∈ c.lanes, ∀ ch < x.ch, ∀ v, va l ch = some v → (∀ j ∈ c.lanes, l < j → ∀ u, va j ch = some u →
        iaOf c (permL + permW) u ≠ iaOf c (permL + permW) v) → Sent s t (part l ch v)) ∧
    SentOnly s t (fun q => ∃ l ∈ c.lanes, ∃ ch < x.ch, ∃ v, va l ch = some v ∧ part l ch v q)

/-! ENGINE COMMANDS (R57, R81, R292, R295 to R299, R148 to R152, R161). -/

/-- One engine command: its needs, which depend on registers that its record names, its flag, its own conditions, and what it will do. -/
structure CommandRow where
  needs : Ctx → Needs
  flag  : Nat
  conds : Ctx → State → List Cond
  plan  : Ctx → State → Plan
  /-- What the command is if it reads global memory. -/
  op    : Option EngineOp := none

def commandNeed (gap p n : Nat) (vsrc more : List Nat) (closes : Bool) : Needs :=
  { gap := gap, guard := some p, vsrc := vsrc, zone := .block, ssrc := [2 * n, 2 * n + 1, 2 * n + 2, 2 * n + 3] ++ more, closes := closes }

def command (g p f n : Nat) (vsrc : List Nat) (closes : Bool) (conds : Ctx → State → List Cond) (plan : Ctx → State → Plan)
    (op : Option EngineOp := none) : Option CommandRow := some ⟨fun _ => commandNeed g p n vsrc [] closes, f, conds, plan, op⟩

/-- The engine commands (R293, R296 to R299, R148 to R152, R161). -/
def commandRow : Instr → Option CommandRow
  | .cpyG2s g p f n => command g p f n [] false (copyConds n permR) (planG2s n) (some (.g2s n))
  | .cpyS2g g p f n => command g p f n [] false (copyConds n permW) (planS2g n)
  | .cpyS2s g p f n => command g p f n [] false (s2sConds n) (planS2s n)
  | .cpyCmp g p f a n => command g p f n [a] false (cmpConds n) (planCmp a n)
  | .nbLd g p f n => command g p f n [] false (nbLdConds n) (planNbLd n)
  | .nbRun g p f a n => command g p f n [a] true (nbRunConds a n) (planNbRun a n)
  | .nbGet g p f n => command g p f n [] false (nbGetConds n false) (planNbGet n false)
  | .nbGetSum g p f n => command g p f n [] false (nbGetConds n true) (planNbGet n true)
  | .nbMode g p f n => command g p f n [] false (nbModeConds n) (planNbMode n)
  | .pkq g p f n => command g p f n [] false (pklConds .query n) (planPkl .query n) (some (.pkl .query n))
  | .pkqs g p f n => command g p f n [] false (pklConds .scores n) (planPkl .scores n) (some (.pkl .scores n))
  | .pkb g p f n => command g p f n [] true (pklConds .back n) (planPkl .back n) (some (.pkl .back n))
  | .pkbq g p f n => command g p f n [] false (pklConds .backQ n) (planPkl .backQ n) (some (.pkl .backQ n))
  | .coll g p f n => some ⟨fun c => commandNeed g p n [] (collRegs n c) true, f, collConds n, planColl n, some (.coll n)⟩
  | _ => none

/-- A command may enter (R57, R81): its flag can count it, and no granule it takes belongs to an engine. -/
structure MayEnter (s : State) (c : Ctx) (f : Nat) (x : Plan) (b : Block) : Prop where
  active : c.act ≠ 0
  count  : c.g.count f < 63
  free   : ∀ k ∈ x.granules, getAt false b.engine k = false

/-- A command that reads global memory, and whose reads are not all made as it issues (R97, R98, R111): an access before it holds one up, or
a place does not answer at once. -/
def ReadsLater (x : CommandRow) (c : Ctx) (s : State) : Prop :=
  x.op ≠ none ∧ ((x.plan c s).parks = true ∨ readsWait c s ((x.plan c s).reads ++ (x.plan c s).rows) = true)

/-- A `coll` with the device itself takes its place among the sends or the receives of its communicator (R299; log 74). -/
def TakesPlace (s t : State) (id : Nat) (key : Option (Nat × Nat × Nat)) : Prop :=
  match key with
  | none => t.comms = s.comms
  | some (op, comm, peer) => (∀ k, k ≠ comm → commAt t k = commAt s k) ∧ (commAt s comm = none → commAt t comm = none) ∧
    ∀ y, commAt s comm = some y → commAt t comm = some { y with
      sends := if peer = y.rank ∧ op = 3 then y.sends ++ [id] else y.sends
      recvs := if peer = y.rank ∧ op = 4 then y.recvs ++ [id] else y.recvs }

/-- The command enters: the flag counts it, its granules are the engine's, and it is outstanding with its work (R57, R81, R292): its reads
are made now, or leave as requests line by line and are its work until they are performed (R98, R111; log 13). What its
reads leave in banks, caches and in what its strands have seen follows R87, R97, R153 and R174; and error responses are logged (R383).
Nothing else changes. -/
def Enters (i : Instr) (x : CommandRow) (s : State) (core slot gang : Nat) (g : Group) (bid : Nat) (b : Block) : Prop :=
  let c := issueCtx (x.needs (issueCtx {} s core slot gang g)) s core slot gang g
  let y := x.plan c s
  ∃ t g' b' id, exec i s = .next t ∧ s.nextId ≤ id ∧
    { t with
      groups := s.groups, cores := s.cores, free := s.free, cmds := s.cmds, blocks := s.blocks, nextId := s.nextId, net := s.net,
      seen := s.seen, nbus := s.nbus, activations := s.activations, stackRegs := s.stackRegs, l2 := s.l2,
      replicas := s.replicas, logs := s.logs, comms := s.comms } = s ∧
    Elsewhere s t core slot ∧ (y.logs = [] ∨ ReadsLater x c s → t.logs = s.logs) ∧
    (∀ k < s.nextId, ∀ q, lookupAt s.net k = some q → lookupAt t.net k = some q) ∧
    SentOnly s t (fun q => q.kind = .writeBack ∨ q.kind = .pull false ∧ q.src.uid = id ∧ q.src.core = core ∧ q.dom = g.dom.id ∧
      (ReadsLater x c s ∨ ∃ vas k w, y.work = .looking vas k w)) ∧
    (ReadsLater x c s → (∀ e ∈ s.net, e.1 < s.nextId) →
        (∀ p ∈ iaPieces g.dom y.reads, (pulled t (commandAsker core slot id) ((partOfCore s core).getD 0) p.1 p.2).isSome) ∧
      ∀ p ∈ iaPieces g.dom y.rows, (pulled t (commandAsker core 63 id) ((partOfCore s core).getD 0) p.1 p.2).isSome) ∧
    TakesPlace s t id (collKey x.op c) ∧
    groupAt t core slot = some g' ∧ GoesOn s c 4 g' ∧
    { g' with strands := g.strands, counts := g.counts, regionOpen := g.regionOpen } = g ∧
    g'.count x.flag = g.count x.flag + 1 ∧ (∀ k, k ≠ x.flag → g'.count k = g.count k) ∧
    blockAt t bid = some b' ∧ { b' with engine := b.engine } = b ∧
    (∀ k, getAt false b'.engine k = (getAt false b.engine k || y.granules.contains k)) ∧
    (∃ w err, lookupAt t.cmds id = some ⟨core, slot, g.uid, bid, launchOf s g, c.is, x.flag, y.granules, g.dom, err, s.dt, 0,
        w, none, none, [], collKey x.op c⟩ ∧
      (¬ ReadsLater x c s → w = y.work ∧ err = y.err) ∧
      (ReadsLater x c s → err = false ∧ ∃ o, x.op = some o ∧
        w = .reading o { c with asks := some id } (y.may.map (fun r => (r.va, r.len))))) ∧
    (∀ k, k ≠ id → lookupAt t.cmds k = lookupAt s.cmds k) ∧ ∀ k, k ≠ bid → blockAt t k = blockAt s k

/-! The sequencer's tiles, accumulators, drains and barriers (R131 to R140, R309 to R317). -/

/-- The sources of a tile fetch: the window or none, the ranges it reads, the rows it fills, their bytes and their scale bytes. -/
structure TileSource where
  win    : Option Nat
  pieces : List Piece
  rows   : List Nat
  bytes  : Nat → EngineRead
  scale  : Option (Nat → EngineRead)
  /-- The fetch pins the lines it reads. -/
  takes  : Bool

/-- A tile fetch passes (R78, R80, R134): no range fails its check, the lines that the context pins stay within its share (log 51), and
every read is answered with data (R98; log 64). -/
structure Fetches (v : SeqView) (s : State) (z : TileSource) : Prop where
  ranges  : ∀ p ∈ z.pieces, v.pieceBad s z.win permR p = false
  pins    : z.takes = true → (distinct (v.x.pins.map Prod.fst ++ (if z.win.isSome then [] else v.lines z.pieces))).length ≤ 64
  rows    : ∀ i ∈ z.rows, i < 64 ∧ ∃ n, z.bytes i = .value n
  scales  : ∀ f, z.scale = some f → ∀ i ∈ z.rows, ∃ n, f i = .value n

/-- The context after a fetch into tile t: its rows, their scales, and the pinned lines. -/
structure Fetched (v : SeqView) (x' : SeqCtx) (t : Nat) (z : TileSource) : Prop where
  rest   : { x' with tiles := v.x.tiles, scales := v.x.scales, tilePoison := v.x.tilePoison, pins := v.x.pins, pc := v.x.pc, bptr := v.x.bptr } = v.x
  pc     : x'.pc = following v
  rows   : Filled v.x x' t z.rows z.bytes
  clean  : ∀ i ∈ z.rows, getAt false x'.tilePoison (t * 64 + i) = false
  scales : ∀ f, z.scale = some f → ∀ i ∈ z.rows, x'.scale t i = (f i).get % 2 ^ 32

/-- The address in a stream register: a pair for global memory, one register for a window (R310). -/
def baseOf (v : SeqView) (a : Nat) (win : Bool) : Nat := if win then (v.m a).toNat else pairOf v a

/-- The base of the scales, where SMODE asks for them: the next pair or register, which the encoding must align (R310). -/
def scaleBaseOf (v : SeqView) (a : Nat) (win : Bool) : Option (Nat × Bool) :=
  if tcfgScaled v.x.tcfg then
    some (if win then ((v.m (a + 1)).toNat, a % 2 == 0) else (pairOf v (a + 2), a % 4 == 0))
  else none

/-- The source of `tld`: rows of 64 bytes at the stride, or FP6 planes of 32 and 16 bytes (R66, R310). -/
def tldSource (v : SeqView) (s : State) (a : Nat) (x : Bool) (w sr r : Nat) (p : Bool) : TileSource :=
  let win := if x then some w else none
  let addr := baseOf v a x
  let str := (v.m sr).toNat
  let high := addr + (v.m (sr + 1)).toNat
  { win := win
    pieces := (List.range (r + 1)).flatMap (fun i =>
      (if p then [⟨addr + i * str, 32⟩, ⟨high + i * (str / 2), 16⟩] else [⟨addr + i * str, 64⟩]) ++
      (match scaleBaseOf v a x with
       | some e => [⟨e.1 + 4 * i, 4⟩]
       | none => []))
    rows := List.range (r + 1)
    bytes := fun i => if p then EngineRead.and2 planes (v.read s win (addr + i * str) 32) (v.read s win (high + i * (str / 2)) 16)
      else v.read s win (addr + i * str) 64
    scale := (scaleBaseOf v a x).map (fun e i => v.read s win (e.1 + 4 * i) 4)
    takes := true }

def TldAligned (v : SeqView) (a : Nat) (x : Bool) (sr : Nat) (p : Bool) : Prop :=
  (if p then baseOf v a x % 32 = 0 ∧ (v.m sr).toNat % 32 = 0 ∧ (baseOf v a x + (v.m (sr + 1)).toNat) % 16 = 0
   else baseOf v a x % 64 = 0 ∧ (v.m sr).toNat % 64 = 0) ∧ ∀ e, scaleBaseOf v a x = some e → e.2 = true

/-- Bits of an element of a transposed source (R307). -/
def sizeBits (z : Nat) : Nat :=
  match z with
  | 0 => 8
  | 1 => 16
  | _ => 4

/-- The source of `tldt` (R311): 512/Z source rows, of which tile row r collects the elements r. -/
def tldtSource (v : SeqView) (s : State) (a : Nat) (x : Bool) (w sr z : Nat) : TileSource :=
  let win := if x then some w else none
  let addr := baseOf v a x
  let str := (v.m sr).toNat
  { win := win
    pieces := (List.range (512 / sizeBits z)).map (fun k => ⟨addr + k * str, 8 * sizeBits z⟩) ++
      (match scaleBaseOf v a x with
       | some e => (List.range 64).map (fun i => ⟨e.1 + 4 * i, 4⟩)
       | none => [])
    rows := List.range 64
    bytes := fun i => transposedRow z i (fun k r => v.element s win z (addr + k * str) r)
    scale := (scaleBaseOf v a x).map (fun e i => v.read s win (e.1 + 4 * i) 4)
    takes := true }

def TldtAligned (v : SeqView) (a : Nat) (x : Bool) (sr z : Nat) : Prop :=
  baseOf v a x % (8 * sizeBits z) = 0 ∧ (v.m sr).toNat % (8 * sizeBits z) = 0 ∧ ∀ e, scaleBaseOf v a x = some e → e.2 = true

/-- The fields of a configuration word (Table 10.2). -/
structure Configured (w : Word) (t : Nat) (n c : Bool) (sm a b : Nat) : Prop where
  mt     : tcfgMt w = 16 * 2 ^ t
  nt     : tcfgNt w = if n then 128 else 64
  int    : tcfgInt w = c
  scaled : tcfgScaled w = decide (sm % 4 = 1)
  fa     : tcfgA w = a
  fb     : tcfgB w = b

/-- One K-step over a logical accumulator (R135): each of its elements takes the sum of its old value and the products of the two rows,
every other element stands. -/
def Stepping (v : SeqView) (x' : SeqCtx) (n : Nat) (rowA rowB scA scB : Nat → Nat) : Prop :=
  (∀ i < tcfgMt v.x.tcfg, ∀ j < tcfgNt v.x.tcfg, getAt 0 x'.acc (accIndex v.x.tcfg n i j) =
    stepElem v.x.tcfg (getAt 0 v.x.acc (accIndex v.x.tcfg n i j)) (rowA i) (rowB j) (scA i) (scB j)) ∧
  ∀ k, ¬ InAcc v.x.tcfg n k → getAt 0 x'.acc k = getAt 0 v.x.acc k

/-- The operands of `mma` are free of poison, and B of 128 columns begins at an even tile (R132, R401). -/
structure Operands (v : SeqView) (n a b : Nat) : Prop where
  unit : UnitOk v n
  even : tcfgNt v.x.tcfg = 128 → b % 2 = 0
  rowA : ∀ i < tcfgMt v.x.tcfg, getAt false v.x.tilePoison (a * 64 + i) = false
  rowB : ∀ j < tcfgNt v.x.tcfg, getAt false v.x.tilePoison ((b + j / 64) * 64 + j % 64) = false
  acc  : ∀ k, InAcc v.x.tcfg n k → getAt false v.x.accPoison k = false

/-- The configuration that `mmam` accepts (R313): 64 columns, no scales, no FP6 operand; and its operands are aligned. -/
structure PanelOk (v : SeqView) (n a b : Nat) : Prop where
  unit  : UnitOk v n
  shape : tcfgNt v.x.tcfg = 64 ∧ tcfgScaled v.x.tcfg = false
  fp6   : tcfgA v.x.tcfg ∉ [0x0E, 0x0F] ∧ tcfgB v.x.tcfg ∉ [0x0E, 0x0F]
  align : pairOf v a % 128 = 0 ∧ pairOf v b % 128 = 0

/-- The K-step that an `mmam` of so many steps makes now: the first, or the one that its remaining count names. -/
def panelStep (v : SeqView) (total : Nat) : Nat := if v.x.mmamLeft = 0 then 0 else total - v.x.mmamLeft

/-- The panels of `mmam` may be read whole, which is checked at the first step; the lines of step k fit the context's share, and every row
of it answers with data; at the first step the accumulator holds no poison (R401). -/
structure PanelReads (v : SeqView) (s : State) (n a b total k : Nat) (rowA rowB : Nat → Nat) : Prop where
  grantA  : v.x.mmamLeft = 0 → rangeFail v.dom.ranges permR (pairOf v a) (total * tcfgMt v.x.tcfg * 64) = none
  grantB  : v.x.mmamLeft = 0 → rangeFail v.dom.ranges permR (pairOf v b) (total * 4096) = none
  pins    : (distinct (v.x.pins.map Prod.fst ++ v.lines [⟨pairOf v a + k * tcfgMt v.x.tcfg * 64, tcfgMt v.x.tcfg * 64⟩,
    ⟨pairOf v b + k * 4096, 4096⟩])).length ≤ 64
  clean   : v.x.mmamLeft = 0 → ∀ e, InAcc v.x.tcfg n e → getAt false v.x.accPoison e = false
  rowsA   : ∀ i < tcfgMt v.x.tcfg, v.read s none (pairOf v a + k * tcfgMt v.x.tcfg * 64 + i * 64) 64 = .value (rowA i)
  rowsB   : ∀ j < 64, v.read s none (pairOf v b + k * 4096 + j * 64) 64 = .value (rowB j)

/-- Bytes of a tile entry of the bobbin stack (R140). -/
def entryBytes (v : SeqView) : Nat := if tcfgScaled v.x.tcfg then 4352 else 4096

/-- The bobbin stack takes a push, or gives a pop, of so many bytes (R140, R317). -/
def PushOk (v : SeqView) (size : Nat) : Prop :=
  v.x.bcell ≠ 0 ∧ v.x.bptr + size ≤ v.x.blimit ∧ v.x.bptr % 128 = 0 ∧ rangeFail v.dom.ranges permW v.x.bptr size = none
def PopOk (v : SeqView) (size : Nat) : Prop :=
  v.x.bcell ≠ 0 ∧ v.x.bbase + size ≤ v.x.bptr ∧ v.x.bptr % 128 = 0 ∧ rangeFail v.dom.ranges permR (v.x.bptr - size) size = none

/-- A store that the context sends (R101): from its block, at a VA of its launch's domain, of so many bytes and these bits. -/
def FromSeq (s : State) (v : SeqView) (va size val mask : Nat) (q : Req) : Prop :=
  q.src = .seq v.core v.ctx v.x.block ∧ q.dom = v.dom.id ∧ q.tclass = v.dom.tclass ∧ q.va = va ∧
      q.ia = (rangeIa v.dom.ranges permW va).getD 0 ∧ q.size = size ∧
    q.kind = .store val mask ∧ q.sent = s.dt ∧ q.state = .inFlight

/-- The context executes an instruction that sends stores, after reads of global memory that leave `u`: the context is as `P` says, and the
requests that leave are as `Q` says. -/
def SeqStores (i : Instr) (s u : State) (core ctx : Nat) (P : SeqCtx → Prop) (Q : State → Prop) : Prop :=
  ∃ t x', exec i s = .next t ∧
    { t with seqs := u.seqs, cores := u.cores, net := u.net, l1 := u.l1, nextId := u.nextId } = u ∧
    (∀ k, k ≠ core * 4 + ctx → lookupAt t.seqs k = lookupAt s.seqs k) ∧ lookupAt t.seqs (core * 4 + ctx) = some x' ∧ P x' ∧ Q t

/-- The source of `bpop` and `bpop.t`: the entry below BPTR. -/
def popSource (v : SeqView) (s : State) (rowOf : Nat → Nat → EngineRead) : TileSource :=
  let base := v.x.bptr - entryBytes v
  { win := none, pieces := [⟨base, entryBytes v⟩], rows := List.range 64, bytes := rowOf base
    scale := if tcfgScaled v.x.tcfg then some (fun i => v.read s none (base + 4096 + 4 * i) 4) else none
    takes := false }

def popRow (v : SeqView) (s : State) : Instr → Option (Nat × TileSource)
  | .bpop t => some (t.val, popSource v s (fun base i => v.read s none (base + 64 * i) 64))
  | .bpopT t z => some (t.val, popSource v s (fun base i =>
      transposedRow z i (fun k r => v.element s none z (base + k * 8 * sizeBits z) r)))
  | _ => none

/-- A record of 64 bytes at the pair's address that has been read (R314). -/
structure RecordRead (v : SeqView) (s : State) (n r : Nat) (bs : List Byte) : Prop where
  unit    : UnitOk v n
  align   : pairOf v r % 64 = 0
  grant   : rangeFail v.dom.ranges permR (pairOf v r) 64 = none
  bytes   : ∃ w, v.read s none (pairOf v r) 64 = .value w ∧ bs = toBytes 64 w

/-- A drain may be performed (R136, R401): its record and ranges pass, the accumulator holds no poison, its table is not left, and every
value it needs has been read. -/
structure Drains (v : SeqView) (s : State) (n : Nat) (bs : List Byte) (d : DrainRec) : Prop where
  named  : d = DrainRec.ofBytes bs
  sound  : drainBad v s bs = false
  acc    : ∀ k, InAcc v.x.tcfg n k → getAt false v.x.accPoison k = false
  table  : tableBad v s d n = false
  values : ∀ i < tcfgMt v.x.tcfg, ∀ j < tcfgNt v.x.tcfg, (∃ p, preElem v s d n i j = .value p) ∧ ∃ o, outElem v s d n i j = .value o

/-- BPTR after a drain: above the entry it pushed, below the one it popped (R140). -/
def ptrAfter (v : SeqView) (d : DrainRec) : Nat :=
  if d.push then v.x.bptr + drainEntry v.x.tcfg d else if d.pops then v.x.bptr - drainEntry v.x.tcfg d else v.x.bptr

/-- The errors that `mbar.a` and `mhalt` report are none (R401). -/
def NoErrors (v : SeqView) : Prop := v.x.readErr = false ∧ v.x.writeErr = false

/-- The phase that an `mbar.w` waits for: that of a wait begun, else that of the arrival it has not consumed (R128). -/
def awaited (v : SeqView) (n : Nat) : Option Nat :=
  match v.x.waiting with
  | some (_, p, _) => some p
  | none => getAt none v.x.barLast n

/-! The near-bank stream's rows, masks and conditions (R320 to R326). -/

/-- The condition of a lane (R319). -/
def laneTest (op : NbuFcmp) (u w : Word) : Bool :=
  match op with
  | .eq => ordered (fun r => decide (r = 0)) u w
  | .ne => nan u || nan w || decide ((f32 u).cmp (f32 w) ≠ 0)
  | .lt => ordered (fun r => decide (r < 0)) u w
  | .le => ordered (fun r => decide (r ≤ 0)) u w
  | .gt => ordered (fun r => decide (r > 0)) u w
  | .ge => ordered (fun r => decide (r ≥ 0)) u w
  | .un => nan u || nan w

/-- The column of an access: its field, or that plus lane 0 of a register modulo 32 (R321). -/
def column (x : Nbu) (a c : Nat) (ix : Bool) : Nat := if ix then (c + (x.reg a 0).toNat) % 32 else c % 32

/-- The place in memory of a column of the bank in the open row. -/
def columnKey (bank pa col : Nat) : Nat := physKey (bankStack bank) (pa + bankOffset bank + 32 * col)

/-- The word that a lane of a column reads: what the visit has written, else memory. -/
def columnWord (s : State) (bank pa col j : Nat) : Word :=
  match lookupAt (nbuAt s bank).written (col * 8 + j) with
  | some w => w
  | none => BitVec.ofNat 32 (readLE s.mem (columnKey bank pa col + 4 * j) 4)

/-- A column access takes the path for 2 ticks and begins the visit if none is open (R144, R321). -/
def PathTaken (s : State) (bank : Nat) (x' : Nbu) : Prop :=
  x'.pathFree = s.dt + 2 ∧ x'.visit = some ((nbuAt s bank).visit.getD s.dt) ∧ x'.boundary = none

/-- The row of a unit closes (R144, R157, R321): each word that the visit wrote stands in memory, and no other byte has changed. -/
structure RowCloses (s t : State) (bank pa : Nat) : Prop where
  written : ∀ col < 32, ∀ j < 8, ∀ w, lookupAt (nbuAt s bank).written (col * 8 + j) = some w →
    ∀ k < 4, readByte t.mem (columnKey bank pa col + 4 * j + k) = BitVec.ofNat 8 (w.toNat / 256 ^ k)
  kept    : ∀ a, (∀ col < 32, ∀ j < 8, ∀ w, lookupAt (nbuAt s bank).written (col * 8 + j) = some w →
    ¬ (columnKey bank pa col + 4 * j ≤ a ∧ a < columnKey bank pa col + 4 * j + 4)) → readByte t.mem a = readByte s.mem a
  unit    : (nbuAt t bank).openRow = none ∧ (nbuAt t bank).visit = none ∧ (nbuAt t bank).written = []

/-- The run of the bank is over: the unit carries out no command, and the command goes on with its other banks (R149, R324). -/
def RunEnds (t : State) (bank : Nat) (r : RunView) : Prop :=
  (nbuAt t bank).cmd = none ∧ (nbuAt t bank).suspended = false ∧
  ∀ w run n e rc ps b, r.cmd.work = .nbRun w run n e rc ps b →
    (lookupAt t.cmds r.id).map Cmd.work = some (.nbRun w (run.filter (· != bank)) n e rc ps b)

end Sys2Proof.Safety
end

