-- ==== Sys2Proof/Safety/Events.lean ====
section
/-! DEFINITION. What the machine's events do, stated event by event: answers, requests at home, waits that end, commands that complete,
launches, the host, the mapping service, pre-emption, and the upkeep of the part. -/

namespace Sys2Proof.Safety

open Sys2Proof.Machine

/-! EVENTS. Each constructor below is a rule about one event: in the state that it names, and with an event's turn, the event happens, and
the next state is as its last argument says. -/

/-- A group that runs in a slot, under its number. -/
structure Resident (s : State) (uid core slot : Nat) (g : Group) : Prop where
  found : findGroup s uid = some (.resident core slot)
  here  : groupAt s core slot = some g
  runs  : g.stop = .running

/-- A byte under the bits that a write enables (R91). -/
def maskedByte (old : Byte) (val mask i : Nat) : Byte :=
  BitVec.ofNat 8 ((old.toNat &&& (255 - mask / 256 ^ i % 256)) ||| (val / 256 ^ i % 256 &&& (mask / 256 ^ i % 256)))

/-- Memory after a write of the enabled bits of some bytes: those bytes change, and no other. -/
def MemoryWritten (s t : State) (key size val mask : Nat) : Prop :=
  (∀ i < size, readByte t.mem (key + i) = maskedByte (readByte s.mem (key + i)) val mask i) ∧
  ∀ a, (a < key ∨ key + size ≤ a) → readByte t.mem a = readByte s.mem a

/-- The completion time of a write performed now at a synchronised home (R94): beyond every lease on the line, plus the bound on skew; at an
NA line the time of arrival. -/
def completesAt (s : State) (part ia cls : Nat) : Nat :=
  if isNa s cls then dtSlice s (homeSlice (partAt s part) ia) + 4
  else max (dtSlice s (homeSlice (partAt s part) ia)) (getAt 0 s.leases (lineKey part ia)) + 4

/-- A request comes to its home, no link end or order holds it there, and its requester still waits (R92, R93, R113, R171, R389). -/
structure Comes (s : State) (n : Nat) (r : Req) : Prop where
  here   : lookupAt s.net n = some r
  known  : n < s.nextId
  coming : r.coming = true
  bytes  : r.size ≠ 0
  wanted : r.src.isOrphan = false
  order  : orderBlocks s n r = false
  link   : linkClosed s (r.homeDie s) (r.coreDie s) = false
  beyond : r.goesOn s = true → linkClosed s (r.stackDie s) (r.homeDie s) = false
  behind : reducing s r.part r.ia = false
  gen    : r.src.core < Config.coreCount → r.gen = (partAt s r.part).gen

/-- It finds its page, at which no earlier access is parked; no near-bank run of its core has still to read there what it writes or what its
strand is to read later, and no engine command has still to read its bytes (R96, R97, R111, R173, R178). -/
structure Finds (s : State) (n : Nat) (r : Req) (stack pa cls owner size : Nat) : Prop extends Comes s n r where
  place : homePlace s r.part r.dom r.ia = .at stack pa cls owner size
  parks : parkBlocks s r = false
  runs  : runHolds s n r.src.core r.part r.ia (bankOf stack pa) r.kind.isWrite (r.readers s) = false
  reads : readHolds s n r = false
  core  : r.src.baseLogic = false

/-- A request goes on to the stack: its line is not held at home, or it is a write that its class writes through (R84, R87). -/
def Misses (s : State) (r : Req) (cls : Nat) : Prop :=
  (if r.kind.isWrite then writeAtStack s r.part r.dom r.ia cls else atStack s r.part r.dom r.ia cls) = true

/-- It may be performed at once: where home serves it, nothing of its core to the line is in a bank's queue; else the links to the stack are
open and the bank holds nobody up (R84, R87, R93, R153). -/
structure AtHome (s : State) (n : Nat) (r : Req) (stack pa cls owner size : Nat) : Prop extends Finds s n r stack pa cls owner size where
  hit  : ¬ Misses s r cls → ownQueued s n r = false
  miss : Misses s r cls → linkClosed s (dieOfStack stack) (r.homeDie s) = false ∧
    linkClosed s (r.homeDie s) (dieOfStack stack) = false ∧ governed s (bankOf stack pa) = false ∧ queued s (bankOf stack pa) = false
  sync : isUnsync s (.slice (homeSlice (partAt s r.part) r.ia)) = false

/-- An access of an engine, of firmware, of a fetch or of the sequencer comes to its home, which answers at once, and so does the way back
(R98, R111; log 13). -/
structure AgentsHome (s : State) (n : Nat) (r : Req)
    (stack pa cls owner size : Nat) : Prop extends AtHome s n r stack pa cls owner size where
  back : linkClosed s (r.coreDie s) (r.homeDie s) = false

/-- A request has been answered, under its number; the answer is to cross the way of a request, or has nothing before it. -/
def Answered (t : State) (n : Nat) (r : Req) (k : ReplyKind) (time err : Option Nat) (way : Option Req) : Prop :=
  lookupAt t.net n = none ∧ lookupAt t.replies n = some ⟨r.src, r.launch, k, time, err, way⟩

/-- A request has been answered by an error response with its VA (R384); that of a write or an atomic is its acknowledgement too, with no
time to wait for. -/
def Failed (t : State) (n : Nat) (r : Req) (way : Option Req) : Prop :=
  Answered t n r r.kind.failed (if r.kind.isWrite then some 0 else none) (some r.va) way

/-- The die's log has the entry, or counts one more overflow (R383). -/
def Logged (s t : State) (stack : Nat) (e : LogEntry) : Prop :=
  let l := getAt ErrorLog.empty s.logs (dieOfStack stack)
  let l' := getAt ErrorLog.empty t.logs (dieOfStack stack)
  if l.entries.length < 64 then l'.entries = l.entries ++ [e] ∧ l'.ovf = l.ovf else l'.entries = l.entries ∧ l'.ovf = min 65535 (l.ovf + 1)

/-- An answer arrives: no closed link end is in its way, and it is not overdue (R171, R395). -/
def Arriving (s : State) (way : Option Req) : Prop :=
  ∀ q, way = some q → q.overdue s = false ∧ linkClosed s (q.coreDie s) (q.homeDie s) = false

/-- Answers land (R56, R94, R384, R385). -/
inductive Landing : Instr → State → (State → Prop) → Prop
  /-- The words of an answer land in their lanes, which no producer owes any more; a register is full once none is owed. -/
  | lanes {s n src launch ws way core slot g} (here : lookupAt s.replies n = some ⟨src, launch, .lanes ws 0, none, none, way⟩)
      (comes : Arriving s way) (group : Resident s src.uid core slot g) (distinct : (ws.map (fun w => (w.1, w.2.1))).Nodup) :
      Landing (.loadReply n) s (fun t => lookupAt t.replies n = none ∧ ∃ g', groupAt t core slot = some g' ∧
        (∀ w ∈ ws, w.2.1 < 32 → (g.vreg w.1).dead = false → laneOf (g'.vreg w.1).lanes w.2.1 = w.2.2 ∧
          (g'.vreg w.1).owed.getLsbD w.2.1 = false ∧ (g'.vreg w.1).poison.getLsbD w.2.1 = false) ∧
        (∀ r, r ∉ ws.map Prod.fst → g'.vreg r = g.vreg r) ∧
        (∀ r, r ∈ ws.map Prod.fst → (g.vreg r).dead = false → ((g'.vreg r).full = true ↔ (g'.vreg r).owed = 0)) ∧
        ∀ a, readByte t.mem a = readByte s.mem a)
  /-- A word lands in a uniform register. -/
  | uniform {s n src launch r w way core slot g} (here : lookupAt s.replies n = some ⟨src, launch, .uniform r w, none, none, way⟩)
      (comes : Arriving s way) (group : Resident s src.uid core slot g) :
      Landing (.loadReply n) s (fun t => lookupAt t.replies n = none ∧ ∃ g', groupAt t core slot = some g' ∧
        (g'.sreg r).val = w ∧ (g'.sreg r).full = true ∧ (g'.sreg r).poison = false ∧ ∀ k, k ≠ r → g'.sreg k = g.sreg k)
  /-- An acknowledgement raises RH to its completion time (R94). -/
  | ack {s n src launch time way core slot g} (here : lookupAt s.replies n = some ⟨src, launch, .ack, some time, none, way⟩)
      (comes : Arriving s way) (group : Resident s src.uid core slot g) :
      Landing (.writeAck n) s (fun t => lookupAt t.replies n = none ∧ ∃ g', groupAt t core slot = some g' ∧ g'.rh = max g.rh time ∧
        g'.v = g.v ∧ g'.s = g.s ∧ ∀ a, readByte t.mem a = readByte s.mem a)
  /-- An error response poisons the lanes it answers, which read zero (R384). -/
  | poisons {s n src launch ws va way core slot g} (here : lookupAt s.replies n = some ⟨src, launch, .lanes ws 0, none, some va, way⟩)
      (comes : Arriving s way) (group : Resident s src.uid core slot g) (distinct : (ws.map (fun w => (w.1, w.2.1))).Nodup) :
      Landing (.errorResponse n) s (fun t => lookupAt t.replies n = none ∧ ∃ g', groupAt t core slot = some g' ∧
        ∀ w ∈ ws, w.2.1 < 32 → (g.vreg w.1).dead = false →
          laneOf (g'.vreg w.1).lanes w.2.1 = 0 ∧ (g'.vreg w.1).poison.getLsbD w.2.1 = true)
  /-- The error of a store is pending with the VA of the first that failed (R385). -/
  | storeError {s n core' slot' uid strand launch va way core slot g}
      (here : lookupAt s.replies n = some ⟨.group core' slot' uid strand, launch, .ack, some 0, some va, way⟩)
      (comes : Arriving s way) (group : Resident s uid core slot g) :
      Landing (.errorResponse n) s (fun t => lookupAt t.replies n = none ∧ ∃ g', groupAt t core slot = some g' ∧
        g'.storeErr = some (g.storeErr.getD va) ∧ g'.rh = g.rh)
  /-- That of an atomic is pending too, and its lane is poisoned (R384, R385). -/
  | atomicError {s n core' slot' uid strand launch r l va way core slot g}
      (here : lookupAt s.replies n = some ⟨.group core' slot' uid strand, launch, .lanes [(r, l, 0)] 0, some 0, some va, way⟩)
      (comes : Arriving s way) (group : Resident s uid core slot g) (lane : l < 32) (alive : (g.vreg r).dead = false) :
      Landing (.errorResponse n) s (fun t => lookupAt t.replies n = none ∧ ∃ g', groupAt t core slot = some g' ∧
        g'.storeErr = some (g.storeErr.getD va) ∧ (g'.vreg r).poison.getLsbD l = true ∧ laneOf (g'.vreg r).lanes l = 0)

/-- Requests reach memory, or do not (R88 to R95, R112, R113, R153, R158, R389, R395). -/
inductive Reaching : Instr → State → (State → Prop) → Prop
  /-- A store changes exactly the bits that it enables, and is acknowledged with its completion time (R91, R94, R102). -/
  | store {s n rep r stack pa cls owner size v m} (home : AtHome s n r stack pa cls owner size) (kind : r.kind = .store v m) :
      Reaching (.homeRequest n rep) s (fun t => MemoryWritten s t (physKey stack pa) r.size v m ∧
        Answered t n r .ack (some (completesAt s r.part r.ia cls)) none (some r))
  /-- A load that takes no replica reads what home holds (R95). -/
  | load {s n r stack pa cls owner size regs lane ext ro} (home : AtHome s n r stack pa cls owner size)
      (kind : r.kind = .load regs lane ext ro) (sound : poisonedAt s (physKey stack pa) r.size = false) :
      Reaching (.homeRequest n false) s (fun t => t.mem = s.mem ∧
        Answered t n r (.lanes (loadWrites regs lane ext (readLE s.mem (physKey stack pa) r.size)) 0) none none (some r))
  /-- An element of a lattice read. -/
  | corner {s n r stack pa cls owner size id i} (home : AtHome s n r stack pa cls owner size) (kind : r.kind = .corner id i)
      (sound : poisonedAt s (physKey stack pa) r.size = false) :
      Reaching (.homeRequest n false) s (fun t => t.mem = s.mem ∧
        Answered t n r (.corner id i (readLE s.mem (physKey stack pa) r.size)) none none (some r))
  /-- An atomic reads the old word and writes the new one in one step, and returns the old one (R268). -/
  | atomic {s n rep r stack pa cls owner size op x y reg lane} (home : AtHome s n r stack pa cls owner size)
      (kind : r.kind = .atom op x y reg lane) (word : r.size = 4) (sound : poisonedAt s (physKey stack pa) 4 = false) :
      Reaching (.homeRequest n rep) s (fun t =>
        let old := BitVec.ofNat 32 (readLE s.mem (physKey stack pa) 4)
        MemoryWritten s t (physKey stack pa) 4 (op.result old x y).toNat (256 ^ 4 - 1) ∧
        Answered t n r (.lanes [(reg, lane, old)] 0) (some (completesAt s r.part r.ia cls)) none (some r))
  /-- A reduction at home. -/
  | reduction {s n rep r stack pa cls owner size op x} (home : AtHome s n r stack pa cls owner size) (kind : r.kind = .red op x false)
      (sound : poisonedAt s (physKey stack pa) r.size = false) :
      Reaching (.homeRequest n rep) s (fun t =>
        MemoryWritten s t (physKey stack pa) r.size (op.result (readLE s.mem (physKey stack pa) r.size) x) (256 ^ r.size - 1) ∧
        Answered t n r .ack (some (completesAt s r.part r.ia cls)) none (some r))
  /-- A read of a line of a replicated class, or one marked read-only, is served by the replica in its sector while that lives (R86, R97,
R175). -/
  | replica {s n r x} (here : lookupAt s.net n = some r) (coming : r.coming = true) (wanted : r.src.isOrphan = false)
      (served : replicaServes s n r = some x) (gen : r.src.core < Config.coreCount → r.gen = (partAt s r.part).gen) :
      Reaching (.homeRequest n true) s (fun t => t.mem = s.mem ∧ t.l1 = s.l1 ∧
        dtSlice s (replicaSlice r.src.core r.ia) < x.expiry ∧ (r.dom = x.owner ∨ r.dom = 0) ∧
        Answered t n r (r.kind.answer (x.bytes r.ia r.size)) none none (some r))
  /-- A read of an engine, of a fetch or of the sequencer: its bytes are at hand from then on (R98, R111). -/
  | pulled {s n r stack pa cls owner size code} (home : AgentsHome s n r stack pa cls owner size) (kind : r.kind = .pull code)
      (sound : poisonedAt s (physKey stack pa) r.size = false) :
      Reaching (.homeRequest n false) s (fun t => t.mem = s.mem ∧
        lookupAt t.net n = some { r with state := .ready (readLE s.mem (physKey stack pa) r.size) })
  /-- A write of an engine or of firmware: its completion time is at hand from then on (R94, R111). -/
  | put {s n rep r stack pa cls owner size v m} (home : AgentsHome s n r stack pa cls owner size) (kind : r.kind = .put v m) :
      Reaching (.homeRequest n rep) s (fun t => MemoryWritten s t (physKey stack pa) r.size v m ∧
        lookupAt t.net n = some { r with state := .ready (completesAt s r.part r.ia cls) })
  /-- A request that goes on to a bank which a run holds, or at which others queue, joins the bank's queue (R112, R153). -/
  | queued {s n rep r stack pa cls owner size} (home : Finds s n r stack pa cls owner size)
      (plain : r.kind.nearMemory = false) (read : r.kind.isWrite = false → rep = false) (miss : Misses s r cls)
      (open' : linkClosed s (dieOfStack stack) (r.homeDie s) = false)
      (held : governed s (bankOf stack pa) = true ∨ Machine.queued s (bankOf stack pa) = true) :
      Reaching (.homeRequest n rep) s (fun t => t.mem = s.mem ∧
        lookupAt t.net n = some { r with state := .atBank (bankOf stack pa) s.nextId (pa / 128 * 128 + r.ia % 128) cls owner })
  /-- In its turn there, at a row boundary, a store is performed at the place that it found (R153). -/
  | banked {s n rep r bank order pa cls owner v m} (here : lookupAt s.net n = some r) (at' : r.state = .atBank bank order pa cls owner)
      (kind : r.kind = .store v m) (wanted : r.src.isOrphan = false) (turn : bankReady s bank (serveKey r) order = true)
      (back : linkClosed s (r.homeDie s) (dieOfStack (bankStack bank)) = false) (known : n < s.nextId)
      (sync : isUnsync s (.slice (homeSlice (partAt s r.part) r.ia)) = false) :
      Reaching (.homeRequest n rep) s (fun t => MemoryWritten s t (physKey (bankStack bank) pa) r.size v m ∧
        Answered t n r .ack (some (completesAt s r.part r.ia cls)) none (some r))
  /-- A near-memory reduction joins the queue of its home stack (R113, R159). -/
  | forwarded {s n rep r stack pa cls owner size op x} (home : Finds s n r stack pa cls owner size) (kind : r.kind = .red op x true)
      (free : ¬ Misses s r cls → ownQueued s n r = false) (open' : linkClosed s (dieOfStack stack) (r.homeDie s) = false) :
      Reaching (.homeRequest n rep) s (fun t => t.mem = s.mem ∧ ∃ order, s.nextId ≤ order ∧
        lookupAt t.net n = some { r with state := .atStack (bankOf stack pa) order pa } ∧
        lookupAt t.l2 (sliceKey (homeSlice (partAt s r.part) r.ia) r.ia) = none)
  /-- An access to a page that is not present parks there (R178). -/
  | parks {s n r} (comes : Comes s n r) (goes : r.state = .inFlight) (page : homePlace s r.part r.dom r.ia = .park) :
      Reaching (.homeRequest n false) s (fun t => t.mem = s.mem ∧ lookupAt t.net n = some { r with state := .parked s.dt s.nextId })
  /-- An access that translation or ownership refuses is logged and answered by an error response (R175, R383, R384). -/
  | refused {s n r k} (comes : Comes s n r) (access : r.kind.asked = false) (page : homePlace s r.part r.dom r.ia = .error k) :
      Reaching (.homeRequest n false) s (fun t => t.mem = s.mem ∧ Failed t n r (some r) ∧
        Logged s t (logStack s r.part r.ia) ⟨r.ia, r.dom, r.src.core, r.src.slot, k, s.dt⟩)
  /-- A request of an older generation of the slice map is sent again with the new one, which its core takes over (R389). -/
  | again {s n r} (here : lookupAt s.net n = some r) (old : r.state = .rehash) (back : linkClosed s (r.coreDie s) (r.homeDie s) = false) :
      Reaching (.rehashResponse n) s (fun t => { t with net := s.net, cores := s.cores } = s ∧
        lookupAt t.net n = some { r with gen := (partAt s r.part).gen, state := .inFlight } ∧
        (∀ k, k ≠ n → lookupAt t.net k = lookupAt s.net k) ∧ (coreAt t r.src.core).gen = (partAt s r.part).gen ∧
        ∀ k, k ≠ r.src.core → coreAt t k = coreAt s k)
  /-- The first reduction in a stack's queue is performed in its turn at the bank, in one step (R113, R158). -/
  | nearMemory {s stack n r op x nm bank order pa} (first : firstAtStack s stack = some (n, r)) (kind : r.kind = .red op x nm)
      (at' : r.state = .atStack bank order pa) (wanted : r.src.isOrphan = false) (turn : bankReady s bank (serveKey r) order = true)
      (back : linkClosed s (r.homeDie s) (dieOfStack stack) = false)
      (sync : isUnsync s (.slice (homeSlice (partAt s r.part) r.ia)) = false) (sound : poisonedAt s (physKey stack pa) r.size = false) :
      Reaching (.nmReduction stack) s (fun t =>
        MemoryWritten s t (physKey stack pa) r.size (op.result (readLE s.mem (physKey stack pa) r.size) x) (256 ^ r.size - 1) ∧
        Answered t n r .ack (some (max (dtSlice s (homeSlice (partAt s r.part) r.ia)) (getAt 0 s.leases (lineKey r.part r.ia)) + 4)) none
          (some r))
  /-- A request that left its die and has had no response for 65,536 ticks fails with KIND 5 (R395). -/
  | overdue {s n r} (here : lookupAt s.net n = some r) (waits : r.state = .inFlight ∨ r.state = .rehash ∨ r.state = .lost)
      (access : r.kind.asked = false) (wanted : r.src.isOrphan = false)
      (far : r.homeDie s ≠ r.coreDie s ∨ r.stackDie s ≠ r.homeDie s) (late : r.sent + 65536 ≤ s.dt) :
      Reaching (.requestTimeout n) s (fun t => t.mem = s.mem ∧ Failed t n r none ∧
        Logged s t (logStack s r.part r.ia) ⟨r.ia, r.dom, r.src.core, r.src.slot, 5, s.dt⟩)
  /-- That of an engine, of firmware, of a fetch or of the sequencer fails at the agent (R395; log 40). -/
  | agentOverdue {s n r} (here : lookupAt s.net n = some r) (waits : r.state = .inFlight ∨ r.state = .lost)
      (access : r.kind.asked = true) (wanted : r.src.isOrphan = false)
      (far : r.homeDie s ≠ r.coreDie s ∨ r.stackDie s ≠ r.homeDie s) (late : r.sent + 65536 ≤ s.dt) :
      Reaching (.requestTimeout n) s (fun t => t.mem = s.mem ∧ lookupAt t.net n = some { r with state := .failed } ∧
        Logged s t (logStack s r.part r.ia) ⟨r.ia, r.dom, r.src.core, r.src.slot, 5, s.dt⟩)
  /-- A request at a closed link end, of its home or of its home stack, is dropped, counted and logged (R171, R395). -/
  | dropped {s n r die peer} (here : lookupAt s.net n = some r) (goes : r.state = .inFlight)
      (way : r.homeDie s = die ∧ r.coreDie s = peer ∨
        r.stackDie s = die ∧ r.homeDie s = peer ∧ linkClosed s (r.homeDie s) (r.coreDie s) = false ∧ r.goesOn s = true)
            (closed : linkClosed s die peer = true) :
      Reaching (.firewallDrop n die peer) s (fun t => lookupAt t.net n = some { r with state := .lost } ∧
        (getAt Dlfw.reset t.dlfw (die * 4 + peer)).drops = min 255 ((getAt Dlfw.reset s.dlfw (die * 4 + peer)).drops + 1) ∧
        Logged s t (3 * die) ⟨r.ia, r.dom, r.src.core, r.src.slot, 7, s.dt⟩)
  /-- So is an answer, which then will not come (R395). -/
  | answerDropped {s n r x die peer} (here : lookupAt s.replies n = some x) (way : x.req = some r) (done : lookupAt s.net n = none)
      (core : r.coreDie s = die) (home : r.homeDie s = peer) (closed : linkClosed s die peer = true) :
      Reaching (.firewallDrop n die peer) s (fun t => lookupAt t.replies n = none ∧ lookupAt t.net n = some { r with state := .lost } ∧
        Logged s t (3 * die) ⟨r.ia, r.dom, r.src.core, r.src.slot, 7, s.dt⟩)

/-- Fences, barriers, the handler slot and gate budgets (R41, R42, R99 to R101, R202, R377, R385, R397). -/
inductive Synchronising : Instr → State → (State → Prop) → Prop
  /-- A fence whose conditions hold is over: its strands go on (R99). -/
  | fence {s core slot gang g is scope upTo} (gang' : gangOf s core slot gang = some (g, is))
      (held : g.gangHold is = some (.fence scope upTo))
      (holds : fenceHolds s core g scope upTo = true) (clean : scope = 0 ∨ g.storeErr = none) :
      Synchronising (.fenceComplete core slot gang) s (fun t => { t with groups := s.groups } = s ∧ ∃ g', groupAt t core slot = some g' ∧
        Untouched g g' ∧ ∀ i ∈ is, (g'.strand i).pc = ((g.strand i).advance 4).pc ∧ (g'.strand i).held = none)
  /-- A fence reports a pending store error with its VA, and the error clears (R385). -/
  | storeError {s core slot gang g is scope upTo va} (gang' : gangOf s core slot gang = some (g, is))
      (held : g.gangHold is = some (.fence scope upTo)) (holds : fenceHolds s core g scope upTo = true) (some' : scope ≠ 0)
      (error : g.storeErr = some va) (free : HandlerFree s core slot g) :
      Synchronising (.fenceComplete core slot gang) s (fun t => ∃ g' h, groupAt t core slot = some g' ∧ g'.storeErr = none ∧
        g'.stop = .served ⟨0x10, is.headD 0, (g.strand (is.headD 0)).pc, BitVec.ofNat 64 va⟩ ∧ groupAt t core handlerSlot = some h ∧
        Serving h slot g.dom ⟨0x10, is.headD 0, (g.strand (is.headD 0)).pc, BitVec.ofNat 64 va⟩)
  /-- A group's arrival counts once what it issued before is performed (R100, R101); the last one advances the phase (R41). -/
  | arrival {s core slot bar g bid b} (here : groupAt s core slot = some g) (block : g.block = some bid) (at' : blockAt s bid = some b)
      (arrived : (getAt GroupBar.none g.bars bar).arrived = true)
      (holds : fenceHolds s core g 0 (getAt GroupBar.none g.bars bar).upTo = true)
      (writes : seqParticipates s b bar = true → writesOut s g.uid (getAt GroupBar.none g.bars bar).upTo = false) :
      Synchronising (.barrierArrival core slot bar) s (fun t => ∃ b', blockAt t bid = some b' ∧
        (let x := getAt Barrier.none b.bars bar
         let x' : Barrier := ⟨x.phase, x.groups ||| BitVec.twoPow 32 g.gid, x.seq⟩
         let count := arrivalCount s bid { b with bars := putAt Barrier.none b.bars bar x' } bar
         (count < expectedCount s bid b bar → getAt Barrier.none b'.bars bar = x') ∧
         (0 < count → expectedCount s bid b bar ≤ count → getAt Barrier.none b'.bars bar = ⟨x.phase + 1, 0, false⟩)))
  /-- A gang that has waited at a barrier for BARTO ticks traps; if its instruction arrived, the arrival stays counted and the instruction
  will only wait (R377). -/
  | timeout {s core slot gang g is since arrives} (gang' : gangOf s core slot gang = some (g, is))
      (held : (g.gangHold is).bind Hold.barrierWait = some (since, arrives))
      (on : (partAt s ((partOfCore s core).getD 0)).barto ≠ 0) (late : since + (partAt s ((partOfCore s core).getD 0)).barto ≤ s.dt)
      (free : HandlerFree s core slot g) :
      Synchronising (.barrierTimeout core slot gang) s (fun t => ∃ g' h, groupAt t core slot = some g' ∧
        g'.stop = .served ⟨0x1B, is.headD 0, (g.strand (is.headD 0)).pc, 0⟩ ∧ g'.bars = g.bars ∧
        (∀ i ∈ is, (g'.strand i).pc = (g.strand i).pc ∧ (g'.strand i).waitOnly = ((g.strand i).waitOnly || arrives)) ∧
        groupAt t core handlerSlot = some h ∧ Serving h slot g.dom ⟨0x1B, is.headD 0, (g.strand (is.headD 0)).pc, 0⟩)
  /-- The first waiting group of a core is served when the handler slot is free (R202). -/
  | entry {s core slot rest g tr} (free : groupAt s core handlerSlot = none) (queue : (coreAt s core).queue = slot :: rest)
      (here : groupAt s core slot = some g) (waits : g.stop = .waiting tr) (other : slot ≠ handlerSlot) :
      Synchronising (.handlerEntry core) s (fun t => (coreAt t core).queue = rest ∧
        groupAt t core slot = some { g with stop := .served tr } ∧ ∃ h, groupAt t core handlerSlot = some h ∧ Serving h slot g.dom tr)
  /-- Calls whose budget is used up end with a status; a group whose accesses are out stands still until they have landed (R397). -/
  | budget {s core slot g} (here : groupAt s core slot = some g) (runs : g.stop = .running) (spent : exhausted g.calls ≠ 0)
      (out : g.quiet = false) :
      Synchronising (.gateBudgetExhausted core slot) s (fun t => { t with groups := s.groups } = s ∧
        groupAt t core slot = some { g with stop := .unwinding (exhausted g.calls) 0x00010001 })
  | budgetQuiet {s core slot g f} (here : groupAt s core slot = some g) (runs : g.stop = .running) (spent : exhausted g.calls = 1)
      (call : g.calls = [f]) (done : g.quiet = true) (stays : beingSaved s g = false) (sound : callsDamaged s core slot 1 g = false) :
      Synchronising (.gateBudgetExhausted core slot) s (fun t => { t with groups := s.groups } = s ∧ ∃ g', groupAt t core slot = some g' ∧
        g'.calls = [] ∧ g'.dom = f.dom ∧ (g'.sreg 63).val = 0x00010001 ∧ g'.stop = .running)

/-- A command is outstanding, of a group that runs and a block that is resident. -/
structure Outstanding (s : State) (n : Nat) (c : Cmd) (b : Block) (core slot : Nat) (g : Group) : Prop where
  here  : lookupAt s.cmds n = some c
  block : blockAt s c.block = some b
  group : Resident s c.uid core slot g
  saved : lookupAt s.saved c.block = none

/-- It is no collective whose time is over (R409). -/
def InTime (s : State) (c : Cmd) : Prop := c.coll = none ∨ s.dt < c.issued + Config.collLimit

/-- A COMMAND ENDS (R57, R81, R111): RH is raised to the completion time of its last write, its granules return, and its flag falls, with an
error mark if it failed, all in one step; the scratchpad of its block is as told. -/
def FlagFalls (t : State) (n : Nat) (c : Cmd) (b : Block) (core slot : Nat) (g : Group) (time : Nat) (err : Bool) (scratch : Assoc Byte) :
    Prop :=
  lookupAt t.cmds n = none ∧
  (∃ b', blockAt t c.block = some b' ∧ b'.scratch = scratch ∧
    ∀ k, getAt false b'.engine k = (getAt false b.engine k && !c.granules.contains k)) ∧
  ∃ g', groupAt t core slot = some g' ∧ g'.count c.flag = g.count c.flag - 1 ∧ g'.rh = max g.rh (max c.maxT time) ∧
    g'.flagErr = (if c.err || err then g.flagErr ||| BitVec.twoPow 12 c.flag else g.flagErr)

/-- A collective has other devices to meet (R298, R299): its operation is of all ranks of several, or its peer is another rank. -/
def MeetsOthers (s : State) (c : Cmd) : Prop :=
  ∃ op comm peer, c.coll = some (op, comm, peer) ∧
    let x := (commAt s comm).getD ⟨1, 0, [], []⟩
    if 3 ≤ op then peer ≠ x.rank else 1 < x.devices

/-- Bytes of an element of a `coll` of a type (Table 20.6). -/
def collSize (type : Nat) : Nat := if type = 2 then 8 else 4

/-- The end of engine commands, and events of near-bank units (R57, R81, R98, R111, R144, R148 to R155, R168, R299, R402 to R405, R409). -/
inductive Completing : Instr → State → (State → Prop) → Prop
  /-- A command that writes the scratchpad, a copy, a compaction or a query: its words stand there when its flag falls (R81, R111, R166). -/
  | scratch {s n peers tree c sc po b core slot g} (at' : Outstanding s n c b core slot g) (time : InTime s c)
      (work : c.work = .writes sc po [] []) :
      Completing (.engineCommandComplete n peers tree) s (fun t => t.mem = s.mem ∧
        FlagFalls t n c b core slot g 0 false (sc.foldl (fun m w => writeBytes m w.1 w.2) b.scratch))
  /-- A write to global memory is performed at its home before the flag falls, with its completion time, and the core's L1 keeps no copy of
  its line (R94, R111). -/
  | global {s n peers tree c sc po w b core slot g stack pa cls owner} (at' : Outstanding s n c b core slot g) (time : InTime s c)
      (work : c.work = .writes sc po [w] []) (direct : asked s (c.asker n) (c.part s) w.ia w.size (.put w.val w.mask) = none)
      (spot : engineSpot s n c (c.asker n) w.dom w.ia = .at stack pa cls owner)
      (sync : isUnsync s (.slice (homeSlice (partAt s (c.part s)) w.ia)) = false) :
      Completing (.engineCommandComplete n peers tree) s (fun t => MemoryWritten s t (physKey stack pa) w.size w.val w.mask ∧
        lookupAt t.l1 (l1Key c.core w.ia) = none ∧
        FlagFalls t n c b core slot g (completesAt s (c.part s) w.ia cls) false (sc.foldl (fun m w => writeBytes m w.1 w.2) b.scratch))
  /-- An update of `pkb` is performed at its stack before the flag falls (R168, R169). -/
  | update {s n peers tree c sc po u b core slot g stack pa} (at' : Outstanding s n c b core slot g) (time : InTime s c)
      (work : c.work = .updates sc po [u])
      (direct : asked s (c.baseAsker n) (c.part s) ((u.ias c.dom).headD 0) u.size (.rowAdd u.fmt u.mode u.term) = none)
      (spot : elementSpot s n c (u.ias c.dom) = .at ((List.range u.size).map (fun k => ⟨(u.ias c.dom).headD 0 + k, stack, pa + k⟩))) :
      Completing (.engineCommandComplete n peers tree) s (fun t =>
        MemoryWritten s t (physKey stack pa) u.size (u.result (readLE s.mem (physKey stack pa) u.size)) (256 ^ u.size - 1) ∧
        FlagFalls t n c b core slot g (s.dt + 4) false (sc.foldl (fun m w => writeBytes m w.1 w.2) b.scratch))
  /-- A copy from the host brings its words while the link is up (R366). -/
  | fromHost {s n peers tree c off host len b core slot g} (at' : Outstanding s n c b core slot g) (time : InTime s c)
      (work : c.work = .fromHost off host len) (up : s.linkUp = true) (good : ∀ i ∈ wordOffsets len, hostRefuses s (host + i) = false) :
      Completing (.engineCommandComplete n peers tree) s (fun t => t.mem = s.mem ∧
        FlagFalls t n c b core slot g 0 false
          ((wordOffsets len).foldl (fun m i => writeBytes m (off + i) (readBytes s.hostMem (host + i) 4)) b.scratch))
  /-- A command whose reads are all performed goes on to its work, and does not read again (R98, R111). -/
  | begins {s n peers tree c op x rs y} (here : lookupAt s.cmds n = some c) (time : InTime s c) (work : c.work = .reading op x rs)
      (plan : planOf op x { s with ahead := true } = y) (all : y.parks = false) :
      Completing (.engineCommandComplete n peers tree) s (fun t => t.mem = s.mem ∧ t.groups = s.groups ∧
        lookupAt t.cmds n = some { c with work := y.work, err := c.err || y.err })
  /-- The pages of a near-bank command are a region's, or they are not, and then it ends with an error mark (R145, R403). -/
  | looked {s n peers tree c vas stack w} (here : lookupAt s.cmds n = some c) (time : InTime s c) (work : c.work = .looking vas stack w)
      (found : ∀ va ∈ vas, regionPage { s with ahead := true } (c.asker n) (c.part s) c.dom stack va ≠ .waits) :
      Completing (.engineCommandComplete n peers tree) s (fun t => t.mem = s.mem ∧ t.groups = s.groups ∧
        ((∀ va ∈ vas, regionPage { s with ahead := true } (c.asker n) (c.part s) c.dom stack va = .good) →
          lookupAt t.cmds n = some { c with work := w }) ∧
        ((∃ va ∈ vas, regionPage { s with ahead := true } (c.asker n) (c.part s) c.dom stack va ≠ .good) →
          lookupAt t.cmds n = some { c with work := .writes [] [] [] [], err := true }))
  /-- `nb.ld` in its turn at every bank: their stores hold its words (R148, R151). -/
  | loaded {s n peers tree c bs ws b core slot g} (at' : Outstanding s n c b core slot g) (time : InTime s c)
      (work : c.work = .nbLoad bs ws) (turn : ∀ k ∈ bs, earlierAt s n k = false) :
      Completing (.engineCommandComplete n peers tree) s (fun t => t.mem = s.mem ∧
        (∀ k ∈ bs, ∀ i < ws.length, getAt 0 (nbuAt t k).prog i = ws.getD i 0) ∧ FlagFalls t n c b core slot g 0 false b.scratch)
  /-- `nb.get` in its turn: lane 0 of the accumulators of every bank, or their sums, stand in the scratchpad (R150, R325). -/
  | got {s n peers tree c bs old sum off b core slot g} (at' : Outstanding s n c b core slot g) (time : InTime s c)
      (work : c.work = .nbGet bs old sum off) (turn : ∀ k ∈ bs, earlierAt s n k = false) :
      Completing (.engineCommandComplete n peers tree) s (fun t => t.mem = s.mem ∧
        FlagFalls t n c b core slot g 0 false
          ((nbGetWords (old ++ bs.map (fun k => (k, nbValues s k))) sum off).foldl (fun m w => writeBytes m w.1 (toBytes 4 w.2.1.toNat))
            b.scratch))
  /-- `nb.run` once its runs have ended at all their banks (R149). -/
  | ran {s n peers tree c count entry rc ps base b core slot g} (at' : Outstanding s n c b core slot g) (time : InTime s c)
      (work : c.work = .nbRun [] [] count entry rc ps base) :
      Completing (.engineCommandComplete n peers tree) s (fun t => t.mem = s.mem ∧ FlagFalls t n c b core slot g 0 false b.scratch)
  /-- A switch to normal mode: in its turn, with every run of the pseudo-channel at a row boundary, the units suspend and their rows are
  closed (R152). -/
  | suspends {s n peers tree c bs k p b core slot g} (at' : Outstanding s n c b core slot g) (time : InTime s c)
      (work : c.work = .nbMode bs k p false) (turn : modeReady s n bs k p false = true)
      (still : ∀ l < 32, (runView s (nbuAt s (bankNo k p l))).isSome →
        (nbuAt s (bankNo k p l)).suspended = true ∨ (nbuAt s (bankNo k p l)).boundary.isSome) :
      Completing (.engineCommandComplete n peers tree) s (fun t => t.mem = s.mem ∧ inCompute t k p = false ∧
        (∀ l < 32, (runView s (nbuAt s (bankNo k p l))).isSome →
          (nbuAt t (bankNo k p l)).suspended = true ∧ (nbuAt t (bankNo k p l)).openRow = none ∧
          (nbuAt t (bankNo k p l)).k = (nbuAt s (bankNo k p l)).k ∧ (nbuAt t (bankNo k p l)).row = (nbuAt s (bankNo k p l)).row) ∧
        FlagFalls t n c b core slot g 0 false b.scratch)
  /-- A switch to compute mode: suspended units run on from what they kept (R152). -/
  | resumes {s n peers tree c bs k p b core slot g} (at' : Outstanding s n c b core slot g) (time : InTime s c)
      (work : c.work = .nbMode bs k p true) (turn : modeReady s n bs k p true = true) :
      Completing (.engineCommandComplete n peers tree) s (fun t => t.mem = s.mem ∧ inCompute t k p = true ∧
        (∀ l < 32, (nbuAt t (bankNo k p l)).suspended = false ∧ (nbuAt t (bankNo k p l)).k = (nbuAt s (bankNo k p l)).k ∧
          (nbuAt t (bankNo k p l)).row = (nbuAt s (bankNo k p l)).row) ∧
        FlagFalls t n c b core slot g 0 false b.scratch)
  /-- A collective whose participants agree writes its results, here into the scratchpad (R107, R299; log 14). -/
  | combined {s n peers tree c op fast type comm peer count own bad off va rs b core slot g} (at' : Outstanding s n c b core slot g)
      (time : InTime s c) (work : c.work = .coll op fast type comm peer count own bad (some off) va)
      (others : ¬ (3 ≤ op ∧ peer = ((commAt s comm).getD ⟨1, 0, [], []⟩).rank))
      (results : collResults ⟨op, fast, type, count⟩ ((commAt s comm).getD ⟨1, 0, [], []⟩) peer own bad peers tree = some rs) :
      Completing (.engineCommandComplete n peers tree) s (fun t => t.mem = s.mem ∧
        FlagFalls t n c b core slot g 0 false
          (rs.foldl (fun m r => writeBytes m (off + collSize type * r.1) (toBytes (collSize type) r.2.toNat)) b.scratch))
  /-- One whose participants disagree fails, and its destination keeps what it holds (R409). -/
  | disagrees {s n peers tree c op fast type comm peer count own bad dst va b core slot g} (at' : Outstanding s n c b core slot g)
      (time : InTime s c) (work : c.work = .coll op fast type comm peer count own bad dst va)
      (others : ¬ (3 ≤ op ∧ peer = ((commAt s comm).getD ⟨1, 0, [], []⟩).rank)) (single : selfPartner s n c = none)
      (results : collResults ⟨op, fast, type, count⟩ ((commAt s comm).getD ⟨1, 0, [], []⟩) peer own bad peers tree = none) :
      Completing (.engineCommandComplete n peers tree) s (fun t => t.mem = s.mem ∧ FlagFalls t n c b core slot g 0 true b.scratch)
  /-- A receive of the device from itself takes the elements of the send that was issued at its place, and both are over (R299; log 74). -/
  | received {s n peers tree c m i x fast type comm peer count own bad off va op' comm' peer' own' dst' va' b core slot g q h}
      (at' : Outstanding s n c b core slot g) (time : InTime s c) (work : c.work = .coll 4 fast type comm peer count own bad (some off) va)
      (self : peer = ((commAt s comm).getD ⟨1, 0, [], []⟩).rank) (partner : selfPartner s n c = some (m, i)) (other : m ≠ n)
      (sends : lookupAt s.cmds m = some x) (sent : x.work = .coll op' fast type comm' peer' count own' [] dst' va')
      (early : s.dt < x.issued + Config.collLimit) (sender : Resident s x.uid core q h) :
      Completing (.engineCommandComplete n peers tree) s (fun t => lookupAt t.cmds n = none ∧ lookupAt t.cmds m = none ∧ t.mem = s.mem ∧
        ∃ b', blockAt t c.block = some b' ∧
          b'.scratch = (List.range count).foldl (fun m j =>
            writeBytes m (off + collSize type * j) (toBytes (collSize type) (own'.getD j 0).toNat)) b.scratch)
  /-- A collective that has not completed in its time fails: its flag falls with an error mark (R409). -/
  | overdue {s n c b core slot g} (at' : Outstanding s n c b core slot g) (coll : c.coll ≠ none)
      (late : c.issued + Config.collLimit ≤ s.dt) (single : selfPartner s n c = none) :
      Completing (.collTimeout n) s (fun t => t.mem = s.mem ∧ FlagFalls t n c b core slot g 0 true b.scratch)
  /-- What it is matched with at the device itself fails with it (R299, R409). -/
  | overduePair {s n c m i} (here : lookupAt s.cmds n = some c) (coll : c.coll ≠ none) (late : c.issued + Config.collLimit ≤ s.dt)
      (partner : selfPartner s n c = some (m, i)) :
      Completing (.collTimeout n) s (fun t => lookupAt t.cmds n = none ∧ lookupAt t.cmds m = none)
  /-- A port that cannot reach its peer: no outstanding collective that has other devices to meet remains (R409; log 27); memory changes at
  most in the frames of saved groups (R199). -/
  | unreachable {s port} :
      Completing (.peerPortUnreachable port) s (fun t => (s.saved = [] → t.mem = s.mem) ∧ ∀ n c,
        lookupAt s.cmds n = some c → MeetsOthers s c → lookupAt t.cmds n = none)
  /-- After the requests served at a row boundary, a unit opens its row (R144, R153). -/
  | resume {s bank r k ia pa cls owner} (run : runView s (nbuAt s bank) = some r) (served : (nbuAt s bank).boundary = some (k + 1))
      (awake : (nbuAt s bank).suspended = false) (closed : (nbuAt s bank).openRow = none)
      (stays : stopPending s (bankStack bank) (bankPch bank) = false) (turn : unitResumes s bank (k + 1) = true)
      (range : rangeIa r.cmd.dom.ranges 0 (r.base + (nbuAt s bank).row * rowBytes) = some ia) (low : ia / 2 ^ 48 < 12)
      (page : place s r.part r.cmd.dom.id ia = .at (bankStack bank) pa cls owner (2 ^ 21)) (na : isNa s cls = true) :
      Completing (.nbuResume bank) s (fun t => (nbuAt t bank).openRow = some pa ∧ t.mem = s.mem ∧
        getAt 0 t.activations (rowKey bank pa) = getAt 0 s.activations (rowKey bank pa) + 1)
  /-- A visit beyond its bound ends with the unit's stop, and its command has an error mark (R144, R402). -/
  | bound {s bank r t0} (run : runView s (nbuAt s bank) = some r) (visit : (nbuAt s bank).visit = some t0) (late : t0 + 64 < s.dt) :
      Completing (.visitBound bank) s (fun t => (nbuAt t bank).cmd = none ∧ (lookupAt t.cmds r.id).map Cmd.err = some true)
  /-- A row whose latest refresh is a window old is refreshed (R155, R405). -/
  | refresh {s bank row} (exists' : row < Config.rowCount) (due : getAt 0 s.credit (bank * 2 ^ 16 + row) + 25600000 ≤ s.dt)
      (free : governed s bank = false) :
      Completing (.refreshDue bank row) s (fun t => t.mem = s.mem ∧ getAt 0 t.credit (bank * 2 ^ 16 + row) = s.dt)
  /-- At a bank that a run holds it is refreshed at a row boundary, as one of the eight (R153). -/
  | refreshBetween {s bank row k} (exists' : row < Config.rowCount) (due : getAt 0 s.credit (bank * 2 ^ 16 + row) + 25600000 ≤ s.dt)
      (held : governed s bank = true) (boundary : (nbuAt s bank).boundary = some k) (few : k < 8) (closed : (nbuAt s bank).openRow = none)
      (ready : (nbuAt s bank).bankFree ≤ s.dt) (whole : lineUnserved s bank = false) :
      Completing (.refreshDue bank row) s (fun t => t.mem = s.mem ∧ getAt 0 t.credit (bank * 2 ^ 16 + row) = s.dt ∧
        (nbuAt t bank).boundary = some (k + 1))
  /-- Suspended runs of a launch whose blocks have ended are let run on: their pseudo-channels compute (R404). -/
  | flush {s launch l bank} (here : lookupAt s.launches launch = some l) (done : l.done = true) (none' : l.flushed = [])
      (listed : (nbuAt s bank).suspended = true) (own : runOfLaunch s bank launch = true)
      (normal : inCompute s (bankStack bank) (bankPch bank) = false) (number : bank < 12 * 2048)
      (unit : ∃ x, (bank, x) ∈ s.nbus ∧ nbuAt s bank = x) :
      Completing (.suspendedRunFlush launch) s (fun t => inCompute t (bankStack bank) (bankPch bank) = true ∧
        (nbuAt t bank).suspended = false ∧ t.mem = s.mem)

/-! Launching. -/

/-- A block appears on a core (R30, R47, R80, R187): with a number of its own, its groups in free slots in the order of their numbers, its
scratchpad zero, and where it asks for accumulators a sequencer context that has not started. -/
structure Placed (s t : State) (core : Nat) (x : Incoming) (b : Block) (bid : Nat) : Prop where
  fresh   : s.nextId ≤ bid
  here    : blockAt t bid = some b
  fields  : b.run = x.run ∧ b.bid = x.bid ∧ b.task = x.task ∧ b.core = core ∧ b.groups = x.shape.groups ∧ b.prio = x.prio ∧ b.placed = s.dt
  scratch : b.scratchSize = 4096 * x.shape.scratch ∧ b.scratch = [] ∧ b.windows = [] ∧ b.bars = [] ∧ b.preempt = .none
  slots   : b.slots.length = x.shape.groups ∧ b.slots.Nodup ∧ ∀ q ∈ b.slots, q < 32 ∧ groupAt s core q = none
  groups  : ∀ k < x.shape.groups, ∃ q g, b.slots[k]? = some q ∧ groupAt t core q = some g ∧ g.block = some bid ∧ g.gid = k ∧
    g.nv = 8 * x.shape.regs ∧ g.ns = 16 * x.shape.uregs ∧ g.dom = x.dom ∧ g.stop = .running ∧ (∀ r, g.vreg r = VReg.start) ∧
    (∀ r, r ≠ 0 → g.sreg r = SReg.start) ∧ (g.sreg 0).val = x.arg ∧ (∀ r, g.preg r = PReg.start) ∧ (∀ r, g.qreg r = QReg.start) ∧
    g.fpm = 0 ∧ g.fpf = 0 ∧ g.nfv = 0x2C ∧ g.cbwin = 0 ∧ g.gmode = 0 ∧
    ∀ i < 8, g.strand i = Strand.start (evenPc (BitVec.ofNat 64 x.entry))
  context : x.shape.nacc ≠ 0 → ∃ k q, b.ctx = some k ∧ k < 4 ∧ lookupAt t.seqs (core * 4 + k) = some q ∧ q.block = bid ∧
    q.started = false ∧ q.nacc = x.shape.nacc ∧ q.bmask = BitVec.ofNat 16 x.bmask ∧ q.pc = BitVec.ofNat 64 x.seqEntry
  memory  : t.mem = s.mem

/-- What a node's block is placed with (R185). -/
def nodeBlock (s : State) (l : GraphLaunch) (run : Nat) (r : NodeRun) : Incoming :=
  ⟨run, r.nextBlock, false, r.entry.shape, r.entry.entry, 0, domReg s l.part l.dom, r.entry.prio % 8, r.entry.bmask, r.entry.seqEntry,
    r.entry.hint⟩

/-- What a task is placed with (R192, R193). -/
def taskBlock (s : State) (x : Task) : Incoming :=
  ⟨x.run, x.bid, true, x.shape, x.entry, x.arg, x.dom, ((lookupAt s.runs x.run).map (fun r => r.entry.prio % 8)).getD 0, 0, 0,
    sectorOfCore x.core⟩

/-- What a node's start finds where it reads `n` bytes of its launch's domain (R78, R185). -/
def NodeReads (s : State) (l : GraphLaunch) (run va n : Nat) (r : VaRead) : Prop :=
  readVa s (iodAsker (2 ^ 64 + run)) l.part (domReg s l.part l.dom) permR va n = r

/-- Launch words, nodes, blocks, tasks and sequencer contexts (R126, R185 to R189, R193, R381). -/
inductive Launching : Instr → State → (State → Prop) → Prop
  /-- A launch word starts a graph launch in the domain of the binding: nodes without a predecessor are ready, the others wait (R185, R186,
  R359). -/
  | starts {s fn w part dom g} (up : s.linkUp = true) (bound : (fnAt s fn).bound = some (part, dom))
      (known : lookupAt s.graphs (graphKey fn (w.toNat % 2 ^ 16)) = some g) (room : outstandingLaunches s fn < 64) :
      Launching (.launchWord fn w) s (fun t => { t with launches := s.launches, runs := s.runs, nextId := s.nextId } = s ∧
        ∃ l x, s.nextId ≤ l ∧ lookupAt t.launches l = some x ∧ x.fn = fn ∧ x.part = part ∧ x.dom = dom ∧ x.handle = w.toNat % 2 ^ 16 ∧
          x.arg = w.toNat / 2 ^ 16 * 16 ∧ x.tag = BitVec.ofNat 32 (w.toNat / 2 ^ 16) ∧ x.start = s.dt ∧ x.first = none ∧ x.done = false ∧
          x.runs.length = g.nodes.length ∧ ∀ k e, g.nodes[k]? = some e → ∃ id r, x.runs[k]? = some id ∧ lookupAt t.runs id = some r ∧
            r.entry = e ∧ r.node = k ∧ r.graph = l ∧ r.nextBlock = 0 ∧ r.live = 0 ∧
            (r.stage = if ∃ p ∈ g.nodes, k ∈ p.succs then .waiting else .ready))
  /-- An unknown handle is refused with STATUS 0x01, a launch beyond 64 outstanding ones with 0x02 (R381). -/
  | unknown {s fn w part dom} (up : s.linkUp = true) (bound : (fnAt s fn).bound = some (part, dom))
      (missing : lookupAt s.graphs (graphKey fn (w.toNat % 2 ^ 16)) = none) :
      Launching (.launchWord fn w) s (fun t => { t with fns := s.fns } = s ∧ fnAt t fn = { fnAt s fn with finished :=
        (fnAt s fn).finished ++ [⟨w.toNat % 2 ^ 16, 0, 0x01, BitVec.ofNat 32 (w.toNat / 2 ^ 16), s.dt, 0, none⟩] })
  | tooMany {s fn w part dom g} (up : s.linkUp = true) (bound : (fnAt s fn).bound = some (part, dom))
      (known : lookupAt s.graphs (graphKey fn (w.toNat % 2 ^ 16)) = some g) (full : 64 ≤ outstandingLaunches s fn) :
      Launching (.launchWord fn w) s (fun t => { t with fns := s.fns } = s ∧ fnAt t fn = { fnAt s fn with finished :=
        (fnAt s fn).finished ++ [⟨w.toNat % 2 ^ 16, 0, 0x02, BitVec.ofNat 32 (w.toNat / 2 ^ 16), s.dt, 0, none⟩] })
  /-- A ready node starts once the writes of its predecessors are visible: its constant bank holds the image with the arguments over it, its
  slots the descriptors, and it takes the next LAUNCHID (R109, R185). -/
  | node {s launch node l run x args img tables lists} (here : lookupAt s.launches launch = some l)
      (ready : (runsOf s l).find? (fun r => r.2.node == node && r.2.stage == .ready) = some (run, x)) (own : x.graph = launch)
      (visible : ∀ p ∈ predecessors s l node, runVisible s p = true)
      (args' : NodeReads s l run l.arg x.entry.argLen (.bytes args)) (img' : NodeReads s l run x.entry.cbImg x.entry.cbLen (.bytes img))
      (tables' : NodeReads s l run x.entry.tables (64 * x.entry.latN + 128 * x.entry.pklN) (.bytes tables))
      (lists' : NodeReads s l run x.entry.wlva (32 * x.entry.wlN) (.bytes lists)) :
      Launching (.nodeStart launch node) s (fun t => (∃ u, ReadLeaves s u ∧ { t with runs := u.runs, parts := u.parts } = u) ∧
        partAt t l.part = { partAt s l.part with launchCtr := (partAt s l.part).launchCtr + 1 } ∧
        (∀ k, k ≠ run → lookupAt t.runs k = lookupAt s.runs k) ∧ ∃ x', lookupAt t.runs run = some x' ∧
          x'.stage = .running ∧ x'.launchId = (partAt s l.part).launchCtr ∧ x'.entry = x.entry ∧
          (∀ a, readByte x'.bank a = if x.entry.argOff ≤ a ∧ a < x.entry.argOff + args.length then args.getD (a - x.entry.argOff) 0
            else if a < img.length then img.getD a 0 else 0) ∧
          (∀ k < x.entry.latN, x'.lattice[k]? = some ((tables.drop (64 * k)).take 64)) ∧
          (∀ k < x.entry.pklN, x'.pkl[k]? = some ((tables.drop (64 * x.entry.latN + 128 * k)).take 128)) ∧
          x'.lists.length = x.entry.wlN)
  /-- A node whose argument buffer cannot be read is refused with 0x03, and the launch's record will say so (R381, R426). -/
  | nodeRefused {s launch node l run x} (here : lookupAt s.launches launch = some l)
      (ready : (runsOf s l).find? (fun r => r.2.node == node && r.2.stage == .ready) = some (run, x)) (own : x.graph = launch)
      (visible : ∀ p ∈ predecessors s l node, runVisible s p = true)
      (denied : NodeReads s l run l.arg x.entry.argLen .denied) (first : l.first = none)
      (settled : ∀ va n, ¬ NodeReads s l run va n .waits) :
      Launching (.nodeStart launch node) s (fun t => lookupAt t.runs run = some { x with stage := .refused } ∧ t.mem = s.mem ∧
        (lookupAt t.launches launch).map GraphLaunch.first = some (some 3))
  /-- The dispatcher places the next block of the first node of which one fits (R187). -/
  | block {s part run r core l} (first : firstRun ((placeable s part).filter (fun r => (chooseFor s part r).isSome)) = some (run, r))
      (core' : chooseFor s part (run, r) = some core) (launch : lookupAt s.launches r.graph = some l)
      (once : (partAt s part).placedAt ≠ some s.dt) (saved : restoreFirst s part (r.entry.prio % 8) = false) :
      Launching (.blockPlace part) s (fun t => (∃ b bid, Placed s t core (nodeBlock s l run r) b bid) ∧
        (∃ r', lookupAt t.runs run = some r' ∧
          { r' with uids := r.uids } = { r with nextBlock := r.nextBlock + 1, live := r.live + 1, blockedSince := none }) ∧
        (partAt t part).placedAt = some s.dt)
  /-- A head node that has been blocked for RESERVE ticks reserves a core, and blocks of lower priority there are asked to leave (R189,
  R195). -/
  | reserve {s part run r t0 core vs} (first : firstRun (placeable s part) = some (run, r)) (blocked : r.blockedSince = some t0)
      (late : t0 + (partAt s part).reserve ≤ s.dt) (unreserved : ∀ e ∈ (partAt s part).reserved, e.1 ≠ run)
      (core' : least (coreKey s part r.entry.hint)
        ((partAt s part).cores.filter (fun c => coreUsable s part c && !reservedFor s part (some run) c)) = some core)
      (leave : evictions s core r.entry.shape (victims s core (r.entry.prio % 8) 32) = some vs) :
      Launching (.reserveTimeout part) s (fun t => { t with parts := s.parts, blocks := s.blocks } = s ∧
        partAt t part = { partAt s part with reserved := (partAt s part).reserved ++ [(run, core)] } ∧
        (∀ v ∈ vs, ∀ b, blockAt s v = some b → b.preempt = .none → blockAt t v = some { b with preempt := .polite s.dt }) ∧
        ∀ v, v ∉ vs → blockAt t v = blockAt s v)
  /-- A core takes the bottom task of its own deque (R192). -/
  | own {s core part rest x} (mine : partOfCore s core = some part) (usable : coreUsable s part core = true)
      (bottom : (coreAt s core).tasks = rest ++ [x]) (fit : fits s core x.shape = true)
      (free : reservedFor s part none core = false) :
      Launching (.taskSteal core) s (fun t => (coreAt t core).tasks = rest ∧ ∃ b bid, Placed s t core (taskBlock s x) b bid)
  /-- A core whose deque is empty steals the top task of the first deque of which it fits (R193). -/
  | steals {s core part from' x rest} (mine : partOfCore s core = some part) (usable : coreUsable s part core = true)
      (empty : (coreAt s core).tasks = []) (first : (stealOrder (partAt s part) core).find? (fun c =>
        match (coreAt s c).deque with
        | x :: _ => fits s core x.shape && !reservedFor s part none core
        | [] => false) = some from') (top : (coreAt s from').deque = x :: rest) :
      Launching (.taskSteal core) s (fun t => (coreAt t from').tasks = rest ++ (coreAt s from').spilled.map Prod.snd ∧
        ∃ b bid, Placed s t core (taskBlock s x) b bid)
  /-- A sequencer context takes its registers, its bobbin range and its stack pointer from its start record (R126, R140). -/
  | sequencer {s core ctx v} (here : seqView s core ctx = some v) (new : v.x.started = false) (sound : v.b.seqFault = none)
      (cell : fieldLE (startRecord s v.b) 80 8 ≠ 0 → ∃ bs,
          readVa s v.asker v.part v.dom permR (fieldLE (startRecord s v.b) 80 8) 8 = .bytes bs) :
      Launching (.sequencerStart core ctx) s (fun t => (∃ u, ReadLeaves s u ∧ { t with seqs := u.seqs } = u) ∧
        (∀ k, k ≠ core * 4 + ctx → lookupAt t.seqs k = lookupAt s.seqs k) ∧ ∃ x', lookupAt t.seqs (core * 4 + ctx) = some x' ∧
          x'.started = true ∧ x'.pc = v.x.pc ∧ x'.tcfg = v.x.tcfg ∧
          (∀ i < 16, getAt 0 x'.m i = BitVec.ofNat 32 (fieldLE (startRecord s v.b) (4 * i) 4)) ∧
          x'.bbase = fieldLE (startRecord s v.b) 64 8 ∧ x'.blimit = fieldLE (startRecord s v.b) 72 8 ∧
          x'.bcell = fieldLE (startRecord s v.b) 80 8 ∧
          ∀ bs, x'.bcell ≠ 0 → readVa s v.asker v.part v.dom permR x'.bcell 8 = .bytes bs → x'.bptr = ofBytes bs)

/-! The host. -/

/-- The host address of the next entry of a copy ring (R360). -/
def copySlot (s : State) (fn : Nat) : Nat := (fnAt s fn).cqbase.toNat + 64 * ((fnAt s fn).cqhead.toNat % 2 ^ (fnAt s fn).cqlog2n)

/-- The block that a function performs, one that has begun or the next of its ring, and CQHEAD once it is read (R361, R363): the work of a
block that is read now starts now (R362). -/
structure CopyOpen (s : State) (fn : Nat) (w : HostCopy) (part dom : Nat) (head : Word) : Prop where
  bound : (fnAt s fn).bound = some (part, dom)
  up    : s.linkUp = true
  goes  : w.status ≠ 0x22
  work  : ((fnAt s fn).copy = some w ∧ head = (fnAt s fn).cqhead) ∨
    ((fnAt s fn).copy = none ∧ (fnAt s fn).cqHeld = false ∧ (fnAt s fn).cqhead ≠ (fnAt s fn).cqtail ∧ head = (fnAt s fn).cqhead + 1 ∧
      hostRefuses s (copySlot s fn) = false ∧ w = ⟨CopyBlock.ofBytes (readBytes s.hostMem (copySlot s fn) 64), s.dt, 0, 0, 0⟩)

/-- Who asks for a block's reads and writes at home: the copy engine, at the block that CQHEAD counts. -/
def copyWho (fn : Nat) (head : Word) : Asker := ⟨.group 0xFF 63 (2 ^ 65 + fn) 8, head.toNat, false⟩

/-- A block has been performed, and its record waits (R361, R362). -/
def CopyDone (s t : State) (fn : Nat) (head : Word) (w : HostCopy) (handle kind : Nat) (status : Word) : Prop :=
  (fnAt t fn).cqhead = head ∧ (fnAt t fn).copy = none ∧
  ∃ time, (fnAt t fn).finished = (fnAt s fn).finished ++ [⟨handle, kind, status, w.block.tag, w.start, time, none⟩]

/-- What a block of a ring changes: its function, and requests for its own reads that are given up. -/
structure CopyOnly (s t : State) (fn : Nat) : Prop where
  rest  : { t with fns := s.fns, free := s.free, net := s.net } = s
  other : ∀ k, k ≠ fn → fnAt t k = fnAt s k
  fewer : ∀ e ∈ t.net, e ∈ s.net
  kept  : ∀ e ∈ s.net, e.2.kind.isPull = false → e ∈ t.net

/-- An element of a copy has been copied: the block goes on with the next one, or has been performed (R363). -/
def CopyGoes (s t : State) (fn : Nat) (head : Word) (w : HostCopy) : Prop :=
  if w.block.len ≤ w.done + w.step then CopyDone s t fn head w 0 1 (BitVec.ofNat 32 w.status)
  else (fnAt t fn).cqhead = head ∧ (fnAt t fn).finished = (fnAt s fn).finished ∧
    ∃ time, (fnAt t fn).copy = some { w with done := w.done + w.step, time := time }

/-- So many map requests, each of 32 bytes, have been read from a function's ring and joined the queue in ring order (R361, R364). -/
def MapsRead (s t : State) (fn part dom : Nat) (base : Dword) (k : Nat) : Prop :=
  (fnAt t fn).mqhead = (fnAt s fn).mqhead + BitVec.ofNat 32 k ∧
  (partAt t part).mapQueue.length = (partAt s part).mapQueue.length + k ∧
  (∀ j < (partAt s part).mapQueue.length, (partAt t part).mapQueue[j]? = (partAt s part).mapQueue[j]?) ∧
  ∀ j < k, ∃ q, (partAt t part).mapQueue[(partAt s part).mapQueue.length + j]? = some q ∧ q.fn.map Prod.fst = some fn ∧ q.gate = none ∧
    q.dom = dom ∧
    (let slot := base.toNat + 32 * (((fnAt s fn).mqhead + BitVec.ofNat 32 j).toNat % 2 ^ (fnAt s fn).mqlog2n)
     q.op = BitVec.ofNat 32 (readLE s.hostMem slot 4) ∧ q.count = BitVec.ofNat 32 (readLE s.hostMem (slot + 4) 4) ∧
     q.ia = readLE s.hostMem (slot + 8) 8 ∧ q.phys = BitVec.ofNat 64 (readLE s.hostMem (slot + 16) 8) ∧
     q.size = BitVec.ofNat 32 (readLE s.hostMem (slot + 24) 1) ∧ q.tag = BitVec.ofNat 32 (readLE s.hostMem (slot + 28) 4))

/-- A value that a replacement-class entry takes (Table 6.3, R87): WP is not 3, LEASE is 4 to 16, and some way may be used unless WP is
2. -/
def ClassAllowed (w : Word) : Prop :=
  w.toNat / 2 ^ 19 % 4 ≠ 3 ∧ 4 ≤ w.toNat / 2 ^ 21 % 32 ∧ w.toNat / 2 ^ 21 % 32 ≤ 16 ∧
  (w.toNat % 2 ^ 16 ≠ 0 ∨ w.toNat / 2 ^ 19 % 4 = 2)

/-- A register that firmware writes without behaviour of its own holds the value, its reserved bits discarded (R5, Tables 6.1, 13.2, 13.4,
14.2, 30.2). A field of a function's page is not one of these. -/
def RegisterHolds (t : State) (v : Dword) : DevReg → Prop
  | .page _ _ => True
  | .schedctl p => (partAt t p).polite = v.toNat % 2 ^ 24 ∧ (partAt t p).reserve = v.toNat / 2 ^ 32 % 2 ^ 24
  | .watchctl p => (partAt t p).barto = v.toNat % 2 ^ 32
  | .dbgctl core => (coreAt t core).ownTrap = v.getLsbD 0
  | .ptbase k => (stackAt t k).ptbase.toNat = v.toNat % 2 ^ 37 / 2 ^ 22 * 2 ^ 22
  | .xways k => (stackAt t k).xways = v
  | .pgwait k => (stackAt t k).pgwait.toNat = v.toNat % 2 ^ 16
  | .range p dom entry word1 => ∀ e, (domainAt t p dom).ranges[entry]? = some e →
      if word1 then e.2.toNat % 2 ^ 31 = v.toNat % 2 ^ 31 ∧ e.2.toNat / 2 ^ 32 = v.toNat / 2 ^ 32 % 2 ^ 27
      else e.1.toNat % 64 = v.toNat % 64 ∧ e.1.toNat / 2 ^ 21 = v.toNat / 2 ^ 21 % 2 ^ 27
  | .handler p dom => (domainAt t p dom).handler = v
  | .key p dom i => ∀ w, (domainAt t p dom).keys[i]? = some w → w = v.truncate 32
  | .tclass p dom => (domainAt t p dom).tclass = v.toNat % 4
  | .csave p dom => (domainAt t p dom).csave = v.toNat % 2 ^ 52
  | .eyeletIa p => (partAt t p).eyeletIa = v.toNat % 2 ^ 52
  | .eyeletCount p => (partAt t p).eyeletCount = min 4096 v.toNat
  | .owner k page => getAt 0 t.owners (k * 2 ^ 21 + page) = v.toNat % 2 ^ 13

/-- A tail that releases more entries than a ring holds. -/
def Overrun (tail head : Word) (log2n : Nat) : Prop := 2 ^ log2n < (tail - head).toNat

/-- What the copy ring finds where it reads `n` bytes of a domain (R78, R363, R381). -/
def CopyReads (s : State) (fn : Nat) (head : Word) (part dom va n : Nat) (r : VaRead) : Prop :=
  readVa s (copyWho fn head) part (domReg s part dom) permR va n = r

/-- The host reaches a function's page: over the link, and a VF's only where bring-up has not failed (R359, R420, R422). -/
def PageUp (s : State) (fn : Nat) : Prop := s.linkUp = true ∧ (fn = 0 ∨ s.bringUpFailed = none)

/-- Writes and reads of the host at a function's page. -/
inductive PageAccess (fn : Nat) : Instr → Prop
  | cqtail (v : Word) : PageAccess fn (.cqtailWrite fn v)
  | mqtail (v : Word) : PageAccess fn (.mqtailWrite fn v)
  | crhead (v : Word) : PageAccess fn (.crheadWrite fn v)
  | crtail : PageAccess fn (.crtailRead fn)
  | crbase (v : BitVec 64) : PageAccess fn (.crbaseWrite fn v)
  | base (mq : Bool) (v : BitVec 64) : PageAccess fn (.ringBaseWrite fn mq v)

/-- A host window meets no valid range entry: they share no 2 MiB unit of VAs (R366). -/
def WindowClear (va size : Nat) (ranges : List (Dword × Dword)) : Prop :=
  ∀ e ∈ ranges, e.1.getLsbD 0 = true → ∀ g, ¬ (va ≤ g ∧ g < va + size ∧ e.1.toNat / 2 ^ 21 % 2 ^ 27 ≤ g ∧
    g < e.1.toNat / 2 ^ 21 % 2 ^ 27 + e.2.toNat / 2 ^ 32 % 2 ^ 27)

/-- The range entries of a domain as a write of one of their words would leave them (Table 6.1). -/
def rangesWith (s : State) (part dom entry : Nat) (word1 : Bool) (v : Dword) : List (Dword × Dword) :=
  (domainAt s part dom).ranges.modify entry (fun e => if word1 then (e.1, v &&& 0x07FFFFFF7FFFFFFF) else (v &&& 0x0000FFFFFFE0003F, e.2))

/-- No function bound to a domain has a window over these range entries. -/
def WindowsClear (s : State) (part dom : Nat) (ranges : List (Dword × Dword)) : Prop :=
  ∀ f ∈ s.fns, f.2.bound = some (part, dom) → WindowClear f.2.hwva f.2.hwsize ranges

/-- Firmware makes a write: all but one that would let a range entry overlap a window (R366). -/
def FirmwareWrites (s : State) (v : Dword) : DevReg → Prop
  | .range part dom entry word1 => WindowsClear s part dom (rangesWith s part dom entry word1 v)
  | _ => True

/-- The host lets the next entries of a map ring be read (R421). -/
def MapsReadable (s : State) (fn : Nat) (base : Dword) (k : Nat) : Prop :=
  ∀ j < k, hostRefuses s (base.toNat + 32 * (((fnAt s fn).mqhead + BitVec.ofNat 32 j).toNat % 2 ^ (fnAt s fn).mqlog2n)) = false

/-- Nothing differs but write-backs of dirty lines: ordinary requests at their banks, or activations of rows at once (R87, R153). -/
def WritesBack (s t : State) : Prop :=
  { t with net := s.net, nextId := s.nextId, nbus := s.nbus, activations := s.activations } = s ∧ s.nextId ≤ t.nextId ∧
  (∀ e ∈ s.net, e ∈ t.net) ∧ ∀ e ∈ t.net, e ∈ s.net ∨ e.2.kind = .writeBack

/-- What the host does (R5, R87, R171, R184, R298, R359, R361 to R366, R370, R383, R421). -/
inductive Hosting : Instr → State → (State → Prop) → Prop
  /-- The first finished work's record is written once its writes are done: CRTAIL counts it, the launch leaves, an interrupt is sent
  (R109, R361, Table 29.3). -/
  | record {s fn r rest} (first : (fnAt s fn).finished = r :: rest) (up : s.linkUp = true) (held : (fnAt s fn).crHeld = false)
      (room : ((fnAt s fn).crtail - (fnAt s fn).crhead).toNat < 2 ^ (fnAt s fn).crlog2n) (ready : recordReady s r = true)
      (host : hostRefuses s (ringSlot (fnAt s fn).crbase (fnAt s fn).crlog2n (fnAt s fn).crtail.toNat 32) = false) :
      Hosting (.completionRecordWrite fn) s (fun t =>
        let slot := (fnAt s fn).crbase.toNat + 32 * ((fnAt s fn).crtail.toNat % 2 ^ (fnAt s fn).crlog2n)
        (fnAt t fn).crtail = (fnAt s fn).crtail + 1 ∧ (fnAt t fn).finished = rest ∧ (fnAt t fn).msix = (fnAt s fn).msix + 1 ∧
        t.mem = s.mem ∧ readLE t.hostMem slot 2 = r.handle % 2 ^ 16 ∧ readLE t.hostMem (slot + 2) 1 = r.kind % 256 ∧
        readLE t.hostMem (slot + 4) 4 = (fnAt s fn).crtail.toNat ∧ readLE t.hostMem (slot + 12) 4 = r.tag.toNat ∧
        readLE t.hostMem (slot + 16) 8 = r.start % 2 ^ 64 ∧ readLE t.hostMem (slot + 24) 8 = s.dt % 2 ^ 64 ∧
        (r.launch = none → readLE t.hostMem (slot + 8) 4 = r.status.toNat) ∧
        (∀ l x, r.launch = some l → lookupAt s.launches l = some x →
          readLE t.hostMem (slot + 8) 4 = (launchStatus x).toNat ∧ lookupAt t.launches l = none) ∧
        ∀ a, (a < slot ∨ slot + 32 ≤ a) → readByte t.hostMem a = readByte s.hostMem a)
  /-- A record that the host refuses is held, with CRERR (R421). -/
  | recordHeld {s fn r rest} (first : (fnAt s fn).finished = r :: rest) (up : s.linkUp = true) (held : (fnAt s fn).crHeld = false)
      (room : ((fnAt s fn).crtail - (fnAt s fn).crhead).toNat < 2 ^ (fnAt s fn).crlog2n) (ready : recordReady s r = true)
      (host : hostRefuses s (ringSlot (fnAt s fn).crbase (fnAt s fn).crlog2n (fnAt s fn).crtail.toNat 32) = true) :
      Hosting (.completionRecordWrite fn) s (fun t => { t with fns := s.fns } = s ∧
        fnAt t fn = { fnAt s fn with crerr := true, crHeld := true })
  | cqtail {s fn v} (up : PageUp s fn) : Hosting (.cqtailWrite fn v) s (fun t => { t with fns := s.fns } = s ∧
      (¬ Overrun v (fnAt s fn).cqhead (fnAt s fn).cqlog2n → fnAt t fn = { fnAt s fn with cqtail := v }) ∧
      (Overrun v (fnAt s fn).cqhead (fnAt s fn).cqlog2n → fnAt t fn = { fnAt s fn with cqtail := v, cqerr := true, cqHeld := true }))
  /-- Released map requests are read and queued; an overrun ring is not read until its base is written (R361, R421). -/
  | mqtail {s fn v part dom} (up : PageUp s fn) (bound : (fnAt s fn).bound = some (part, dom)) (held : (fnAt s fn).mqHeld = false)
      (fits : ¬ Overrun v (fnAt s fn).mqhead (fnAt s fn).mqlog2n) (small : (fnAt s fn).mqlog2n ≤ 32)
      (good : MapsReadable s fn (fnAt s fn).mqbase (v - (fnAt s fn).mqhead).toNat) :
      Hosting (.mqtailWrite fn v) s (fun t => { t with fns := s.fns, parts := s.parts } = s ∧ (fnAt t fn).mqtail = v ∧
        MapsRead s t fn part dom (fnAt s fn).mqbase (v - (fnAt s fn).mqhead).toNat)
  /-- A request that the host does not let be read ends with STATUS 0x22 (R421; that its TAG is free is log 79). -/
  | mapUnread {s fn part dom} (up : PageUp s fn) (bound : (fnAt s fn).bound = some (part, dom)) (held : (fnAt s fn).mqHeld = false)
      (refused : hostRefuses s ((fnAt s fn).mqbase.toNat + 32 * ((fnAt s fn).mqhead.toNat % 2 ^ (fnAt s fn).mqlog2n)) = true) :
      Hosting (.mqtailWrite fn ((fnAt s fn).mqhead + 1)) s (fun t => { t with fns := s.fns, free := s.free } = s ∧
        (fnAt t fn).mqhead = (fnAt s fn).mqhead + 1 ∧
        ∃ tag, (fnAt t fn).finished = (fnAt s fn).finished ++ [⟨0, 4, 0x22, tag, s.dt, 0, none⟩])
  | mqOverrun {s fn v} (up : PageUp s fn) (over' : Overrun v (fnAt s fn).mqhead (fnAt s fn).mqlog2n) :
      Hosting (.mqtailWrite fn v) s (fun t => { t with fns := s.fns } = s ∧
        fnAt t fn = { fnAt s fn with mqtail := v, mqerr := true, mqHeld := true })
  /-- An element of a copy to the device, an aligned word where DEV is one: its bytes take those of the host, and no other byte of memory
  changes (R363). -/
  | toDevice {s fn w part dom head ia stack pa cls owner} (work : CopyOpen s fn w part dom head) (op : w.block.op = 1)
      (sound : w.block.bad = false) (grant : rangeFail (domReg s part dom).ranges permW w.block.dev w.block.len = none)
      (host : spanRefused s (w.block.host + w.done) w.step = false)
      (ia' : rangeIa (domReg s part dom).ranges permW (w.block.dev + w.done) = some ia)
      (direct : ∀ v m, asked s (copyWho fn head) part ia w.step (.put v m) = none)
      (spot : homeSpot s (copyWho fn head) part (domReg s part dom).id ia = .at stack pa cls owner) :
      Hosting (.hostToDevice fn) s (fun t => CopyGoes s t fn head w ∧ t.hostMem = s.hostMem ∧
        (∀ j < w.step, readByte t.mem (physKey stack pa + j) = readByte s.hostMem (w.block.host + w.done + j)) ∧
        ∀ a, (a < physKey stack pa ∨ physKey stack pa + w.step ≤ a) → readByte t.mem a = readByte s.mem a)
  /-- An element of a copy to the host. -/
  | toHost {s fn w part dom head v} (work : CopyOpen s fn w part dom head) (op : w.block.op = 2) (sound : w.block.bad = false)
      (grant : rangeFail (domReg s part dom).ranges permR w.block.dev w.block.len = none)
      (host : spanRefused s (w.block.host + w.done) w.step = false)
      (ia' : (rangeIa (domReg s part dom).ranges permR (w.block.dev + w.done)).isSome)
      (read : engineRead s (copyWho fn head) part (domReg s part dom) permR (w.block.dev + w.done) w.step = .value v) :
      Hosting (.deviceToHost fn) s (fun t => CopyGoes s t fn head w ∧ t.mem = s.mem ∧
        readLE t.hostMem (w.block.host + w.done) w.step = v ∧
        ∀ a, (a < w.block.host + w.done ∨ w.block.host + w.done + w.step ≤ a) → readByte t.hostMem a = readByte s.hostMem a)
  /-- A block that fails the range check copies nothing (R363, R381). -/
  | copyDenied {s fn w part dom head} (work : CopyOpen s fn w part dom head) (op : w.block.op = 1) (sound : w.block.bad = false)
      (new : w.done = 0) (denied : (rangeFail (domReg s part dom).ranges permW w.block.dev w.block.len).isSome) :
      Hosting (.hostToDevice fn) s (fun t => CopyDone s t fn head w 0 1 0x21 ∧ CopyOnly s t fn)
  /-- An access that the host refuses ends the copy (R363, R421; log 75). -/
  | hostDenies {s fn w part dom head} (work : CopyOpen s fn w part dom head) (op : w.block.op = 1) (sound : w.block.bad = false)
      (grant : rangeFail (domReg s part dom).ranges permW w.block.dev w.block.len = none)
      (ia' : (rangeIa (domReg s part dom).ranges permW (w.block.dev + w.done)).isSome)
      (host : spanRefused s (w.block.host + w.done) w.step = true) :
      Hosting (.hostToDevice fn) s (fun t => CopyDone s t fn head w 0 1 0x22 ∧ CopyOnly s t fn)
  /-- So does the read of a ring's entry: the first event that meets it ends it (R421; that its TAG is free is log 79). -/
  | entryDenied {s fn part dom i} (event : i ∈ [Instr.hostToDevice fn, .deviceToHost fn, .registerGraph fn, .releaseHandle fn])
      (bound : (fnAt s fn).bound = some (part, dom)) (up : s.linkUp = true) (none' : (fnAt s fn).copy = none)
      (held : (fnAt s fn).cqHeld = false) (next : (fnAt s fn).cqhead ≠ (fnAt s fn).cqtail)
      (refused : hostRefuses s (copySlot s fn) = true) :
      Hosting i s (fun t => CopyOnly s t fn ∧ (fnAt t fn).cqhead = (fnAt s fn).cqhead + 1 ∧ (fnAt t fn).copy = none ∧
        ∃ tag, (fnAt t fn).finished = (fnAt s fn).finished ++ [⟨0, 1, 0x22, tag, s.dt, 0, none⟩])
  /-- A graph record that is read whole is refused with the lowest code that it meets (R381), or registered under a handle that the function
  does not use (R184). -/
  | registers {s fn w part dom head' head entries list} (work : CopyOpen s fn w part dom head') (op : w.block.op = 3)
      (sound : w.block.bad = false) (head'' : CopyReads s fn head' part dom w.block.dev 64 (.bytes head))
      (entries' : CopyReads s fn head' part dom (w.block.dev + 64) (128 * fieldLE head 0 2) (.bytes entries))
      (list' : CopyReads s fn head' part dom (w.block.dev + 64 + 128 * fieldLE head 0 2)
        (2 * succCount (pieces entries 128 (fieldLE head 0 2))) (.bytes list))
      (free : ∃ h, 1 ≤ h ∧ h ≤ 65535 ∧ lookupAt s.graphs (graphKey fn h) = none) :
      Hosting (.registerGraph fn) s (fun t =>
        let raw := pieces entries 128 (fieldLE head 0 2)
        let nodes := raw.map (fun b => NodeEntry.ofBytes b ((pieces list 2 (list.length / 2)).map ofBytes))
        let st := graphStatus nodes raw (fieldLE head 2 62 != 0 || decide (fieldLE head 0 2 < 1 ∨ 1024 < fieldLE head 0 2))
            (domReg s part dom)
        ∃ u, ReadLeaves s u ∧
        (st ≠ 0 → CopyDone s t fn head' w 0 2 (BitVec.ofNat 32 st) ∧ { t with fns := u.fns, free := u.free } = u) ∧
        (st = 0 → ∃ h, 1 ≤ h ∧ h ≤ 65535 ∧ lookupAt s.graphs (graphKey fn h) = none ∧ CopyDone s t fn head' w h 2 0 ∧
          lookupAt t.graphs (graphKey fn h) = some ⟨nodes⟩ ∧
          (∀ k, k ≠ graphKey fn h → lookupAt t.graphs k = lookupAt s.graphs k) ∧
          { t with fns := u.fns, graphs := u.graphs, free := u.free } = u))
  /-- A handle that no launch uses any more is released (R363). -/
  | releases {s fn w part dom head g} (work : CopyOpen s fn w part dom head) (op : w.block.op = 4) (sound : w.block.bad = false)
      (known : lookupAt s.graphs (graphKey fn w.block.hdl) = some g)
      (idle : ∀ l ∈ s.launches, l.2.fn = fn → l.2.handle = w.block.hdl → l.2.done = true) :
      Hosting (.releaseHandle fn) s (fun t => CopyDone s t fn head w w.block.hdl 3 0 ∧
        lookupAt t.graphs (graphKey fn w.block.hdl) = none ∧
        (∀ k, k ≠ graphKey fn w.block.hdl → lookupAt t.graphs k = lookupAt s.graphs k) ∧
        CopyOnly s { t with graphs := s.graphs } fn)
  | crhead {s fn v} (up : PageUp s fn) : Hosting (.crheadWrite fn v) s (fun t => { t with fns := s.fns } = s ∧
      fnAt t fn = { fnAt s fn with crhead := v })
  | crtail {s fn} (up : PageUp s fn) : Hosting (.crtailRead fn) s (fun t => { t with fns := s.fns } = s ∧
      fnAt t fn = { fnAt s fn with crtailRead := (fnAt s fn).crtail })
  | crbase {s fn v} (up : PageUp s fn) : Hosting (.crbaseWrite fn v) s (fun t => { t with fns := s.fns } = s ∧
      fnAt t fn = { fnAt s fn with crbase := v &&& 0xFFFFFFFFFFFFF000, crHeld := false })
  | cqbase {s fn v} (up : PageUp s fn) : Hosting (.ringBaseWrite fn false v) s (fun t => { t with fns := s.fns } = s ∧
      fnAt t fn = { fnAt s fn with cqbase := v &&& 0xFFFFFFFFFFFFF000, cqHeld := false })
  | mqbase {s fn v part dom} (up : PageUp s fn) (bound : (fnAt s fn).bound = some (part, dom))
      (fits : ¬ Overrun (fnAt s fn).mqtail (fnAt s fn).mqhead (fnAt s fn).mqlog2n) (small : (fnAt s fn).mqlog2n ≤ 32)
      (good : MapsReadable s fn (v &&& 0xFFFFFFFFFFFFF000) ((fnAt s fn).mqtail - (fnAt s fn).mqhead).toNat) :
      Hosting (.ringBaseWrite fn true v) s (fun t => { t with fns := s.fns, parts := s.parts } = s ∧
        (fnAt t fn).mqbase = v &&& 0xFFFFFFFFFFFFF000 ∧ (fnAt t fn).mqHeld = false ∧
        MapsRead s t fn part dom (v &&& 0xFFFFFFFFFFFFF000) ((fnAt s fn).mqtail - (fnAt s fn).mqhead).toNat)
  /-- A page that the host does not reach takes no write (R420, R422). -/
  | unreached {s fn i} (down : ¬ PageUp s fn) (access : PageAccess fn i) : Hosting i s (fun t => t = s)
  /-- A power cap outside 500 to 3,600 W is ignored (R370). -/
  | pwrcap {s} {v : Dword} : Hosting (.pwrcapWrite v) s (fun t =>
      (500 ≤ v.toNat % 2 ^ 12 ∧ v.toNat % 2 ^ 12 ≤ 3600 → t = { s with health := { s.health with pwrcap := v.toNat % 2 ^ 12 } }) ∧
      (¬ (500 ≤ v.toNat % 2 ^ 12 ∧ v.toNat % 2 ^ 12 ≤ 3600) → t = s))
  /-- A locked link end ignores writes until a reset (R171). -/
  | dlfw {s die peer} {v : Dword} (number : die < 4 ∧ peer < 4 ∧ die ≠ peer) : Hosting (.dlfwWrite die peer v) s (fun t =>
      ((getAt Dlfw.reset s.dlfw (die * 4 + peer)).locked = true → t = s) ∧
      ((getAt Dlfw.reset s.dlfw (die * 4 + peer)).locked = false → { t with dlfw := s.dlfw } = s ∧
        getAt Dlfw.reset t.dlfw (die * 4 + peer) =
          ⟨v.getLsbD 0, v.getLsbD 1, v.toNat / 16 % 4, (getAt Dlfw.reset s.dlfw (die * 4 + peer)).drops⟩ ∧
        ∀ k, k ≠ die * 4 + peer → getAt Dlfw.reset t.dlfw k = getAt Dlfw.reset s.dlfw k))
  /-- A value that an entry may not hold is ignored whole; of a class that becomes NA no L1 holds a line, nor does a slice but for pinned
  ones, and what was dirty is written back (R83, R87, R134; that lines leave at once is log 57). -/
  | rclass {s idx} {v : Word} (number : idx < 16) (fresh : ∀ e ∈ s.net, e.1 < s.nextId) : Hosting (.rclassWrite idx v) s (fun t =>
      (ClassAllowed v → WritesBack { s with classes := t.classes, l1 := t.l1, l2 := t.l2, replicas := t.replicas } t ∧
        classAt t idx = v &&& 0x07FFFFFF ∧ (∀ k, k ≠ idx → classAt t k = classAt s k) ∧
        (v.toNat / 2 ^ 19 % 4 ≠ 2 → t = { s with classes := t.classes }) ∧
        (v.toNat / 2 ^ 19 % 4 = 2 → (∀ e ∈ t.l1, e.2.cls ≠ idx) ∧ (∀ e ∈ t.replicas, e.2.cls ≠ idx) ∧
          ∀ e ∈ t.l2, e.2.cls = idx → ∀ p ∈ s.parts, p.2.slices.contains (e.1 / 2 ^ 45) = true →
            linePinned s p.1 (e.1 % 2 ^ 45) = true)) ∧
      (¬ ClassAllowed v → t = s))
  /-- The oldest entries of a die's log are freed (R383). -/
  | elogack {s die} {v : Dword} : Hosting (.elogackWrite die v) s (fun t => { t with logs := s.logs } = s ∧
      (getAt ErrorLog.empty t.logs die).entries = (getAt ErrorLog.empty s.logs die).entries.drop (v.toNat % 2 ^ 7) ∧
      (getAt ErrorLog.empty t.logs die).ovf = (getAt ErrorLog.empty s.logs die).ovf ∧
      (getAt ErrorLog.empty t.logs die).head = ((getAt ErrorLog.empty s.logs die).head +
        min (v.toNat % 2 ^ 7) (getAt ErrorLog.empty s.logs die).entries.length) % 64 ∧
      ∀ k, k ≠ die → getAt ErrorLog.empty t.logs k = getAt ErrorLog.empty s.logs k)
  | register {s r v} (made : FirmwareWrites s v r) :
      Hosting (.registerWrite r v) s (fun t => RegisterHolds t v r ∧ t.mem = s.mem ∧ t.groups = s.groups)
  | rangeKept {s part dom entry word1 v} (windows : ¬ WindowsClear s part dom (rangesWith s part dom entry word1 v)) :
      Hosting (.registerWrite (.range part dom entry word1) v) s (fun t => t = s)
  /-- A VF is bound once, to one domain of one partition, when the device is ready (R359). -/
  | bind {s fn part dom} (vf : 1 ≤ fn ∧ fn ≤ 255) (unbound : (fnAt s fn).bound = none) (ready : s.bringUp = 5) (dom' : dom < 4096)
      (formed : (partAt s part).dies ≠ []) (window : WindowClear (fnAt s fn).hwva (fnAt s fn).hwsize (domainAt s part dom).ranges) :
      Hosting (.vfBind fn part dom) s (fun t => { t with fns := s.fns } = s ∧ fnAt t fn = { fnAt s fn with bound := some (part, dom) } ∧
        ∀ k, k ≠ fn → fnAt t k = fnAt s k)
  /-- The end of a binding takes the function's graphs with it (R359; that is log 65). -/
  | release {s fn} (vf : 1 ≤ fn ∧ fn ≤ 255) : Hosting (.vfRelease fn) s (fun t => { t with fns := s.fns, graphs := s.graphs } = s ∧
      fnAt t fn = { fnAt s fn with bound := none, copy := none } ∧ (∀ k, k ≠ fn → fnAt t k = fnAt s k) ∧
      (∀ e ∈ t.graphs, e.1 / 2 ^ 16 ≠ fn) ∧ ∀ k, k / 2 ^ 16 ≠ fn → lookupAt t.graphs k = lookupAt s.graphs k)
  /-- A window is set over none of the range entries of its domain (R366). -/
  | window {s fn va size host} (clear : ∀ part dom, (fnAt s fn).bound = some (part, dom) →
        WindowClear (va % 2 ^ 27) (size % 2 ^ 16) (domainAt s part dom).ranges) :
      Hosting (.hostWindowSet fn va size host) s (fun t => { t with fns := s.fns } = s ∧
      fnAt t fn = { fnAt s fn with hwva := va % 2 ^ 27, hwsize := size % 2 ^ 16, hwhost := host % 2 ^ 43 })
  | communicator {s comm p rank} (number : comm < 4096) (rank' : rank < p) (devices : p ≤ 256) :
      Hosting (.communicatorSetup comm p rank) s (fun t => { t with comms := s.comms } = s ∧ commAt t comm = some ⟨p, rank, [], []⟩)

/-! The mapping service. -/

/-- The entry that translates an address at the size of a page stands at `a`, below pointers at `path` (R173). -/
def Tabled (s : State) (stack size loc a : Nat) (path : List Nat) : Prop :=
  let a1 := entryAt (tableBase s stack) loc 1
  let e1 := readPte s stack a1
  let a2 := entryAt (pteAddr e1) loc 2
  let e2 := readPte s stack a2
  isPointer e1 = true ∧
  ((size = 2 ^ 21 ∧ a = a2 ∧ path = [a1]) ∨ (size = 2 ^ 16 ∧ isPointer e2 = true ∧ a = entryAt (pteAddr e2) loc 3 ∧ path = [a1, a2]))

/-- The pages of a request with the places of their entries: no two share one, and none is a pointer of another's walk. -/
structure Tables (s : State) (stack size : Nat) (locs : List Nat) (at' : Nat → Nat) (path : Nat → List Nat) : Prop where
  tabled  : ∀ l ∈ locs, Tabled s stack size l (at' l) (path l)
  apart   : ∀ l ∈ locs, ∀ k ∈ locs, l ≠ k → at' l ≠ at' k
  leaves  : ∀ l ∈ locs, ∀ k ∈ locs, ∀ p ∈ path k, at' l ≠ p
  nodup   : locs.Nodup

/-- The request at the head of a partition's queue is done: it leaves, and its function's record or its group's s0 tells the status, zero
in s63, the group being outside the gate again (R176, R364). -/
structure MapDone (s t : State) (part : Nat) (r : MapReq) (status : Word) : Prop where
  queue  : (partAt t part).mapQueue = (partAt s part).mapQueue.drop 1
  record : ∀ f n, r.fn = some (f, n) → (fnAt t f).finished = (fnAt s f).finished ++ [⟨0, 4, status, r.tag, r.start, 0, none⟩]
  gate   : ∀ uid core slot g c rest, r.fn = none → r.gate = some uid → findGroup s uid = some (.resident core slot) →
    groupAt s core slot = some g → g.calls = c :: rest → 0 < c.nur → (∃ i ∈ g.live, (g.strand i).held = some .service) →
    ∃ g', groupAt t core slot = some g' ∧ (g'.sreg 0).val = status ∧ (g'.sreg 63).val = 0 ∧ g'.calls = rest ∧ g'.dom = c.dom ∧
      ∀ i < 8, (g'.strand i).pc = c.resume ∧ (g'.strand i).held = none

/-- The group that made a request in gate 0 is not saved: an answer to a saved group is recorded in its frame, in memory (R199). -/
def requesterHere (s : State) (r : MapReq) : Bool :=
  r.gate.all (fun uid => match findGroup s uid with
    | some (.saved _) => false
    | _ => true)

/-- A request at the head of the queue asks for an operation on pages that it may change (R176). -/
structure Asks (s : State) (part op : Nat) (r : MapReq) (rest : List MapReq) (stack : Nat) (locs : List Nat) : Prop where
  head   : (partAt s part).mapQueue = r :: rest
  op     : r.op.toNat = op
  target : r.target s part = some (stack, locs)
  here   : requesterHere s r = true

/-- The mapping service, page-in, unmaps and page retirement (R19, R176 to R178, R390, R391). -/
inductive Mapping : Instr → State → (State → Prop) → Prop
  /-- Owned pages at which nothing is parked are mapped: every address of the range leads to its physical byte with the class asked for
  (R176). -/
  | maps {s part r rest stack locs at' path} (ask : Asks s part 1 r rest stack locs)
      (phys : r.phys.toNat / 2 ^ 56 = stack) (owned : ∀ i < locs.length, r.physOk s stack (r.phys.toNat % 2 ^ 37 + i * r.pageSize) = true)
      (tables : Tables s stack r.pageSize locs at' path) (none' : parkedAt s stack locs r.pageSize = []) :
      Mapping (.map part) s (fun t => MapDone s t part r 0 ∧ ∀ i l, locs[i]? = some l → ∀ off < r.pageSize,
        walk t stack (l + off) = .leaf (r.phys.toNat % 2 ^ 37 + i * r.pageSize + off) r.cls r.pageSize)
  /-- A request whose pages its domain may not change is refused with a status that is not zero (R176). -/
  | refused {s part r rest} (head : (partAt s part).mapQueue = r :: rest) (op : r.op.toNat = 1) (denied : r.target s part = none)
      (here : requesterHere s r = true) :
      Mapping (.map part) s (fun t => t.mem = s.mem ∧ ∃ w, w ≠ 0 ∧ MapDone s t part r w)
  /-- Pages take another class; of one that becomes NA no L1 of the partition keeps a line (R83, R176). -/
  | setsClass {s part r rest stack locs at' path} (ask : Asks s part 3 r rest stack locs)
      (tables : Tables s stack r.pageSize locs at' path)
      (leaves : ∀ l ∈ locs, bitOf (readPte s stack (at' l)) 0 = true ∧ bitOf (readPte s stack (at' l)) 2 = true) :
      Mapping (.setClass part) s (fun t => MapDone s t part r 0 ∧
        (isNa s r.cls = true → ∀ e ∈ t.l1, e.1 / 2 ^ 45 ∈ (partAt s part).cores →
          linesIn (partAt s part) stack locs r.pageSize (e.1 % 2 ^ 45) = false) ∧ ∀ l ∈ locs,
        readPte t stack (at' l) / 2 ^ 3 % 16 = r.cls ∧ readPte t stack (at' l) % 2 ^ 3 = readPte s stack (at' l) % 2 ^ 3 ∧
        readPte t stack (at' l) / 2 ^ 7 = readPte s stack (at' l) / 2 ^ 7)
  | hides {s part r rest stack locs at' path} (ask : Asks s part 4 r rest stack locs)
      (tables : Tables s stack r.pageSize locs at' path)
      (leaves : ∀ l ∈ locs, bitOf (readPte s stack (at' l)) 0 = true ∧ bitOf (readPte s stack (at' l)) 2 = true) :
      Mapping (.markNotPresent part) s (fun t => MapDone s t part r 0 ∧ ∀ l ∈ locs, bitOf (readPte t stack (at' l)) 1 = false ∧
        ∀ k, k ≠ 1 → bitOf (readPte t stack (at' l)) k = bitOf (readPte s stack (at' l)) k)
  /-- Pages are present again; none of their accesses is parked. -/
  | shows {s part r rest stack locs at' path} (ask : Asks s part 5 r rest stack locs)
      (tables : Tables s stack r.pageSize locs at' path)
      (leaves : ∀ l ∈ locs, bitOf (readPte s stack (at' l)) 0 = true ∧ bitOf (readPte s stack (at' l)) 2 = true)
      (none' : parkedAt s stack locs r.pageSize = []) :
      Mapping (.markPresent part) s (fun t => MapDone s t part r 0 ∧ ∀ l ∈ locs, bitOf (readPte t stack (at' l)) 1 = true ∧
        ∀ k, k ≠ 1 → bitOf (readPte t stack (at' l)) k = bitOf (readPte s stack (at' l)) k)
  /-- A page-in is given up: what is parked at the page fails with KIND 4, that of an engine, a fetch or the sequencer at the agent, and the
  entry stays (R391; log 58). -/
  | abandons {s ia part p stack loc a e size} (only : s.parts = [(part, p)]) (home : homeStack p ia = some (stack, loc))
      (entry : endEntry s stack loc = (a, e, size)) (absent : bitOf e 0 = true ∧ bitOf e 1 = false) :
      Mapping (.pageInAbandon ia) s (fun t => t.mem = s.mem ∧
        ∀ x ∈ parkedAt s stack [loc] size, ∀ r, lookupAt s.net x.2 = some r → r.part = part →
          r.src.isOrphan = false →
          (r.kind.asked = false → Failed t x.2 r (some r)) ∧
          (r.kind.asked = true → lookupAt t.net x.2 = some { r with state := .failed }))
  /-- A block whose group has waited for a page is asked to leave (R178, R194). -/
  | waits {s core slot g bid b} (here : groupAt s core slot = some g) (block : g.block = some bid) (at' : blockAt s bid = some b)
      (late : pageWaitOver s g.uid = true) (new : b.preempt = .none) :
      Mapping (.pageInSave core slot) s (fun t => { t with blocks := s.blocks } = s ∧
          blockAt t bid = some { b with preempt := .polite s.dt })
  /-- An unmap with no pin in its range clears V, drops the lines and replicas, and notes the latest lease granted (R134, R177). -/
  | unmaps {s part r rest stack locs at' path} (ask : Asks s part 2 r rest stack locs)
      (new : (partAt s part).unmap = none) (free : pinHolders s part stack locs r.pageSize = [])
      (tables : Tables s stack r.pageSize locs at' path) (leaves : ∀ l ∈ locs, isPointer (readPte s stack (at' l)) = false) :
      Mapping (.unmap part) s (fun t => (∀ l ∈ locs, bitOf (readPte t stack (at' l)) 0 = false) ∧
        (∃ lease, (partAt t part).unmap = some ⟨r, s.dt, some lease⟩ ∧
          ∀ e ∈ s.leases, e.1 / 2 ^ 45 = part → linesIn (partAt s part) stack locs r.pageSize (e.1 % 2 ^ 45) = true → e.2 ≤ lease) ∧
        (∀ e ∈ t.l2, e ∈ s.l2 ∧ ((partAt s part).stacks.contains (e.1 / 2 ^ 45 / 16) = true →
          linesIn (partAt s part) stack locs r.pageSize (e.1 % 2 ^ 45) = false ∨ linePinned s part (e.1 % 2 ^ 45) = true)) ∧
        ∀ e ∈ t.replicas, e ∈ s.replicas ∧ ((partAt s part).stacks.contains (e.1 / 2 ^ 45 / 16) = true →
          linesIn (partAt s part) stack locs r.pageSize (e.1 % 2 ^ 45) = false))
  /-- With a pin in its range it waits, and nothing is unmapped. -/
  | pinned {s part r rest stack locs} (ask : Asks s part 2 r rest stack locs) (new : (partAt s part).unmap = none)
      (pins : pinHolders s part stack locs r.pageSize ≠ []) (whole : ∀ l ∈ locs, insideLeaf s stack l r.pageSize = false) :
      Mapping (.unmap part) s (fun t => { t with parts := s.parts } = s ∧
        partAt t part = { partAt s part with unmap := some ⟨r, s.dt, none⟩ })
  /-- A part of a larger page is not unmapped (log 22). -/
  | unmapPart {s part r rest stack locs l} (ask : Asks s part 2 r rest stack locs) (new : (partAt s part).unmap = none) (page : l ∈ locs)
      (inside : insideLeaf s stack l r.pageSize = true) :
      Mapping (.unmap part) s (fun t => t.mem = s.mem ∧ ∃ w, w ≠ 0 ∧ MapDone s t part r w)
  /-- It returns when every lease on its range is over (R177). -/
  | unmapDone {s part x lease} (unmap : (partAt s part).unmap = some x) (cleared : x.lease = some lease) (over' : lease + 4 ≤ s.dt)
      (here : requesterHere s x.req = true) :
      Mapping (.unmapReturn part) s (fun t => MapDone s t part x.req 0 ∧ (partAt t part).unmap = none ∧ t.mem = s.mem)
  /-- Blocks that keep pins for 2^20 ticks are saved (R390). -/
  | pinsLate {s part x stack locs} (unmap : (partAt s part).unmap = some x) (waits : x.lease = none)
      (target : x.req.target s part = some (stack, locs)) (late : x.since + 2 ^ 20 ≤ s.dt) :
      Mapping (.unmapPinTimeout part) s (fun t => { t with blocks := s.blocks } = s ∧
        (∀ k ∈ pinHolders s part stack locs x.req.pageSize, ∀ b, blockAt s k = some b → b.preempt = .none →
          blockAt t k = some { b with preempt := .polite s.dt }) ∧
        ∀ k, k ∉ pinHolders s part stack locs x.req.pageSize → blockAt t k = blockAt s k)
  /-- A page moves, once nothing that has found it is still on its way there: its bytes stand in the new page, and its entry points there
  (R19, R177; log 43). -/
  | retires {s ia stack pa part loc a e size} (mine : partOfDie s (dieOfStack stack) = some part)
      (home : homeStack (partAt s part) ia = some (stack, loc)) (entry : endEntry s stack loc = (a, e, size))
      (leaf : bitOf e 0 = true ∧ bitOf e 2 = true ∧ size < 2 ^ 30) (aligned : pa % size = 0) (exists' : pa / 2 ^ 21 < Config.rowCount)
      (new : pteAddr e / size * size ≠ pa) (quiet : pageQuiet s stack (pteAddr e / size * size) size = true)
          (outside : a + 8 ≤ pa ∨ pa + size ≤ a) :
      Mapping (.pageRetire ia stack pa) s (fun t =>
        (∀ i < size, readByte t.mem (physKey stack (pa + i)) = readByte s.mem (physKey stack (pteAddr e / size * size + i))) ∧
        readPte t stack a / 2 ^ 8 = pa / 2 ^ 8 ∧ readPte t stack a % 2 ^ 8 = e % 2 ^ 8)

/-! Pre-emption. -/

/-- A group outside its region, or without one, that runs: the hard stage stops it where it stands (R198). -/
def Simple (g : Group) : Prop := g.stop = .running ∧ (g.flash = none ∨ g.regionOpen = false)

/-- Pre-emption (R178, R191, R194, R198 to R201, R379, R380, R418). -/
inductive Preempting : Instr → State → (State → Prop) → Prop
  /-- A request begins a pre-emption, or joins one that has begun (R194). -/
  | request {s bid b} (here : blockAt s bid = some b) :
      Preempting (.politeRequest bid) s (fun t => { t with blocks := s.blocks } = s ∧
        blockAt t bid = some (if b.preempt = .none then { b with preempt := .polite s.dt } else b) ∧ ∀ k, k ≠ bid →
            blockAt t k = blockAt s k)
  | migration {s bid b} (here : blockAt s bid = some b) (late : b.placed + 1600000 ≤ s.dt) (new : b.preempt = .none) :
      Preempting (.thermalMigration bid) s (fun t => { t with blocks := s.blocks } = s ∧
        blockAt t bid = some { b with preempt := .polite s.dt })
  /-- POLITE ticks after the request, or once every group is parked and the sequencer has halted, the groups stop (R198). -/
  | hard {s bid b since} (here : blockAt s bid = some b) (polite : b.preempt = .polite since)
      (strikes : since + politeOf s b ≤ s.dt ∨ politeDone s bid b = true) (slots : b.slots.Nodup ∧ ∀ q ∈ b.slots, q < 32)
      (simple : ∀ q ∈ b.slots, ∀ g, groupAt s b.core q = some g → g.block = some bid → Simple g) :
      Preempting (.hardStage bid) s (fun t => { t with blocks := s.blocks, groups := s.groups } = s ∧
        (∃ w, blockAt t bid = some { b with preempt := .saving s.dt false w } ∧ (w = none ∨ w = some s.dt)) ∧
        ∀ q ∈ b.slots, ∀ g, groupAt s b.core q = some g → g.block = some bid → ∃ g', groupAt t b.core q = some g' ∧
          g'.stop = .saving none ∧ { g' with strands := g.strands, stop := g.stop } = g ∧
          ∀ i < 8, (g'.strand i).pc = (g.strand i).pc ∧ (g'.strand i).active = (g.strand i).active)
  /-- A group in an open region that is not parked is rewound: its strands stand at the pricking, or at the resume address, with the
  recorded masks; its registers are given up only with the frame (R198, R380). -/
  | rewinds {s bid b since q g f} (here : blockAt s bid = some b) (polite : b.preempt = .polite since)
      (strikes : since + politeOf s b ≤ s.dt) (slots : b.slots = [q]) (number : q < 32) (group : groupAt s b.core q = some g)
      (mine : g.block = some bid) (runs : g.stop = .running) (open' : g.regionOpen = true) (point : g.flash = some f)
      (busy : g.parked = false) (snaps : f.strands.length = 8) :
      Preempting (.hardStage bid) s (fun t => ∃ g', groupAt t b.core q = some g' ∧ g'.stop = .saving none ∧
        (∀ i x, f.strands[i]? = some x → (g'.strand i).pc = f.pricking.getD f.resume ∧ (g'.strand i).active = x.active ∧
          (g'.strand i).exited = x.exited ∧ (g'.strand i).lr = x.lr ∧ (g'.strand i).div = x.div ∧ (g'.strand i).loops = x.loops ∧
          (g'.strand i).held = none) ∧
        g'.v = g.v ∧ g'.s = g.s)
  /-- After its waits the frame is written, at 128 bytes a tick, where firmware has chosen a place for it: the block and its groups are gone
  from the core, and stand in the saved block; memory is as the frame's bytes leave it (R199, R204, R205). -/
  | saves {s bid b since late begun a} (here : blockAt s bid = some b) (saving : b.preempt = .saving since late (some begun))
      (ready : saveReady s bid b late = true) (slots : b.slots.Nodup ∧ ∀ q ∈ b.slots, q < 32)
      (time : begun + ((savedOf s bid b a).frameSize + 127) / 128 ≤ s.dt) (written : frameOk s b.core (savedOf s bid b a) = true) :
      Preempting (.contextSave bid (some a)) s (fun t => blockAt t bid = none ∧
        t.mem = (writeFrame s b.core (savedOf s bid b a)).mem ∧
        (∀ q ∈ b.slots, ∀ g, groupAt s b.core q = some g → g.block = some bid → groupAt t b.core q = none ∧
          (g.gid < 32 → ∃ x h, lookupAt t.saved bid = some x ∧ x.block = b ∧ h ∈ x.groups ∧ h.gid = g.gid)))
  /-- The ticks of writing begin when the waits are over (R199). -/
  | writes {s bid b since late at'} (here : blockAt s bid = some b) (saving : b.preempt = .saving since late none)
      (ready : saveReady s bid b late = true) :
      Preempting (.contextSave bid at') s (fun t => { t with blocks := s.blocks } = s ∧
        blockAt t bid = some { b with preempt := .saving since late (some s.dt) } ∧ ∀ k, k ≠ bid → blockAt t k = blockAt s k)
  /-- A frame that cannot be written: SAVEFAIL counts it, and the groups go on where they are (R380). -/
  | saveFails {s bid b since late begun} (here : blockAt s bid = some b) (saving : b.preempt = .saving since late (some begun))
      (ready : saveReady s bid b late = true) (kept : (coreAt s b.core).fencing = false) (slots : b.slots.Nodup ∧ ∀ q ∈ b.slots, q < 32)
      (simple : ∀ q ∈ b.slots, ∀ g, groupAt s b.core q = some g → g.block = some bid → g.stop = .saving none) :
      Preempting (.contextSave bid none) s (fun t => t.health.saveFail = min 65535 (s.health.saveFail + 1) ∧
        blockAt t bid = some { b with preempt := .none, kept := true } ∧
        ∀ q ∈ b.slots, ∀ g, groupAt s b.core q = some g → g.block = some bid → ∃ g', groupAt t b.core q = some g' ∧ g'.stop = .running ∧
          { g' with strands := g.strands, stop := g.stop } = g ∧ ∀ i < 8, (g'.strand i).pc = (g.strand i).pc)
  /-- Replies that are overdue 16,384 ticks after the save began hold it up no longer (R379). -/
  | late {s bid b since} (here : blockAt s bid = some b) (saving : b.preempt = .saving since false none) (late' : since + 16384 ≤ s.dt)
      (still : ∀ q ∈ b.slots, ∀ g, groupAt s b.core q = some g → g.block = some bid → g.stopped = true) :
      Preempting (.saveReplyTimeout bid) s (fun t => t.mem = s.mem ∧ (blockAt t bid).map Block.preempt = some (.saving since true none))
  /-- A saved block that heads the dispatcher's order appears on a core that it fits, with its scratchpad, its windows and its groups, which
  run; a barrier's phase that is complete is over, and memory changes at most in the frames of callers (R42, R182, R187, R200). -/
  | restores {s bid core x} (saved : lookupAt s.saved bid = some x) (ready : savedReady s x = true)
      (room : restorable s x core = true) (once : (partAt s x.part).placedAt ≠ some s.dt) (turn : placeFirst s x = false)
      (clean : x.clean s core = true) (whole : ∀ g ∈ x.groups, g.stop = .saving none) :
      Preempting (.restore bid core) s (fun t => lookupAt t.saved bid = none ∧ ((∀ g ∈ x.groups, g.calls = []) → t.mem = s.mem) ∧
        (partAt t x.part).placedAt = some s.dt ∧ ∃ b, blockAt t bid = some b ∧
        b.core = core ∧ b.scratch = x.block.scratch ∧ b.windows = x.block.windows ∧ b.engine = [] ∧
        (∀ n, let y := getAt Barrier.none x.block.bars n
          getAt Barrier.none b.bars n = y ∨ getAt Barrier.none b.bars n = ⟨y.phase + 1, 0, false⟩) ∧
        b.preempt = .none ∧ b.placed = s.dt ∧ b.slots.length = x.groups.length ∧
        ∀ (k : Nat) (g : Group), x.groups[k]? = some g → ∃ q g', b.slots[k]? = some q ∧ groupAt s core q = none ∧
            groupAt t core q = some g' ∧
          g'.stop = .running ∧ g'.dom = domReg s x.part g.dom.id ∧ g'.v = g.v ∧ g'.s = g.s ∧ g'.p = g.p ∧ g'.q = g.q ∧ g'.rh = g.rh ∧
          ∀ i < 8, (g'.strand i).active = (g.strand i).active ∧ ((g'.strand i).pc = (g.strand i).pc ∨
            ∃ n p w len a, (g.strand i).held = some (.barrier n p w len a) ∧ (g'.strand i).pc = ((g.strand i).advance len).pc))

/-! Setting up, resetting and keeping the part going. -/

/-- Everything of a partition that a reset clears (R425). -/
structure PartCleared (s t : State) (part : Nat) : Prop where
  groups   : ∀ core ∈ (partAt s part).cores, ∀ q < 64, groupAt t core q = none
  saved    : ∀ e ∈ t.saved, e.2.part ≠ part
  net      : ∀ e ∈ t.net, e.2.part ≠ part
  cmds     : ∀ e ∈ t.cmds, e.2.core ∉ (partAt s part).cores
  copies   : ∀ e ∈ t.l1, dieOfCore (e.1 / 2 ^ 45) ∉ (partAt s part).dies
  leases   : ∀ e ∈ t.leases, e.1 / 2 ^ 45 ≠ part
  modes    : ∀ k ∈ (partAt s part).stacks, ∀ p < 64, inCompute t k p = false
  unlocked : ∀ e ∈ t.dlfw, e.1 / 4 ∈ (partAt s part).dies → e.2.locked = false
  launches : ∀ l x, lookupAt s.launches l = some x → x.part = part → ∃ x', lookupAt t.launches l = some x' ∧ x'.done = true ∧
    x'.reset = true
  memory   : t.mem = s.mem

/-- The step of bring-up that comes next (R367). -/
def NextStep (s : State) (k : Nat) : Prop := s.bringUpFailed = none ∧ s.bringUp < 5 ∧ k = s.bringUp + 1

/-- Why firmware fences a core (R392, R424; that an hour is the 3,600 s before the second error is log 78). -/
inductive FenceReason (s : State) (core : Nat) : Prop
  /-- A path-delay monitor of the core is past its limit. -/
  | slow (i : Nat) (v : Word) (own : i < 4) (sample : s.monitors[4 * core + i]? = some v)
      (past : (Config.delayLimit (4 * core + i)).toNat < v.toNat)
  /-- A second uncorrectable error of its state arose within an hour. -/
  | errors (failing : (coreAt s core).failing = true)
  /-- Its copy of device time has been unsynchronised for 2^20 ticks. -/
  | skewed (since : Nat) (off : ⟨.core core, since⟩ ∈ s.unsync) (late : since + 2 ^ 20 ≤ s.dt)

/-- Bring-up, partitions, resets, health, links, slices and device time (R19, R85, R170, R358, R367 to R370, R389, R392, R420, R422 to
R425). -/
inductive Keeping : Instr → State → (State → Prop) → Prop
  /-- A step of bring-up succeeds: the image is measured at step 1, the link is up after step 4, memory is zero after step 5, which makes
  the device ready (R367, R368). -/
  | step {s k modules rate} (next : NextStep s k) (signed : k = 1 → s.imageSigned = true)
      (link : k = 4 → modules ∈ [1, 2, 4] ∧ 1 ≤ rate ∧ rate ≤ 4) :
      Keeping (.bringUpStep (.success modules rate)) s (fun t => t.bringUp = k ∧ t.bringUpFailed = none ∧
        (k = 1 → t.measured = s.image) ∧ (k = 4 → t.linkUp = true ∧ t.health.linkw = modules ∧ t.health.linkr = rate) ∧
        (k = 5 → ∀ a, readByte t.mem a = 0) ∧ (k ≠ 5 → t.mem = s.mem) ∧ (t.isReady = true ↔ k = 5))
  /-- A failing step stops bring-up; the report keeps the first failure (R422). -/
  | stepFails {s k code unit} (code' : 1 ≤ code ∧ code ≤ 3) (next : NextStep s k) (signed : k = 1 → s.imageSigned = true)
      (first : s.health.bstep = 0) :
      Keeping (.bringUpStep (.failure code unit)) s (fun t => t.bringUp = s.bringUp ∧ t.bringUpFailed = some k ∧
        t.health.bstep = k ∧ t.health.bcode = code ∧ t.health.bunit = unit % 256 ∧ t.isReady = false)
  | image {s image sig} (up : s.linkUp = true) :
      Keeping (.doeImageWrite image sig) s (fun t => t = { s with replacement := some (image, sig) })
  /-- The digest of the firmware measured at bring-up, the partitions, and for a VF its partition and domain, signed (R368). -/
  | measurement {s fn} (up : s.linkUp = true) : Keeping (.spdmMeasurement fn) s (fun t => { t with spdm := s.spdm, free := s.free } = s ∧
      ∃ x, t.spdm = some x ∧ x.digest = s.measured ∧ x.fn = fn ∧ (fn ≠ 0 → x.bound = (fnAt s fn).bound) ∧
        x.parts = s.parts.map (fun p => (p.1, p.2.dies)))
  /-- A permitted set of dies becomes a partition; the stacks that change partition are zero (R9, R170). -/
  | forms {s dies} (ready : s.bringUp = 5) (permitted : dies ∈ [[0], [1], [2], [3], [0, 1], [2, 3], [0, 1, 2, 3]])
      (idle : ∀ l ∈ s.launches, ∀ p ∈ s.parts, (∃ d ∈ p.2.dies, d ∈ dies) → p.1 ≠ l.2.part)
      (new : ∀ p ∈ s.parts, p.2.dies ≠ dies) :
      Keeping (.partitionSetup dies) s (fun t => (partAt t (dies.headD 0)).dies = dies ∧ (partAt t (dies.headD 0)).gen = 0 ∧
        (∀ d ∈ dies, ∀ k < 3, ∀ a < 2 ^ 37, readByte t.mem (physKey (3 * d + k) a) = 0) ∧
        (∀ core ∈ (partAt t (dies.headD 0)).cores, (coreAt t core).gen = 0) ∧
        ∀ e ∈ t.l1, dieOfCore (e.1 / 2 ^ 45) ∉ dies)
  /-- A group that firmware resets ends (R425). -/
  | groupReset {s core slot g} (here : groupAt s core slot = some g) (runs : g.stop = .running) (number : slot < 32)
      (clean : g.storeErr = none)
      (first : (lookupAt s.launches (launchOf s g)).map GraphLaunch.first = some none) :
      Keeping (.groupReset core slot) s (fun t => groupAt t core slot = none ∧ t.mem = s.mem ∧
        (lookupAt t.launches (launchOf s g)).map GraphLaunch.first = some (some 0x100))
  | partReset {s part} (formed : (partAt s part).dies ≠ []) : Keeping (.partitionReset part) s (fun t => PartCleared s t part)
  /-- A package reset: device time is 0, bring-up begins anew, and only the image, the fenced cores, with those that are being fenced, and
  the ageing history are kept (R424, R425; log 45). -/
  | packageReset {s} : Keeping .packageReset s (fun t => t.dt = 0 ∧ t.bringUp = 0 ∧ t.isReady = false ∧ t.linkUp = false ∧ t.groups = [] ∧
      t.blocks = [] ∧ t.launches = [] ∧ t.graphs = [] ∧ t.parts = [] ∧ t.domains = [] ∧ t.fns = [] ∧ t.net = [] ∧ t.l1 = [] ∧
      t.leases = [] ∧ t.hostMem = s.hostMem ∧ t.health.fenced = s.health.fenced ∧ t.health.eolh = s.health.eolh ∧
      t.health.pwrcap = 0xE10 ∧ t.health.tthr = 0x5F ∧ (∀ e ∈ t.cores, e.2.fencing = true ∧
        ∃ c, (e.1, c) ∈ s.cores ∧ e.2.fenced = c.fenced ∧ (c.fenced = true ∨ c.fencing = true)) ∧
      (∀ e ∈ s.cores, e.2.fenced = true ∨ e.2.fencing = true → ∃ c, (e.1, c) ∈ t.cores) ∧
      (s.replacement = none → t.image = s.image) ∧ ∀ i sig, s.replacement = some (i, sig) → t.image = i ∧ t.imageSigned = sig)
  /-- A compute die at 110 °C is powered down, its partition's launches say so, and the partition is reset (R423). -/
  | trip {s die part} (number : die < 4) (on : getAt false s.poweredDown die = false) (hot : 110 ≤ getAt 0 s.temps die)
      (mine : partOfDie s die = some part) :
      Keeping (.thermalTrip die) s (fun t => getAt false t.poweredDown die = true ∧ (∀ k, k ≠ die →
        getAt false t.poweredDown k = getAt false s.poweredDown k) ∧
        (∀ core ∈ (partAt s part).cores, ∀ q < 64, groupAt t core q = none) ∧
        ∀ l x, lookupAt s.launches l = some x → x.part = part → ∃ x', lookupAt t.launches l = some x' ∧ x'.done = true ∧ x'.thermal = true)
  | noTrip {s die} (cool : getAt 0 s.temps die < 110) : Keeping (.thermalTrip die) s (fun t => t = s)
  /-- TMAX is the temperature of the hottest die, and a die above the throttle temperature, or of a module above its power cap, is throttled
  (R369). -/
  | heat {s die temp} (number : die < 17) (range : temp < 256) :
      Keeping (.temperatureThrottle die temp) s (fun t => { t with temps := s.temps, health := s.health } = s ∧
        getAt 0 t.temps die = temp ∧ (isThrottled t die = true ↔ s.health.tthr < temp ∨ s.health.pwrcap < s.health.pwrnow) ∧
            temp ≤ t.health.tmax ∧
        (t.health.tmax = 0 ∨ ∃ e ∈ t.temps, e.2 = t.health.tmax))
  /-- All monitors, four a core and sixteen a die, are sampled (R8, R370). -/
  | sample {s} {values : List Word} (all : values.length = 4 * 192 + 16 * 17) :
      Keeping (.monitorSample values) s (fun t => t = { s with monitors := values })
  /-- The predicted end of life is published; below 1,000 hours the PF gets a message (R370). -/
  | endOfLife {s h lo hi} : Keeping (.eolPublish h lo hi) s (fun t => t.health.eolh = h ∧ t.health.eollo = lo ∧ t.health.eolhi = hi ∧
      (lo.toNat < 1000 → t.pfMessages = s.pfMessages + 1) ∧ (1000 ≤ lo.toNat → t.pfMessages = s.pfMessages))
  /-- A core without a block is fenced where there is a reason, and FENCED counts it (R424). -/
  | fences {s core} (number : core < 192) (reason : FenceReason s core) (new : (coreAt s core).fencing = false ∧
      (coreAt s core).fenced = false)
      (empty : blocksOn s core = []) :
      Keeping (.coreFence core []) s (fun t => (coreAt t core).fenced = true ∧ t.health.fenced = s.health.fenced + 1 ∧
        ∀ part, coreUsable t part core = false)
  /-- A core with blocks is no longer chosen, and its blocks are asked to leave. -/
  | fenceBegins {s core} (number : core < 192) (reason : FenceReason s core) (new : (coreAt s core).fencing = false)
      (busy : blocksOn s core ≠ []) :
      Keeping (.coreFence core []) s (fun t => (coreAt t core).fencing = true ∧ (∀ part, coreUsable t part core = false) ∧
        t.health.fenced = s.health.fenced ∧
        ∀ k b, (k, b) ∈ blocksOn s core → blockAt s k = some b → b.preempt = .none → blockAt t k = some { b with preempt := .polite s.dt })
  /-- A save that fails on such a core ends its block: SAVEFAIL counts it, and the launch reports STATUS bit 11 (R380, R424, R426). -/
  | fenceEnds {s core bid b r since late w l} (number : core < 192) (fencing : (coreAt s core).fencing = true)
      (here : blockAt s bid = some b) (core' : b.core = core) (saving : b.preempt = .saving since late w)
      (run : lookupAt s.runs b.run = some r) (launch : lookupAt s.launches r.graph = some l) :
      Keeping (.coreFence core [bid]) s (fun t => t.health.saveFail = min 65535 (s.health.saveFail + 1) ∧
        (lookupAt t.launches r.graph).map GraphLaunch.saveFail = some true)
  /-- Without a reason no core is fenced. -/
  | noFence {s core failed} (new : (coreAt s core).fencing = false) (sound : ¬ FenceReason s core) :
      Keeping (.coreFence core failed) s (fun t => t = s)
  /-- A replayed flit changes nothing (R420). -/
  | replay {s} : Keeping .flitReplay s (fun t => t = s)
  /-- A link goes down to retrain: no error is reported for that (R420). -/
  | retrain {s rate modules} (up : s.linkUp = true) :
      Keeping (.linkRetrain rate modules) s (fun t => t = { s with linkUp := false, retrain := some (s.dt, false) })
  /-- It comes up again at the same or a lower rate; one that is lost is tried again a second after the last try (R420; log 79). -/
  | retrained {s since lost rate modules} (down : s.linkUp = false) (retrains : s.retrain = some (since, lost))
      (try' : lost = true → since + 800000000 ≤ s.dt) (width : modules ∈ [1, 2, 4]) (rate' : 1 ≤ rate ∧ rate ≤ 4)
      (lower : rate ≤ s.health.linkr) :
      Keeping (.linkRetrain rate modules) s (fun t =>
        t = { s with linkUp := true, retrain := none, health := { s.health with linkw := modules, linkr := rate } })
  /-- The loss of a link that has retrained for a second in vain is reported once (R420). -/
  | lost {s since lost} (retrains : s.retrain = some (since, lost)) : Keeping .linkLost s (fun t =>
      (since + 800000000 ≤ s.dt → t = { s with retrain := some (s.dt, true), aer := if lost then s.aer else s.aer + 1 }) ∧
      (s.dt < since + 800000000 → t = s))
  | laneLoss {s port lane} (port' : port < 12) (lane' : lane < 8) :
      Keeping (.swetafinLaneLoss port lane) s (fun t => { t with lanes := s.lanes } = s ∧
        getAt 0 t.lanes port = getAt 0 s.lanes port ||| 2 ^ lane ∧ ∀ k, k ≠ port → getAt 0 t.lanes k = getAt 0 s.lanes k)
  /-- A slice without pinned lines leaves the map, every slice has written its dirty lines back, and every core of the partition has the
  next generation (R85, R389). -/
  | slice {s slice part} (mine : partOfDie s (dieOfSlice slice) = some part) (may : mayRetire s part slice = true) :
      Keeping (.sliceRetire slice) s (fun t => (partAt t part).retired = (partAt s part).retired ++ [slice] ∧
        slice ∉ (partAt t part).slices ∧ (partAt t part).gen = ((partAt s part).gen + 1) % 16 ∧
        (∀ core ∈ (partAt s part).cores, (coreAt t core).gen = ((partAt s part).gen + 1) % 16) ∧
        (∀ e ∈ t.replicas, e.1 / 2 ^ 45 ≠ slice) ∧
        (∀ e ∈ t.l2, (partAt s part).slices.contains (e.1 / 2 ^ 45) = true → e.2.dirty = false ∧ e.1 / 2 ^ 45 ≠ slice) ∧ t.mem = s.mem)
  /-- A copy of device time that is more than 2 ticks off is found at a check, and its core's L1 holds nothing (R392). -/
  | check {s n} (when : s.dt % 4096 = 0) (off : 2 < (getAt 0 s.skewCore n).natAbs) (new : isUnsync s (.core n) = false) :
      Keeping (.dtSyncCheck (.core n)) s (fun t => isUnsync t (.core n) = true ∧ (∀ e ∈ t.l1, e.1 / 2 ^ 45 ≠ n) ∧
        { t with unsync := s.unsync, l1 := s.l1 } = s)
  | checkSlice {s n} (when : s.dt % 4096 = 0) (off : 2 < (getAt 0 s.skewSlice n).natAbs) (new : isUnsync s (.slice n) = false) :
      Keeping (.dtSyncCheck (.slice n)) s (fun t => isUnsync t (.slice n) = true ∧ { t with unsync := s.unsync } = s)
  /-- The copy is reloaded: it equals the reference, and KIND 6 is logged (R392); one that is ahead stands still until then (R11; log 7). -/
  | reloadAhead {s copy} (off : isUnsync s copy = true) (ahead : 0 < skewOf s copy) (new : s.lagging.contains copy = false) :
      Keeping (.dtReload copy) s (fun t => t = { s with lagging := s.lagging ++ [copy] })
  | reload {s n} (off : isUnsync s (.core n) = true)
      (behind : getAt 0 s.skewCore n ≤ 0) : Keeping (.dtReload (.core n)) s (fun t => isUnsync t (.core n) = false ∧
      dtCore t n = s.dt ∧ Logged s t (sectorOfCore n) ⟨0, 0, n, 63, 6, s.dt⟩ ∧ t.mem = s.mem)
  | reloadSlice {s n} (off : isUnsync s (.slice n) = true)
      (behind : getAt 0 s.skewSlice n ≤ 0) : Keeping (.dtReload (.slice n)) s (fun t => isUnsync t (.slice n) = false ∧
      dtSlice t n = s.dt ∧ Logged s t (n / 16) ⟨0, 0, 0xFF, 63, 6, s.dt⟩ ∧ t.mem = s.mem)
  /-- A core whose copy has been off for 2^20 ticks is fenced (R392). -/
  | timeout {s n since} (off : ⟨.core n, since⟩ ∈ s.unsync) (late : since + 2 ^ 20 ≤ s.dt)
      (new : (coreAt s n).fencing = false ∧ (coreAt s n).fenced = false) (empty : blocksOn s n = []) :
      Keeping (.dtUnsyncTimeout (.core n)) s (fun t => (coreAt t n).fenced = true ∧ t.health.fenced = s.health.fenced + 1)

end Sys2Proof.Safety
end

