-- ==== Sys2Proof/Safety/Whole.lean ====
section
/-! DEFINITION. The terms of claims about the whole machine: what stays true of every state, the conditions that many instructions share
(R411), and the waits of a gang that may not issue. -/

namespace Sys2Proof.Safety

open Sys2Proof.Machine

/-! What every step keeps. -/

/-- The special registers of a group, or those that a call saved, hold legal values (R49): reserved bits are zero, and B8 is a format. -/
structure ModesOk (fpm fpf nfv cbwin gmode : Word) : Prop where
  fpm   : fpm &&& ~~~3 = 0
  fpf   : fpf &&& ~~~0x1F = 0
  nfv   : nfv &&& ~~~0x33F = 0 ∧ 0x20 ≤ (nfv &&& 0x3F).toNat ∧ (nfv &&& 0x3F).toNat ≤ 0x3B
  cbwin : cbwin &&& ~~~0xFFFC = 0
  gmode : gmode &&& ~~~7 = 0

def GroupModes (g : Group) : Prop :=
  ModesOk g.fpm g.fpf g.nfv g.cbwin g.gmode ∧ ∀ f ∈ g.calls, ModesOk f.fpm f.fpf f.nfv f.cbwin f.gmode

/-- A worklist's engine holds 4,096 entries before one stands in the spill area, where each has a place of its own (R300; log 67). -/
structure ListOk (l : WorkList) : Prop where
  store : l.entries.length ≤ 4096
  full  : l.places ≠ [] → l.entries.length = 4096
  apart : l.places.Nodup

/-- THE INVARIANT: memory and host memory keep their canonical form; the special registers of every resident and every saved group hold
legal values; a window's earlier setting is in force for two ticks at most; a worklist spills what exceeds its engine's store; and what is
under way has a number that was given out. -/
structure StateInv (s : State) : Prop where
  mem   : Memory.wf s.mem = true
  host  : Memory.wf s.hostMem = true
  modes : ∀ e ∈ s.groups, GroupModes e.2
  saved : ∀ e ∈ s.saved, ∀ g ∈ e.2.groups, GroupModes g
  windows : ∀ e ∈ s.blocks, ∀ w ∈ e.2.windows, SettlesBy w.2 s.dt
  savedWindows : ∀ e ∈ s.saved, ∀ w ∈ e.2.block.windows, SettlesBy w.2 s.dt
  lists : ∀ e ∈ s.runs, ∀ l ∈ e.2.lists, ListOk l
  net   : ∀ e ∈ s.net, e.1 < s.nextId
  replies : ∀ e ∈ s.replies, e.1 < s.nextId

/-! Conditions that instructions share (R411). -/

/-- Instructions whose only conditions are the shared ones. -/
def commonRow (i : Instr) : Option Needs :=
  (integerRow i).map LaneRow.needs <|> (moveRow i).map LaneRow.needs <|> (predRow i).map PredRow.needs <|> (uniRow i).map UniRow.needs <|>
    (qRow i).map QRow.needs <|> (unitRow i).map UnitRow.needs

/-- The instruction traps with a cause at its own address for a strand of its gang: its port is taken, and nothing else of it happens. -/
def TrapsWith (i : Instr) (n : Needs) (s : State) (core slot gang : Nat) (g : Group) (code : Nat) : Prop :=
  let c := issueCtx n s core slot gang g
  ∃ st ∈ c.is, exec i s = .next (takeTrap (issued s core slot g) core slot ⟨code, st, c.pc, 0⟩)

/-- Every register that the instruction reads has arrived (R56). -/
def SourcesFull (n : Needs) (g : Group) : Prop := (∀ r ∈ n.vsrc, (g.vreg r).full = true) ∧ ∀ r ∈ n.ssrc, (g.sreg r).full = true

/-- A source is dead, and DEADTRAP is set (R58, R375). -/
def DeadRead (n : Needs) (c : Ctx) : Prop := c.g.gmode.getLsbD 1 = true ∧ ∃ r ∈ n.vsrc, (c.g.vreg r).dead = true

/-- A source has a tag that the instruction does not accept (R53). -/
def TagWrong (n : Needs) (c : Ctx) : Prop := ∃ t ∈ n.tags, (c.g.vreg t.1).seenTag ∉ t.2

/-- A source is not yet readable, and GAPCHECK is set (R374). -/
def EarlyRead (n : Needs) (s : State) (c : Ctx) : Prop :=
  c.g.gmode.getLsbD 2 = true ∧
    ((∃ r ∈ n.vsrc, (c.g.vreg r).dead = false ∧ s.dt < (c.g.vreg r).readable) ∨ (∃ r ∈ n.ssrc, s.dt < (c.g.sreg r).ready) ∨
     (∃ r ∈ n.psrc ++ n.guard.toList, s.dt < (c.g.preg r).ready) ∨ ∃ r ∈ n.qsrc ++ n.qguard.toList, s.dt < (c.g.qreg r).ready)

/-- A loop's end lies within the instruction (R376). -/
def EndInside (n : Needs) (c : Ctx) : Prop :=
  ∃ i ∈ c.is, ∃ e t, (c.g.strand i).loops = e :: t ∧ c.pc.toNat < e.stop.toNat ∧ e.stop.toNat < c.pc.toNat + n.len

/-- A source is poisoned in an active lane (R384). -/
def PoisonRead (n : Needs) (c : Ctx) : Prop :=
  (∃ r ∈ n.vsrc, (c.g.vreg r).poison &&& c.act ≠ 0) ∨ ∃ r ∈ n.ssrc, (c.g.sreg r).poison = true

/-- The conditions in the order of R411: where it may execute, its registers, what has arrived, then the lowest code of the rest; here those
below 0x08. -/
structure InOrderFirst (i : Instr) (n : Needs) (s : State) (core slot gang : Nat) (g : Group) : Prop where
  alloc : ¬ Allocated n g → TrapsWith i n s core slot gang g 0x04
  empty : Allocated n g → ¬ SourcesFull n g →
    if g.gmode.getLsbD 0 = true then TrapsWith i n s core slot gang g 0x05 else exec i s = .next s
  busy  : Allocated n g → SourcesFull n g → ¬ Arrived n s g → exec i s = .next s
  dead  : Allocated n g → Arrived n s g → DeadRead n (issueCtx n s core slot gang g) → TrapsWith i n s core slot gang g 0x06
  tag   : Allocated n g → Arrived n s g → ¬ DeadRead n (issueCtx n s core slot gang g) → TagWrong n (issueCtx n s core slot gang g) →
    TrapsWith i n s core slot gang g 0x07

/-- And those below 0x0B. -/
structure InOrderNext (i : Instr) (n : Needs) (s : State) (core slot gang : Nat) (g : Group) : Prop extends
    InOrderFirst i n s core slot gang g where
  early : Allocated n g → Arrived n s g → ¬ DeadRead n (issueCtx n s core slot gang g) → ¬ TagWrong n (issueCtx n s core slot gang g) →
    EarlyRead n s (issueCtx n s core slot gang g) → TrapsWith i n s core slot gang g 0x08
  stop  : Allocated n g → Arrived n s g → ¬ DeadRead n (issueCtx n s core slot gang g) → ¬ TagWrong n (issueCtx n s core slot gang g) →
    ¬ EarlyRead n s (issueCtx n s core slot gang g) → EndInside n (issueCtx n s core slot gang g) → TrapsWith i n s core slot gang g 0x0A

/-- And poison, 0x0F. -/
structure InOrder (i : Instr) (n : Needs) (s : State) (core slot gang : Nat) (g : Group) : Prop extends
    InOrderNext i n s core slot gang g where
  clean : Allocated n g → Arrived n s g → ¬ DeadRead n (issueCtx n s core slot gang g) → ¬ TagWrong n (issueCtx n s core slot gang g) →
    ¬ EarlyRead n s (issueCtx n s core slot gang g) → ¬ EndInside n (issueCtx n s core slot gang g) →
    PoisonRead n (issueCtx n s core slot gang g) → TrapsWith i n s core slot gang g 0x0F

/-! Where instructions trap for conditions of their own. -/

/-- The instruction traps at its own address with a cause, for a strand and with a VA. -/
def TrapsAt (i : Instr) (n : Needs) (s : State) (core slot gang : Nat) (g : Group) (code strand va : Nat) : Prop :=
  exec i s = .next (takeTrap (issued s core slot g) core slot ⟨code, strand, (issueCtx n s core slot gang g).pc, BitVec.ofNat 64 va⟩)

/-- Accesses of lanes to global memory: the permissions they need, how many bytes, and where (R78, R260). -/
structure AccessRow where
  needs : Needs
  perms : Nat
  size  : Nat
  va    : Ctx → Nat → Nat

/-- Loads, stores, atomics and reductions. -/
def accessRow (i : Instr) : Option AccessRow :=
  (loadRow i).map (fun x => ⟨x.needs, permR, x.size, fun c l => addressOf c x.n x.a l⟩) <|>
  (storeRow i).map (fun x => ⟨x.needs, permW, x.size, x.va⟩) <|>
  (atomRow i).map (fun x => ⟨x.needs, permA + permR + permW, 4, fun c l => addressOf c x.n x.a l⟩) <|>
  (redRow i).map (fun x => ⟨x.needs, permA + permW, redSize x.op, fun c l => addressOf c x.n x.a l⟩)

def scratchRow (i : Instr) : Option ScratchRow := ldsRow i <|> stsRow i

/-- A lane is the lowest active one with a property. -/
def LowestLane (c : Ctx) (l : Nat) (P : Nat → Prop) : Prop := l ∈ c.lanes ∧ P l ∧ ∀ j ∈ c.lanes, j < l → ¬ P j

/-- A strand of the gang is the lowest one with a property. -/
def LowestStrand (c : Ctx) (i : Nat) (P : Nat → Prop) : Prop := i ∈ c.is ∧ P i ∧ ∀ j ∈ c.is, j < i → ¬ P j

/-- A lane's scratchpad access leaves its window. -/
def OutOfWindow (c : Ctx) (s : State) (n a size l : Nat) : Prop := (windowAt s c.g n c.dt).2 < (c.v a l).toNat + size

/-- It touches a granule of an engine, and DBGCTL of the core asks for a trap (R81, R387). -/
def EngineHolds (c : Ctx) (s : State) (n a size l : Nat) : Prop :=
  (coreAt s c.core).ownTrap = true ∧ ∃ b, blockOf s c.g = some b ∧ engineOwned b (windowPlace c s n a l) size = true

/-- The two-way branches: the needs. -/
def splitRow : Instr → Option Needs
  | .bra g p _ => some { gap := g, guard := some p.val }
  | .braS _ => some { len := 2, guard := some 0 }
  | _ => none

/-- The many-way branches whose targets registers give: the needs and the register. -/
def manyRow : Instr → Option (Needs × Nat)
  | .brx g p r => some ({ gap := g, guard := some p.val, vsrc := [r.val] }, r.val)
  | .callx g p r => some ({ gap := g, guard := some p.val, vsrc := [r.val] }, r.val)
  | _ => none

/-- The work-list instructions: the needs, the list and the kinds that the instruction takes. -/
def listRow : Instr → Option (Needs × Nat × List Nat)
  | .wlpush g p a w => some (listNeed g p [a] [] true, w.val, [0])
  | .wlins g p a w => some (listNeed g p [a, a + 1] [] true, w.val, [1])
  | .wlpop g p d w => some (listNeed g p [] [d, d + 1] true, w.val, [0, 1])
  | .wlcnt g p d w => some (listNeed g p [] [d] false, w.val, [0, 1])
  | _ => none

/-- The insertions among them. -/
def inserts : Instr → Bool
  | .wlpush .. => true
  | .wlins .. => true
  | _ => false

/-- The instructions of the access window: the needs, the selector's register, and whether a uniform register is moved. -/
def windowRow : Instr → Option (Needs × Nat × Bool)
  | .xrd g d u x => some (xrdNeeds g d u x, x.val, u)
  | .xwr g d u x => some (xwrNeeds g d u x, x.val, u)
  | _ => none

/-- An instruction that could issue meets a condition of its own: its cause, the strand and the VA. Of several lanes or strands the lowest
is reported (log 17). -/
inductive OwnTrap : Instr → Needs → Ctx → State → Nat → Nat → Nat → Prop
  /-- An access that R78 does not permit: the VA of its first byte that fails (R382). -/
  | denied {i x c s l va} (row : accessRow i = some x)
      (lane : LowestLane c l (fun k => rangeFail c.g.dom.ranges x.perms (x.va c k) x.size ≠ none))
      (byte : rangeFail c.g.dom.ranges x.perms (x.va c l) x.size = some va) : OwnTrap i x.needs c s 0x0C (l / 4) va
  /-- One that is permitted and not aligned (R382; log 18 for the VA). -/
  | unaligned {i x c s l} (row : accessRow i = some x) (may : ∀ k ∈ c.lanes, rangeFail c.g.dom.ranges x.perms (x.va c k) x.size = none)
      (lane : LowestLane c l (fun k => x.va c k % x.size ≠ 0)) : OwnTrap i x.needs c s 0x11 (l / 4) (misalignedVa c (x.va c l))
  /-- A scratchpad access outside its window (R80, R387). -/
  | outside {i x c s l} (row : scratchRow i = some x)
      (lane : LowestLane c l (OutOfWindow c s x.n x.a x.size)) : OwnTrap i x.needs c s 0x0D (l / 4) 0
  /-- One on a granule of an engine under DBGCTL.OWNTRAP. -/
  | owned {i x c s l} (row : scratchRow i = some x) (fits : ∀ k ∈ c.lanes, ¬ OutOfWindow c s x.n x.a x.size k)
      (lane : LowestLane c l (EngineHolds c s x.n x.a x.size)) : OwnTrap i x.needs c s 0x0E (l / 4) 0
  /-- One that is not aligned. -/
  | odd {i x c s l} (row : scratchRow i = some x) (fits : ∀ k ∈ c.lanes, ¬ OutOfWindow c s x.n x.a x.size k)
      (free : ∀ k ∈ c.lanes, ¬ EngineHolds c s x.n x.a x.size k) (lane : LowestLane c l (fun k => (c.v x.a k).toNat % x.size ≠ 0)) :
      OwnTrap i x.needs c s 0x11 (l / 4) 0
  /-- A constant-bank offset that is not a multiple of 4, or lies beyond the bank (R266). -/
  | bank {c s} {gap : Fin 4} {d a : Fin 64} {n : Fin 32} (bad : bankByte c a n % 4 ≠ 0 ∨ 65532 < bankByte c a n) :
      OwnTrap (.ldc gap d a n) (ldcNeeds gap a d) c s 0x1D c.low 0
  /-- A window that R267 does not allow (R387). -/
  | window {c s b} {gap : Fin 4} {w : Fin 16} {n : Fin 32} (block : blockOf s c.g = some b)
      (bad : ¬ WindowFits b (c.s (2 * n.val)).toNat (c.s (2 * n.val + 1)).toNat) : OwnTrap (.wset gap w n)
          (wsetNeeds gap n) c s 0x0D c.low 0
  /-- A task record outside R192 (R414). -/
  | task {c s} {gap : Fin 4} {n : Fin 64} (bad : ¬ TaskOk (c.s (n.val + 2))) : OwnTrap (.spawn gap n) (spawnNeeds gap n) c s 0x15 c.low 0
  /-- A strand that splits in two with its divergence stack full (R35, R376). -/
  | splits {i n c s k} (row : splitRow i = some n)
      (strand : LowestStrand c k (fun j => takingLanes c j (c.g.strand j) ≠ 0 ∧ takingLanes c j (c.g.strand j) ≠ partLanes (c.g.strand j) ∧
        4 ≤ (c.g.strand j).div.length)) : OwnTrap i n c s 0x09 k 0
  /-- One that goes to more targets than its stack has room for. -/
  | fans {i n r c s k} (row : manyRow i = some (n, r)) (strand : LowestStrand c k (fun j =>
        (manySplit c 4 j (laneTarget c r j) (c.g.strand j)).rest ≠ [] ∧
        4 < (manySplit c 4 j (laneTarget c r j) (c.g.strand j)).rest.length + (c.g.strand j).div.length)) : OwnTrap i n c s 0x09 k 0
  | table {c s k} {gap : Fin 4} {p : Fin 8} {r : Fin 64} {toff : Fin 4096} {w : Nat → Word} (read : ∀ l ∈ c.lanes,
      EntryIs c s r toff l (w l))
      (strand : LowestStrand c k (fun j =>
        (manySplit c 4 j (tableTargetOf c toff w j) (c.g.strand j)).rest ≠ [] ∧
        4 < (manySplit c 4 j (tableTargetOf c toff w j) (c.g.strand j)).rest.length + (c.g.strand j).div.length)) :
      OwnTrap (.jtab gap p r toff) { gap := gap, guard := some p.val, vsrc := [r.val] } c s 0x09 k 0
  /-- A loop whose body has no instruction, and a fifth nested loop (R37, R376). -/
  | empty {i x c s} (row : loopRow i = some x) (short : x.2.2 < 2) : OwnTrap i x.1 c s 0x0A c.low 0
  | deep {i x c s k} (row : loopRow i = some x) (body : 2 ≤ x.2.2) (enters : x.2.1 c ≠ 0)
      (strand : LowestStrand c k (fun j => 4 ≤ (c.g.strand j).loops.length)) : OwnTrap i x.1 c s 0x0A k 0
  /-- `pret` without a pricking that it ends (R376). -/
  | pret {c s} {gap : Fin 4} (none' : c.g.pricking = false) : OwnTrap (.pret gap) { gap := gap, zone := .block } c s 0x0A c.low 0
  /-- A list that the launch does not have, whose descriptor is bad, or of another kind (R414). -/
  | list {i n w kinds c s} (row : listRow i = some (n, w, kinds))
      (bad : ∀ l, listAt s c.g w = some l → l.bad = true ∨ l.kind ∉ kinds) : OwnTrap i n c s 0x15 c.low 0
  /-- Items that exceed what the list may still hold, once the group's earlier writes are done (R302, R378); and a spill area that the
  launch's domain may not use. -/
  | full {i n w kinds c s l} (row : listRow i = some (n, w, kinds)) (inserts : inserts i = true) (here : listAt s c.g w = some l)
      (sound : l.bad = false ∧ l.kind ∈ kinds) (keys : ∀ g' p a w', i = .wlins g' p a w' → ∀ k ∈ c.lanes, c.v (a.val + 1) k ≠ 0xFFFFFFFF)
      (fence : fenceHolds s c.core c.g 1 s.nextId = true) (more : 4096 + l.cap < l.entries.length + l.places.length + c.lanes.length) :
      OwnTrap i n c s 0x1C c.low 0
  | spill {i n w kinds c s l va} (row : listRow i = some (n, w, kinds)) (inserts : inserts i = true) (here : listAt s c.g w = some l)
      (sound : l.bad = false ∧ l.kind ∈ kinds) (keys : ∀ g' p a w', i = .wlins g' p a w' → ∀ k ∈ c.lanes, c.v (a.val + 1) k ≠ 0xFFFFFFFF)
      (fence : fenceHolds s c.core c.g 1 s.nextId = true) (fits : l.entries.length + l.places.length + c.lanes.length ≤ 4096 + l.cap)
      (beyond : 4096 < l.entries.length + l.places.length + c.lanes.length)
      (area : rangeFail (launchDomain s c.g).ranges (permR + permW) l.spill
        (8 * (l.entries.length + l.places.length + c.lanes.length - 4096)) = some va) : OwnTrap i n c s 0x1C c.low l.spill
  /-- The key that is reserved (R302). -/
  | key {c s l k} {gap : Fin 4} {p : Fin 8} {a : Fin 64} {w : Fin 4} (here : listAt s c.g w = some l) (sound : l.bad = false ∧ l.kind = 1)
      (lane : LowestLane c k (fun j => c.v (a.val + 1) j = 0xFFFFFFFF)) :
      OwnTrap (.wlins gap p a w) (listNeed gap p [a.val, a.val + 1] [] true) c s 0x15 (k / 4) 0
  /-- A selector that is not valid, or no group that the handler serves (R203, R414; log 20). -/
  | selector {i n x u c s} (row : windowRow i = some (n, x, u))
      (bad : ∀ q h, c.g.serves = some q → groupAt s c.core q = some h → selectorValid h u (c.s x) = false) : OwnTrap i n c s 0x1E c.low 0
  /-- `gcall` of a gate whose registers exceed the allocation, and a return where no call is open (R180, R396). -/
  | fits {c s bs} {gap : Fin 4} {k : Fin 65536} (read : gateRead s c.asker ((partOfCore s c.core).getD 0) k = .bytes bs)
      (valid : (GateEntry.ofBytes bs).valid = true)
      (beyond : c.g.nv < max (GateEntry.ofBytes bs).nva (GateEntry.ofBytes bs).nvr ∨
          c.g.ns < max (GateEntry.ofBytes bs).nua (GateEntry.ofBytes bs).nur) :
      OwnTrap (.gcall gap k) (gcallNeeds gap) c s 0x04 c.low 0
  | depth {i x c s} (row : leaveRow i = some x) (none' : c.g.calls = []) : OwnTrap i x.1 c s 0x17 c.low 0

/-- The copies between global memory and the scratchpad: their record's first register. -/
def copyRow : Instr → Option Nat
  | .cpyG2s _ _ _ n => some n.val
  | .cpyS2g _ _ _ n => some n.val
  | _ => none

/-- A copy's record that R296 does not allow: a length outside 4 to 458,752 bytes, or bits above the VA's 48. -/
def RecordOdd (c : Ctx) (k : Nat) : Prop :=
  (c.s (2 * k + 3)).toNat < 4 ∨ 458752 < (c.s (2 * k + 3)).toNat ∨ 2 ^ 16 ≤ (c.s (2 * k + 1)).toNat

/-- Instructions that R181, R203 and R415 refuse somewhere. -/
def zonedRow : Instr → Option Needs
  | .ffmaC g d a b _ => some { lane 4 g 0 [a, b] d with zone := .block }
  | .ldc g d a _ => some (ldcNeeds g a d)
  | .wset g _ n => some (wsetNeeds g n)
  | .barArr g _ => some (barNeed 4 g true)
  | .barWait g _ => some (barNeed 4 g false)
  | .spawn g n => some (spawnNeeds g n)
  | .gcall g _ => some (gcallNeeds g)
  | .fbp g _ _ _ => some { len := 12, gap := g, zone := .block }
  | .pret g => some { gap := g, zone := .block }
  | .xrd g d u x => some (xrdNeeds g d u x)
  | .xwr g d u x => some (xwrNeeds g d u x)
  | .wlpush g p a _ => some (listNeed g p [a] [] true)
  | .wlins g p a _ => some (listNeed g p [a, a + 1] [] true)
  | .wlpop g p d _ => some (listNeed g p [] [d, d + 1] true)
  | .wlcnt g p d _ => some (listNeed g p [] [d] false)
  | i => (ldsRow i).map ScratchRow.needs <|> (stsRow i).map ScratchRow.needs <|> (syncRow i).map Prod.fst <|> exitRow i <|>
      (unitRow i).map UnitRow.needs

/-- The cause of an instruction outside the places where it may execute. -/
def zoneCause (z : Zone) : Nat :=
  match z with
  | .handlerOnly => 0x1E
  | _ => 0x03

/-! TURNS OF THE AGENDA THAT ARE NO INSTRUCTION'S (log 4): caches, copies of device time, measurements, engines and bit errors. -/

/-- Only a group differs. -/
def GroupOnly (s t : State) (core slot : Nat) : Prop :=
  { t with groups := s.groups, cores := s.cores } = s ∧ ∀ k, k ≠ groupKey core slot → lookupAt t.groups k = lookupAt s.groups k

/-- An uncorrectable error in a core's state is remembered: a second one within an hour is a reason to fence the core (R424). -/
structure ErrorCounted (s t : State) (core : Nat) : Prop where
  others  : ∀ k, k ≠ core → coreAt t k = coreAt s k
  rest    : { coreAt t core with lastError := (coreAt s core).lastError, failing := (coreAt s core).failing } = coreAt s core
  last    : (coreAt t core).lastError = some s.dt
  failing : (coreAt t core).failing = true ↔
    (coreAt s core).failing = true ∨ ∃ d, (coreAt s core).lastError = some d ∧ s.dt ≤ d + Config.hour

/-- The offset of a copy of device time after the next tick (R11; log 7). -/
def nextSkew (s : State) (k : DtCopy) : Int := skewOf s k - (if s.lagging.contains k then 1 else 0)

/-- What a turn leaves that is neither a tick nor an instruction's or an event's. -/
inductive Turning : Turn → State → (State → Prop) → Prop
  /-- A copy leaves an L1, or a replica its slice (R82, R86, R87). -/
  | evict {s core line} : Turning (.evict core line) s (fun t => { t with l1 := s.l1 } = s ∧
      lookupAt t.l1 (core * 2 ^ 45 + line) = none ∧ ∀ k, k ≠ core * 2 ^ 45 + line → lookupAt t.l1 k = lookupAt s.l1 k)
  | dropReplica {s slice line} : Turning (.dropReplica slice line) s (fun t => { t with replicas := s.replicas } = s ∧
      lookupAt t.replicas (slice * 2 ^ 45 + line) = none ∧
      ∀ k, k ≠ slice * 2 ^ 45 + line → lookupAt t.replicas k = lookupAt s.replicas k)
  /-- A line leaves its home slice, written back where it was dirty; one that a sequencer has pinned stays (R87, R134). -/
  | evictL2 {s slice line part} (home : partOfDie s (dieOfSlice slice) = some part) (fresh : ∀ e ∈ s.net, e.1 < s.nextId) :
      Turning (.evictL2 slice line) s (fun t => (linePinned s part line = true → t = s) ∧
        (linePinned s part line = false → lookupAt t.l2 (slice * 2 ^ 45 + line) = none ∧ WritesBack { s with l2 := t.l2 } t ∧
          ∀ k, k ≠ slice * 2 ^ 45 + line → lookupAt t.l2 k = lookupAt s.l2 k))
  /-- A copy of device time gains a tick, or will not advance with the next one; those that are not unsynchronised keep within 4 ticks of
  each other and of the reference (R11, R392; log 7). -/
  | drift {s copy ahead} : Turning (.drift copy ahead) s (fun t =>
      { t with skewCore := s.skewCore, skewSlice := s.skewSlice, lagging := s.lagging } = s ∧
      (∀ k, k ≠ copy → skewOf t k = skewOf s k) ∧ (skewOf t copy = skewOf s copy ∨ ahead = true ∧ skewOf t copy = skewOf s copy + 1) ∧
      (t.lagging = s.lagging ∨ ahead = false ∧ t.lagging = s.lagging ++ [copy]) ∧
      (t ≠ s → isUnsync s copy = false → (nextSkew t copy).natAbs ≤ 4 ∧
        ∀ k, isUnsync s k = false → k ≠ copy → (nextSkew t copy - skewOf s k).natAbs ≤ 4 ∧
          (s.lagging.contains k = true → (nextSkew t copy - nextSkew s k).natAbs ≤ 4)))
  /-- A tick: device time advances by one everywhere but at a copy that does not advance with it, so that no copy moves backward (R11). -/
  | tick {s} (once : s.lagging.Nodup) : Turning .tick s (fun t => t.dt = s.dt + 1 ∧ t.mem = s.mem ∧ t.lagging = [] ∧
      ∀ k, t.dt + skewOf t k = s.dt + skewOf s k + (if s.lagging.contains k then 0 else 1))
  /-- PWRNOW takes a measured power (R370). -/
  | power {s watts} : Turning (.power watts) s (fun t => { t with health := s.health } = s ∧ t.health.pwrnow = watts % 4096 ∧
      { t.health with pwrnow := s.health.pwrnow } = s.health)
  /-- From now on reads leave as requests of their own, or are made in one step where nothing holds them up (R98; log 13). -/
  | ahead {s on} : Turning (.ahead on) s (fun t => t = { s with ahead := on })
  /-- A write of an engine command is performed at home before the others, and is its work no more (R98, R111). -/
  | engine {s n sel c sc po gw host w stack pa cls owner} (here : lookupAt s.cmds n = some c) (work : c.work = .writes sc po gw host)
      (this : gw[sel]? = some w) (direct : asked s (c.asker n) (c.part s) w.ia w.size (.put w.val w.mask) = none)
      (spot : engineSpot s n c (c.asker n) w.dom w.ia = .at stack pa cls owner)
      (sync : isUnsync s (.slice (homeSlice (partAt s (c.part s)) w.ia)) = false) :
      Turning (.engine n sel) s (fun t => MemoryWritten s t (physKey stack pa) w.size w.val w.mask ∧ t.groups = s.groups ∧
        t.blocks = s.blocks ∧ lookupAt t.l1 (l1Key c.core w.ia) = none ∧
        lookupAt t.cmds n = some { c with
          work := .writes sc po (gw.eraseIdx sel) host, maxT := max c.maxT (completesAt s (c.part s) w.ia cls) })
  /-- A single bit is corrected, and its die counts it (R394). -/
  | corrected {s die} : Turning (.upset (.corrected die)) s (fun t => { t with logs := s.logs } = s ∧
      (getAt ErrorLog.empty t.logs die).cecnt = min (2 ^ 32 - 1) ((getAt ErrorLog.empty s.logs die).cecnt + 1) ∧
      (getAt ErrorLog.empty t.logs die).entries = (getAt ErrorLog.empty s.logs die).entries ∧
      ∀ k, k ≠ die → getAt ErrorLog.empty t.logs k = getAt ErrorLog.empty s.logs k)
  /-- A word of a vector register is poisoned, and its other lanes stand (R384, R394). -/
  | vector {s core slot r lane g} (here : groupAt s core slot = some g) (alive : (g.vreg r).dead = false) (number : lane < 32) :
      Turning (.upset (.vreg core slot r lane)) s (fun t => GroupOnly s t core slot ∧ ErrorCounted s t core ∧
        ∃ g', groupAt t core slot = some g' ∧ { g' with v := g.v } = g ∧ (∀ k, k ≠ r → g'.vreg k = g.vreg k) ∧
          (∀ l < 32, (g'.vreg r).poison.getLsbD l = ((g.vreg r).poison.getLsbD l || l == lane)) ∧
          ∀ l < 32, l ≠ lane → laneOf (g'.vreg r).lanes l = laneOf (g.vreg r).lanes l)
  /-- A uniform register is poisoned. -/
  | uniform {s core slot r g} (here : groupAt s core slot = some g) : Turning (.upset (.sreg core slot r)) s (fun t =>
      GroupOnly s t core slot ∧ ErrorCounted s t core ∧
      ∃ g', groupAt t core slot = some g' ∧ { g' with s := g.s } = g ∧ (∀ k, k ≠ r → g'.sreg k = g.sreg k) ∧ (g'.sreg r).poison = true)
  /-- A group whose predicates, tags, stacks, flags or masks are damaged is gone (R373, R394). -/
  | control {s core slot g} (here : groupAt s core slot = some g) (own : slot ≠ handlerSlot) :
      Turning (.upset (.control core slot)) s (fun t => groupAt t core slot = none)
  /-- In the handler slot it is the group served that ends (R373, R394; log 77). -/
  | handler {s core q h g x} (here : groupAt s core handlerSlot = some h) (serves : h.serves = some q) (other : q ≠ handlerSlot)
      (served : groupAt s core q = some g) (stopped : g.stop = .served x) (call : g.calls = []) (group : x.strand ≠ 8) :
      Turning (.upset (.control core handlerSlot)) s (fun t => groupAt t core q = none ∧ t.mem = s.mem)
  /-- A word of a block's scratchpad is poisoned. -/
  | scratch {s bid w b} (here : blockAt s bid = some b) : Turning (.upset (.scratch bid w)) s (fun t =>
      { t with blocks := s.blocks, cores := s.cores } = s ∧ ErrorCounted s t b.core ∧ (∀ k, k ≠ bid → blockAt t k = blockAt s k) ∧
      ∃ b', blockAt t bid = some b' ∧ { b' with poison := b.poison } = b ∧ getAt false b'.poison w = true ∧
        ∀ k, k ≠ w → getAt false b'.poison k = getAt false b.poison k)
  /-- A column word of HBM is poisoned; what it held is not changed otherwise (R394). -/
  | hbm {s stack pa} : Turning (.upset (.hbm stack pa)) s (fun t => { t with memPoison := s.memPoison, covers := s.covers } = s ∧
      getAt false t.memPoison (physKey stack pa / 32) = true ∧
      ∀ k, k ≠ physKey stack pa / 32 → getAt false t.memPoison k = getAt false s.memPoison k)
  /-- A damaged word of a dirty line is written back poisoned, and the line's stack logs KIND 3 (R383, R394). -/
  | dirtyLine {s part ia x stack pa cls owner size} (line : lookupAt s.l2 (sliceKey (homeSlice (partAt s part) ia) ia) = some x)
      (place : homePlace s part 0 (ia / 32 * 32) = .at stack pa cls owner size) (dirty : x.dirty = true) :
      Turning (.upset (.dirtyLine part ia)) s (fun t => t.mem = s.mem ∧
        lookupAt t.l2 (sliceKey (homeSlice (partAt s part) ia) ia) = none ∧ getAt false t.memPoison (physKey stack pa / 32) = true ∧
        ∃ k, homeStack (partAt s part) ia = some k ∧ Logged s t k.1 ⟨ia, 0, 0xFF, 63, 3, s.dt⟩)
  /-- A line whose lease record is lost counts as leased until its home's device time + 2^16 (R393). -/
  | lease {s part ia} : Turning (.upset (.lease part ia)) s (fun t => { t with leases := s.leases } = s ∧
      getAt 0 t.leases (lineKey part ia) =
        max (getAt 0 s.leases (lineKey part ia)) (dtSlice s (homeSlice (partAt s part) ia) + 2 ^ 16) ∧
      ∀ k, k ≠ lineKey part ia → getAt 0 t.leases k = getAt 0 s.leases k)
  /-- A tile row and an accumulator element are poisoned (R394, R401). -/
  | tile {s core ctx n row x} (here : lookupAt s.seqs (core * 4 + ctx) = some x) : Turning (.upset (.tile core ctx n row)) s (fun t =>
      { t with seqs := s.seqs, cores := s.cores } = s ∧ ErrorCounted s t core ∧ ∃ x', lookupAt t.seqs (core * 4 + ctx) = some x' ∧
        { x' with tilePoison := x.tilePoison } = x ∧ getAt false x'.tilePoison (n * 64 + row) = true ∧
        ∀ k, k ≠ n * 64 + row → getAt false x'.tilePoison k = getAt false x.tilePoison k)
  | accumulator {s core ctx e x} (here : lookupAt s.seqs (core * 4 + ctx) = some x) : Turning (.upset (.acc core ctx e)) s (fun t =>
      { t with seqs := s.seqs, cores := s.cores } = s ∧ ErrorCounted s t core ∧ ∃ x', lookupAt t.seqs (core * 4 + ctx) = some x' ∧
        { x' with accPoison := x.accPoison } = x ∧ getAt false x'.accPoison e = true ∧
        ∀ k, k ≠ e → getAt false x'.accPoison k = getAt false x.accPoison k)
  /-- A register of a near-bank unit is damaged: a run that it carries out stops with an error mark (R394, R402). -/
  | unit {s bank r} (idle : runView s (nbuAt s bank) = none) : Turning (.upset (.nbu bank r)) s (fun t => { t with nbus := s.nbus } = s ∧
      getAt false (nbuAt t bank).poison r = true ∧ ∀ b, b ≠ bank → nbuAt t b = nbuAt s b)
  | run {s bank r v} (busy : runView s (nbuAt s bank) = some v) : Turning (.upset (.nbu bank r)) s (fun t =>
      (nbuAt t bank).cmd = none ∧ (lookupAt t.cmds v.id).map Cmd.err = some true)

/-! Gangs that may not issue. -/

/-- The gang has nothing to do now (R32, R41, R54, R93, R190, R400): no group is there, it does not run, no strand of the gang lives,
its port or a later one has issued in this tick, its block's sequencer has faulted, a strand of it is held back by a fence, a barrier, a
`yield` or the mapping service, or has issued in this tick. -/
def NoTurn (s : State) (core slot gang : Nat) : Prop :=
  groupAt s core slot = none ∨ ∃ g, groupAt s core slot = some g ∧
    (g.stop ≠ .running ∨ g.gangStrands gang = [] ∨ (∃ p ∈ (coreAt s core).portUsed, p < 4 ∧ portOf g slot ≤ p) ∨ seqFaulted s g = true ∨
      (∃ i ∈ g.gangStrands gang, ∃ h, (g.strand i).held = some h ∧ h ≠ .gather) ∨
      ∃ i ∈ g.gangStrands gang, ∃ t, (g.strand i).prev = some t ∧ s.dt ≤ t)

end Sys2Proof.Safety
end

