-- ==== Sys2Proof/Certificates/Slice0/Obligations.lean ====
section
/-! DEFINITION. The statements for the provers. -/

open Sys2Proof Sys2Proof.Machine Sys2Proof.Safety

/-! The lane and uniform instructions. -/

/-- R230 to R235, R214: each integer, logic and bit-field instruction completes and writes its result, tagged I32, to d in the active
lanes, readable two ticks later, and nothing else of the machine changes. -/
def Obligations.IntegerResults : Prop :=
  ∀ i x, integerRow i = some x → ∀ s core slot gang g, MayIssue x.needs s core slot gang g →
    WritesLane i x.needs s core slot gang g x.d x.lat x.tag x.value

/-- R235, R237, R246, R248, R252, R273, R214: moves, selection, immediates, tags, classes and shuffles complete and write d with the tag
that their rule gives; nothing else changes. -/
def Obligations.MoveResults : Prop :=
  ∀ i x, moveRow i = some x → ∀ s core slot gang g, MayIssue x.needs s core slot gang g →
    WritesLane i x.needs s core slot gang g x.d x.lat x.tag x.value

/-- R222, R236, R245, R45: a compare completes and writes its predicate in the active lanes under the combine rule; floating-point compares
raise NV; a write of p0 is discarded; nothing else changes. -/
def Obligations.CompareResults : Prop :=
  ∀ i x, predRow i = some x → ∀ s core slot gang g, MayIssue x.needs s core slot gang g →
    WritesPred i x.needs s core slot gang g x.x x.lat x.value x.flags

/-- R242 to R244, R247, R250, R251, R253, R255, R256: the floating-point, conversion and packed instructions complete, write d four ticks
later with its tag, and raise the flags of their active lanes; nothing else changes. -/
def Obligations.FloatResults : Prop :=
  ∀ i s x, floatRow s i = some x → ∀ core slot gang g, MayIssue x.needs s core slot gang g →
    x.also (issueCtx x.needs s core slot gang g) → WritesFloat i x.needs s core slot gang g x.d x.tag x.value

/-- R256, R257: `pack`, and `dot4` of integers, complete and write d without flags. -/
def Obligations.PackedResults : Prop :=
  ∀ i x, packRow i = some x → ∀ s core slot gang g, MayIssue x.1.needs s core slot gang g →
    x.2 (issueCtx x.1.needs s core slot gang g) → WritesLane i x.1.needs s core slot gang g x.1.d x.1.lat x.1.tag x.1.value

/-- R239, R215: a uniform instruction completes and writes its register, readable two ticks later, where its uniform predicate is true;
where it is false it writes nothing. -/
def Obligations.UniformResults : Prop :=
  ∀ i x, uniRow i = some x → ∀ s core slot gang g, MayIssue x.needs s core slot gang g →
    WritesUniform i x.needs s core slot gang g x.d x.value

/-- R240, R274: uniform compares and polls complete and write their uniform predicate; a write of q0 is discarded. -/
def Obligations.UniformPredicateResults : Prop :=
  ∀ i x, qRow i = some x → ∀ s core slot gang g, MayIssue x.needs s core slot gang g →
    WritesQ i x.needs s core slot gang g x.x x.lat x.writes x.value

/-- R56, R249, R275, R305: each function of one source (`frcp`, `frsq`, `fsqrt`, `fex2`, `flg2`, `fsinp`, `fcosp`, `ftanh`), each lane
reduction (`redaddF`, `redaddI`) and each sorted window (`isect`, `union`, `merge`) completes where R411 lets it issue: its destinations are
tagged and empty, and the results are on their way with the flags they will raise; the rest of the machine stands. -/
def Obligations.UnitResults : Prop :=
  ∀ i x, unitRow i = some x → ∀ s core slot gang g, MayIssue x.needs s core slot gang g →
    ∃ t, exec i s = .next t ∧ SentUnit x s t core slot gang g

/-- R274: `ballot` writes every active lane of its register with the mask of the lanes in which the predicate is true, and with no active
lane it writes nothing. -/
def Obligations.BallotResults : Prop :=
  ∀ (gap : Fin 4) (p : Fin 8) (d : Fin 64) (x : Fin 8) s core slot gang g,
      MayIssue { lane 4 gap p [] d with psrc := [x.val] } s core slot gang g →
    Ballots gap p d x s core slot gang g

/-! Memory. -/

/-- R56, R78, R97, R261: each load from global memory (`ld8z`, `ld8s`, `ld16z`, `ld16s`, `ld32`, `ldF32`, `ld64`, `ld128`) completes
where R411 lets it issue and its accesses pass the checks of R78 and R382: its destinations are tagged and empty, and each part of each
active lane is read from an unexpired copy of L1 or goes to its home; no memory and no other register changes. -/
def Obligations.LoadResults : Prop :=
  ∀ i x, loadRow i = some x → ∀ s core slot gang g, MayIssue x.needs s core slot gang g →
    (∀ l ∈ (issueCtx x.needs s core slot gang g).lanes, Granted (issueCtx x.needs s core slot gang g) permR x.size
      (addressOf (issueCtx x.needs s core slot gang g) x.n x.a l)) →
    ∃ t, exec i s = .next t ∧ Loaded x s t core slot gang g

/-- R88, R262, R264: a store whose accesses pass their checks completes: exactly the parts of the active lanes' stores go to their homes,
at the addresses, with the bits and the byte or bit enables that the rules give; the group keeps every register. -/
def Obligations.StoreResults : Prop :=
  ∀ i x, storeRow i = some x → ∀ s core slot gang g, MayIssue x.needs s core slot gang g →
    (∀ l ∈ (issueCtx x.needs s core slot gang g).lanes, Granted (issueCtx x.needs s core slot gang g) permW x.size
      (x.va (issueCtx x.needs s core slot gang g) l)) → Stores i x s core slot gang g

/-- R268, R269: an atomic whose accesses pass their checks completes: d is empty, the core's copies of the lines are gone, and each active
lane sends its operation to its home. -/
def Obligations.AtomicResults : Prop :=
  ∀ i x, atomRow i = some x → ∀ s core slot gang g, MayIssue x.needs s core slot gang g →
    (∀ l ∈ (issueCtx x.needs s core slot gang g).lanes, Granted (issueCtx x.needs s core slot gang g) (permA + permR + permW) 4
      (addressOf (issueCtx x.needs s core slot gang g) x.n x.a l)) → Atomics i x s core slot gang g

/-- R270: a reduction whose accesses pass their checks completes: it writes no register, the core's copies of the lines are gone, and
each active lane sends its reduction. -/
def Obligations.ReductionResults : Prop :=
  ∀ i x, redRow i = some x → ∀ s core slot gang g, MayIssue x.needs s core slot gang g →
    (∀ l ∈ (issueCtx x.needs s core slot gang g).lanes, Granted (issueCtx x.needs s core slot gang g) (permA + permW) (redSize x.op)
      (addressOf (issueCtx x.needs s core slot gang g) x.n x.a l)) → Reduces i x s core slot gang g

/-- R80, R81, R96, R265: scratchpad loads (`lds32`, `lds64`, `lds128`) and stores (`sts32`, `sts64`, `sts128`) within their windows
complete: a load reads the bytes of the block's scratchpad, a store changes exactly the bytes of its lanes, the highest lane's where
lanes overlap. -/
def Obligations.ScratchResults : Prop :=
  (∀ i x, ldsRow i = some x → ∀ s core slot gang g b, MayIssue x.needs s core slot gang g → blockOf s g = some b →
    (∀ l ∈ (issueCtx x.needs s core slot gang g).lanes, InWindow (issueCtx x.needs s core slot gang g) s b x.n x.a x.size l) →
    ∃ t, exec i s = .next t ∧ LoadedScratch x s t core slot gang g b) ∧
  ∀ i x, stsRow i = some x → ∀ s core slot gang g bid b, MayIssue x.needs s core slot gang g → g.block = some bid →
    blockAt s bid = some b →
    (∀ l ∈ (issueCtx x.needs s core slot gang g).lanes, InWindow (issueCtx x.needs s core slot gang g) s b x.n x.a x.size l) →
    StoresScratch i x s core slot gang g bid b

/-- R24: `ldc` reads the word of the constant bank at the byte offset of its uniform register plus its displacement, marks its destination
empty until the word arrives, and its word holds the displacement in words in the base field (bits 27 to 23) and zero in the guard field
(bits 10 to 8). -/
def Obligations.ConstantLoad : Prop :=
  (∀ (gap : Fin 4) (d a : Fin 64) (n : Fin 32) s core slot gang g,
    MayIssue (ldcNeeds gap a d) s core slot gang g →
    bankByte (issueCtx (ldcNeeds gap a d) s core slot gang g) a n % 4 = 0 →
    bankByte (issueCtx (ldcNeeds gap a d) s core slot gang g) a n ≤ 65532 →
    LoadsConstant gap d a n s core slot gang g) ∧
  ∀ (gap : Fin 4) (d a : Fin 64) (n : Fin 32), encode (.ldc gap d a n) / 2 ^ 23 % 32 = n ∧ encode (.ldc gap d a n) / 2 ^ 8 % 8 = 0

/-- R28, R80, R267: `wset` defines its window from its uniform pair, s(P) the base and s(P+1) the extent, for accesses from two ticks
later on; until then the earlier window stands, and every other window stands. -/
def Obligations.WindowSet : Prop :=
  (∀ (gap : Fin 4) (w : Fin 16) (n : Fin 32) s core slot gang g bid b, MayIssue (wsetNeeds gap n) s core slot gang g → g.block = some bid →
    blockAt s bid = some b →
    WindowFits b ((issueCtx (wsetNeeds gap n) s core slot gang g).s (2 * n.val)).toNat
      ((issueCtx (wsetNeeds gap n) s core slot gang g).s (2 * n.val + 1)).toNat →
    SettlesBy (getAt Window.none b.windows w) s.dt → SetsWindow gap w n s core slot gang g bid b) ∧
  ∀ (gap : Fin 4) (w : Fin 16) (n : Fin 32), encode (.wset gap w n) / 2 ^ 11 % 64 = w.val

/-! The rest of the core stream. -/

/-- R48 to R50, R283: `getsr` and `setsr` complete for every special register of Table 4.2, once the flags have landed where FPF is
named: a read gives the register's value in each lane or once, where no early read traps (R374), and a write sets what may be written. -/
def Obligations.SpecialRegisters : Prop :=
  (∀ (gap : Fin 4) (p : Fin 8) (d : Fin 64) (k : Fin 512) s core slot gang g, k.val ≤ 15 → k.val ≠ 7 → (k.val = 9 → FlagsLanded s g) →
    (MayIssue (getsrNeeds gap p d false k) s core slot gang g →
      SpecialReadable (issueCtx (getsrNeeds gap p d false k) s core slot gang g) k →
      ReadsToLanes (.getsr gap p d false k) (getsrNeeds gap p d false k) s core slot gang g d k) ∧
    (MayIssue (getsrNeeds gap p d true k) s core slot gang g →
      SpecialReadable (issueCtx (getsrNeeds gap p d true k) s core slot gang g) k →
      ReadsToUniform (.getsr gap p d true k) (getsrNeeds gap p d true k) s core slot gang g d k)) ∧
  ∀ (gap : Fin 4) (x : Fin 64) (k : Fin 512) s core slot gang g, (k.val = 9 → FlagsLanded s g) →
    (MayIssue (setsrNeeds gap x false) s core slot gang g →
      SetsSpecial (.setsr gap x false k) (setsrNeeds gap x false) s core slot gang g k (fun c => (c.lanes.head?).map (c.v x))) ∧
    (MayIssue (setsrNeeds gap x true) s core slot gang g →
      SetsSpecial (.setsr gap x true k) (setsrNeeds gap x true) s core slot gang g k (fun c => some (c.s x)))

/-- R54, R57, R58, R279, R385: `dead` makes its registers dead, `nop` adds its ticks, and `waitf` goes on once its flags count zero and
carry no error mark; a marked flag raises 0x10 and clears. -/
def Obligations.WaitsAndMarks : Prop :=
  (∀ i x, deadRow i = some x → ∀ s core slot gang g, MayIssue x.1 s core slot gang g →
    Completes i x.1 s core slot gang g (fun _ g' => Killed g g' x.2)) ∧
  (∀ i x, nopRow i = some x → ∀ s core slot gang g, MayIssue x.1 s core slot gang g → Idles i x.1 s core slot gang g x.2) ∧
  ∀ i x, waitfRow i = some x → ∀ s core slot gang g, MayIssue x.1 s core slot gang g → CountsZero g x.2 →
    (g.flagErr &&& BitVec.ofNat 12 x.2 = 0 → Completes i x.1 s core slot gang g (fun _ g' => Untouched g g')) ∧
    (g.flagErr &&& BitVec.ofNat 12 x.2 ≠ 0 → HandlerFree s core slot g →
      ∃ t g' h, exec i s = .next t ∧ groupAt t core slot = some g' ∧ groupAt t core handlerSlot = some h ∧
        g'.stop = .served ⟨0x10, (issueCtx x.1 s core slot gang g).low, (issueCtx x.1 s core slot gang g).pc, 0⟩ ∧
        { g' with stop := g.stop, flagErr := g.flagErr } = g ∧ g'.flagErr = g.flagErr &&& ~~~(BitVec.ofNat 12 x.2) ∧
        Serving h slot g.dom ⟨0x10, (issueCtx x.1 s core slot gang g).low, (issueCtx x.1 s core slot gang g).pc, 0⟩)

/-- R22, R35 to R37, R277, R278, R376: the branches and `join` complete: each strand moves to its target, parts its lanes on the divergence
stack, or takes the next path from it; registers and the other strands stand. A strand that needs more of its stack than is free traps with
0x09, and so does the gang. That `jtab` counts the offset of its table upward is log 53. -/
def Obligations.BranchResults : Prop :=
  (∀ (gap : Fin 4) (p : Fin 8) (o : Fin 262144) s core slot gang g, MayIssue { gap := gap.val, guard := some p } s core slot gang g →
    RoomForTwo (issueCtx { gap := gap.val, guard := some p } s core slot gang g) g →
    Branches (.bra gap p o) { gap := gap, guard := some p.val } s core slot gang g
      (fun c i t t' => TwoWay c 4 (offsetTarget c.pc 18 o) i t t')) ∧
  (∀ (o : Fin 1024) s core slot gang g, MayIssue { len := 2, guard := some 0 } s core slot gang g →
    RoomForTwo (issueCtx { len := 2, guard := some 0 } s core slot gang g) g →
    Branches (.braS o) { len := 2, guard := some 0 } s core slot gang g (fun c i t t' => TwoWay c 2 (offsetTarget c.pc 10 o) i t t')) ∧
  (∀ (gap q : Fin 4) (o : Fin 262144) s core slot gang g, MayIssue { gap := gap.val, qguard := some q } s core slot gang g →
    Branches (.braQ gap q o) { gap := gap, qguard := some q.val } s core slot gang g (fun c _ t t' =>
      JumpsTo t t' 4 c.q (if c.q then offsetTarget c.pc 18 o else c.pc + 4) ∧ t'.active = t.active ∧ t'.div = t.div ∧ KeepsLr t t')) ∧
  (∀ (gap : Fin 4) (p : Fin 8) (r : Fin 64) s core slot gang g,
      MayIssue { gap := gap.val, guard := some p, vsrc := [r.val] } s core slot gang g →
    let c := issueCtx { gap := gap.val, guard := some p, vsrc := [r.val] } s core slot gang g
    RoomForMany c g 4 (laneTarget c r) →
    Branches (.brx gap p r) { gap := gap, guard := some p.val, vsrc := [r.val] } s core slot gang g
      (fun c i t t' => ManyWay c 4 true i (laneTarget c r i) t t' ∧ KeepsLr t t')) ∧
  (∀ (gap : Fin 4) (p : Fin 8) (r : Fin 64) (toff : Fin 4096) s core slot gang g w,
      MayIssue { gap := gap.val, guard := some p, vsrc := [r.val] } s core slot gang g →
    let c := issueCtx { gap := gap.val, guard := some p, vsrc := [r.val] } s core slot gang g
    (∀ l ∈ c.lanes, EntryIs c s r toff l (w l)) → RoomForMany c g 4 (tableTargetOf c toff w) →
    Branches (.jtab gap p r toff) { gap := gap, guard := some p.val, vsrc := [r.val] } s core slot gang g
      (fun c i t t' => ManyWay c 4 true i (tableTargetOf c toff w i) t t' ∧ KeepsLr t t')) ∧
  (∀ (gap : Fin 4) s core slot gang g, MayIssue { gap := gap.val } s core slot gang g →
    Branches (.join gap) { gap := gap } s core slot gang g (fun _ _ t t' => Joins 4 t t')) ∧
  (∀ s core slot gang g, MayIssue { len := 2 } s core slot gang g →
    Branches .joinS { len := 2 } s core slot gang g (fun _ _ t t' => Joins 2 t t')) ∧
  ∀ i n s core slot gang g k, MayIssue n s core slot gang g → OwnTrap i n (issueCtx n s core slot gang g) s 0x09 k 0 →
    TrapsAt i n s core slot gang g 0x09 k 0

/-- R39, R277: `call` and `callx` write the address of the following instruction to the strand's LR and branch; `ret` goes to LR, where no
early read of it traps (R374). LR is a register of the strand, so that its lanes share it. -/
def Obligations.CallsAndReturns : Prop :=
  (∀ (gap : Fin 4) (o : Fin 262144) s core slot gang g, MayIssue { gap := gap.val } s core slot gang g →
    Branches (.call gap o) { gap := gap } s core slot gang g (fun c _ t t' =>
      JumpsTo t t' 4 false (offsetTarget c.pc 18 o) ∧ Links t' (linkOf c 4) ∧ t'.active = t.active ∧ t'.div = t.div)) ∧
  (∀ (gap : Fin 4) (p : Fin 8) (r : Fin 64) s core slot gang g,
      MayIssue { gap := gap.val, guard := some p, vsrc := [r.val] } s core slot gang g →
    let c := issueCtx { gap := gap.val, guard := some p, vsrc := [r.val] } s core slot gang g
    RoomForMany c g 4 (laneTarget c r) →
    Branches (.callx gap p r) { gap := gap, guard := some p.val, vsrc := [r.val] } s core slot gang g
      (fun c i t t' => ManyWay c 4 false i (laneTarget c r i) t t' ∧
        (takingLanes c i t = 0 → KeepsLr t t') ∧ (takingLanes c i t ≠ 0 → Links t' (linkOf c 4)))) ∧
  (∀ (gap : Fin 4) s core slot gang g, MayIssue { gap := gap.val } s core slot gang g →
    LrReadable (issueCtx { gap := gap.val } s core slot gang g) →
    Branches (.ret gap) { gap := gap } s core slot gang g (fun c i t t' =>
      JumpsTo t t' 4 false (returnTo c i t) ∧ KeepsLr t t' ∧ t'.active = t.active ∧ t'.div = t.div)) ∧
  ∀ s core slot gang g, MayIssue { len := 2 } s core slot gang g → LrReadable (issueCtx { len := 2 } s core slot gang g) →
    Branches .compactRet { len := 2 } s core slot gang g (fun c i t t' =>
      JumpsTo t t' 2 false (returnTo c i t) ∧ KeepsLr t t' ∧ t'.active = t.active ∧ t'.div = t.div)

/-- R37, R280, R376: a loop instruction enters its loop, or passes over it where its count is zero; `lbrk` leaves the innermost loop. A
fifth push and an end offset below 2 trap with 0x0A. The address behind a loop's end passes the literal words of an `ffma.l` or `fbp`
that stands there (log 54) and has bit 0 clear (log 55). -/
def Obligations.Loops : Prop :=
  (∀ i x, loopRow i = some x → ∀ s core slot gang g, MayIssue x.1 s core slot gang g → 2 ≤ x.2.2 →
    (x.2.1 (issueCtx x.1 s core slot gang g) ≠ 0 →
      (∀ j ∈ (issueCtx x.1 s core slot gang g).is, (g.strand j).loops.length < 4) →
      EntersLoop i x.1 s core slot gang g x.2.1 x.2.2) ∧
    (∀ b, x.2.1 (issueCtx x.1 s core slot gang g) = 0 →
      EndReads (issueCtx x.1 s core slot gang g) s (bodyEnd (issueCtx x.1 s core slot gang g) x.2.2) b →
      SkipsLoop i x.1 s core slot gang g x.2.2 b)) ∧
  (∀ (gap : Fin 4) s core slot gang g first, MayIssue { gap := gap.val } s core slot gang g →
    (∀ j ∈ (issueCtx { gap := gap.val } s core slot gang g).is, ∀ e t, (g.strand j).loops = e :: t →
      EndReads (issueCtx { gap := gap.val } s core slot gang g) s e.stop (first j)) →
    LeavesLoop gap s core slot gang g first) ∧
  ∀ i x s core slot gang g k, loopRow i = some x → MayIssue x.1 s core slot gang g →
    OwnTrap i x.1 (issueCtx x.1 s core slot gang g) s 0x0A k 0 → TrapsAt i x.1 s core slot gang g 0x0A k 0

/-- R34, R196, R197, R376: `regang`, `fbp`, `gret` and `gabort` hold a gang until the whole group has come; held addresses that differ raise
0x09 for the lowest strand, and all stay held. `regang` of the last gang joins the group; `fbp` of the last gang records the flashback point
and opens its region, once the registers of its mask are full, and until then it is held too; `pret` resumes at that point, and traps with
0x0A where no pricking is pending. The offset of a pricking routine counts upward (log 53), and the point keeps which barriers the group's
strands have waited for (log 35). -/
def Obligations.Gathering : Prop :=
  (∀ i n, gatherRow i = some n → ∀ s core slot gang g, MayIssue n s core slot gang g → (leaveRow i ≠ none → g.calls ≠ []) →
    ((∃ j ∈ g.live, j ∉ (issueCtx n s core slot gang g).is ∧ (g.strand j).held ≠ some .gather) → HoldsGang i n s core slot gang g) ∧
    (AllCome (issueCtx n s core slot gang g) → ¬ OneAddress (issueCtx n s core slot gang g) →
      (∃ j ∈ (issueCtx n s core slot gang g).is, (g.strand j).held = none) → HandlerFree s core slot g →
      GatherStops i s core slot g ⟨0x09, g.live.headD 0, (g.strand (g.live.headD 0)).pc, 0⟩ (some .gather))) ∧
  (∀ i n, regangRow i = some n → ∀ s core slot gang g, MayIssue n s core slot gang g → LastToGather (issueCtx n s core slot gang g) →
    Regangs i n s core slot gang g) ∧
  (∀ (gap : Fin 4) (i : Fin 65536) (lo hi : Word) s core slot gang g,
      MayIssue { len := 12, gap := gap.val, zone := .block } s core slot gang g →
    LastToGather (issueCtx { len := 12, gap := gap.val, zone := .block } s core slot gang g) →
    ((∀ r < 64, (hi ++ lo : BitVec 64).getLsbD r = true → (g.vreg r).full = true) →
      RecordsPoint gap i lo hi { len := 12, gap := gap, zone := .block } s core slot gang g) ∧
    (∀ r < 64, (hi ++ lo : BitVec 64).getLsbD r = true → (g.vreg r).full = false →
      (∃ j ∈ (issueCtx { len := 12, gap := gap.val, zone := .block } s core slot gang g).is, (g.strand j).held = none) →
      HoldsGang (.fbp gap i lo hi) { len := 12, gap := gap, zone := .block } s core slot gang g)) ∧
  ∀ (gap : Fin 4) s core slot gang g, MayIssue { gap := gap.val, zone := .block } s core slot gang g →
    (∀ f, g.pricking = true → g.flash = some f → ReturnsPricking gap { gap := gap, zone := .block } s core slot gang g f) ∧
    (g.pricking = false → TrapsAt (.pret gap) { gap := gap, zone := .block } s core slot gang g 0x0A
      (issueCtx { gap := gap.val, zone := .block } s core slot gang g).low 0)

/-- R41, R42, R99, R100: a fence holds its gang until what the group issued before is done; the barrier instructions arrive, wait, or do
both, and a strand for which the phase is over goes on. When an arrival is no longer pending is log 35. -/
def Obligations.FencesAndBarriers : Prop :=
  (∀ i x, fenceRow i = some x → ∀ s core slot gang g, MayIssue x.1 s core slot gang g → Fences i x.1 s core slot gang g x.2) ∧
  (∀ (gap : Fin 4) (k : Fin 16) s core slot gang g, MayIssue (barNeed 4 gap true) s core slot gang g → NotArrived s g k →
    ArrivesOnly gap k s core slot gang g) ∧
  (∀ (gap : Fin 4) (k : Fin 16) s core slot gang g, MayIssue (barNeed 4 gap false) s core slot gang g →
    WaitsAt (.barWait gap k) (barNeed 4 gap false) k s core slot gang g) ∧
  ∀ i x, syncRow i = some x → ∀ s core slot gang g, MayIssue x.1 s core slot gang g →
    ((∃ j ∈ (issueCtx x.1 s core slot gang g).is, (g.strand j).waitOnly = false) → NotArrived s g x.2 →
      ArrivesAndWaits i x.1 x.2 s core slot gang g) ∧
    ((∀ j ∈ (issueCtx x.1 s core slot gang g).is, (g.strand j).waitOnly = true) → WaitsAt i x.1 x.2 s core slot gang g)

/-- R202, R282: `trap` and `brk` with an active lane retire and raise their cause, which a free handler slot serves at once; with no active
lane they do nothing. -/
def Obligations.TrapInstructions : Prop :=
  ∀ i x, trapRow i = some x → ∀ s core slot gang g, MayIssue x.1 s core slot gang g →
    ((issueCtx x.1 s core slot gang g).act = 0 → Completes i x.1 s core slot gang g (fun _ g' => Untouched g g')) ∧
    ((issueCtx x.1 s core slot gang g).act ≠ 0 → HandlerFree s core slot g → RaisesTrap i x.1 s core slot gang g x.2)

/-- R40, R202: `exit` ends its active lanes; a group that keeps a lane goes on, one that keeps none is gone, and in the handler slot the
served group runs on. -/
def Obligations.ExitResults : Prop :=
  ∀ i n, exitRow i = some n → ∀ s core slot gang g, MayIssue n s core slot gang g →
    let c := issueCtx n s core slot gang g
    (SomeRemain c → ∃ t g', exec i s = .next t ∧ OnlyGroup s t core slot ∧ groupAt t core slot = some g' ∧
      { g' with strands := g.strands, bars := g.bars, regionOpen := g.regionOpen } = g ∧ Exits c n.len g') ∧
    (¬ SomeRemain c → slot ≠ handlerSlot → ∃ t, exec i s = .next t ∧ groupAt t core slot = none ∧
      ∀ a, readByte t.mem a = readByte s.mem a) ∧
    (¬ SomeRemain c → slot = handlerSlot → ∀ q h x, g.serves = some q → q ≠ handlerSlot → groupAt s core q = some h →
      h.stop = .served x → x.strand ≠ 8 → g.control ≠ 1 → h.live ≠ [] →
      ∃ t h', exec i s = .next t ∧ groupAt t core handlerSlot = none ∧ groupAt t core q = some h' ∧ h'.stop = .running ∧
        Resumed s h h')

/-- R191, R192, R284: `yield` goes on unless its block is asked to yield, where its strands are held; `spawn` puts its task at the bottom
of the core's deque. -/
def Obligations.YieldAndSpawn : Prop :=
  (∀ i n, yieldRow i = some n → ∀ s core slot gang g, MayIssue n s core slot gang g →
    (¬ AskedToYield s g → Completes i n s core slot gang g (fun _ g' => Untouched g g')) ∧
    (AskedToYield s g → YieldsHeld i n s core slot gang g)) ∧
  ∀ (gap : Fin 4) (n : Fin 64) s core slot gang g b r, MayIssue (spawnNeeds gap n) s core slot gang g → blockOf s g = some b →
    lookupAt s.runs b.run = some r → TaskOk ((issueCtx (spawnNeeds gap n) s core slot gang g).s (n.val + 2)) →
    Spawns gap n s core slot gang g b r

/-- R176, R179, R180, R396: with the whole group gathered and quiet, `gcall` of an open gate writes its caller's frame in the gate's save
area (log 11) and enters the gate, and through gate 0 a request joins the mapping service's queue (log 19); a gate that is not there, not
valid or closed to the group's domain stops the group with 0x16, and a call at depth 4 with 0x17; `gret` and `gabort` return with the
results they keep and a status. -/
def Obligations.Gates : Prop :=
  (∀ (gap : Fin 4) (i : Fin 65536) s core slot gang g e, MayIssue (gcallNeeds gap) s core slot gang g →
    LastToGather (issueCtx (gcallNeeds gap) s core slot gang g) → Quiet g →
    GateOpen s (issueCtx (gcallNeeds gap) s core slot gang g).asker ((partOfCore s core).getD 0) i g e →
    ∃ t g' f, exec (.gcall gap i) s = .next t ∧ CoresStand s t core slot ∧ groupAt t core slot = some g' ∧
      Inside s ((partOfCore s core).getD 0) (issueCtx (gcallNeeds gap) s core slot gang g) e g' f ∧
      FrameWritten s t (frameSpots s ((partOfCore s core).getD 0) e core slot g.calls.length) ∧
      (i.val ≠ 0 → t.parts = s.parts ∧ ∀ j < 8, (g'.strand j).held = none) ∧
      (i.val = 0 → (∀ j ∈ g'.live, (g'.strand j).held = some .service) ∧
        ∃ r : MapReq, (partAt t ((partOfCore s core).getD 0)).mapQueue = (partAt s ((partOfCore s core).getD 0)).mapQueue ++ [r] ∧
          r.gate = some g.uid ∧ r.dom = g.dom.id)) ∧
  (∀ (gap : Fin 4) (i : Fin 65536) s core slot gang g, MayIssue (gcallNeeds gap) s core slot gang g →
    LastToGather (issueCtx (gcallNeeds gap) s core slot gang g) → Quiet g → HandlerFree s core slot g →
    let c := issueCtx (gcallNeeds gap) s core slot gang g
    let part := (partOfCore s core).getD 0
    let stops := fun code => GatherStops (.gcall gap i) s core slot g ⟨code, g.live.headD 0, c.pc, 0⟩ none
    (∀ va, gateRead s c.asker part i = .fails va → stops 0x16) ∧
    ∀ e, GateIs s c.asker part i e → (e.valid = false → stops 0x16) ∧ (e.valid = true → GateFits g e →
      (¬ HoldsKey s part g e → stops 0x16) ∧ (HoldsKey s part g e → 4 ≤ g.calls.length → stops 0x17))) ∧
  ∀ i x, leaveRow i = some x → ∀ s core slot gang g f rest, MayIssue x.1 s core slot gang g →
    LastToGather (issueCtx x.1 s core slot gang g) → Quiet g → g.calls = f :: rest → callsDamaged s core slot 1 g = false →
    ∃ t g', exec i s = .next t ∧ OnlyGroup s t core slot ∧ groupAt t core slot = some g' ∧
      Outside g f rest (x.2.1 f).1 (x.2.1 f).2 x.2.2 g'

/-- R203, R285: through the access window the handler reads and writes the stopped group by a valid selector (log 20 for the selectors'
bounds); a vector register that `xrd` writes gets the tag I32 (log 61). -/
def Obligations.AccessWindow : Prop :=
  ∀ (gap : Fin 4) (d x : Fin 64) s core slot gang g q h, Serves s core slot g q h →
    (MayIssue (xrdNeeds gap d false x) s core slot gang g →
      let c := issueCtx (xrdNeeds gap d false x) s core slot gang g
      selectorValid h false (c.s x) = true → WindowFull h (c.s x) → ReadsWindow gap d x s core slot gang g h) ∧
    (MayIssue (xrdNeeds gap d true x) s core slot gang g →
      let c := issueCtx (xrdNeeds gap d true x) s core slot gang g
      selectorValid h true (c.s x) = true → WindowFull h (c.s x) → ReadsWindowUniform gap d x s core slot gang g h) ∧
    ∀ u, MayIssue (xwrNeeds gap d u x) s core slot gang g →
      selectorValid h u ((issueCtx (xwrNeeds gap d u x) s core slot gang g).s x) = true →
      WritesWindow gap d u x s core slot gang g q h

/-- R300 to R303: the work-list instructions complete: a push (`wlpush`) appends, an insertion (`wlins`) keeps the order of the keys, a
pop (`wlpop`) takes entries from the front for the lanes in ascending order, and a count (`wlcnt`) sends the length to its register.
Where an entry stands in the spill area, and that its write leaves with the instruction, is log 67. -/
def Obligations.WorkLists : Prop :=
  (∀ (gap : Fin 4) (p : Fin 8) (a : Fin 64) (w : Fin 4) s core slot gang g b r l,
      MayIssue (listNeed gap p [a.val] [] true) s core slot gang g →
    HasList s g w [0] b r l → MayInsert s (issueCtx (listNeed gap p [a.val] [] true) s core slot gang g) l →
    ∀ is, AtHand s (issueCtx (listNeed gap p [a.val] [] true) s core slot gang g) w 0 l is →
    ListChanges (.wlpush gap p a w) (listNeed gap p [a.val] [] true) s core slot gang g b r w l
      (fun c is' => is' = is ++ c.lanes.map (fun k => ((c.v a k, (0 : Word)), none)))) ∧
  (∀ (gap : Fin 4) (p : Fin 8) (a : Fin 64) (w : Fin 4) s core slot gang g b r l,
    let n := listNeed gap p [a.val, a.val + 1] [] true
    MayIssue n s core slot gang g → HasList s g w [1] b r l → MayInsert s (issueCtx n s core slot gang g) l →
    (∀ k ∈ (issueCtx n s core slot gang g).lanes, (issueCtx n s core slot gang g).v (a.val + 1) k ≠ 0xFFFFFFFF) →
    ∀ is, AtHand s (issueCtx n s core slot gang g) w l.places.length l is →
    ListChanges (.wlins gap p a w) n s core slot gang g b r w l
      (fun c is' => InsertedInOrder (is.map Prod.fst) (is'.map Prod.fst) (c.lanes.map (fun k => (c.v a k, c.v (a.val + 1) k))) ∧
        ∀ x ∈ is', x ∈ is ∨ x.2 = none)) ∧
  (∀ (gap : Fin 4) (p : Fin 8) (d : Fin 64) (w : Fin 4) s core slot gang g b r l,
      MayIssue (listNeed gap p [] [d.val, d.val + 1] true) s core slot gang g →
    HasList s g w [0, 1] b r l →
    ∀ is, AtHand s (issueCtx (listNeed gap p [] [d.val, d.val + 1] true) s core slot gang g) w
      (issueCtx (listNeed gap p [] [d.val, d.val + 1] true) s core slot gang g).lanes.length l is →
    Pops gap p d w s core slot gang g b r l is) ∧
  ∀ (gap : Fin 4) (p : Fin 8) (d : Fin 64) (w : Fin 4) s core slot gang g b r l,
      MayIssue (listNeed gap p [] [d.val] false) s core slot gang g →
    HasList s g w [0, 1] b r l →
    ∃ t, exec (.wlcnt gap p d w) s = .next t ∧
      SentUnit ⟨listNeed gap p [] [d.val] false, [(d.val, 0)], fun _ _ _ => BitVec.ofNat 32 (l.entries.length + l.places.length),
          fun _ => none⟩
        s t core slot gang g

/-! Lattices. -/

/-- R116 to R123, R288 to R291: `ild`, `ildg`, `ifetch`, `iwgt` and `icell` complete: each lane reads the elements its coordinates use, and
values and derivatives are formed from them; a lane whose access is not finite gets the canonical NaN. -/
def Obligations.LatticeReads : Prop :=
  (∀ (i : Instr) (gap : Fin 4) (p : Fin 8) (d a : Fin 64) (sl : Fin 16) (grads : Bool),
      i = (if grads then Instr.ildg gap p d a sl else Instr.ild gap p d a sl) → ∀ s core slot gang g x,
    let dst := row d (if grads then x.ch * (x.dims + 1) else x.ch)
    let n := latticeNeeds gap p d a x true [] dst false
    LatticeHere s g sl (fun _ => true) x (row a x.dims ++ dst) → MayIssue n s core slot gang g →
    CornersGranted (issueCtx n s core slot gang g) x a (permL + permR) Corner.used →
    ReadsLattice i n s core slot gang g x dst (fun c l => (usedCorners c x a Corner.used l).map (fun cs => (x.elements cs,
        x.outs cs d grads)))) ∧
  (∀ (gap : Fin 4) (p : Fin 8) (d a : Fin 64) (sl : Fin 16) s core slot gang g x,
    let dst := row d x.ch
    let n := latticeNeeds gap p d a x false [] dst false
    LatticeHere s g sl (fun _ => true) x (row a x.dims ++ dst) → MayIssue n s core slot gang g →
    IndicesGranted (issueCtx n s core slot gang g) x a (permL + permR) →
    ReadsLattice (.ifetch gap p d a sl) n s core slot gang g x dst (fun c l => some (match x.place (indices c x a l) with
      | some idx => ((List.range x.ch).map (fun ch => (ch, x.address idx ch)),
          (List.range x.ch).map (fun ch => ⟨d.val + ch, [(ch, 0x3F800000)], none⟩))
      | none => ([], (List.range x.ch).map (fun ch => ⟨d.val + ch, [], none⟩))))) ∧
  (∀ (gap : Fin 4) (p : Fin 8) (d a : Fin 64) (sl : Fin 16) s core slot gang g x,
    let dst := row d (2 * x.positions * x.dims)
    let n := latticeNeeds gap p d a x true [] dst false
    LatticeHere s g sl (fun _ => true) x (row a x.dims ++ dst) → MayIssue n s core slot gang g →
    ∃ t, exec (.iwgt gap p d a sl) s = .next t ∧ SentUnit ⟨n, dst.map (fun r => (r, 2)), fun c r l => match x.cells (coords c x a l) with
      | some cells => weightWord x cells (r - d)
      | none => 0x7FC00000, fun _ => none⟩ s t core slot gang g) ∧
  ∀ (gap : Fin 4) (p : Fin 8) (d a : Fin 64) (sl : Fin 16) s core slot gang g x,
    let dst := row d (2 * x.dims)
    let n := latticeNeeds gap p d a x true [] dst false
    LatticeHere s g sl (fun _ => true) x (row a x.dims ++ dst) → MayIssue n s core slot gang g →
    ∃ t, exec (.icell gap p d a sl) s = .next t ∧ SentUnit ⟨n, dst.map (fun r => (r, 0)), fun c r l => match x.cells (coords c x a l) with
      | some cells => BitVec.ofInt 32 (if r - d < x.dims then (cells.getD (r - d) (0, 0)).1 else (cells.getD (r - d - x.dims) (0, 0)).2)
      | none => if r - d < x.dims then 0x80000000 else 0, fun _ => none⟩ s t core slot gang g

/-- R124, R288 to R290: `ispl`, `isplg` and `istx` complete: a splat adds its exact amount to every element of the corners it uses, and
`istx` stores converted elements; the group keeps its registers. -/
def Obligations.LatticeWrites : Prop :=
  (∀ (gap : Fin 4) (p : Fin 8) (d a : Fin 64) (sl : Fin 16) s core slot gang g x,
    let n := latticeNeeds gap p d a x true (row d x.ch) [] true
    LatticeHere s g sl splatOk x (row a x.dims ++ row d x.ch) → MayIssue n s core slot gang g →
    CornersGranted (issueCtx n s core slot gang g) x a (permL + permW) (fun k => nonzero32 k.w) →
    Splats (.ispl gap p d a sl) n s core slot gang g x a (fun k => nonzero32 k.w)
      (fun c l k ch => ((f32 k.w).mul (f32 (c.v (d.val + ch) l))).1)) ∧
  (∀ (gap : Fin 4) (p : Fin 8) (d a : Fin 64) (sl : Fin 16) s core slot gang g x,
    let n := latticeNeeds gap p d a x true (row d (x.ch * x.dims)) [] true
    LatticeHere s g sl splatOk x (row a x.dims ++ row d (x.ch * x.dims)) → MayIssue n s core slot gang g →
    CornersGranted (issueCtx n s core slot gang g) x a (permL + permW) (fun k => k.g.any nonzero32) →
    Splats (.isplg gap p d a sl) n s core slot gang g x a (fun k => k.g.any nonzero32)
      (fun c l k ch => (exactSum .rne (((List.range x.dims).filter (fun j => nonzero32 (k.g.getD j 0))).map (fun j =>
        ((((f32 (k.g.getD j 0)).mul (f32 (x.scale.getD j 0))).1).mul (f32 (c.v (d.val + ch * x.dims + j) l))).1))).1)) ∧
  ∀ (gap : Fin 4) (p : Fin 8) (d a : Fin 64) (sl : Fin 16) s core slot gang g x,
    let n := latticeNeeds gap p d a x false (row d x.ch) [] false
    LatticeHere s g sl (fun x => !x.ro) x (row a x.dims ++ row d x.ch) → MayIssue n s core slot gang g →
    IndicesGranted (issueCtx n s core slot gang g) x a (permL + permW) → StoresElements gap p d a sl n s core slot gang g x

/-! Engines. -/

/-- R57, R81, R292, R296: an engine command that passes its checks completes: the flag counts it, the granules it takes are the engine's,
and it is outstanding with its work; with no active lane it does nothing. A global-to-scratchpad copy of readable words is accepted, and
its work is to write those words (log 13 for when they are read). -/
def Obligations.EngineCommands : Prop :=
  (∀ i x, commandRow i = some x → ∀ s core slot gang g bid b,
    let n := x.needs (issueCtx {} s core slot gang g)
    let c := issueCtx n s core slot gang g
    MayIssue n s core slot gang g → g.block = some bid → blockAt s bid = some b → x.conds c s = [] → MayEnter s c x.flag (x.plan c s) b →
    Enters i x s core slot gang g bid b) ∧
  (∀ i x, commandRow i = some x → ∀ s core slot gang g,
    let n := x.needs (issueCtx {} s core slot gang g)
    MayIssue n s core slot gang g → (issueCtx n s core slot gang g).act = 0 →
    Completes i n s core slot gang g (fun _ g' => Untouched g g')) ∧
  ∀ (n : Nat) (c : Ctx) (s : State) (data : Nat → Nat),
    let w := fun i => (c.s (2 * n + i)).toNat
    let va := w 0 + w 1 * 2 ^ 32
    let at' := w 2 / 16 * 16
    let place := (windowAt s c.g (w 2 % 16) c.dt).1 + at'
    w 1 < 2 ^ 16 → 4 ≤ w 3 → w 3 ≤ 458752 → w 3 % 4 = 0 → va % 4 = 0 → at' + w 3 ≤ (windowAt s c.g (w 2 % 16) c.dt).2 →
    rangeFail c.g.dom.ranges permR va (w 3) = none →
    hostAddress s ((partOfCore s c.core).getD 0) c.g.dom.id va (w 3) = none →
    (∀ i < w 3 / 4, engineRead s c.asker ((partOfCore s c.core).getD 0) c.g.dom permR (va + 4 * i) 4 = .value (data i)) →
    copyConds n permR c s = [] ∧
    planG2s n c s = ⟨granulesOf place (w 3), [⟨va, w 3⟩], [], [], false, [], false,
      .writes ((List.range (w 3 / 4)).map (fun i => (place + 4 * i, toBytes 4 (data i)))) [] [] []⟩

/-! The sequencer stream. -/

/-- R307, R308: the register and branch instructions of the sequencer complete: they write their registers in order, go where their rule
says, and change nothing else. -/
def Obligations.SequencerRegisters : Prop :=
  ∀ i x, seqRow i = some x → ∀ s core ctx v, SeqReady s core ctx v →
    SeqCompletes i s core ctx (fun x' => x'.pc = x.pc v ∧ (∀ r, getAt 0 x'.m r = afterWrites (v.m r) r (x.writes v)) ∧
      { x' with m := v.x.m, pc := v.x.pc } = v.x)

/-- R131, R309, R312: `tcfg` sets the tile configuration and clears every accumulator unit; `mzero` clears one logical accumulator, and
faults for a unit number that R131 does not admit. -/
def Obligations.SequencerConfig : Prop :=
  (∀ (t : Fin 4) (n k : Bool) (sm : Fin 4) (a b : Fin 64) s core ctx v, SeqReady s core ctx v →
    SeqCompletes (.tcfg t n k sm a b) s core ctx (fun x' => Configured x'.tcfg t n k sm a b ∧
      { x' with tcfg := v.x.tcfg, acc := v.x.acc, accPoison := v.x.accPoison, pc := v.x.pc } = v.x ∧
      (∀ e, getAt 0 x'.acc e = 0 ∧ getAt false x'.accPoison e = false) ∧ x'.pc = following v)) ∧
  ∀ (n : Fin 32) s core ctx v, SeqReady s core ctx v →
    (UnitOk v n → SeqCompletes (.mzero n) s core ctx (fun x' =>
      { x' with acc := v.x.acc, accPoison := v.x.accPoison, pc := v.x.pc } = v.x ∧ x'.pc = following v ∧
      (∀ e, InAcc v.x.tcfg n e → getAt 0 x'.acc e = 0 ∧ getAt false x'.accPoison e = false) ∧
      ∀ e, ¬ InAcc v.x.tcfg n e → getAt 0 x'.acc e = getAt 0 v.x.acc e ∧ getAt false x'.accPoison e = getAt false v.x.accPoison e)) ∧
    (¬ UnitOk v n → exec (.mzero n) s = .next (seqFault v 0x1F [] s))

/-- R133, R134, R310, R311: a tile fetch whose source may be read completes: it fills its rows and their scales, pins the lines it read,
and leaves everything else; a source that is not aligned faults. -/
def Obligations.TileFetches : Prop :=
  (∀ (t : Fin 8) (a : Fin 16) (x : Bool) (w sr : Fin 16) (r : Fin 64) (p : Bool) s core ctx v, SeqReady s core ctx v →
    (TldAligned v a x sr p → Fetches v s (tldSource v s a x w sr r p) →
      SeqReads (.tld t a x w sr r p) s core ctx (fun x' => Fetched v x' t (tldSource v s a x w sr r p) ∧ x'.bptr = v.x.bptr ∧
        x'.pins = v.x.pins ++ (if x then [] else v.lines (tldSource v s a x w sr r p).pieces).map (fun l => (l, t.val)))) ∧
    (¬ TldAligned v a x sr p → exec (.tld t a x w sr r p) s = .next (seqFault v 0x1F [] s))) ∧
  ∀ (t : Fin 8) (a : Fin 16) (x : Bool) (w sr : Fin 16) (z : Fin 4) s core ctx v, SeqReady s core ctx v →
    (TldtAligned v a x sr z → Fetches v s (tldtSource v s a x w sr z) →
      SeqReads (.tldt t a x w sr z) s core ctx (fun x' => Fetched v x' t (tldtSource v s a x w sr z) ∧ x'.bptr = v.x.bptr ∧
        x'.pins = v.x.pins ++ (if x then [] else v.lines (tldtSource v s a x w sr z).pieces).map (fun l => (l, t.val)))) ∧
    (¬ TldtAligned v a x sr z → exec (.tldt t a x w sr z) s = .next (seqFault v 0x1F [] s))

/-- R132, R135, R312, R313: `mma` adds one K-step of two tiles to its accumulator and unpins them; `mmam` adds one K-step of its panels at
a time and ends with the last. -/
def Obligations.MatrixSteps : Prop :=
  (∀ (n : Fin 32) (a b : Fin 8) s core ctx v, SeqReady s core ctx v → Operands v n a b →
    SeqCompletes (.mma n a b) s core ctx (fun x' =>
      Stepping v x' n (v.x.row a) (fun j => v.x.row (b.val + j / 64) (j % 64)) (v.x.scale a)
          (fun j => v.x.scale (b.val + j / 64) (j % 64)) ∧
      { x' with acc := v.x.acc, pins := v.x.pins, pc := v.x.pc } = v.x ∧ x'.pc = following v ∧
      x'.pins = v.x.pins.filter (fun q => decide (q.2 ≠ a.val ∧ q.2 ≠ b.val ∧ (tcfgNt v.x.tcfg = 128 → q.2 ≠ b.val + 1))))) ∧
  ∀ (n : Fin 32) (a b k : Fin 16) s core ctx v, SeqReady s core ctx v → PanelOk v n a b →
    ((v.m k).toNat = 0 → SeqCompletes (.mmam n a b k) s core ctx (fun x' => x' = { v.x with pc := following v })) ∧
    ∀ rowA rowB, panelStep v (v.m k).toNat < (v.m k).toNat →
      PanelReads v s n a b (v.m k).toNat (panelStep v (v.m k).toNat) rowA rowB →
      SeqReads (.mmam n a b k) s core ctx (fun x' =>
        Stepping v x' n rowA rowB (fun _ => 0) (fun _ => 0) ∧
        { x' with acc := v.x.acc, mmamLeft := v.x.mmamLeft, pc := v.x.pc } = v.x ∧
        x'.mmamLeft = (v.m k).toNat - panelStep v (v.m k).toNat - 1 ∧ x'.pc = if x'.mmamLeft = 0 then following v else v.x.pc)

/-- R140, R315: `bpush` stores a tile and its scales at BPTR, which moves up; `bpop` and `bpop.t` fetch the entry below BPTR, which moves
down. -/
def Obligations.BobbinStack : Prop :=
  (∀ (t : Fin 8) s core ctx v, SeqReady s core ctx v → PushOk v (entryBytes v) →
    (∀ j < 64, getAt false v.x.tilePoison (t.val * 64 + j) = false) →
    let part := fun (j : Nat) (q : Req) => FromSeq s v (v.x.bptr + 64 * j) 64 (v.x.row t j) (256 ^ 64 - 1) q
    let scale := fun (j : Nat) (q : Req) => FromSeq s v (v.x.bptr + 4096 + 4 * j) 4 (v.x.scale t j) (256 ^ 4 - 1) q
    SeqStores (.bpush t) s s core ctx (fun x' => x' = { v.x with bptr := v.x.bptr + entryBytes v, pc := following v })
      (fun u => (∀ j < 64, Sent s u (part j)) ∧ (tcfgScaled v.x.tcfg = true → ∀ j < 64, Sent s u (scale j)) ∧
        SentOnly s u (fun q => ∃ j < 64, part j q ∨ (tcfgScaled v.x.tcfg = true ∧ scale j q)))) ∧
  ∀ i s core ctx v t z, SeqReady s core ctx v → popRow v s i = some (t, z) → PopOk v (entryBytes v) → Fetches v s z →
    SeqReads i s core ctx (fun x' => Fetched v x' t z ∧ x'.bptr = v.x.bptr - entryBytes v ∧ x'.pins = v.x.pins)

/-- R136 to R139, R314: `mdrain` writes its converted elements to memory or to a window, and the pushed entry; `mupd` stores the updated
weights and moments of every element. -/
def Obligations.DrainResults : Prop :=
  (∀ (n : Fin 32) (r : Fin 16) s core ctx v bs d, SeqReady s core ctx v → RecordRead v s n r bs → Drains v s n bs d →
    let bits := outBits d.ofmt
    let code := fun i j => outCode d (outElem v s d n i j).get
    ∃ t u x', exec (.mdrain n r) s = .next t ∧ ReadLeaves s u ∧
      { t with seqs := u.seqs, cores := u.cores, net := u.net, l1 := u.l1, nextId := u.nextId, blocks := u.blocks } = u ∧
      lookupAt t.seqs (core * 4 + ctx) = some x' ∧ x' = { v.x with bptr := ptrAfter v d, pc := following v } ∧
      (∀ k, k ≠ core * 4 + ctx → lookupAt t.seqs k = lookupAt s.seqs k) ∧ (∀ k, k ≠ v.x.block → blockAt t k = blockAt s k) ∧
      (d.push = true → ∀ i < tcfgMt v.x.tcfg, ∀ j < tcfgNt v.x.tcfg, Sent s t (FromSeq s v
        (v.x.bptr + (i * tcfgNt v.x.tcfg + j) * pushSize d) (pushSize d) (pushCode d (preElem v s d n i j).get) (256 ^ pushSize d - 1))) ∧
      (d.win = false → t.blocks = s.blocks ∧ ∀ i < tcfgMt v.x.tcfg, ∀ j < tcfgNt v.x.tcfg,
        Sent s t (FromSeq s v (outPlace d i j).1 (max (bits / 8) 1) (code i j * 2 ^ (outPlace d i j).2)
          ((2 ^ bits - 1) * 2 ^ (outPlace d i j).2))) ∧
      (d.win = true → ∃ b', blockAt t v.x.block = some b' ∧ { b' with scratch := v.b.scratch, poison := v.b.poison } = v.b ∧
        let base := (v.window s d.wnum).1
        (∀ a, (∀ i < tcfgMt v.x.tcfg, ∀ j < tcfgNt v.x.tcfg,
          ¬ (base + (outPlace d i j).1 ≤ a ∧ a < base + (outPlace d i j).1 + max (bits / 8) 1)) →
              readByte b'.scratch a = readByte v.b.scratch a) ∧
        ∀ i < tcfgMt v.x.tcfg, ∀ j < tcfgNt v.x.tcfg,
          (∀ i' < tcfgMt v.x.tcfg, ∀ j' < tcfgNt v.x.tcfg, outPlace d i' j' = outPlace d i j → i' = i ∧ j' = j) →
          readLE b'.scratch (base + (outPlace d i j).1) (max (bits / 8) 1) / 2 ^ (outPlace d i j).2 % 2 ^ bits = code i j % 2 ^ bits)) ∧
  ∀ (n : Fin 32) (r : Fin 16) s core ctx v bs (old : Nat → Nat → Nat → Word), SeqReady s core ctx v →
    (tcfgInt v.x.tcfg = true → exec (.mupd n r) s = .next (seqFault v 0x1F [] s)) ∧
    (tcfgInt v.x.tcfg = false → RecordRead v s n r bs → updateBad v s bs = false →
      (∀ k, InAcc v.x.tcfg n k → getAt false v.x.accPoison k = false) →
      let u := UpdateRec.ofBytes bs
      (∀ i < tcfgMt v.x.tcfg, ∀ j < tcfgNt v.x.tcfg, ∀ k < u.tiles.length,
        v.read s none (u.tiles.getD k 0 + i * u.stride + 4 * j) 4 = .value (old i j k).toNat) →
      (∀ i j k, u.tiles.length ≤ k → old i j k = 0) →
      let new := fun i j => updateElem u (accWord v.x n i j) (old i j 0) (old i j 1) (old i j 2)
      let part := fun i j (e : Nat × Word) q => FromSeq s v (e.1 + i * u.stride + 4 * j) 4 e.2.toNat (256 ^ 4 - 1) q
      ∃ y, ReadLeaves s y ∧ SeqStores (.mupd n r) s y core ctx (fun x' => x' = { v.x with pc := following v })
        (fun t => (∀ i < tcfgMt v.x.tcfg, ∀ j < tcfgNt v.x.tcfg, ∀ e ∈ u.tiles.zip (new i j), Sent s t (part i j e)) ∧
          SentOnly y t (fun q => ∃ i < tcfgMt v.x.tcfg, ∃ j < tcfgNt v.x.tcfg, ∃ e ∈ u.tiles.zip (new i j), part i j e q)))

/-- R127, R128, R316, R401: `mbar.a` arrives for the sequencer, `mbar.w` goes on once the phase it waits for is over, and `mhalt` writes
BPTR to its cell and halts once every write is acknowledged. -/
def Obligations.SequencerBarriers : Prop :=
  (∀ (n : Fin 16) s core ctx v, SeqReady s core ctx v → v.x.bmask.getLsbD n = true → NoErrors v →
    (getAt Barrier.none v.b.bars n).seq = false →
    ∃ t b', exec (.mbarA n) s = .next t ∧ (∀ a, readByte t.mem a = readByte s.mem a) ∧
      lookupAt t.seqs (core * 4 + ctx) = some { v.x with
        barLast := putAt none v.x.barLast n (some (getAt Barrier.none v.b.bars n).phase), pc := following v } ∧
      blockAt t v.x.block = some b' ∧
      ((getAt Barrier.none b'.bars n).seq = true ∧ (getAt Barrier.none b'.bars n).phase = (getAt Barrier.none v.b.bars n).phase ∨
       (getAt Barrier.none b'.bars n).seq = false ∧ (getAt Barrier.none b'.bars n).phase = (getAt Barrier.none v.b.bars n).phase + 1)) ∧
  (∀ (n : Fin 16) s core ctx v, SeqReady s core ctx v → v.x.bmask.getLsbD n = true →
    (∀ p, awaited v n = some p → p < (getAt Barrier.none v.b.bars n).phase →
      SeqCompletes (.mbarW n) s core ctx (fun x' => x' = { v.x with
        waiting := none, pc := following v
        barLast := if getAt none v.x.barLast n = some p then putAt none v.x.barLast n none else v.x.barLast })) ∧
    ((∀ p, awaited v n = some p → (getAt Barrier.none v.b.bars n).phase ≤ p) → (partAt s v.part).barto = 0 →
      ∃ t x', exec (.mbarW n) s = .next t ∧ { t with seqs := s.seqs } = s ∧ lookupAt t.seqs (core * 4 + ctx) = some x' ∧
        { x' with waiting := v.x.waiting } = v.x ∧ x'.waiting.isSome = true)) ∧
  ∀ s core ctx v, SeqReady s core ctx v → NoErrors v →
    (v.x.haltWait = true ∨ v.x.bcell = 0 → writesOut s v.x.block (s.nextId + 1) = false →
      ∃ t, exec .mhalt s = .next t ∧ (∀ a, readByte t.mem a = readByte s.mem a) ∧
        (Block.liveSlots s v.x.block v.b ≠ [] →
          lookupAt t.seqs (core * 4 + ctx) = some { v.x with halted := true, haltWait := false, pc := following v })) ∧
    (v.x.haltWait = false → v.x.bcell ≠ 0 → v.x.bcell % 8 = 0 → rangeFail v.dom.ranges permW v.x.bcell 8 = none →
      SeqStores .mhalt s s core ctx (fun x' => x' = { v.x with haltWait := true })
        (fun t => Sent s t (FromSeq s v v.x.bcell 8 v.x.bptr (256 ^ 8 - 1)) ∧
          SentOnly s t (FromSeq s v v.x.bcell 8 v.x.bptr (256 ^ 8 - 1))))

/-! The near-bank stream. -/

/-- R318, R319, R324: a lane operation of a near-bank unit completes: the enabled lanes of its register take their values, and a compare
writes the condition of the enabled lanes; nothing else of the unit or the machine changes. -/
def Obligations.NearBankLanes : Prop :=
  (∀ i x, nbuRow i = some x → ∀ s bank r, x.d < 12 → NbuReady s bank false false x.reads r →
    NbuCompletes i s bank (fun x' => Stepped s bank x' ∧
      { x' with k := (nbuAt s bank).k, upc := (nbuAt s bank).upc, lastTick := (nbuAt s bank).lastTick } = nbuAt s bank ∧
      (∀ c < 12, c ≠ x.d → ∀ j < 8, x'.reg c j = (nbuAt s bank).reg c j) ∧
      ∀ j < 8, x'.reg x.d j = if (nbuAt s bank).top.getLsbD j then x.value (nbuAt s bank) j else (nbuAt s bank).reg x.d j)) ∧
  ∀ (op : NbuFcmp) (k : Fin 8) (a b : Fin 16) s bank r, NbuReady s bank false false [a.val, b.val] r →
    NbuCompletes (.nbuFcmp op k a b) s bank (fun x' => Stepped s bank x' ∧
      { x' with cond := (nbuAt s bank).cond, upc := (nbuAt s bank).upc, lastTick := (nbuAt s bank).lastTick } = nbuAt s bank ∧
      ∀ j < 8, x'.cond.getLsbD j = if (nbuAt s bank).top.getLsbD j then
        combined k ((nbuAt s bank).cond.getLsbD j) (laneTest op ((nbuAt s bank).reg a j) ((nbuAt s bank).reg b j))
        else (nbuAt s bank).cond.getLsbD j)

/-- R144, R157, R321: `nrd` reads a column of the open row into the enabled lanes of its register; `nwr` changes the open row, and memory
stands until the row closes. -/
def Obligations.NearBankColumns : Prop :=
  (∀ (d a : Fin 16) (k : Fin 32) (ix : Bool) s bank r pa, d.val < 12 → NbuReady s bank true false (if ix then [a.val] else []) r →
    (nbuAt s bank).openRow = some pa →
    poisonedAt s (columnKey bank pa (column (nbuAt s bank) a k ix)) 32 = false →
    NbuCompletes (.nrd d a k ix) s bank (fun x' => Stepped s bank x' ∧ PathTaken s bank x' ∧ x'.lastRead = some (d.val, s.dt + 2) ∧
      { x' with k := (nbuAt s bank).k, upc := (nbuAt s bank).upc, lastTick := (nbuAt s bank).lastTick, pathFree := (nbuAt s bank).pathFree,
                visit := (nbuAt s bank).visit, boundary := (nbuAt s bank).boundary, lastServed := (nbuAt s bank).lastServed,
                lastRead := (nbuAt s bank).lastRead } = nbuAt s bank ∧
      (∀ c < 12, c ≠ d.val → ∀ j < 8, x'.reg c j = (nbuAt s bank).reg c j) ∧
      ∀ j < 8, x'.reg d j = if (nbuAt s bank).top.getLsbD j then columnWord s bank pa (column (nbuAt s bank) a k ix) j
        else (nbuAt s bank).reg d j)) ∧
  ∀ (d a : Fin 16) (k : Fin 32) (ix : Bool) s bank r pa, NbuReady s bank true false (d.val :: (if ix then [a.val] else [])) r →
    (nbuAt s bank).openRow = some pa →
    NbuCompletes (.nwr d a k ix) s bank (fun x' => Stepped s bank x' ∧ PathTaken s bank x' ∧
      { x' with written := (nbuAt s bank).written, upc := (nbuAt s bank).upc, lastTick := (nbuAt s bank).lastTick,
                pathFree := (nbuAt s bank).pathFree, visit := (nbuAt s bank).visit, boundary := (nbuAt s bank).boundary,
                lastServed := (nbuAt s bank).lastServed } = nbuAt s bank ∧
      ∀ col < 32, ∀ j < 8, lookupAt x'.written (col * 8 + j) =
        if col = column (nbuAt s bank) a k ix ∧ (nbuAt s bank).top.getLsbD j = true then some ((nbuAt s bank).reg d j)
        else lookupAt (nbuAt s bank).written (col * 8 + j))

/-- R144, R157, R322, R324: `nnext` and `nend` close the row, so that exactly the words it was written stand in memory; `nnext.h` opens the
same row again while lane 0's condition is true, `nnext` goes to the next row or ends the run with the last, and `nend` ends it at once. -/
def Obligations.NearBankRows : Prop :=
  (∀ (a : Fin 64) (h : Bool) s bank r pa, NbuReady s bank false true [] r → (nbuAt s bank).openRow = some pa →
    ∃ t, exec (.nnext a h) s = .next t ∧ RowCloses s t bank pa ∧ t.groups = s.groups ∧ t.blocks = s.blocks ∧ t.seqs = s.seqs ∧
      t.net = s.net ∧ (∀ b, b ≠ bank → nbuAt t b = nbuAt s b) ∧
      (h = true ∧ (nbuAt s bank).cond.getLsbD 0 = true → (nbuAt t bank).upc = a.val ∧ (nbuAt t bank).row = (nbuAt s bank).row ∧
        (nbuAt t bank).left = (nbuAt s bank).left ∧ (nbuAt t bank).cmd = (nbuAt s bank).cmd) ∧
      (¬ (h = true ∧ (nbuAt s bank).cond.getLsbD 0 = true) → (nbuAt t bank).row = (nbuAt s bank).row + 1 ∧
        (1 < (nbuAt s bank).left → (nbuAt t bank).upc = a.val ∧ (nbuAt t bank).left = (nbuAt s bank).left - 1 ∧
          (nbuAt t bank).cmd = (nbuAt s bank).cmd) ∧
        ((nbuAt s bank).left ≤ 1 → RunEnds t bank r))) ∧
  ∀ s bank r pa, NbuReady s bank false true [] r → (nbuAt s bank).openRow = some pa →
    ∃ t, exec .nend s = .next t ∧ RowCloses s t bank pa ∧ t.groups = s.groups ∧ t.blocks = s.blocks ∧ t.seqs = s.seqs ∧
      t.net = s.net ∧ (∀ b, b ≠ bank → nbuAt t b = nbuAt s b) ∧ RunEnds t bank r

/-- R323: the mask stack holds at most four entries, so that a fifth push ends the run; `nif` pushes top & condition, `nelse` replaces top
with parent & ~top, `nendif` pops, where an empty stack stands for 0xFF; on an empty stack `nelse` and `nendif` end the run (R326). -/
def Obligations.MaskStack : Prop :=
  ∀ s bank r, NbuReady s bank false false [] r →
    let x := nbuAt s bank
    let top := x.masks.headD 0xFF
    let parent := x.masks.getD 1 0xFF
    let becomes := fun i (ms : List (BitVec 8)) => NbuCompletes i s bank (fun x' => Stepped s bank x' ∧ x'.masks = ms ∧
      { x' with masks := x.masks, upc := x.upc, lastTick := x.lastTick } = x)
    let stops := fun i => ∃ t, exec i s = .next t ∧ (nbuAt t bank).cmd = none
    (x.masks.length < 4 → becomes .nif ((top &&& x.cond) :: x.masks)) ∧ (4 ≤ x.masks.length → stops .nif) ∧
    (x.masks ≠ [] → becomes .nelse ((parent &&& ~~~top) :: x.masks.tail) ∧ becomes .nendif x.masks.tail) ∧
    (x.masks = [] → stops .nelse ∧ stops .nendif)

/-! Events. -/

/-- R56, R94, R384, R385: answers land at their core: words fill their registers, acknowledgements raise RH, and error responses poison
lanes or leave a store error pending. -/
def Obligations.LandingEvents : Prop := ∀ i s Q, Landing i s Q → s.cur = .outside → ∃ t, exec i s = .next t ∧ Q t

/-- R88 to R95, R112, R113, R153, R158, R178, R389, R395: requests reach their home, a replica, their bank or their stack, where loads,
stores, atomics and reductions are performed in their order; they park at pages not present, are sent again, are dropped at closed ends, or
are answered as errors when overdue. That overdue counts from when a request was sent is log 72, and log 40 says who waits at a closed end;
that reads of engines, fetches and sequencers are requests too is log 13. -/
def Obligations.ReachingEvents : Prop := ∀ i s Q, Reaching i s Q → s.cur = .outside → ∃ t, exec i s = .next t ∧ Q t

/-- R41, R99, R101, R202, R377, R397: fences complete, arrivals count, barriers time out, the handler slot serves the next group, and
gate budgets run out. -/
def Obligations.SynchronisingEvents : Prop := ∀ i s Q, Synchronising i s Q → s.cur = .outside → ∃ t, exec i s = .next t ∧ Q t

/-- R57, R81, R98, R111, R144, R148 to R155, R168, R299, R402 to R405, R409: engine commands complete with their writes performed,
near-bank units suspend, resume and stop, and collectives combine, disagree or fail. That every outstanding collective with other
devices to meet fails where a port cannot reach its peer is log 27; log 14 says where the other devices' operands come from, log 74 how
the device's own sends and receives pair, and log 13 how a command reads. -/
def Obligations.CompletingEvents : Prop := ∀ i s Q, Completing i s Q → s.cur = .outside → ∃ t, exec i s = .next t ∧ Q t

/-- R43, R107, R108, R183 to R193, R381: launches start or are refused, nodes become ready, blocks are placed, and tasks are taken. -/
def Obligations.LaunchingEvents : Prop := ∀ i s Q, Launching i s Q → s.cur = .outside → ∃ t, exec i s = .next t ∧ Q t

/-- R5, R87, R109, R171, R298, R359, R361 to R366, R383, R421: the host writes registers and rings, copies go forward by words (log 42) and
end at a host error (log 75), completion records are written, error logs are acknowledged, classes and firewalls are set, and functions are
bound and released. That a function's release ends its graphs is log 65, and what the ring entries of a refused read hold is log 79. -/
def Obligations.HostingEvents : Prop := ∀ i s Q, Hosting i s Q → s.cur = .outside → ∃ t, exec i s = .next t ∧ Q t

/-- R19, R83, R87, R134, R170 to R178, R390, R391: the mapping service maps, unmaps, sets classes, retires pages and takes them in and out.
The refusal of a part of a region is log 22, the choices in page moves are log 43, and what becomes of requests given up is log 58. -/
def Obligations.MappingEvents : Prop := ∀ i s Q, Mapping i s Q → s.cur = .outside → ∃ t, exec i s = .next t ∧ Q t

/-- R189, R194 to R201, R379, R380, R418: blocks are asked to yield, stopped, saved, restored and migrated. Where a frame stands, and
that the block is kept in State besides, is log 12; that a failed save keeps the block's mark is log 41. -/
def Obligations.PreemptingEvents : Prop := ∀ i s Q, Preempting i s Q → s.cur = .outside → ∃ t, exec i s = .next t ∧ Q t

/-- R9, R170, R367 to R370, R389, R392, R420, R422 to R425: bring-up goes forward, partitions are set up and reset, copies of device
time are checked and reloaded, links retrain, and heat, wear and errors are acted on. That a partition forms with GEN 0 is log 66, how a
core is fenced is log 44, what resets keep is log 45, what a reload logs is log 46, when a core must be fenced is log 78, and how a lost
link comes back is log 79. -/
def Obligations.KeepingEvents : Prop := ∀ i s Q, Keeping i s Q → s.cur = .outside → ∃ t, exec i s = .next t ∧ Q t

/-! The whole machine. -/

/-- R11, R126, R367: after reset device time is 0, nothing is resident, bring-up has not begun, and the invariant holds; a group starts
with the mode registers of Table 4.2, all lanes active and nothing dead, empty or poisoned. That memory reads zero is the model's choice
(log 2). -/
def Obligations.ResetState : Prop :=
  State.reset.dt = 0 ∧ State.reset.groups = [] ∧ State.reset.blocks = [] ∧ State.reset.launches = [] ∧ State.reset.parts = [] ∧
  State.reset.bringUp = 0 ∧ State.reset.linkUp = false ∧ StateInv State.reset ∧ (∀ a, readByte State.reset.mem a = 0) ∧
  ∀ uid bid gid x d entry arg, let g := newGroup uid bid gid x d entry arg
    GroupModes g ∧ g.fpm = 0 ∧ g.fpf = 0 ∧ g.nfv = 0x2C ∧ g.cbwin = 0 ∧ g.gmode = 0 ∧ (g.sreg 0).val = arg ∧
    (∀ r, (g.vreg r).full = true ∧ (g.vreg r).dead = false ∧ (g.vreg r).poison = 0) ∧
    ∀ j < 8, (g.strand j).pc = evenPc (BitVec.ofNat 64 entry) ∧ (g.strand j).active = 0xF ∧ (g.strand j).exited = 0

/-- R5, R11, R190, R209, R212, R318, R393, R394: where the next turn is a gang's, a context's or a unit's and the bytes or the word at
its PC decode, the step is the execution of that instruction, after the lines that the fetch has read are seen as read (fetchEnds, R83
and R212); an event's turn executes the event; a turn that reads a register of a page or of the device changes nothing but what the
reader has got, which is zero for a register that is write-only, ELOGACK and LAUNCH; and the other turns do what `Turning` says: a tick,
evictions, drift, measurements, writes of engines, and soft errors. That the agenda says who moves next is log 4, the tick log 5, and
the drift of copies log 7. -/
def Obligations.StepRunsDecoded : Prop :=
  ∀ s rest,
    (∀ core slot gang g bs i r, s.agenda = .issue core slot gang :: rest → groupAt s core slot = some g →
      gangFree { s with agenda := rest } core slot g (g.gangStrands gang) = true →
      let who := { (fetchCtx { s with agenda := rest } core slot gang g).asker with code := true }
      let part := (partOfCore s core).getD 0
      readInstr { s with agenda := rest } who part g.dom who.pc = .bytes bs → decode bs = .ok (i, r) →
        step s = exec i { fetchEnds { s with agenda := rest } who part g.dom bs.length with cur := .gang core slot gang }) ∧
    (∀ core ctx v bs i, s.agenda = .seq core ctx :: rest → seqView { s with agenda := rest } core ctx = some v →
      v.idle { s with agenda := rest } = false →
      let who := { v.asker with code := true }
      readCode { s with agenda := rest } who v.part v.dom v.x.pc.toNat 4 = .bytes bs → decodeSeqWord (leNat bs) = .ok i →
        step s = exec i { fetchEnds { s with agenda := rest } who v.part v.dom 4 with cur := .seq core ctx }) ∧
    (∀ bank i, s.agenda = .nbu bank :: rest → nbuRuns { s with agenda := rest } bank = true →
      decodeNbuWord (getAt 0 (nbuAt s bank).prog (nbuAt s bank).upc).toNat = .ok i →
      step s = exec i { s with agenda := rest, cur := .nbu bank }) ∧
    (∀ i, s.agenda = .event i :: rest → i.stream = .event → step s = exec i { s with agenda := rest, cur := .outside }) ∧
    (∀ u Q, s.agenda = u :: rest → Turning u { s with agenda := rest } Q → ∃ t, step s = .next t ∧ Q t) ∧
    (∀ r, s.agenda = .read r :: rest → ∃ t, step s = .next t ∧ { t with busRead := s.busRead, agenda := s.agenda } = s ∧
      t.agenda = rest ∧ (∀ die, r = .elogack die → t.busRead = 0) ∧ (∀ fn, r = .dev (.page fn 0x000) → PageUp s fn → t.busRead = 0))

/-- R216 to R226, R307, R320: the words that the spec's worked examples give decode to the instructions that stand beside them: a compact
`mov`, `imax`, `ld.f32`, `ldc`, `bra`, `loopi` and `exit` of the core stream, `mbnz.d`, `mma` and `madd.w` of the sequencer, and `nrd`,
`fmul` and `nif` of the near-bank units. -/
def Obligations.DecodedWords : Prop :=
  decodeCoreWord 0x0000 = .ok (.compactMov 0 0) ∧ decodeCoreWord 0xD40E5381 = .ok (.imax 2 3 10 7 40) ∧
  decodeCoreWord 0x52042061 = .ok (.ldF32 1 0 4 2 4 false) ∧ decodeCoreWord 0x60004065 = .ok (.ldc 1 8 0 0) ∧
  decodeCoreWord 0x0000C137 = .ok (.bra 0 1 3) ∧ decodeCoreWord 0x0204083B = .ok (.loopi 0 4 2) ∧
  decodeCoreWord 0x0000417D = .ok (.exit 1 1) ∧
  decodeSeqWord 0xFFFFDD07 = .ok (.mbnz 4 true 2097147) ∧ decodeSeqWord 0x00004015 = .ok (.mma 0 0 1) ∧
  decodeSeqWord 0x0400C005 = .ok (.maddWImm 0 0 1024) ∧
  decodeNbuWord 0x108C083F = .ok (.nrd 1 6 1 true) ∧ decodeNbuWord 0x4680000B = .ok (.nbuFalu .fmul 0 0 13) ∧
  decodeNbuWord 0x6000003F = .ok .nif

/-- R216 to R226, R307, R320: decoding what the encoder gives for a well-formed instruction of a stream gives the instruction back, and
what a decoder accepts is a well-formed instruction. -/
def Obligations.EncodeThenDecode : Prop :=
  (∀ i : Instr, i.stream ≠ .event → i.wellFormed = true → decodeStream i.stream (encode i) = .ok i) ∧
  ∀ st w i, decodeStream st w = .ok i → i.stream = st ∧ i.wellFormed = true

/-- Every step keeps the invariant: the mode registers of every group and of every gate frame hold legal values (R49), an earlier window is
in force for two ticks at most (R80), a work list spills what exceeds the 4,096 entries of its engine (R300; each at a place of its own,
log 67), what is under way has a number that was given out, and memory and host memory keep their canonical form, which is the model's own
(log 2). -/
def Obligations.StepKeepsInv : Prop := ∀ s t, StateInv s → step s = .next t → StateInv t

/-- R202, R373: taking a trap stops the group as it stands; a free handler slot serves it with the cause, the slot, the strand, the PC and
the VA in its registers, from the HANDLER address; a busy slot queues it; a group without a handler ends. Returning resumes it as it
stands, or ends it where the control word says so. -/
def Obligations.TrapEntryAndReturn : Prop :=
  (∀ s core slot g x, groupAt s core slot = some g → slot ≠ handlerSlot →
    let t := takeTrap s core slot x
    (HandlerFree s core slot g → groupAt t core slot = some { g with stop := .served x } ∧
      (∃ h, groupAt t core handlerSlot = some h ∧ Serving h slot g.dom x) ∧ (∀ a, readByte t.mem a = readByte s.mem a) ∧
      ∀ k, k ≠ groupKey core slot → k ≠ groupKey core handlerSlot → lookupAt t.groups k = lookupAt s.groups k) ∧
    (g.dom.handler ≠ 0 → groupAt s core handlerSlot ≠ none → groupAt t core slot = some { g with stop := .waiting x } ∧
      (coreAt t core).queue = (coreAt s core).queue ++ [slot] ∧ groupAt t core handlerSlot = groupAt s core handlerSlot) ∧
    (g.dom.handler = 0 → g.calls = [] → x.strand ≠ 8 → groupAt t core slot = none)) ∧
  ∀ s core h q g x, groupAt s core handlerSlot = some h → h.serves = some q → q ≠ handlerSlot → groupAt s core q = some g →
    g.stop = .served x → x.strand ≠ 8 →
    (h.control ≠ 1 → g.live ≠ [] → ∃ g', groupAt (handlerExit s core) core handlerSlot = none ∧
      groupAt (handlerExit s core) core q = some g' ∧ g'.stop = .running ∧ Resumed s g g') ∧
    (h.control = 1 → g.calls = [] → groupAt (handlerExit s core) core q = none)

/-- R53, R55, R56, R58, R181, R203, R374 to R376, R384, R411, R415: the conditions that instructions share, in their order: the place,
the allocation, empty sources, dead sources, tags, early reads, loop ends and poison; each traps with its cause before anything of the
instruction happens, and a destination still owed makes the gang wait before the last of them are looked at (log 28). For floating-point
and packed instructions these come first too, and where the formats agree all of them; for accesses of memory and of the scratchpad all
but poison, which has the highest code. Then, where nothing of that stands in the way, the conditions of memory accesses (R78, R382), of
the scratchpad and its windows (R387), of the constant bank (R266), of engine commands (R292, R408, R414), of lists, tasks, selectors
and gates (R378, R396, R414), of which the lowest code and then the lowest strand is reported (log 17; log 18 for the VA of a misaligned
access). -/
def Obligations.SharedConditions : Prop :=
  (∀ i n, commonRow i = some n → ∀ s core slot gang g, Ready n s core slot gang g → InZone n.zone slot g →
    InOrder i n s core slot gang g) ∧
  (∀ i s core slot gang g,
    (∀ x, floatRow s i = some x → Ready x.needs s core slot gang g → InZone x.needs.zone slot g →
      InOrderFirst i x.needs s core slot gang g ∧
      (x.also (issueCtx x.needs s core slot gang g) → InOrder i x.needs s core slot gang g)) ∧
    (∀ x, packRow i = some x → Ready x.1.needs s core slot gang g → InOrderFirst i x.1.needs s core slot gang g ∧
      (x.2 (issueCtx x.1.needs s core slot gang g) → InOrder i x.1.needs s core slot gang g)) ∧
    (∀ x, accessRow i = some x → Ready x.needs s core slot gang g → InOrderNext i x.needs s core slot gang g) ∧
    ∀ x, scratchRow i = some x → Ready x.needs s core slot gang g → InZone x.needs.zone slot g → InOrderNext i x.needs s core slot gang g) ∧
  (∀ i n, zonedRow i = some n → ∀ s core slot gang g, Ready n s core slot gang g → ¬ InZone n.zone slot g →
    (n.zone = .handlerOnly → Allocated n g) → TrapsWith i n s core slot gang g (zoneCause n.zone)) ∧
  (∀ i n s core slot gang g code k va, MayIssue n s core slot gang g → OwnTrap i n (issueCtx n s core slot gang g) s code k va →
    code ≠ 0x09 → code ≠ 0x0A → TrapsAt i n s core slot gang g code k va) ∧
  ∀ i x, commandRow i = some x → ∀ s core slot gang g,
    let n := x.needs (issueCtx {} s core slot gang g)
    let c := issueCtx n s core slot gang g
    MayIssue n s core slot gang g → c.act ≠ 0 →
    (∀ e, worst (x.conds c s) = some e → TrapsAt i n s core slot gang g e.code e.strand e.va) ∧
    (∀ k, copyRow i = some k → RecordOdd c k → TrapsAt i n s core slot gang g 0x15 c.low 0 ∨
      ∃ e ∈ x.conds c s, e.code < 0x15 ∧ TrapsAt i n s core slot gang g e.code e.strand e.va)

/-- R32, R41, R54, R93, R190, R400: a gang that has no turn changes nothing, whatever instruction of the core stream it stands at. The
second clause is the model's own: an instruction of the stream executes for no other agent, which is no case of the spec (log 3). -/
def Obligations.NoTurnNoEffect : Prop :=
  ∀ i : Instr, i.stream = .core → ∀ s,
    (∀ core slot gang, s.cur = .gang core slot gang → NoTurn s core slot gang → exec i s = .next s) ∧
    ((∀ core slot gang, s.cur ≠ .gang core slot gang) → exec i s = .fault .wrongAgent)
end

