-- ==== Sys2Proof/Laws/State.lean ====
section
/-! SUPPORT. What each update of the state leaves as it was: one lemma for each field and update. -/

namespace Sys2Proof.Machine

/-! `setGroup` changes groups alone. -/

@[simp] theorem setGroup_agenda (s : State) (core slot : Nat) (g : Group) : (setGroup s core slot g).agenda = s.agenda := rfl
@[simp] theorem setGroup_cur (s : State) (core slot : Nat) (g : Group) : (setGroup s core slot g).cur = s.cur := rfl
@[simp] theorem setGroup_free (s : State) (core slot : Nat) (g : Group) : (setGroup s core slot g).free = s.free := rfl
@[simp] theorem setGroup_nextId (s : State) (core slot : Nat) (g : Group) : (setGroup s core slot g).nextId = s.nextId := rfl
@[simp] theorem setGroup_ahead (s : State) (core slot : Nat) (g : Group) : (setGroup s core slot g).ahead = s.ahead := rfl
@[simp] theorem setGroup_dt (s : State) (core slot : Nat) (g : Group) : (setGroup s core slot g).dt = s.dt := rfl
@[simp] theorem setGroup_skewCore (s : State) (core slot : Nat) (g : Group) : (setGroup s core slot g).skewCore = s.skewCore := rfl
@[simp] theorem setGroup_skewSlice (s : State) (core slot : Nat) (g : Group) : (setGroup s core slot g).skewSlice = s.skewSlice := rfl
@[simp] theorem setGroup_unsync (s : State) (core slot : Nat) (g : Group) : (setGroup s core slot g).unsync = s.unsync := rfl
@[simp] theorem setGroup_lagging (s : State) (core slot : Nat) (g : Group) : (setGroup s core slot g).lagging = s.lagging := rfl
@[simp] theorem setGroup_blocks (s : State) (core slot : Nat) (g : Group) : (setGroup s core slot g).blocks = s.blocks := rfl
@[simp] theorem setGroup_seqs (s : State) (core slot : Nat) (g : Group) : (setGroup s core slot g).seqs = s.seqs := rfl
@[simp] theorem setGroup_cores (s : State) (core slot : Nat) (g : Group) : (setGroup s core slot g).cores = s.cores := rfl
@[simp] theorem setGroup_runs (s : State) (core slot : Nat) (g : Group) : (setGroup s core slot g).runs = s.runs := rfl
@[simp] theorem setGroup_launches (s : State) (core slot : Nat) (g : Group) : (setGroup s core slot g).launches = s.launches := rfl
@[simp] theorem setGroup_graphs (s : State) (core slot : Nat) (g : Group) : (setGroup s core slot g).graphs = s.graphs := rfl
@[simp] theorem setGroup_saved (s : State) (core slot : Nat) (g : Group) : (setGroup s core slot g).saved = s.saved := rfl
@[simp] theorem setGroup_net (s : State) (core slot : Nat) (g : Group) : (setGroup s core slot g).net = s.net := rfl
@[simp] theorem setGroup_replies (s : State) (core slot : Nat) (g : Group) : (setGroup s core slot g).replies = s.replies := rfl
@[simp] theorem setGroup_gathers (s : State) (core slot : Nat) (g : Group) : (setGroup s core slot g).gathers = s.gathers := rfl
@[simp] theorem setGroup_cmds (s : State) (core slot : Nat) (g : Group) : (setGroup s core slot g).cmds = s.cmds := rfl
@[simp] theorem setGroup_l1 (s : State) (core slot : Nat) (g : Group) : (setGroup s core slot g).l1 = s.l1 := rfl
@[simp] theorem setGroup_replicas (s : State) (core slot : Nat) (g : Group) : (setGroup s core slot g).replicas = s.replicas := rfl
@[simp] theorem setGroup_l2 (s : State) (core slot : Nat) (g : Group) : (setGroup s core slot g).l2 = s.l2 := rfl
@[simp] theorem setGroup_leases (s : State) (core slot : Nat) (g : Group) : (setGroup s core slot g).leases = s.leases := rfl
@[simp] theorem setGroup_versions (s : State) (core slot : Nat) (g : Group) : (setGroup s core slot g).versions = s.versions := rfl
@[simp] theorem setGroup_seen (s : State) (core slot : Nat) (g : Group) : (setGroup s core slot g).seen = s.seen := rfl
@[simp] theorem setGroup_mem (s : State) (core slot : Nat) (g : Group) : (setGroup s core slot g).mem = s.mem := rfl
@[simp] theorem setGroup_memPoison (s : State) (core slot : Nat) (g : Group) : (setGroup s core slot g).memPoison = s.memPoison := rfl
@[simp] theorem setGroup_covers (s : State) (core slot : Nat) (g : Group) : (setGroup s core slot g).covers = s.covers := rfl
@[simp] theorem setGroup_owners (s : State) (core slot : Nat) (g : Group) : (setGroup s core slot g).owners = s.owners := rfl
@[simp] theorem setGroup_stackRegs (s : State) (core slot : Nat) (g : Group) : (setGroup s core slot g).stackRegs = s.stackRegs := rfl
@[simp] theorem setGroup_computeMode (s : State) (core slot : Nat) (g : Group) : (setGroup s core slot g).computeMode = s.computeMode := rfl
@[simp] theorem setGroup_nbus (s : State) (core slot : Nat) (g : Group) : (setGroup s core slot g).nbus = s.nbus := rfl
@[simp] theorem setGroup_activations (s : State) (core slot : Nat) (g : Group) : (setGroup s core slot g).activations = s.activations := rfl
@[simp] theorem setGroup_credit (s : State) (core slot : Nat) (g : Group) : (setGroup s core slot g).credit = s.credit := rfl
@[simp] theorem setGroup_classes (s : State) (core slot : Nat) (g : Group) : (setGroup s core slot g).classes = s.classes := rfl
@[simp] theorem setGroup_parts (s : State) (core slot : Nat) (g : Group) : (setGroup s core slot g).parts = s.parts := rfl
@[simp] theorem setGroup_domains (s : State) (core slot : Nat) (g : Group) : (setGroup s core slot g).domains = s.domains := rfl
@[simp] theorem setGroup_fns (s : State) (core slot : Nat) (g : Group) : (setGroup s core slot g).fns = s.fns := rfl
@[simp] theorem setGroup_dlfw (s : State) (core slot : Nat) (g : Group) : (setGroup s core slot g).dlfw = s.dlfw := rfl
@[simp] theorem setGroup_logs (s : State) (core slot : Nat) (g : Group) : (setGroup s core slot g).logs = s.logs := rfl
@[simp] theorem setGroup_comms (s : State) (core slot : Nat) (g : Group) : (setGroup s core slot g).comms = s.comms := rfl
@[simp] theorem setGroup_health (s : State) (core slot : Nat) (g : Group) : (setGroup s core slot g).health = s.health := rfl
@[simp] theorem setGroup_temps (s : State) (core slot : Nat) (g : Group) : (setGroup s core slot g).temps = s.temps := rfl
@[simp] theorem setGroup_poweredDown (s : State) (core slot : Nat) (g : Group) : (setGroup s core slot g).poweredDown = s.poweredDown := rfl
@[simp] theorem setGroup_monitors (s : State) (core slot : Nat) (g : Group) : (setGroup s core slot g).monitors = s.monitors := rfl
@[simp] theorem setGroup_busRead (s : State) (core slot : Nat) (g : Group) : (setGroup s core slot g).busRead = s.busRead := rfl
@[simp] theorem setGroup_linkUp (s : State) (core slot : Nat) (g : Group) : (setGroup s core slot g).linkUp = s.linkUp := rfl
@[simp] theorem setGroup_retrain (s : State) (core slot : Nat) (g : Group) : (setGroup s core slot g).retrain = s.retrain := rfl
@[simp] theorem setGroup_aer (s : State) (core slot : Nat) (g : Group) : (setGroup s core slot g).aer = s.aer := rfl
@[simp] theorem setGroup_lanes (s : State) (core slot : Nat) (g : Group) : (setGroup s core slot g).lanes = s.lanes := rfl
@[simp] theorem setGroup_hostMem (s : State) (core slot : Nat) (g : Group) : (setGroup s core slot g).hostMem = s.hostMem := rfl
@[simp] theorem setGroup_hostBad (s : State) (core slot : Nat) (g : Group) : (setGroup s core slot g).hostBad = s.hostBad := rfl
@[simp] theorem setGroup_pfMessages (s : State) (core slot : Nat) (g : Group) : (setGroup s core slot g).pfMessages = s.pfMessages := rfl
@[simp] theorem setGroup_bringUp (s : State) (core slot : Nat) (g : Group) : (setGroup s core slot g).bringUp = s.bringUp := rfl
@[simp] theorem setGroup_bringUpFailed (s : State) (core slot : Nat)
    (g : Group) : (setGroup s core slot g).bringUpFailed = s.bringUpFailed := rfl
@[simp] theorem setGroup_image (s : State) (core slot : Nat) (g : Group) : (setGroup s core slot g).image = s.image := rfl
@[simp] theorem setGroup_imageSigned (s : State) (core slot : Nat) (g : Group) : (setGroup s core slot g).imageSigned = s.imageSigned := rfl
@[simp] theorem setGroup_replacement (s : State) (core slot : Nat) (g : Group) : (setGroup s core slot g).replacement = s.replacement := rfl
@[simp] theorem setGroup_measured (s : State) (core slot : Nat) (g : Group) : (setGroup s core slot g).measured = s.measured := rfl
@[simp] theorem setGroup_spdm (s : State) (core slot : Nat) (g : Group) : (setGroup s core slot g).spdm = s.spdm := rfl

/-! `dropGroup` changes groups alone. -/

@[simp] theorem dropGroup_agenda (s : State) (core slot : Nat) : (dropGroup s core slot).agenda = s.agenda := rfl
@[simp] theorem dropGroup_cur (s : State) (core slot : Nat) : (dropGroup s core slot).cur = s.cur := rfl
@[simp] theorem dropGroup_free (s : State) (core slot : Nat) : (dropGroup s core slot).free = s.free := rfl
@[simp] theorem dropGroup_nextId (s : State) (core slot : Nat) : (dropGroup s core slot).nextId = s.nextId := rfl
@[simp] theorem dropGroup_ahead (s : State) (core slot : Nat) : (dropGroup s core slot).ahead = s.ahead := rfl
@[simp] theorem dropGroup_dt (s : State) (core slot : Nat) : (dropGroup s core slot).dt = s.dt := rfl
@[simp] theorem dropGroup_skewCore (s : State) (core slot : Nat) : (dropGroup s core slot).skewCore = s.skewCore := rfl
@[simp] theorem dropGroup_skewSlice (s : State) (core slot : Nat) : (dropGroup s core slot).skewSlice = s.skewSlice := rfl
@[simp] theorem dropGroup_unsync (s : State) (core slot : Nat) : (dropGroup s core slot).unsync = s.unsync := rfl
@[simp] theorem dropGroup_lagging (s : State) (core slot : Nat) : (dropGroup s core slot).lagging = s.lagging := rfl
@[simp] theorem dropGroup_blocks (s : State) (core slot : Nat) : (dropGroup s core slot).blocks = s.blocks := rfl
@[simp] theorem dropGroup_seqs (s : State) (core slot : Nat) : (dropGroup s core slot).seqs = s.seqs := rfl
@[simp] theorem dropGroup_cores (s : State) (core slot : Nat) : (dropGroup s core slot).cores = s.cores := rfl
@[simp] theorem dropGroup_runs (s : State) (core slot : Nat) : (dropGroup s core slot).runs = s.runs := rfl
@[simp] theorem dropGroup_launches (s : State) (core slot : Nat) : (dropGroup s core slot).launches = s.launches := rfl
@[simp] theorem dropGroup_graphs (s : State) (core slot : Nat) : (dropGroup s core slot).graphs = s.graphs := rfl
@[simp] theorem dropGroup_saved (s : State) (core slot : Nat) : (dropGroup s core slot).saved = s.saved := rfl
@[simp] theorem dropGroup_net (s : State) (core slot : Nat) : (dropGroup s core slot).net = s.net := rfl
@[simp] theorem dropGroup_replies (s : State) (core slot : Nat) : (dropGroup s core slot).replies = s.replies := rfl
@[simp] theorem dropGroup_gathers (s : State) (core slot : Nat) : (dropGroup s core slot).gathers = s.gathers := rfl
@[simp] theorem dropGroup_cmds (s : State) (core slot : Nat) : (dropGroup s core slot).cmds = s.cmds := rfl
@[simp] theorem dropGroup_l1 (s : State) (core slot : Nat) : (dropGroup s core slot).l1 = s.l1 := rfl
@[simp] theorem dropGroup_replicas (s : State) (core slot : Nat) : (dropGroup s core slot).replicas = s.replicas := rfl
@[simp] theorem dropGroup_l2 (s : State) (core slot : Nat) : (dropGroup s core slot).l2 = s.l2 := rfl
@[simp] theorem dropGroup_leases (s : State) (core slot : Nat) : (dropGroup s core slot).leases = s.leases := rfl
@[simp] theorem dropGroup_versions (s : State) (core slot : Nat) : (dropGroup s core slot).versions = s.versions := rfl
@[simp] theorem dropGroup_seen (s : State) (core slot : Nat) : (dropGroup s core slot).seen = s.seen := rfl
@[simp] theorem dropGroup_mem (s : State) (core slot : Nat) : (dropGroup s core slot).mem = s.mem := rfl
@[simp] theorem dropGroup_memPoison (s : State) (core slot : Nat) : (dropGroup s core slot).memPoison = s.memPoison := rfl
@[simp] theorem dropGroup_covers (s : State) (core slot : Nat) : (dropGroup s core slot).covers = s.covers := rfl
@[simp] theorem dropGroup_owners (s : State) (core slot : Nat) : (dropGroup s core slot).owners = s.owners := rfl
@[simp] theorem dropGroup_stackRegs (s : State) (core slot : Nat) : (dropGroup s core slot).stackRegs = s.stackRegs := rfl
@[simp] theorem dropGroup_computeMode (s : State) (core slot : Nat) : (dropGroup s core slot).computeMode = s.computeMode := rfl
@[simp] theorem dropGroup_nbus (s : State) (core slot : Nat) : (dropGroup s core slot).nbus = s.nbus := rfl
@[simp] theorem dropGroup_activations (s : State) (core slot : Nat) : (dropGroup s core slot).activations = s.activations := rfl
@[simp] theorem dropGroup_credit (s : State) (core slot : Nat) : (dropGroup s core slot).credit = s.credit := rfl
@[simp] theorem dropGroup_classes (s : State) (core slot : Nat) : (dropGroup s core slot).classes = s.classes := rfl
@[simp] theorem dropGroup_parts (s : State) (core slot : Nat) : (dropGroup s core slot).parts = s.parts := rfl
@[simp] theorem dropGroup_domains (s : State) (core slot : Nat) : (dropGroup s core slot).domains = s.domains := rfl
@[simp] theorem dropGroup_fns (s : State) (core slot : Nat) : (dropGroup s core slot).fns = s.fns := rfl
@[simp] theorem dropGroup_dlfw (s : State) (core slot : Nat) : (dropGroup s core slot).dlfw = s.dlfw := rfl
@[simp] theorem dropGroup_logs (s : State) (core slot : Nat) : (dropGroup s core slot).logs = s.logs := rfl
@[simp] theorem dropGroup_comms (s : State) (core slot : Nat) : (dropGroup s core slot).comms = s.comms := rfl
@[simp] theorem dropGroup_health (s : State) (core slot : Nat) : (dropGroup s core slot).health = s.health := rfl
@[simp] theorem dropGroup_temps (s : State) (core slot : Nat) : (dropGroup s core slot).temps = s.temps := rfl
@[simp] theorem dropGroup_poweredDown (s : State) (core slot : Nat) : (dropGroup s core slot).poweredDown = s.poweredDown := rfl
@[simp] theorem dropGroup_monitors (s : State) (core slot : Nat) : (dropGroup s core slot).monitors = s.monitors := rfl
@[simp] theorem dropGroup_busRead (s : State) (core slot : Nat) : (dropGroup s core slot).busRead = s.busRead := rfl
@[simp] theorem dropGroup_linkUp (s : State) (core slot : Nat) : (dropGroup s core slot).linkUp = s.linkUp := rfl
@[simp] theorem dropGroup_retrain (s : State) (core slot : Nat) : (dropGroup s core slot).retrain = s.retrain := rfl
@[simp] theorem dropGroup_aer (s : State) (core slot : Nat) : (dropGroup s core slot).aer = s.aer := rfl
@[simp] theorem dropGroup_lanes (s : State) (core slot : Nat) : (dropGroup s core slot).lanes = s.lanes := rfl
@[simp] theorem dropGroup_hostMem (s : State) (core slot : Nat) : (dropGroup s core slot).hostMem = s.hostMem := rfl
@[simp] theorem dropGroup_hostBad (s : State) (core slot : Nat) : (dropGroup s core slot).hostBad = s.hostBad := rfl
@[simp] theorem dropGroup_pfMessages (s : State) (core slot : Nat) : (dropGroup s core slot).pfMessages = s.pfMessages := rfl
@[simp] theorem dropGroup_bringUp (s : State) (core slot : Nat) : (dropGroup s core slot).bringUp = s.bringUp := rfl
@[simp] theorem dropGroup_bringUpFailed (s : State) (core slot : Nat) : (dropGroup s core slot).bringUpFailed = s.bringUpFailed := rfl
@[simp] theorem dropGroup_image (s : State) (core slot : Nat) : (dropGroup s core slot).image = s.image := rfl
@[simp] theorem dropGroup_imageSigned (s : State) (core slot : Nat) : (dropGroup s core slot).imageSigned = s.imageSigned := rfl
@[simp] theorem dropGroup_replacement (s : State) (core slot : Nat) : (dropGroup s core slot).replacement = s.replacement := rfl
@[simp] theorem dropGroup_measured (s : State) (core slot : Nat) : (dropGroup s core slot).measured = s.measured := rfl
@[simp] theorem dropGroup_spdm (s : State) (core slot : Nat) : (dropGroup s core slot).spdm = s.spdm := rfl

/-! `modifyGroup` changes groups alone. -/

@[simp] theorem modifyGroup_agenda (s : State) (core slot : Nat) (f : Group → Group) : (modifyGroup s core slot f).agenda = s.agenda := rfl
@[simp] theorem modifyGroup_cur (s : State) (core slot : Nat) (f : Group → Group) : (modifyGroup s core slot f).cur = s.cur := rfl
@[simp] theorem modifyGroup_free (s : State) (core slot : Nat) (f : Group → Group) : (modifyGroup s core slot f).free = s.free := rfl
@[simp] theorem modifyGroup_nextId (s : State) (core slot : Nat) (f : Group → Group) : (modifyGroup s core slot f).nextId = s.nextId := rfl
@[simp] theorem modifyGroup_ahead (s : State) (core slot : Nat) (f : Group → Group) : (modifyGroup s core slot f).ahead = s.ahead := rfl
@[simp] theorem modifyGroup_dt (s : State) (core slot : Nat) (f : Group → Group) : (modifyGroup s core slot f).dt = s.dt := rfl
@[simp] theorem modifyGroup_skewCore (s : State) (core slot : Nat)
    (f : Group → Group) : (modifyGroup s core slot f).skewCore = s.skewCore := rfl
@[simp] theorem modifyGroup_skewSlice (s : State) (core slot : Nat)
    (f : Group → Group) : (modifyGroup s core slot f).skewSlice = s.skewSlice := rfl
@[simp] theorem modifyGroup_unsync (s : State) (core slot : Nat) (f : Group → Group) : (modifyGroup s core slot f).unsync = s.unsync := rfl
@[simp] theorem modifyGroup_lagging (s : State) (core slot : Nat)
    (f : Group → Group) : (modifyGroup s core slot f).lagging = s.lagging := rfl
@[simp] theorem modifyGroup_blocks (s : State) (core slot : Nat) (f : Group → Group) : (modifyGroup s core slot f).blocks = s.blocks := rfl
@[simp] theorem modifyGroup_seqs (s : State) (core slot : Nat) (f : Group → Group) : (modifyGroup s core slot f).seqs = s.seqs := rfl
@[simp] theorem modifyGroup_cores (s : State) (core slot : Nat) (f : Group → Group) : (modifyGroup s core slot f).cores = s.cores := rfl
@[simp] theorem modifyGroup_runs (s : State) (core slot : Nat) (f : Group → Group) : (modifyGroup s core slot f).runs = s.runs := rfl
@[simp] theorem modifyGroup_launches (s : State) (core slot : Nat)
    (f : Group → Group) : (modifyGroup s core slot f).launches = s.launches := rfl
@[simp] theorem modifyGroup_graphs (s : State) (core slot : Nat) (f : Group → Group) : (modifyGroup s core slot f).graphs = s.graphs := rfl
@[simp] theorem modifyGroup_saved (s : State) (core slot : Nat) (f : Group → Group) : (modifyGroup s core slot f).saved = s.saved := rfl
@[simp] theorem modifyGroup_net (s : State) (core slot : Nat) (f : Group → Group) : (modifyGroup s core slot f).net = s.net := rfl
@[simp] theorem modifyGroup_replies (s : State) (core slot : Nat)
    (f : Group → Group) : (modifyGroup s core slot f).replies = s.replies := rfl
@[simp] theorem modifyGroup_gathers (s : State) (core slot : Nat)
    (f : Group → Group) : (modifyGroup s core slot f).gathers = s.gathers := rfl
@[simp] theorem modifyGroup_cmds (s : State) (core slot : Nat) (f : Group → Group) : (modifyGroup s core slot f).cmds = s.cmds := rfl
@[simp] theorem modifyGroup_l1 (s : State) (core slot : Nat) (f : Group → Group) : (modifyGroup s core slot f).l1 = s.l1 := rfl
@[simp] theorem modifyGroup_replicas (s : State) (core slot : Nat)
    (f : Group → Group) : (modifyGroup s core slot f).replicas = s.replicas := rfl
@[simp] theorem modifyGroup_l2 (s : State) (core slot : Nat) (f : Group → Group) : (modifyGroup s core slot f).l2 = s.l2 := rfl
@[simp] theorem modifyGroup_leases (s : State) (core slot : Nat) (f : Group → Group) : (modifyGroup s core slot f).leases = s.leases := rfl
@[simp] theorem modifyGroup_versions (s : State) (core slot : Nat)
    (f : Group → Group) : (modifyGroup s core slot f).versions = s.versions := rfl
@[simp] theorem modifyGroup_seen (s : State) (core slot : Nat) (f : Group → Group) : (modifyGroup s core slot f).seen = s.seen := rfl
@[simp] theorem modifyGroup_mem (s : State) (core slot : Nat) (f : Group → Group) : (modifyGroup s core slot f).mem = s.mem := rfl
@[simp] theorem modifyGroup_memPoison (s : State) (core slot : Nat)
    (f : Group → Group) : (modifyGroup s core slot f).memPoison = s.memPoison := rfl
@[simp] theorem modifyGroup_covers (s : State) (core slot : Nat) (f : Group → Group) : (modifyGroup s core slot f).covers = s.covers := rfl
@[simp] theorem modifyGroup_owners (s : State) (core slot : Nat) (f : Group → Group) : (modifyGroup s core slot f).owners = s.owners := rfl
@[simp] theorem modifyGroup_stackRegs (s : State) (core slot : Nat)
    (f : Group → Group) : (modifyGroup s core slot f).stackRegs = s.stackRegs := rfl
@[simp] theorem modifyGroup_computeMode (s : State) (core slot : Nat)
    (f : Group → Group) : (modifyGroup s core slot f).computeMode = s.computeMode := rfl
@[simp] theorem modifyGroup_nbus (s : State) (core slot : Nat) (f : Group → Group) : (modifyGroup s core slot f).nbus = s.nbus := rfl
@[simp] theorem modifyGroup_activations (s : State) (core slot : Nat)
    (f : Group → Group) : (modifyGroup s core slot f).activations = s.activations := rfl
@[simp] theorem modifyGroup_credit (s : State) (core slot : Nat) (f : Group → Group) : (modifyGroup s core slot f).credit = s.credit := rfl
@[simp] theorem modifyGroup_classes (s : State) (core slot : Nat)
    (f : Group → Group) : (modifyGroup s core slot f).classes = s.classes := rfl
@[simp] theorem modifyGroup_parts (s : State) (core slot : Nat) (f : Group → Group) : (modifyGroup s core slot f).parts = s.parts := rfl
@[simp] theorem modifyGroup_domains (s : State) (core slot : Nat)
    (f : Group → Group) : (modifyGroup s core slot f).domains = s.domains := rfl
@[simp] theorem modifyGroup_fns (s : State) (core slot : Nat) (f : Group → Group) : (modifyGroup s core slot f).fns = s.fns := rfl
@[simp] theorem modifyGroup_dlfw (s : State) (core slot : Nat) (f : Group → Group) : (modifyGroup s core slot f).dlfw = s.dlfw := rfl
@[simp] theorem modifyGroup_logs (s : State) (core slot : Nat) (f : Group → Group) : (modifyGroup s core slot f).logs = s.logs := rfl
@[simp] theorem modifyGroup_comms (s : State) (core slot : Nat) (f : Group → Group) : (modifyGroup s core slot f).comms = s.comms := rfl
@[simp] theorem modifyGroup_health (s : State) (core slot : Nat) (f : Group → Group) : (modifyGroup s core slot f).health = s.health := rfl
@[simp] theorem modifyGroup_temps (s : State) (core slot : Nat) (f : Group → Group) : (modifyGroup s core slot f).temps = s.temps := rfl
@[simp] theorem modifyGroup_poweredDown (s : State) (core slot : Nat)
    (f : Group → Group) : (modifyGroup s core slot f).poweredDown = s.poweredDown := rfl
@[simp] theorem modifyGroup_monitors (s : State) (core slot : Nat)
    (f : Group → Group) : (modifyGroup s core slot f).monitors = s.monitors := rfl
@[simp] theorem modifyGroup_busRead (s : State) (core slot : Nat)
    (f : Group → Group) : (modifyGroup s core slot f).busRead = s.busRead := rfl
@[simp] theorem modifyGroup_linkUp (s : State) (core slot : Nat) (f : Group → Group) : (modifyGroup s core slot f).linkUp = s.linkUp := rfl
@[simp] theorem modifyGroup_retrain (s : State) (core slot : Nat)
    (f : Group → Group) : (modifyGroup s core slot f).retrain = s.retrain := rfl
@[simp] theorem modifyGroup_aer (s : State) (core slot : Nat) (f : Group → Group) : (modifyGroup s core slot f).aer = s.aer := rfl
@[simp] theorem modifyGroup_lanes (s : State) (core slot : Nat) (f : Group → Group) : (modifyGroup s core slot f).lanes = s.lanes := rfl
@[simp] theorem modifyGroup_hostMem (s : State) (core slot : Nat)
    (f : Group → Group) : (modifyGroup s core slot f).hostMem = s.hostMem := rfl
@[simp] theorem modifyGroup_hostBad (s : State) (core slot : Nat)
    (f : Group → Group) : (modifyGroup s core slot f).hostBad = s.hostBad := rfl
@[simp] theorem modifyGroup_pfMessages (s : State) (core slot : Nat)
    (f : Group → Group) : (modifyGroup s core slot f).pfMessages = s.pfMessages := rfl
@[simp] theorem modifyGroup_bringUp (s : State) (core slot : Nat)
    (f : Group → Group) : (modifyGroup s core slot f).bringUp = s.bringUp := rfl
@[simp] theorem modifyGroup_bringUpFailed (s : State) (core slot : Nat)
    (f : Group → Group) : (modifyGroup s core slot f).bringUpFailed = s.bringUpFailed := rfl
@[simp] theorem modifyGroup_image (s : State) (core slot : Nat) (f : Group → Group) : (modifyGroup s core slot f).image = s.image := rfl
@[simp] theorem modifyGroup_imageSigned (s : State) (core slot : Nat)
    (f : Group → Group) : (modifyGroup s core slot f).imageSigned = s.imageSigned := rfl
@[simp] theorem modifyGroup_replacement (s : State) (core slot : Nat)
    (f : Group → Group) : (modifyGroup s core slot f).replacement = s.replacement := rfl
@[simp] theorem modifyGroup_measured (s : State) (core slot : Nat)
    (f : Group → Group) : (modifyGroup s core slot f).measured = s.measured := rfl
@[simp] theorem modifyGroup_spdm (s : State) (core slot : Nat) (f : Group → Group) : (modifyGroup s core slot f).spdm = s.spdm := rfl

/-! `setCore` changes cores alone. -/

@[simp] theorem setCore_agenda (s : State) (c : Nat) (x : Core) : (setCore s c x).agenda = s.agenda := rfl
@[simp] theorem setCore_cur (s : State) (c : Nat) (x : Core) : (setCore s c x).cur = s.cur := rfl
@[simp] theorem setCore_free (s : State) (c : Nat) (x : Core) : (setCore s c x).free = s.free := rfl
@[simp] theorem setCore_nextId (s : State) (c : Nat) (x : Core) : (setCore s c x).nextId = s.nextId := rfl
@[simp] theorem setCore_ahead (s : State) (c : Nat) (x : Core) : (setCore s c x).ahead = s.ahead := rfl
@[simp] theorem setCore_dt (s : State) (c : Nat) (x : Core) : (setCore s c x).dt = s.dt := rfl
@[simp] theorem setCore_skewCore (s : State) (c : Nat) (x : Core) : (setCore s c x).skewCore = s.skewCore := rfl
@[simp] theorem setCore_skewSlice (s : State) (c : Nat) (x : Core) : (setCore s c x).skewSlice = s.skewSlice := rfl
@[simp] theorem setCore_unsync (s : State) (c : Nat) (x : Core) : (setCore s c x).unsync = s.unsync := rfl
@[simp] theorem setCore_lagging (s : State) (c : Nat) (x : Core) : (setCore s c x).lagging = s.lagging := rfl
@[simp] theorem setCore_groups (s : State) (c : Nat) (x : Core) : (setCore s c x).groups = s.groups := rfl
@[simp] theorem setCore_blocks (s : State) (c : Nat) (x : Core) : (setCore s c x).blocks = s.blocks := rfl
@[simp] theorem setCore_seqs (s : State) (c : Nat) (x : Core) : (setCore s c x).seqs = s.seqs := rfl
@[simp] theorem setCore_runs (s : State) (c : Nat) (x : Core) : (setCore s c x).runs = s.runs := rfl
@[simp] theorem setCore_launches (s : State) (c : Nat) (x : Core) : (setCore s c x).launches = s.launches := rfl
@[simp] theorem setCore_graphs (s : State) (c : Nat) (x : Core) : (setCore s c x).graphs = s.graphs := rfl
@[simp] theorem setCore_saved (s : State) (c : Nat) (x : Core) : (setCore s c x).saved = s.saved := rfl
@[simp] theorem setCore_net (s : State) (c : Nat) (x : Core) : (setCore s c x).net = s.net := rfl
@[simp] theorem setCore_replies (s : State) (c : Nat) (x : Core) : (setCore s c x).replies = s.replies := rfl
@[simp] theorem setCore_gathers (s : State) (c : Nat) (x : Core) : (setCore s c x).gathers = s.gathers := rfl
@[simp] theorem setCore_cmds (s : State) (c : Nat) (x : Core) : (setCore s c x).cmds = s.cmds := rfl
@[simp] theorem setCore_l1 (s : State) (c : Nat) (x : Core) : (setCore s c x).l1 = s.l1 := rfl
@[simp] theorem setCore_replicas (s : State) (c : Nat) (x : Core) : (setCore s c x).replicas = s.replicas := rfl
@[simp] theorem setCore_l2 (s : State) (c : Nat) (x : Core) : (setCore s c x).l2 = s.l2 := rfl
@[simp] theorem setCore_leases (s : State) (c : Nat) (x : Core) : (setCore s c x).leases = s.leases := rfl
@[simp] theorem setCore_versions (s : State) (c : Nat) (x : Core) : (setCore s c x).versions = s.versions := rfl
@[simp] theorem setCore_seen (s : State) (c : Nat) (x : Core) : (setCore s c x).seen = s.seen := rfl
@[simp] theorem setCore_mem (s : State) (c : Nat) (x : Core) : (setCore s c x).mem = s.mem := rfl
@[simp] theorem setCore_memPoison (s : State) (c : Nat) (x : Core) : (setCore s c x).memPoison = s.memPoison := rfl
@[simp] theorem setCore_covers (s : State) (c : Nat) (x : Core) : (setCore s c x).covers = s.covers := rfl
@[simp] theorem setCore_owners (s : State) (c : Nat) (x : Core) : (setCore s c x).owners = s.owners := rfl
@[simp] theorem setCore_stackRegs (s : State) (c : Nat) (x : Core) : (setCore s c x).stackRegs = s.stackRegs := rfl
@[simp] theorem setCore_computeMode (s : State) (c : Nat) (x : Core) : (setCore s c x).computeMode = s.computeMode := rfl
@[simp] theorem setCore_nbus (s : State) (c : Nat) (x : Core) : (setCore s c x).nbus = s.nbus := rfl
@[simp] theorem setCore_activations (s : State) (c : Nat) (x : Core) : (setCore s c x).activations = s.activations := rfl
@[simp] theorem setCore_credit (s : State) (c : Nat) (x : Core) : (setCore s c x).credit = s.credit := rfl
@[simp] theorem setCore_classes (s : State) (c : Nat) (x : Core) : (setCore s c x).classes = s.classes := rfl
@[simp] theorem setCore_parts (s : State) (c : Nat) (x : Core) : (setCore s c x).parts = s.parts := rfl
@[simp] theorem setCore_domains (s : State) (c : Nat) (x : Core) : (setCore s c x).domains = s.domains := rfl
@[simp] theorem setCore_fns (s : State) (c : Nat) (x : Core) : (setCore s c x).fns = s.fns := rfl
@[simp] theorem setCore_dlfw (s : State) (c : Nat) (x : Core) : (setCore s c x).dlfw = s.dlfw := rfl
@[simp] theorem setCore_logs (s : State) (c : Nat) (x : Core) : (setCore s c x).logs = s.logs := rfl
@[simp] theorem setCore_comms (s : State) (c : Nat) (x : Core) : (setCore s c x).comms = s.comms := rfl
@[simp] theorem setCore_health (s : State) (c : Nat) (x : Core) : (setCore s c x).health = s.health := rfl
@[simp] theorem setCore_temps (s : State) (c : Nat) (x : Core) : (setCore s c x).temps = s.temps := rfl
@[simp] theorem setCore_poweredDown (s : State) (c : Nat) (x : Core) : (setCore s c x).poweredDown = s.poweredDown := rfl
@[simp] theorem setCore_monitors (s : State) (c : Nat) (x : Core) : (setCore s c x).monitors = s.monitors := rfl
@[simp] theorem setCore_busRead (s : State) (c : Nat) (x : Core) : (setCore s c x).busRead = s.busRead := rfl
@[simp] theorem setCore_linkUp (s : State) (c : Nat) (x : Core) : (setCore s c x).linkUp = s.linkUp := rfl
@[simp] theorem setCore_retrain (s : State) (c : Nat) (x : Core) : (setCore s c x).retrain = s.retrain := rfl
@[simp] theorem setCore_aer (s : State) (c : Nat) (x : Core) : (setCore s c x).aer = s.aer := rfl
@[simp] theorem setCore_lanes (s : State) (c : Nat) (x : Core) : (setCore s c x).lanes = s.lanes := rfl
@[simp] theorem setCore_hostMem (s : State) (c : Nat) (x : Core) : (setCore s c x).hostMem = s.hostMem := rfl
@[simp] theorem setCore_hostBad (s : State) (c : Nat) (x : Core) : (setCore s c x).hostBad = s.hostBad := rfl
@[simp] theorem setCore_pfMessages (s : State) (c : Nat) (x : Core) : (setCore s c x).pfMessages = s.pfMessages := rfl
@[simp] theorem setCore_bringUp (s : State) (c : Nat) (x : Core) : (setCore s c x).bringUp = s.bringUp := rfl
@[simp] theorem setCore_bringUpFailed (s : State) (c : Nat) (x : Core) : (setCore s c x).bringUpFailed = s.bringUpFailed := rfl
@[simp] theorem setCore_image (s : State) (c : Nat) (x : Core) : (setCore s c x).image = s.image := rfl
@[simp] theorem setCore_imageSigned (s : State) (c : Nat) (x : Core) : (setCore s c x).imageSigned = s.imageSigned := rfl
@[simp] theorem setCore_replacement (s : State) (c : Nat) (x : Core) : (setCore s c x).replacement = s.replacement := rfl
@[simp] theorem setCore_measured (s : State) (c : Nat) (x : Core) : (setCore s c x).measured = s.measured := rfl
@[simp] theorem setCore_spdm (s : State) (c : Nat) (x : Core) : (setCore s c x).spdm = s.spdm := rfl

/-! `setBlock` changes blocks alone. -/

@[simp] theorem setBlock_agenda (s : State) (b : Nat) (x : Block) : (setBlock s b x).agenda = s.agenda := rfl
@[simp] theorem setBlock_cur (s : State) (b : Nat) (x : Block) : (setBlock s b x).cur = s.cur := rfl
@[simp] theorem setBlock_free (s : State) (b : Nat) (x : Block) : (setBlock s b x).free = s.free := rfl
@[simp] theorem setBlock_nextId (s : State) (b : Nat) (x : Block) : (setBlock s b x).nextId = s.nextId := rfl
@[simp] theorem setBlock_ahead (s : State) (b : Nat) (x : Block) : (setBlock s b x).ahead = s.ahead := rfl
@[simp] theorem setBlock_dt (s : State) (b : Nat) (x : Block) : (setBlock s b x).dt = s.dt := rfl
@[simp] theorem setBlock_skewCore (s : State) (b : Nat) (x : Block) : (setBlock s b x).skewCore = s.skewCore := rfl
@[simp] theorem setBlock_skewSlice (s : State) (b : Nat) (x : Block) : (setBlock s b x).skewSlice = s.skewSlice := rfl
@[simp] theorem setBlock_unsync (s : State) (b : Nat) (x : Block) : (setBlock s b x).unsync = s.unsync := rfl
@[simp] theorem setBlock_lagging (s : State) (b : Nat) (x : Block) : (setBlock s b x).lagging = s.lagging := rfl
@[simp] theorem setBlock_groups (s : State) (b : Nat) (x : Block) : (setBlock s b x).groups = s.groups := rfl
@[simp] theorem setBlock_seqs (s : State) (b : Nat) (x : Block) : (setBlock s b x).seqs = s.seqs := rfl
@[simp] theorem setBlock_cores (s : State) (b : Nat) (x : Block) : (setBlock s b x).cores = s.cores := rfl
@[simp] theorem setBlock_runs (s : State) (b : Nat) (x : Block) : (setBlock s b x).runs = s.runs := rfl
@[simp] theorem setBlock_launches (s : State) (b : Nat) (x : Block) : (setBlock s b x).launches = s.launches := rfl
@[simp] theorem setBlock_graphs (s : State) (b : Nat) (x : Block) : (setBlock s b x).graphs = s.graphs := rfl
@[simp] theorem setBlock_saved (s : State) (b : Nat) (x : Block) : (setBlock s b x).saved = s.saved := rfl
@[simp] theorem setBlock_net (s : State) (b : Nat) (x : Block) : (setBlock s b x).net = s.net := rfl
@[simp] theorem setBlock_replies (s : State) (b : Nat) (x : Block) : (setBlock s b x).replies = s.replies := rfl
@[simp] theorem setBlock_gathers (s : State) (b : Nat) (x : Block) : (setBlock s b x).gathers = s.gathers := rfl
@[simp] theorem setBlock_cmds (s : State) (b : Nat) (x : Block) : (setBlock s b x).cmds = s.cmds := rfl
@[simp] theorem setBlock_l1 (s : State) (b : Nat) (x : Block) : (setBlock s b x).l1 = s.l1 := rfl
@[simp] theorem setBlock_replicas (s : State) (b : Nat) (x : Block) : (setBlock s b x).replicas = s.replicas := rfl
@[simp] theorem setBlock_l2 (s : State) (b : Nat) (x : Block) : (setBlock s b x).l2 = s.l2 := rfl
@[simp] theorem setBlock_leases (s : State) (b : Nat) (x : Block) : (setBlock s b x).leases = s.leases := rfl
@[simp] theorem setBlock_versions (s : State) (b : Nat) (x : Block) : (setBlock s b x).versions = s.versions := rfl
@[simp] theorem setBlock_seen (s : State) (b : Nat) (x : Block) : (setBlock s b x).seen = s.seen := rfl
@[simp] theorem setBlock_mem (s : State) (b : Nat) (x : Block) : (setBlock s b x).mem = s.mem := rfl
@[simp] theorem setBlock_memPoison (s : State) (b : Nat) (x : Block) : (setBlock s b x).memPoison = s.memPoison := rfl
@[simp] theorem setBlock_covers (s : State) (b : Nat) (x : Block) : (setBlock s b x).covers = s.covers := rfl
@[simp] theorem setBlock_owners (s : State) (b : Nat) (x : Block) : (setBlock s b x).owners = s.owners := rfl
@[simp] theorem setBlock_stackRegs (s : State) (b : Nat) (x : Block) : (setBlock s b x).stackRegs = s.stackRegs := rfl
@[simp] theorem setBlock_computeMode (s : State) (b : Nat) (x : Block) : (setBlock s b x).computeMode = s.computeMode := rfl
@[simp] theorem setBlock_nbus (s : State) (b : Nat) (x : Block) : (setBlock s b x).nbus = s.nbus := rfl
@[simp] theorem setBlock_activations (s : State) (b : Nat) (x : Block) : (setBlock s b x).activations = s.activations := rfl
@[simp] theorem setBlock_credit (s : State) (b : Nat) (x : Block) : (setBlock s b x).credit = s.credit := rfl
@[simp] theorem setBlock_classes (s : State) (b : Nat) (x : Block) : (setBlock s b x).classes = s.classes := rfl
@[simp] theorem setBlock_parts (s : State) (b : Nat) (x : Block) : (setBlock s b x).parts = s.parts := rfl
@[simp] theorem setBlock_domains (s : State) (b : Nat) (x : Block) : (setBlock s b x).domains = s.domains := rfl
@[simp] theorem setBlock_fns (s : State) (b : Nat) (x : Block) : (setBlock s b x).fns = s.fns := rfl
@[simp] theorem setBlock_dlfw (s : State) (b : Nat) (x : Block) : (setBlock s b x).dlfw = s.dlfw := rfl
@[simp] theorem setBlock_logs (s : State) (b : Nat) (x : Block) : (setBlock s b x).logs = s.logs := rfl
@[simp] theorem setBlock_comms (s : State) (b : Nat) (x : Block) : (setBlock s b x).comms = s.comms := rfl
@[simp] theorem setBlock_health (s : State) (b : Nat) (x : Block) : (setBlock s b x).health = s.health := rfl
@[simp] theorem setBlock_temps (s : State) (b : Nat) (x : Block) : (setBlock s b x).temps = s.temps := rfl
@[simp] theorem setBlock_poweredDown (s : State) (b : Nat) (x : Block) : (setBlock s b x).poweredDown = s.poweredDown := rfl
@[simp] theorem setBlock_monitors (s : State) (b : Nat) (x : Block) : (setBlock s b x).monitors = s.monitors := rfl
@[simp] theorem setBlock_busRead (s : State) (b : Nat) (x : Block) : (setBlock s b x).busRead = s.busRead := rfl
@[simp] theorem setBlock_linkUp (s : State) (b : Nat) (x : Block) : (setBlock s b x).linkUp = s.linkUp := rfl
@[simp] theorem setBlock_retrain (s : State) (b : Nat) (x : Block) : (setBlock s b x).retrain = s.retrain := rfl
@[simp] theorem setBlock_aer (s : State) (b : Nat) (x : Block) : (setBlock s b x).aer = s.aer := rfl
@[simp] theorem setBlock_lanes (s : State) (b : Nat) (x : Block) : (setBlock s b x).lanes = s.lanes := rfl
@[simp] theorem setBlock_hostMem (s : State) (b : Nat) (x : Block) : (setBlock s b x).hostMem = s.hostMem := rfl
@[simp] theorem setBlock_hostBad (s : State) (b : Nat) (x : Block) : (setBlock s b x).hostBad = s.hostBad := rfl
@[simp] theorem setBlock_pfMessages (s : State) (b : Nat) (x : Block) : (setBlock s b x).pfMessages = s.pfMessages := rfl
@[simp] theorem setBlock_bringUp (s : State) (b : Nat) (x : Block) : (setBlock s b x).bringUp = s.bringUp := rfl
@[simp] theorem setBlock_bringUpFailed (s : State) (b : Nat) (x : Block) : (setBlock s b x).bringUpFailed = s.bringUpFailed := rfl
@[simp] theorem setBlock_image (s : State) (b : Nat) (x : Block) : (setBlock s b x).image = s.image := rfl
@[simp] theorem setBlock_imageSigned (s : State) (b : Nat) (x : Block) : (setBlock s b x).imageSigned = s.imageSigned := rfl
@[simp] theorem setBlock_replacement (s : State) (b : Nat) (x : Block) : (setBlock s b x).replacement = s.replacement := rfl
@[simp] theorem setBlock_measured (s : State) (b : Nat) (x : Block) : (setBlock s b x).measured = s.measured := rfl
@[simp] theorem setBlock_spdm (s : State) (b : Nat) (x : Block) : (setBlock s b x).spdm = s.spdm := rfl

/-! `modifyBlock` changes blocks alone. -/

@[simp] theorem modifyBlock_agenda (s : State) (b : Nat) (f : Block → Block) : (modifyBlock s b f).agenda = s.agenda := rfl
@[simp] theorem modifyBlock_cur (s : State) (b : Nat) (f : Block → Block) : (modifyBlock s b f).cur = s.cur := rfl
@[simp] theorem modifyBlock_free (s : State) (b : Nat) (f : Block → Block) : (modifyBlock s b f).free = s.free := rfl
@[simp] theorem modifyBlock_nextId (s : State) (b : Nat) (f : Block → Block) : (modifyBlock s b f).nextId = s.nextId := rfl
@[simp] theorem modifyBlock_ahead (s : State) (b : Nat) (f : Block → Block) : (modifyBlock s b f).ahead = s.ahead := rfl
@[simp] theorem modifyBlock_dt (s : State) (b : Nat) (f : Block → Block) : (modifyBlock s b f).dt = s.dt := rfl
@[simp] theorem modifyBlock_skewCore (s : State) (b : Nat) (f : Block → Block) : (modifyBlock s b f).skewCore = s.skewCore := rfl
@[simp] theorem modifyBlock_skewSlice (s : State) (b : Nat) (f : Block → Block) : (modifyBlock s b f).skewSlice = s.skewSlice := rfl
@[simp] theorem modifyBlock_unsync (s : State) (b : Nat) (f : Block → Block) : (modifyBlock s b f).unsync = s.unsync := rfl
@[simp] theorem modifyBlock_lagging (s : State) (b : Nat) (f : Block → Block) : (modifyBlock s b f).lagging = s.lagging := rfl
@[simp] theorem modifyBlock_groups (s : State) (b : Nat) (f : Block → Block) : (modifyBlock s b f).groups = s.groups := rfl
@[simp] theorem modifyBlock_seqs (s : State) (b : Nat) (f : Block → Block) : (modifyBlock s b f).seqs = s.seqs := rfl
@[simp] theorem modifyBlock_cores (s : State) (b : Nat) (f : Block → Block) : (modifyBlock s b f).cores = s.cores := rfl
@[simp] theorem modifyBlock_runs (s : State) (b : Nat) (f : Block → Block) : (modifyBlock s b f).runs = s.runs := rfl
@[simp] theorem modifyBlock_launches (s : State) (b : Nat) (f : Block → Block) : (modifyBlock s b f).launches = s.launches := rfl
@[simp] theorem modifyBlock_graphs (s : State) (b : Nat) (f : Block → Block) : (modifyBlock s b f).graphs = s.graphs := rfl
@[simp] theorem modifyBlock_saved (s : State) (b : Nat) (f : Block → Block) : (modifyBlock s b f).saved = s.saved := rfl
@[simp] theorem modifyBlock_net (s : State) (b : Nat) (f : Block → Block) : (modifyBlock s b f).net = s.net := rfl
@[simp] theorem modifyBlock_replies (s : State) (b : Nat) (f : Block → Block) : (modifyBlock s b f).replies = s.replies := rfl
@[simp] theorem modifyBlock_gathers (s : State) (b : Nat) (f : Block → Block) : (modifyBlock s b f).gathers = s.gathers := rfl
@[simp] theorem modifyBlock_cmds (s : State) (b : Nat) (f : Block → Block) : (modifyBlock s b f).cmds = s.cmds := rfl
@[simp] theorem modifyBlock_l1 (s : State) (b : Nat) (f : Block → Block) : (modifyBlock s b f).l1 = s.l1 := rfl
@[simp] theorem modifyBlock_replicas (s : State) (b : Nat) (f : Block → Block) : (modifyBlock s b f).replicas = s.replicas := rfl
@[simp] theorem modifyBlock_l2 (s : State) (b : Nat) (f : Block → Block) : (modifyBlock s b f).l2 = s.l2 := rfl
@[simp] theorem modifyBlock_leases (s : State) (b : Nat) (f : Block → Block) : (modifyBlock s b f).leases = s.leases := rfl
@[simp] theorem modifyBlock_versions (s : State) (b : Nat) (f : Block → Block) : (modifyBlock s b f).versions = s.versions := rfl
@[simp] theorem modifyBlock_seen (s : State) (b : Nat) (f : Block → Block) : (modifyBlock s b f).seen = s.seen := rfl
@[simp] theorem modifyBlock_mem (s : State) (b : Nat) (f : Block → Block) : (modifyBlock s b f).mem = s.mem := rfl
@[simp] theorem modifyBlock_memPoison (s : State) (b : Nat) (f : Block → Block) : (modifyBlock s b f).memPoison = s.memPoison := rfl
@[simp] theorem modifyBlock_covers (s : State) (b : Nat) (f : Block → Block) : (modifyBlock s b f).covers = s.covers := rfl
@[simp] theorem modifyBlock_owners (s : State) (b : Nat) (f : Block → Block) : (modifyBlock s b f).owners = s.owners := rfl
@[simp] theorem modifyBlock_stackRegs (s : State) (b : Nat) (f : Block → Block) : (modifyBlock s b f).stackRegs = s.stackRegs := rfl
@[simp] theorem modifyBlock_computeMode (s : State) (b : Nat) (f : Block → Block) : (modifyBlock s b f).computeMode = s.computeMode := rfl
@[simp] theorem modifyBlock_nbus (s : State) (b : Nat) (f : Block → Block) : (modifyBlock s b f).nbus = s.nbus := rfl
@[simp] theorem modifyBlock_activations (s : State) (b : Nat) (f : Block → Block) : (modifyBlock s b f).activations = s.activations := rfl
@[simp] theorem modifyBlock_credit (s : State) (b : Nat) (f : Block → Block) : (modifyBlock s b f).credit = s.credit := rfl
@[simp] theorem modifyBlock_classes (s : State) (b : Nat) (f : Block → Block) : (modifyBlock s b f).classes = s.classes := rfl
@[simp] theorem modifyBlock_parts (s : State) (b : Nat) (f : Block → Block) : (modifyBlock s b f).parts = s.parts := rfl
@[simp] theorem modifyBlock_domains (s : State) (b : Nat) (f : Block → Block) : (modifyBlock s b f).domains = s.domains := rfl
@[simp] theorem modifyBlock_fns (s : State) (b : Nat) (f : Block → Block) : (modifyBlock s b f).fns = s.fns := rfl
@[simp] theorem modifyBlock_dlfw (s : State) (b : Nat) (f : Block → Block) : (modifyBlock s b f).dlfw = s.dlfw := rfl
@[simp] theorem modifyBlock_logs (s : State) (b : Nat) (f : Block → Block) : (modifyBlock s b f).logs = s.logs := rfl
@[simp] theorem modifyBlock_comms (s : State) (b : Nat) (f : Block → Block) : (modifyBlock s b f).comms = s.comms := rfl
@[simp] theorem modifyBlock_health (s : State) (b : Nat) (f : Block → Block) : (modifyBlock s b f).health = s.health := rfl
@[simp] theorem modifyBlock_temps (s : State) (b : Nat) (f : Block → Block) : (modifyBlock s b f).temps = s.temps := rfl
@[simp] theorem modifyBlock_poweredDown (s : State) (b : Nat) (f : Block → Block) : (modifyBlock s b f).poweredDown = s.poweredDown := rfl
@[simp] theorem modifyBlock_monitors (s : State) (b : Nat) (f : Block → Block) : (modifyBlock s b f).monitors = s.monitors := rfl
@[simp] theorem modifyBlock_busRead (s : State) (b : Nat) (f : Block → Block) : (modifyBlock s b f).busRead = s.busRead := rfl
@[simp] theorem modifyBlock_linkUp (s : State) (b : Nat) (f : Block → Block) : (modifyBlock s b f).linkUp = s.linkUp := rfl
@[simp] theorem modifyBlock_retrain (s : State) (b : Nat) (f : Block → Block) : (modifyBlock s b f).retrain = s.retrain := rfl
@[simp] theorem modifyBlock_aer (s : State) (b : Nat) (f : Block → Block) : (modifyBlock s b f).aer = s.aer := rfl
@[simp] theorem modifyBlock_lanes (s : State) (b : Nat) (f : Block → Block) : (modifyBlock s b f).lanes = s.lanes := rfl
@[simp] theorem modifyBlock_hostMem (s : State) (b : Nat) (f : Block → Block) : (modifyBlock s b f).hostMem = s.hostMem := rfl
@[simp] theorem modifyBlock_hostBad (s : State) (b : Nat) (f : Block → Block) : (modifyBlock s b f).hostBad = s.hostBad := rfl
@[simp] theorem modifyBlock_pfMessages (s : State) (b : Nat) (f : Block → Block) : (modifyBlock s b f).pfMessages = s.pfMessages := rfl
@[simp] theorem modifyBlock_bringUp (s : State) (b : Nat) (f : Block → Block) : (modifyBlock s b f).bringUp = s.bringUp := rfl
@[simp] theorem modifyBlock_bringUpFailed (s : State) (b : Nat)
    (f : Block → Block) : (modifyBlock s b f).bringUpFailed = s.bringUpFailed := rfl
@[simp] theorem modifyBlock_image (s : State) (b : Nat) (f : Block → Block) : (modifyBlock s b f).image = s.image := rfl
@[simp] theorem modifyBlock_imageSigned (s : State) (b : Nat) (f : Block → Block) : (modifyBlock s b f).imageSigned = s.imageSigned := rfl
@[simp] theorem modifyBlock_replacement (s : State) (b : Nat) (f : Block → Block) : (modifyBlock s b f).replacement = s.replacement := rfl
@[simp] theorem modifyBlock_measured (s : State) (b : Nat) (f : Block → Block) : (modifyBlock s b f).measured = s.measured := rfl
@[simp] theorem modifyBlock_spdm (s : State) (b : Nat) (f : Block → Block) : (modifyBlock s b f).spdm = s.spdm := rfl

/-! `setPart` changes parts alone. -/

@[simp] theorem setPart_agenda (s : State) (n : Nat) (x : Part) : (setPart s n x).agenda = s.agenda := rfl
@[simp] theorem setPart_cur (s : State) (n : Nat) (x : Part) : (setPart s n x).cur = s.cur := rfl
@[simp] theorem setPart_free (s : State) (n : Nat) (x : Part) : (setPart s n x).free = s.free := rfl
@[simp] theorem setPart_nextId (s : State) (n : Nat) (x : Part) : (setPart s n x).nextId = s.nextId := rfl
@[simp] theorem setPart_ahead (s : State) (n : Nat) (x : Part) : (setPart s n x).ahead = s.ahead := rfl
@[simp] theorem setPart_dt (s : State) (n : Nat) (x : Part) : (setPart s n x).dt = s.dt := rfl
@[simp] theorem setPart_skewCore (s : State) (n : Nat) (x : Part) : (setPart s n x).skewCore = s.skewCore := rfl
@[simp] theorem setPart_skewSlice (s : State) (n : Nat) (x : Part) : (setPart s n x).skewSlice = s.skewSlice := rfl
@[simp] theorem setPart_unsync (s : State) (n : Nat) (x : Part) : (setPart s n x).unsync = s.unsync := rfl
@[simp] theorem setPart_lagging (s : State) (n : Nat) (x : Part) : (setPart s n x).lagging = s.lagging := rfl
@[simp] theorem setPart_groups (s : State) (n : Nat) (x : Part) : (setPart s n x).groups = s.groups := rfl
@[simp] theorem setPart_blocks (s : State) (n : Nat) (x : Part) : (setPart s n x).blocks = s.blocks := rfl
@[simp] theorem setPart_seqs (s : State) (n : Nat) (x : Part) : (setPart s n x).seqs = s.seqs := rfl
@[simp] theorem setPart_cores (s : State) (n : Nat) (x : Part) : (setPart s n x).cores = s.cores := rfl
@[simp] theorem setPart_runs (s : State) (n : Nat) (x : Part) : (setPart s n x).runs = s.runs := rfl
@[simp] theorem setPart_launches (s : State) (n : Nat) (x : Part) : (setPart s n x).launches = s.launches := rfl
@[simp] theorem setPart_graphs (s : State) (n : Nat) (x : Part) : (setPart s n x).graphs = s.graphs := rfl
@[simp] theorem setPart_saved (s : State) (n : Nat) (x : Part) : (setPart s n x).saved = s.saved := rfl
@[simp] theorem setPart_net (s : State) (n : Nat) (x : Part) : (setPart s n x).net = s.net := rfl
@[simp] theorem setPart_replies (s : State) (n : Nat) (x : Part) : (setPart s n x).replies = s.replies := rfl
@[simp] theorem setPart_gathers (s : State) (n : Nat) (x : Part) : (setPart s n x).gathers = s.gathers := rfl
@[simp] theorem setPart_cmds (s : State) (n : Nat) (x : Part) : (setPart s n x).cmds = s.cmds := rfl
@[simp] theorem setPart_l1 (s : State) (n : Nat) (x : Part) : (setPart s n x).l1 = s.l1 := rfl
@[simp] theorem setPart_replicas (s : State) (n : Nat) (x : Part) : (setPart s n x).replicas = s.replicas := rfl
@[simp] theorem setPart_l2 (s : State) (n : Nat) (x : Part) : (setPart s n x).l2 = s.l2 := rfl
@[simp] theorem setPart_leases (s : State) (n : Nat) (x : Part) : (setPart s n x).leases = s.leases := rfl
@[simp] theorem setPart_versions (s : State) (n : Nat) (x : Part) : (setPart s n x).versions = s.versions := rfl
@[simp] theorem setPart_seen (s : State) (n : Nat) (x : Part) : (setPart s n x).seen = s.seen := rfl
@[simp] theorem setPart_mem (s : State) (n : Nat) (x : Part) : (setPart s n x).mem = s.mem := rfl
@[simp] theorem setPart_memPoison (s : State) (n : Nat) (x : Part) : (setPart s n x).memPoison = s.memPoison := rfl
@[simp] theorem setPart_covers (s : State) (n : Nat) (x : Part) : (setPart s n x).covers = s.covers := rfl
@[simp] theorem setPart_owners (s : State) (n : Nat) (x : Part) : (setPart s n x).owners = s.owners := rfl
@[simp] theorem setPart_stackRegs (s : State) (n : Nat) (x : Part) : (setPart s n x).stackRegs = s.stackRegs := rfl
@[simp] theorem setPart_computeMode (s : State) (n : Nat) (x : Part) : (setPart s n x).computeMode = s.computeMode := rfl
@[simp] theorem setPart_nbus (s : State) (n : Nat) (x : Part) : (setPart s n x).nbus = s.nbus := rfl
@[simp] theorem setPart_activations (s : State) (n : Nat) (x : Part) : (setPart s n x).activations = s.activations := rfl
@[simp] theorem setPart_credit (s : State) (n : Nat) (x : Part) : (setPart s n x).credit = s.credit := rfl
@[simp] theorem setPart_classes (s : State) (n : Nat) (x : Part) : (setPart s n x).classes = s.classes := rfl
@[simp] theorem setPart_domains (s : State) (n : Nat) (x : Part) : (setPart s n x).domains = s.domains := rfl
@[simp] theorem setPart_fns (s : State) (n : Nat) (x : Part) : (setPart s n x).fns = s.fns := rfl
@[simp] theorem setPart_dlfw (s : State) (n : Nat) (x : Part) : (setPart s n x).dlfw = s.dlfw := rfl
@[simp] theorem setPart_logs (s : State) (n : Nat) (x : Part) : (setPart s n x).logs = s.logs := rfl
@[simp] theorem setPart_comms (s : State) (n : Nat) (x : Part) : (setPart s n x).comms = s.comms := rfl
@[simp] theorem setPart_health (s : State) (n : Nat) (x : Part) : (setPart s n x).health = s.health := rfl
@[simp] theorem setPart_temps (s : State) (n : Nat) (x : Part) : (setPart s n x).temps = s.temps := rfl
@[simp] theorem setPart_poweredDown (s : State) (n : Nat) (x : Part) : (setPart s n x).poweredDown = s.poweredDown := rfl
@[simp] theorem setPart_monitors (s : State) (n : Nat) (x : Part) : (setPart s n x).monitors = s.monitors := rfl
@[simp] theorem setPart_busRead (s : State) (n : Nat) (x : Part) : (setPart s n x).busRead = s.busRead := rfl
@[simp] theorem setPart_linkUp (s : State) (n : Nat) (x : Part) : (setPart s n x).linkUp = s.linkUp := rfl
@[simp] theorem setPart_retrain (s : State) (n : Nat) (x : Part) : (setPart s n x).retrain = s.retrain := rfl
@[simp] theorem setPart_aer (s : State) (n : Nat) (x : Part) : (setPart s n x).aer = s.aer := rfl
@[simp] theorem setPart_lanes (s : State) (n : Nat) (x : Part) : (setPart s n x).lanes = s.lanes := rfl
@[simp] theorem setPart_hostMem (s : State) (n : Nat) (x : Part) : (setPart s n x).hostMem = s.hostMem := rfl
@[simp] theorem setPart_hostBad (s : State) (n : Nat) (x : Part) : (setPart s n x).hostBad = s.hostBad := rfl
@[simp] theorem setPart_pfMessages (s : State) (n : Nat) (x : Part) : (setPart s n x).pfMessages = s.pfMessages := rfl
@[simp] theorem setPart_bringUp (s : State) (n : Nat) (x : Part) : (setPart s n x).bringUp = s.bringUp := rfl
@[simp] theorem setPart_bringUpFailed (s : State) (n : Nat) (x : Part) : (setPart s n x).bringUpFailed = s.bringUpFailed := rfl
@[simp] theorem setPart_image (s : State) (n : Nat) (x : Part) : (setPart s n x).image = s.image := rfl
@[simp] theorem setPart_imageSigned (s : State) (n : Nat) (x : Part) : (setPart s n x).imageSigned = s.imageSigned := rfl
@[simp] theorem setPart_replacement (s : State) (n : Nat) (x : Part) : (setPart s n x).replacement = s.replacement := rfl
@[simp] theorem setPart_measured (s : State) (n : Nat) (x : Part) : (setPart s n x).measured = s.measured := rfl
@[simp] theorem setPart_spdm (s : State) (n : Nat) (x : Part) : (setPart s n x).spdm = s.spdm := rfl

/-! `setFn` changes fns alone. -/

@[simp] theorem setFn_agenda (s : State) (f : Nat) (x : Fn) : (setFn s f x).agenda = s.agenda := rfl
@[simp] theorem setFn_cur (s : State) (f : Nat) (x : Fn) : (setFn s f x).cur = s.cur := rfl
@[simp] theorem setFn_free (s : State) (f : Nat) (x : Fn) : (setFn s f x).free = s.free := rfl
@[simp] theorem setFn_nextId (s : State) (f : Nat) (x : Fn) : (setFn s f x).nextId = s.nextId := rfl
@[simp] theorem setFn_ahead (s : State) (f : Nat) (x : Fn) : (setFn s f x).ahead = s.ahead := rfl
@[simp] theorem setFn_dt (s : State) (f : Nat) (x : Fn) : (setFn s f x).dt = s.dt := rfl
@[simp] theorem setFn_skewCore (s : State) (f : Nat) (x : Fn) : (setFn s f x).skewCore = s.skewCore := rfl
@[simp] theorem setFn_skewSlice (s : State) (f : Nat) (x : Fn) : (setFn s f x).skewSlice = s.skewSlice := rfl
@[simp] theorem setFn_unsync (s : State) (f : Nat) (x : Fn) : (setFn s f x).unsync = s.unsync := rfl
@[simp] theorem setFn_lagging (s : State) (f : Nat) (x : Fn) : (setFn s f x).lagging = s.lagging := rfl
@[simp] theorem setFn_groups (s : State) (f : Nat) (x : Fn) : (setFn s f x).groups = s.groups := rfl
@[simp] theorem setFn_blocks (s : State) (f : Nat) (x : Fn) : (setFn s f x).blocks = s.blocks := rfl
@[simp] theorem setFn_seqs (s : State) (f : Nat) (x : Fn) : (setFn s f x).seqs = s.seqs := rfl
@[simp] theorem setFn_cores (s : State) (f : Nat) (x : Fn) : (setFn s f x).cores = s.cores := rfl
@[simp] theorem setFn_runs (s : State) (f : Nat) (x : Fn) : (setFn s f x).runs = s.runs := rfl
@[simp] theorem setFn_launches (s : State) (f : Nat) (x : Fn) : (setFn s f x).launches = s.launches := rfl
@[simp] theorem setFn_graphs (s : State) (f : Nat) (x : Fn) : (setFn s f x).graphs = s.graphs := rfl
@[simp] theorem setFn_saved (s : State) (f : Nat) (x : Fn) : (setFn s f x).saved = s.saved := rfl
@[simp] theorem setFn_net (s : State) (f : Nat) (x : Fn) : (setFn s f x).net = s.net := rfl
@[simp] theorem setFn_replies (s : State) (f : Nat) (x : Fn) : (setFn s f x).replies = s.replies := rfl
@[simp] theorem setFn_gathers (s : State) (f : Nat) (x : Fn) : (setFn s f x).gathers = s.gathers := rfl
@[simp] theorem setFn_cmds (s : State) (f : Nat) (x : Fn) : (setFn s f x).cmds = s.cmds := rfl
@[simp] theorem setFn_l1 (s : State) (f : Nat) (x : Fn) : (setFn s f x).l1 = s.l1 := rfl
@[simp] theorem setFn_replicas (s : State) (f : Nat) (x : Fn) : (setFn s f x).replicas = s.replicas := rfl
@[simp] theorem setFn_l2 (s : State) (f : Nat) (x : Fn) : (setFn s f x).l2 = s.l2 := rfl
@[simp] theorem setFn_leases (s : State) (f : Nat) (x : Fn) : (setFn s f x).leases = s.leases := rfl
@[simp] theorem setFn_versions (s : State) (f : Nat) (x : Fn) : (setFn s f x).versions = s.versions := rfl
@[simp] theorem setFn_seen (s : State) (f : Nat) (x : Fn) : (setFn s f x).seen = s.seen := rfl
@[simp] theorem setFn_mem (s : State) (f : Nat) (x : Fn) : (setFn s f x).mem = s.mem := rfl
@[simp] theorem setFn_memPoison (s : State) (f : Nat) (x : Fn) : (setFn s f x).memPoison = s.memPoison := rfl
@[simp] theorem setFn_covers (s : State) (f : Nat) (x : Fn) : (setFn s f x).covers = s.covers := rfl
@[simp] theorem setFn_owners (s : State) (f : Nat) (x : Fn) : (setFn s f x).owners = s.owners := rfl
@[simp] theorem setFn_stackRegs (s : State) (f : Nat) (x : Fn) : (setFn s f x).stackRegs = s.stackRegs := rfl
@[simp] theorem setFn_computeMode (s : State) (f : Nat) (x : Fn) : (setFn s f x).computeMode = s.computeMode := rfl
@[simp] theorem setFn_nbus (s : State) (f : Nat) (x : Fn) : (setFn s f x).nbus = s.nbus := rfl
@[simp] theorem setFn_activations (s : State) (f : Nat) (x : Fn) : (setFn s f x).activations = s.activations := rfl
@[simp] theorem setFn_credit (s : State) (f : Nat) (x : Fn) : (setFn s f x).credit = s.credit := rfl
@[simp] theorem setFn_classes (s : State) (f : Nat) (x : Fn) : (setFn s f x).classes = s.classes := rfl
@[simp] theorem setFn_parts (s : State) (f : Nat) (x : Fn) : (setFn s f x).parts = s.parts := rfl
@[simp] theorem setFn_domains (s : State) (f : Nat) (x : Fn) : (setFn s f x).domains = s.domains := rfl
@[simp] theorem setFn_dlfw (s : State) (f : Nat) (x : Fn) : (setFn s f x).dlfw = s.dlfw := rfl
@[simp] theorem setFn_logs (s : State) (f : Nat) (x : Fn) : (setFn s f x).logs = s.logs := rfl
@[simp] theorem setFn_comms (s : State) (f : Nat) (x : Fn) : (setFn s f x).comms = s.comms := rfl
@[simp] theorem setFn_health (s : State) (f : Nat) (x : Fn) : (setFn s f x).health = s.health := rfl
@[simp] theorem setFn_temps (s : State) (f : Nat) (x : Fn) : (setFn s f x).temps = s.temps := rfl
@[simp] theorem setFn_poweredDown (s : State) (f : Nat) (x : Fn) : (setFn s f x).poweredDown = s.poweredDown := rfl
@[simp] theorem setFn_monitors (s : State) (f : Nat) (x : Fn) : (setFn s f x).monitors = s.monitors := rfl
@[simp] theorem setFn_busRead (s : State) (f : Nat) (x : Fn) : (setFn s f x).busRead = s.busRead := rfl
@[simp] theorem setFn_linkUp (s : State) (f : Nat) (x : Fn) : (setFn s f x).linkUp = s.linkUp := rfl
@[simp] theorem setFn_retrain (s : State) (f : Nat) (x : Fn) : (setFn s f x).retrain = s.retrain := rfl
@[simp] theorem setFn_aer (s : State) (f : Nat) (x : Fn) : (setFn s f x).aer = s.aer := rfl
@[simp] theorem setFn_lanes (s : State) (f : Nat) (x : Fn) : (setFn s f x).lanes = s.lanes := rfl
@[simp] theorem setFn_hostMem (s : State) (f : Nat) (x : Fn) : (setFn s f x).hostMem = s.hostMem := rfl
@[simp] theorem setFn_hostBad (s : State) (f : Nat) (x : Fn) : (setFn s f x).hostBad = s.hostBad := rfl
@[simp] theorem setFn_pfMessages (s : State) (f : Nat) (x : Fn) : (setFn s f x).pfMessages = s.pfMessages := rfl
@[simp] theorem setFn_bringUp (s : State) (f : Nat) (x : Fn) : (setFn s f x).bringUp = s.bringUp := rfl
@[simp] theorem setFn_bringUpFailed (s : State) (f : Nat) (x : Fn) : (setFn s f x).bringUpFailed = s.bringUpFailed := rfl
@[simp] theorem setFn_image (s : State) (f : Nat) (x : Fn) : (setFn s f x).image = s.image := rfl
@[simp] theorem setFn_imageSigned (s : State) (f : Nat) (x : Fn) : (setFn s f x).imageSigned = s.imageSigned := rfl
@[simp] theorem setFn_replacement (s : State) (f : Nat) (x : Fn) : (setFn s f x).replacement = s.replacement := rfl
@[simp] theorem setFn_measured (s : State) (f : Nat) (x : Fn) : (setFn s f x).measured = s.measured := rfl
@[simp] theorem setFn_spdm (s : State) (f : Nat) (x : Fn) : (setFn s f x).spdm = s.spdm := rfl

/-! `sendReply` changes replies and nextId alone. -/

@[simp] theorem sendReply_agenda (s : State) (r : Reply) : (sendReply s r).agenda = s.agenda := rfl
@[simp] theorem sendReply_cur (s : State) (r : Reply) : (sendReply s r).cur = s.cur := rfl
@[simp] theorem sendReply_free (s : State) (r : Reply) : (sendReply s r).free = s.free := rfl
@[simp] theorem sendReply_ahead (s : State) (r : Reply) : (sendReply s r).ahead = s.ahead := rfl
@[simp] theorem sendReply_dt (s : State) (r : Reply) : (sendReply s r).dt = s.dt := rfl
@[simp] theorem sendReply_skewCore (s : State) (r : Reply) : (sendReply s r).skewCore = s.skewCore := rfl
@[simp] theorem sendReply_skewSlice (s : State) (r : Reply) : (sendReply s r).skewSlice = s.skewSlice := rfl
@[simp] theorem sendReply_unsync (s : State) (r : Reply) : (sendReply s r).unsync = s.unsync := rfl
@[simp] theorem sendReply_lagging (s : State) (r : Reply) : (sendReply s r).lagging = s.lagging := rfl
@[simp] theorem sendReply_groups (s : State) (r : Reply) : (sendReply s r).groups = s.groups := rfl
@[simp] theorem sendReply_blocks (s : State) (r : Reply) : (sendReply s r).blocks = s.blocks := rfl
@[simp] theorem sendReply_seqs (s : State) (r : Reply) : (sendReply s r).seqs = s.seqs := rfl
@[simp] theorem sendReply_cores (s : State) (r : Reply) : (sendReply s r).cores = s.cores := rfl
@[simp] theorem sendReply_runs (s : State) (r : Reply) : (sendReply s r).runs = s.runs := rfl
@[simp] theorem sendReply_launches (s : State) (r : Reply) : (sendReply s r).launches = s.launches := rfl
@[simp] theorem sendReply_graphs (s : State) (r : Reply) : (sendReply s r).graphs = s.graphs := rfl
@[simp] theorem sendReply_saved (s : State) (r : Reply) : (sendReply s r).saved = s.saved := rfl
@[simp] theorem sendReply_net (s : State) (r : Reply) : (sendReply s r).net = s.net := rfl
@[simp] theorem sendReply_gathers (s : State) (r : Reply) : (sendReply s r).gathers = s.gathers := rfl
@[simp] theorem sendReply_cmds (s : State) (r : Reply) : (sendReply s r).cmds = s.cmds := rfl
@[simp] theorem sendReply_l1 (s : State) (r : Reply) : (sendReply s r).l1 = s.l1 := rfl
@[simp] theorem sendReply_replicas (s : State) (r : Reply) : (sendReply s r).replicas = s.replicas := rfl
@[simp] theorem sendReply_l2 (s : State) (r : Reply) : (sendReply s r).l2 = s.l2 := rfl
@[simp] theorem sendReply_leases (s : State) (r : Reply) : (sendReply s r).leases = s.leases := rfl
@[simp] theorem sendReply_versions (s : State) (r : Reply) : (sendReply s r).versions = s.versions := rfl
@[simp] theorem sendReply_seen (s : State) (r : Reply) : (sendReply s r).seen = s.seen := rfl
@[simp] theorem sendReply_mem (s : State) (r : Reply) : (sendReply s r).mem = s.mem := rfl
@[simp] theorem sendReply_memPoison (s : State) (r : Reply) : (sendReply s r).memPoison = s.memPoison := rfl
@[simp] theorem sendReply_covers (s : State) (r : Reply) : (sendReply s r).covers = s.covers := rfl
@[simp] theorem sendReply_owners (s : State) (r : Reply) : (sendReply s r).owners = s.owners := rfl
@[simp] theorem sendReply_stackRegs (s : State) (r : Reply) : (sendReply s r).stackRegs = s.stackRegs := rfl
@[simp] theorem sendReply_computeMode (s : State) (r : Reply) : (sendReply s r).computeMode = s.computeMode := rfl
@[simp] theorem sendReply_nbus (s : State) (r : Reply) : (sendReply s r).nbus = s.nbus := rfl
@[simp] theorem sendReply_activations (s : State) (r : Reply) : (sendReply s r).activations = s.activations := rfl
@[simp] theorem sendReply_credit (s : State) (r : Reply) : (sendReply s r).credit = s.credit := rfl
@[simp] theorem sendReply_classes (s : State) (r : Reply) : (sendReply s r).classes = s.classes := rfl
@[simp] theorem sendReply_parts (s : State) (r : Reply) : (sendReply s r).parts = s.parts := rfl
@[simp] theorem sendReply_domains (s : State) (r : Reply) : (sendReply s r).domains = s.domains := rfl
@[simp] theorem sendReply_fns (s : State) (r : Reply) : (sendReply s r).fns = s.fns := rfl
@[simp] theorem sendReply_dlfw (s : State) (r : Reply) : (sendReply s r).dlfw = s.dlfw := rfl
@[simp] theorem sendReply_logs (s : State) (r : Reply) : (sendReply s r).logs = s.logs := rfl
@[simp] theorem sendReply_comms (s : State) (r : Reply) : (sendReply s r).comms = s.comms := rfl
@[simp] theorem sendReply_health (s : State) (r : Reply) : (sendReply s r).health = s.health := rfl
@[simp] theorem sendReply_temps (s : State) (r : Reply) : (sendReply s r).temps = s.temps := rfl
@[simp] theorem sendReply_poweredDown (s : State) (r : Reply) : (sendReply s r).poweredDown = s.poweredDown := rfl
@[simp] theorem sendReply_monitors (s : State) (r : Reply) : (sendReply s r).monitors = s.monitors := rfl
@[simp] theorem sendReply_busRead (s : State) (r : Reply) : (sendReply s r).busRead = s.busRead := rfl
@[simp] theorem sendReply_linkUp (s : State) (r : Reply) : (sendReply s r).linkUp = s.linkUp := rfl
@[simp] theorem sendReply_retrain (s : State) (r : Reply) : (sendReply s r).retrain = s.retrain := rfl
@[simp] theorem sendReply_aer (s : State) (r : Reply) : (sendReply s r).aer = s.aer := rfl
@[simp] theorem sendReply_lanes (s : State) (r : Reply) : (sendReply s r).lanes = s.lanes := rfl
@[simp] theorem sendReply_hostMem (s : State) (r : Reply) : (sendReply s r).hostMem = s.hostMem := rfl
@[simp] theorem sendReply_hostBad (s : State) (r : Reply) : (sendReply s r).hostBad = s.hostBad := rfl
@[simp] theorem sendReply_pfMessages (s : State) (r : Reply) : (sendReply s r).pfMessages = s.pfMessages := rfl
@[simp] theorem sendReply_bringUp (s : State) (r : Reply) : (sendReply s r).bringUp = s.bringUp := rfl
@[simp] theorem sendReply_bringUpFailed (s : State) (r : Reply) : (sendReply s r).bringUpFailed = s.bringUpFailed := rfl
@[simp] theorem sendReply_image (s : State) (r : Reply) : (sendReply s r).image = s.image := rfl
@[simp] theorem sendReply_imageSigned (s : State) (r : Reply) : (sendReply s r).imageSigned = s.imageSigned := rfl
@[simp] theorem sendReply_replacement (s : State) (r : Reply) : (sendReply s r).replacement = s.replacement := rfl
@[simp] theorem sendReply_measured (s : State) (r : Reply) : (sendReply s r).measured = s.measured := rfl
@[simp] theorem sendReply_spdm (s : State) (r : Reply) : (sendReply s r).spdm = s.spdm := rfl

/-! `sendReq` changes net and nextId alone. -/

@[simp] theorem sendReq_agenda (s : State) (r : Req) : (sendReq s r).agenda = s.agenda := rfl
@[simp] theorem sendReq_cur (s : State) (r : Req) : (sendReq s r).cur = s.cur := rfl
@[simp] theorem sendReq_free (s : State) (r : Req) : (sendReq s r).free = s.free := rfl
@[simp] theorem sendReq_ahead (s : State) (r : Req) : (sendReq s r).ahead = s.ahead := rfl
@[simp] theorem sendReq_dt (s : State) (r : Req) : (sendReq s r).dt = s.dt := rfl
@[simp] theorem sendReq_skewCore (s : State) (r : Req) : (sendReq s r).skewCore = s.skewCore := rfl
@[simp] theorem sendReq_skewSlice (s : State) (r : Req) : (sendReq s r).skewSlice = s.skewSlice := rfl
@[simp] theorem sendReq_unsync (s : State) (r : Req) : (sendReq s r).unsync = s.unsync := rfl
@[simp] theorem sendReq_lagging (s : State) (r : Req) : (sendReq s r).lagging = s.lagging := rfl
@[simp] theorem sendReq_groups (s : State) (r : Req) : (sendReq s r).groups = s.groups := rfl
@[simp] theorem sendReq_blocks (s : State) (r : Req) : (sendReq s r).blocks = s.blocks := rfl
@[simp] theorem sendReq_seqs (s : State) (r : Req) : (sendReq s r).seqs = s.seqs := rfl
@[simp] theorem sendReq_cores (s : State) (r : Req) : (sendReq s r).cores = s.cores := rfl
@[simp] theorem sendReq_runs (s : State) (r : Req) : (sendReq s r).runs = s.runs := rfl
@[simp] theorem sendReq_launches (s : State) (r : Req) : (sendReq s r).launches = s.launches := rfl
@[simp] theorem sendReq_graphs (s : State) (r : Req) : (sendReq s r).graphs = s.graphs := rfl
@[simp] theorem sendReq_saved (s : State) (r : Req) : (sendReq s r).saved = s.saved := rfl
@[simp] theorem sendReq_replies (s : State) (r : Req) : (sendReq s r).replies = s.replies := rfl
@[simp] theorem sendReq_gathers (s : State) (r : Req) : (sendReq s r).gathers = s.gathers := rfl
@[simp] theorem sendReq_cmds (s : State) (r : Req) : (sendReq s r).cmds = s.cmds := rfl
@[simp] theorem sendReq_l1 (s : State) (r : Req) : (sendReq s r).l1 = s.l1 := rfl
@[simp] theorem sendReq_replicas (s : State) (r : Req) : (sendReq s r).replicas = s.replicas := rfl
@[simp] theorem sendReq_l2 (s : State) (r : Req) : (sendReq s r).l2 = s.l2 := rfl
@[simp] theorem sendReq_leases (s : State) (r : Req) : (sendReq s r).leases = s.leases := rfl
@[simp] theorem sendReq_versions (s : State) (r : Req) : (sendReq s r).versions = s.versions := rfl
@[simp] theorem sendReq_seen (s : State) (r : Req) : (sendReq s r).seen = s.seen := rfl
@[simp] theorem sendReq_mem (s : State) (r : Req) : (sendReq s r).mem = s.mem := rfl
@[simp] theorem sendReq_memPoison (s : State) (r : Req) : (sendReq s r).memPoison = s.memPoison := rfl
@[simp] theorem sendReq_covers (s : State) (r : Req) : (sendReq s r).covers = s.covers := rfl
@[simp] theorem sendReq_owners (s : State) (r : Req) : (sendReq s r).owners = s.owners := rfl
@[simp] theorem sendReq_stackRegs (s : State) (r : Req) : (sendReq s r).stackRegs = s.stackRegs := rfl
@[simp] theorem sendReq_computeMode (s : State) (r : Req) : (sendReq s r).computeMode = s.computeMode := rfl
@[simp] theorem sendReq_nbus (s : State) (r : Req) : (sendReq s r).nbus = s.nbus := rfl
@[simp] theorem sendReq_activations (s : State) (r : Req) : (sendReq s r).activations = s.activations := rfl
@[simp] theorem sendReq_credit (s : State) (r : Req) : (sendReq s r).credit = s.credit := rfl
@[simp] theorem sendReq_classes (s : State) (r : Req) : (sendReq s r).classes = s.classes := rfl
@[simp] theorem sendReq_parts (s : State) (r : Req) : (sendReq s r).parts = s.parts := rfl
@[simp] theorem sendReq_domains (s : State) (r : Req) : (sendReq s r).domains = s.domains := rfl
@[simp] theorem sendReq_fns (s : State) (r : Req) : (sendReq s r).fns = s.fns := rfl
@[simp] theorem sendReq_dlfw (s : State) (r : Req) : (sendReq s r).dlfw = s.dlfw := rfl
@[simp] theorem sendReq_logs (s : State) (r : Req) : (sendReq s r).logs = s.logs := rfl
@[simp] theorem sendReq_comms (s : State) (r : Req) : (sendReq s r).comms = s.comms := rfl
@[simp] theorem sendReq_health (s : State) (r : Req) : (sendReq s r).health = s.health := rfl
@[simp] theorem sendReq_temps (s : State) (r : Req) : (sendReq s r).temps = s.temps := rfl
@[simp] theorem sendReq_poweredDown (s : State) (r : Req) : (sendReq s r).poweredDown = s.poweredDown := rfl
@[simp] theorem sendReq_monitors (s : State) (r : Req) : (sendReq s r).monitors = s.monitors := rfl
@[simp] theorem sendReq_busRead (s : State) (r : Req) : (sendReq s r).busRead = s.busRead := rfl
@[simp] theorem sendReq_linkUp (s : State) (r : Req) : (sendReq s r).linkUp = s.linkUp := rfl
@[simp] theorem sendReq_retrain (s : State) (r : Req) : (sendReq s r).retrain = s.retrain := rfl
@[simp] theorem sendReq_aer (s : State) (r : Req) : (sendReq s r).aer = s.aer := rfl
@[simp] theorem sendReq_lanes (s : State) (r : Req) : (sendReq s r).lanes = s.lanes := rfl
@[simp] theorem sendReq_hostMem (s : State) (r : Req) : (sendReq s r).hostMem = s.hostMem := rfl
@[simp] theorem sendReq_hostBad (s : State) (r : Req) : (sendReq s r).hostBad = s.hostBad := rfl
@[simp] theorem sendReq_pfMessages (s : State) (r : Req) : (sendReq s r).pfMessages = s.pfMessages := rfl
@[simp] theorem sendReq_bringUp (s : State) (r : Req) : (sendReq s r).bringUp = s.bringUp := rfl
@[simp] theorem sendReq_bringUpFailed (s : State) (r : Req) : (sendReq s r).bringUpFailed = s.bringUpFailed := rfl
@[simp] theorem sendReq_image (s : State) (r : Req) : (sendReq s r).image = s.image := rfl
@[simp] theorem sendReq_imageSigned (s : State) (r : Req) : (sendReq s r).imageSigned = s.imageSigned := rfl
@[simp] theorem sendReq_replacement (s : State) (r : Req) : (sendReq s r).replacement = s.replacement := rfl
@[simp] theorem sendReq_measured (s : State) (r : Req) : (sendReq s r).measured = s.measured := rfl
@[simp] theorem sendReq_spdm (s : State) (r : Req) : (sendReq s r).spdm = s.spdm := rfl

/-! `takePort` changes cores and free alone. -/

@[simp] theorem takePort_agenda (s : State) (c : Ctx) : (takePort s c).agenda = s.agenda := rfl
@[simp] theorem takePort_cur (s : State) (c : Ctx) : (takePort s c).cur = s.cur := rfl
@[simp] theorem takePort_nextId (s : State) (c : Ctx) : (takePort s c).nextId = s.nextId := rfl
@[simp] theorem takePort_ahead (s : State) (c : Ctx) : (takePort s c).ahead = s.ahead := rfl
@[simp] theorem takePort_dt (s : State) (c : Ctx) : (takePort s c).dt = s.dt := rfl
@[simp] theorem takePort_skewCore (s : State) (c : Ctx) : (takePort s c).skewCore = s.skewCore := rfl
@[simp] theorem takePort_skewSlice (s : State) (c : Ctx) : (takePort s c).skewSlice = s.skewSlice := rfl
@[simp] theorem takePort_unsync (s : State) (c : Ctx) : (takePort s c).unsync = s.unsync := rfl
@[simp] theorem takePort_lagging (s : State) (c : Ctx) : (takePort s c).lagging = s.lagging := rfl
@[simp] theorem takePort_groups (s : State) (c : Ctx) : (takePort s c).groups = s.groups := rfl
@[simp] theorem takePort_blocks (s : State) (c : Ctx) : (takePort s c).blocks = s.blocks := rfl
@[simp] theorem takePort_seqs (s : State) (c : Ctx) : (takePort s c).seqs = s.seqs := rfl
@[simp] theorem takePort_runs (s : State) (c : Ctx) : (takePort s c).runs = s.runs := rfl
@[simp] theorem takePort_launches (s : State) (c : Ctx) : (takePort s c).launches = s.launches := rfl
@[simp] theorem takePort_graphs (s : State) (c : Ctx) : (takePort s c).graphs = s.graphs := rfl
@[simp] theorem takePort_saved (s : State) (c : Ctx) : (takePort s c).saved = s.saved := rfl
@[simp] theorem takePort_net (s : State) (c : Ctx) : (takePort s c).net = s.net := rfl
@[simp] theorem takePort_replies (s : State) (c : Ctx) : (takePort s c).replies = s.replies := rfl
@[simp] theorem takePort_gathers (s : State) (c : Ctx) : (takePort s c).gathers = s.gathers := rfl
@[simp] theorem takePort_cmds (s : State) (c : Ctx) : (takePort s c).cmds = s.cmds := rfl
@[simp] theorem takePort_l1 (s : State) (c : Ctx) : (takePort s c).l1 = s.l1 := rfl
@[simp] theorem takePort_replicas (s : State) (c : Ctx) : (takePort s c).replicas = s.replicas := rfl
@[simp] theorem takePort_l2 (s : State) (c : Ctx) : (takePort s c).l2 = s.l2 := rfl
@[simp] theorem takePort_leases (s : State) (c : Ctx) : (takePort s c).leases = s.leases := rfl
@[simp] theorem takePort_versions (s : State) (c : Ctx) : (takePort s c).versions = s.versions := rfl
@[simp] theorem takePort_seen (s : State) (c : Ctx) : (takePort s c).seen = s.seen := rfl
@[simp] theorem takePort_mem (s : State) (c : Ctx) : (takePort s c).mem = s.mem := rfl
@[simp] theorem takePort_memPoison (s : State) (c : Ctx) : (takePort s c).memPoison = s.memPoison := rfl
@[simp] theorem takePort_covers (s : State) (c : Ctx) : (takePort s c).covers = s.covers := rfl
@[simp] theorem takePort_owners (s : State) (c : Ctx) : (takePort s c).owners = s.owners := rfl
@[simp] theorem takePort_stackRegs (s : State) (c : Ctx) : (takePort s c).stackRegs = s.stackRegs := rfl
@[simp] theorem takePort_computeMode (s : State) (c : Ctx) : (takePort s c).computeMode = s.computeMode := rfl
@[simp] theorem takePort_nbus (s : State) (c : Ctx) : (takePort s c).nbus = s.nbus := rfl
@[simp] theorem takePort_activations (s : State) (c : Ctx) : (takePort s c).activations = s.activations := rfl
@[simp] theorem takePort_credit (s : State) (c : Ctx) : (takePort s c).credit = s.credit := rfl
@[simp] theorem takePort_classes (s : State) (c : Ctx) : (takePort s c).classes = s.classes := rfl
@[simp] theorem takePort_parts (s : State) (c : Ctx) : (takePort s c).parts = s.parts := rfl
@[simp] theorem takePort_domains (s : State) (c : Ctx) : (takePort s c).domains = s.domains := rfl
@[simp] theorem takePort_fns (s : State) (c : Ctx) : (takePort s c).fns = s.fns := rfl
@[simp] theorem takePort_dlfw (s : State) (c : Ctx) : (takePort s c).dlfw = s.dlfw := rfl
@[simp] theorem takePort_logs (s : State) (c : Ctx) : (takePort s c).logs = s.logs := rfl
@[simp] theorem takePort_comms (s : State) (c : Ctx) : (takePort s c).comms = s.comms := rfl
@[simp] theorem takePort_health (s : State) (c : Ctx) : (takePort s c).health = s.health := rfl
@[simp] theorem takePort_temps (s : State) (c : Ctx) : (takePort s c).temps = s.temps := rfl
@[simp] theorem takePort_poweredDown (s : State) (c : Ctx) : (takePort s c).poweredDown = s.poweredDown := rfl
@[simp] theorem takePort_monitors (s : State) (c : Ctx) : (takePort s c).monitors = s.monitors := rfl
@[simp] theorem takePort_busRead (s : State) (c : Ctx) : (takePort s c).busRead = s.busRead := rfl
@[simp] theorem takePort_linkUp (s : State) (c : Ctx) : (takePort s c).linkUp = s.linkUp := rfl
@[simp] theorem takePort_retrain (s : State) (c : Ctx) : (takePort s c).retrain = s.retrain := rfl
@[simp] theorem takePort_aer (s : State) (c : Ctx) : (takePort s c).aer = s.aer := rfl
@[simp] theorem takePort_lanes (s : State) (c : Ctx) : (takePort s c).lanes = s.lanes := rfl
@[simp] theorem takePort_hostMem (s : State) (c : Ctx) : (takePort s c).hostMem = s.hostMem := rfl
@[simp] theorem takePort_hostBad (s : State) (c : Ctx) : (takePort s c).hostBad = s.hostBad := rfl
@[simp] theorem takePort_pfMessages (s : State) (c : Ctx) : (takePort s c).pfMessages = s.pfMessages := rfl
@[simp] theorem takePort_bringUp (s : State) (c : Ctx) : (takePort s c).bringUp = s.bringUp := rfl
@[simp] theorem takePort_bringUpFailed (s : State) (c : Ctx) : (takePort s c).bringUpFailed = s.bringUpFailed := rfl
@[simp] theorem takePort_image (s : State) (c : Ctx) : (takePort s c).image = s.image := rfl
@[simp] theorem takePort_imageSigned (s : State) (c : Ctx) : (takePort s c).imageSigned = s.imageSigned := rfl
@[simp] theorem takePort_replacement (s : State) (c : Ctx) : (takePort s c).replacement = s.replacement := rfl
@[simp] theorem takePort_measured (s : State) (c : Ctx) : (takePort s c).measured = s.measured := rfl
@[simp] theorem takePort_spdm (s : State) (c : Ctx) : (takePort s c).spdm = s.spdm := rfl

/-! `writePhys` changes mem and memPoison and covers alone. -/

/-- What a write covers of a column word changes memPoison and covers alone. -/
theorem coverWord_frame (w : Nat × Nat) (key n mask : Nat) (s : State) (word : Nat) :
    ∃ p c, coverWord w key n mask s word = { s with memPoison := p, covers := c } := by
  simp only [coverWord]
  split
  · exact ⟨_, _, rfl⟩
  · generalize (_ ||| coverMask key n mask word : Nat) = now
    split <;> exact ⟨_, _, rfl⟩

theorem coverWords_frame (w : Nat × Nat) (key n mask base : Nat) (is : List Nat) (s : State) :
    ∃ p c, is.foldl (fun s i => coverWord w key n mask s (base + i)) s = { s with memPoison := p, covers := c } := by
  induction is generalizing s with
  | nil => exact ⟨_, _, rfl⟩
  | cons i is ih =>
    obtain ⟨p, c, h⟩ := coverWord_frame w key n mask s (base + i)
    obtain ⟨p', c', h'⟩ := ih { s with memPoison := p, covers := c }
    exact ⟨p', c', by rw [List.foldl_cons, h, h']⟩

theorem writePhys_frame (s : State) (w : Nat × Nat) (key n val mask : Nat) :
    ∃ m p c, writePhys s w key n val mask = { s with mem := m, memPoison := p, covers := c } := by
  simp only [writePhys]
  split
  · exact ⟨_, _, _, rfl⟩
  · obtain ⟨p, c, h⟩ := coverWords_frame w key n mask (key / 32) (List.range ((key + n - 1) / 32 - key / 32 + 1))
      { s with mem := writeMasked s.mem key val mask n }
    exact ⟨_, p, c, h⟩

@[simp] theorem writePhys_agenda (s : State) (w : Nat × Nat) (key n val mask : Nat) : (writePhys s w key n val mask).agenda = s.agenda := by
  obtain ⟨_, _, _, h⟩ := writePhys_frame s w key n val mask; rw [h]
@[simp] theorem writePhys_cur (s : State) (w : Nat × Nat) (key n val mask : Nat) : (writePhys s w key n val mask).cur = s.cur := by
  obtain ⟨_, _, _, h⟩ := writePhys_frame s w key n val mask; rw [h]
@[simp] theorem writePhys_free (s : State) (w : Nat × Nat) (key n val mask : Nat) : (writePhys s w key n val mask).free = s.free := by
  obtain ⟨_, _, _, h⟩ := writePhys_frame s w key n val mask; rw [h]
@[simp] theorem writePhys_nextId (s : State) (w : Nat × Nat) (key n val mask : Nat) : (writePhys s w key n val mask).nextId = s.nextId := by
  obtain ⟨_, _, _, h⟩ := writePhys_frame s w key n val mask; rw [h]
@[simp] theorem writePhys_ahead (s : State) (w : Nat × Nat) (key n val mask : Nat) : (writePhys s w key n val mask).ahead = s.ahead := by
  obtain ⟨_, _, _, h⟩ := writePhys_frame s w key n val mask; rw [h]
@[simp] theorem writePhys_dt (s : State) (w : Nat × Nat) (key n val mask : Nat) : (writePhys s w key n val mask).dt = s.dt := by
  obtain ⟨_, _, _, h⟩ := writePhys_frame s w key n val mask; rw [h]
@[simp] theorem writePhys_skewCore (s : State) (w : Nat × Nat)
    (key n val mask : Nat) : (writePhys s w key n val mask).skewCore = s.skewCore := by
  obtain ⟨_, _, _, h⟩ := writePhys_frame s w key n val mask; rw [h]
@[simp] theorem writePhys_skewSlice (s : State) (w : Nat × Nat)
    (key n val mask : Nat) : (writePhys s w key n val mask).skewSlice = s.skewSlice := by
  obtain ⟨_, _, _, h⟩ := writePhys_frame s w key n val mask; rw [h]
@[simp] theorem writePhys_unsync (s : State) (w : Nat × Nat) (key n val mask : Nat) : (writePhys s w key n val mask).unsync = s.unsync := by
  obtain ⟨_, _, _, h⟩ := writePhys_frame s w key n val mask; rw [h]
@[simp] theorem writePhys_lagging (s : State) (w : Nat × Nat)
    (key n val mask : Nat) : (writePhys s w key n val mask).lagging = s.lagging := by
  obtain ⟨_, _, _, h⟩ := writePhys_frame s w key n val mask; rw [h]
@[simp] theorem writePhys_groups (s : State) (w : Nat × Nat) (key n val mask : Nat) : (writePhys s w key n val mask).groups = s.groups := by
  obtain ⟨_, _, _, h⟩ := writePhys_frame s w key n val mask; rw [h]
@[simp] theorem writePhys_blocks (s : State) (w : Nat × Nat) (key n val mask : Nat) : (writePhys s w key n val mask).blocks = s.blocks := by
  obtain ⟨_, _, _, h⟩ := writePhys_frame s w key n val mask; rw [h]
@[simp] theorem writePhys_seqs (s : State) (w : Nat × Nat) (key n val mask : Nat) : (writePhys s w key n val mask).seqs = s.seqs := by
  obtain ⟨_, _, _, h⟩ := writePhys_frame s w key n val mask; rw [h]
@[simp] theorem writePhys_cores (s : State) (w : Nat × Nat) (key n val mask : Nat) : (writePhys s w key n val mask).cores = s.cores := by
  obtain ⟨_, _, _, h⟩ := writePhys_frame s w key n val mask; rw [h]
@[simp] theorem writePhys_runs (s : State) (w : Nat × Nat) (key n val mask : Nat) : (writePhys s w key n val mask).runs = s.runs := by
  obtain ⟨_, _, _, h⟩ := writePhys_frame s w key n val mask; rw [h]
@[simp] theorem writePhys_launches (s : State) (w : Nat × Nat)
    (key n val mask : Nat) : (writePhys s w key n val mask).launches = s.launches := by
  obtain ⟨_, _, _, h⟩ := writePhys_frame s w key n val mask; rw [h]
@[simp] theorem writePhys_graphs (s : State) (w : Nat × Nat) (key n val mask : Nat) : (writePhys s w key n val mask).graphs = s.graphs := by
  obtain ⟨_, _, _, h⟩ := writePhys_frame s w key n val mask; rw [h]
@[simp] theorem writePhys_saved (s : State) (w : Nat × Nat) (key n val mask : Nat) : (writePhys s w key n val mask).saved = s.saved := by
  obtain ⟨_, _, _, h⟩ := writePhys_frame s w key n val mask; rw [h]
@[simp] theorem writePhys_net (s : State) (w : Nat × Nat) (key n val mask : Nat) : (writePhys s w key n val mask).net = s.net := by
  obtain ⟨_, _, _, h⟩ := writePhys_frame s w key n val mask; rw [h]
@[simp] theorem writePhys_replies (s : State) (w : Nat × Nat)
    (key n val mask : Nat) : (writePhys s w key n val mask).replies = s.replies := by
  obtain ⟨_, _, _, h⟩ := writePhys_frame s w key n val mask; rw [h]
@[simp] theorem writePhys_gathers (s : State) (w : Nat × Nat)
    (key n val mask : Nat) : (writePhys s w key n val mask).gathers = s.gathers := by
  obtain ⟨_, _, _, h⟩ := writePhys_frame s w key n val mask; rw [h]
@[simp] theorem writePhys_cmds (s : State) (w : Nat × Nat) (key n val mask : Nat) : (writePhys s w key n val mask).cmds = s.cmds := by
  obtain ⟨_, _, _, h⟩ := writePhys_frame s w key n val mask; rw [h]
@[simp] theorem writePhys_l1 (s : State) (w : Nat × Nat) (key n val mask : Nat) : (writePhys s w key n val mask).l1 = s.l1 := by
  obtain ⟨_, _, _, h⟩ := writePhys_frame s w key n val mask; rw [h]
@[simp] theorem writePhys_replicas (s : State) (w : Nat × Nat)
    (key n val mask : Nat) : (writePhys s w key n val mask).replicas = s.replicas := by
  obtain ⟨_, _, _, h⟩ := writePhys_frame s w key n val mask; rw [h]
@[simp] theorem writePhys_l2 (s : State) (w : Nat × Nat) (key n val mask : Nat) : (writePhys s w key n val mask).l2 = s.l2 := by
  obtain ⟨_, _, _, h⟩ := writePhys_frame s w key n val mask; rw [h]
@[simp] theorem writePhys_leases (s : State) (w : Nat × Nat) (key n val mask : Nat) : (writePhys s w key n val mask).leases = s.leases := by
  obtain ⟨_, _, _, h⟩ := writePhys_frame s w key n val mask; rw [h]
@[simp] theorem writePhys_versions (s : State) (w : Nat × Nat)
    (key n val mask : Nat) : (writePhys s w key n val mask).versions = s.versions := by
  obtain ⟨_, _, _, h⟩ := writePhys_frame s w key n val mask; rw [h]
@[simp] theorem writePhys_seen (s : State) (w : Nat × Nat) (key n val mask : Nat) : (writePhys s w key n val mask).seen = s.seen := by
  obtain ⟨_, _, _, h⟩ := writePhys_frame s w key n val mask; rw [h]
@[simp] theorem writePhys_owners (s : State) (w : Nat × Nat) (key n val mask : Nat) : (writePhys s w key n val mask).owners = s.owners := by
  obtain ⟨_, _, _, h⟩ := writePhys_frame s w key n val mask; rw [h]
@[simp] theorem writePhys_stackRegs (s : State) (w : Nat × Nat)
    (key n val mask : Nat) : (writePhys s w key n val mask).stackRegs = s.stackRegs := by
  obtain ⟨_, _, _, h⟩ := writePhys_frame s w key n val mask; rw [h]
@[simp] theorem writePhys_computeMode (s : State) (w : Nat × Nat)
    (key n val mask : Nat) : (writePhys s w key n val mask).computeMode = s.computeMode := by
  obtain ⟨_, _, _, h⟩ := writePhys_frame s w key n val mask; rw [h]
@[simp] theorem writePhys_nbus (s : State) (w : Nat × Nat) (key n val mask : Nat) : (writePhys s w key n val mask).nbus = s.nbus := by
  obtain ⟨_, _, _, h⟩ := writePhys_frame s w key n val mask; rw [h]
@[simp] theorem writePhys_activations (s : State) (w : Nat × Nat)
    (key n val mask : Nat) : (writePhys s w key n val mask).activations = s.activations := by
  obtain ⟨_, _, _, h⟩ := writePhys_frame s w key n val mask; rw [h]
@[simp] theorem writePhys_credit (s : State) (w : Nat × Nat) (key n val mask : Nat) : (writePhys s w key n val mask).credit = s.credit := by
  obtain ⟨_, _, _, h⟩ := writePhys_frame s w key n val mask; rw [h]
@[simp] theorem writePhys_classes (s : State) (w : Nat × Nat)
    (key n val mask : Nat) : (writePhys s w key n val mask).classes = s.classes := by
  obtain ⟨_, _, _, h⟩ := writePhys_frame s w key n val mask; rw [h]
@[simp] theorem writePhys_parts (s : State) (w : Nat × Nat) (key n val mask : Nat) : (writePhys s w key n val mask).parts = s.parts := by
  obtain ⟨_, _, _, h⟩ := writePhys_frame s w key n val mask; rw [h]
@[simp] theorem writePhys_domains (s : State) (w : Nat × Nat)
    (key n val mask : Nat) : (writePhys s w key n val mask).domains = s.domains := by
  obtain ⟨_, _, _, h⟩ := writePhys_frame s w key n val mask; rw [h]
@[simp] theorem writePhys_fns (s : State) (w : Nat × Nat) (key n val mask : Nat) : (writePhys s w key n val mask).fns = s.fns := by
  obtain ⟨_, _, _, h⟩ := writePhys_frame s w key n val mask; rw [h]
@[simp] theorem writePhys_dlfw (s : State) (w : Nat × Nat) (key n val mask : Nat) : (writePhys s w key n val mask).dlfw = s.dlfw := by
  obtain ⟨_, _, _, h⟩ := writePhys_frame s w key n val mask; rw [h]
@[simp] theorem writePhys_logs (s : State) (w : Nat × Nat) (key n val mask : Nat) : (writePhys s w key n val mask).logs = s.logs := by
  obtain ⟨_, _, _, h⟩ := writePhys_frame s w key n val mask; rw [h]
@[simp] theorem writePhys_comms (s : State) (w : Nat × Nat) (key n val mask : Nat) : (writePhys s w key n val mask).comms = s.comms := by
  obtain ⟨_, _, _, h⟩ := writePhys_frame s w key n val mask; rw [h]
@[simp] theorem writePhys_health (s : State) (w : Nat × Nat) (key n val mask : Nat) : (writePhys s w key n val mask).health = s.health := by
  obtain ⟨_, _, _, h⟩ := writePhys_frame s w key n val mask; rw [h]
@[simp] theorem writePhys_temps (s : State) (w : Nat × Nat) (key n val mask : Nat) : (writePhys s w key n val mask).temps = s.temps := by
  obtain ⟨_, _, _, h⟩ := writePhys_frame s w key n val mask; rw [h]
@[simp] theorem writePhys_poweredDown (s : State) (w : Nat × Nat)
    (key n val mask : Nat) : (writePhys s w key n val mask).poweredDown = s.poweredDown := by
  obtain ⟨_, _, _, h⟩ := writePhys_frame s w key n val mask; rw [h]
@[simp] theorem writePhys_monitors (s : State) (w : Nat × Nat)
    (key n val mask : Nat) : (writePhys s w key n val mask).monitors = s.monitors := by
  obtain ⟨_, _, _, h⟩ := writePhys_frame s w key n val mask; rw [h]
@[simp] theorem writePhys_busRead (s : State) (w : Nat × Nat)
    (key n val mask : Nat) : (writePhys s w key n val mask).busRead = s.busRead := by
  obtain ⟨_, _, _, h⟩ := writePhys_frame s w key n val mask; rw [h]
@[simp] theorem writePhys_linkUp (s : State) (w : Nat × Nat) (key n val mask : Nat) : (writePhys s w key n val mask).linkUp = s.linkUp := by
  obtain ⟨_, _, _, h⟩ := writePhys_frame s w key n val mask; rw [h]
@[simp] theorem writePhys_retrain (s : State) (w : Nat × Nat)
    (key n val mask : Nat) : (writePhys s w key n val mask).retrain = s.retrain := by
  obtain ⟨_, _, _, h⟩ := writePhys_frame s w key n val mask; rw [h]
@[simp] theorem writePhys_aer (s : State) (w : Nat × Nat) (key n val mask : Nat) : (writePhys s w key n val mask).aer = s.aer := by
  obtain ⟨_, _, _, h⟩ := writePhys_frame s w key n val mask; rw [h]
@[simp] theorem writePhys_lanes (s : State) (w : Nat × Nat) (key n val mask : Nat) : (writePhys s w key n val mask).lanes = s.lanes := by
  obtain ⟨_, _, _, h⟩ := writePhys_frame s w key n val mask; rw [h]
@[simp] theorem writePhys_hostMem (s : State) (w : Nat × Nat)
    (key n val mask : Nat) : (writePhys s w key n val mask).hostMem = s.hostMem := by
  obtain ⟨_, _, _, h⟩ := writePhys_frame s w key n val mask; rw [h]
@[simp] theorem writePhys_hostBad (s : State) (w : Nat × Nat)
    (key n val mask : Nat) : (writePhys s w key n val mask).hostBad = s.hostBad := by
  obtain ⟨_, _, _, h⟩ := writePhys_frame s w key n val mask; rw [h]
@[simp] theorem writePhys_pfMessages (s : State) (w : Nat × Nat)
    (key n val mask : Nat) : (writePhys s w key n val mask).pfMessages = s.pfMessages := by
  obtain ⟨_, _, _, h⟩ := writePhys_frame s w key n val mask; rw [h]
@[simp] theorem writePhys_bringUp (s : State) (w : Nat × Nat)
    (key n val mask : Nat) : (writePhys s w key n val mask).bringUp = s.bringUp := by
  obtain ⟨_, _, _, h⟩ := writePhys_frame s w key n val mask; rw [h]
@[simp] theorem writePhys_bringUpFailed (s : State) (w : Nat × Nat)
    (key n val mask : Nat) : (writePhys s w key n val mask).bringUpFailed = s.bringUpFailed := by
  obtain ⟨_, _, _, h⟩ := writePhys_frame s w key n val mask; rw [h]
@[simp] theorem writePhys_image (s : State) (w : Nat × Nat) (key n val mask : Nat) : (writePhys s w key n val mask).image = s.image := by
  obtain ⟨_, _, _, h⟩ := writePhys_frame s w key n val mask; rw [h]
@[simp] theorem writePhys_imageSigned (s : State) (w : Nat × Nat)
    (key n val mask : Nat) : (writePhys s w key n val mask).imageSigned = s.imageSigned := by
  obtain ⟨_, _, _, h⟩ := writePhys_frame s w key n val mask; rw [h]
@[simp] theorem writePhys_replacement (s : State) (w : Nat × Nat)
    (key n val mask : Nat) : (writePhys s w key n val mask).replacement = s.replacement := by
  obtain ⟨_, _, _, h⟩ := writePhys_frame s w key n val mask; rw [h]
@[simp] theorem writePhys_measured (s : State) (w : Nat × Nat)
    (key n val mask : Nat) : (writePhys s w key n val mask).measured = s.measured := by
  obtain ⟨_, _, _, h⟩ := writePhys_frame s w key n val mask; rw [h]
@[simp] theorem writePhys_spdm (s : State) (w : Nat × Nat) (key n val mask : Nat) : (writePhys s w key n val mask).spdm = s.spdm := by
  obtain ⟨_, _, _, h⟩ := writePhys_frame s w key n val mask; rw [h]

/-! `dropL1` changes l1 alone. -/

@[simp] theorem dropL1_agenda (s : State) (core ia : Nat) : (dropL1 s core ia).agenda = s.agenda := rfl
@[simp] theorem dropL1_cur (s : State) (core ia : Nat) : (dropL1 s core ia).cur = s.cur := rfl
@[simp] theorem dropL1_free (s : State) (core ia : Nat) : (dropL1 s core ia).free = s.free := rfl
@[simp] theorem dropL1_nextId (s : State) (core ia : Nat) : (dropL1 s core ia).nextId = s.nextId := rfl
@[simp] theorem dropL1_ahead (s : State) (core ia : Nat) : (dropL1 s core ia).ahead = s.ahead := rfl
@[simp] theorem dropL1_dt (s : State) (core ia : Nat) : (dropL1 s core ia).dt = s.dt := rfl
@[simp] theorem dropL1_skewCore (s : State) (core ia : Nat) : (dropL1 s core ia).skewCore = s.skewCore := rfl
@[simp] theorem dropL1_skewSlice (s : State) (core ia : Nat) : (dropL1 s core ia).skewSlice = s.skewSlice := rfl
@[simp] theorem dropL1_unsync (s : State) (core ia : Nat) : (dropL1 s core ia).unsync = s.unsync := rfl
@[simp] theorem dropL1_lagging (s : State) (core ia : Nat) : (dropL1 s core ia).lagging = s.lagging := rfl
@[simp] theorem dropL1_groups (s : State) (core ia : Nat) : (dropL1 s core ia).groups = s.groups := rfl
@[simp] theorem dropL1_blocks (s : State) (core ia : Nat) : (dropL1 s core ia).blocks = s.blocks := rfl
@[simp] theorem dropL1_seqs (s : State) (core ia : Nat) : (dropL1 s core ia).seqs = s.seqs := rfl
@[simp] theorem dropL1_cores (s : State) (core ia : Nat) : (dropL1 s core ia).cores = s.cores := rfl
@[simp] theorem dropL1_runs (s : State) (core ia : Nat) : (dropL1 s core ia).runs = s.runs := rfl
@[simp] theorem dropL1_launches (s : State) (core ia : Nat) : (dropL1 s core ia).launches = s.launches := rfl
@[simp] theorem dropL1_graphs (s : State) (core ia : Nat) : (dropL1 s core ia).graphs = s.graphs := rfl
@[simp] theorem dropL1_saved (s : State) (core ia : Nat) : (dropL1 s core ia).saved = s.saved := rfl
@[simp] theorem dropL1_net (s : State) (core ia : Nat) : (dropL1 s core ia).net = s.net := rfl
@[simp] theorem dropL1_replies (s : State) (core ia : Nat) : (dropL1 s core ia).replies = s.replies := rfl
@[simp] theorem dropL1_gathers (s : State) (core ia : Nat) : (dropL1 s core ia).gathers = s.gathers := rfl
@[simp] theorem dropL1_cmds (s : State) (core ia : Nat) : (dropL1 s core ia).cmds = s.cmds := rfl
@[simp] theorem dropL1_replicas (s : State) (core ia : Nat) : (dropL1 s core ia).replicas = s.replicas := rfl
@[simp] theorem dropL1_l2 (s : State) (core ia : Nat) : (dropL1 s core ia).l2 = s.l2 := rfl
@[simp] theorem dropL1_leases (s : State) (core ia : Nat) : (dropL1 s core ia).leases = s.leases := rfl
@[simp] theorem dropL1_versions (s : State) (core ia : Nat) : (dropL1 s core ia).versions = s.versions := rfl
@[simp] theorem dropL1_seen (s : State) (core ia : Nat) : (dropL1 s core ia).seen = s.seen := rfl
@[simp] theorem dropL1_mem (s : State) (core ia : Nat) : (dropL1 s core ia).mem = s.mem := rfl
@[simp] theorem dropL1_memPoison (s : State) (core ia : Nat) : (dropL1 s core ia).memPoison = s.memPoison := rfl
@[simp] theorem dropL1_covers (s : State) (core ia : Nat) : (dropL1 s core ia).covers = s.covers := rfl
@[simp] theorem dropL1_owners (s : State) (core ia : Nat) : (dropL1 s core ia).owners = s.owners := rfl
@[simp] theorem dropL1_stackRegs (s : State) (core ia : Nat) : (dropL1 s core ia).stackRegs = s.stackRegs := rfl
@[simp] theorem dropL1_computeMode (s : State) (core ia : Nat) : (dropL1 s core ia).computeMode = s.computeMode := rfl
@[simp] theorem dropL1_nbus (s : State) (core ia : Nat) : (dropL1 s core ia).nbus = s.nbus := rfl
@[simp] theorem dropL1_activations (s : State) (core ia : Nat) : (dropL1 s core ia).activations = s.activations := rfl
@[simp] theorem dropL1_credit (s : State) (core ia : Nat) : (dropL1 s core ia).credit = s.credit := rfl
@[simp] theorem dropL1_classes (s : State) (core ia : Nat) : (dropL1 s core ia).classes = s.classes := rfl
@[simp] theorem dropL1_parts (s : State) (core ia : Nat) : (dropL1 s core ia).parts = s.parts := rfl
@[simp] theorem dropL1_domains (s : State) (core ia : Nat) : (dropL1 s core ia).domains = s.domains := rfl
@[simp] theorem dropL1_fns (s : State) (core ia : Nat) : (dropL1 s core ia).fns = s.fns := rfl
@[simp] theorem dropL1_dlfw (s : State) (core ia : Nat) : (dropL1 s core ia).dlfw = s.dlfw := rfl
@[simp] theorem dropL1_logs (s : State) (core ia : Nat) : (dropL1 s core ia).logs = s.logs := rfl
@[simp] theorem dropL1_comms (s : State) (core ia : Nat) : (dropL1 s core ia).comms = s.comms := rfl
@[simp] theorem dropL1_health (s : State) (core ia : Nat) : (dropL1 s core ia).health = s.health := rfl
@[simp] theorem dropL1_temps (s : State) (core ia : Nat) : (dropL1 s core ia).temps = s.temps := rfl
@[simp] theorem dropL1_poweredDown (s : State) (core ia : Nat) : (dropL1 s core ia).poweredDown = s.poweredDown := rfl
@[simp] theorem dropL1_monitors (s : State) (core ia : Nat) : (dropL1 s core ia).monitors = s.monitors := rfl
@[simp] theorem dropL1_busRead (s : State) (core ia : Nat) : (dropL1 s core ia).busRead = s.busRead := rfl
@[simp] theorem dropL1_linkUp (s : State) (core ia : Nat) : (dropL1 s core ia).linkUp = s.linkUp := rfl
@[simp] theorem dropL1_retrain (s : State) (core ia : Nat) : (dropL1 s core ia).retrain = s.retrain := rfl
@[simp] theorem dropL1_aer (s : State) (core ia : Nat) : (dropL1 s core ia).aer = s.aer := rfl
@[simp] theorem dropL1_lanes (s : State) (core ia : Nat) : (dropL1 s core ia).lanes = s.lanes := rfl
@[simp] theorem dropL1_hostMem (s : State) (core ia : Nat) : (dropL1 s core ia).hostMem = s.hostMem := rfl
@[simp] theorem dropL1_hostBad (s : State) (core ia : Nat) : (dropL1 s core ia).hostBad = s.hostBad := rfl
@[simp] theorem dropL1_pfMessages (s : State) (core ia : Nat) : (dropL1 s core ia).pfMessages = s.pfMessages := rfl
@[simp] theorem dropL1_bringUp (s : State) (core ia : Nat) : (dropL1 s core ia).bringUp = s.bringUp := rfl
@[simp] theorem dropL1_bringUpFailed (s : State) (core ia : Nat) : (dropL1 s core ia).bringUpFailed = s.bringUpFailed := rfl
@[simp] theorem dropL1_image (s : State) (core ia : Nat) : (dropL1 s core ia).image = s.image := rfl
@[simp] theorem dropL1_imageSigned (s : State) (core ia : Nat) : (dropL1 s core ia).imageSigned = s.imageSigned := rfl
@[simp] theorem dropL1_replacement (s : State) (core ia : Nat) : (dropL1 s core ia).replacement = s.replacement := rfl
@[simp] theorem dropL1_measured (s : State) (core ia : Nat) : (dropL1 s core ia).measured = s.measured := rfl
@[simp] theorem dropL1_spdm (s : State) (core ia : Nat) : (dropL1 s core ia).spdm = s.spdm := rfl

/-! `updateL1` changes l1 alone. -/

@[simp] theorem updateL1_agenda (s : State) (core ia val mask id : Nat) : (updateL1 s core ia val mask id).agenda = s.agenda := rfl
@[simp] theorem updateL1_cur (s : State) (core ia val mask id : Nat) : (updateL1 s core ia val mask id).cur = s.cur := rfl
@[simp] theorem updateL1_free (s : State) (core ia val mask id : Nat) : (updateL1 s core ia val mask id).free = s.free := rfl
@[simp] theorem updateL1_nextId (s : State) (core ia val mask id : Nat) : (updateL1 s core ia val mask id).nextId = s.nextId := rfl
@[simp] theorem updateL1_ahead (s : State) (core ia val mask id : Nat) : (updateL1 s core ia val mask id).ahead = s.ahead := rfl
@[simp] theorem updateL1_dt (s : State) (core ia val mask id : Nat) : (updateL1 s core ia val mask id).dt = s.dt := rfl
@[simp] theorem updateL1_skewCore (s : State) (core ia val mask id : Nat) : (updateL1 s core ia val mask id).skewCore = s.skewCore := rfl
@[simp] theorem updateL1_skewSlice (s : State) (core ia val mask id : Nat) : (updateL1 s core ia val mask id).skewSlice = s.skewSlice := rfl
@[simp] theorem updateL1_unsync (s : State) (core ia val mask id : Nat) : (updateL1 s core ia val mask id).unsync = s.unsync := rfl
@[simp] theorem updateL1_lagging (s : State) (core ia val mask id : Nat) : (updateL1 s core ia val mask id).lagging = s.lagging := rfl
@[simp] theorem updateL1_groups (s : State) (core ia val mask id : Nat) : (updateL1 s core ia val mask id).groups = s.groups := rfl
@[simp] theorem updateL1_blocks (s : State) (core ia val mask id : Nat) : (updateL1 s core ia val mask id).blocks = s.blocks := rfl
@[simp] theorem updateL1_seqs (s : State) (core ia val mask id : Nat) : (updateL1 s core ia val mask id).seqs = s.seqs := rfl
@[simp] theorem updateL1_cores (s : State) (core ia val mask id : Nat) : (updateL1 s core ia val mask id).cores = s.cores := rfl
@[simp] theorem updateL1_runs (s : State) (core ia val mask id : Nat) : (updateL1 s core ia val mask id).runs = s.runs := rfl
@[simp] theorem updateL1_launches (s : State) (core ia val mask id : Nat) : (updateL1 s core ia val mask id).launches = s.launches := rfl
@[simp] theorem updateL1_graphs (s : State) (core ia val mask id : Nat) : (updateL1 s core ia val mask id).graphs = s.graphs := rfl
@[simp] theorem updateL1_saved (s : State) (core ia val mask id : Nat) : (updateL1 s core ia val mask id).saved = s.saved := rfl
@[simp] theorem updateL1_net (s : State) (core ia val mask id : Nat) : (updateL1 s core ia val mask id).net = s.net := rfl
@[simp] theorem updateL1_replies (s : State) (core ia val mask id : Nat) : (updateL1 s core ia val mask id).replies = s.replies := rfl
@[simp] theorem updateL1_gathers (s : State) (core ia val mask id : Nat) : (updateL1 s core ia val mask id).gathers = s.gathers := rfl
@[simp] theorem updateL1_cmds (s : State) (core ia val mask id : Nat) : (updateL1 s core ia val mask id).cmds = s.cmds := rfl
@[simp] theorem updateL1_replicas (s : State) (core ia val mask id : Nat) : (updateL1 s core ia val mask id).replicas = s.replicas := rfl
@[simp] theorem updateL1_l2 (s : State) (core ia val mask id : Nat) : (updateL1 s core ia val mask id).l2 = s.l2 := rfl
@[simp] theorem updateL1_leases (s : State) (core ia val mask id : Nat) : (updateL1 s core ia val mask id).leases = s.leases := rfl
@[simp] theorem updateL1_versions (s : State) (core ia val mask id : Nat) : (updateL1 s core ia val mask id).versions = s.versions := rfl
@[simp] theorem updateL1_seen (s : State) (core ia val mask id : Nat) : (updateL1 s core ia val mask id).seen = s.seen := rfl
@[simp] theorem updateL1_mem (s : State) (core ia val mask id : Nat) : (updateL1 s core ia val mask id).mem = s.mem := rfl
@[simp] theorem updateL1_memPoison (s : State) (core ia val mask id : Nat) : (updateL1 s core ia val mask id).memPoison = s.memPoison := rfl
@[simp] theorem updateL1_covers (s : State) (core ia val mask id : Nat) : (updateL1 s core ia val mask id).covers = s.covers := rfl
@[simp] theorem updateL1_owners (s : State) (core ia val mask id : Nat) : (updateL1 s core ia val mask id).owners = s.owners := rfl
@[simp] theorem updateL1_stackRegs (s : State) (core ia val mask id : Nat) : (updateL1 s core ia val mask id).stackRegs = s.stackRegs := rfl
@[simp] theorem updateL1_computeMode (s : State)
    (core ia val mask id : Nat) : (updateL1 s core ia val mask id).computeMode = s.computeMode := rfl
@[simp] theorem updateL1_nbus (s : State) (core ia val mask id : Nat) : (updateL1 s core ia val mask id).nbus = s.nbus := rfl
@[simp] theorem updateL1_activations (s : State)
    (core ia val mask id : Nat) : (updateL1 s core ia val mask id).activations = s.activations := rfl
@[simp] theorem updateL1_credit (s : State) (core ia val mask id : Nat) : (updateL1 s core ia val mask id).credit = s.credit := rfl
@[simp] theorem updateL1_classes (s : State) (core ia val mask id : Nat) : (updateL1 s core ia val mask id).classes = s.classes := rfl
@[simp] theorem updateL1_parts (s : State) (core ia val mask id : Nat) : (updateL1 s core ia val mask id).parts = s.parts := rfl
@[simp] theorem updateL1_domains (s : State) (core ia val mask id : Nat) : (updateL1 s core ia val mask id).domains = s.domains := rfl
@[simp] theorem updateL1_fns (s : State) (core ia val mask id : Nat) : (updateL1 s core ia val mask id).fns = s.fns := rfl
@[simp] theorem updateL1_dlfw (s : State) (core ia val mask id : Nat) : (updateL1 s core ia val mask id).dlfw = s.dlfw := rfl
@[simp] theorem updateL1_logs (s : State) (core ia val mask id : Nat) : (updateL1 s core ia val mask id).logs = s.logs := rfl
@[simp] theorem updateL1_comms (s : State) (core ia val mask id : Nat) : (updateL1 s core ia val mask id).comms = s.comms := rfl
@[simp] theorem updateL1_health (s : State) (core ia val mask id : Nat) : (updateL1 s core ia val mask id).health = s.health := rfl
@[simp] theorem updateL1_temps (s : State) (core ia val mask id : Nat) : (updateL1 s core ia val mask id).temps = s.temps := rfl
@[simp] theorem updateL1_poweredDown (s : State)
    (core ia val mask id : Nat) : (updateL1 s core ia val mask id).poweredDown = s.poweredDown := rfl
@[simp] theorem updateL1_monitors (s : State) (core ia val mask id : Nat) : (updateL1 s core ia val mask id).monitors = s.monitors := rfl
@[simp] theorem updateL1_busRead (s : State) (core ia val mask id : Nat) : (updateL1 s core ia val mask id).busRead = s.busRead := rfl
@[simp] theorem updateL1_linkUp (s : State) (core ia val mask id : Nat) : (updateL1 s core ia val mask id).linkUp = s.linkUp := rfl
@[simp] theorem updateL1_retrain (s : State) (core ia val mask id : Nat) : (updateL1 s core ia val mask id).retrain = s.retrain := rfl
@[simp] theorem updateL1_aer (s : State) (core ia val mask id : Nat) : (updateL1 s core ia val mask id).aer = s.aer := rfl
@[simp] theorem updateL1_lanes (s : State) (core ia val mask id : Nat) : (updateL1 s core ia val mask id).lanes = s.lanes := rfl
@[simp] theorem updateL1_hostMem (s : State) (core ia val mask id : Nat) : (updateL1 s core ia val mask id).hostMem = s.hostMem := rfl
@[simp] theorem updateL1_hostBad (s : State) (core ia val mask id : Nat) : (updateL1 s core ia val mask id).hostBad = s.hostBad := rfl
@[simp] theorem updateL1_pfMessages (s : State)
    (core ia val mask id : Nat) : (updateL1 s core ia val mask id).pfMessages = s.pfMessages := rfl
@[simp] theorem updateL1_bringUp (s : State) (core ia val mask id : Nat) : (updateL1 s core ia val mask id).bringUp = s.bringUp := rfl
@[simp] theorem updateL1_bringUpFailed (s : State)
    (core ia val mask id : Nat) : (updateL1 s core ia val mask id).bringUpFailed = s.bringUpFailed := rfl
@[simp] theorem updateL1_image (s : State) (core ia val mask id : Nat) : (updateL1 s core ia val mask id).image = s.image := rfl
@[simp] theorem updateL1_imageSigned (s : State)
    (core ia val mask id : Nat) : (updateL1 s core ia val mask id).imageSigned = s.imageSigned := rfl
@[simp] theorem updateL1_replacement (s : State)
    (core ia val mask id : Nat) : (updateL1 s core ia val mask id).replacement = s.replacement := rfl
@[simp] theorem updateL1_measured (s : State) (core ia val mask id : Nat) : (updateL1 s core ia val mask id).measured = s.measured := rfl
@[simp] theorem updateL1_spdm (s : State) (core ia val mask id : Nat) : (updateL1 s core ia val mask id).spdm = s.spdm := rfl

/-! `launchEvent` changes launches alone. -/

@[simp] theorem launchEvent_agenda (s : State) (l code : Nat) : (launchEvent s l code).agenda = s.agenda := rfl
@[simp] theorem launchEvent_cur (s : State) (l code : Nat) : (launchEvent s l code).cur = s.cur := rfl
@[simp] theorem launchEvent_free (s : State) (l code : Nat) : (launchEvent s l code).free = s.free := rfl
@[simp] theorem launchEvent_nextId (s : State) (l code : Nat) : (launchEvent s l code).nextId = s.nextId := rfl
@[simp] theorem launchEvent_ahead (s : State) (l code : Nat) : (launchEvent s l code).ahead = s.ahead := rfl
@[simp] theorem launchEvent_dt (s : State) (l code : Nat) : (launchEvent s l code).dt = s.dt := rfl
@[simp] theorem launchEvent_skewCore (s : State) (l code : Nat) : (launchEvent s l code).skewCore = s.skewCore := rfl
@[simp] theorem launchEvent_skewSlice (s : State) (l code : Nat) : (launchEvent s l code).skewSlice = s.skewSlice := rfl
@[simp] theorem launchEvent_unsync (s : State) (l code : Nat) : (launchEvent s l code).unsync = s.unsync := rfl
@[simp] theorem launchEvent_lagging (s : State) (l code : Nat) : (launchEvent s l code).lagging = s.lagging := rfl
@[simp] theorem launchEvent_groups (s : State) (l code : Nat) : (launchEvent s l code).groups = s.groups := rfl
@[simp] theorem launchEvent_blocks (s : State) (l code : Nat) : (launchEvent s l code).blocks = s.blocks := rfl
@[simp] theorem launchEvent_seqs (s : State) (l code : Nat) : (launchEvent s l code).seqs = s.seqs := rfl
@[simp] theorem launchEvent_cores (s : State) (l code : Nat) : (launchEvent s l code).cores = s.cores := rfl
@[simp] theorem launchEvent_runs (s : State) (l code : Nat) : (launchEvent s l code).runs = s.runs := rfl
@[simp] theorem launchEvent_graphs (s : State) (l code : Nat) : (launchEvent s l code).graphs = s.graphs := rfl
@[simp] theorem launchEvent_saved (s : State) (l code : Nat) : (launchEvent s l code).saved = s.saved := rfl
@[simp] theorem launchEvent_net (s : State) (l code : Nat) : (launchEvent s l code).net = s.net := rfl
@[simp] theorem launchEvent_replies (s : State) (l code : Nat) : (launchEvent s l code).replies = s.replies := rfl
@[simp] theorem launchEvent_gathers (s : State) (l code : Nat) : (launchEvent s l code).gathers = s.gathers := rfl
@[simp] theorem launchEvent_cmds (s : State) (l code : Nat) : (launchEvent s l code).cmds = s.cmds := rfl
@[simp] theorem launchEvent_l1 (s : State) (l code : Nat) : (launchEvent s l code).l1 = s.l1 := rfl
@[simp] theorem launchEvent_replicas (s : State) (l code : Nat) : (launchEvent s l code).replicas = s.replicas := rfl
@[simp] theorem launchEvent_l2 (s : State) (l code : Nat) : (launchEvent s l code).l2 = s.l2 := rfl
@[simp] theorem launchEvent_leases (s : State) (l code : Nat) : (launchEvent s l code).leases = s.leases := rfl
@[simp] theorem launchEvent_versions (s : State) (l code : Nat) : (launchEvent s l code).versions = s.versions := rfl
@[simp] theorem launchEvent_seen (s : State) (l code : Nat) : (launchEvent s l code).seen = s.seen := rfl
@[simp] theorem launchEvent_mem (s : State) (l code : Nat) : (launchEvent s l code).mem = s.mem := rfl
@[simp] theorem launchEvent_memPoison (s : State) (l code : Nat) : (launchEvent s l code).memPoison = s.memPoison := rfl
@[simp] theorem launchEvent_covers (s : State) (l code : Nat) : (launchEvent s l code).covers = s.covers := rfl
@[simp] theorem launchEvent_owners (s : State) (l code : Nat) : (launchEvent s l code).owners = s.owners := rfl
@[simp] theorem launchEvent_stackRegs (s : State) (l code : Nat) : (launchEvent s l code).stackRegs = s.stackRegs := rfl
@[simp] theorem launchEvent_computeMode (s : State) (l code : Nat) : (launchEvent s l code).computeMode = s.computeMode := rfl
@[simp] theorem launchEvent_nbus (s : State) (l code : Nat) : (launchEvent s l code).nbus = s.nbus := rfl
@[simp] theorem launchEvent_activations (s : State) (l code : Nat) : (launchEvent s l code).activations = s.activations := rfl
@[simp] theorem launchEvent_credit (s : State) (l code : Nat) : (launchEvent s l code).credit = s.credit := rfl
@[simp] theorem launchEvent_classes (s : State) (l code : Nat) : (launchEvent s l code).classes = s.classes := rfl
@[simp] theorem launchEvent_parts (s : State) (l code : Nat) : (launchEvent s l code).parts = s.parts := rfl
@[simp] theorem launchEvent_domains (s : State) (l code : Nat) : (launchEvent s l code).domains = s.domains := rfl
@[simp] theorem launchEvent_fns (s : State) (l code : Nat) : (launchEvent s l code).fns = s.fns := rfl
@[simp] theorem launchEvent_dlfw (s : State) (l code : Nat) : (launchEvent s l code).dlfw = s.dlfw := rfl
@[simp] theorem launchEvent_logs (s : State) (l code : Nat) : (launchEvent s l code).logs = s.logs := rfl
@[simp] theorem launchEvent_comms (s : State) (l code : Nat) : (launchEvent s l code).comms = s.comms := rfl
@[simp] theorem launchEvent_health (s : State) (l code : Nat) : (launchEvent s l code).health = s.health := rfl
@[simp] theorem launchEvent_temps (s : State) (l code : Nat) : (launchEvent s l code).temps = s.temps := rfl
@[simp] theorem launchEvent_poweredDown (s : State) (l code : Nat) : (launchEvent s l code).poweredDown = s.poweredDown := rfl
@[simp] theorem launchEvent_monitors (s : State) (l code : Nat) : (launchEvent s l code).monitors = s.monitors := rfl
@[simp] theorem launchEvent_busRead (s : State) (l code : Nat) : (launchEvent s l code).busRead = s.busRead := rfl
@[simp] theorem launchEvent_linkUp (s : State) (l code : Nat) : (launchEvent s l code).linkUp = s.linkUp := rfl
@[simp] theorem launchEvent_retrain (s : State) (l code : Nat) : (launchEvent s l code).retrain = s.retrain := rfl
@[simp] theorem launchEvent_aer (s : State) (l code : Nat) : (launchEvent s l code).aer = s.aer := rfl
@[simp] theorem launchEvent_lanes (s : State) (l code : Nat) : (launchEvent s l code).lanes = s.lanes := rfl
@[simp] theorem launchEvent_hostMem (s : State) (l code : Nat) : (launchEvent s l code).hostMem = s.hostMem := rfl
@[simp] theorem launchEvent_hostBad (s : State) (l code : Nat) : (launchEvent s l code).hostBad = s.hostBad := rfl
@[simp] theorem launchEvent_pfMessages (s : State) (l code : Nat) : (launchEvent s l code).pfMessages = s.pfMessages := rfl
@[simp] theorem launchEvent_bringUp (s : State) (l code : Nat) : (launchEvent s l code).bringUp = s.bringUp := rfl
@[simp] theorem launchEvent_bringUpFailed (s : State) (l code : Nat) : (launchEvent s l code).bringUpFailed = s.bringUpFailed := rfl
@[simp] theorem launchEvent_image (s : State) (l code : Nat) : (launchEvent s l code).image = s.image := rfl
@[simp] theorem launchEvent_imageSigned (s : State) (l code : Nat) : (launchEvent s l code).imageSigned = s.imageSigned := rfl
@[simp] theorem launchEvent_replacement (s : State) (l code : Nat) : (launchEvent s l code).replacement = s.replacement := rfl
@[simp] theorem launchEvent_measured (s : State) (l code : Nat) : (launchEvent s l code).measured = s.measured := rfl
@[simp] theorem launchEvent_spdm (s : State) (l code : Nat) : (launchEvent s l code).spdm = s.spdm := rfl

/-! `logError` changes logs alone. -/

@[simp] theorem logError_agenda (s : State) (stack : Nat) (e : LogEntry) : (logError s stack e).agenda = s.agenda := rfl
@[simp] theorem logError_cur (s : State) (stack : Nat) (e : LogEntry) : (logError s stack e).cur = s.cur := rfl
@[simp] theorem logError_free (s : State) (stack : Nat) (e : LogEntry) : (logError s stack e).free = s.free := rfl
@[simp] theorem logError_nextId (s : State) (stack : Nat) (e : LogEntry) : (logError s stack e).nextId = s.nextId := rfl
@[simp] theorem logError_ahead (s : State) (stack : Nat) (e : LogEntry) : (logError s stack e).ahead = s.ahead := rfl
@[simp] theorem logError_dt (s : State) (stack : Nat) (e : LogEntry) : (logError s stack e).dt = s.dt := rfl
@[simp] theorem logError_skewCore (s : State) (stack : Nat) (e : LogEntry) : (logError s stack e).skewCore = s.skewCore := rfl
@[simp] theorem logError_skewSlice (s : State) (stack : Nat) (e : LogEntry) : (logError s stack e).skewSlice = s.skewSlice := rfl
@[simp] theorem logError_unsync (s : State) (stack : Nat) (e : LogEntry) : (logError s stack e).unsync = s.unsync := rfl
@[simp] theorem logError_lagging (s : State) (stack : Nat) (e : LogEntry) : (logError s stack e).lagging = s.lagging := rfl
@[simp] theorem logError_groups (s : State) (stack : Nat) (e : LogEntry) : (logError s stack e).groups = s.groups := rfl
@[simp] theorem logError_blocks (s : State) (stack : Nat) (e : LogEntry) : (logError s stack e).blocks = s.blocks := rfl
@[simp] theorem logError_seqs (s : State) (stack : Nat) (e : LogEntry) : (logError s stack e).seqs = s.seqs := rfl
@[simp] theorem logError_cores (s : State) (stack : Nat) (e : LogEntry) : (logError s stack e).cores = s.cores := rfl
@[simp] theorem logError_runs (s : State) (stack : Nat) (e : LogEntry) : (logError s stack e).runs = s.runs := rfl
@[simp] theorem logError_launches (s : State) (stack : Nat) (e : LogEntry) : (logError s stack e).launches = s.launches := rfl
@[simp] theorem logError_graphs (s : State) (stack : Nat) (e : LogEntry) : (logError s stack e).graphs = s.graphs := rfl
@[simp] theorem logError_saved (s : State) (stack : Nat) (e : LogEntry) : (logError s stack e).saved = s.saved := rfl
@[simp] theorem logError_net (s : State) (stack : Nat) (e : LogEntry) : (logError s stack e).net = s.net := rfl
@[simp] theorem logError_replies (s : State) (stack : Nat) (e : LogEntry) : (logError s stack e).replies = s.replies := rfl
@[simp] theorem logError_gathers (s : State) (stack : Nat) (e : LogEntry) : (logError s stack e).gathers = s.gathers := rfl
@[simp] theorem logError_cmds (s : State) (stack : Nat) (e : LogEntry) : (logError s stack e).cmds = s.cmds := rfl
@[simp] theorem logError_l1 (s : State) (stack : Nat) (e : LogEntry) : (logError s stack e).l1 = s.l1 := rfl
@[simp] theorem logError_replicas (s : State) (stack : Nat) (e : LogEntry) : (logError s stack e).replicas = s.replicas := rfl
@[simp] theorem logError_l2 (s : State) (stack : Nat) (e : LogEntry) : (logError s stack e).l2 = s.l2 := rfl
@[simp] theorem logError_leases (s : State) (stack : Nat) (e : LogEntry) : (logError s stack e).leases = s.leases := rfl
@[simp] theorem logError_versions (s : State) (stack : Nat) (e : LogEntry) : (logError s stack e).versions = s.versions := rfl
@[simp] theorem logError_seen (s : State) (stack : Nat) (e : LogEntry) : (logError s stack e).seen = s.seen := rfl
@[simp] theorem logError_mem (s : State) (stack : Nat) (e : LogEntry) : (logError s stack e).mem = s.mem := rfl
@[simp] theorem logError_memPoison (s : State) (stack : Nat) (e : LogEntry) : (logError s stack e).memPoison = s.memPoison := rfl
@[simp] theorem logError_covers (s : State) (stack : Nat) (e : LogEntry) : (logError s stack e).covers = s.covers := rfl
@[simp] theorem logError_owners (s : State) (stack : Nat) (e : LogEntry) : (logError s stack e).owners = s.owners := rfl
@[simp] theorem logError_stackRegs (s : State) (stack : Nat) (e : LogEntry) : (logError s stack e).stackRegs = s.stackRegs := rfl
@[simp] theorem logError_computeMode (s : State) (stack : Nat) (e : LogEntry) : (logError s stack e).computeMode = s.computeMode := rfl
@[simp] theorem logError_nbus (s : State) (stack : Nat) (e : LogEntry) : (logError s stack e).nbus = s.nbus := rfl
@[simp] theorem logError_activations (s : State) (stack : Nat) (e : LogEntry) : (logError s stack e).activations = s.activations := rfl
@[simp] theorem logError_credit (s : State) (stack : Nat) (e : LogEntry) : (logError s stack e).credit = s.credit := rfl
@[simp] theorem logError_classes (s : State) (stack : Nat) (e : LogEntry) : (logError s stack e).classes = s.classes := rfl
@[simp] theorem logError_parts (s : State) (stack : Nat) (e : LogEntry) : (logError s stack e).parts = s.parts := rfl
@[simp] theorem logError_domains (s : State) (stack : Nat) (e : LogEntry) : (logError s stack e).domains = s.domains := rfl
@[simp] theorem logError_fns (s : State) (stack : Nat) (e : LogEntry) : (logError s stack e).fns = s.fns := rfl
@[simp] theorem logError_dlfw (s : State) (stack : Nat) (e : LogEntry) : (logError s stack e).dlfw = s.dlfw := rfl
@[simp] theorem logError_comms (s : State) (stack : Nat) (e : LogEntry) : (logError s stack e).comms = s.comms := rfl
@[simp] theorem logError_health (s : State) (stack : Nat) (e : LogEntry) : (logError s stack e).health = s.health := rfl
@[simp] theorem logError_temps (s : State) (stack : Nat) (e : LogEntry) : (logError s stack e).temps = s.temps := rfl
@[simp] theorem logError_poweredDown (s : State) (stack : Nat) (e : LogEntry) : (logError s stack e).poweredDown = s.poweredDown := rfl
@[simp] theorem logError_monitors (s : State) (stack : Nat) (e : LogEntry) : (logError s stack e).monitors = s.monitors := rfl
@[simp] theorem logError_busRead (s : State) (stack : Nat) (e : LogEntry) : (logError s stack e).busRead = s.busRead := rfl
@[simp] theorem logError_linkUp (s : State) (stack : Nat) (e : LogEntry) : (logError s stack e).linkUp = s.linkUp := rfl
@[simp] theorem logError_retrain (s : State) (stack : Nat) (e : LogEntry) : (logError s stack e).retrain = s.retrain := rfl
@[simp] theorem logError_aer (s : State) (stack : Nat) (e : LogEntry) : (logError s stack e).aer = s.aer := rfl
@[simp] theorem logError_lanes (s : State) (stack : Nat) (e : LogEntry) : (logError s stack e).lanes = s.lanes := rfl
@[simp] theorem logError_hostMem (s : State) (stack : Nat) (e : LogEntry) : (logError s stack e).hostMem = s.hostMem := rfl
@[simp] theorem logError_hostBad (s : State) (stack : Nat) (e : LogEntry) : (logError s stack e).hostBad = s.hostBad := rfl
@[simp] theorem logError_pfMessages (s : State) (stack : Nat) (e : LogEntry) : (logError s stack e).pfMessages = s.pfMessages := rfl
@[simp] theorem logError_bringUp (s : State) (stack : Nat) (e : LogEntry) : (logError s stack e).bringUp = s.bringUp := rfl
@[simp] theorem logError_bringUpFailed (s : State) (stack : Nat)
    (e : LogEntry) : (logError s stack e).bringUpFailed = s.bringUpFailed := rfl
@[simp] theorem logError_image (s : State) (stack : Nat) (e : LogEntry) : (logError s stack e).image = s.image := rfl
@[simp] theorem logError_imageSigned (s : State) (stack : Nat) (e : LogEntry) : (logError s stack e).imageSigned = s.imageSigned := rfl
@[simp] theorem logError_replacement (s : State) (stack : Nat) (e : LogEntry) : (logError s stack e).replacement = s.replacement := rfl
@[simp] theorem logError_measured (s : State) (stack : Nat) (e : LogEntry) : (logError s stack e).measured = s.measured := rfl
@[simp] theorem logError_spdm (s : State) (stack : Nat) (e : LogEntry) : (logError s stack e).spdm = s.spdm := rfl

end Sys2Proof.Machine
end

