-- ==== Sys2Proof/Laws/Table.lean ====
section
/-! SUPPORT. The laws of sparse tables: what a key reads as after each update, and that each update keeps the canonical form. -/

namespace Sys2Proof.Machine

/-! Reading after an update. -/

@[simp] theorem lookupAt_setAt_same {α : Type} (m : Assoc α) (k : Nat) (v : α) : lookupAt (setAt m k v) k = some v := by
  induction m with
  | nil => simp [setAt, lookupAt]
  | cons e t ih =>
    obtain ⟨j, a⟩ := e
    unfold setAt
    split
    · rename_i h; simp [lookupAt, ih, Nat.ne_of_lt h]
    · split <;> simp [lookupAt]

theorem lookupAt_setAt_other {α : Type} (m : Assoc α) (k j : Nat) (v : α) (h : j ≠ k) :
    lookupAt (setAt m k v) j = lookupAt m j := by
  induction m with
  | nil => simp [setAt, lookupAt, h.symm]
  | cons e t ih =>
    obtain ⟨i, a⟩ := e
    unfold setAt
    split
    · by_cases hi : i = j <;> simp [lookupAt, hi, ih]
    · split
      · rename_i hk; subst hk; simp [lookupAt, h.symm]
      · simp [lookupAt, h.symm]

theorem lookupAt_setAt {α : Type} (m : Assoc α) (k j : Nat) (v : α) :
    lookupAt (setAt m k v) j = if j = k then some v else lookupAt m j := by
  by_cases h : j = k
  · subst h; simp
  · simp [h, lookupAt_setAt_other]

theorem lookupAt_eraseAt {α : Type} (m : Assoc α) (k j : Nat) :
    lookupAt (eraseAt m k) j = if j = k then none else lookupAt m j := by
  induction m with
  | nil => simp [eraseAt, lookupAt]
  | cons e t ih =>
    obtain ⟨i, a⟩ := e
    unfold eraseAt at ih ⊢
    by_cases hk : i = k
    · subst hk
      by_cases hj : j = i
      · simp [hj] at ih ⊢; exact ih
      · simp [hj, Ne.symm hj, lookupAt] at ih ⊢; exact ih
    · by_cases hj : i = j
      · subst hj; simp [hk, lookupAt]
      · simp [hk, lookupAt, hj]; exact ih

theorem getAt_putAt {α : Type} [DecidableEq α] (d : α) (m : Assoc α) (k j : Nat) (v : α) :
    getAt d (putAt d m k v) j = if j = k then v else getAt d m j := by
  unfold getAt putAt
  by_cases hv : v = d
  · simp only [hv, if_true, lookupAt_eraseAt]; split <;> rfl
  · simp only [hv, if_false, lookupAt_setAt]; split <;> rfl

@[simp] theorem getAt_putAt_same {α : Type} [DecidableEq α] (d : α) (m : Assoc α) (k : Nat) (v : α) :
    getAt d (putAt d m k v) k = v := by simp [getAt_putAt]

theorem getAt_putAt_other {α : Type} [DecidableEq α] (d : α) (m : Assoc α) (k j : Nat) (v : α) (h : j ≠ k) :
    getAt d (putAt d m k v) j = getAt d m j := by simp [getAt_putAt, h]

theorem lookupAt_modifyAt {α : Type} (m : Assoc α) (k j : Nat) (f : α → α) :
    lookupAt (modifyAt m k f) j = if j = k then (lookupAt m k).map f else lookupAt m j := by
  unfold modifyAt
  cases h : lookupAt m k with
  | none => by_cases hj : j = k <;> simp [hj, h]
  | some a => simp [lookupAt_setAt]

/-! Bytes. -/

theorem readByte_writeByte (m : List Host.Cell) (a b : Nat) (x : Byte) :
    readByte (writeByte m a x) b = if b = a then x else readByte m b := by
  unfold readByte writeByte; exact getAt_putAt _ _ _ _ _

theorem readByte_writeBytes (m : List Host.Cell) (a b : Nat) (xs : List Byte) :
    readByte (writeBytes m a xs) b = if a ≤ b ∧ b < a + xs.length then xs.getD (b - a) 0 else readByte m b := by
  induction xs generalizing m a with
  | nil =>
    have : ¬ (a ≤ b ∧ b < a + ([] : List Byte).length) := by simp
    rw [if_neg this]; rfl
  | cons x t ih =>
    rw [writeBytes, ih]
    simp only [List.length_cons]
    by_cases h1 : b = a
    · subst h1; simp [readByte_writeByte]
    · by_cases h2 : a + 1 ≤ b ∧ b < a + 1 + t.length
      · have h3 : a ≤ b ∧ b < a + (t.length + 1) := by omega
        have h4 : b - a = (b - (a + 1)) + 1 := by omega
        simp [h2, h3, h4]
      · have h3 : ¬ (a ≤ b ∧ b < a + (t.length + 1)) := by omega
        rw [if_neg h2, if_neg h3, readByte_writeByte, if_neg h1]

/-- A masked write leaves every byte outside its range. -/
theorem readByte_writeMasked_outside (m : List Host.Cell) (a b val mask n : Nat) (h : b < a ∨ a + n ≤ b) :
    readByte (writeMasked m a val mask n) b = readByte m b := by
  induction n generalizing m a val mask with
  | zero => rfl
  | succ n ih =>
    have hb : b ≠ a := by omega
    simp only [writeMasked]
    rw [ih _ _ _ _ (by omega), readByte_writeByte]
    simp [hb]

/-- A masked write changes in each byte of its range the enabled bits alone. -/
theorem readByte_writeMasked_inside (m : List Host.Cell) (a val mask n i : Nat) (h : i < n) :
    readByte (writeMasked m a val mask n) (a + i) =
      BitVec.ofNat 8 (((readByte m (a + i)).toNat &&& (255 - mask / 256 ^ i % 256)) ||| (val / 256 ^ i % 256 &&& (mask / 256 ^ i % 256))) := by
  induction n generalizing m a val mask i with
  | zero => omega
  | succ n ih =>
    simp only [writeMasked]
    cases i with
    | zero =>
      rw [Nat.add_zero, readByte_writeMasked_outside _ _ _ _ _ _ (by omega), readByte_writeByte]
      simp
    | succ i =>
      have e : a + (i + 1) = a + 1 + i := by omega
      have ne : a + 1 + i ≠ a := by omega
      rw [e, ih _ _ _ _ i (by omega), readByte_writeByte]
      simp [ne, Nat.div_div_eq_div_mul, Nat.pow_succ, Nat.mul_comm]

/-! The canonical form. -/

/-- Every key of the table is above a bound. -/
def above {α : Type} (k : Nat) (m : Assoc α) : Prop := ∀ e ∈ m, k < e.1

theorem ascending_cons {α : Type} (k : Nat) (a : α) (m : Assoc α) :
    ascending ((k, a) :: m) = true ↔ above k m ∧ ascending m = true := by
  induction m generalizing k a with
  | nil => simp [ascending, above]
  | cons e t ih =>
    obtain ⟨j, b⟩ := e
    simp only [ascending, Bool.and_eq_true, decide_eq_true_eq]
    constructor
    · rintro ⟨h1, h2⟩
      refine ⟨?_, h2⟩
      intro e he
      rcases List.mem_cons.1 he with rfl | he
      · exact h1
      · exact Nat.lt_trans h1 (((ih j b).1 h2).1 e he)
    · rintro ⟨h1, h2⟩
      exact ⟨h1 _ (List.mem_cons_self ..), h2⟩

theorem setAt_mem {α : Type} (m : Assoc α) (k : Nat) (v : α) (e : Nat × α) (h : e ∈ setAt m k v) : e = (k, v) ∨ e ∈ m := by
  induction m with
  | nil => simp [setAt] at h; exact .inl h
  | cons x t ih =>
    obtain ⟨j, a⟩ := x
    unfold setAt at h
    split at h
    · rcases List.mem_cons.1 h with rfl | h
      · exact .inr (List.mem_cons_self ..)
      · exact (ih h).imp_right (List.mem_cons_of_mem _)
    · split at h
      · rcases List.mem_cons.1 h with rfl | h
        · exact .inl rfl
        · exact .inr (List.mem_cons_of_mem _ h)
      · rcases List.mem_cons.1 h with rfl | h
        · exact .inl rfl
        · exact .inr h

theorem ascending_setAt {α : Type} (m : Assoc α) (k : Nat) (v : α) (h : ascending m = true) : ascending (setAt m k v) = true := by
  induction m with
  | nil => rfl
  | cons x t ih =>
    obtain ⟨j, a⟩ := x
    have ⟨h1, h2⟩ := (ascending_cons j a t).1 h
    unfold setAt
    split
    · rename_i hlt
      refine (ascending_cons ..).2 ⟨?_, ih h2⟩
      intro e he
      rcases setAt_mem t k v e he with rfl | he
      · exact hlt
      · exact h1 e he
    · split
      · rename_i hk; subst hk; exact (ascending_cons ..).2 ⟨h1, h2⟩
      · refine (ascending_cons ..).2 ⟨?_, h⟩
        intro e he
        rcases List.mem_cons.1 he with rfl | he
        · simp; omega
        · have := h1 e he; omega

theorem ascending_filter {α : Type} (m : Assoc α) (f : Nat × α → Bool) (h : ascending m = true) : ascending (m.filter f) = true := by
  induction m with
  | nil => rfl
  | cons x t ih =>
    obtain ⟨j, a⟩ := x
    have ⟨h1, h2⟩ := (ascending_cons j a t).1 h
    by_cases hf : f (j, a) = true
    · simp only [List.filter_cons, hf, if_true]
      refine (ascending_cons ..).2 ⟨fun e he => h1 e (List.mem_filter.1 he).1, ih h2⟩
    · simp only [List.filter_cons, hf]
      exact ih h2

theorem ascending_putAt {α : Type} [DecidableEq α] (d : α) (m : Assoc α) (k : Nat) (v : α) (h : ascending m = true) :
    ascending (putAt d m k v) = true := by
  unfold putAt
  split
  · exact ascending_filter _ _ h
  · exact ascending_setAt _ _ _ h

/-- A byte written keeps the canonical form. -/
theorem wf_writeByte (m : List Host.Cell) (a : Nat) (b : Byte) (h : Memory.wf m = true) : Memory.wf (writeByte m a b) = true := by
  simp only [Memory.wf, Bool.and_eq_true] at h ⊢
  refine ⟨ascending_putAt _ _ _ _ h.1, ?_⟩
  have hall := List.all_eq_true.1 h.2
  refine List.all_eq_true.2 (fun c hc => ?_)
  unfold writeByte putAt at hc
  split at hc
  · exact hall c (List.mem_filter.1 hc).1
  · rename_i hb
    rcases setAt_mem _ _ _ _ hc with rfl | hc
    · simpa using hb
    · exact hall c hc

theorem wf_writeBytes (m : List Host.Cell) (a : Nat) (bs : List Byte) (h : Memory.wf m = true) : Memory.wf (writeBytes m a bs) = true := by
  induction bs generalizing m a with
  | nil => exact h
  | cons b t ih => exact ih _ _ (wf_writeByte m a b h)

theorem wf_writeMasked (m : List Host.Cell) (a val mask n : Nat) (h : Memory.wf m = true) :
    Memory.wf (writeMasked m a val mask n) = true := by
  induction n generalizing m a val mask with
  | zero => exact h
  | succ n ih => exact ih _ _ _ _ (wf_writeByte m a _ h)

theorem wf_filter (m : List Host.Cell) (f : Host.Cell → Bool) (h : Memory.wf m = true) : Memory.wf (m.filter f) = true := by
  simp only [Memory.wf, Bool.and_eq_true] at h ⊢
  refine ⟨ascending_filter _ _ h.1, List.all_eq_true.2 (fun c hc => ?_)⟩
  exact List.all_eq_true.1 h.2 c (List.mem_filter.1 hc).1

/-- Equal contents are equal data: two tables of bytes in canonical form that read alike are the same. -/
theorem wf_ext (m m' : List Host.Cell) (h : Memory.wf m = true) (h' : Memory.wf m' = true)
    (e : ∀ a, readByte m a = readByte m' a) : m = m' := by
  have none_of : ∀ (m : List Host.Cell) (k : Nat), above k m → ∀ j, j ≤ k → lookupAt (α := Byte) m j = none := by
    intro m k hk j hj
    induction m with
    | nil => rfl
    | cons x t ih =>
      obtain ⟨i, a⟩ := x
      have h1 := hk _ (List.mem_cons_self ..)
      have : i ≠ j := by simp at h1; omega
      simp only [lookupAt, this, if_false]
      exact ih (fun e he => hk e (List.mem_cons_of_mem _ he))
  have tail : ∀ (x : Host.Cell) (t : List Host.Cell), Memory.wf (x :: t) = true → above x.1 t ∧ Memory.wf t = true ∧ x.2 ≠ 0 := by
    intro x t hx
    simp only [Memory.wf, Bool.and_eq_true, List.all_cons] at hx
    have := (ascending_cons x.1 x.2 t).1 hx.1
    exact ⟨this.1, Bool.and_eq_true _ _ ▸ ⟨this.2, hx.2.2⟩, by simpa using hx.2.1⟩
  have read_head : ∀ (k : Nat) (a : Byte) (t : List Host.Cell), readByte ((k, a) :: t) k = a := by
    intro k a t; simp [readByte, getAt, lookupAt]
  have read_low : ∀ (k j : Nat) (a : Byte) (t : List Host.Cell), above k t → j < k → readByte ((k, a) :: t) j = 0 := by
    intro k j a t hk hj
    have : k ≠ j := by omega
    simp [readByte, getAt, lookupAt, this, none_of t k hk j (by omega)]
  induction m generalizing m' with
  | nil =>
    cases m' with
    | nil => rfl
    | cons x t =>
      have := tail x t h'
      have hx := e x.1
      rw [show x = (x.1, x.2) from rfl, read_head] at hx
      simp [readByte, getAt, lookupAt] at hx
      exact absurd hx.symm this.2.2
  | cons x t ih =>
    have tx := tail x t h
    cases m' with
    | nil =>
      have hx := e x.1
      rw [show x = (x.1, x.2) from rfl, read_head] at hx
      simp [readByte, getAt, lookupAt] at hx
      exact absurd hx tx.2.2
    | cons y u =>
      have ty := tail y u h'
      obtain ⟨k, a⟩ := x
      obtain ⟨j, b⟩ := y
      have hkj : k = j := by
        rcases Nat.lt_trichotomy k j with hlt | heq | hgt
        · have hx := e k
          rw [read_head, read_low j k b u ty.1 hlt] at hx
          exact absurd hx tx.2.2
        · exact heq
        · have hx := e j
          rw [read_head, read_low k j a t tx.1 hgt] at hx
          exact absurd hx.symm ty.2.2
      subst hkj
      have hab : a = b := by have hx := e k; rwa [read_head, read_head] at hx
      subst hab
      congr 1
      apply ih u tx.2.1 ty.2.1
      intro c
      rcases Nat.lt_or_ge k c with hc | hc
      · have hx := e c
        have : k ≠ c := by omega
        simpa [readByte, getAt, lookupAt, this] using hx
      · have h1 := none_of t k tx.1 c hc
        have h2 := none_of u k ty.1 c hc
        simp [readByte, getAt, h1, h2]

end Sys2Proof.Machine
end

