-- ==== Sys2Proof/Laws/Issue.lean ====
section
/-! SUPPORT. The laws of issuing: the checks of R411 answer `go` under the conditions of `MayIssue`, and what the shared operations of an
issue leave unchanged. -/

namespace Sys2Proof.Laws

open Sys2Proof.Machine Sys2Proof.Safety

theorem bitOf_toNat (w : Word) (i : Nat) : bitOf w.toNat i = w.getLsbD i := by
  simp [bitOf, BitVec.getLsbD, Nat.testBit, Nat.shiftRight_eq_div_pow]

theorem flagOf_eq (w : Word) (i : Nat) : flagOf w i = w.getLsbD i := bitOf_toNat w i

section Checks

variable {n : Needs} {s : State} {core slot gang : Nat} {g : Group}

/-- A port is open while none from it on has been taken in the tick (R93). -/
theorem portTaken_iff (s : State) (core : Nat) (g : Group) (slot : Nat) :
    portTaken s core g slot = false ↔ ∀ p ∈ (coreAt s core).portUsed, p < 4 → p < portOf g slot := by
  unfold portTaken
  rw [List.any_eq_false]
  simp

/-- A gang that has its turn and can issue is not held up. -/
theorem notReady_of_ready (h : Ready n s core slot gang g) : notReady n s (issueCtx n s core slot gang g) = false := by
  have hb : seqFaulted s g = false := by
    unfold seqFaulted
    cases hb : blockOf s g with
    | none => rfl
    | some b => simp [h.sound b hb]
  have hs : (g.gangStrands gang).isEmpty = false := by
    cases hg : g.gangStrands gang with
    | nil => exact absurd hg h.strands
    | cons => rfl
  unfold notReady issueCtx
  simp only [Bool.or_eq_false_iff, List.any_eq_false]
  refine ⟨⟨⟨⟨by simp [h.runs], hb⟩, hs⟩, (portTaken_iff ..).2 h.port⟩, ?_⟩
  intro i hi
  have h1 : g.blocks i = false := by
    unfold Group.blocks
    rcases h.loose i hi with h0 | ⟨h0, h2⟩ <;> simp [*]
  have h2 := h.gap i hi
  simp only [h1, Bool.false_or]
  cases hp : (g.strand i).prev with
  | none => simp
  | some t => have := h2 t hp; simp; omega

theorem zoneConds_of (h : InZone n.zone slot g) : zoneConds n (issueCtx n s core slot gang g) = [] := by
  unfold zoneConds issueCtx
  unfold InZone at h
  cases hz : n.zone <;> simp_all

theorem allocConds_of (h : Allocated n g) :
    allocConds (issueCtx n s core slot gang g) n.namedV (n.ssrc ++ n.sdst) = [] := by
  unfold allocConds issueCtx
  have h1 : n.namedV.all g.hasV = true := List.all_eq_true.2 (fun r hr => by simpa [Group.hasV] using h.vector r hr)
  have h2 : (n.ssrc ++ n.sdst).all g.hasS = true :=
    List.all_eq_true.2 (fun r hr => by have := h.uniform r hr; simp [Group.hasS]; tauto)
  simp only [h1, h2, Bool.and_self, if_true]

theorem emptySource_of (h : Arrived n s g) : emptySource n (issueCtx n s core slot gang g) = false := by
  unfold emptySource issueCtx
  simp only [Bool.or_eq_false_iff, List.any_eq_false]
  exact ⟨fun r hr => by simp [h.vsrc r hr], fun r hr => by simp [h.ssrc r hr]⟩

theorem destBusy_of (h : Arrived n s g) : destBusy n (issueCtx n s core slot gang g) = false := by
  unfold destBusy issueCtx
  simp only [Bool.or_eq_false_iff, List.any_eq_false]
  refine ⟨fun r hr => ?_, fun r hr => ?_⟩
  · have := h.vdst r hr; cases hv : n.varLat <;> simp_all
  · have := h.sdst r hr; cases hv : n.varLat <;> simp_all

theorem lanesOf_zero : lanesOf 0 = [] := by decide

theorem commonConds_of (h : Readable n s (issueCtx n s core slot gang g)) :
    commonConds n (issueCtx n s core slot gang g) = [] := by
  have hg : (issueCtx n s core slot gang g).g = g := rfl
  have hdt : (issueCtx n s core slot gang g).dt = s.dt := rfl
  unfold commonConds
  simp only [List.append_eq_nil_iff, ite_eq_right_iff, List.cons_ne_self, imp_false, flagOf_eq]
  refine ⟨⟨⟨⟨?_, ?_⟩, ?_⟩, ?_⟩, ?_⟩
  · intro hc
    simp only [Bool.and_eq_true, List.any_eq_true] at hc
    obtain ⟨h1, r, hr, h2⟩ := hc
    simp [h.dead h1 r hr] at h2
  · intro hc
    obtain ⟨t, ht, h2⟩ := List.any_eq_true.1 hc
    have := h.tags t ht
    simp [Ctx.tag] at h2
    exact h2 this
  · intro hc
    simp only [Bool.and_eq_true] at hc
    have h1 := hc.1
    have h2 : earlySource n (issueCtx n s core slot gang g) = false := by
      unfold earlySource
      simp only [Bool.or_eq_false_iff, List.any_eq_false, hdt]
      refine ⟨⟨⟨fun r hr => ?_, fun r hr => ?_⟩, fun r hr => ?_⟩, fun r hr => ?_⟩
      · rcases h.earlyV h1 r hr with h3 | h3
        · simp [h3]
        · simp; intro; omega
      · have := h.earlyS h1 r hr; simp; omega
      · have := h.earlyP h1 r hr; simp; omega
      · have := h.earlyQ h1 r hr; simp; omega
    simp [h2] at hc
  · unfold misplacedEnd
    cases hf : List.find? _ _ with
    | none => rfl
    | some i =>
      exfalso
      have hi := List.mem_of_find?_eq_some hf
      have hp := List.find?_some hf
      cases hl : ((issueCtx n s core slot gang g).g.strand i).loops with
      | nil => simp [hl] at hp
      | cons e t =>
        simp only [hl, Bool.and_eq_true, decide_eq_true_eq] at hp
        exact h.loopEnd i hi e t hl hp
  · unfold poisonConds
    rw [List.append_eq_nil_iff, List.flatMap_eq_nil_iff]
    refine ⟨fun r hr => ?_, ?_⟩
    · rw [h.poisonV r hr, lanesOf_zero]; rfl
    · have h2 : n.ssrc.any (fun r => ((issueCtx n s core slot gang g).g.sreg r).poison) = false := by
        rw [List.any_eq_false]; intro r hr; simp [h.poisonS r hr]
      rw [h2]; rfl

/-- THE CHECKS PASS: with the shared conditions, and nothing of its own against it, the instruction executes. -/
theorem verdict_go {late own : Ctx → State → List Cond} {wait : Ctx → State → Bool} (h : MayIssue n s core slot gang g)
    (hl : late (issueCtx n s core slot gang g) s = []) (ho : own (issueCtx n s core slot gang g) s = [])
    (hw : wait (issueCtx n s core slot gang g) s = false) :
    verdict n late own wait (issueCtx n s core slot gang g) s = .go := by
  unfold verdict
  simp only [notReady_of_ready h.ready, zoneConds_of h.zone, allocConds_of h.alloc, hl, emptySource_of h.arrived,
    destBusy_of h.arrived, commonConds_of h.read, ho, hw, List.append_nil, worst, Bool.and_false, Bool.or_false, Bool.false_eq_true,
    if_false]

theorem worst_nil {l : List Cond} (h : worst l = none) : l = [] := by
  cases l with
  | nil => rfl
  | cons x t =>
    unfold worst at h
    split at h
    · cases h
    · split at h <;> cases h

theorem ready_of (ht : s.cur = .gang core slot gang) (hh : groupAt s core slot = some g)
    (h : notReady n s (issueCtx n s core slot gang g) = false) : Ready n s core slot gang g := by
  unfold notReady issueCtx at h
  simp only [Bool.or_eq_false_iff, List.any_eq_false] at h
  obtain ⟨⟨⟨⟨h1, h2⟩, h3⟩, h4⟩, h5⟩ := h
  refine ⟨ht, hh, by simpa using h1, ?_, ?_, (portTaken_iff ..).1 h4, ?_, ?_⟩
  · intro b hb
    unfold seqFaulted at h2
    simpa [hb] using h2
  · intro he; simp [he] at h3
  · intro i hi
    have h6 : g.blocks i = false := by
      cases hb : g.blocks i with
      | false => rfl
      | true => exact absurd (by simp [hb]) (h5 i hi)
    unfold Group.blocks at h6
    cases hd : (g.strand i).held with
    | none => exact .inl rfl
    | some x => rw [hd] at h6; cases x <;> simp_all
  · intro i hi t hp
    have h6 := h5 i hi
    rw [hp] at h6
    simp at h6
    exact h6.2

/-- Conversely, where the checks pass, the shared conditions hold. -/
theorem mayIssue_of {late own : Ctx → State → List Cond} {wait : Ctx → State → Bool} (ht : s.cur = .gang core slot gang)
    (hh : groupAt s core slot = some g) (h : verdict n late own wait (issueCtx n s core slot gang g) s = .go) :
    MayIssue n s core slot gang g := by
  unfold verdict at h
  split at h
  · cases h
  rename_i hn
  split at h
  · cases h
  rename_i hz
  split at h
  · cases h
  split at h
  · split at h <;> cases h
  rename_i hs
  split at h
  · cases h
  rename_i hd
  split at h
  · cases h
  rename_i hc
  have hz := List.append_eq_nil_iff.1 (worst_nil hz)
  have hc := (List.append_eq_nil_iff.1 (worst_nil hc)).1
  simp only [Bool.not_eq_true] at hn hs hd
  refine ⟨ready_of ht hh hn, ?_, ?_, ?_, ?_⟩
  · have h1 := hz.1
    unfold zoneConds issueCtx at h1
    unfold InZone
    cases hk : n.zone <;> simp_all
  · have h1 := hz.2
    unfold allocConds issueCtx at h1
    simp only [ite_eq_left_iff, List.cons_ne_self, imp_false, Bool.and_eq_true, List.all_eq_true] at h1
    replace h1 := not_not.1 h1
    refine ⟨fun r hr => by simpa [Group.hasV] using h1.1 r hr, fun r hr => ?_⟩
    have := h1.2 r hr
    simp [Group.hasS] at this
    tauto
  · unfold emptySource issueCtx at hs
    replace hd := (Bool.or_eq_false_iff.1 hd).1
    unfold destBusy issueCtx at hd
    simp only [Bool.or_eq_false_iff, List.any_eq_false] at hs hd
    refine ⟨fun r hr => by simpa using hs.1 r hr, fun r hr => by simpa using hs.2 r hr, fun r hr => ?_, fun r hr => ?_⟩
    · have := hd.1 r hr
      simp at this
      exact ⟨this.1, fun hv => by simpa [hv] using this.2⟩
    · have := hd.2 r hr
      simp at this
      exact ⟨this.1, fun hv => by simpa [hv] using this.2⟩
  · unfold commonConds at hc
    simp only [List.append_eq_nil_iff, ite_eq_right_iff, List.cons_ne_self, imp_false, flagOf_eq, Bool.and_eq_true, not_and,
      Bool.not_eq_true] at hc
    obtain ⟨⟨⟨⟨h1, h2⟩, h3⟩, h4⟩, h5⟩ := hc
    have early : (issueCtx n s core slot gang g).g.gmode.getLsbD 2 = true → earlySource n (issueCtx n s core slot gang g) = false := h3
    unfold earlySource at early
    simp only [Bool.or_eq_false_iff, List.any_eq_false] at early
    unfold poisonConds at h5
    rw [List.append_eq_nil_iff, List.flatMap_eq_nil_iff] at h5
    refine ⟨fun hg r hr => ?_, fun t ht => ?_, fun hg r hr => ?_, fun hg r hr => ?_, fun hg r hr => ?_, fun hg r hr => ?_, fun r hr => ?_,
      fun r hr => ?_, fun i hi e t he hx => ?_⟩
    · have := List.any_eq_false.1 (h1 hg) r hr
      simpa using this
    · have := List.any_eq_false.1 h2 t ht
      simpa [Ctx.tag] using this
    · have := (early hg).1.1.1 r hr
      simp at this
      cases hv : ((issueCtx n s core slot gang g).g.vreg r).dead with
      | true => exact .inl rfl
      | false => exact .inr (this hv)
    · have := (early hg).1.1.2 r hr
      simp at this; exact this
    · have := (early hg).1.2 r hr
      simp at this; exact this
    · have := (early hg).2 r hr
      simp at this; exact this
    · have := h5.1 r hr
      cases hl : (lanesOf (((issueCtx n s core slot gang g).g.vreg r).poison &&& (issueCtx n s core slot gang g).act)).head? with
      | some l => simp [hl] at this
      | none =>
        have hn := List.head?_eq_none_iff.1 hl
        apply BitVec.eq_of_getLsbD_eq
        intro k hk
        by_contra hb
        have : k ∈ lanesOf (((issueCtx n s core slot gang g).g.vreg r).poison &&& (issueCtx n s core slot gang g).act) := by
          simp only [lanesOf, List.mem_filter, List.mem_range]
          refine ⟨hk, ?_⟩
          have h0 : BitVec.getLsbD (0 : Word) k = false := BitVec.getLsbD_zero
          rw [h0] at hb
          exact Bool.not_eq_false _ ▸ hb
        rw [hn] at this
        cases this
    · have h6 := h5.2
      by_contra hb
      have : n.ssrc.any (fun r => ((issueCtx n s core slot gang g).g.sreg r).poison) = true :=
        List.any_eq_true.2 ⟨r, hr, by simpa using hb⟩
      simp [this] at h6
    · unfold misplacedEnd at h4
      split at h4
      · cases h4
      · rename_i hf
        have := List.find?_eq_none.1 hf i hi
        simp [he] at this
        exact absurd hx.2 (by have := this hx.1; omega)

/-- An issue that passes its checks has its effect. -/
theorem issue_go {own : Ctx → State → List Cond} {wait : Ctx → State → Bool} {eff : Ctx → State → State}
    (h : MayIssue n s core slot gang g) (ho : own (issueCtx n s core slot gang g) s = [])
    (hw : wait (issueCtx n s core slot gang g) s = false) :
    issue n own wait eff s = .next (eff (issueCtx n s core slot gang g)
      (closeRegion (takePort s (issueCtx n s core slot gang g)) (issueCtx n s core slot gang g) n.closes)) := by
  unfold issue issueWith issueOr
  simp only [h.ready.turn, h.ready.here, verdict_go (late := noConds) h rfl ho hw]

end Checks

/-! Groups in the machine. -/

@[simp] theorem groupAt_setGroup (s : State) (core slot : Nat) (g : Group) : groupAt (setGroup s core slot g) core slot = some g := by
  simp [groupAt, setGroup]

theorem groupAt_modifyGroup (s : State) (core slot : Nat) (f : Group → Group) :
    groupAt (modifyGroup s core slot f) core slot = (groupAt s core slot).map f := by
  simp [groupAt, modifyGroup, lookupAt_modifyAt]

@[simp] theorem groupAt_takePort (s : State) (c : Ctx) (core slot : Nat) : groupAt (takePort s c) core slot = groupAt s core slot := rfl

theorem lookup_modifyGroup_other (s : State) (core slot k : Nat) (f : Group → Group) (h : k ≠ groupKey core slot) :
    lookupAt (modifyGroup s core slot f).groups k = lookupAt s.groups k := by
  simp [modifyGroup, lookupAt_modifyAt, h]

theorem coreAt_takePort_other (s : State) (c : Ctx) (k : Nat) (h : k ≠ c.core) : coreAt (takePort s c) k = coreAt s k := by
  simp [coreAt, takePort, setCore, getAt_putAt, h]

theorem coreAt_takePort_same (s : State) (c : Ctx) :
    coreAt (takePort s c) c.core = { coreAt s c.core with portUsed := (coreAt s c.core).portUsed ++ [portOf c.g c.slot] } := by
  simp [coreAt, takePort, setCore]

/-- A change of the issuing group, after the port is taken, changes nothing else. -/
theorem onlyGroup_modify (s : State) (c : Ctx) (f : Group → Group) :
    OnlyGroup s (modifyGroup (takePort s c) c.core c.slot f) c.core c.slot where
  rest := rfl
  others k hk := lookup_modifyGroup_other _ _ _ _ _ hk
  cores k hk := coreAt_takePort_other s c k hk
  port := by
    have h : coreAt (modifyGroup (takePort s c) c.core c.slot f) c.core = coreAt (takePort s c) c.core := rfl
    rw [h, coreAt_takePort_same]
  memory _ := rfl

/-! Retiring. -/

theorem strand_onStrands (g : Group) (is : List Nat) (f : Strand → Strand) (i : Nat) (h : i < 8) :
    (g.onStrands is f).strand i = if is.contains i then f (g.strand i) else g.strand i := by
  simp [Group.onStrands, Group.strand, h]

theorem strand_repart (g : Group) (is : List Nat) (i : Nat) (h : i < 8) :
    (g.repart is).strand i =
      if is.contains i then { g.strand i with gang := (is.find? (fun j => (g.strand j).pc == (g.strand i).pc)).getD i } else g.strand i := by
  simp [Group.repart, Group.strand, h]

theorem gangStrands_lt (g : Group) (gang i : Nat) (h : i ∈ g.gangStrands gang) : i < 8 := by
  simp [Group.gangStrands, Group.live] at h; exact h.1

/-- Strands of a parted gang share a gang where they share a PC (R33). -/
theorem repart_parts (g : Group) (is : List Nat) (hs : ∀ i ∈ is, i < 8) (i j : Nat) (hi : i ∈ is) (hj : j ∈ is) :
    ((g.repart is).strand i).gang = ((g.repart is).strand j).gang ↔ ((g.repart is).strand i).pc = ((g.repart is).strand j).pc := by
  rw [strand_repart g is i (hs i hi), strand_repart g is j (hs j hj)]
  simp only [List.contains_iff_mem, hi, hj, if_true]
  have found : ∀ k ∈ is, ∃ m, is.find? (fun j => (g.strand j).pc == (g.strand k).pc) = some m ∧ (g.strand m).pc = (g.strand k).pc := by
    intro k hk
    cases hf : is.find? (fun j => (g.strand j).pc == (g.strand k).pc) with
    | none => have := List.find?_eq_none.1 hf k hk; simp at this
    | some m => exact ⟨m, rfl, by simpa using List.find?_some hf⟩
  obtain ⟨m, hm, em⟩ := found i hi
  obtain ⟨m', hm', em'⟩ := found j hj
  constructor
  · intro h
    simp only [hm, hm', Option.getD_some] at h
    rw [← em, ← em', h]
  · intro h
    rw [h]
    simp [hm']

theorem retireOn_strand (g : Group) (is : List Nat) (dt len extra i : Nat) (h : i < 8) (hs : i ∈ is) :
    ∃ k, (retireOn g is dt len extra).strand i =
      { (g.strand i).advance len with prev := some (dt + extra), waitOnly := false, held := none, gang := k } := by
  unfold retireOn
  rw [strand_repart _ _ _ h, strand_onStrands _ _ _ _ h]
  simp only [List.contains_iff_mem, hs, if_true]
  exact ⟨_, rfl⟩

theorem retireOn_other (g : Group) (is : List Nat) (dt len extra i : Nat) (h : i < 8) (hs : i ∉ is) :
    (retireOn g is dt len extra).strand i = g.strand i := by
  unfold retireOn
  rw [strand_repart _ _ _ h, strand_onStrands _ _ _ _ h]
  simp [hs]

/-- A retiring gang goes on (R33, R37), where the group's strands stood as they were. -/
theorem goesOn_retireOn (s : State) (n : Needs) (core slot gang len : Nat) (g g' : Group) (h : g'.strands = g.strands) :
    GoesOn s (issueCtx n s core slot gang g) len (retireOn g' (g.gangStrands gang) s.dt len 0) := by
  have e : ∀ i, g'.strand i = g.strand i := fun i => by simp [Group.strand, h]
  have lt := fun i => gangStrands_lt g gang i
  have hs : (issueCtx n s core slot gang g).is = g.gangStrands gang := rfl
  have hg : (issueCtx n s core slot gang g).g = g := rfl
  rw [← hs]
  refine ⟨fun i hi => ?_, fun i hi => ?_, fun i hi j hj => ?_, fun i hi hn => ?_⟩
  · obtain ⟨k, hk⟩ := retireOn_strand g' _ s.dt len 0 i (lt i hi) hi
    rw [hk, e]; exact ⟨rfl, rfl, rfl, rfl⟩
  · by_cases hm : i ∈ (issueCtx n s core slot gang g).is
    · obtain ⟨k, hk⟩ := retireOn_strand g' _ s.dt len 0 i hi hm
      rw [hk, e]; exact ⟨rfl, rfl, rfl, rfl, rfl⟩
    · rw [retireOn_other _ _ _ _ _ _ hi hm, e]; exact ⟨rfl, rfl, rfl, rfl, rfl⟩
  · exact repart_parts _ _ (fun i hi => lt i hi) i j hi hj
  · rw [retireOn_other _ _ _ _ _ _ hi hn, e]; rfl

/-! Registers. -/

theorem laneOf_perLane (f : Nat → Word) (l : Nat) (h : l < 32) : laneOf (perLane f) l = f l := by
  simp [laneOf, perLane, h]

theorem vreg_setV (g : Group) (k j : Nat) (r : VReg) : (g.setV k r).vreg j = if j = k then r else g.vreg j := by
  simp [Group.setV, Group.vreg, getAt_putAt]

theorem laneOf_replicate_zero (l : Nat) : laneOf (List.replicate 32 0) l = 0 := by
  unfold laneOf; rw [List.getD_eq_getElem?_getD, List.getElem?_replicate]; split <;> rfl

/-- In a lane that is written, what stood there may be read until `til`, and so may what could be read early before (R374). -/
theorem early_written (dt til : Nat) (mask : Word) (now : List Word) (olds : List OldLanes) (l : Nat) (h : laneBit mask l = true)
    (u : Nat) (w : Word) : EarlyLane (pushLanes dt til mask now olds) l u w ↔
      (u = til ∧ w = laneOf now l) ∨ ∃ v, dt < v ∧ EarlyLane olds l v w ∧ u = min v til := by
  unfold EarlyLane pushLanes
  constructor
  · rintro ⟨o, ho, hl, rfl, rfl⟩
    rw [List.mem_append, List.mem_flatMap] at ho
    rcases ho with ⟨x, hx, hy⟩ | ho
    · simp only [List.mem_filter, decide_eq_true_eq] at hx
      rw [List.mem_cons, List.mem_filter, List.mem_singleton] at hy
      obtain rfl | ⟨rfl, -⟩ := hy
      · simp [laneBit] at hl h; simp [h] at hl
      · simp only [laneBit, BitVec.getLsbD_and, Bool.and_eq_true] at hl
        exact .inr ⟨x.til, hx.2, ⟨x, hx.1, hl.1, rfl, rfl⟩, rfl⟩
    · rw [List.mem_singleton] at ho; subst ho; exact .inl ⟨rfl, rfl⟩
  · rintro (⟨rfl, rfl⟩ | ⟨v, hv, ⟨x, hx, hl, rfl, rfl⟩, rfl⟩)
    · exact ⟨⟨u, mask, now⟩, by simp, h, rfl, rfl⟩
    · have hm : laneBit (x.mask &&& mask) l = true := by simp [laneBit] at *; simp [hl, h]
      refine ⟨⟨min x.til til, x.mask &&& mask, x.lanes⟩, ?_, hm, rfl, rfl⟩
      rw [List.mem_append, List.mem_flatMap]
      refine .inl ⟨x, by simp [hx, hv], ?_⟩
      have h0 : ¬x.mask &&& mask = 0#32 := by intro h0; rw [h0] at hm; simp [laneBit] at hm
      simp [h0]

/-- In a lane that is not written, what could be read early still can. -/
theorem early_other (dt til : Nat) (mask : Word) (now : List Word) (olds : List OldLanes) (l : Nat) (hb : l < 32)
    (h : laneBit mask l = false) (u : Nat) (w : Word) :
    EarlyLane (pushLanes dt til mask now olds) l u w ↔ dt < u ∧ EarlyLane olds l u w := by
  unfold EarlyLane pushLanes
  constructor
  · rintro ⟨o, ho, hl, rfl, rfl⟩
    rw [List.mem_append, List.mem_flatMap] at ho
    rcases ho with ⟨x, hx, hy⟩ | ho
    · simp only [List.mem_filter, decide_eq_true_eq] at hx
      rw [List.mem_cons, List.mem_filter, List.mem_singleton] at hy
      obtain rfl | ⟨rfl, -⟩ := hy
      · simp only [laneBit, BitVec.getLsbD_and, Bool.and_eq_true] at hl
        exact ⟨hx.2, x, hx.1, hl.1, rfl, rfl⟩
      · simp [laneBit] at hl h; simp [h] at hl
    · rw [List.mem_singleton] at ho; subst ho; rw [h] at hl; cases hl
  · rintro ⟨hv, x, hx, hl, rfl, rfl⟩
    have hm : laneBit (x.mask &&& ~~~mask) l = true := by
      unfold laneBit at *; rw [BitVec.getLsbD_and, BitVec.getLsbD_not, hl, h]; simp only [hb, decide_true, Bool.not_false, Bool.and_self]
    refine ⟨⟨x.til, x.mask &&& ~~~mask, x.lanes⟩, ?_, hm, rfl, rfl⟩
    rw [List.mem_append, List.mem_flatMap]
    refine .inl ⟨x, by simp [hx, hv], ?_⟩
    have h0 : ¬x.mask &&& ~~~mask = 0#32 := by intro h0; rw [h0] at hm; simp [laneBit] at hm
    simp [h0]

theorem revived_lane (r : VReg) (l : Nat) : laneOf r.revived.lanes l = if r.dead then 0 else laneOf r.lanes l := by
  unfold VReg.revived
  cases h : r.dead
  · rfl
  · simp only [if_true, laneOf_replicate_zero]

theorem revived_early (r : VReg) (l u : Nat) (w : Word) : EarlyLane r.revived.olds l u w ↔ r.dead = false ∧ EarlyLane r.olds l u w := by
  unfold VReg.revived
  cases h : r.dead <;> simp [EarlyLane]

/-- What a fixed-latency write does (R52, R55, R58, R374). -/
theorem written_write (r : VReg) (act : Word) (dt lat tag : Nat) (f : Nat → Word) :
    Written r (r.write dt lat tag act f) act dt lat tag f := by
  refine ⟨fun l hl => ?_, rfl, ?_, fun l _ ha u w => ?_, fun l hl ha u w => ?_, ?_⟩
  · simp only [VReg.write, mergeLanes]
    rw [laneOf_perLane _ _ hl, revived_lane]
    rfl
  · unfold VReg.write VReg.revived; cases h : r.dead <;> simp [h]
  · show EarlyLane (pushLanes dt (dt + lat) act r.revived.lanes r.revived.olds) l u w ↔ _
    rw [early_written _ _ _ _ _ _ ha, revived_lane]
    simp only [revived_early, and_assoc]
  · show EarlyLane (pushLanes dt (dt + lat) act r.revived.lanes r.revived.olds) l u w ↔ _
    rw [early_other _ _ _ _ _ _ hl ha, revived_early]
  · unfold VReg.write VReg.revived; cases h : r.dead <;> simp

/-- An instruction that only changes its group's registers completes. -/
theorem completes_of (i : Instr) (n : Needs) (s : State) (core slot gang : Nat) (g : Group) (own : Ctx → State → List Cond)
    (wait : Ctx → State → Bool) (f : Ctx → State → Group → Group) (P : Ctx → Group → Prop)
    (h : MayIssue n s core slot gang g) (hc : n.closes = false)
    (he : exec i s = issue n own wait (fun c s => finish c n.len (f c s) s) s)
    (ho : own (issueCtx n s core slot gang g) s = []) (hw : wait (issueCtx n s core slot gang g) s = false)
    (hs : ∀ c s, (f c s g).strands = g.strands)
    (hP : ∀ k, P (issueCtx n s core slot gang g)
      { f (issueCtx n s core slot gang g) (takePort s (issueCtx n s core slot gang g)) g with strands := k }) :
    Completes i n s core slot gang g P := by
  unfold Completes
  rw [he, issue_go h ho hw]
  simp only [closeRegion, hc]
  refine ⟨_, retireOn (f (issueCtx n s core slot gang g) (takePort s (issueCtx n s core slot gang g)) g) (g.gangStrands gang) s.dt n.len 0,
    rfl, onlyGroup_modify s _ _, ?_, ?_, ?_⟩
  · show groupAt (modifyGroup (takePort s _) core slot _) core slot = _
    rw [groupAt_modifyGroup, groupAt_takePort, h.ready.here]; rfl
  · exact goesOn_retireOn _ _ _ _ _ _ _ _ (hs _ _)
  · exact hP _

/-- An instruction that only writes one vector register completes. -/
theorem writesLane_of (i : Instr) (n : Needs) (s : State) (core slot gang d lat : Nat) (tag : Ctx → Nat) (g : Group)
    (value : Ctx → Nat → Word) (h : MayIssue n s core slot gang g) (hc : n.closes = false)
    (he : exec i s = issueRegs n (fun c gr => gr.writeV c.dt lat d (tag c) c.act (value c)) s) :
    WritesLane i n s core slot gang g d lat tag value := by
  refine completes_of i n s core slot gang g noConds noWait (fun c _ gr => gr.writeV c.dt lat d (tag c) c.act (value c)) _
    h hc he rfl rfl (fun _ _ => rfl) (fun k => ⟨rfl, fun j hj => ?_, ?_⟩)
  · show (g.writeV _ _ _ _ _ _).vreg j = _
    simp [Group.writeV, vreg_setV, hj]
  · show Written _ ((g.writeV _ _ _ _ _ _).vreg d) _ _ _ _ _
    simp only [Group.writeV, vreg_setV, if_true]
    exact written_write _ _ _ _ _ _

end Sys2Proof.Laws
end

