-- ==== Sys2Proof/Laws/Streams.lean ====
section
/-! SUPPORT. What the shared operations of the sequencer, of the near-bank units and of events do, once for each. -/

namespace Sys2Proof.Laws

open Sys2Proof.Machine Sys2Proof.Safety

variable {s : State} {core ctx bank : Nat}

/-- An event's effect is applied in the turn of an event, and in no other. -/
theorem eventOp_outside (f : State → State) (h : s.cur = .outside) : eventOp f s = .next (f s) := by
  simp only [eventOp, h]

theorem idle_of {v : SeqView} (h : SeqReady s core ctx v) (hc : v.core = core ∧ v.ctx = ctx) : v.idle s = false := by
  have hp : (coreAt s v.core).portUsed.contains (seqPort v.ctx) = false := by
    rw [hc.1, hc.2]
    simpa [seqPort] using h.port
  have hr : dieStopped s (dieOfCore v.core) = false := by rw [hc.1]; exact h.runs
  unfold SeqView.idle
  rw [hr, h.started, h.goes, h.sound, hp]
  split
  · next t l w hb => exact absurd hb (h.stays t l w)
  · rfl

/-- The view names the core and the context that it was taken of. -/
theorem seqView_here {v : SeqView} (h : seqView s core ctx = some v) :
    v.core = core ∧ v.ctx = ctx ∧ lookupAt s.seqs (core * 4 + ctx) = some v.x ∧ blockAt s v.x.block = some v.b := by
  unfold seqView at h
  split at h
  · cases h
  · next x hx =>
    split at h
    · cases h
    · next b hb =>
      cases h
      exact ⟨rfl, rfl, hx, hb⟩

/-- A context that is ready carries out what its instruction answers: a state with its port taken, nothing where it waits, or a fault. -/
theorem seqOp_ready (f : SeqView → State → SeqStep) {v : SeqView} (h : SeqReady s core ctx v) :
    seqOp f s = match f v s with
      | .wait s' => .next s'
      | .fault cause => .next (seqFault v cause [] s)
      | .faultLog cause ia kind => .next (seqFault v cause [(ia, kind)] s)
      | .done s' => .next (setCore s' core { coreAt s' core with portUsed := (coreAt s' core).portUsed ++ [seqPort ctx] }) := by
  have hv := seqView_here h.here
  have hi := idle_of h ⟨hv.1, hv.2.1⟩
  simp only [seqOp, h.turn, h.here, hi]
  rfl

theorem coreAt_setCore_same (s : State) (k : Nat) (x : Core) : coreAt (setCore s k x) k = x := by
  simp [coreAt, setCore]

theorem coreAt_setCore_other (s : State) (k j : Nat) (x : Core) (h : j ≠ k) : coreAt (setCore s k x) j = coreAt s j := by
  simp [coreAt, setCore, getAt_putAt, h]

/-- An instruction that only replaces its context completes, and the next state differs in that context and in the port alone. -/
theorem seqCompletes_of {i : Instr} {f : SeqView → State → SeqStep} {v : SeqView} {x' : SeqCtx} {P : SeqCtx → Prop}
    (hi : exec i s = seqOp f s) (h : SeqReady s core ctx v) (hf : f v s = .done (v.set s x'))
        (hP : P x') : SeqCompletes i s core ctx P := by
  have hv := seqView_here h.here
  refine ⟨setCore (v.set s x') core { coreAt (v.set s x') core with portUsed := (coreAt (v.set s x') core).portUsed ++ [seqPort ctx] },
    by rw [hi, seqOp_ready f h, hf], x', rfl, ?_, ?_, ?_, ?_, hP⟩
  · intro k hk
    rw [coreAt_setCore_other _ _ _ _ hk]
    rfl
  · rw [coreAt_setCore_same]
    rfl
  · intro k hk
    show lookupAt (setAt s.seqs (v.core * 4 + v.ctx) x') k = _
    rw [lookupAt_setAt_other _ _ _ _ (by rw [hv.1, hv.2.1]; exact hk)]
  · show lookupAt (setAt s.seqs (v.core * 4 + v.ctx) x') (core * 4 + ctx) = _
    rw [hv.1, hv.2.1, lookupAt_setAt_same]

/-- A unit that is ready carries out its microinstruction, its tick noted. -/
theorem nbuOp_ready (f : NbuView → State → State) {column closing : Bool} {reads : List Nat} {r : RunView}
    (h : NbuReady s bank column closing reads r) :
    nbuOp column closing reads f s = .next (f ⟨bank, { nbuAt s bank with lastTick := some s.dt }, r⟩ s) := by
  have h4 : ((nbuAt s bank).lastTick == some s.dt) = false := by simpa using h.tick
  simp only [nbuOp, h.turn, h.run]
  rw [if_neg, if_neg]
  · intro hx
    split at hx
    · next t hv =>
      have := h.bound t hv
      cases closing <;> simp at this hx <;> omega
    · cases hx
  · rw [h.awake, h.compute, h4]
    simp only [Bool.not_true, Bool.false_or, Bool.or_eq_true, Bool.and_eq_true, decide_eq_true_eq, not_or]
    refine ⟨?_, fun hx => absurd (h.path hx.1) (by omega)⟩
    split
    · next c t hl =>
      intro hx
      simp only [Bool.and_eq_true, decide_eq_true_eq, List.contains_iff_mem] at hx
      exact absurd (h.landed c t hl hx.1) (by omega)
    · simp

theorem nbuAt_setNbu_same (s : State) (k : Nat) (x : Nbu) : nbuAt (setNbu s k x) k = x := by
  simp [nbuAt, setNbu]

theorem nbuAt_setNbu_other (s : State) (k j : Nat) (x : Nbu) (h : j ≠ k) : nbuAt (setNbu s k x) j = nbuAt s j := by
  simp [nbuAt, setNbu, getAt_putAt, h]

/-- A microinstruction that only replaces its unit completes, and nothing else of the machine changes. -/
theorem nbuCompletes_of {i : Instr} {f : NbuView → State → State} {column closing : Bool} {reads : List Nat} {r : RunView} {x' : Nbu}
    {P : Nbu → Prop} (hi : exec i s = nbuOp column closing reads f s) (h : NbuReady s bank column closing reads r)
    (hf : f ⟨bank, { nbuAt s bank with lastTick := some s.dt }, r⟩ s = setNbu s bank x') (hP : P x') : NbuCompletes i s bank P := by
  refine ⟨setNbu s bank x', by rw [hi, nbuOp_ready f h, hf], rfl, fun b hb => nbuAt_setNbu_other _ _ _ _ hb, ?_⟩
  rw [nbuAt_setNbu_same]
  exact hP

end Sys2Proof.Laws
end

