-- ==== Sys2Proof/Tests/Base.lean ====
section
/-! SUPPORT. Small states and checks for the tests and the witnesses. -/

namespace Sys2Proof.Tests

set_option Elab.async false

open Sys2Proof.Machine Sys2Proof.Safety Sys2Proof.Laws

/-- One block on core 0 with one group of 64 registers at VA 0, whose gang has its turn; VA 0 to 2 MiB is mapped with every permission. -/
def base : State := { placedBlock (placedMachine State.reset []) with cur := .gang 0 0 0 }

def onGroup (f : Group → Group) (s : State) : State := modifyGroup s 0 0 f
def onBlock (f : Block → Block) (s : State) : State := { s with blocks := modifyAt s.blocks 3 f }
def onRun (f : NodeRun → NodeRun) (s : State) : State := { s with runs := modifyAt s.runs 2 f }
def onSeq (f : SeqCtx → SeqCtx) (s : State) : State := { s with seqs := modifyAt s.seqs 0 f }

/-- Vector and uniform registers with values in all lanes, and with tags. -/
def vregs (l : List (Nat × Word)) (g : Group) : Group :=
  l.foldl (fun g e => g.setV e.1 { VReg.start with lanes := List.replicate 32 e.2 }) g
def tags (l : List (Nat × Nat)) (g : Group) : Group := l.foldl (fun g e => g.setV e.1 { g.vreg e.1 with tag := e.2 }) g
def sregs (l : List (Nat × Word)) (g : Group) : Group := l.foldl (fun g e => g.setS e.1 { SReg.start with val := e.2 }) g

/-- The group in slot 0, and the context of its issue. -/
def groupOf (s : State) : Group := (groupAt s 0 0).getD (handlerGroup 0 0 ⟨0, [], 0, 0⟩ ⟨0, 0, 0, 0⟩)
def ctx (n : Needs) (s : State) : Ctx := issueCtx n s 0 0 0 (groupOf s)

/-- The shared conditions of an issue, checked. -/
def may (n : Needs) (s : State) : Bool :=
  decide (s.cur = .gang 0 0 0) && decide (groupAt s 0 0 = some (groupOf s)) &&
    decide (verdict n noConds noConds noWait (ctx n s) s = .go)

theorem mayIssue_of_may {n : Needs} {s : State} (h : may n s = true) : MayIssue n s 0 0 0 (groupOf s) := by
  simp only [may, Bool.and_eq_true, decide_eq_true_eq] at h
  exact mayIssue_of h.1.1 h.1.2 h.2

/-- A check that a table's row passes for each instruction of a list shows what it stands for. -/
theorem witness_all {α : Type} {f : Instr → Option α} {P : α → Prop} (chk : α → Bool) (hp : ∀ x, chk x = true → P x) {is : List Instr}
    (h : is.all (fun i => match f i with
      | some x => chk x
      | none => false) = true) : ∀ i ∈ is, ∃ x, f i = some x ∧ P x := by
  intro i hi
  have hx := List.all_eq_true.1 h i hi
  cases hf : f i with
  | none => rw [hf] at hx; cases hx
  | some x => rw [hf] at hx; exact ⟨x, rfl, hp x hx⟩

/-- What a step on a small state does, in brief: 0 a fault or a refusal, 1 nothing, 2 the gang goes on, 3 the gang is held, 4 the group is
gone or has stopped. -/
def outcome (s : State) (o : Host.Outcome State Fault Refusal) : Nat :=
  match o with
  | .next t =>
    match groupAt t 0 0 with
    | none => 4
    | some g => if g.stop != .running then 4 else if (g.strand 0).held.isSome then 3 else if decide ((g.strand 0).prev = some s.dt) then 2 else 1
  | .fault _ => 0
  | .refused _ => 0

end Sys2Proof.Tests
end

