-- ==== Sys2Proof/Tests/WitnessLane.lean ====
section
/-! SUPPORT. Witnesses for the statements about the lane, uniform and memory instructions: states and operands that meet their
hypotheses, for each constructor that a statement covers. -/

namespace Sys2Proof.Tests

set_option Elab.async false

open Sys2Proof.Machine Sys2Proof.Safety

/-! Lane and uniform instructions. -/

def integerSamples : List Instr :=
  [.iadd 0 0 4 8 12, .isub 0 0 4 8 12, .imul 0 0 4 8 12, .imulhs 0 0 4 8 12, .imulhu 0 0 4 8 12, .imin 0 0 4 8 12,
   .imax 0 0 4 8 12, .umin 0 0 4 8 12, .umax 0 0 4 8 12, .iadds 0 0 4 8 12, .isubs 0 0 4 8 12, .iabs 0 0 4 8,
   .ineg 0 0 4 8, .popc 0 0 4 8, .clz 0 0 4 8, .brev 0 0 4 8, .and 0 0 4 8 12, .or 0 0 4 8 12, .xor 0 0 4 8 12,
   .andn 0 0 4 8 12, .shl 0 0 4 8 12, .shr 0 0 4 8 12, .sar 0 0 4 8 12, .rot 0 0 4 8 12, .bfe 0 0 4 8 12,
   .bfes 0 0 4 8 12, .bfi 0 0 4 8 12, .bmix 0 0 4 8 12, .lea4 0 0 4 8 12, .lea8 0 0 4 8 12, .compactIadd 0 0,
   .compactIsub 0 0, .compactImul 0 0, .compactAnd 0 0, .compactOr 0 0, .compactXor 0 0, .compactShl 0 0,
   .compactShr 0 0, .compactSar 0 0]

theorem witness_IntegerResults : ∀ i ∈ integerSamples, ∃ x, integerRow i = some x ∧ MayIssue x.needs base 0 0 0 (groupOf base) :=
  witness_all (fun (x : LaneRow) => may x.needs base) (fun _ h => mayIssue_of_may h) (by decide +kernel)

def moveSamples : List Instr :=
  [.mov 0 0 4 8, .compactMov 0 0, .sel 0 0 4 8 12, .movi 4 2, .movf 4 2, .tagset 0 0 4 8 12, .tagget 0 0 4 8,
   .fclass 0 0 4 8, .shflIdx 0 0 4 8 12, .shflUp 0 0 4 8 0, .shflDn 0 0 4 8 0, .shflXor 0 0 4 8 0]

theorem witness_MoveResults : ∀ i ∈ moveSamples, ∃ x, moveRow i = some x ∧ MayIssue x.needs base 0 0 0 (groupOf base) :=
  witness_all (fun (x : LaneRow) => may x.needs base) (fun _ h => mayIssue_of_may h) (by decide +kernel)

def predSamples : List Instr :=
  [.isetpEq 0 0 1 0 4 8, .isetpNe 0 0 1 0 4 8, .isetpLt 0 0 1 0 4 8, .isetpLe 0 0 1 0 4 8, .isetpGt 0 0 1 0 4 8,
   .isetpGe 0 0 1 0 4 8, .isetpUlt 0 0 1 0 4 8, .isetpUle 0 0 1 0 4 8, .fsetpEq 0 0 1 0 4 8, .fsetpNe 0 0 1 0 4 8,
   .fsetpLt 0 0 1 0 4 8, .fsetpLe 0 0 1 0 4 8, .fsetpGt 0 0 1 0 4 8, .fsetpGe 0 0 1 0 4 8, .fsetpUn 0 0 1 0 4 8]

theorem witness_CompareResults : ∀ i ∈ predSamples, ∃ x, predRow i = some x ∧ MayIssue x.needs base 0 0 0 (groupOf base) :=
  witness_all (fun (x : PredRow) => may x.needs base) (fun _ h => mayIssue_of_may h) (by decide +kernel)

/-- A compare into p0, whose write is discarded (R45). -/
theorem witness_CompareResults_p0 : ∃ x, predRow (.isetpEq 0 0 0 1 8 12) = some x ∧ MayIssue x.needs base 0 0 0 (groupOf base) :=
  ⟨_, rfl, mayIssue_of_may (by decide +kernel)⟩

def floatSamples : List Instr :=
  [.fadd 0 0 4 8 12, .fsub 0 0 4 8 12, .fmul 0 0 4 8 12, .fmin 0 0 4 8 12, .fmax 0 0 4 8 12, .fabs 0 0 4 8,
   .fneg 0 0 4 8, .fcpys 0 0 4 8 12, .ffma 0 4 8 12 16, .ffmaL 0 4 8 12 0, .ffmaC 0 4 8 12 16, .scl 0 0 4 8 12,
   .cvt 0 0 4 8 3, .f2i 0 0 4 8 1, .i2f 0 0 4 8 3, .compactFadd 0 0, .compactFsub 0 0, .compactFmul 0 0,
   .compactFmin 0 0, .compactFmax 0 0, .compactFneg 0 0]

theorem witness_FloatResults : ∀ i ∈ floatSamples, ∃ x, floatRow base i = some x ∧ MayIssue x.needs base 0 0 0 (groupOf base) ∧
    x.also (ctx x.needs base) := by
  intro i hi
  simp only [floatSamples, List.mem_cons, List.not_mem_nil, or_false] at hi
  rcases hi with rfl | rfl | rfl | rfl | rfl | rfl | rfl | rfl | rfl | rfl | rfl | rfl | rfl | rfl | rfl | rfl | rfl | rfl | rfl | rfl | rfl <;>
    exact ⟨_, rfl, mayIssue_of_may (by decide +kernel), by trivial⟩

/-- Registers 4, 8 and 12 hold packed FP16 elements, or packed FP8 and narrow integers. -/
def halfState : State := onGroup (tags [(4, 4), (8, 4), (12, 4)]) base
def dotState : State := onGroup (tags [(4, 2), (8, 4), (12, 4)]) base
def byteState : State := onGroup (tags [(4, 2), (8, 6), (12, 6)]) base
def intState : State := onGroup (tags [(8, 7), (12, 8)]) base

def halfSamples : List Instr :=
  [.hadd2 0 0 4 8 12, .hmul2 0 0 4 8 12, .hfma2 0 0 4 8 12, .hmin2 0 0 4 8 12, .hmax2 0 0 4 8 12, .unpkLo 0 0 4 8,
   .unpkHi 0 0 4 8]

theorem witness_FloatResults_packed : ∀ i ∈ halfSamples, ∃ x, floatRow halfState i = some x ∧
    MayIssue x.needs halfState 0 0 0 (groupOf halfState) ∧ x.also (ctx x.needs halfState) := by
  intro i hi
  simp only [halfSamples, List.mem_cons, List.not_mem_nil, or_false] at hi
  rcases hi with rfl | rfl | rfl | rfl | rfl | rfl | rfl <;>
    exact ⟨_, rfl, mayIssue_of_may (by decide +kernel), by trivial⟩

theorem witness_FloatResults_dot2 : ∃ x, floatRow dotState (.dot2 0 0 4 8 12) = some x ∧
    MayIssue x.needs dotState 0 0 0 (groupOf dotState) ∧
    x.also (ctx x.needs dotState) :=
  ⟨_, rfl, mayIssue_of_may (by decide +kernel), by decide +kernel⟩

theorem witness_FloatResults_dot4 : ∃ x, floatRow byteState (.dot4 0 0 4 8 12) = some x ∧
    MayIssue x.needs byteState 0 0 0 (groupOf byteState) ∧
    x.also (ctx x.needs byteState) :=
  ⟨_, rfl, mayIssue_of_may (by decide +kernel), by decide +kernel⟩

theorem witness_PackedResults_pack : ∃ x, packRow (.pack 0 0 4 8 12) = some x ∧ MayIssue x.1.needs halfState 0 0 0 (groupOf halfState) ∧
    x.2 (ctx x.1.needs halfState) :=
  ⟨_, rfl, mayIssue_of_may (by decide +kernel), by decide +kernel⟩

theorem witness_PackedResults_dot4 : ∃ x, packRow (.dot4 0 0 4 8 12) = some x ∧ MayIssue x.1.needs intState 0 0 0 (groupOf intState) ∧
    x.2 (ctx x.1.needs intState) :=
  ⟨_, rfl, mayIssue_of_may (by decide +kernel), by decide +kernel⟩

def uniSamples : List Instr :=
  [.sadd 0 0 4 8 12, .ssub 0 0 4 8 12, .smul 0 0 4 8 12, .smulhi 0 0 4 8 12, .sand 0 0 4 8 12, .sor 0 0 4 8 12,
   .sxor 0 0 4 8 12, .sshl 0 0 4 8 12, .sshr 0 0 4 8 12, .ssar 0 0 4 8 12, .smin 0 0 4 8 12, .smax 0 0 4 8 12,
   .smov 0 0 4 8, .smovi 4 2, .saddS 0 0, .smovS 0 0]

theorem witness_UniformResults : ∀ i ∈ uniSamples, ∃ x, uniRow i = some x ∧ MayIssue x.needs base 0 0 0 (groupOf base) :=
  witness_all (fun (x : UniRow) => may x.needs base) (fun _ h => mayIssue_of_may h) (by decide +kernel)

def qSamples : List Instr :=
  [.ssetpEq 0 0 0 0 4 8, .ssetpLt 0 0 0 0 4 8, .ssetpUlt 0 0 0 0 4 8, .pollSome 0 0 0 1, .pollEvery 0 0 0 1,
   .pollAgree 0 0 0 1, .pollMost 0 0 0 1]

theorem witness_UniformPredicateResults : ∀ i ∈ qSamples, ∃ x, qRow i = some x ∧ MayIssue x.needs base 0 0 0 (groupOf base) :=
  witness_all (fun (x : QRow) => may x.needs base) (fun _ h => mayIssue_of_may h) (by decide +kernel)

/-- A uniform predicate that is false, so that nothing is written, and a write of q0. -/
theorem witness_UniformResults_false : ∃ x, uniRow (.sadd 0 1 4 8 12) = some x ∧ MayIssue x.needs base 0 0 0 (groupOf base) ∧
    (ctx x.needs base).q = false := ⟨_, rfl, mayIssue_of_may (by decide +kernel), by decide +kernel⟩
theorem witness_UniformPredicateResults_q0 : ∃ x, qRow (.pollSome 0 0 0 0) = some x ∧ MayIssue x.needs base 0 0 0 (groupOf base) :=
  ⟨_, rfl, mayIssue_of_may (by decide +kernel)⟩

def unitSamples : List Instr :=
  [.frcp 0 0 4 8, .frsq 0 0 4 8, .fsqrt 0 0 4 8, .fex2 0 0 4 8, .flg2 0 0 4 8, .fsinp 0 0 4 8, .fcosp 0 0 4 8,
   .ftanh 0 0 4 8, .redaddI 0 0 4 8, .redaddF 0 0 4 8, .isect 0 0 4 8 12, .union 0 0 4 8 12, .merge 0 0 4 8 12]

theorem witness_UnitResults : ∀ i ∈ unitSamples, ∃ x, unitRow i = some x ∧ MayIssue x.needs base 0 0 0 (groupOf base) :=
  witness_all (fun (x : UnitRow) => may x.needs base) (fun _ h => mayIssue_of_may h) (by decide +kernel)

/-- With active lanes, and under a predicate that is false in all of them. -/
theorem witness_BallotResults : MayIssue { lane 4 0 0 [] 4 with psrc := [1] } base 0 0 0 (groupOf base) ∧
    (ctx { lane 4 0 0 [] 4 with psrc := [1] } base).act ≠ 0 := ⟨mayIssue_of_may (by decide +kernel), by decide +kernel⟩
theorem witness_BallotResults_none : MayIssue { lane 4 0 2 [] 4 with psrc := [1] } base 0 0 0 (groupOf base) ∧
    (ctx { lane 4 0 2 [] 4 with psrc := [1] } base).act = 0 := ⟨mayIssue_of_may (by decide +kernel), by decide +kernel⟩

/-! Memory. -/

/-- Every lane's access passes, checked. -/
def grants (n : Needs) (s : State) (perms size : Nat) (va : Ctx → Nat → Nat) : Bool :=
  (ctx n s).lanes.all (fun l => decide (rangeFail (groupOf s).dom.ranges perms (va (ctx n s) l) size = none ∧ va (ctx n s) l % size = 0))

theorem granted_of {n : Needs} {s : State} {perms size : Nat} {va : Ctx → Nat → Nat} (h : grants n s perms size va = true) :
    ∀ l ∈ (ctx n s).lanes, Granted (ctx n s) perms size (va (ctx n s) l) :=
  fun l hl => by
  have h2 := List.all_eq_true.1 h l hl
  simp only [decide_eq_true_eq] at h2
  exact h2

def loadSamples : List Instr :=
  [.ld8z 0 0 4 8 0 false, .ld8s 0 0 4 8 0 false, .ld16z 0 0 4 8 0 false, .ld16s 0 0 4 8 0 false, .ld32 0 0 4 8 0 false,
   .ldF32 0 0 4 8 0 false, .ld64 0 0 4 8 0 false, .ld128 0 0 4 8 0 false]

theorem witness_LoadResults : ∀ i ∈ loadSamples, ∃ x, loadRow i = some x ∧ MayIssue x.needs base 0 0 0 (groupOf base) ∧
    ∀ l ∈ (ctx x.needs base).lanes, Granted (ctx x.needs base) permR x.size (addressOf (ctx x.needs base) x.n x.a l) :=
  witness_all (fun (x : LoadRow) => may x.needs base && grants x.needs base permR x.size (fun c l => addressOf c x.n x.a l))
    (fun _ h => ⟨mayIssue_of_may (Bool.and_eq_true_iff.1 h).1, granted_of (Bool.and_eq_true_iff.1 h).2⟩) (by decide +kernel)

/-- A load whose address stands in a register pair (R21). -/
theorem witness_LoadResults_pair : ∃ x, loadRow (.ld32 0 0 4 8 31 false) = some x ∧ MayIssue x.needs base 0 0 0 (groupOf base) ∧
    ∀ l ∈ (ctx x.needs base).lanes, Granted (ctx x.needs base) permR x.size (addressOf (ctx x.needs base) x.n x.a l) :=
  ⟨_, rfl, mayIssue_of_may (by decide +kernel), granted_of (va := fun c l => addressOf c 31 8 l) (by decide +kernel)⟩

def storeSamples : List Instr :=
  [.st8 0 0 4 8 0, .st16 0 0 4 8 0, .st32 0 0 4 8 0, .st64 0 0 4 8 0, .st128 0 0 4 8 0, .stN4 0 0 4 8 0,
   .stN2 0 0 4 8 0]

theorem witness_StoreResults : ∀ i ∈ storeSamples, ∃ x, storeRow i = some x ∧ MayIssue x.needs base 0 0 0 (groupOf base) ∧
    ∀ l ∈ (ctx x.needs base).lanes, Granted (ctx x.needs base) permW x.size (x.va (ctx x.needs base) l) :=
  witness_all (fun (x : StoreRow) => may x.needs base && grants x.needs base permW x.size (fun c l => x.va c l))
    (fun _ h => ⟨mayIssue_of_may (Bool.and_eq_true_iff.1 h).1, granted_of (Bool.and_eq_true_iff.1 h).2⟩) (by decide +kernel)

def atomSamples : List Instr :=
  [.atomAdd 0 0 4 8 0, .atomAddf 0 0 4 8 0, .atomMin 0 0 4 8 0, .atomMax 0 0 4 8 0, .atomUmin 0 0 4 8 0,
   .atomUmax 0 0 4 8 0, .atomAnd 0 0 4 8 0, .atomOr 0 0 4 8 0, .atomXor 0 0 4 8 0, .atomXchg 0 0 4 8 0,
   .atomCas 0 0 4 8 0]

theorem witness_AtomicResults : ∀ i ∈ atomSamples, ∃ x, atomRow i = some x ∧ MayIssue x.needs base 0 0 0 (groupOf base) ∧
    ∀ l ∈ (ctx x.needs base).lanes, Granted (ctx x.needs base) (permA + permR + permW) 4 (addressOf (ctx x.needs base) x.n x.a l) :=
  witness_all (fun (x : AtomRow) => may x.needs base && grants x.needs base (permA + permR + permW) 4 (fun c l => addressOf c x.n x.a l))
    (fun _ h => ⟨mayIssue_of_may (Bool.and_eq_true_iff.1 h).1, granted_of (Bool.and_eq_true_iff.1 h).2⟩) (by decide +kernel)

theorem witness_AtomicResults_addh2 : ∃ x, atomRow (.atomAddh2 0 0 4 8 0) = some x ∧ MayIssue x.needs halfState 0 0 0 (groupOf halfState) ∧
    ∀ l ∈ (ctx x.needs halfState).lanes, Granted (ctx x.needs halfState) (permA + permR + permW) 4
      (addressOf (ctx x.needs halfState) x.n x.a l) :=
  ⟨_, rfl, mayIssue_of_may (by decide +kernel), granted_of (va := fun c l => addressOf c 0 8 l) (by decide +kernel)⟩

def redSamples : List Instr :=
  [.redAdd 0 0 4 8 0 false, .redAddf 0 0 4 8 0 false, .redMin 0 0 4 8 0 false, .redMax 0 0 4 8 0 false,
   .redAnd 0 0 4 8 0 false, .redOr 0 0 4 8 0 false, .redXor 0 0 4 8 0 false, .redAddx 0 0 4 8 0 false]

theorem witness_ReductionResults : ∀ i ∈ redSamples, ∃ x, redRow i = some x ∧ MayIssue x.needs base 0 0 0 (groupOf base) ∧
    ∀ l ∈ (ctx x.needs base).lanes, Granted (ctx x.needs base) (permA + permW) (redSize x.op) (addressOf (ctx x.needs base) x.n x.a l) :=
  witness_all (fun (x : RedRow) => may x.needs base && grants x.needs base (permA + permW) (redSize x.op)
      (fun c l => addressOf c x.n x.a l))
    (fun _ h => ⟨mayIssue_of_may (Bool.and_eq_true_iff.1 h).1, granted_of (Bool.and_eq_true_iff.1 h).2⟩) (by decide +kernel)

/-! Scratchpad and constant bank. -/

/-- Window 0 of 4 KiB. -/
def windowState : State := onBlock (fun b => { b with windows := [(0, ⟨0, 4096, []⟩)] }) base

/-- The block of number 3 that `base` holds. -/
def blockOf3 (s : State) : Block := (blockAt s 3).getD
  ⟨0, 0, false, 0, [], 0, 0, 0, 0, 0, 0, none, [], [], [], [], [], 0, 0, 0, 255, false, .none, none, []⟩

def inWindows (n : Needs) (s : State) (w a size : Nat) : Bool :=
  (ctx n s).lanes.all (fun l => decide (((ctx n s).v a l).toNat + size ≤ (windowAt s (groupOf s) w (ctx n s).dt).2 ∧
    ((ctx n s).v a l).toNat % size = 0 ∧ engineOwned (blockOf3 s) (windowPlace (ctx n s) s w a l) size = false))

theorem inWindow_of {n : Needs} {s : State} {w a size : Nat} (h : inWindows n s w a size = true) :
    ∀ l ∈ (ctx n s).lanes, InWindow (ctx n s) s (blockOf3 s) w a size l := fun l hl => by
  have := List.all_eq_true.1 h l hl
  simp only [decide_eq_true_eq] at this
  exact this

def ldsSamples : List Instr :=
  [.lds32 0 0 4 8 0, .lds64 0 0 4 8 0, .lds128 0 0 4 8 0]

def stsSamples : List Instr :=
  [.sts32 0 0 4 8 0, .sts64 0 0 4 8 0, .sts128 0 0 4 8 0]

theorem witness_ScratchResults_lds : ∀ i ∈ ldsSamples, ∃ x, ldsRow i = some x ∧ MayIssue x.needs windowState 0 0 0 (groupOf windowState) ∧
    ∀ l ∈ (ctx x.needs windowState).lanes, InWindow (ctx x.needs windowState) windowState (blockOf3 windowState) x.n x.a x.size l :=
  witness_all (fun x => may x.needs windowState && inWindows x.needs windowState x.n x.a x.size)
    (fun _ h => ⟨mayIssue_of_may (Bool.and_eq_true_iff.1 h).1, inWindow_of (Bool.and_eq_true_iff.1 h).2⟩) (by decide +kernel)

theorem witness_ScratchResults_sts : ∀ i ∈ stsSamples, ∃ x, stsRow i = some x ∧ MayIssue x.needs windowState 0 0 0 (groupOf windowState) ∧
    ∀ l ∈ (ctx x.needs windowState).lanes, InWindow (ctx x.needs windowState) windowState (blockOf3 windowState) x.n x.a x.size l :=
  witness_all (fun x => may x.needs windowState && inWindows x.needs windowState x.n x.a x.size)
    (fun _ h => ⟨mayIssue_of_may (Bool.and_eq_true_iff.1 h).1, inWindow_of (Bool.and_eq_true_iff.1 h).2⟩) (by decide +kernel)

theorem witness_ScratchResults_block : blockOf windowState (groupOf windowState) = some (blockOf3 windowState) ∧
    (groupOf windowState).block = some 3 ∧ blockAt windowState 3 = some (blockOf3 windowState) := by decide +kernel
/-- The first word of the bank, and the last: s8 holds 65,408 and the displacement is 124 bytes. -/
def bankState : State := onGroup (sregs [(8, 65408)]) base
theorem witness_ConstantLoad : MayIssue (ldcNeeds 0 8 4) base 0 0 0 (groupOf base) ∧ bankByte (ctx (ldcNeeds 0 8 4) base) 8 0 % 4 = 0 ∧
    bankByte (ctx (ldcNeeds 0 8 4) base) 8 0 ≤ 65532 := ⟨mayIssue_of_may (by decide +kernel), by decide +kernel⟩
theorem witness_ConstantLoad_last : MayIssue (ldcNeeds 0 8 4) bankState 0 0 0 (groupOf bankState) ∧
    bankByte (ctx (ldcNeeds 0 8 4) bankState) 8 31 = 65532 := ⟨mayIssue_of_may (by decide +kernel), by decide +kernel⟩
/-- The whole allocation as a window: s4 and s5 hold 0 and 16,384. -/
def wsetState : State := onGroup (sregs [(4, 0), (5, 16384)]) base
theorem witness_WindowSet : MayIssue (wsetNeeds 0 2) wsetState 0 0 0 (groupOf wsetState) ∧ (groupOf wsetState).block = some 3 ∧
    blockAt wsetState 3 = some (blockOf3 wsetState) ∧
    WindowFits (blockOf3 wsetState)
        ((ctx (wsetNeeds 0 2) wsetState).s (2 * 2)).toNat ((ctx (wsetNeeds 0 2) wsetState).s (2 * 2 + 1)).toNat ∧
    SettlesBy (getAt Window.none (blockOf3 wsetState).windows 15) wsetState.dt :=
  ⟨mayIssue_of_may (by decide +kernel), by decide +kernel, by decide +kernel, by unfold WindowFits; decide +kernel, by
    unfold SettlesBy; decide +kernel⟩

end Sys2Proof.Tests
end

