-- ==== Sys2Proof/Tests/WitnessControl.lean ====
section
/-! SUPPORT. Witnesses for the statements about control, gates, work lists, lattices and engine commands. -/

namespace Sys2Proof.Tests

set_option Elab.async false

open Sys2Proof.Machine Sys2Proof.Safety

/-! Special registers, waits and marks. -/

/-- The numbers that Table 4.2 lists. -/
def specials : List (Fin 512) := [0, 1, 2, 3, 4, 5, 6, 8, 9, 10, 11, 12, 13, 14, 15]

theorem witness_flagsLanded : FlagsLanded base (groupOf base) := ⟨by decide +kernel, fun r hr => by
  have h : base.replies = [] := by decide +kernel
  rw [h] at hr; cases hr⟩

theorem settled_base (n : Needs) (k : Nat) : SpecialReadable (ctx n base) k := by
  have h : (groupOf base).gmode = 0 := by decide +kernel
  intro hg
  have : (ctx n base).g.gmode = 0 := h
  rw [this] at hg
  simp at hg

theorem witness_SpecialRegisters : ∀ k ∈ specials, k.val ≤ 15 ∧ k.val ≠ 7 ∧
    MayIssue (getsrNeeds 0 0 4 false k) base 0 0 0 (groupOf base) ∧ SpecialReadable (ctx (getsrNeeds 0 0 4 false k) base) k ∧
    MayIssue (getsrNeeds 0 0 4 true k) base 0 0 0 (groupOf base) ∧ SpecialReadable (ctx (getsrNeeds 0 0 4 true k) base) k ∧
    MayIssue (setsrNeeds 0 8 false) base 0 0 0 (groupOf base) ∧ MayIssue (setsrNeeds 0 8 true) base 0 0 0 (groupOf base) := by
  have h : ∀ k ∈ specials, k.val ≤ 15 ∧ k.val ≠ 7 ∧ may (getsrNeeds 0 0 4 false k) base = true ∧
      may (getsrNeeds 0 0 4 true k) base = true := by decide +kernel
  intro k hk
  obtain ⟨h1, h2, h3, h4⟩ := h k hk
  exact ⟨h1, h2, mayIssue_of_may h3, settled_base _ _, mayIssue_of_may h4, settled_base _ _, mayIssue_of_may (by decide +kernel),
      mayIssue_of_may (by decide +kernel)⟩

theorem witness_WaitsAndMarks_dead : ∀ i ∈ [Instr.dead 0 8 56, .dead2 4 5], ∃ x, deadRow i = some x ∧
    MayIssue x.1 base 0 0 0 (groupOf base) :=
  witness_all (fun (x : Needs × List Nat) => may x.1 base) (fun _ h => mayIssue_of_may h) (by decide +kernel)

theorem witness_WaitsAndMarks_nop : ∀ i ∈ [Instr.nopLong 0 65535, .nopN 0], ∃ x, nopRow i = some x ∧
    MayIssue x.1 base 0 0 0 (groupOf base) :=
  witness_all (fun (x : Needs × Nat) => may x.1 base) (fun _ h => mayIssue_of_may h) (by decide +kernel)

/-- The group's domain has a handler, and flag c1 carries an error mark. -/
def handlerState : State := onGroup (fun g => { g with dom := { g.dom with handler := 0x1000 } }) base
def markedState : State := onGroup (fun g => { g with flagErr := 2 }) handlerState

theorem witness_HandlerFree : HandlerFree handlerState 0 0 (groupOf handlerState) ∧ HandlerFree markedState 0 0 (groupOf markedState) :=
  ⟨⟨by decide, by decide +kernel, by decide +kernel, by decide +kernel⟩, ⟨by decide, by decide +kernel, by decide +kernel,
      by decide +kernel⟩⟩

theorem witness_WaitsAndMarks_waitf : ∀ i ∈ [Instr.waitf 0 4095, .waitfS 2], ∃ x, waitfRow i = some x ∧
    MayIssue x.1 base 0 0 0 (groupOf base) ∧ CountsZero (groupOf base) x.2 ∧ (groupOf base).flagErr &&& BitVec.ofNat 12 x.2 = 0 ∧
    MayIssue x.1 markedState 0 0 0 (groupOf markedState) ∧ CountsZero (groupOf markedState) x.2 ∧
    (groupOf markedState).flagErr &&& BitVec.ofNat 12 x.2 ≠ 0 :=
  witness_all (fun (x : Needs × Nat) => may x.1 base && may x.1 markedState &&
      decide ((groupOf markedState).flagErr &&& BitVec.ofNat 12 x.2 ≠ 0))
    (fun x h => by
      simp only [Bool.and_eq_true, decide_eq_true_eq] at h
      have h1 : ∀ f < 12, (groupOf base).count f = 0 ∧ (groupOf markedState).count f = 0 := by decide +kernel
      have h2 : (groupOf base).flagErr = 0 := by decide +kernel
      exact ⟨mayIssue_of_may h.1.1, fun f hf _ => (h1 f hf).1, by rw [h2]; simp, mayIssue_of_may h.1.2, fun f hf _ => (h1 f hf).2, h.2⟩)
    (by decide +kernel)

/-! Branches, calls, loops. -/

/-- p3 is true in the lowest lane of every strand, and v8 holds the lane's number. -/
def splitState : State := onGroup (fun g => { g with p := [(3, ⟨0x11111111, []⟩)], v := [(8, { VReg.start with
  lanes := (List.range 32).map (BitVec.ofNat 32) })] }) base

theorem witness_BranchResults_bra : ∀ p ∈ [(0 : Fin 8), 2, 3],
    MayIssue { gap := 0, guard := some p.val } splitState 0 0 0 (groupOf splitState) ∧
    RoomForTwo (ctx { gap := 0, guard := some p.val } splitState) (groupOf splitState) := by
  have h : ∀ p ∈ [(0 : Fin 8), 2, 3], may { gap := 0, guard := some p.val } splitState = true ∧
    ∀ i ∈ (ctx { gap := 0, guard := some p.val } splitState).is, ((groupOf splitState).strand i).div.length < 4 := by decide +kernel
  exact fun p hp => ⟨mayIssue_of_may (h p hp).1, fun i hi _ _ => (h p hp).2 i hi⟩

theorem witness_BranchResults_braS : MayIssue { len := 2, guard := some 0 } splitState 0 0 0 (groupOf splitState) ∧
    RoomForTwo (ctx { len := 2, guard := some 0 } splitState) (groupOf splitState) := by
  have h : ∀ i ∈ (ctx { len := 2, guard := some 0 } splitState).is, ((groupOf splitState).strand i).div.length < 4 := by decide +kernel
  exact ⟨mayIssue_of_may (by decide +kernel), fun i hi _ _ => h i hi⟩

theorem witness_BranchResults_braQ : ∀ q ∈ [(0 : Fin 4), 1],
    MayIssue { gap := 0, qguard := some q.val } base 0 0 0 (groupOf base) := by
  have h : ∀ q ∈ [(0 : Fin 4), 1], may { gap := 0, qguard := some q.val } base = true := by decide +kernel
  exact fun q hq => mayIssue_of_may (h q hq)

/-- Lanes with one target each, so that a strand splits in four. -/
theorem witness_BranchResults_brx : ∀ p ∈ [(0 : Fin 8), 3],
    MayIssue { gap := 0, guard := some p.val, vsrc := [8] } splitState 0 0 0 (groupOf splitState) ∧
    RoomForMany (ctx { gap := 0, guard := some p.val, vsrc := [8] } splitState) (groupOf splitState) 4
      (laneTarget (ctx { gap := 0, guard := some p.val, vsrc := [8] } splitState) 8) := by
  have h : ∀ p ∈ [(0 : Fin 8), 3], may { gap := 0, guard := some p.val, vsrc := [8] } splitState = true := by decide +kernel
  have h2 : ∀ p ∈ [(0 : Fin 8), 3], RoomForMany (ctx { gap := 0, guard := some p.val, vsrc := [8] } splitState) (groupOf splitState) 4
      (laneTarget (ctx { gap := 0, guard := some p.val, vsrc := [8] } splitState) 8) := by
    unfold RoomForMany; decide +kernel
  exact fun p hp => ⟨mayIssue_of_may (h p hp), h2 p hp⟩

/-- Every lane's entry of a table of zeros at 0x200. -/
theorem witness_BranchResults_jtab : MayIssue { gap := 0, guard := some 0, vsrc := [4] } base 0 0 0 (groupOf base) ∧
    (∀ l ∈ (ctx { gap := 0, guard := some 0, vsrc := [4] } base).lanes,
      EntryIs (ctx { gap := 0, guard := some 0, vsrc := [4] } base) base 4 256 l 0) ∧
    RoomForMany (ctx { gap := 0, guard := some 0, vsrc := [4] } base) (groupOf base) 4
      (tableTargetOf (ctx { gap := 0, guard := some 0, vsrc := [4] } base) 256 (fun _ => 0)) := by
  have h : ∀ l ∈ (ctx { gap := 0, guard := some 0, vsrc := [4] } base).lanes,
      readCode base (ctx { gap := 0, guard := some 0, vsrc := [4] } base).asker ((partOfCore base 0).getD 0) (groupOf base).dom
        (entryAddress (ctx { gap := 0, guard := some 0, vsrc := [4] } base) 4 256 l) 4 = .bytes [0, 0, 0, 0] := by decide +kernel
  exact ⟨mayIssue_of_may (by decide +kernel), fun l hl => ⟨0, 0, 0, 0, h l hl, by decide⟩, by unfold RoomForMany; decide +kernel⟩

/-- A path that waits on the divergence stacks, and one that runs. -/
def divState (running : Bool) : State := onGroup (fun g => g.onStrands (List.range 8) (fun t =>
  { t with active := 3, div := [⟨0x40, 12, 15, running⟩] })) base

theorem witness_BranchResults_join : MayIssue { gap := 0 } base 0 0 0 (groupOf base) ∧
    MayIssue { gap := 0 } (divState false) 0 0 0 (groupOf (divState false)) ∧
    MayIssue { len := 2 } (divState true) 0 0 0 (groupOf (divState true)) :=
  ⟨mayIssue_of_may (by decide +kernel), mayIssue_of_may (by decide +kernel), mayIssue_of_may (by decide +kernel)⟩

theorem lrReadable_base (n : Needs) : LrReadable (ctx n base) := by
  have h : (groupOf base).gmode = 0 := by decide +kernel
  intro hg
  have : (ctx n base).g.gmode = 0 := h
  rw [this] at hg
  simp at hg

theorem witness_CallsAndReturns_ret : LrReadable (ctx { gap := 0 } base) ∧ LrReadable (ctx { len := 2 } base) :=
  ⟨lrReadable_base _, lrReadable_base _⟩

theorem witness_CallsAndReturns : MayIssue { gap := 0 } base 0 0 0 (groupOf base) ∧ MayIssue { len := 2 } base 0 0 0 (groupOf base) ∧
    MayIssue { gap := 0, guard := some 3, vsrc := [8] } splitState 0 0 0 (groupOf splitState) ∧
    RoomForMany (ctx { gap := 0, guard := some 3, vsrc := [8] } splitState) (groupOf splitState) 4
      (laneTarget (ctx { gap := 0, guard := some 3, vsrc := [8] } splitState) 8) :=
  ⟨mayIssue_of_may (by decide +kernel), mayIssue_of_may (by decide +kernel), mayIssue_of_may (by decide +kernel), by
    unfold RoomForMany; decide +kernel⟩

/-- s4 holds 3, s5 zero; each strand stands in a loop that ends at 0x10. -/
def loopState : State := onGroup (fun g => sregs [(4, 3), (5, 0)] (g.onStrands (List.range 8) (fun t =>
  { t with loops := [⟨4, 0x10, 2⟩] }))) base

theorem witness_Loops : ∀ i ∈ [Instr.loop 0 4 2, .loopi 0 1 255], ∃ x, loopRow i = some x ∧
    MayIssue x.1 loopState 0 0 0 (groupOf loopState) ∧ 2 ≤ x.2.2 ∧ x.2.1 (ctx x.1 loopState) ≠ 0 ∧
    ∀ j ∈ (ctx x.1 loopState).is, ((groupOf loopState).strand j).loops.length < 4 :=
  witness_all (fun (x : Needs × (Ctx → Word) × Nat) => may x.1 loopState && decide (2 ≤ x.2.2 ∧ x.2.1 (ctx x.1 loopState) ≠ 0 ∧
      ∀ j ∈ (ctx x.1 loopState).is, ((groupOf loopState).strand j).loops.length < 4))
    (fun x h => by
      simp only [Bool.and_eq_true, decide_eq_true_eq] at h
      exact ⟨mayIssue_of_may h.1, h.2⟩) (by decide +kernel)

theorem witness_Loops_zero : ∀ i ∈ [Instr.loop 0 5 2, .loopi 0 0 255], ∃ x, loopRow i = some x ∧
    MayIssue x.1 loopState 0 0 0 (groupOf loopState) ∧ 2 ≤ x.2.2 ∧ x.2.1 (ctx x.1 loopState) = 0 ∧
    EndReads (ctx x.1 loopState) loopState (bodyEnd (ctx x.1 loopState) x.2.2) [0, 0] :=
  witness_all (fun (x : Needs × (Ctx → Word) × Nat) => may x.1 loopState && decide (2 ≤ x.2.2 ∧ x.2.1 (ctx x.1 loopState) = 0 ∧
      endHalf (ctx x.1 loopState) loopState (bodyEnd (ctx x.1 loopState) x.2.2) = .bytes [0, 0]))
    (fun x h => by
      simp only [Bool.and_eq_true, decide_eq_true_eq] at h
      exact ⟨mayIssue_of_may h.1, h.2.1, h.2.2.1, h.2.2.2⟩) (by decide +kernel)

theorem witness_Loops_lbrk : MayIssue { gap := 0 } loopState 0 0 0 (groupOf loopState) ∧
    ∀ j ∈ (ctx { gap := 0 } loopState).is, ∀ e t, ((groupOf loopState).strand j).loops = e :: t →
      EndReads (ctx { gap := 0 } loopState) loopState e.stop [0, 0] := by
  have h : ∀ j ∈ (ctx { gap := 0 } loopState).is, ((groupOf loopState).strand j).loops = [⟨4, 0x10, 2⟩] := by decide +kernel
  refine ⟨mayIssue_of_may (by decide +kernel), fun j hj e t he => ?_⟩
  rw [h j hj] at he
  cases he
  unfold EndReads; decide +kernel

/-! Gathering, fences, barriers. -/

/-- A group whose strands 4 to 7 form a second gang. -/
def partedState : State := onGroup (fun g => g.onStrands [4, 5, 6, 7] (fun t => { t with gang := 4, pc := 0x80 })) base

/-- A point at 0x40 whose pricking runs. -/
def prickState : State := onGroup (fun g => { g with pricking := true, flash := some ⟨0x40, some 0x80, 3, [], []⟩ }) base

theorem lastToGather_base (n : Needs) : LastToGather (ctx n base) := by
  have h : ∀ i ∈ (groupOf base).live, i ∈ (groupOf base).gangStrands 0 ∧ ((groupOf base).strand i).pc = 0 := by decide +kernel
  exact ⟨fun i hi => .inl (h i hi).1, fun i hi j hj => (h i hi).2.trans (h j hj).2.symm⟩

theorem witness_Gathering_regang : ∀ i ∈ [Instr.regang 0, .compactRegang], ∃ x, regangRow i = some x ∧
    MayIssue x base 0 0 0 (groupOf base) ∧ LastToGather (ctx x base) :=
  witness_all (fun (x : Needs) => may x base) (fun _ h => ⟨mayIssue_of_may h, lastToGather_base _⟩) (by decide +kernel)

/-- The same with the second gang held in a gathering instruction at another address; and a group in a gate, in two gangs. -/
def apartState : State := onGroup (fun g => g.onStrands [4, 5, 6,
    7] (fun t => { t with gang := 4, pc := 0x80, held := some .gather })) handlerState
def partedCall (held : Option Hold) : State := onGroup (fun g => { g.onStrands [4, 5, 6, 7] (fun t => { t with gang := 4, pc := 0x80, held := held })
  with calls := [⟨[], [], [], [], 0, 0, 0x2C, 0, 0, [], 0x44, g.dom, 1, 1, none, 0, 0, 0, 0⟩] }) handlerState

/-- A gang that is not the last, and one that comes last at another address. -/
def waitsFor (s : State) : Bool :=
  decide (∃ j ∈ (groupOf s).live, j ∉ (groupOf s).gangStrands 0 ∧ ((groupOf s).strand j).held ≠ some .gather)
def comesApart (s : State) : Bool :=
  decide (∀ j ∈ (groupOf s).live, j ∈ (groupOf s).gangStrands 0 ∨ ((groupOf s).strand j).held = some .gather) &&
    decide (¬ ∀ i ∈ (groupOf s).live, ∀ j ∈ (groupOf s).live, ((groupOf s).strand i).pc = ((groupOf s).strand j).pc) &&
    decide (∃ j ∈ (groupOf s).gangStrands 0, ((groupOf s).strand j).held = none)

theorem witness_Gathering_held : ∀ i ∈ [Instr.regang 0, .compactRegang, .fbp 0 0 0 0], ∃ x, gatherRow i = some x ∧
    MayIssue x partedState 0 0 0 (groupOf partedState) ∧ MayIssue x apartState 0 0 0 (groupOf apartState) :=
  witness_all (fun (x : Needs) => may x partedState && may x apartState)
    (fun _ h => ⟨mayIssue_of_may (Bool.and_eq_true_iff.1 h).1, mayIssue_of_may (Bool.and_eq_true_iff.1 h).2⟩) (by decide +kernel)

theorem witness_Gathering_returns : ∀ i ∈ [Instr.gret 0, .gabort 0 7], ∃ x, gatherRow i = some x ∧
    MayIssue x (partedCall none) 0 0 0 (groupOf (partedCall none)) ∧
    MayIssue x (partedCall (some .gather)) 0 0 0 (groupOf (partedCall (some .gather))) :=
  witness_all (fun (x : Needs) => may x (partedCall none) && may x (partedCall (some .gather)))
    (fun _ h => ⟨mayIssue_of_may (Bool.and_eq_true_iff.1 h).1, mayIssue_of_may (Bool.and_eq_true_iff.1 h).2⟩) (by decide +kernel)

theorem witness_Gathering_parted : waitsFor partedState = true ∧ waitsFor (partedCall none) = true ∧
    (groupOf (partedCall none)).calls ≠ [] ∧
    comesApart apartState = true ∧ HandlerFree apartState 0 0 (groupOf apartState) ∧
    comesApart (partedCall (some .gather)) = true ∧ HandlerFree (partedCall (some .gather)) 0 0 (groupOf (partedCall (some .gather))) :=
  ⟨by decide +kernel, by decide +kernel, by decide +kernel, by decide +kernel, ⟨by decide, by decide +kernel, by decide +kernel,
      by decide +kernel⟩,
    by decide +kernel, ⟨by decide, by decide +kernel, by decide +kernel, by decide +kernel⟩⟩

theorem witness_Gathering_fbp : MayIssue { len := 12, gap := 0, zone := .block } base 0 0 0 (groupOf base) ∧
    LastToGather (ctx { len := 12, gap := 0, zone := .block } base) ∧ ∀ r < 64, ((groupOf base).vreg r).full = true :=
  ⟨mayIssue_of_may (by decide +kernel), lastToGather_base _, by decide +kernel⟩

/-- Register v2 of the mask is empty. -/
def owedState : State := onGroup (fun g => g.setV 2 { VReg.start with full := false }) base

theorem witness_Gathering_waits : MayIssue { len := 12, gap := 0, zone := .block } owedState 0 0 0 (groupOf owedState) ∧
    (∀ i ∈ (groupOf owedState).live, i ∈ (groupOf owedState).gangStrands 0 ∧ ((groupOf owedState).strand i).pc = 0) ∧
    ((0 : Word) ++ (4 : Word) : BitVec 64).getLsbD 2 = true ∧ ((groupOf owedState).vreg 2).full = false ∧
    ∃ j ∈ (ctx { len := 12, gap := 0, zone := .block } owedState).is, ((groupOf owedState).strand j).held = none :=
  ⟨mayIssue_of_may (by decide +kernel), by decide +kernel, by decide, by decide +kernel, by decide +kernel⟩

theorem witness_Gathering_unpricked : MayIssue { gap := 0, zone := .block } base 0 0 0 (groupOf base) ∧ (groupOf base).pricking = false :=
  ⟨mayIssue_of_may (by decide +kernel), by decide +kernel⟩

theorem witness_Gathering_pret : MayIssue { gap := 0, zone := .block } prickState 0 0 0 (groupOf prickState) ∧
    (groupOf prickState).pricking = true ∧ (groupOf prickState).flash = some ⟨0x40, some 0x80, 3, [], []⟩ :=
  ⟨mayIssue_of_may (by decide +kernel), by decide +kernel, by decide +kernel⟩

theorem witness_FencesAndBarriers_fence : ∀ i ∈ [Instr.fenceB 0, .fenceD 0, .fenceS 0], ∃ x, fenceRow i = some x ∧
    MayIssue x.1 base 0 0 0 (groupOf base) :=
  witness_all (fun (x : Needs × Nat) => may x.1 base) (fun _ h => mayIssue_of_may h) (by decide +kernel)

theorem notArrived_base (k : Nat) : NotArrived base (groupOf base) k := by
  have h : (groupOf base).bars = [] := by decide +kernel
  refine ⟨by rw [h]; rfl, fun b hb => ?_⟩
  have h2 : blockOf base (groupOf base) = some (blockOf3 base) := by decide +kernel
  have h3 : (blockOf3 base).bars = [] := by decide +kernel
  rw [h2] at hb
  cases hb
  rw [h3]
  simp [getAt, lookupAt, Barrier.none, laneBit]

/-- Barrier 2 is in phase 1 and the group arrived in phase 0; strands that only have their wait to perform. -/
def overState : State := onGroup (fun g => { g with bars := [(2, ⟨0, false, 0, some 0, 0⟩)] })
  (onBlock (fun b => { b with bars := [(2, ⟨1, 0, false⟩)] }) base)
def againState : State := onGroup (fun g => g.onStrands (List.range 8) (fun t => { t with waitOnly := true })) overState

theorem witness_FencesAndBarriers_arrive : MayIssue (barNeed 4 0 true) base 0 0 0 (groupOf base) ∧ NotArrived base (groupOf base) 2 :=
  ⟨mayIssue_of_may (by decide +kernel), notArrived_base 2⟩

theorem phaseOver_of (s : State) (hb : getAt GroupBar.none (groupOf s).bars 2 = ⟨0, false, 0, some 0, 0⟩)
    (hp : phaseNow s (groupOf s) 2 = 1) (i : Nat) : PhaseOver s (groupOf s) 2 i :=
  ⟨0, by rw [hb], by rw [hp]; decide, by rw [hb], by rw [hb]; exact BitVec.getLsbD_zero⟩

theorem witness_FencesAndBarriers_wait : MayIssue (barNeed 4 0 false) overState 0 0 0 (groupOf overState) ∧
    (∀ j ∈ (ctx (barNeed 4 0 false) overState).is, PhaseOver overState (groupOf overState) 2 j) ∧
    MayIssue (barNeed 4 0 false) base 0 0 0 (groupOf base) ∧
    ∃ j ∈ (ctx (barNeed 4 0 false) base).is, ¬ PhaseOver base (groupOf base) 2 j := by
  refine ⟨mayIssue_of_may (by decide +kernel), fun j _ => phaseOver_of _ (by decide +kernel) (by decide +kernel) j,
    mayIssue_of_may (by decide +kernel), 0, by decide +kernel, ?_⟩
  rintro ⟨p, h1, _⟩
  have h : (getAt GroupBar.none (groupOf base).bars 2).last = none := by decide +kernel
  rw [h] at h1
  cases h1

theorem witness_FencesAndBarriers_sync : ∀ i ∈ [Instr.barSync 0 2, .barS 2], ∃ x, syncRow i = some x ∧
    MayIssue x.1 base 0 0 0 (groupOf base) ∧ (∃ j ∈ (ctx x.1 base).is, ((groupOf base).strand j).waitOnly = false) ∧
    NotArrived base (groupOf base) x.2 ∧ MayIssue x.1 againState 0 0 0 (groupOf againState) ∧
    ∀ j ∈ (ctx x.1 againState).is, ((groupOf againState).strand j).waitOnly = true :=
  witness_all (fun (x : Needs × Nat) => may x.1 base && may x.1 againState &&
      decide (∃ j ∈ (ctx x.1 base).is, ((groupOf base).strand j).waitOnly = false) &&
      decide (∀ j ∈ (ctx x.1 againState).is, ((groupOf againState).strand j).waitOnly = true))
    (fun x h => by
      simp only [Bool.and_eq_true, decide_eq_true_eq] at h
      exact ⟨mayIssue_of_may h.1.1.1, h.1.2, notArrived_base _, mayIssue_of_may h.1.1.2, h.2⟩) (by decide +kernel)

/-! Traps, exits, yields, tasks. -/

theorem witness_TrapInstructions : ∀ i ∈ [Instr.trap 0 0 5, .brk 0 0 5, .compactBrk], ∃ x, trapRow i = some x ∧
    MayIssue x.1 handlerState 0 0 0 (groupOf handlerState) ∧ (ctx x.1 handlerState).act ≠ 0 :=
  witness_all (fun (x : Needs × Nat) => may x.1 handlerState && decide ((ctx x.1 handlerState).act ≠ 0))
    (fun x h => by
      simp only [Bool.and_eq_true, decide_eq_true_eq] at h
      exact ⟨mayIssue_of_may h.1, h.2⟩) (by decide +kernel)

theorem witness_TrapInstructions_none : ∀ i ∈ [Instr.trap 0 2 5, .brk 0 2 5], ∃ x, trapRow i = some x ∧
    MayIssue x.1 base 0 0 0 (groupOf base) ∧ (ctx x.1 base).act = 0 :=
  witness_all (fun (x : Needs × Nat) => may x.1 base && decide ((ctx x.1 base).act = 0))
    (fun x h => by
      simp only [Bool.and_eq_true, decide_eq_true_eq] at h
      exact ⟨mayIssue_of_may h.1, h.2⟩) (by decide +kernel)

/-- The handler slot serves slot 1, whose group stopped for cause 0x1A; its gang has the turn. -/
def servedGroupOf : Group := { groupOf base with uid := 90, stop := .served ⟨0x1A, 0, 0, 0⟩ }
def handlerGroupOf : Group := handlerGroup 91 1 (groupOf handlerState).dom ⟨0x1A, 0, 0, 0⟩
def servingState : State :=
  { setGroup (setGroup handlerState 0 1 servedGroupOf) 0 32 handlerGroupOf with cur := .gang 0 32 0 }

def mayServe (n : Needs) (s : State) : Bool :=
  decide (s.cur = .gang 0 32 0) && (match groupAt s 0 32 with
    | some g => decide (verdict n noConds noConds noWait (issueCtx n s 0 32 0 g) s = .go)
    | none => false)

theorem mayIssue_of_mayServe {n : Needs} {s : State} {g : Group} (hg : groupAt s 0 32 = some g) (h : mayServe n s = true) :
    MayIssue n s 0 32 0 g := by
  simp only [mayServe, hg, Bool.and_eq_true, decide_eq_true_eq] at h
  exact Laws.mayIssue_of h.1 hg h.2

theorem servingState_handler : groupAt servingState 0 32 = some handlerGroupOf := by decide +kernel

theorem witness_ExitResults : ∀ i ∈ [Instr.exit 0 0, .compactExit], ∃ x, exitRow i = some x ∧
    MayIssue x base 0 0 0 (groupOf base) ∧ ¬ SomeRemain (ctx x base) ∧ MayIssue x servingState 0 32 0 handlerGroupOf ∧
    ¬ SomeRemain (issueCtx x servingState 0 32 0 handlerGroupOf) :=
  witness_all (fun (x : Needs) => may x base && mayServe x servingState &&
      decide (¬ ∃ j ∈ (ctx x base).g.live, j ∉ (ctx x base).is ∨ ((ctx x base).g.strand j).exited ||| laneSet (ctx x base).act j ≠ 0xF) &&
      decide (¬ ∃ j ∈ (issueCtx x servingState 0 32 0 handlerGroupOf).g.live, j ∉ (issueCtx x servingState 0 32 0 handlerGroupOf).is ∨
        ((issueCtx x servingState 0 32 0 handlerGroupOf).g.strand j).exited |||
          laneSet (issueCtx x servingState 0 32 0 handlerGroupOf).act j ≠ 0xF))
    (fun x h => by
      simp only [Bool.and_eq_true, decide_eq_true_eq] at h
      exact ⟨mayIssue_of_may h.1.1.1, h.1.2, mayIssue_of_mayServe servingState_handler h.1.1.2, h.2⟩) (by decide +kernel)

theorem witness_ExitResults_served : groupAt servingState 0 1 = some servedGroupOf ∧ handlerGroupOf.serves = some 1 ∧
    servedGroupOf.stop = .served ⟨0x1A, 0, 0, 0⟩ ∧ handlerGroupOf.control ≠ 1 ∧ servedGroupOf.live ≠ [] := by decide +kernel

theorem witness_ExitResults_remain : ∃ x, exitRow (.exit 0 3) = some x ∧ MayIssue x splitState 0 0 0 (groupOf splitState) ∧
    SomeRemain (ctx x splitState) :=
  ⟨_, rfl, mayIssue_of_may (by decide +kernel), 0, by decide +kernel, .inr (by decide +kernel)⟩

def askedState : State := onBlock (fun b => { b with preempt := .polite 0 }) base

theorem witness_YieldAndSpawn_yield : ∀ i ∈ [Instr.yield 0, .compactYield], ∃ x, yieldRow i = some x ∧
    MayIssue x base 0 0 0 (groupOf base) ∧ MayIssue x askedState 0 0 0 (groupOf askedState) :=
  witness_all (fun (x : Needs) => may x base && may x askedState)
    (fun _ h => ⟨mayIssue_of_may (Bool.and_eq_true_iff.1 h).1, mayIssue_of_may (Bool.and_eq_true_iff.1 h).2⟩) (by decide +kernel)

theorem witness_YieldAndSpawn_asked : AskedToYield askedState (groupOf askedState) ∧ ¬ AskedToYield base (groupOf base) := by
  refine ⟨⟨blockOf3 askedState, 0, by decide +kernel, by decide +kernel⟩, ?_⟩
  rintro ⟨b, k, h1, h2⟩
  have h : (blockOf base (groupOf base)).map Block.preempt = some .none := by decide +kernel
  rw [h1] at h
  simp [h2] at h

/-- A task of 32 groups, 8 register blocks and 112 granules, and one of the smallest shape. -/
def spawnState : State := onGroup (sregs [(4, 0x100), (5, 0), (6, 0x70E20), (7, 9), (8, 0), (9, 0), (10, 0x41), (11, 0)]) base

theorem witness_YieldAndSpawn_spawn : ∀ n ∈ [(4 : Fin 64), 8], MayIssue (spawnNeeds 0 n.val) spawnState 0 0 0 (groupOf spawnState) ∧
    TaskOk ((ctx (spawnNeeds 0 n.val) spawnState).s (n.val + 2)) := by
  have h : ∀ n ∈ [(4 : Fin 64), 8], may (spawnNeeds 0 n.val) spawnState = true := by decide +kernel
  have h2 : ∀ n ∈ [(4 : Fin 64), 8], TaskOk ((ctx (spawnNeeds 0 n.val) spawnState).s (n.val + 2)) := by unfold TaskOk; decide +kernel
  exact fun n hn => ⟨mayIssue_of_may (h n hn), h2 n hn⟩

theorem witness_YieldAndSpawn_run : blockOf spawnState (groupOf spawnState) = some (blockOf3 spawnState) ∧
    (lookupAt spawnState.runs (blockOf3 spawnState).run).isSome = true := by decide +kernel

/-! Gates and the access window. -/

/-- Two gate entries at IA 0x800: domain 0, valid, two argument registers of each class, one result of each, entry 0x100. -/
def gateBytes : List Byte := [0, 0, 1, 2, 2, 1, 1, 0] ++ toBytes 8 0x100 ++ List.replicate 16 0
def gateState : State :=
  { base with
    mem := writeBytes base.mem (2 ^ 24 + 0x800) (gateBytes ++ gateBytes)
    parts := setAt base.parts 0 { partAt base 0 with eyeletIa := 0x800, eyeletCount := 2 } }

def insideFrame : CallFrame :=
  { v := [], s := [], p := [], q := [], fpm := 0, fpf := 0, nfv := 0x2C, cbwin := 0, gmode := 0, strands := [], resume := 0x44,
    dom := (groupOf base).dom, nvr := 1, nur := 1, storeErr := none, budget := 0, used := 0, save := 0, mark := 0 }
def calledState : State := onGroup (fun g => { g with calls := [insideFrame] }) base

theorem quiet_of {g : Group} (h : g.v.all (fun r => r.2.full) = true ∧ g.s.all (fun r => r.2.full) = true ∧
    g.counts.all (fun e => decide (e.2 = 0)) = true) : Quiet g :=
  ⟨fun r hr => List.all_eq_true.1 h.1 r hr, fun r hr => List.all_eq_true.1 h.2.1 r hr,
    fun e he => of_decide_eq_true (List.all_eq_true.1 h.2.2 e he)⟩

theorem lastToGather_of {s : State} (n : Needs) (h : ∀ i ∈ (groupOf s).live, i ∈ (groupOf s).gangStrands 0 ∧
    ((groupOf s).strand i).pc = 0) :
    LastToGather (ctx n s) := ⟨fun i hi => .inl (h i hi).1, fun i hi j hj => (h i hi).2.trans (h j hj).2.symm⟩

theorem witness_Gates_call : ∀ i ∈ [0, 1], MayIssue (gcallNeeds 0) gateState 0 0 0 (groupOf gateState) ∧
    LastToGather (ctx (gcallNeeds 0) gateState) ∧ Quiet (groupOf gateState) ∧
    GateOpen gateState (ctx (gcallNeeds 0) gateState).asker ((partOfCore gateState 0).getD 0) i (groupOf gateState)
        (GateEntry.ofBytes gateBytes) := by
  have h : ∀ i ∈ [0, 1],
      gateRead gateState (ctx (gcallNeeds 0) gateState).asker ((partOfCore gateState 0).getD 0) i = .bytes gateBytes := by
    decide +kernel
  exact fun i hi => ⟨mayIssue_of_may (by decide +kernel), lastToGather_of _ (by decide +kernel), quiet_of (by decide +kernel),
    ⟨_, h i hi, rfl⟩, by decide +kernel, .inl (by decide +kernel), ⟨by decide +kernel, by decide +kernel⟩, by decide +kernel⟩

/-- With a handler: gate 0 is not valid, gate 1 asks for a key that the domain does not hold, and gate 5 is not there; a group at depth
4. -/
def badGateBytes (key : Byte) (valid : Byte) : List Byte := [0, 0, valid, 2, 2, 1, 1, 0] ++ toBytes 8 0x100 ++ key :: List.replicate 15 0
def shutState : State := onGroup (fun g => { g with dom := { g.dom with handler := 0x1000 } })
  { gateState with mem := writeBytes base.mem (2 ^ 24 + 0x800) (badGateBytes 0 0 ++ badGateBytes 1 1) }
def deepState : State := onGroup (fun g => { g with dom := { g.dom with handler := 0x1000 }, calls := List.replicate 4 insideFrame }) gateState

theorem shutState_key : ¬ HoldsKey shutState 0 (groupOf shutState) (GateEntry.ofBytes (badGateBytes 1 1)) := by
  have h : (GateEntry.ofBytes (badGateBytes 1 1)).aclKey = 1 ∧
    (domainAt shutState 0 (groupOf shutState).dom.id).keys.all (fun k => k.toNat != 1) = true := by decide +kernel
  rintro (h1 | ⟨k, hk, h1⟩)
  · rw [h.1] at h1; cases h1
  · have h2 := List.all_eq_true.1 h.2 k hk
    rw [h1, h.1] at h2
    cases h2

theorem witness_Gates_shut : MayIssue (gcallNeeds 0) shutState 0 0 0 (groupOf shutState) ∧ LastToGather (ctx (gcallNeeds 0) shutState) ∧
    Quiet (groupOf shutState) ∧ HandlerFree shutState 0 0 (groupOf shutState) ∧
    (GateEntry.ofBytes (badGateBytes 0 0)).valid = false ∧ (GateEntry.ofBytes (badGateBytes 1 1)).valid = true ∧
    GateFits (groupOf shutState) (GateEntry.ofBytes (badGateBytes 1 1)) ∧ ¬ HoldsKey shutState 0 (groupOf shutState)
        (GateEntry.ofBytes (badGateBytes 1 1)) ∧
    GateIs shutState (ctx (gcallNeeds 0) shutState).asker ((partOfCore shutState 0).getD 0) 0 (GateEntry.ofBytes (badGateBytes 0 0)) ∧
    GateIs shutState (ctx (gcallNeeds 0) shutState).asker ((partOfCore shutState 0).getD 0) 1 (GateEntry.ofBytes (badGateBytes 1 1)) ∧
    gateRead shutState (ctx (gcallNeeds 0) shutState).asker ((partOfCore shutState 0).getD 0) 5 = .fails 0 :=
  ⟨mayIssue_of_may (by decide +kernel), lastToGather_of _ (by decide +kernel), quiet_of (by decide +kernel),
    ⟨by decide, by decide +kernel, by decide +kernel, by decide +kernel⟩, by decide +kernel, by decide +kernel,
    ⟨by decide +kernel, by decide +kernel⟩, shutState_key, ⟨badGateBytes 0 0, by decide +kernel, rfl⟩,
    ⟨badGateBytes 1 1, by decide +kernel, rfl⟩, by decide +kernel⟩

theorem witness_Gates_deep : MayIssue (gcallNeeds 0) deepState 0 0 0 (groupOf deepState) ∧ LastToGather (ctx (gcallNeeds 0) deepState) ∧
    Quiet (groupOf deepState) ∧ HandlerFree deepState 0 0 (groupOf deepState) ∧ 4 ≤ (groupOf deepState).calls.length ∧
    GateFits (groupOf deepState) (GateEntry.ofBytes gateBytes) ∧ HoldsKey deepState 0 (groupOf deepState) (GateEntry.ofBytes gateBytes) ∧
    GateIs deepState (ctx (gcallNeeds 0) deepState).asker ((partOfCore deepState 0).getD 0) 1 (GateEntry.ofBytes gateBytes) :=
  ⟨mayIssue_of_may (by decide +kernel), lastToGather_of _ (by decide +kernel), quiet_of (by decide +kernel),
    ⟨by decide, by decide +kernel, by decide +kernel, by decide +kernel⟩, by decide +kernel, ⟨by decide +kernel, by decide +kernel⟩,
    .inl (by decide +kernel), ⟨gateBytes, by decide +kernel, rfl⟩⟩

theorem witness_Gates_leave : ∀ i ∈ [Instr.gret 0, .gabort 0 0, .gabort 0 7], ∃ x, leaveRow i = some x ∧
    MayIssue x.1 calledState 0 0 0 (groupOf calledState) ∧ LastToGather (ctx x.1 calledState) ∧ Quiet (groupOf calledState) ∧
    (groupOf calledState).calls = insideFrame :: [] ∧ callsDamaged calledState 0 0 1 (groupOf calledState) = false :=
  witness_all (fun (x : Needs × (CallFrame → Nat × Nat) × Word) => may x.1 calledState)
    (fun _ h => ⟨mayIssue_of_may h, lastToGather_of _ (by decide +kernel), quiet_of (by decide +kernel), by decide +kernel,
        by decide +kernel⟩)
    (by decide +kernel)

/-- s8 to s16 of the handler hold a selector of each class that a statement names. -/
def selectors : List (Nat × Word) :=
  [(8, 5), (9, 0x205), (10, 0x403), (11, 0x805), (12, 0x2CC0), (13, 0xE40), (14, 0x1040), (15, 0x160B), (16, 0x1800)]
def windowHandler : Group := sregs selectors handlerGroupOf
def accessState : State := { setGroup servingState 0 32 windowHandler with cur := .gang 0 32 0 }

theorem accessState_handler : groupAt accessState 0 32 = some windowHandler := by decide +kernel

theorem witness_AccessWindow : Serves accessState 0 32 windowHandler 1 servedGroupOf :=
  ⟨by decide +kernel, by decide, by decide +kernel⟩

theorem witness_AccessWindow_read : ∀ x ∈ [(8 : Fin 64), 9, 10, 11, 12, 13, 14, 15, 16],
    MayIssue (xrdNeeds 0 4 false x.val) accessState 0 32 0 windowHandler ∧
    selectorValid servedGroupOf false ((issueCtx (xrdNeeds 0 4 false x.val) accessState 0 32 0 windowHandler).s x.val) = true ∧
    WindowFull servedGroupOf ((issueCtx (xrdNeeds 0 4 false x.val) accessState 0 32 0 windowHandler).s x.val) := by
  have h : ∀ x ∈ [(8 : Fin 64), 9, 10, 11, 12, 13, 14, 15, 16], mayServe (xrdNeeds 0 4 false x.val) accessState = true ∧
    selectorValid servedGroupOf false ((issueCtx (xrdNeeds 0 4 false x.val) accessState 0 32 0 windowHandler).s x.val) = true ∧
    (servedGroupOf.vreg (indexOf ((issueCtx (xrdNeeds 0 4 false x.val) accessState 0 32 0 windowHandler).s x.val))).full = true ∧
    (servedGroupOf.sreg (indexOf ((issueCtx (xrdNeeds 0 4 false x.val) accessState 0 32 0 windowHandler).s x.val))).full = true := by
    decide +kernel
  exact fun x hx => ⟨mayIssue_of_mayServe accessState_handler (h x hx).1, (h x hx).2.1, fun _ => (h x hx).2.2.1, fun _ => (h x hx).2.2.2⟩

theorem witness_AccessWindow_uniform : ∀ x ∈ [(9 : Fin 64), 10, 12, 13, 14, 15, 16],
    MayIssue (xrdNeeds 0 4 true x.val) accessState 0 32 0 windowHandler ∧
    selectorValid servedGroupOf true ((issueCtx (xrdNeeds 0 4 true x.val) accessState 0 32 0 windowHandler).s x.val) = true ∧
    MayIssue (xwrNeeds 0 4 true x.val) accessState 0 32 0 windowHandler ∧
    selectorValid servedGroupOf true ((issueCtx (xwrNeeds 0 4 true x.val) accessState 0 32 0 windowHandler).s x.val) = true ∧
    MayIssue (xwrNeeds 0 4 false x.val) accessState 0 32 0 windowHandler := by
  have h : ∀ x ∈ [(9 : Fin 64), 10, 12, 13, 14, 15, 16], mayServe (xrdNeeds 0 4 true x.val) accessState = true ∧
    selectorValid servedGroupOf true ((issueCtx (xrdNeeds 0 4 true x.val) accessState 0 32 0 windowHandler).s x.val) = true ∧
    mayServe (xwrNeeds 0 4 true x.val) accessState = true ∧
    selectorValid servedGroupOf true ((issueCtx (xwrNeeds 0 4 true x.val) accessState 0 32 0 windowHandler).s x.val) = true ∧
    mayServe (xwrNeeds 0 4 false x.val) accessState = true := by decide +kernel
  exact fun x hx => ⟨mayIssue_of_mayServe accessState_handler (h x hx).1, (h x hx).2.1,
    mayIssue_of_mayServe accessState_handler (h x hx).2.2.1, (h x hx).2.2.2.1, mayIssue_of_mayServe accessState_handler (h x hx).2.2.2.2⟩

end Sys2Proof.Tests
end

