-- ==== Sys2Proof/Tests/WitnessSystem.lean ====
section
/-! SUPPORT. Witnesses for the statements about work lists, lattices and engine commands. -/

namespace Sys2Proof.Tests

set_option Elab.async false

open Sys2Proof.Machine Sys2Proof.Safety

/-! Work lists. -/

/-- List 0 of kind 0 and list 1 of kind 1, with an entry each; v8 and v9 hold zeros. -/
def list0 : WorkList := ⟨0x1000, 64, 0, false, [(7, 0)], []⟩
def list1 : WorkList := ⟨0x1000, 64, 1, false, [(7, 3)], []⟩
def listState : State := onRun (fun r => { r with lists := [list0, list1] }) { base with dt := 8 }
def runOf2 (s : State) : NodeRun := (lookupAt s.runs 2).getD (newRun 0 0 placedNode)

theorem hasList (w : Nat) (kinds : List Nat) (l : WorkList) (h : (runOf2 listState).lists[w]? = some l)
    (hs : l.entries.length ≤ 4096) (hb : l.bad = false)
        (hk : l.kind ∈ kinds) : HasList listState (groupOf listState) w kinds (blockOf3 listState) (runOf2 listState) l :=
  ⟨by decide +kernel, by decide +kernel, h, hs, hb, hk⟩

theorem mayInsert (n : Needs) (l : WorkList) (h : l.entries.length + l.places.length + (ctx n listState).lanes.length ≤ 4096) :
    MayInsert listState (ctx n listState) l :=
  have hf : fenceHolds listState 0 (groupOf listState) 1 listState.nextId = true := by decide +kernel
  ⟨hf, by omega, .inl h⟩

theorem witness_WorkLists : MayIssue (listNeed 0 0 [8] [] true) listState 0 0 0 (groupOf listState) ∧
    HasList listState (groupOf listState) 0 [0] (blockOf3 listState) (runOf2 listState) list0 ∧
    MayInsert listState (ctx (listNeed 0 0 [8] [] true) listState) list0 ∧
    MayIssue (listNeed 0 0 [8, 9] [] true) listState 0 0 0 (groupOf listState) ∧
    HasList listState (groupOf listState) 1 [1] (blockOf3 listState) (runOf2 listState) list1 ∧
    MayInsert listState (ctx (listNeed 0 0 [8, 9] [] true) listState) list1 ∧
    AtHand listState (ctx (listNeed 0 0 [8] [] true) listState) 0 0 list0 [((7, 0), none)] ∧
    (∀ k ∈ (ctx (listNeed 0 0 [8, 9] [] true) listState).lanes, (ctx (listNeed 0 0 [8, 9] [] true) listState).v 9 k ≠ 0xFFFFFFFF) ∧
    AtHand listState (ctx (listNeed 0 0 [8, 9] [] true) listState) 1 list1.places.length list1 [((7, 3), none)] ∧
    MayIssue (listNeed 0 0 [] [4, 5] true) listState 0 0 0 (groupOf listState) ∧
    AtHand listState (ctx (listNeed 0 0 [] [4, 5] true) listState) 1 32 list1 [((7, 3), none)] ∧
    MayIssue (listNeed 0 0 [] [4] false) listState 0 0 0 (groupOf listState) :=
  ⟨mayIssue_of_may (by decide +kernel), hasList _ _ _ (by decide +kernel) (by decide) rfl (by decide), mayInsert _ _ (by decide +kernel),
    mayIssue_of_may (by decide +kernel), hasList _ _ _ (by decide +kernel) (by decide) rfl (by decide), mayInsert _ _ (by decide +kernel),
    ⟨by decide +kernel, rfl, rfl⟩, by decide +kernel, ⟨by decide +kernel, rfl, rfl⟩, mayIssue_of_may (by decide +kernel),
    ⟨by decide +kernel, rfl, rfl⟩, mayIssue_of_may (by decide +kernel)⟩

/-! Lattices. -/

/-- A lattice of one dimension with 16 FP32 elements at VA 0x3000, linear, clamped; and the same with FX64 elements. -/
def latticeBytes0 (fmt : Byte) : List Byte :=
  toBytes 8 0x3000 ++ [0, 1, fmt, 1, 1, 0, 0, 0] ++ toBytes 4 16 ++ List.replicate 8 0 ++ toBytes 4 0x3F800000 ++ List.replicate 32 0
def latticeState : State := onRun (fun r => { r with lattice := [latticeBytes0 2, latticeBytes0 10] }) base
def lattice0 : Lattice := Lattice.ofBytes (latticeBytes0 2)
def lattice1 : Lattice := Lattice.ofBytes (latticeBytes0 10)

theorem latticeHere (x : Lattice) (slot : Nat) (may : Lattice → Bool) (regs : List Nat)
    (h : decide (slot < (latticeTable latticeState (groupOf latticeState)).length) &&
      latticeValid (latticeBytes latticeState (groupOf latticeState) slot) &&
      decide (x = latticeAt latticeState (groupOf latticeState) slot) && may x && regs.all (fun r => decide (r < 64)) = true) :
    LatticeHere latticeState (groupOf latticeState) slot may x regs := by
  simp only [Bool.and_eq_true, decide_eq_true_eq] at h
  have hn : (groupOf latticeState).nv = 64 := by decide +kernel
  exact ⟨h.1.1.1.1, h.1.1.1.2, h.1.1.2, h.1.2, fun r hr => by rw [hn]; simpa using List.all_eq_true.1 h.2 r hr⟩

/-- The corners of all lanes may be accessed, checked. -/
def cornersOk (c : Ctx) (x : Lattice) (a perms : Nat) (used : Corner → Bool) : Bool :=
  c.lanes.all (fun l => match x.cells (coords c x a l) with
    | none => true
    | some cells => !x.traps (x.feet cells) && (match x.corners (coords c x a l) with
      | none => true
      | some cs => (x.elements (cs.filter used)).all (fun e => (rangeFail c.g.dom.ranges perms e.2 (elemSize x.fmt)).isNone)))

theorem cornersGranted_of {c : Ctx} {x : Lattice} {a perms : Nat} {used : Corner → Bool} (h : cornersOk c x a perms used = true) :
    CornersGranted c x a perms used := by
  intro l hl cells hc
  have h1 := List.all_eq_true.1 h l hl
  rw [hc] at h1
  simp only [Bool.and_eq_true, Bool.not_eq_true'] at h1
  refine ⟨h1.1, fun cs hs e he => ?_⟩
  have h2 := h1.2
  rw [hs] at h2
  simpa using List.all_eq_true.1 h2 e he

def indicesOk (c : Ctx) (x : Lattice) (a perms : Nat) : Bool :=
  c.lanes.all (fun l => !x.indexTraps (indices c x a l) && (match x.place (indices c x a l) with
    | none => true
    | some idx => (List.range x.ch).all (fun ch => (rangeFail c.g.dom.ranges perms (x.address idx ch) (elemSize x.fmt)).isNone)))

theorem indicesGranted_of {c : Ctx} {x : Lattice} {a perms : Nat} (h : indicesOk c x a perms = true) : IndicesGranted c x a perms := by
  intro l hl
  have h1 := List.all_eq_true.1 h l hl
  simp only [Bool.and_eq_true, Bool.not_eq_true'] at h1
  refine ⟨h1.1, fun idx hi ch hc => ?_⟩
  have h2 := h1.2
  rw [hi] at h2
  simpa using List.all_eq_true.1 h2 ch (List.mem_range.2 hc)

/-- `ild` and `ildg`. -/
theorem witness_LatticeReads_real : ∀ grads ∈ [false, true],
    let dst := row 4 (if grads then lattice0.ch * (lattice0.dims + 1) else lattice0.ch)
    let n := latticeNeeds 0 0 4 8 lattice0 true [] dst false
    LatticeHere latticeState (groupOf latticeState) 0 (fun _ => true) lattice0 (row 8 lattice0.dims ++ dst) ∧
    MayIssue n latticeState 0 0 0 (groupOf latticeState) ∧ CornersGranted (ctx n latticeState) lattice0 8 (permL + permR) Corner.used := by
  intro grads hg
  simp only [List.mem_cons, List.not_mem_nil, or_false] at hg
  rcases hg with rfl | rfl <;>
    exact ⟨latticeHere _ _ _ _ (by decide +kernel), mayIssue_of_may (by decide +kernel), cornersGranted_of (by decide +kernel)⟩

/-- `ifetch`, `iwgt` and `icell`. -/
theorem witness_LatticeReads_index :
    (let n := latticeNeeds 0 0 4 8 lattice0 false [] (row 4 lattice0.ch) false
     LatticeHere latticeState (groupOf latticeState) 0 (fun _ => true) lattice0 (row 8 lattice0.dims ++ row 4 lattice0.ch) ∧
     MayIssue n latticeState 0 0 0 (groupOf latticeState) ∧ IndicesGranted (ctx n latticeState) lattice0 8 (permL + permR)) ∧
    (let dst := row 4 (2 * lattice0.positions * lattice0.dims)
     LatticeHere latticeState (groupOf latticeState) 0 (fun _ => true) lattice0 (row 8 lattice0.dims ++ dst) ∧
     MayIssue (latticeNeeds 0 0 4 8 lattice0 true [] dst false) latticeState 0 0 0 (groupOf latticeState)) ∧
    (let dst := row 4 (2 * lattice0.dims)
     LatticeHere latticeState (groupOf latticeState) 0 (fun _ => true) lattice0 (row 8 lattice0.dims ++ dst) ∧
     MayIssue (latticeNeeds 0 0 4 8 lattice0 true [] dst false) latticeState 0 0 0 (groupOf latticeState)) :=
  ⟨⟨latticeHere _ _ _ _ (by decide +kernel), mayIssue_of_may (by decide +kernel), indicesGranted_of (by decide +kernel)⟩,
    ⟨latticeHere _ _ _ _ (by decide +kernel), mayIssue_of_may (by decide +kernel)⟩,
    ⟨latticeHere _ _ _ _ (by decide +kernel), mayIssue_of_may (by decide +kernel)⟩⟩

/-- `ispl` into FP32 and into FX64 elements. -/
theorem witness_LatticeWrites_ispl : ∀ e ∈ [(0, lattice0), (1, lattice1)],
    LatticeHere latticeState (groupOf latticeState) e.1 splatOk e.2 (row 8 e.2.dims ++ row 4 e.2.ch) ∧
    MayIssue (latticeNeeds 0 0 4 8 e.2 true (row 4 e.2.ch) [] true) latticeState 0 0 0 (groupOf latticeState) ∧
    CornersGranted (ctx (latticeNeeds 0 0 4 8 e.2 true (row 4 e.2.ch) [] true) latticeState) e.2 8 (permL + permW)
      (fun k => nonzero32 k.w) := by
  intro e he
  simp only [List.mem_cons, List.not_mem_nil, or_false] at he
  rcases he with rfl | rfl <;>
    exact ⟨latticeHere _ _ _ _ (by decide +kernel), mayIssue_of_may (by decide +kernel), cornersGranted_of (by decide +kernel)⟩

/-- `isplg` and `istx`. -/
theorem witness_LatticeWrites :
    (let n := latticeNeeds 0 0 4 8 lattice0 true (row 4 (lattice0.ch * lattice0.dims)) [] true
     LatticeHere latticeState (groupOf latticeState) 0 splatOk lattice0 (row 8 lattice0.dims ++ row 4 (lattice0.ch * lattice0.dims)) ∧
     MayIssue n latticeState 0 0 0 (groupOf latticeState) ∧
     CornersGranted (ctx n latticeState) lattice0 8 (permL + permW) (fun k => k.g.any nonzero32)) ∧
    (let n := latticeNeeds 0 0 4 8 lattice0 false (row 4 lattice0.ch) [] false
     LatticeHere latticeState (groupOf latticeState) 0 (fun x => !x.ro) lattice0 (row 8 lattice0.dims ++ row 4 lattice0.ch) ∧
     MayIssue n latticeState 0 0 0 (groupOf latticeState) ∧ IndicesGranted (ctx n latticeState) lattice0 8 (permL + permW)) :=
  ⟨⟨latticeHere _ _ _ _ (by decide +kernel), mayIssue_of_may (by decide +kernel), cornersGranted_of (by decide +kernel)⟩,
    ⟨latticeHere _ _ _ _ (by decide +kernel), mayIssue_of_may (by decide +kernel), indicesGranted_of (by decide +kernel)⟩⟩

/-! Engine commands. -/

/-- A product-key descriptor of one key of four BF16 elements a half, one FP32 value, and its table in the interleaved region. -/
def pklBytes0 : List Byte :=
  toBytes 8 0x2000 ++ toBytes 8 0x2100 ++ [1, 0, 1, 0, 4, 0, 3, 1, 1, 2, 0, 0, 1, 0, 0, 0] ++ toBytes 4 0x3F800000 ++ toBytes 4 4096 ++
    toBytes 8 0x200000 ++ List.replicate 80 0

/-- The records of the commands from s8, a window of 16 KiB, an interleaved page at VA 2 MiB, a class without copies, and a communicator
of one device. -/
def commandRegs : List (Nat × Word) :=
  [(8, 0x1000), (9, 0), (10, 0), (11, 64), (12, 0), (13, 0), (14, 0x100), (15, 64), (16, 0), (17, 0x400), (18, 0x100020), (19, 0x800),
    (20, 0), (21, 0), (22, 0x10000), (23, 0), (24, 0), (25, 0), (26, 1), (27, 0), (28, 0), (29, 0), (30, 0), (31, 0),
    (32, 0), (33, 0), (34, 1), (35, 0), (36, 0), (37, 0x100000), (38, 0x20), (39, 0), (44, 0), (45, 0), (46, 0x100), (47, 1)]
def engineState : State :=
  let s := onGroup (fun g => sregs commandRegs { g with dom := { g.dom with ranges := [placedRange, (0x20003F, 0x0000000178000000)] } })
    (onRun (fun r => { r with pkl := [pklBytes0] }) windowState)
  { s with
    mem := writeBytes s.mem (2 ^ 22 + 2 ^ 21) (toBytes 8 (pointerPte (2 ^ 23)))
    classes := [(0, 0x0110FFFF)]
    comms := [(0, ⟨1, 0, [], []⟩)] }

def enters (s : State) (x : CommandRow) : Bool :=
  let c := ctx (x.needs (ctx {} s)) s
  may (x.needs (ctx {} s)) s && decide (x.conds c s = []) && decide (c.act ≠ 0) && decide (c.g.count x.flag < 63) &&
    (x.plan c s).granules.all (fun k => !getAt false (blockOf3 s).engine k)

def commandSamples : List Instr :=
  [.cpyG2s 0 0 1 4, .cpyS2g 0 0 1 4, .cpyS2s 0 0 1 6, .cpyCmp 0 0 1 4 8, .nbLd 0 0 1 10, .nbRun 0 0 1 4 12, .nbGet 0 0 1 14,
    .nbGetSum 0 0 1 14, .nbMode 0 0 1 16, .pkq 0 0 1 18, .pkqs 0 0 1 18, .pkb 0 0 1 18, .pkbq 0 0 1 18, .coll 0 0 11 22]

theorem witness_EngineCommands : ∀ i ∈ commandSamples, ∃ x, commandRow i = some x ∧
    MayIssue (x.needs (ctx {} engineState)) engineState 0 0 0 (groupOf engineState) ∧
    x.conds (ctx (x.needs (ctx {} engineState)) engineState) engineState = [] ∧
    MayEnter engineState (ctx (x.needs (ctx {} engineState)) engineState) x.flag
      (x.plan (ctx (x.needs (ctx {} engineState)) engineState) engineState) (blockOf3 engineState) :=
  witness_all (enters engineState) (fun x h => by
    simp only [enters, Bool.and_eq_true, decide_eq_true_eq] at h
    obtain ⟨⟨⟨⟨h1, h2⟩, h3⟩, h4⟩, h5⟩ := h
    have h9 : ∀ k ∈ (x.plan (ctx (x.needs (ctx {} engineState)) engineState) engineState).granules,
        getAt false (blockOf3 engineState).engine k = false := fun k hk => by simpa using List.all_eq_true.1 h5 k hk
    exact ⟨mayIssue_of_may h1, h2, h3, h4, h9⟩) (by decide +kernel)

theorem witness_EngineCommands_block : (groupOf engineState).block = some 3 ∧ blockAt engineState 3 = some (blockOf3 engineState) := by
  decide +kernel

/-- With no active lane. -/
theorem witness_EngineCommands_none : ∃ x, commandRow (.cpyG2s 0 2 1 4) = some x ∧
    MayIssue (x.needs (ctx {} engineState)) engineState 0 0 0 (groupOf engineState) ∧
    (ctx (x.needs (ctx {} engineState)) engineState).act = 0 :=
  ⟨_, rfl, mayIssue_of_may (by decide +kernel), by decide +kernel⟩

/-- The copy of 64 bytes from VA 0x1000 into window 0. -/
theorem witness_EngineCommands_copy :
    let c := ctx (commandNeed 0 0 4 [] [] false) engineState
    (c.s (2 * 4 + 1)).toNat < 2 ^ 16 ∧ 4 ≤ (c.s (2 * 4 + 3)).toNat ∧ (c.s (2 * 4 + 3)).toNat ≤ 458752 ∧
    (c.s (2 * 4 + 2)).toNat / 16 * 16 + (c.s (2 * 4 + 3)).toNat ≤ (windowAt engineState c.g ((c.s (2 * 4 + 2)).toNat % 16) c.dt).2 ∧
    rangeFail c.g.dom.ranges permR ((c.s (2 * 4)).toNat) ((c.s (2 * 4 + 3)).toNat) = none ∧
    hostAddress engineState ((partOfCore engineState c.core).getD 0) c.g.dom.id (c.s (2 * 4)).toNat (c.s (2 * 4 + 3)).toNat = none ∧
    ∀ i < (c.s (2 * 4 + 3)).toNat / 4, engineRead engineState c.asker ((partOfCore engineState c.core).getD 0) c.g.dom permR
      ((c.s (2 * 4)).toNat + 4 * i) 4 = .value 0 := by decide +kernel

end Sys2Proof.Tests
end

