-- ==== Sys2Proof/Tests/WitnessStreams.lean ====
section
/-! SUPPORT. Witnesses for the statements about the sequencer and near-bank streams. -/

namespace Sys2Proof.Tests

set_option Elab.async false

open Sys2Proof.Machine Sys2Proof.Safety

/-! The sequencer. -/

/-- Context 0 of core 0 with its turn: a bobbin stack of 64 KiB at VA 0x10000 with 32 KiB on it, addresses in m2:m3, m4:m5, m6:m7, and a
record of zeros but for its format at 0x1000. -/
def tiled (x : SeqCtx) : SeqCtx :=
  { x with m := [(2, 0x4000), (4, 0x6000), (6, 0x1000), (8, 64), (10, 128), (11, 1)], bcell := 0x8000, bbase := 0x10000, bptr := 0x18000, blimit := 0x20000 }
def seqState : State :=
  let s := onBlock (fun b => { b with windows := [(0, ⟨0, 8192, []⟩)] }) (onSeq tiled base)
  { s with cur := .seq 0 0, mem := writeBytes s.mem (2 ^ 24 + 0x1000) (toBytes 64 (0x4000 + 256 * 2 ^ 64 + 2 * 2 ^ 256)) }
def viewOf (s : State) : SeqView := (seqView s 0 0).getD ⟨0, 0, newSeq 0 0 0 [] 0, blockOf3 s, 0, 0, ⟨0, [], 0, 0⟩⟩

theorem seqReady (s : State)
    (h : (decide (s.cur = .seq 0 0) && !dieStopped s (dieOfCore 0) && decide (seqView s 0 0 = some (viewOf s)) && (viewOf s).x.started &&
    !(viewOf s).x.halted && (viewOf s).b.seqFault.isNone && decide ((viewOf s).b.preempt = .none) &&
    !(coreAt s 0).portUsed.contains 8) = true) : SeqReady s 0 0 (viewOf s) := by
  simp only [Bool.and_eq_true, decide_eq_true_eq, Bool.not_eq_true', Option.isNone_iff_eq_none] at h
  obtain ⟨⟨⟨⟨⟨⟨⟨h1, h0⟩, h2⟩, h3⟩, h4⟩, h5⟩, h6⟩, h7⟩ := h
  exact ⟨h1, h0, h2, h3, h4, h5, (fun t l w => by rw [h6]; exact fun h => nomatch h), by simpa using h7⟩

theorem ready0 : SeqReady seqState 0 0 (viewOf seqState) := seqReady _ (by decide +kernel)

def got : EngineRead → Bool
  | .value _ => true
  | _ => false
theorem value_of_got {e : EngineRead} (h : got e = true) : ∃ n, e = .value n := by
  cases e <;> first | exact ⟨_, rfl⟩ | cases h

/-- The registers, the branches, and the configuration are ready in that state. -/
theorem witness_SequencerRegisters : ∀ i ∈ [Instr.mnop, .mset 1 5, .msetH 1 5, .madd 1 2 3, .maddImm 1 2 3, .maddW 2 4 6, .maddWImm 2 4 3,
    .mbnz 1 true 4, .mjmp 4], ∃ x, seqRow i = some x ∧ SeqReady seqState 0 0 (viewOf seqState) :=
  witness_all (fun (_ : SeqRow) => true) (fun _ _ => ready0) rfl

theorem witness_SequencerConfig : UnitOk (viewOf seqState) 0 ∧ ¬ UnitOk (viewOf seqState) 5 := by
  exact ⟨⟨by decide +kernel, by decide +kernel⟩, fun h => absurd h.2 (by decide +kernel)⟩

def fetchesOk (v : SeqView) (s : State) (z : TileSource) : Bool :=
  z.pieces.all (fun p => !v.pieceBad s z.win permR p) &&
  decide ((distinct (v.x.pins.map Prod.fst ++ (if z.win.isSome then [] else v.lines z.pieces))).length ≤ 64) &&
  z.rows.all (fun i => decide (i < 64) && got (z.bytes i)) && (match z.scale with
    | some f => z.rows.all (fun i => got (f i))
    | none => true)

theorem fetches_of {v : SeqView} {s : State} {z : TileSource} (h : fetchesOk v s z = true) : Fetches v s z := by
  simp only [fetchesOk, Bool.and_eq_true, decide_eq_true_eq] at h
  obtain ⟨⟨⟨h1, h2⟩, h4⟩, h5⟩ := h
  refine ⟨fun p hp => by simpa using List.all_eq_true.1 h1 p hp, (fun _ => h2), fun i hi => ?_, fun f hf i hi => ?_⟩
  · have h6 := List.all_eq_true.1 h4 i hi
    simp only [Bool.and_eq_true, decide_eq_true_eq] at h6
    exact ⟨h6.1, value_of_got h6.2⟩
  · rw [hf] at h5
    exact value_of_got (List.all_eq_true.1 h5 i hi)

theorem unscaled (a : Nat) (x : Bool) : scaleBaseOf (viewOf seqState) a x = none := by
  have h : tcfgScaled (viewOf seqState).x.tcfg = false := by decide +kernel
  simp [scaleBaseOf, h]

theorem noScale (a : Nat) (x : Bool) : ∀ e, scaleBaseOf (viewOf seqState) a x = some e → e.2 = true := by
  intro e he
  rw [unscaled] at he
  cases he

/-- `tld` of all 64 rows, from memory and from a window, and in planes; and a source that is not aligned. -/
theorem witness_TileFetches_tld :
    (TldAligned (viewOf seqState) 2 false 8 false ∧
        Fetches (viewOf seqState) seqState (tldSource (viewOf seqState) seqState 2 false 0 8 63 false)) ∧
    (TldAligned (viewOf seqState) 0 true 8 false ∧
        Fetches (viewOf seqState) seqState (tldSource (viewOf seqState) seqState 0 true 0 8 63 false)) ∧
    (TldAligned (viewOf seqState) 2 false 8 true ∧
        Fetches (viewOf seqState) seqState (tldSource (viewOf seqState) seqState 2 false 0 8 63 true)) ∧
    ¬ TldAligned (viewOf seqState) 2 false 11 false :=
  ⟨⟨⟨by decide +kernel, noScale _ _⟩, fetches_of (by decide +kernel)⟩, ⟨⟨by decide +kernel, noScale _ _⟩, fetches_of (by decide +kernel)⟩,
    ⟨⟨by decide +kernel, noScale _ _⟩, fetches_of (by decide +kernel)⟩, fun h => absurd h.1 (by decide +kernel)⟩

/-- `tldt` of 8-bit elements, and a source that is not aligned. -/
theorem witness_TileFetches_tldt :
    (TldtAligned (viewOf seqState) 0 true 8 0 ∧ Fetches (viewOf seqState) seqState (tldtSource (viewOf seqState) seqState 0 true 0 8 0)) ∧
    ¬ TldtAligned (viewOf seqState) 2 false 11 0 :=
  ⟨⟨⟨by decide +kernel, by decide +kernel, noScale _ _⟩, fetches_of (by decide +kernel)⟩, fun h => absurd h.2.1 (by decide +kernel)⟩

theorem clean0 (k : Nat) : getAt false (viewOf seqState).x.tilePoison k = false := by
  have h : (viewOf seqState).x.tilePoison = [] := by decide +kernel
  rw [h]; rfl
theorem accClean (k : Nat) : getAt false (viewOf seqState).x.accPoison k = false := by
  have h : (viewOf seqState).x.accPoison = [] := by decide +kernel
  rw [h]; rfl
theorem unit0 : UnitOk (viewOf seqState) 0 := witness_SequencerConfig.1

theorem witness_MatrixSteps_mma : Operands (viewOf seqState) 0 0 1 :=
  ⟨unit0, fun h => absurd h (by decide +kernel), fun _ _ => clean0 _, fun _ _ => clean0 _, fun k _ => accClean k⟩

def number (e : EngineRead) : Nat :=
  match e with
  | .value n => n
  | _ => 0
theorem number_eq {e : EngineRead} (h : got e = true) : e = .value (number e) := by
  cases e <;> first | rfl | cases h

/-- `mmam` of no steps (m12) and of its first step of 64 (m8). -/
theorem witness_MatrixSteps_mmam : PanelOk (viewOf seqState) 0 2 4 ∧ ((viewOf seqState).m 12).toNat = 0 ∧
    panelStep (viewOf seqState) ((viewOf seqState).m 8).toNat < ((viewOf seqState).m 8).toNat ∧
    PanelReads (viewOf seqState) seqState 0 2 4 ((viewOf seqState).m 8).toNat (panelStep (viewOf seqState) ((viewOf seqState).m 8).toNat)
      (fun i => number ((viewOf seqState).read seqState none (0x4000 + i * 64) 64))
      (fun j => number ((viewOf seqState).read seqState none (0x6000 + j * 64) 64)) := by
  refine ⟨⟨unit0, by decide +kernel, by decide +kernel, by decide +kernel⟩, by decide +kernel, by decide +kernel,
    ⟨fun _ => by decide +kernel, fun _ => by decide +kernel, by decide +kernel, fun _ e _ => accClean e, fun i hi => ?_, fun j hj => ?_⟩⟩
  · have hm : tcfgMt (viewOf seqState).x.tcfg = 16 := by decide +kernel
    have h : (List.range 16).all (fun i => got ((viewOf seqState).read seqState none (0x4000 + i * 64) 64)) = true := by decide +kernel
    rw [hm] at hi
    have e : pairOf (viewOf seqState) 2 + panelStep (viewOf seqState)
        ((viewOf seqState).m 8).toNat * tcfgMt (viewOf seqState).x.tcfg * 64 = 0x4000 := by
      decide +kernel
    rw [e]
    exact number_eq (List.all_eq_true.1 h i (List.mem_range.2 hi))
  · have h : (List.range 64).all (fun i => got ((viewOf seqState).read seqState none (0x6000 + i * 64) 64)) = true := by decide +kernel
    have e : pairOf (viewOf seqState) 4 + panelStep (viewOf seqState) ((viewOf seqState).m 8).toNat * 4096 = 0x6000 := by decide +kernel
    rw [e]
    exact number_eq (List.all_eq_true.1 h j (List.mem_range.2 hj))

theorem witness_BobbinStack_push : PushOk (viewOf seqState) (entryBytes (viewOf seqState)) ∧
    ∀ j < 64, getAt false (viewOf seqState).x.tilePoison ((1 : Fin 8).val * 64 + j) = false :=
  ⟨⟨by decide +kernel, by decide +kernel, by decide +kernel, by decide +kernel⟩, fun _ _ => clean0 _⟩

theorem witness_BobbinStack_pop : ∃ z, popRow (viewOf seqState) seqState (.bpop 1) = some (1, z) ∧
    PopOk (viewOf seqState) (entryBytes (viewOf seqState)) ∧ Fetches (viewOf seqState) seqState z :=
  ⟨_, rfl, ⟨by decide +kernel, by decide +kernel, by decide +kernel, by decide +kernel⟩, fetches_of (by decide +kernel)⟩

/-- `bpop.t` of 4-bit elements is fetched from 128 source rows; the check looks at the reads of rows 0 and 63, which are those of all. -/
theorem witness_BobbinStack_popT : ∃ z, popRow (viewOf seqState) seqState (.bpopT 1 1) = some (1, z) ∧
    PopOk (viewOf seqState) (entryBytes (viewOf seqState)) ∧ z.rows = List.range 64 ∧ got (z.bytes 0) = true ∧ got (z.bytes 63) = true :=
  ⟨_, rfl, ⟨by decide +kernel, by decide +kernel, by decide +kernel, by decide +kernel⟩, rfl, by decide +kernel, by decide +kernel⟩

def record0 : List Byte := toBytes 64 (0x4000 + 256 * 2 ^ 64 + 2 * 2 ^ 256)

theorem recordRead0 : RecordRead (viewOf seqState) seqState 0 6 record0 :=
  ⟨unit0, by decide +kernel, by decide +kernel,
    0x4000 + 256 * 2 ^ 64 + 2 * 2 ^ 256, by decide +kernel, rfl⟩

/-- `mdrain` of FP32 elements to VA 0x4000 and on, without a table or vectors. -/
theorem witness_DrainResults_mdrain : RecordRead (viewOf seqState) seqState 0 6 record0 ∧
    Drains (viewOf seqState) seqState 0 record0 (DrainRec.ofBytes record0) := by
  have hs : (DrainRec.ofBytes record0).scale = 0 := by decide +kernel
  have hb : (DrainRec.ofBytes record0).bias = 0 := by decide +kernel
  have ha : (DrainRec.ofBytes record0).apply = false := by decide +kernel
  refine ⟨recordRead0, rfl, by decide +kernel, fun k _ => accClean k, by simp [tableBad, ha], fun i _ j _ => ?_⟩
  simp [outElem, preElem, columnRead, hs, hb, ha]

/-- `mupd` by rule 0, and with integer accumulators. -/
def intSeqState : State := onSeq (fun x => { x with tcfg := 0x00000008 }) seqState

theorem witness_DrainResults_mupd : tcfgInt (viewOf seqState).x.tcfg = false ∧ RecordRead (viewOf seqState) seqState 0 6 record0 ∧
    updateBad (viewOf seqState) seqState record0 = false ∧ (UpdateRec.ofBytes record0).tiles = [0x4000] ∧
    (List.range 16).all (fun i => (List.range 64).all (fun j => decide ((viewOf seqState).read seqState none (0x4000 + i * 256 + 4 * j) 4 =
      .value ((0 : Word)).toNat))) = true ∧
    SeqReady intSeqState 0 0 (viewOf intSeqState) ∧ tcfgInt (viewOf intSeqState).x.tcfg = true :=
  ⟨by decide +kernel, recordRead0, by decide +kernel, by decide +kernel, by decide +kernel, seqReady _ (by decide +kernel),
      by decide +kernel⟩

/-- Barrier 2 of the mask, before the arrival, after it in the same phase, and after the phase has ended; without a time-out. -/
def barSeqState (last : Option Nat) (phase : Nat) : State :=
  onBlock (fun b => { b with bars := [(2, ⟨phase, 0, false⟩)] })
    (onSeq (fun x => { x with bmask := 4, barLast := [(2, last)] }) { seqState with parts := setAt seqState.parts 0 { partAt seqState 0 with watchctl := 0 } })

theorem witness_SequencerBarriers_arrive : SeqReady (barSeqState none 0) 0 0 (viewOf (barSeqState none 0)) ∧
    (viewOf (barSeqState none 0)).x.bmask.getLsbD 2 = true ∧ NoErrors (viewOf (barSeqState none 0)) ∧
    (getAt Barrier.none (viewOf (barSeqState none 0)).b.bars 2).seq = false :=
  ⟨seqReady _ (by decide +kernel), by decide +kernel, ⟨by decide +kernel, by decide +kernel⟩, by decide +kernel⟩

theorem witness_SequencerBarriers_wait :
    (SeqReady (barSeqState (some 0) 1) 0 0 (viewOf (barSeqState (some 0) 1)) ∧
      (viewOf (barSeqState (some 0) 1)).x.bmask.getLsbD 2 = true ∧
      ∀ p, awaited (viewOf (barSeqState (some 0) 1)) 2 = some p →
          p < (getAt Barrier.none (viewOf (barSeqState (some 0) 1)).b.bars 2).phase) ∧
    (SeqReady (barSeqState (some 0) 0) 0 0 (viewOf (barSeqState (some 0) 0)) ∧
      (∀ p, awaited (viewOf (barSeqState (some 0) 0)) 2 = some p →
          (getAt Barrier.none (viewOf (barSeqState (some 0) 0)).b.bars 2).phase ≤ p) ∧
      (partAt (barSeqState (some 0) 0) (viewOf (barSeqState (some 0) 0)).part).barto = 0) := by
  refine ⟨⟨seqReady _ (by decide +kernel), by decide +kernel, fun p hp => ?_⟩, seqReady _ (by decide +kernel), fun p hp => ?_,
      by decide +kernel⟩
  · have h : awaited (viewOf (barSeqState (some 0) 1)) 2 = some 0 := by decide +kernel
    rw [h] at hp; cases hp; decide +kernel
  · have h : awaited (viewOf (barSeqState (some 0) 0)) 2 = some 0 := by decide +kernel
    rw [h] at hp; cases hp; decide +kernel

/-- `mhalt` without a cell, and with the cell at 0x8000. -/
def cellState : State := onSeq (fun x => { x with bcell := 0 }) seqState
theorem witness_SequencerBarriers_halt :
    (SeqReady cellState 0 0 (viewOf cellState) ∧ NoErrors (viewOf cellState) ∧ (viewOf cellState).x.bcell = 0 ∧
      writesOut cellState (viewOf cellState).x.block (cellState.nextId + 1) = false ∧
      Block.liveSlots cellState (viewOf cellState).x.block (viewOf cellState).b ≠ []) ∧
    (NoErrors (viewOf seqState) ∧ (viewOf seqState).x.haltWait = false ∧ (viewOf seqState).x.bcell ≠ 0 ∧ (viewOf seqState).x.bcell % 8 = 0 ∧
      rangeFail (viewOf seqState).dom.ranges permW (viewOf seqState).x.bcell 8 = none) :=
  ⟨⟨seqReady _ (by decide +kernel), ⟨by decide +kernel, by decide +kernel⟩, by decide +kernel, by decide +kernel, by decide +kernel⟩,
    ⟨by decide +kernel, by decide +kernel⟩, by decide +kernel, by decide +kernel, by decide +kernel, by decide +kernel⟩

/-! The near-bank units. -/

/-- Bank 0 with its turn in an open row, with a mask stack and a condition. -/
def unitState (masks : List (BitVec 8)) (cond : BitVec 8) (left : Nat) : State :=
  let s := placedUnit (placedMachine State.reset []) 0x6000003F
  setNbu { s with cur := .nbu 0 } 0 { nbuAt s 0 with masks := masks, cond := cond, left := left }
def runOfUnit (s : State) : RunView := (runView s (nbuAt s 0)).getD ⟨0, ⟨0, 0, 0, 0, 0, [], 0, [], ⟨0, [], 0, 0⟩, false, 0, 0,
    .nbRun [] [] 0 0 false [] 0, none, none, [], none⟩, 0, 0, false⟩

theorem nbuReady (s : State) (column closing : Bool) (reads : List Nat) (h : (decide (s.cur = .nbu 0) &&
    decide (runView s (nbuAt s 0) = some (runOfUnit s)) && !(nbuAt s 0).suspended && inCompute s 0 0 && (nbuAt s 0).lastTick.isNone &&
    (nbuAt s 0).lastRead.isNone && decide ((nbuAt s 0).pathFree ≤ s.dt) && (nbuAt s 0).visit.isNone) = true) :
    NbuReady s 0 column closing reads (runOfUnit s) := by
  simp only [Bool.and_eq_true, decide_eq_true_eq, Bool.not_eq_true', Option.isNone_iff_eq_none] at h
  obtain ⟨⟨⟨⟨⟨⟨⟨h1, h2⟩, h3⟩, h4⟩, h5⟩, h6⟩, h7⟩, h8⟩ := h
  exact ⟨h1, h2, h3, h4, (by rw [h5]; simp), (fun c t hc => by rw [h6] at hc; cases hc), fun _ => h7,
      fun t ht => by rw [h8] at ht; cases ht⟩

theorem witness_NearBankLanes : ∀ i ∈ [Instr.nbuIalu .iadd 0 1 2, .nbuLogic .shr 0 1 2, .nbuFalu .fmul 0 0 13, .nbuFfma 0 1 2 3,
    .nbuMovi true 0 5, .nsum 11 1 true], ∃ x, nbuRow i = some x ∧ x.d < 12 ∧
    NbuReady (unitState [0x0F] 3 2) 0 false false x.reads (runOfUnit (unitState [0x0F] 3 2)) :=
  witness_all (fun (x : NbuRow) => decide (x.d < 12)) (fun x h => ⟨by simpa using h, nbuReady _ _ _ _ (by decide +kernel)⟩)
      (by decide +kernel)

theorem witness_NearBankColumns : NbuReady (unitState [] 0 2) 0 true false [1] (runOfUnit (unitState [] 0 2)) ∧
    (nbuAt (unitState [] 0 2) 0).openRow = some (2 ^ 24) ∧
    poisonedAt (unitState [] 0 2) (columnKey 0 (2 ^ 24) (column (nbuAt (unitState [] 0 2) 0) 1 31 true)) 32 = false :=
  ⟨nbuReady _ _ _ _ (by decide +kernel), by decide +kernel, by decide +kernel⟩

/-- With rows left and at the last, with lane 0's condition true and false. -/
theorem witness_NearBankRows : ∀ left ∈ [1, 2], ∀ cond ∈ [(0 : BitVec 8), 1],
    NbuReady (unitState [] cond left) 0 false true [] (runOfUnit (unitState [] cond left)) ∧
    (nbuAt (unitState [] cond left) 0).openRow = some (2 ^ 24) ∧ (nbuAt (unitState [] cond left) 0).left = left ∧
    (nbuAt (unitState [] cond left) 0).cond = cond := by
  intro left hl cond hc
  simp only [List.mem_cons, List.not_mem_nil, or_false] at hl hc
  rcases hl with rfl | rfl <;> rcases hc with rfl | rfl <;>
    exact ⟨nbuReady _ _ _ _ (by decide +kernel), by decide +kernel, by decide +kernel, by decide +kernel⟩

/-- With no entry, with one, and with four. -/
theorem witness_MaskStack : ∀ ms ∈ [[], [(0x0F : BitVec 8)], [1, 3, 7, 0x0F]],
    NbuReady (unitState ms 5 2) 0 false false [] (runOfUnit (unitState ms 5 2)) ∧ (nbuAt (unitState ms 5 2) 0).masks = ms := by
  intro ms hm
  simp only [List.mem_cons, List.not_mem_nil, or_false] at hm
  rcases hm with rfl | rfl | rfl <;> exact ⟨nbuReady _ _ _ _ (by decide +kernel), by decide +kernel⟩

end Sys2Proof.Tests
end

