-- ==== Sys2Proof/Tests/WitnessAccess.lean ====
section
/-! SUPPORT. Witnesses for the statements about answers, requests at home, waits that end, and engine commands that complete. -/

namespace Sys2Proof.Tests

set_option Elab.async false

open Sys2Proof.Machine Sys2Proof.Safety

/-- A rule of a table of events holds in a state in which an event has its turn. -/
def Happens (R : Instr → State → (State → Prop) → Prop) (i : Instr) (s : State) : Prop := s.cur = .outside ∧ ∃ Q, R i s Q

/-- The small machine at tick 8 with an event's turn. Its group has number 4, its block 3, its run 2 and its launch 1. -/
def quiet : State := { base with cur := .outside, dt := 8, nextId := 10 }

theorem resident (s : State) (h : (decide (findGroup s 4 = some (.resident 0 0)) && decide (groupAt s 0 0 = some (groupOf s)) &&
    decide ((groupOf s).stop = .running)) = true) : Resident s 4 0 0 (groupOf s) := by
  simp only [Bool.and_eq_true, decide_eq_true_eq] at h
  exact ⟨h.1.1, h.1.2, h.2⟩

/-! Answers. -/

def src0 : Src := .group 0 0 4 0
def replyState (k : ReplyKind) (time err : Option Nat) : State := { quiet with replies := [(9, ⟨src0, 1, k, time, err, none⟩)] }
theorem straight (s : State) : Arriving s none := fun _ h => nomatch h

theorem witness_Landing_lanes : Happens Landing (.loadReply 9) (replyState (.lanes [(4, 0, 5), (4, 1, 6), (5, 31, 7)] 0) none none) :=
  ⟨rfl, _, .lanes rfl (straight _) (resident _ (by decide +kernel)) (by decide)⟩
theorem witness_Landing_uniform : Happens Landing (.loadReply 9) (replyState (.uniform 4 5) none none) :=
  ⟨rfl, _, .uniform rfl (straight _) (resident _ (by decide +kernel))⟩
theorem witness_Landing_ack : Happens Landing (.writeAck 9) (replyState .ack (some 7) none) :=
  ⟨rfl, _, .ack rfl (straight _) (resident _ (by decide +kernel))⟩
theorem witness_Landing_poisons : Happens Landing (.errorResponse 9) (replyState (.lanes [(4, 0, 0), (4, 31, 0)] 0) none (some 0x4000)) :=
  ⟨rfl, _, .poisons rfl (straight _) (resident _ (by decide +kernel)) (by decide)⟩
theorem witness_Landing_storeError : Happens Landing (.errorResponse 9) (replyState .ack (some 0) (some 0x4000)) :=
  ⟨rfl, _, .storeError rfl (straight _) (resident _ (by decide +kernel))⟩
theorem witness_Landing_atomicError : Happens Landing (.errorResponse 9) (replyState (.lanes [(4, 31, 0)] 0) (some 0) (some 0x4000)) :=
  ⟨rfl, _, .atomicError rfl (straight _) (resident _ (by decide +kernel)) (by decide) (by decide +kernel)⟩

/-! Requests at home. -/

def req0 (va size : Nat) (kind : ReqKind) (state : ReqState) : Req := ⟨src0, 1, 0, 0, 0, va, va, size, 0, 0, kind, state⟩
def netState (r : Req) : State := { quiet with net := [(9, r)] }

/-- The parts of the place that an address translates to. -/
def placed (s : State) (r : Req) : Nat × Nat × Nat × Nat × Nat :=
  match homePlace s r.part r.dom r.ia with
  | .at a b c d e => (a, b, c, d, e)
  | _ => (0, 0, 0, 0, 0)

def comes0 (s : State) (n : Nat) (r : Req) : Bool := decide (lookupAt s.net n = some r) && decide (n < s.nextId) && r.coming &&
    decide (r.size ≠ 0) &&
  !r.src.isOrphan && !orderBlocks s n r && !linkClosed s (r.homeDie s) (r.coreDie s) && !linkClosed s (r.stackDie s) (r.homeDie s) &&
  !reducing s r.part r.ia && decide (r.gen = (partAt s r.part).gen)

theorem comes {s : State} {n : Nat} {r : Req} (h : comes0 s n r = true) : Comes s n r := by
  simp only [comes0, Bool.and_eq_true, decide_eq_true_eq, Bool.not_eq_true'] at h
  obtain ⟨⟨⟨⟨⟨⟨⟨⟨⟨h1, h2⟩, h3⟩, h4⟩, h5⟩, h6⟩, h7⟩, h8⟩, h9⟩, h10⟩ := h
  exact ⟨h1, h2, h3, h4, h5, h6, h7, fun _ => h8, h9, fun _ => h10⟩

def finds0 (s : State) (n : Nat) (r : Req) : Bool := comes0 s n r &&
  decide (homePlace s r.part r.dom r.ia = .at (placed s r).1 (placed s r).2.1 (placed s r).2.2.1 (placed s r).2.2.2.1 (placed s r).2.2.2.2) &&
  !parkBlocks s r && !runHolds s n r.src.core r.part r.ia (bankOf (placed s r).1 (placed s r).2.1) r.kind.isWrite (r.readers s) &&
      !readHolds s n r &&
  !r.src.baseLogic

theorem finds {s : State} {n : Nat} {r : Req} (h : finds0 s n r = true) :
    Finds s n r (placed s r).1 (placed s r).2.1 (placed s r).2.2.1 (placed s r).2.2.2.1 (placed s r).2.2.2.2 := by
  simp only [finds0, Bool.and_eq_true, decide_eq_true_eq, Bool.not_eq_true'] at h
  obtain ⟨⟨⟨⟨⟨h1, h2⟩, h3⟩, h4⟩, h5⟩, h6⟩ := h
  exact { toComes := comes h1, place := h2, parks := h3, runs := h4, reads := h5, core := h6 }

def here0 (s : State) (n : Nat) (r : Req) : Bool := finds0 s n r && !ownQueued s n r &&
  !linkClosed s (dieOfStack (placed s r).1) (r.homeDie s) && !linkClosed s (r.homeDie s) (dieOfStack (placed s r).1) &&
  !governed s (bankOf (placed s r).1 (placed s r).2.1) && !queued s (bankOf (placed s r).1 (placed s r).2.1) &&
  !isUnsync s (.slice (homeSlice (partAt s r.part) r.ia))

theorem atHome (s : State) (n : Nat) (r : Req) (h : here0 s n r = true) :
    AtHome s n r (placed s r).1 (placed s r).2.1 (placed s r).2.2.1 (placed s r).2.2.2.1 (placed s r).2.2.2.2 := by
  simp only [here0, Bool.and_eq_true, Bool.not_eq_true'] at h
  obtain ⟨⟨⟨⟨⟨⟨h1, h2⟩, h3⟩, h4⟩, h5⟩, h6⟩, h7⟩ := h
  exact { toFinds := finds h1, hit := fun _ => h2, miss := fun _ => ⟨h3, h4, h5, h6⟩, sync := h7 }

theorem witness_Reaching_store : Happens Reaching (.homeRequest 9 false) (netState (req0 0x4000 4 (.store 5 255) .inFlight)) :=
  ⟨rfl, _, .store (atHome _ 9 (req0 0x4000 4 (.store 5 255) .inFlight) (by decide +kernel)) rfl⟩
theorem witness_Reaching_load : Happens Reaching (.homeRequest 9 false) (netState (req0 0x4000 4 (.load [4] 0 .word false) .inFlight)) :=
  ⟨rfl, _, .load (atHome _ 9 (req0 0x4000 4 (.load [4] 0 .word false) .inFlight) (by decide +kernel)) rfl (by decide +kernel)⟩
theorem witness_Reaching_corner : Happens Reaching (.homeRequest 9 false) (netState (req0 0x4000 4 (.corner 3 0) .inFlight)) :=
  ⟨rfl, _, .corner (atHome _ 9 (req0 0x4000 4 (.corner 3 0) .inFlight) (by decide +kernel)) rfl (by decide +kernel)⟩
theorem witness_Reaching_atomic : Happens Reaching (.homeRequest 9 false) (netState (req0 0x4000 4 (.atom .add 1 0 4 0) .inFlight)) :=
  ⟨rfl, _, .atomic (atHome _ 9 (req0 0x4000 4 (.atom .add 1 0 4 0) .inFlight) (by decide +kernel)) rfl rfl (by decide +kernel)⟩
theorem witness_Reaching_reduction : Happens Reaching (.homeRequest 9 false) (netState (req0 0x4000 4 (.red .add 1 false) .inFlight)) :=
  ⟨rfl, _, .reduction (atHome _ 9 (req0 0x4000 4 (.red .add 1 false) .inFlight) (by decide +kernel)) rfl (by decide +kernel)⟩
theorem witness_Reaching_forwarded : Happens Reaching (.homeRequest 9 false) (netState (req0 0x4000 4 (.red .add 1 true) .inFlight)) :=
  ⟨rfl, _, .forwarded (finds (s := netState (req0 0x4000 4 (.red .add 1 true) .inFlight)) (n := 9)
      (r := req0 0x4000 4 (.red .add 1 true) .inFlight)
    (by decide +kernel)) rfl (fun _ => by decide +kernel) (by decide +kernel)⟩

/-- Another request is in the queue of the bank; and the same request has come to its turn there. -/
def bankRequest (order : Nat) : Req := req0 0x4000 4 (.store 5 255) (.atBank (bankOf 0 (2 ^ 24 + 0x4000)) order (2 ^ 24 + 0x4000) 0 0)
def waitingState : State := { quiet with net := [(7, bankRequest 3), (9, req0 0x4080 4 (.store 5 255) .inFlight)] }
theorem witness_Reaching_queued : Happens Reaching (.homeRequest 9 false) waitingState :=
  ⟨rfl, _, .queued (finds (s := waitingState) (n := 9) (r := req0 0x4080 4 (.store 5 255) .inFlight) (by decide +kernel)) rfl
    (fun h => nomatch h) (by unfold Misses; decide +kernel) (by decide +kernel) (.inr (by decide +kernel))⟩
theorem witness_Reaching_banked : Happens Reaching (.homeRequest 7 false) waitingState :=
  ⟨rfl, _, .banked (r := bankRequest 3) (by decide +kernel) rfl rfl rfl (by decide +kernel) (by decide +kernel) (by decide +kernel)
    (by decide +kernel)⟩

/-- The same with the entry of the page not present, and without an entry. -/
def withEntry (e : Nat) (s : State) : State := { s with mem := writeBytes s.mem (2 ^ 23) (toBytes 8 e) }
def hidden (s : State) : State := withEntry (leafPte (2 ^ 24) 0 - 2) s

theorem witness_Reaching_parks : Happens Reaching (.homeRequest 9 false)
    (hidden (netState (req0 0x4000 4 (.store 5 255) .inFlight))) :=
  ⟨rfl, _, .parks (r := req0 0x4000 4 (.store 5 255) .inFlight) (comes (by decide +kernel)) rfl (by decide +kernel)⟩
theorem witness_Reaching_refused : Happens Reaching (.homeRequest 9 false)
    (withEntry 0 (netState (req0 0x4000 4 (.load [4] 0 .word false) .inFlight))) :=
  ⟨rfl, _, .refused (r := req0 0x4000 4 (.load [4] 0 .word false) .inFlight) (k := 2) (comes (by decide +kernel)) rfl (by decide +kernel)⟩
theorem witness_Reaching_again : Happens Reaching (.rehashResponse 9) (netState (req0 0x4000 4 (.store 5 255) .rehash)) :=
  ⟨rfl, _, .again (r := req0 0x4000 4 (.store 5 255) .rehash) rfl rfl (by decide +kernel)⟩

def stackRequest : Req := req0 0x4000 4 (.red .addf 1 true) (.atStack (bankOf 0 (2 ^ 24 + 0x4000)) 1 (2 ^ 24 + 0x4000))
theorem witness_Reaching_nearMemory : Happens Reaching (.nmReduction 0) (netState stackRequest) :=
  ⟨rfl, _, .nearMemory (n := 9) (r := stackRequest) (by decide +kernel) rfl rfl rfl (by decide +kernel) (by decide +kernel)
      (by decide +kernel)
    (by decide +kernel)⟩

/-- The partition has two dies, and the home of the line at 0x4800 is on the other; the links are closed. -/
def twoDies (s : State) : State := { s with parts := setAt s.parts 0 { partAt s 0 with dies := [0, 1] } }
def farReq : Req := req0 0x4800 4 (.store 5 255) .inFlight
def nearReq : Req := req0 0x4000 4 (.store 5 255) .inFlight

theorem witness_Reaching_overdue : Happens Reaching (.requestTimeout 9) { twoDies (netState farReq) with dt := 65536 } :=
  ⟨rfl, _, .overdue (r := farReq) rfl (.inl rfl) (by decide) rfl (.inl (by decide +kernel)) (by decide)⟩
theorem witness_Reaching_dropped : Happens Reaching (.firewallDrop 9 1 0) (twoDies (netState farReq)) :=
  ⟨rfl, _, .dropped (r := farReq) rfl rfl (.inl ⟨by decide +kernel, by decide +kernel⟩) (by decide +kernel)⟩
theorem witness_Reaching_answerDropped : Happens Reaching (.firewallDrop 9 0 1)
    (twoDies { quiet with replies := [(9, ⟨src0, 1, .ack, some 12, none, some farReq⟩)] }) :=
  ⟨rfl, _, .answerDropped (r := farReq) rfl rfl rfl (by decide +kernel) (by decide +kernel) (by decide +kernel)⟩

/-- An agent's overdue read. -/
def agentReq (va : Nat) : Req := req0 va 4 (.pull false) .inFlight
theorem witness_Reaching_agentOverdue : Happens Reaching (.requestTimeout 9) { twoDies (netState (agentReq 0x4800)) with dt := 65536 } :=
  ⟨rfl, _, .agentOverdue (r := agentReq 0x4800) rfl (.inl rfl) rfl rfl (.inl (by decide +kernel)) (by decide)⟩

/-- It comes to its home; and so does an agent's write. -/
theorem agentsHome {s : State} {n : Nat} {r : Req} (h : (here0 s n r && !linkClosed s (r.coreDie s) (r.homeDie s)) = true) :
    AgentsHome s n r (placed s r).1 (placed s r).2.1 (placed s r).2.2.1 (placed s r).2.2.2.1 (placed s r).2.2.2.2 := by
  simp only [Bool.and_eq_true, Bool.not_eq_true'] at h
  exact { toAtHome := atHome s n r h.1, back := h.2 }
theorem witness_Reaching_pulled : Happens Reaching (.homeRequest 9 false) (netState (agentReq 0x4000)) :=
  ⟨rfl, _, .pulled (agentsHome (r := agentReq 0x4000) (by decide +kernel)) rfl (by decide +kernel)⟩
theorem witness_Reaching_put : Happens Reaching (.homeRequest 9 false) (netState (req0 0x4000 4 (.put 5 255) .inFlight)) :=
  ⟨rfl, _, .put (agentsHome (r := req0 0x4000 4 (.put 5 255) .inFlight) (by decide +kernel)) rfl⟩

/-- A replica of the line at VA 0x4000, whose class is replicated. -/
def replica0 : Copy := ⟨7, 40, 0, 0, 0, 1, 1, 0, 0, []⟩
def replicaState : State :=
  let r := req0 0x4000 4 (.load [4] 0 .word true) .inFlight
  { netState r with replicas := [(replicaKey (replicaSlice 0 r.ia) r.ia, replica0)] }
theorem witness_Reaching_replica : Happens Reaching (.homeRequest 9 true) replicaState :=
  ⟨rfl, _, .replica (r := req0 0x4000 4 (.load [4] 0 .word true) .inFlight) (x := replica0) rfl rfl rfl (by decide +kernel)
      (fun _ => by decide +kernel)⟩

/-! Waits that end. -/

/-- The first gang is held. -/
def heldState (h : Hold) : State := onGroup (fun g => { g with strands := g.strands.map (fun t => { t with held := some h }) }) quiet

theorem witness_Synchronising_fence : Happens Synchronising (.fenceComplete 0 0 0) (heldState (.fence 1 2)) :=
  ⟨rfl, _, .fence (g := groupOf (heldState (.fence 1 2))) (is := [0, 1, 2, 3, 4, 5, 6, 7]) (scope := 1) (upTo := 2)
    (by decide +kernel) (by decide +kernel) (by decide +kernel) (.inr (by decide +kernel))⟩

/-- With a handler at VA 0x800 and a store error. -/
def handled (s : State) : State := onGroup (fun g => { g with dom := { g.dom with handler := 0x800 } }) s
def errorState : State := onGroup (fun g => { g with storeErr := some 0x4000 }) (handled (heldState (.fence 1 2)))

theorem handlerFree (s : State) (g : Group) (h : (decide (g.dom.handler ≠ 0) && decide (groupAt s 0 handlerSlot = none) &&
    decide ((coreAt s 0).queue = [])) = true) : HandlerFree s 0 0 g := by
  simp only [Bool.and_eq_true, decide_eq_true_eq] at h
  exact ⟨by decide, h.1.1, h.1.2, h.2⟩

theorem witness_Synchronising_storeError : Happens Synchronising (.fenceComplete 0 0 0) errorState :=
  ⟨rfl, _, .storeError (g := groupOf errorState) (is := [0, 1, 2, 3, 4, 5, 6, 7]) (scope := 1) (upTo := 2) (va := 0x4000)
      (by decide +kernel)
    (by decide +kernel) (by decide +kernel) (by decide) (by decide +kernel) (handlerFree _ _ (by decide +kernel))⟩

/-- An arrival of a group that the block's sequencer also takes part in at barrier 2, and of the only group at barrier 3. -/
def arrivedState (bar : Nat) : State :=
  onGroup (fun g => { g with bars := [(bar, ⟨0xFF, true, 2, some 0, 0⟩)] }) (onSeq (fun x => { x with bmask := 4 }) quiet)

theorem witness_Synchronising_arrival : Happens Synchronising (.barrierArrival 0 0 2) (arrivedState 2) :=
  ⟨rfl, _, .arrival (g := groupOf (arrivedState 2)) (bid := 3) (b := blockOf3 (arrivedState 2)) (by decide +kernel) (by decide +kernel)
    (by decide +kernel) (by decide +kernel) (by decide +kernel) (fun _ => by decide +kernel)⟩
theorem witness_Synchronising_arrival_last : Happens Synchronising (.barrierArrival 0 0 3) (arrivedState 3) :=
  ⟨rfl, _, .arrival (g := groupOf (arrivedState 3)) (bid := 3) (b := blockOf3 (arrivedState 3)) (by decide +kernel) (by decide +kernel)
    (by decide +kernel) (by decide +kernel) (by decide +kernel) (fun _ => by decide +kernel)⟩

def lateState : State :=
  let s := handled (heldState (.barrier 3 0 8 4 true))
  { s with dt := 8 + 2 ^ 24, parts := setAt s.parts 0 { partAt s 0 with watchctl := 0x01000000 } }
theorem witness_Synchronising_timeout : Happens Synchronising (.barrierTimeout 0 0 0) lateState :=
  ⟨rfl, _, .timeout (g := groupOf lateState) (is := [0, 1, 2, 3, 4, 5, 6, 7]) (since := 8) (arrives := true)
    (by decide +kernel) (by decide +kernel) (by decide +kernel) (by decide +kernel) (handlerFree _ _ (by decide +kernel))⟩

def queuedState : State :=
  let s := onGroup (fun g => { g with stop := .waiting ⟨3, 0, 0, 0⟩ }) (handled quiet)
  setCore s 0 { coreAt s 0 with queue := [0] }
theorem witness_Synchronising_entry : Happens Synchronising (.handlerEntry 0) queuedState :=
  ⟨rfl, _, .entry (slot := 0) (rest := []) (g := groupOf queuedState) (tr := ⟨3, 0, 0, 0⟩) (by decide +kernel) (by decide +kernel)
      (by decide +kernel)
    (by decide +kernel) (by decide)⟩

/-- In a call whose budget of 4 is used up, with an empty register and without. -/
def call0 (g : Group) : CallFrame := ⟨[], [], [], [], 0, 0, 0, 0, 0, g.strands, 4, g.dom, 64, 64, none, 4, 4, 0, 0⟩
def spentState (full : Bool) : State := onGroup (fun g => ({ g with calls := [call0 g] } : Group).setS 4 { SReg.start with full := full }) quiet
theorem witness_Synchronising_budget : Happens Synchronising (.gateBudgetExhausted 0 0) (spentState false) :=
  ⟨rfl, _, .budget (g := groupOf (spentState false)) (by decide +kernel) (by decide +kernel) (by decide +kernel) (by decide +kernel)⟩
theorem witness_Synchronising_budgetQuiet : Happens Synchronising (.gateBudgetExhausted 0 0) (spentState true) :=
  ⟨rfl, _, .budgetQuiet (g := groupOf (spentState true)) (f := call0 (groupOf quiet)) (by decide +kernel) (by decide +kernel)
      (by decide +kernel)
    (by decide +kernel) (by decide +kernel) (by decide +kernel) (by decide +kernel)⟩

end Sys2Proof.Tests
end

