-- ==== Sys2Proof/Tests/WitnessEngines.lean ====
section
/-! SUPPORT. Witnesses for the statements about the end of engine commands and about near-bank units. -/

namespace Sys2Proof.Tests

set_option Elab.async false

open Sys2Proof.Machine Sys2Proof.Safety

/-! Engine commands and near-bank units. -/

/-- An outstanding command of the group, number 9. -/
def cmd0 (work : CmdWork) (err : Bool) : Cmd := ⟨0, 0, 4, 3, 1, [0], 2, [1], ⟨0, [], 0, 0⟩, err, 0, 7, work, none, none, [], none⟩
def cmdState (work : CmdWork)
    (err : Bool) : State := onGroup (fun g => { g with counts := [(2, 1)] }) { quiet with cmds := [(9, cmd0 work err)] }

/-- One that reads or writes memory: in the group's domain, whose page is not cached. -/
def memCmd (work : CmdWork) : Cmd := { cmd0 work false with dom := domReg base 0 0 }
def memState (work : CmdWork) : State := { cmdState work false with cmds := [(9, memCmd work)], classes := [(0, 0x01100000)], linkUp := true }

theorem outstanding (s : State) (n : Nat) (c : Cmd) (hu : c.uid = 4) (h : (decide (lookupAt s.cmds n = some c) &&
    decide (blockAt s c.block = some (blockOf3 s)) && decide (lookupAt s.saved c.block = none) &&
        decide (findGroup s 4 = some (.resident 0 0)) &&
    decide (groupAt s 0 0 = some (groupOf s)) && decide ((groupOf s).stop = .running)) = true) :
    Outstanding s n c (blockOf3 s) 0 0 (groupOf s) := by
  simp only [Bool.and_eq_true, decide_eq_true_eq] at h
  obtain ⟨⟨⟨⟨⟨h1, h2⟩, h3⟩, h4⟩, h5⟩, h6⟩ := h
  exact ⟨h1, h2, hu.symm ▸ ⟨h4, h5, h6⟩, h3⟩

theorem witness_Completing_scratch : Happens Completing (.engineCommandComplete 9 [] [])
    (cmdState (.writes [(64, [1, 2, 3, 4])] [] [] []) true) :=
  ⟨rfl, _, .scratch (outstanding _ 9 (cmd0 (.writes [(64, [1, 2, 3, 4])] [] [] []) true) rfl (by decide +kernel)) (.inl rfl) rfl⟩

def write0 : GWrite := ⟨0x4000, 0x4000, 0, 4, 5, 0xFFFFFFFF⟩
theorem witness_Completing_global : Happens Completing (.engineCommandComplete 9 [] []) (memState (.writes [] [] [write0] [])) :=
  ⟨rfl, _, .global (w := write0) (stack := 0) (pa := 2 ^ 24 + 0x4000) (cls := 0) (owner := 0)
    (outstanding _ 9 (memCmd (.writes [] [] [write0] [])) rfl (by decide +kernel)) (.inl rfl) rfl (by decide +kernel) (by decide +kernel)
    (by decide +kernel)⟩

def update0 : RowUpdate := ⟨0, 0x4000, 0, 4, 0, 0, 0x3F800000, 1⟩
theorem witness_Completing_update : Happens Completing (.engineCommandComplete 9 [] []) (memState (.updates [] [] [update0])) :=
  ⟨rfl, _, .update (u := update0) (stack := 0) (pa := 2 ^ 24 + 0x4000)
    (outstanding _ 9 (memCmd (.updates [] [] [update0])) rfl (by decide +kernel)) (.inl rfl) rfl (by decide +kernel) (by decide +kernel)⟩

theorem witness_Completing_fromHost : Happens Completing (.engineCommandComplete 9 [] []) (memState (.fromHost 64 0x8000 8)) :=
  ⟨rfl, _, .fromHost (outstanding _ 9 (memCmd (.fromHost 64 0x8000 8)) rfl (by decide +kernel)) (.inl rfl) rfl rfl (by decide +kernel)⟩

/-- `cpy.g2s` of the word at VA 0x4000, which has been read; and the look-up of a page that has been found. -/
def copyCtx : Ctx :=
  { ctx (lane 4 0 0 [] 0) (onGroup (sregs [(10, 0x4000), (13, 4)]) base) with asks := some 9 }
def readWork : CmdWork := .reading (.g2s 5) copyCtx [(0x4000, 4)]
def withPull (va size : Nat) (w : CmdWork) : State :=
  let s := memState w
  { s with net := [(8, { ((memCmd w).asker 9).req s 0 (domReg base 0 0) va size (.pull false) with state := .ready 7 })] }
theorem witness_Completing_begins : Happens Completing (.engineCommandComplete 9 [] []) (withPull 0x4000 4 readWork) :=
  ⟨rfl, _, .begins (c := memCmd readWork) (op := .g2s 5) (x := copyCtx) (rs := [(0x4000, 4)])
    (y := planOf (.g2s 5) copyCtx { withPull 0x4000 4 readWork with ahead := true }) rfl (.inl rfl) rfl rfl (by decide +kernel)⟩

def lookWork : CmdWork := .looking [0] 0 (.nbLoad [0] [5])
theorem witness_Completing_looked : Happens Completing (.engineCommandComplete 9 [] []) (withPull 0 0 lookWork) :=
  ⟨rfl, _, .looked (c := memCmd lookWork) (vas := [0]) (stack := 0) (w := .nbLoad [0] [5]) rfl (.inl rfl) rfl (by decide +kernel)⟩

theorem witness_Completing_loaded : Happens Completing (.engineCommandComplete 9 [] []) (memState (.nbLoad [0, 1] [5])) :=
  ⟨rfl, _, .loaded (bs := [0, 1]) (ws := [5]) (outstanding _ 9 (memCmd (.nbLoad [0, 1] [5])) rfl (by decide +kernel))
      (.inl rfl) rfl (by decide +kernel)⟩
theorem witness_Completing_got : Happens Completing (.engineCommandComplete 9 [] []) (memState (.nbGet [0, 1] [] (some true) 64)) :=
  ⟨rfl, _, .got (bs := [0, 1]) (outstanding _ 9 (memCmd (.nbGet [0, 1] [] (some true) 64)) rfl (by decide +kernel))
      (.inl rfl) rfl (by decide +kernel)⟩
def ranWork : CmdWork := .nbRun [] [] 1 0 false [0, 0, 0, 0] 0
theorem witness_Completing_ran : Happens Completing (.engineCommandComplete 9 [] []) (memState ranWork) :=
  ⟨rfl, _, .ran (outstanding _ 9 (memCmd ranWork) rfl (by decide +kernel)) (.inl rfl) rfl⟩

/-- A sum with rank 1 of two; and with nothing from it. -/
def collWork : CmdWork := .coll 0 false 1 0 0 1 [1] [] (some 64) 0
def collCmd (work : CmdWork) (coll : Nat × Nat × Nat) : Cmd := { cmd0 work false with coll := some coll }
def collState (l : Assoc Cmd) (x : Comm) (dt : Nat) : State := { cmdState collWork false with cmds := l, comms := [(0, x)], dt := dt }
def sumState : State := collState [(9, collCmd collWork (0, 0, 0))] ⟨2, 0, [], []⟩ 8
theorem witness_Completing_combined : Happens Completing (.engineCommandComplete 9 [[], [0x10, 1, 5]] []) sumState :=
  ⟨rfl, _, .combined (rs := [(0, 6)]) (outstanding _ 9 (collCmd collWork (0, 0, 0)) rfl (by decide +kernel))
      (.inr (by decide +kernel)) rfl (by decide)
    (by decide +kernel)⟩
theorem witness_Completing_disagrees : Happens Completing (.engineCommandComplete 9 [] []) sumState :=
  ⟨rfl, _, .disagrees (outstanding _ 9 (collCmd collWork (0, 0, 0)) rfl (by decide +kernel)) (.inr (by decide +kernel)) rfl (by decide)
    (by decide +kernel) (by decide +kernel)⟩

/-- The device sends an element to itself, and receives it. -/
def sendCmd : Cmd := collCmd (.coll 3 false 1 0 0 1 [5] [] none 0) (3, 0, 0)
def recvCmd : Cmd := collCmd (.coll 4 false 1 0 0 1 [] [] (some 64) 0) (4, 0, 0)
def selfState (dt : Nat) : State := collState [(8, sendCmd), (9, recvCmd)] ⟨1, 0, [8], [9]⟩ dt
theorem witness_Completing_received : Happens Completing (.engineCommandComplete 9 [] []) (selfState 8) :=
  ⟨rfl, _, .received (m := 8) (i := 0) (x := sendCmd) (outstanding _ 9 recvCmd rfl (by decide +kernel)) (.inr (by decide +kernel)) rfl
    (by decide +kernel) (by decide +kernel) (by decide) rfl rfl (by decide +kernel) (resident _ (by decide +kernel))⟩
theorem witness_Completing_overdue : Happens Completing (.collTimeout 9) { sumState with dt := Config.collLimit } :=
  ⟨rfl, _, .overdue (outstanding _ 9 (collCmd collWork (0, 0, 0)) rfl (by decide +kernel)) (by decide) (by decide +kernel)
      (by decide +kernel)⟩
theorem witness_Completing_overduePair : Happens Completing (.collTimeout 9) (selfState Config.collLimit) :=
  ⟨rfl, _, .overduePair (c := recvCmd) (m := 8) (i := 0) rfl (by decide) (by decide +kernel) (by decide +kernel)⟩
theorem witness_Completing_unreachable : Happens Completing (.peerPortUnreachable 1) sumState := ⟨rfl, _, .unreachable⟩
theorem witness_Completing_unreachable_meets : MeetsOthers sumState (collCmd collWork (0, 0, 0)) := ⟨0, 0, 0, rfl, by decide +kernel⟩

/-- Bank 0 carries out a run, of launch 1, in the page at VA 0, whose class is not cached. -/
def runState (f : Nbu → Nbu) : State :=
  let s := placedUnit (placedMachine State.reset []) 0x6000003F
  setNbu { s with
    cur := .outside, dt := 100, classes := [(0, 0x01100000)]
    cmds := s.cmds.map (fun e => (e.1, { e.2 with launch := 1 })) } 0 (f (nbuAt s 0))
def runIn (s : State) : RunView := (runView s (nbuAt s 0)).getD ⟨0, cmd0 (.writes [] [] [] []) false, 0, 0, false⟩

def boundaryState : State := runState (fun x => { x with boundary := some 1, openRow := none })
theorem witness_Completing_resume : Happens Completing (.nbuResume 0) boundaryState :=
  ⟨rfl, _, .resume (bank := 0) (r := runIn boundaryState) (k := 0) (ia := 0) (pa := 2 ^ 24) (cls := 0) (owner := 0) (by decide +kernel)
    (by decide +kernel) (by decide +kernel) (by decide +kernel) (by decide +kernel) (by decide +kernel) (by decide +kernel) (by decide)
        (by decide +kernel)
    (by decide +kernel)⟩

/-- Switches of the bank's pseudo-channel that are addressed to bank 1: to normal mode with the run at its boundary, and back. -/
def switchState (compute : Bool) : State :=
  let s := runState (fun x => { x with suspended := compute, boundary := some 1, openRow := none })
  { s with
    groups := quiet.groups, blocks := quiet.blocks, nextId := 10, cmds := s.cmds ++ [(9, cmd0 (.nbMode [1] 0 0 compute) false)]
    computeMode := if compute then [] else s.computeMode }
theorem witness_Completing_suspends : Happens Completing (.engineCommandComplete 9 [] []) (switchState false) :=
  ⟨rfl, _, .suspends (bs := [1]) (outstanding _ 9 (cmd0 (.nbMode [1] 0 0 false) false) rfl (by decide +kernel))
      (.inl rfl) rfl (by decide +kernel)
    (by decide +kernel)⟩
theorem witness_Completing_resumes : Happens Completing (.engineCommandComplete 9 [] []) (switchState true) :=
  ⟨rfl, _, .resumes (bs := [1]) (outstanding _ 9 (cmd0 (.nbMode [1] 0 0 true) false) rfl (by decide +kernel))
      (.inl rfl) rfl (by decide +kernel)⟩

def visitState : State := runState (fun x => { x with visit := some 30 })
theorem witness_Completing_bound : Happens Completing (.visitBound 0) visitState :=
  ⟨rfl, _, .bound (bank := 0) (r := runIn visitState) (t0 := 30) (by decide +kernel) (by decide +kernel) (by decide +kernel)⟩

theorem witness_Completing_refresh : Happens Completing (.refreshDue 1 8) { quiet with dt := 25600000 } :=
  ⟨rfl, _, .refresh (by decide) (by decide +kernel) (by decide +kernel)⟩

theorem witness_Completing_refreshBetween : Happens Completing (.refreshDue 0 8) { boundaryState with dt := 25600000 } :=
  ⟨rfl, _, .refreshBetween (bank := 0) (row := 8) (k := 1) (by decide) (by decide +kernel) (by decide +kernel) (by decide +kernel)
      (by decide)
    (by decide +kernel) (by decide +kernel) (by decide +kernel)⟩

/-- Launch 1 has ended, and bank 0 is suspended in a pseudo-channel in normal mode. -/
def endedState : State :=
  let s := runState (fun x => { x with suspended := true, boundary := some 0, openRow := none })
  { s with computeMode := [], launches := base.launches.map (fun e => (e.1, { e.2 with done := true })) }
theorem witness_Completing_flush : Happens Completing (.suspendedRunFlush 1) endedState :=
  ⟨rfl, _, .flush (l := (lookupAt endedState.launches 1).getD ⟨0, 0, 0, 0, 0, 0, 0, [], none, 0, false, false, false, 0, false, []⟩)
      (bank := 0)
    (by decide +kernel) (by decide +kernel) (by decide +kernel) (by decide +kernel) (by decide +kernel) (by decide +kernel) (by decide)
    ⟨nbuAt endedState 0, by decide +kernel, rfl⟩⟩

end Sys2Proof.Tests
end

