-- ==== Sys2Proof/Tests/WitnessLaunch.lean ====
section
/-! SUPPORT. Witnesses for the statements about launches and about the host. -/

namespace Sys2Proof.Tests

set_option Elab.async false

open Sys2Proof.Machine Sys2Proof.Safety

/-! Launching. -/

/-- Function 1 is bound to domain 0 of partition 0, and has a graph of two nodes, of which the first goes before the second, under
handle 5. -/
def fn0 : Fn := { Fn.reset with bound := some (0, 0) }
def graph0 : Graph := ⟨[{ placedNode with succs := [1] }, { placedNode with npred := 1 }]⟩
def linked (f : Fn) (s : State) : State := { s with linkUp := true, fns := [(1, f)], graphs := [(graphKey 1 5, graph0)] }

theorem witness_Launching_starts : Happens Launching (.launchWord 1 0x10005) (linked fn0 quiet) :=
  ⟨rfl, _, .starts (part := 0) (dom := 0) (g := graph0) rfl (by decide +kernel) (by decide +kernel) (by decide +kernel)⟩
theorem witness_Launching_unknown : Happens Launching (.launchWord 1 0x10006) (linked fn0 quiet) :=
  ⟨rfl, _, .unknown (part := 0) (dom := 0) rfl (by decide +kernel) (by decide +kernel)⟩

def oldLaunch : GraphLaunch := ⟨1, 0, 0, 5, 0, 0, 0, [], none, 0, false, false, false, 0, true, []⟩
def fullState : State := { linked fn0 quiet with launches := (List.range 64).map (fun k => (k, oldLaunch)) }
theorem witness_Launching_tooMany : Happens Launching (.launchWord 1 0x10005) fullState :=
  ⟨rfl, _, .tooMany (part := 0) (dom := 0) (g := graph0) rfl (by decide +kernel) (by decide +kernel) (by decide +kernel)⟩

def launchHere (s : State) : GraphLaunch := (lookupAt s.launches 1).getD oldLaunch
def runHere (s : State) : NodeRun := (lookupAt s.runs 2).getD (newRun 0 0 placedNode)

/-- The node of launch 1 is ready: 8 bytes of arguments at 0x40 of a bank of 16 bytes, a lattice slot and a work list. -/
def readyEntry : NodeEntry := { placedNode with argOff := 0x40, argLen := 8, cbImg := 0x1000, cbLen := 16, latN := 1, wlN := 1, tables := 0x2000, wlva := 0x3000 }
def readyState : State := onRun (fun r => { r with stage := .ready, entry := readyEntry }) quiet
theorem witness_Launching_node : Happens Launching (.nodeStart 1 0) readyState :=
  ⟨rfl, _, .node (l := launchHere readyState) (run := 2) (x := runHere readyState) (args := List.replicate 8 0) (img := List.replicate 16 0)
    (tables := List.replicate 64 0) (lists := List.replicate 32 0) (by decide +kernel) (by decide +kernel) (by decide +kernel)
        (by decide +kernel)
    (by unfold NodeReads; decide +kernel) (by unfold NodeReads; decide +kernel) (by unfold NodeReads; decide +kernel)
    (by unfold NodeReads; decide +kernel)⟩

/-- The launch's domain has no range entry. -/
def deniedState : State := { readyState with launches := readyState.launches.map (fun e => (e.1, { e.2 with dom := 7 })) }

theorem rangeIa_none (n perms va : Nat) : rangeIa (List.replicate n (0#64, 0#64)) perms va = none := by
  have h : ∀ n, rangeEntry (List.replicate n (0#64, 0#64)) va = none := fun n => by
    induction n with
    | zero => rfl
    | succ n ih => simp [List.replicate_succ, rangeEntry, ih]
  simp [rangeIa, h]

theorem settled_none (s : State) (who : Asker) (part id n va len : Nat) (hd : Dword) (c : Nat) :
    readVa s who part ⟨id, List.replicate n (0#64, 0#64), hd, c⟩ permR va len ≠ .waits := by
  unfold readVa
  split
  · exact fun h => nomatch h
  · cases len with
    | zero => exact fun h => nomatch h
    | succ k => simp [readVaBytes, rangeIa_none]

theorem witness_Launching_nodeRefused : Happens Launching (.nodeStart 1 0) deniedState :=
  have hd : domReg deniedState (launchHere deniedState).part (launchHere deniedState).dom = ⟨7, List.replicate 8 (0#64, 0#64), 0,
      0⟩ := by decide +kernel
  ⟨rfl, _, .nodeRefused (l := launchHere deniedState) (run := 2) (x := runHere deniedState) (by decide +kernel) (by decide +kernel)
      (by decide +kernel)
    (by decide +kernel) (by unfold NodeReads; decide +kernel) (by decide +kernel)
    (fun va n => by unfold NodeReads; rw [hd]; exact settled_none _ _ _ _ _ _ _ _ _)⟩

/-- The node asks for a second block. -/
def secondState : State := onRun (fun r => { r with entry := { placedNode with blocks := 2 } }) quiet
theorem witness_Launching_block : Happens Launching (.blockPlace 0) secondState :=
  ⟨rfl, _, .block (run := 2) (r := runHere secondState) (core := 1) (l := launchHere secondState) (by decide +kernel) (by decide +kernel)
    (by decide +kernel) (by decide +kernel) (by decide +kernel)⟩

/-- It has been blocked for RESERVE ticks, and asks for more of each core than there is beside the first block, which has lower priority. -/
def blockedState : State :=
  let s := onRun (fun r => { r with entry := { placedNode with blocks := 2, regs := 32, groups := 8, prio := 3 }, blockedSince := some 8 }) quiet
  { s with dt := 2 ^ 24 }
theorem witness_Launching_reserve : Happens Launching (.reserveTimeout 0) blockedState :=
  ⟨rfl, _, .reserve (run := 2) (r := runHere blockedState) (t0 := 8) (core := 1) (vs := []) (by decide +kernel) (by decide +kernel)
    (by decide +kernel) (by decide +kernel) (by decide +kernel) (by decide +kernel)⟩

def task0 (core : Nat) : Task := ⟨2, 0, 0x100, 1, 8, 4, 0, 5, domReg quiet 0 0, core⟩
def dequeState (core : Nat) : State := setCore quiet core { coreAt quiet core with deque := [task0 core] }
theorem witness_Launching_own : Happens Launching (.taskSteal 0) (dequeState 0) :=
  ⟨rfl, _, .own (part := 0) (rest := []) (x := task0 0) (by decide +kernel) (by decide +kernel) (by decide +kernel) (by decide +kernel)
    (by decide +kernel)⟩
theorem witness_Launching_steals : Happens Launching (.taskSteal 1) (dequeState 0) :=
  ⟨rfl, _, .steals (part := 0) (from' := 0) (x := task0 0) (rest := []) (by decide +kernel) (by decide +kernel) (by decide +kernel)
      (by decide +kernel)
    (by decide +kernel)⟩

/-- A context that has not started; its start record is in the constant bank at 0, with a cell at VA 0x8000. -/
def startState : State :=
  onRun (fun r => { r with bank := writeBytes [] 0 (toBytes 96 (7 + 0x10000 * 2 ^ 512 + 0x20000 * 2 ^ 576 + 0x8000 * 2 ^ 640)) })
    (onSeq (fun x => { x with started := false }) quiet)
theorem witness_Launching_sequencer : Happens Launching (.sequencerStart 0 0) startState :=
  ⟨rfl, _, .sequencer (v := viewOf startState) (by decide +kernel) (by decide +kernel) (by decide +kernel)
    (fun _ => ⟨List.replicate 8 0, by decide +kernel⟩)⟩

/-! The host. -/

/-- The record of launch 1, which has ended; and that of a copy. -/
def record1 : Record := ⟨5, 0, 0, 1, 0, 0, some 1⟩
def recordState (bad : List Nat) : State := { linked { fn0 with crbase := 0x4000, finished := [record1] } quiet with hostBad := bad }

theorem witness_Hosting_record : Happens Hosting (.completionRecordWrite 1) (recordState []) :=
  ⟨rfl, _, .record (r := record1) (rest := []) (by decide +kernel) rfl (by decide +kernel) (by decide +kernel) (by decide +kernel)
      (by decide +kernel)⟩
theorem witness_Hosting_recordHeld : Happens Hosting (.completionRecordWrite 1) (recordState [4]) :=
  ⟨rfl, _, .recordHeld (r := record1) (rest := []) (by decide +kernel) rfl (by decide +kernel) (by decide +kernel) (by decide +kernel)
    (by decide +kernel)⟩
theorem up0 {f : Fn} : PageUp (linked f quiet) 1 := ⟨rfl, .inr rfl⟩

theorem witness_Hosting_tails : Happens Hosting (.cqtailWrite 1 3) (linked fn0 quiet) ∧ ¬ Overrun 64 (fnAt (linked fn0 quiet) 1).cqhead 6 ∧
    Overrun 65 (fnAt (linked fn0 quiet) 1).cqhead 6 ∧ Happens Hosting (.mqtailWrite 1 3) (linked fn0 quiet) ∧
    Happens Hosting (.mqtailWrite 1 65) (linked fn0 quiet) := by
  have h : ¬ Overrun 3 (fnAt (linked fn0 quiet) 1).mqhead (fnAt (linked fn0 quiet) 1).mqlog2n := by unfold Overrun; decide +kernel
  refine ⟨⟨rfl, _, .cqtail up0⟩, ?_, ?_, ⟨rfl, _, .mqtail (part := 0) (dom := 0) up0 (by decide +kernel)
      (by decide +kernel) h (by decide +kernel)
    (by unfold MapsReadable; decide +kernel)⟩, ⟨rfl, _, .mqOverrun up0 ?_⟩⟩ <;> unfold Overrun <;> decide +kernel

/-- The host does not let the first entry of the map ring be read; and the link is down, or bring-up has failed. -/
def badRing (f : Fn) : State := { linked f quiet with hostBad := [4] }
theorem witness_Hosting_mapUnread : Happens Hosting (.mqtailWrite 1 1) (badRing { fn0 with mqbase := 0x4000 }) :=
  ⟨rfl, _, .mapUnread (s := badRing { fn0 with mqbase := 0x4000 }) (fn := 1) (part := 0) (dom := 0) ⟨rfl, .inr rfl⟩ (by decide +kernel)
      (by decide +kernel) (by decide +kernel)⟩
theorem witness_Hosting_unreached : Happens Hosting (.cqtailWrite 1 3) quiet ∧
    Happens Hosting (.ringBaseWrite 1 true 3) { linked fn0 quiet with bringUpFailed := some 2 } := by
  refine ⟨⟨rfl, _, .unreached ?_ (.cqtail 3)⟩, ⟨rfl, _, .unreached ?_ (.base true 3)⟩⟩ <;> unfold PageUp <;> decide +kernel

/-- A copy-control block in host memory: OP, 8 bytes of host memory at 0x8000, VA 0x4000, and a handle. -/
def copyState (op dev hdl : Nat) : State :=
  let s := linked { fn0 with cqbase := 0x4000, cqtail := 1 } quiet
  { s with hostMem := writeBytes [] 0x4000 (toBytes 64 (op + 9 * 2 ^ 32 + 0x8000 * 2 ^ 64 + dev * 2 ^ 128 + 8 * 2 ^ 192 + hdl * 2 ^ 224)) }
def copy0 (op dev hdl : Nat) : HostCopy := ⟨⟨op, 9, 0x8000, dev, 8, hdl, true⟩, 8, 0, 0, 0⟩

theorem open0 {s : State} {w : HostCopy} (h : (decide ((fnAt s 1).bound = some (0, 0)) && s.linkUp && decide ((fnAt s 1).copy = none) &&
    !(fnAt s 1).cqHeld && decide ((fnAt s 1).cqhead ≠ (fnAt s 1).cqtail) && !hostRefuses s (copySlot s 1) &&
    decide (w = ⟨CopyBlock.ofBytes (readBytes s.hostMem (copySlot s 1) 64), s.dt, 0, 0,
        0⟩)) = true) : CopyOpen s 1 w 0 0 ((fnAt s 1).cqhead + 1) := by
  simp only [Bool.and_eq_true, decide_eq_true_eq, Bool.not_eq_true'] at h
  obtain ⟨⟨⟨⟨⟨⟨h1, h2⟩, h3⟩, h4⟩, h5⟩, h0⟩, h6⟩ := h
  exact ⟨h1, h2, by simp [h6], .inr ⟨h3, h4, h5, rfl, h0, h6⟩⟩

theorem witness_Hosting_toDevice : Happens Hosting (.hostToDevice 1) (copyState 1 0x4000 0) :=
  ⟨rfl, _, .toDevice (w := copy0 1 0x4000 0) (part := 0) (dom := 0) (ia := 0x4000) (stack := 0) (pa := 2 ^ 24 + 0x4000) (cls := 0)
      (owner := 0)
    (open0 (s := copyState 1 0x4000 0) (by decide +kernel)) rfl (by decide +kernel) (by decide +kernel) (by decide +kernel)
        (by decide +kernel)
    (fun _ _ => rfl) (by decide +kernel)⟩

/-- A copy whose first word has been copied and which goes on with its second. -/
def begunState : State :=
  let s := copyState 2 0x4000 0
  { s with fns := [(1, { fnAt s 1 with cqhead := 1, copy := some { copy0 2 0x4000 0 with done := 4 } })] }
theorem witness_Hosting_toHost : Happens Hosting (.deviceToHost 1) begunState :=
  ⟨rfl, _, .toHost (s := begunState) (fn := 1) (w := { copy0 2 0x4000 0 with done := 4 }) (part := 0) (dom := 0) (head := 1) (v := 0)
    ⟨by decide +kernel, rfl, by decide, .inl ⟨by decide +kernel, by decide +kernel⟩⟩ rfl (by decide +kernel) (by decide +kernel)
        (by decide +kernel)
    (by decide +kernel) (by decide +kernel)⟩
theorem witness_Hosting_copyDenied : Happens Hosting (.hostToDevice 1) (copyState 1 0x400000 0) :=
  ⟨rfl, _, .copyDenied (w := copy0 1 0x400000 0) (part := 0) (dom := 0)
      (open0 (by decide +kernel)) rfl (by decide +kernel) rfl (by decide +kernel)⟩
theorem witness_Hosting_hostDenies : Happens Hosting (.hostToDevice 1) { copyState 1 0x4000 0 with hostBad := [8] } :=
  ⟨rfl, _, .hostDenies (w := copy0 1 0x4000 0) (part := 0) (dom := 0) (open0 (s := { copyState 1 0x4000 0 with hostBad := [8] })
      (by decide +kernel)) rfl
    (by decide +kernel) (by decide +kernel) (by decide +kernel) (by decide +kernel)⟩
theorem witness_Hosting_entryDenied : Happens Hosting (.deviceToHost 1) (badRing { fn0 with cqbase := 0x4000, cqtail := 1 }) :=
  ⟨rfl, _, .entryDenied (fn := 1) (part := 0) (dom := 0) (by decide) (by decide +kernel) rfl (by decide +kernel) (by decide +kernel)
      (by decide +kernel)
    (by decide +kernel)⟩
theorem witness_Hosting_releases : Happens Hosting (.releaseHandle 1) (copyState 4 0x4000 5) :=
  ⟨rfl, _, .releases (w := copy0 4 0x4000 5) (part := 0) (dom := 0) (g := graph0) (open0 (by decide +kernel)) rfl (by decide +kernel)
    (by decide +kernel) (by decide +kernel)⟩

/-- A graph of one node at 0x4000. -/
def graphState : State :=
  let s := copyState 3 0x4000 0
  { s with mem := writeBytes s.mem (2 ^ 24 + 0x4000) [1] }
theorem witness_Hosting_registers : Happens Hosting (.registerGraph 1) graphState :=
  ⟨rfl, _, .registers (w := copy0 3 0x4000 0) (part := 0) (dom := 0) (head := 1 :: List.replicate 63 0)
      (entries := List.replicate 128 0) (list := [])
    (open0 (by decide +kernel)) rfl (by decide +kernel) (by unfold CopyReads; decide +kernel) (by unfold CopyReads; decide +kernel)
    (by unfold CopyReads; decide +kernel) ⟨6, by decide, by decide, by decide +kernel⟩⟩

def up : State := linked fn0 quiet
theorem witness_Hosting_rings : Happens Hosting (.crheadWrite 1 3) up ∧ Happens Hosting (.crtailRead 1) up ∧
    Happens Hosting (.crbaseWrite 1 0x4000) up ∧
    Happens Hosting (.ringBaseWrite 1 false 0x4000) up ∧ Happens Hosting (.ringBaseWrite 1 true 0x4000) up := by
  have h : ¬ Overrun (fnAt up 1).mqtail (fnAt up 1).mqhead (fnAt up 1).mqlog2n := by unfold Overrun; decide +kernel
  exact ⟨⟨rfl, _, .crhead up0⟩, ⟨rfl, _, .crtail up0⟩, ⟨rfl, _, .crbase up0⟩, ⟨rfl, _, .cqbase up0⟩,
    ⟨rfl, _, .mqbase (part := 0) (dom := 0) up0 (by decide +kernel) h (by decide +kernel) (by unfold MapsReadable; decide +kernel)⟩⟩

/-- A window is clear of range entries that all begin after it or end before it, or do not count. -/
theorem windowClear_of (va size : Nat) (rs : List (Dword × Dword)) (h : rs.all (fun e => !e.1.getLsbD 0 || decide (size = 0) ||
    decide (va + size ≤ e.1.toNat / 2 ^ 21 % 2 ^ 27) || decide (e.1.toNat / 2 ^ 21 % 2 ^ 27 + e.2.toNat / 2 ^ 32 % 2 ^ 27 ≤ va)) = true) :
    WindowClear va size rs := by
  intro e he hv g hg
  have := List.all_eq_true.1 h e he
  simp only [hv, Bool.not_true, Bool.false_or, Bool.or_eq_true, decide_eq_true_eq] at this
  omega
theorem windowUp (part dom : Nat) (h : (fnAt up 1).bound = some (part, dom)) :
    WindowClear (2 % 2 ^ 27) (3 % 2 ^ 16) (domainAt up part dom).ranges := by
  have hb : (fnAt up 1).bound = some (0, 0) := by decide +kernel
  rw [hb] at h
  cases h
  exact windowClear_of _ _ _ (by decide +kernel)

theorem witness_Hosting_registers' : Happens Hosting (.pwrcapWrite 600) up ∧ Happens Hosting (.dlfwWrite 0 1 0x11) up ∧
    Happens Hosting (.rclassWrite 3 0x0100FFFF) up ∧ Happens Hosting (.elogackWrite 0 2) up ∧
        Happens Hosting (.registerWrite (.watchctl 0) 5) up ∧
    Happens Hosting (.vfRelease 1) up ∧ Happens Hosting (.hostWindowSet 1 2 3 4) up ∧ Happens Hosting (.communicatorSetup 5 256 255) up :=
  ⟨⟨rfl, _, .pwrcap⟩, ⟨rfl, _, .dlfw (by decide)⟩, ⟨rfl, _, .rclass (by decide) (by decide +kernel)⟩, ⟨rfl, _, .elogack⟩,
    ⟨rfl, _, .register trivial⟩, ⟨rfl, _, .release (by decide)⟩, ⟨rfl, _, .window windowUp⟩,
        ⟨rfl, _, .communicator (by decide) (by decide) (by decide)⟩⟩

/-- A class value that is allowed, and one that is not. -/
theorem witness_Hosting_rclass : ClassAllowed 0x0100FFFF ∧ ¬ ClassAllowed 0 := by
  unfold ClassAllowed
  decide

/-- Range entry 0 of the domain that function 1 is bound to, moved under its window of 2 MiB, and beside it. -/
def windowedState : State := linked { fn0 with hwva := 2, hwsize := 1 } quiet
theorem windows_of {s : State} {part dom : Nat} {rs : List (Dword × Dword)} {f : Fn} (hf : s.fns = [(1, f)])
    (h : WindowClear f.hwva f.hwsize rs) : WindowsClear s part dom rs := by
  intro x hx _
  rw [hf] at hx
  cases hx with
  | head => exact h
  | tail _ h => cases h
theorem witness_Hosting_ranges : Happens Hosting (.registerWrite (.range 0 0 0 false) 0x60003F) windowedState ∧
    Happens Hosting (.registerWrite (.range 0 0 0 false) 0x40003F) windowedState := by
  refine ⟨⟨rfl, _, .register (windows_of (f := { fn0 with hwva := 2, hwsize := 1 }) rfl (windowClear_of _ _ _ (by decide +kernel)))⟩,
    ⟨rfl, _, .rangeKept fun h => ?_⟩⟩
  have hm : ((0x40003F#64 : Dword),
      ((domainAt windowedState 0 0).ranges.headD (0, 0)).2) ∈ rangesWith windowedState 0 0 0 false 0x40003F := by
    decide +kernel
  exact h (1, { fn0 with hwva := 2, hwsize := 1 }) (by decide +kernel) (by decide +kernel) _ hm (by decide +kernel) 2 (by decide +kernel)

def readyDevice : State := { quiet with bringUp := 5 }
theorem witness_Hosting_bind : Happens Hosting (.vfBind 1 0 7) readyDevice :=
  ⟨rfl, _, .bind (by decide) (by decide +kernel) rfl (by decide) (by decide +kernel) (windowClear_of _ _ _ (by decide +kernel))⟩

end Sys2Proof.Tests
end

