-- ==== Sys2Proof/Tests/WitnessUpkeep.lean ====
section
/-! SUPPORT. Witnesses for the statements about the mapping service, pre-emption and the upkeep of the part. -/

namespace Sys2Proof.Tests

set_option Elab.async false

open Sys2Proof.Machine Sys2Proof.Safety

/-! The mapping service. -/

/-- A request for the page of 2 MiB at an IA, at the head of the queue; domain 0 has a range of 4 MiB and owns the physical page at 32
MiB. -/
def mapReq (op ia : Nat) (dom : Nat) : MapReq := ⟨some (1, 0), none, dom, BitVec.ofNat 32 op, ia, 0x2000000, 1, 0x31, 7, 0⟩
def mapState (op ia dom : Nat) : State :=
  { quiet with
    parts := setAt quiet.parts 0 { partAt quiet 0 with mapQueue := [mapReq op ia dom] }
    domains := setAt quiet.domains 0 { domainAt quiet 0 0 with ranges := [(0x3F, 0x0000000200000000)] }
    owners := (List.range 32).map (fun i => (512 + i, 0x1000)) }

theorem witness_Mapping_maps : Happens Mapping (.map 0) (mapState 1 0x200000 0) :=
  ⟨rfl, _, .maps (r := mapReq 1 0x200000 0) (rest := []) (stack := 0) (locs := [0x200000]) (at' := fun _ => 2 ^ 23 + 8)
      (path := fun _ => [2 ^ 22])
    ⟨by decide +kernel, by decide, by decide +kernel, by decide +kernel⟩ (by decide) (by decide +kernel)
    ⟨(fun l hl => by
      cases hl with
      | head => exact ⟨by decide +kernel, .inl (by decide +kernel)⟩
      | tail _ h => cases h), by simp, by simp, by simp⟩ (by decide +kernel)⟩

theorem witness_Mapping_refused : Happens Mapping (.map 0) (mapState 1 0x200000 7) :=
  ⟨rfl, _, .refused (r := mapReq 1 0x200000 7) (rest := []) (by decide +kernel) (by decide) (by decide +kernel)
    (by decide +kernel)⟩

def leafAt0 (s : State) : Prop := Tables s 0 (2 ^ 21) [0] (fun _ => 2 ^ 23) (fun _ => [2 ^ 22])
theorem leafAt0_of (s : State)
    (h : (isPointer (readPte s 0 (entryAt (tableBase s 0) 0 1)) && decide (entryAt (tableBase s 0) 0 1 = 2 ^ 22) &&
    decide (entryAt (pteAddr (readPte s 0 (entryAt (tableBase s 0) 0 1))) 0 2 = 2 ^ 23)) = true) : leafAt0 s := by
  simp only [Bool.and_eq_true, decide_eq_true_eq] at h
  refine ⟨fun l hl => ?_, by simp, by simp, by simp⟩
  cases hl with
  | head => exact ⟨h.1.1, .inl ⟨rfl, h.2.symm, by rw [h.1.2]⟩⟩
  | tail _ h => cases h

theorem witness_Mapping_setsClass : Happens Mapping (.setClass 0) (mapState 3 0 0) :=
  ⟨rfl, _, .setsClass (r := mapReq 3 0 0) (rest := []) (stack := 0) (locs := [0]) ⟨by decide +kernel, by decide, by decide +kernel,
      by decide +kernel⟩
    (leafAt0_of _ (by decide +kernel)) (by decide +kernel)⟩
theorem witness_Mapping_hides : Happens Mapping (.markNotPresent 0) (mapState 4 0 0) :=
  ⟨rfl, _, .hides (r := mapReq 4 0 0) (rest := []) (stack := 0) (locs := [0]) ⟨by decide +kernel, by decide, by decide +kernel,
      by decide +kernel⟩
    (leafAt0_of _ (by decide +kernel)) (by decide +kernel)⟩
theorem witness_Mapping_shows : Happens Mapping (.markPresent 0) (hidden (mapState 5 0 0)) :=
  ⟨rfl, _, .shows (r := mapReq 5 0 0) (rest := []) (stack := 0) (locs := [0]) ⟨by decide +kernel, by decide, by decide +kernel,
      by decide +kernel⟩
    (leafAt0_of _ (by decide +kernel)) (by decide +kernel) (by decide +kernel)⟩

/-- A load parked at the hidden page since tick 0. -/
def parkedState : State := { hidden quiet with net := [(9, req0 0x4000 4 (.load [4] 0 .word false) (.parked 0 1))], dt := 2 ^ 20 }
theorem witness_Mapping_abandons : Happens Mapping (.pageInAbandon 0x4000) parkedState :=
  ⟨rfl, _, .abandons (part := 0) (p := partAt parkedState 0) (stack := 0) (loc := 0x4000) (a := 2 ^ 23) (e := leafPte (2 ^ 24) 0 - 2)
    (size := 2 ^ 21) (by decide +kernel) (by decide +kernel) (by decide +kernel) (by decide)⟩
theorem witness_Mapping_waits : Happens Mapping (.pageInSave 0 0) parkedState :=
  ⟨rfl, _, .waits (g := groupOf parkedState) (bid := 3) (b := blockOf3 parkedState) (by decide +kernel) (by decide +kernel)
      (by decide +kernel)
    (by decide +kernel) (by decide +kernel)⟩

/-- With a lease on line 5, and with a pin on it. -/
def leasedState : State := { mapState 2 0 0 with leases := [(lineKey 0 (5 * 128), 40)] }
theorem witness_Mapping_unmaps : Happens Mapping (.unmap 0) leasedState :=
  ⟨rfl, _, .unmaps (r := mapReq 2 0 0) (rest := []) (stack := 0) (locs := [0]) ⟨by decide +kernel, by decide, by decide +kernel,
      by decide +kernel⟩
    (by decide +kernel) (by decide +kernel) (leafAt0_of _ (by decide +kernel)) (by decide +kernel)⟩
def pinnedState : State := onSeq (fun x => { x with pins := [(5, 0)] }) (mapState 2 0 0)
theorem witness_Mapping_pinned : Happens Mapping (.unmap 0) pinnedState :=
  ⟨rfl, _, .pinned (r := mapReq 2 0 0) (rest := []) (stack := 0) (locs := [0]) ⟨by decide +kernel, by decide, by decide +kernel,
      by decide +kernel⟩
    (by decide +kernel) (by decide +kernel) (by decide +kernel)⟩
/-- A request for 64 KiB of the page of 2 MiB. -/
def smallReq : MapReq := { mapReq 2 0 0 with size := 0x30 }
def smallState : State := { mapState 2 0 0 with parts := setAt quiet.parts 0 { partAt quiet 0 with mapQueue := [smallReq] } }
theorem witness_Mapping_unmapPart : Happens Mapping (.unmap 0) smallState :=
  ⟨rfl, _, .unmapPart (r := smallReq) (rest := []) (stack := 0) (locs := [0]) (l := 0)
    ⟨by decide +kernel, by decide, by decide +kernel, by decide +kernel⟩ (by decide +kernel) (by decide) (by decide +kernel)⟩
def unmappingState (lease : Option Nat) : State :=
  { pinnedState with dt := 2 ^ 20, parts := setAt pinnedState.parts 0 { partAt pinnedState 0 with unmap := some ⟨mapReq 2 0 0, 0, lease⟩ } }
theorem witness_Mapping_unmapDone : Happens Mapping (.unmapReturn 0) (unmappingState (some 40)) :=
  ⟨rfl, _, .unmapDone (x := ⟨mapReq 2 0 0, 0, some 40⟩) (lease := 40) (by decide +kernel) rfl (by decide) (by decide +kernel)⟩
theorem witness_Mapping_pinsLate : Happens Mapping (.unmapPinTimeout 0) (unmappingState none) :=
  ⟨rfl, _, .pinsLate (x := ⟨mapReq 2 0 0, 0, none⟩) (stack := 0) (locs := [0]) (by decide +kernel) rfl (by decide +kernel) (by decide)⟩
theorem witness_Mapping_retires : Happens Mapping (.pageRetire 0 0 0x2000000) quiet :=
  ⟨rfl, _, .retires (part := 0) (loc := 0) (a := 2 ^ 23) (e := leafPte (2 ^ 24) 0) (size := 2 ^ 21) (by decide +kernel) (by decide +kernel)
    (by decide +kernel) (by decide) (by decide) (by decide) (by decide) (by decide +kernel) (by decide)⟩

/-! Pre-emption. -/

theorem witness_Preempting_request : Happens Preempting (.politeRequest 3) quiet :=
  ⟨rfl, _, .request (b := blockOf3 quiet) (by decide +kernel)⟩
theorem witness_Preempting_migration : Happens Preempting (.thermalMigration 3) { quiet with dt := 1600000 } :=
  ⟨rfl, _, .migration (b := blockOf3 quiet) (by decide +kernel) (by decide +kernel) (by decide +kernel)⟩

/-- The block of slot 0 alone holds the group. -/
theorem onlyGroup {P : Nat → Group → Prop} (s : State) (b : Block) (hs : b.slots = [0]) (hc : b.core = 0) (g : Group)
    (hg : groupAt s 0 0 = some g)
    (hp : P 0 g) : ∀ q ∈ b.slots, ∀ g, groupAt s b.core q = some g → g.block = some 3 → P q g := by
  intro q hq g' hg' _
  rw [hs] at hq
  cases hq with
  | head => rw [hc, hg] at hg'; cases hg'; exact hp
  | tail _ h => cases h

/-- Long after a polite request; with a group outside a region, and with one in an open region. -/
def politeState (f : Group → Group) : State := { onGroup f (onBlock (fun b => { b with preempt := .polite 8 }) quiet) with dt := 2 ^ 24 }
def plain : State := politeState id
theorem witness_Preempting_hard : Happens Preempting (.hardStage 3) plain :=
  ⟨rfl, _, .hard (b := blockOf3 plain) (since := 8) (by decide +kernel) (by decide +kernel) (.inl (by decide +kernel))
    (by decide +kernel)
    (onlyGroup _ _ (by decide +kernel) (by decide +kernel) (groupOf plain) (by decide +kernel)
        ⟨by decide +kernel, .inl (by decide +kernel)⟩)⟩

def point0 (g : Group) : FlashPoint :=
  ⟨0x40, none, 0xF, g.strands.map (fun t => ⟨t.active, t.exited, t.lr, t.div, t.loops⟩), []⟩
def openState : State := politeState (fun g => { g with flash := some (point0 g), regionOpen := true })
theorem witness_Preempting_rewinds : Happens Preempting (.hardStage 3) openState :=
  ⟨rfl, _, .rewinds (b := blockOf3 openState) (since := 8) (q := 0) (g := groupOf openState) (f := point0 (groupOf quiet))
      (by decide +kernel)
    (by decide +kernel) (by decide +kernel) (by decide +kernel) (by decide) (by decide +kernel) (by decide +kernel) (by decide +kernel)
    (by decide +kernel) (by decide +kernel) (by decide +kernel) (by decide +kernel)⟩

/-- The hard stage has struck, and the frame is being written since a tick or the save still waits. -/
def savingState (begun : Option Nat) : State :=
  onGroup (fun g => { g with stop := .saving none })
      (onBlock (fun b => { b with preempt := .saving 8 false begun }) { quiet with dt := 2 ^ 16 })
theorem witness_Preempting_saves : Happens Preempting (.contextSave 3 (some 0)) (savingState (some 8)) :=
  ⟨rfl, _, .saves (b := blockOf3 (savingState (some 8))) (since := 8) (late := false) (begun := 8) (by decide +kernel) (by decide +kernel)
    (by decide +kernel) (by decide +kernel) (by decide +kernel) (by decide +kernel)⟩
theorem witness_Preempting_writes : Happens Preempting (.contextSave 3 (some 0)) (savingState none) :=
  ⟨rfl, _, .writes (b := blockOf3 (savingState none)) (since := 8) (late := false) (by decide +kernel) (by decide +kernel)
      (by decide +kernel)⟩
theorem witness_Preempting_saveFails : Happens Preempting (.contextSave 3 none) (savingState (some 8)) :=
  ⟨rfl, _, .saveFails (b := blockOf3 (savingState (some 8))) (since := 8) (late := false) (begun := 8) (by decide +kernel)
      (by decide +kernel)
    (by decide +kernel) (by decide +kernel) (by decide +kernel)
    (onlyGroup _ _ (by decide +kernel) (by decide +kernel) (groupOf (savingState (some 8))) (by decide +kernel) (by decide +kernel))⟩
theorem witness_Preempting_late : Happens Preempting (.saveReplyTimeout 3) (savingState none) :=
  ⟨rfl, _, .late (b := blockOf3 (savingState none)) (since := 8) (by decide +kernel) (by decide +kernel) (by decide +kernel)
    (onlyGroup (P := fun _ g => g.stopped = true) _ _ (by decide +kernel) (by decide +kernel) (groupOf (savingState none))
        (by decide +kernel)
      (by decide +kernel))⟩

/-- The block has been saved. -/
def savedBlock : SavedBlock :=
  { savedOf (savingState (some 8)) 3 (blockOf3 (savingState (some 8))) 0 with seq := none }
def savedState : State := { quiet with groups := [], blocks := [], seqs := [], saved := [(3, savedBlock)] }
theorem witness_Preempting_restores : Happens Preempting (.restore 3 1) savedState :=
  ⟨rfl, _, .restores (x := savedBlock) (by decide +kernel) (by decide +kernel) (by decide +kernel) (by decide +kernel) (by decide +kernel)
    (by decide +kernel) (by decide +kernel)⟩

/-! Upkeep. -/

def signed0 (k : Nat) : State := { State.reset with imageSigned := true, bringUp := k }
theorem witness_Keeping_step : ∀ k < 5, Happens Keeping (.bringUpStep (.success 4 3)) (signed0 k) :=
  fun k hk => ⟨rfl, _, .step (k := k + 1) ⟨rfl, hk, rfl⟩ (fun _ => rfl) (fun _ => by decide)⟩
theorem witness_Keeping_stepFails : ∀ k < 5, Happens Keeping (.bringUpStep (.failure 3 2)) (signed0 k) :=
  fun k hk => ⟨rfl, _, .stepFails (k := k + 1) (by decide) ⟨rfl, hk, rfl⟩ (fun _ => rfl) rfl⟩
theorem witness_Keeping_image : Happens Keeping (.doeImageWrite 5 true) up ∧ Happens Keeping (.spdmMeasurement 1) up :=
  ⟨⟨rfl, _, .image rfl⟩, ⟨rfl, _, .measurement rfl⟩⟩
theorem witness_Keeping_forms : Happens Keeping (.partitionSetup [2, 3]) readyDevice :=
  ⟨rfl, _, .forms rfl (by decide) (by decide +kernel) (by decide +kernel)⟩
theorem witness_Keeping_resets : Happens Keeping (.groupReset 0 0) quiet ∧ Happens Keeping (.partitionReset 0) quiet ∧
    Happens Keeping .packageReset quiet :=
  ⟨⟨rfl, _, .groupReset (g := groupOf quiet) (by decide +kernel) (by decide +kernel) (by decide) (by decide +kernel) (by decide +kernel)⟩,
    ⟨rfl, _, .partReset (by decide +kernel)⟩, ⟨rfl, _, .packageReset⟩⟩
def hotState : State := { quiet with temps := [(0, 110)] }
theorem witness_Keeping_heat : Happens Keeping (.thermalTrip 0) hotState ∧
    Happens Keeping (.thermalTrip 0) { quiet with temps := [(0, 109)] } ∧
    Happens Keeping (.temperatureThrottle 16 255) quiet ∧ Happens Keeping (.monitorSample (List.replicate 1040 1)) quiet ∧
        Happens Keeping (.eolPublish 1 999 5) quiet :=
  ⟨⟨rfl, _, .trip (part := 0) (by decide) (by decide +kernel) (by decide +kernel) (by decide +kernel)⟩,
      ⟨rfl, _, .noTrip (by decide +kernel)⟩,
    ⟨rfl, _, .heat (by decide) (by decide)⟩, ⟨rfl, _, .sample (by decide +kernel)⟩, ⟨rfl, _, .endOfLife⟩⟩

/-- A core has had a second uncorrectable error within an hour; one that is being fenced has a block whose save fails. -/
def failingState (core : Nat) : State := setCore quiet core { coreAt quiet core with failing := true }
def fencingState : State :=
  let s := onBlock (fun b => { b with preempt := .saving 8 false none }) quiet
  setCore s 0 { coreAt s 0 with fencing := true }
theorem noReason {s : State} {core : Nat} (h : (s.monitors.isEmpty && !(coreAt s core).failing &&
    s.unsync.isEmpty) = true) : ¬ FenceReason s core := by
  simp only [Bool.and_eq_true, Bool.not_eq_true', List.isEmpty_iff] at h
  rintro (⟨i, v, _, hs, _⟩ | hf | ⟨since, ho, _⟩)
  · simp [h.1.1] at hs
  · simp [h.1.2] at hf
  · simp [h.2] at ho
theorem witness_Keeping_fences : Happens Keeping (.coreFence 191 []) (failingState 191) ∧ Happens Keeping (.coreFence 0 [])
    (failingState 0) ∧
    Happens Keeping (.coreFence 0 [3]) fencingState ∧ Happens Keeping (.coreFence 5 []) quiet :=
  ⟨⟨rfl, _, .fences (by decide) (.errors (by decide +kernel)) (by decide +kernel) (by decide +kernel)⟩,
    ⟨rfl, _, .fenceBegins (by decide) (.errors (by decide +kernel)) (by decide +kernel) (by decide +kernel)⟩,
    ⟨rfl, _, .fenceEnds (b := blockOf3 fencingState) (r := runHere fencingState) (l := launchHere fencingState) (since := 8)
        (late := false) (w := none)
      (by decide) (by decide +kernel) (by decide +kernel) (by decide +kernel) (by decide +kernel) (by decide +kernel) (by decide +kernel)⟩,
    ⟨rfl, _, .noFence (by decide +kernel) (noReason (by decide +kernel))⟩⟩

def fastLink : State := { quiet with linkUp := true, health := { quiet.health with linkr := 4 } }
/-- It has been retraining since tick 8, and has been reported lost or not. -/
def downLink (dt : Nat) (lost : Bool) : State := { fastLink with linkUp := false, dt := dt, retrain := some (8, lost) }
theorem witness_Keeping_links : Happens Keeping .flitReplay quiet ∧ Happens Keeping (.linkRetrain 3 2) fastLink ∧
    Happens Keeping (.linkRetrain 3 2) (downLink 9 false) ∧ Happens Keeping (.linkRetrain 3 2) (downLink 800000008 true) ∧
    Happens Keeping .linkLost (downLink 800000008 false) ∧ Happens Keeping .linkLost (downLink 800000007 false) ∧
    Happens Keeping (.swetafinLaneLoss 11 7) quiet :=
  ⟨⟨rfl, _, .replay⟩, ⟨rfl, _, .retrain rfl⟩,
    ⟨rfl, _, .retrained (since := 8) (lost := false) rfl rfl (fun h => nomatch h) (by decide) (by decide) (by decide +kernel)⟩,
    ⟨rfl, _, .retrained (since := 8) (lost := true) rfl rfl (fun _ => by decide +kernel) (by decide) (by decide) (by decide +kernel)⟩,
    ⟨rfl, _, .lost (since := 8) (lost := false) rfl⟩, ⟨rfl, _, .lost (since := 8) (lost := false) rfl⟩,
        ⟨rfl, _, .laneLoss (by decide) (by decide)⟩⟩
theorem witness_Keeping_slice : Happens Keeping (.sliceRetire 47) quiet :=
  ⟨rfl, _, .slice (part := 0) (by decide +kernel) (by decide +kernel)⟩

/-- Copies of cores and of slices are 3 ticks off, not yet found, and found. -/
def skewedState : State := { quiet with dt := 4096, skewCore := [(5, -3)], skewSlice := [(6, -3), (7, 3)] }
def foundState : State := { skewedState with dt := 2 ^ 20 + 8, unsync := [⟨.core 5, 8⟩, ⟨.slice 6, 8⟩, ⟨.slice 7, 8⟩] }
theorem witness_Keeping_time : Happens Keeping (.dtSyncCheck (.core 5)) skewedState ∧
    Happens Keeping (.dtSyncCheck (.slice 6)) skewedState ∧
    Happens Keeping (.dtReload (.core 5)) foundState ∧ Happens Keeping (.dtReload (.slice 6)) foundState ∧
    Happens Keeping (.dtReload (.slice 7)) foundState ∧
    Happens Keeping (.dtUnsyncTimeout (.core 5)) foundState :=
  ⟨⟨rfl, _, .check (by decide) (by decide) (by decide +kernel)⟩, ⟨rfl, _, .checkSlice (by decide) (by decide) (by decide +kernel)⟩,
    ⟨rfl, _, .reload (by decide +kernel) (by decide +kernel)⟩, ⟨rfl, _, .reloadSlice (by decide +kernel) (by decide +kernel)⟩,
    ⟨rfl, _, .reloadAhead (by decide +kernel) (by decide +kernel) (by decide +kernel)⟩,
    ⟨rfl, _, .timeout (since := 8) (by decide +kernel) (by decide) (by decide +kernel) (by decide +kernel)⟩⟩

end Sys2Proof.Tests
end

