-- ==== Sys2Proof/Tests/WitnessWhole.lean ====
section
/-! SUPPORT. Witnesses for the statements about the whole machine: steps, the invariant, traps, and the shared conditions. -/

namespace Sys2Proof.Tests

set_option Elab.async false

open Sys2Proof.Machine Sys2Proof.Safety

/-! Steps. -/

/-- The small machine with some bytes at the PC of its group and of its context, before a turn. -/
def turnState (bs : List Byte) (t : Turn) : State := { placedBlock (placedMachine State.reset bs) with agenda := [t] }

/-- The word of `imax` that the spec works out in file 15, and that of an `mma` in file 21. -/
def imaxBytes : List Byte := toBytes 4 0xD40E5381
def mmaBytes : List Byte := toBytes 4 0x00004015

theorem witness_StepRunsDecoded_gang :
    let s := { turnState imaxBytes (.issue 0 0 0) with agenda := [] }
    groupAt s 0 0 = some (groupOf s) ∧ gangFree s 0 0 (groupOf s) ((groupOf s).gangStrands 0) = true ∧
    readInstr s (fetchCtx s 0 0 0 (groupOf s)).asker ((partOfCore s 0).getD 0) (groupOf s).dom (fetchCtx s 0 0 0 (groupOf s)).asker.pc =
      .bytes imaxBytes ∧
    decode imaxBytes = .ok (.imax 2 3 10 7 40, []) :=
  ⟨by decide +kernel, by decide +kernel, by decide +kernel, by rfl⟩

theorem witness_StepRunsDecoded_context :
    let s := { turnState mmaBytes (.seq 0 0) with agenda := [] }
    seqView s 0 0 = some (viewOf s) ∧ (viewOf s).idle s = false ∧
    readCode s (viewOf s).asker (viewOf s).part (viewOf s).dom (viewOf s).x.pc.toNat 4 = .bytes mmaBytes ∧
        decodeSeqWord (leNat mmaBytes) = .ok (.mma 0 0 1) :=
  ⟨by decide +kernel, by decide +kernel, by decide +kernel, by rfl⟩

theorem witness_StepRunsDecoded_unit :
    let s := { placedUnit (placedMachine State.reset []) 0x6000003F with agenda := [] }
    nbuRuns s 0 = true ∧ decodeNbuWord (getAt 0 (nbuAt s 0).prog (nbuAt s 0).upc).toNat = .ok .nif :=
  ⟨by decide +kernel, by rfl⟩

theorem witness_StepRunsDecoded_event : (Instr.flitReplay).stream = .event ∧
    (turnState [] (.event .flitReplay)).agenda = [.event .flitReplay] ∧
    (turnState [] .tick).agenda = [.tick] ∧ (turnState [] (.read (.elogack 2))).agenda = [.read (.elogack 2)] := by
  decide +kernel

theorem witness_EncodeThenDecode : ∀ i ∈ [Instr.imax 2 3 10 7 40, .mma 0 0 1, .nif], i.stream ≠ .event ∧ i.wellFormed = true := by
  decide +kernel
theorem witness_EncodeThenDecode_back : decodeStream .core 0xD40E5381 = .ok (.imax 2 3 10 7 40) := by rfl

/-- A step from the state after reset with a turn on the agenda. -/
theorem witness_StepKeepsInv_state : StateInv { State.reset with agenda := [.tick] } :=
  ⟨by decide, by decide, by simp [State.reset], by simp [State.reset], by simp [State.reset], by simp [State.reset], by simp [State.reset],
    by simp [State.reset], by simp [State.reset]⟩
theorem witness_StepKeepsInv_step : ∃ t, step { State.reset with agenda := [.tick] } = .next t := ⟨_, rfl⟩

/-! Traps. -/

def trapState : State := handled { base with cur := .outside }
def trap0 : TrapRec := ⟨3, 0, 0, 0⟩
/-- The handler slot is busy with slot 1. -/
def busyState : State := setGroup trapState 0 handlerSlot { groupOf trapState with uid := 9, block := none, serves := some 1, v := [], strands := (groupOf trapState).strands }

theorem witness_TrapEntry : HandlerFree trapState 0 0 (groupOf trapState) ∧ groupAt trapState 0 0 = some (groupOf trapState) ∧
    ((groupOf busyState).dom.handler ≠ 0 ∧ groupAt busyState 0 handlerSlot ≠ none ∧ groupAt busyState 0 0 = some (groupOf busyState)) ∧
    ((groupOf base).dom.handler = 0 ∧ (groupOf base).calls = [] ∧ groupAt base 0 0 = some (groupOf base)) :=
  ⟨handlerFree _ _ (by decide +kernel), by decide +kernel, ⟨by decide +kernel, by decide +kernel, by decide +kernel⟩, by decide +kernel,
      by decide +kernel,
    by decide +kernel⟩

/-- The handler serves slot 0, with the control word at 0 and at 1. -/
def servedState (control : Word) : State :=
  setGroup (onGroup (fun g => { g with stop := .served trap0 }) trapState) 0 handlerSlot
    { groupOf trapState with uid := 9, block := none, serves := some 0, control := control }
def handlerOf (s : State) : Group := (groupAt s 0 handlerSlot).getD (groupOf s)

theorem witness_TrapReturn : ∀ control ∈ [(0 : Word), 1],
    groupAt (servedState control) 0 handlerSlot = some (handlerOf (servedState control)) ∧
    (handlerOf (servedState control)).serves = some 0 ∧ groupAt (servedState control) 0 0 = some (groupOf (servedState control)) ∧
    (groupOf (servedState control)).stop = .served trap0 ∧ (handlerOf (servedState control)).control = control ∧
    (groupOf (servedState control)).live ≠ [] ∧ (groupOf (servedState control)).calls = [] := by
  intro control h
  simp only [List.mem_cons, List.not_mem_nil, or_false] at h
  rcases h with rfl | rfl <;> decide +kernel

/-! The shared conditions. -/

theorem ready_free (s : State) (n : Needs) (h : (decide (s.cur = .gang 0 0 0) && decide (groupAt s 0 0 = some (groupOf s)) &&
    decide ((groupOf s).stop = .running) && decide (((blockOf s (groupOf s)).getD (blockOf3 s)).seqFault = none) &&
    decide ((groupOf s).gangStrands 0 ≠ []) && decide (∀ p ∈ (coreAt s 0).portUsed, p < 4 → p < portOf (groupOf s) 0) &&
    ((groupOf s).gangStrands 0).all (fun i => decide (((groupOf s).strand i).held = none) &&
        decide (((groupOf s).strand i).prev = none))) = true) :
    Ready n s 0 0 0 (groupOf s) := by
  simp only [Bool.and_eq_true, decide_eq_true_eq] at h
  obtain ⟨⟨⟨⟨⟨⟨h1, h2⟩, h3⟩, h4⟩, h5⟩, h6⟩, h7⟩ := h
  have h8 := fun i hi => by
    have := List.all_eq_true.1 h7 i hi
    simpa using this
  exact ⟨h1, h2, h3, fun b hb => by rw [hb] at h4; exact h4, h5, h6, fun i hi => .inl (h8 i hi).1,
      fun i hi t ht => by rw [(h8 i hi).2] at ht; cases ht⟩

/-- `iadd v4, v5, v6` and states that meet each condition: an early register, an empty one without and with the trap, a dead one, a
wrong tag, a result not yet readable, a loop that ends inside the instruction, and poison. -/
def add0 : Instr := .iadd 0 0 4 5 6
def needs0 : Needs := lane 4 0 0 [5, 6] 4
def shared (f : Group → Group) : State := { onGroup f base with dt := 8 }

theorem witness_SharedConditions : commonRow add0 = some needs0 ∧ InZone needs0.zone 0 (groupOf base) := ⟨rfl, trivial⟩

def emptyReg (g : Group) : Group := g.setV 5 { VReg.start with full := false }
def conditionStates : List State :=
  [shared (fun g => { g with nv := 4 }), shared emptyReg, shared (fun g => { emptyReg g with gmode := 1 }),
    shared (fun g => { g.setV 5 { VReg.start with dead := true } with gmode := 2 }),
        shared (fun g => g.setV 5 { VReg.start with tag := 9 }),
    shared (fun g => { g.setV 5 { VReg.start with olds := [⟨9, 1, []⟩] } with gmode := 4 }),
    shared (fun g => { g with strands := g.strands.map (fun t => { t with loops := [⟨0, 2, 1⟩] }) }),
    shared (fun g => g.setV 5 { VReg.start with poison := 1 })]

theorem witness_SharedConditions_ready : ∀ s ∈ conditionStates, Ready needs0 s 0 0 0 (groupOf s) := by
  intro s hs
  simp only [conditionStates, List.mem_cons, List.not_mem_nil, or_false] at hs
  rcases hs with rfl | rfl | rfl | rfl | rfl | rfl | rfl | rfl <;> exact ready_free _ _ (by decide +kernel)

def condOf (k : Nat) : State := conditionStates.getD k base
def ctxOf (k : Nat) : Ctx := ctx needs0 (condOf k)

theorem witness_SharedConditions_alloc : ¬ Allocated needs0 (groupOf (condOf 0)) := fun h => absurd (h.vector 5 (by decide))
    (by decide +kernel)
theorem witness_SharedConditions_empty : ¬ SourcesFull needs0 (groupOf (condOf 1)) ∧ (groupOf (condOf 1)).gmode.getLsbD 0 = false ∧
    ¬ SourcesFull needs0 (groupOf (condOf 2)) ∧ (groupOf (condOf 2)).gmode.getLsbD 0 = true :=
  ⟨fun h => absurd (h.1 5 (by decide)) (by decide +kernel), by decide +kernel, fun h => absurd (h.1 5 (by decide)) (by decide +kernel),
      by decide +kernel⟩
theorem witness_SharedConditions_dead : DeadRead needs0 (ctxOf 3) := ⟨by decide +kernel, 5, by decide, by decide +kernel⟩
/-- `fclass v4, v5`. -/
def needs1 : Needs := { lane 4 0 0 [5] 4 with tags := [(5, [0, 2])] }
theorem witness_SharedConditions_tag : commonRow (.fclass 0 0 4 5) = some needs1 ∧ TagWrong needs1 (ctx needs1 (condOf 4)) :=
  ⟨rfl, (5, [0, 2]), by decide, by decide +kernel⟩
theorem witness_SharedConditions_early : EarlyRead needs0 (condOf 5)
    (ctxOf 5) := ⟨by decide +kernel, .inl ⟨5, by decide, by decide +kernel, by decide +kernel⟩⟩
theorem witness_SharedConditions_stop : EndInside needs0 (ctxOf 6) := ⟨0, by decide +kernel, ⟨0, 2, 1⟩, [], by decide +kernel,
    by decide +kernel, by decide +kernel⟩
theorem witness_SharedConditions_poison : PoisonRead needs0 (ctxOf 7) := .inl ⟨5, by decide, by decide +kernel⟩

/-- A result still on its way to the destination. -/
def comingState : State := shared (fun g => g.setV 4 { VReg.start with full := false })
theorem witness_SharedConditions_busy : Ready needs0 comingState 0 0 0 (groupOf comingState) ∧ SourcesFull needs0 (groupOf comingState) ∧
    ¬ Arrived needs0 comingState (groupOf comingState) :=
  ⟨ready_free _ _ (by decide +kernel), ⟨by decide +kernel, by decide +kernel⟩, fun h => absurd (h.vdst 4 (by decide)).1 (by decide +kernel)⟩

/-- `fadd`, `pack`, a load and a scratchpad store in the states of the first, the sixth and the seventh condition. -/
def wider (i : Instr) : List Needs := ((floatRow base i).map FloatRow.needs).toList ++ ((packRow i).map (fun x => x.1.needs)).toList ++
  ((accessRow i).map AccessRow.needs).toList ++ ((scratchRow i).map ScratchRow.needs).toList
theorem witness_SharedConditions_wider : ∀ i ∈ [Instr.fadd 0 0 4 5 6, .pack 0 0 4 5 6, .ld32 0 0 4 5 0 false, .sts32 0 0 4 5 0], ∃ n,
    wider i = [n] ∧
    ∀ k ∈ [0, 5, 6], Ready n (condOf k) 0 0 0 (groupOf (condOf k)) ∧ InZone n.zone 0 (groupOf (condOf k)) := by
  intro i hi
  have hz : ∀ k ∈ [0, 5, 6], (groupOf (condOf k)).calls = [] := by decide +kernel
  simp only [List.mem_cons, List.not_mem_nil, or_false] at hi
  rcases hi with rfl | rfl | rfl | rfl <;>
    refine ⟨_, rfl, fun k hk => ⟨?_, ?_⟩⟩ <;>
    first
    | trivial
    | exact ⟨hz k hk, by decide⟩
    | (simp only [List.mem_cons, List.not_mem_nil, or_false] at hk
       rcases hk with rfl | rfl | rfl <;> exact ready_free _ _ (by decide +kernel))

/-- `ldc` inside a gate call. -/
def insideState : State := shared (fun g => { g with calls := [call0 g] })
theorem witness_SharedConditions_zone : ∃ n, zonedRow (.ldc 0 4 8 0) = some n ∧ Ready n insideState 0 0 0 (groupOf insideState) ∧
    ¬ InZone n.zone 0 (groupOf insideState) := by
  refine ⟨_, rfl, ready_free _ _ (by decide +kernel), fun h => ?_⟩
  have h' : (groupOf insideState).calls = [] := h.1
  revert h'
  decide +kernel

theorem witness_NoTurnNoEffect : add0.stream = .core ∧ (base.cur = .gang 0 0 0 ∧ NoTurn { base with groups := [] } 0 0 0) ∧
    ∀ core slot gang, quiet.cur ≠ .gang core slot gang :=
  ⟨rfl, ⟨rfl, .inl rfl⟩, fun _ _ _ h => nomatch h⟩

end Sys2Proof.Tests
end

