-- ==== Sys2Proof/Tests/Slice0.lean ====
section
/-! SUPPORT. The model's own tests: ill-formed terms, words that the spec writes out, and single steps whose results the spec states. -/

namespace Sys2Proof.Tests

set_option Elab.async false

open Sys2Proof.Machine Sys2Proof.Safety

/-! Ill-formed terms, one or more for each check of WellFormed. -/

def refusedAll (is : List Instr) : Bool := is.all (fun i => !i.wellFormed)

/-- Combine values from 4 on (R222). -/
theorem test_illFormed_combine : refusedAll [.isetpEq 0 0 1 4 4 8, .fsetpUn 0 0 1 7 4 8, .ssetpUlt 0 0 1 5 4 8,
    .nbuFcmp .eq 4 0 1] = true := by decide +kernel
/-- Odd pairs and quads that are no multiple of 4 (R47, R260, R265, R268, R301, R302). -/
theorem test_illFormed_pairs : refusedAll [.ld64 0 0 5 8 4 false, .ld128 0 0 6 8 4 false, .st64 0 0 5 8 4, .st128 0 0 2 8 4,
    .lds64 0 0 5 8 0,
    .lds128 0 0 6 8 0, .sts64 0 0 5 8 0, .sts128 0 0 6 8 0, .atomCas 0 0 5 8 4, .redAddx 0 0 5 8 4 false, .wlpop 0 0 5 0,
        .wlins 0 0 5 0] = true := by
  decide +kernel
/-- Base code 31 with an odd vector pair; window codes from 16 on; records above 30; flags above 11 (R21, R223, R265, R267). -/
theorem test_illFormed_base : refusedAll [.ld32 0 0 4 9 31 false, .st32 0 0 4 9 31, .atomAdd 0 0 4 9 31, .redAdd 0 0 4 9 31 false,
    .lds32 0 0 4 8 16,
    .sts32 0 0 4 8 31, .wset 0 0 31, .cpyG2s 0 0 0 31, .pkq 0 0 12 8, .coll 0 0 15 8] = true := by decide +kernel
/-- Destination formats that a conversion does not list, tags above 12 (R250, R251). -/
theorem test_illFormed_formats : refusedAll [.cvt 0 0 4 5 0x0A, .cvt 0 0 4 5 0x11, .cvt 0 0 4 5 0x3C, .f2i 0 0 4 5 0x02,
    .f2i 0 0 4 5 0x20, .i2f 0 0 4 5 0x00,
    .i2f 0 0 4 5 0x3C, .tagset 0 0 4 5 13] = true := by decide +kernel
/-- Special registers that Table 4.2 does not list, an odd destination of a pair, a guard with a uniform destination (R48, Table 19.6). -/
theorem test_illFormed_special : refusedAll [.getsr 0 0 4 false 7, .getsr 0 0 4 false 16, .getsr 0 0 5 false 6, .getsr 0 0 5 true 13,
    .getsr 0 1 4 true 0,
    .setsr 0 4 false 7, .setsr 0 4 true 511] = true := by decide +kernel
/-- `dead` ranges and `spawn` quads (R58, R284). -/
theorem test_illFormed_ranges : refusedAll [.dead 0 4 0, .dead 0 60 5, .dead 0 0 65, .spawn 0 6, .spawn 0 61] = true := by decide +kernel
/-- Odd sequencer pairs, reserved element sizes, and a window number without a window (R219, R307, R310 to R315). -/
theorem test_illFormed_sequencer : refusedAll [.maddW 1 2 4, .maddW 2 1 4, .maddW 2 4 1, .maddWImm 1 2 0, .tld 0 1 false 0 8 0 false,
    .tld 0 2 false 0 9 0 true,
    .tldt 0 1 false 0 8 0, .tldt 0 2 false 0 8 3, .mmam 0 1 2 4, .mmam 0 2 1 4, .mdrain 0 5, .mupd 0 5, .bpopT 0 3,
        .tld 0 2 false 1 8 0 false,
    .tldt 0 2 false 15 8 0] = true := by decide +kernel
/-- Configurations that R130 refuses: T = 3, SM = 2, mixed classes, no class, an integer format without ACC, scales with integers and with
16-bit formats. -/
theorem test_illFormed_config : refusedAll [.tcfg 3 false false 0 0x2C 0x2C, .tcfg 0 false false 2 0x2C 0x2C,
    .tcfg 0 false false 0 0x2C 0x03,
    .tcfg 0 false false 0 0x02 0x02, .tcfg 0 false false 0 0x07 0x07, .tcfg 0 false true 0 0x2C 0x2C, .tcfg 0 false true 1 0x07 0x07,
    .tcfg 0 false false 1 0x03 0x03, .tcfg 0 false true 0 0x07 0x2C] = true := by decide +kernel
/-- Sources as destinations, and a column register without X (R226, R320). -/
theorem test_illFormed_unit : refusedAll [.nrd 12 0 0 false, .nrd 0 1 0 false, .nwr 0 1 0 false, .nsum 15 0 false,
    .nbuIalu .iadd 12 0 1, .nbuLogic .and 13 0 1,
    .nbuFalu .fadd 14 0 1, .nbuFfma 15 0 1 2, .nbuMovi false 12 5] = true := by decide +kernel
/-- The same fields at their bounds are accepted. -/
theorem test_wellFormed_bounds : [Instr.isetpEq 0 0 1 3 4 8, .ld128 0 0 60 8 31 false, .lds32 0 0 4 8 15, .wset 0 15 30,
    .cpyG2s 0 0 11 30, .cvt 0 0 4 5 0x3B,
    .f2i 0 0 4 5 0x09, .i2f 0 0 4 5 0x3B, .tagset 0 0 4 5 12, .getsr 0 0 4 true 15, .dead 0 59 5, .dead 0 0 64, .spawn 0 60,
        .tcfg 2 true false 1 0x2C 0x25,
    .tld 7 3 true 15 9 63 false, .tldt 7 2 false 0 8 2, .tldt 0 3 true 15 8 0, .nwr 15 0 31 false,
        .nbuFcmp .un 3 15 15].all Instr.wellFormed = true := by decide +kernel

/-! Words that the spec writes out, by family. -/

def reads (dec : Nat → Except DecodeError Instr) (w : Nat) (i : Instr) : Bool :=
  match dec w with
  | .ok j => decide (i = j)
  | .error _ => false
def allRead (dec : Nat → Except DecodeError Instr) (l : List (Nat × Instr)) : Prop := ∀ e ∈ l, reads dec e.1 e.2 = true ∧ encode e.2 = e.1

/-- Integer, logic and bit fields, compares, immediates (files 02, 15, 16, 24). -/
theorem test_words_integer : allRead decodeCoreWord [(0xD40E5381, .imax 2 3 10 7 40), (0x00841141, .iadd 1 1 2 2 1),
    (0x41020841, .imul 1 0 1 1 2),
    (0x81841045, .shl 1 0 2 2 3), (0x00800045, .and 1 0 0 0 1), (0x87847207, .sel 0 2 14 2 15), (0xE18E3047, .lea8 1 0 6 7 3),
        (0xC0861047, .lea4 1 0 2 3 1),
    (0x3C088889, .isetpNe 2 0 1 2 4 56), (0xC5206049, .isetpUlt 1 0 4 1 16 10),
        (0x000020DD, .movi 3 2)] := by unfold allRead; decide +kernel
/-- Floating point, functions, conversions, packed and dot forms (files 02, 17, 23, 25). -/
theorem test_words_float : allRead decodeCoreWord [(0x0080200B, .fadd 0 0 4 0 1), (0x420828CB, .fmul 3 0 5 4 4),
    (0x220C40CB, .fsub 3 0 8 6 4),
    (0x284041CF, .ffma 3 1 1 4 10), (0x08000113, .ffmaC 0 1 0 0 2), (0x20041815, .frsq 0 0 3 2), (0x000418D5, .frcp 3 0 3 2),
        (0x16002017, .cvt 0 0 4 0 0x2C),
    (0xE28840D9, .pack 3 0 8 4 5), (0x3FA0001F, .movf 0 0x3FA00)] := by unfold allRead; decide +kernel
/-- The literal word follows: 0x0000_0111 and 0x3F80_0000 (file 15). -/
theorem test_words_literal : allRead decodeCoreWord [(0x0000000111 + 0x3F800000 * 2 ^ 32, .ffmaL 0 1 0 0 0x3F800000),
    (0x000B183B + 2 ^ 32, .fbp 0 11 1 0)] := by unfold allRead; decide +kernel
/-- Memory (files 02, 18, 24, 25, 27, 28). -/
theorem test_words_memory : allRead decodeCoreWord [(0x52040061, .ldF32 1 0 0 2 4 false), (0x42061021, .ld32 0 0 2 3 4 false),
    (0x620A0021, .ld64 0 0 0 5 4 false),
    (0x230428E3, .st32 3 0 5 2 6), (0x428E4023, .st128 0 0 8 7 5), (0x52020863, .stN4 1 0 1 1 4), (0x00040065, .lds32 1 0 0 2 0),
        (0x402A2265, .sts64 1 2 4 21 0),
    (0x203EC025, .lds128 0 0 24 31 0), (0x60804825, .ldc 0 9 0 1), (0x75000025, .wset 0 0 10),
        (0x922CC469, .redAddf 1 4 24 22 4 true)] := by
  unfold allRead; decide +kernel
/-- Lanes, uniform registers, control, the system (files 02, 07, 13, 14, 16, 19, 20). -/
theorem test_words_control : allRead decodeCoreWord [(0x6088285B, .shflXor 1 0 5 4 1), (0x0588685B, .shflIdx 1 0 13 4 11),
    (0x01924971, .sadd 1 1 9 9 3),
    (0xE1100873, .ssetpUlt 1 0 1 0 8 2), (0xFFFF0235, .smovi 8 0xFFFF0), (0x0000C137, .bra 0 1 3), (0x00024977, .braQ 1 1 9),
        (0x0001A037, .brx 0 0 6),
    (0x00D03877, .jtab 1 0 0 13)] ∧
    allRead decodeCoreWord [(0x00001839, .fenceB 0), (0x00011839, .fenceD 0), (0x00021839, .fenceS 0), (0x0305003B, .loop 0 5 12),
        (0x0204083B, .loopi 0 4 2),
    (0x0000203B, .pret 0), (0x0002103D, .getsr 0 0 2 false 0), (0x0140103D, .getsr 0 0 0 true 2), (0x0005203D, .gcall 0 5),
        (0x0000283D, .gret 0),
    (0x0003303D, .gabort 0 3), (0x0000417D, .exit 1 1)] := by unfold allRead; decide +kernel
/-- Lattices, engine commands and lists (files 02, 20, 28). -/
theorem test_words_engines : allRead decodeCoreWord [(0x0980406B, .ildg 1 0 8 0 3), (0x3084402B, .icell 0 0 8 2 1),
    (0x2884502B, .iwgt 0 0 10 2 1),
    (0x1100402B, .ispl 0 0 8 0 2), (0x0400082D, .pkq 0 0 1 8), (0x2500086D, .pkb 1 0 1 10), (0x0400006F, .cpyG2s 1 0 0 8),
        (0x350C102F, .cpyCmp 0 0 2 6 10),
    (0x8600002F, .coll 0 0 0 12), (0x2080203F, .wlpop 0 0 4 1), (0xC184303F, .merge 0 0 6 2 3)] := by unfold allRead; decide +kernel
/-- Compact instructions (files 15, 19, 25, 28). -/
theorem test_words_compact : allRead decodeCoreWord [(0x0000, .compactMov 0 0), (0x3F80, .compactMov 28 15),
    (0x2822, .compactIadd 1 10), (0x2454, .compactFadd 2 9),
    (0x66AE, .compactShl 21 25), (0xFF44, .braS 0x3FA), (0x80C4, .braS 6), (0x8006, .compactExit), (0x8008, .barS 0),
        (0x804A, .waitfS 2), (0x802A, .waitfS 1),
    (0x8018, .joinS)] := by unfold allRead; decide +kernel
/-- The sequencer stream of file 21. -/
theorem test_words_sequencer : allRead decodeSeqWord [(0x00000023, .mbarW 0), (0x00B2C00D, .tcfg 0 false false 0 0x2C 0x2C),
    (0x00B2C18D, .tcfg 2 true false 0 0x2C 0x2C),
    (0x03E0000F, .tld 0 0 false 0 8 15 false), (0x0FE4044F, .tld 1 2 false 0 9 63 false), (0x00004015, .mma 0 0 1),
        (0x0400C005, .maddWImm 0 0 1024),
    (0xFFFFDD07, .mbnz 4 true 0x1FFFFB), (0x00003019, .mdrain 0 6), (0x00000061, .mbarA 1),
        (0x0000000B, .mhalt)] := by unfold allRead; decide +kernel
/-- Near-bank programs of files 21 and 26. -/
theorem test_words_unit : allRead decodeNbuWord [(0x4600000D, .nbuFcmp .lt 0 0 12), (0x6000003F, .nif),
    (0x4680000B, .nbuFalu .fmul 0 0 13), (0x8000003F, .nelse),
    (0x0700000B, .nbuFalu .fadd 0 0 14), (0xA000003F, .nendif), (0x0010400B, .nbuFalu .fadd 8 8 0), (0x108C083F, .nrd 1 6 1 true),
        (0x308C083F, .nwr 1 6 1 true),
    (0x04C0010F, .nbuFfma 1 0 12 1), (0xC012403F, .nsum 8 9 false), (0x468C3005, .nbuLogic .xor 6 6 13), (0x4080003F, .nnext 0 true),
        (0xE000003F, .nend)] := by
  unfold allRead; decide +kernel

/-- What a decoder answers, in brief: 1 no such word, 2 a field it may not hold. -/
def refusal (x : Except DecodeError Instr) : Nat :=
  match x with
  | .error .illegal => 1
  | .error .reserved => 2
  | _ => 0

/-- Fates of words of Table 33.2. -/
theorem test_refusals_core : ([0x801C, 0x0000603D, 0xE000003F].all (fun w => refusal (decodeCoreWord w) = 1) &&
    [0x8208, 0x00010009, 0x00031839].all (fun w => refusal (decodeCoreWord w) = 2)) = true := by decide +kernel
/-- A context reads 0x0001_0009 as a jump of 1,024 words, and no word without bit 0, of a major from 0x12 on, or with an unnamed bit set. -/
theorem test_refusals_sequencer : (reads decodeSeqWord 0x00010009 (.mjmp 1024) && reads decodeSeqWord 1 .mnop &&
    [0x00000000, 0x00031839, 0x0000603D, 0xE000003F, 0x0000003F,
        0x80000001].all (fun w => refusal (decodeSeqWord w) != 0)) = true := by decide +kernel
/-- A near-bank program reads `nend`, `nrd k0, [#0]` and `iadd k0, k0, k0`, and rejects majors outside its subset and the zero word. -/
theorem test_refusals_unit : (reads decodeNbuWord 0xE000003F .nend && reads decodeNbuWord 0x0000003F (.nrd 0 0 0 false) &&
    reads decodeNbuWord 1 (.nbuIalu .iadd 0 0 0) &&
    [0x00010009, 0x00031839, 0x0000603D, 0].all (fun w => refusal (decodeNbuWord w) != 0)) = true := by decide +kernel

/-! Single steps. -/

/-- The group, and lane 0 of a register of it, after one instruction. -/
def after (s : State) (i : Instr) : Group :=
  match exec i s with
  | .next t => groupOf t
  | _ => handlerGroup 0 0 ⟨0, [], 0, 0⟩ ⟨0, 0, 0, 0⟩
def result (s : State) (i : Instr) (d : Nat) : Nat := ((after s i).vreg d).lanes.headD 0 |>.toNat
/-- What an instruction of variable latency sends to a lane of a register. -/
def sent (s : State) (i : Instr) (d l : Nat) : Nat :=
  match exec i s with
  | .next t => t.replies.foldl (fun z r => match r.2.kind with
    | .lanes ws _ => ws.foldl (fun z w => if w.1 = d ∧ w.2.1 = l then w.2.2.toNat else z) z
    | _ => z) 0
  | _ => 0

/-- v4 = 0x4433_2211 as the old destination, v5 = 0x8000_00F5, and v6 as stated. -/
def withB (b : Nat) : State := onGroup (vregs [(4, 0x44332211), (5, 0x800000F5), (6, BitVec.ofNat 32 b)]) base

/-- Table 16.2. -/
theorem test_table_16_2_shifts : ([Instr.shl 0 0 4 5 6, .shr 0 0 4 5 6, .sar 0 0 4 5 6,
    .rot 0 0 4 5 6].map (fun i => result (withB 4) i 4) =
    [0x00000F50, 0x0800000F, 0xF800000F, 0x00000F58]) ∧
    ([Instr.shr 0 0 4 5 6, .sar 0 0 4 5 6, .rot 0 0 4 5 6].map (fun i => result (withB 40) i 4) = [0, 0xFFFFFFFF,
        0x0000F580]) := by decide +kernel
theorem test_table_16_2_fields : ([Instr.bfe 0 0 4 5 6, .bfes 0 0 4 5 6].map (fun i => result (withB 0x404) i 4) = [0xF, 0xFFFFFFFF]) ∧
    ([Instr.bfe 0 0 4 5 6, .bfes 0 0 4 5 6].map (fun i => result (withB 0x81C) i 4) = [8, 0xFFFFFFF8]) ∧
    result (withB 0xF98) (.bmix 0 0 4 5 6) 4 = 0x44FF80F5 := by decide +kernel
theorem test_table_16_2_one : [Instr.popc 0 0 4 5, .clz 0 0 4 5, .brev 0 0 4 5, .iabs 0 0 4 5,
    .ineg 0 0 4 5].map (fun i => result (withB 0) i 4) =
    [7, 0, 0xAF000001, 0x7FFFFF0B, 0x7FFFFF0B] := by decide +kernel
theorem test_table_16_2_products : ([Instr.imul 0 0 4 5 6, .imulhs 0 0 4 5 6, .imulhu 0 0 4 5 6].map (fun i => result (withB 2) i 4) =
    [0x1EA, 0xFFFFFFFF, 1]) ∧ result (withB 0x80000000) (.iadds 0 0 4 5 6) 4 = 0x80000000 := by decide +kernel

/-- 1 + 2^-12 squared less 1: fused, and rounded between (file 17). -/
def fusedState : State := onGroup (vregs [(5, 0x3F800800), (6, 0x3F800800), (7, 0xBF800000), (8, 0x3A000400)]) base
theorem test_ffma_exact : result fusedState (.ffma 0 4 5 6 7) 4 = 0x3A000400 ∧
    (after fusedState (.ffma 0 4 5 6 7)).fpf = 0 := by decide +kernel
theorem test_fmul_rounds : result fusedState (.fmul 0 0 4 5 6) 4 = 0x3F801000 ∧
    (after fusedState (.fmul 0 0 4 5 6)).fpf ≠ 0 := by decide +kernel
/-- `frsq` of 4.0 gives 0.5 and no flag (file 17). -/
theorem test_frsq : sent (onGroup (vregs [(2, 0x40800000)]) base) (.frsq 0 0 3 2) 3 0 = 0x3F000000 := by decide +kernel

/-- 3.3, 300.0, 0.5 and -1.0 into the default binary8, and two of them packed (files 05 and 17). -/
def narrowState : State := onGroup (fun g => tags [(0, 2), (1, 2), (2, 2), (3, 2)]
  (vregs [(0, 0x40533333), (1, 0x43960000), (2, 0x3F000000), (3, 0xBF800000)] g)) base
theorem test_cvt_binary8 : [0, 1, 2, 3].map (fun (k : Fin 64) => result narrowState (.cvt 0 0 4 k 0x2C) 4) = [0x4D, 0x7F, 0x38, 0xC0] := by
  decide +kernel
/-- 5.0 ties to 4.0, and 7.0 overflows to 6.0, in FP4-E2M1 (file 05). -/
theorem test_cvt_fp4 : [5,
    7].map (fun (k : Fin 64) => result (onGroup (fun g => tags [(5, 2), (7, 2)] (vregs [(5, 0x40A00000), (7, 0x40E00000)] g)) base)
    (.cvt 0 0 4 k 0x10) 4) = [6, 7] := by
  decide +kernel
theorem test_pack_binary8 :
    let s := onGroup (fun g => tags [(4, 6), (5, 6), (8, 6)] (vregs [(4, 0x4D), (5, 0x7F), (8, 0xC038)] g)) base
    result s (.pack 0 0 8 4 5) 8 = 0xC0387F4D := by decide +kernel

/-- The tree of file 19: 2^24 in lane 0 and 1.0 in the others. -/
theorem test_redadd_tree :
    let s := onGroup (fun g => g.setV 5 { VReg.start with lanes := 0x4B800000 :: List.replicate 31 0x3F800000 }) base
    [0, 31].map (sent s (.redaddF 0 0 4 5) 4) = [0x4B80000F, 0x4B80000F] := by decide +kernel

/-- The merge, the intersection and the union of file 20. -/
def keyState : State := onGroup (fun g => (g.setV 2 { VReg.start with lanes := [1, 3, 5, 7] ++ List.replicate 28 0xFFFFFFFF }).setV 3
  { VReg.start with lanes := [3, 4, 5] ++ List.replicate 29 0xFFFFFFFF }) base
theorem test_merge_keys : ((List.range 8).map (sent keyState (.merge 0 0 6 2 3) 6) = [1, 3, 3, 4, 5, 5, 7, 0xFFFFFFFF]) ∧
    sent keyState (.merge 0 0 6 2 3) 7 0 = 0xFFFFFFFF := by decide +kernel
theorem test_set_keys : ((List.range 3).map (sent keyState (.isect 0 0 6 2 3) 6) = [3, 5, 0xFFFFFFFF]) ∧
    ((List.range 6).map (sent keyState (.union 0 0 6 2 3) 6) = [1, 3, 4, 5, 7, 0xFFFFFFFF]) := by decide +kernel

/-- The home of an address on the second die (R76, worked under R78), and its home slice by the formula of R84: line 0x1E00_0080_0075
hashes to 0x1EF5, and 7,925 mod 48 is 5 (the worked sentence under R84 drops a digit of the line, log 24). -/
def secondDie : Part := { Part.reset with dies := [1] }
theorem test_home : homeStack secondDie 0xF000040003A80 = some (4, 2 ^ 48 + 0x15556 * 4096 + 0xA80) ∧
    homeSlice secondDie 0xF000040003A80 = 53 := by
  decide +kernel
/-- The hashed corner (5, 3, 2) with L = 10 reads entry 846 (R118). -/
theorem test_hash : Lattice.address { Lattice.ofBytes [] with kind := 1, l := 10, ch := 1, fmt := 2 } [5, 3,
    2] 0 = 846 * 4 := by decide +kernel

/-- Cubic weights and the cell of coordinate 3.5 in a lattice of 8 elements (file 20). -/
def cubicState : State :=
  onGroup (vregs [(2, 0x40600000)]) (onRun (fun r => { r with lattice :=
    [toBytes 8 0x3000 ++ [0, 1, 2, 1, 3, 0, 0,
        0] ++ toBytes 4 8 ++ List.replicate 8 0 ++ toBytes 4 0x3F800000 ++ List.replicate 32 0] }) base)
theorem test_iwgt : (List.range 8).map (fun k => sent cubicState (.iwgt 0 0 10 2 0) (10 + k) 0) =
    [0xBD800000, 0x3F100000, 0x3F100000, 0xBD800000, 0x3E000000, 0xBFB00000, 0x3FB00000, 0xBE000000] := by decide +kernel
theorem test_icell : [8, 9].map (fun k => sent cubicState (.icell 0 0 8 2 0) k 0) = [3, 32768] := by decide +kernel

/-- The near-bank fragment of file 21: the compare, and the lanes that `nelse` enables. -/
def fragmentState (masks : List (BitVec 8)) : State :=
  let s := unitState masks 0x25 0
  setNbu s 0 { nbuAt s 0 with
    k := [(0, [0xC0000000, 0x40400000, 0xBF800000, 0x40A00000, 0, 0xC0800000, 0x40C00000, 0x3F800000])],
        e := [0, 0xBF800000, 0x3F000000, 0] }
def unitAfter (s : State) (i : Instr) : Nbu :=
  match exec i s with
  | .next t => nbuAt t 0
  | _ => Nbu.reset
theorem test_unit_compare : (unitAfter (fragmentState []) (.nbuFcmp .lt 0 0 12)).cond = 0x25 := by decide +kernel
theorem test_unit_else : (unitAfter (fragmentState [0x25, 0xFF]) .nelse).masks.headD 0 = 0xDA := by decide +kernel
theorem test_unit_multiply : getAt [] (unitAfter (fragmentState [0x25]) (.nbuFalu .fmul 0 0 13)).k 0 =
    [0x40000000, 0x40400000, 0x3F800000, 0x40A00000, 0, 0x40800000, 0x40C00000, 0x3F800000] := by decide +kernel

end Sys2Proof.Tests
end

