-- ==== Sys2Proof/Tests/WitnessTraps.lean ====
section
/-! SUPPORT. Witnesses for the statements about where instructions trap for conditions of their own. -/

namespace Sys2Proof.Tests

set_option Elab.async false

open Sys2Proof.Machine Sys2Proof.Safety

/-- An instruction may issue in a state, and meets a condition of its own there. -/
def MeetsTrap (i : Instr) (n : Needs) (s : State) (code strand va : Nat) : Prop :=
  MayIssue n s 0 0 0 (groupOf s) ∧ OwnTrap i n (ctx n s) s code strand va

/-- v8 holds a multiple of its number in each lane. -/
def stepped (k : Nat) : State := onGroup (fun g => g.setV 8 { VReg.start with lanes := (List.range 32).map (fun l => BitVec.ofNat 32 (k * l)) }) base

/-- Lane 2 of `ld.32` and of `red.add`, and lane 6 of a store, reach VA 0x200000, beyond the range; lanes of `ld.64` are not aligned. -/
theorem witness_OwnTrap_denied : ∃ x, accessRow (.ld32 0 0 4 8 0 false) = some x ∧
    MeetsTrap (.ld32 0 0 4 8 0 false) x.needs (stepped 0x100000) 0x0C 0 0x200000 :=
  ⟨_, rfl, mayIssue_of_may (by decide +kernel), .denied rfl (l := 2) (by unfold LowestLane; decide +kernel) (by decide +kernel)⟩
theorem witness_OwnTrap_denied_store : ∃ x, accessRow (.st32 0 0 4 8 0) = some x ∧
    MeetsTrap (.st32 0 0 4 8 0) x.needs (stepped 0x55556) 0x0C 1 0x200004 :=
  ⟨_, rfl, mayIssue_of_may (by decide +kernel), .denied rfl (l := 6) (by unfold LowestLane; decide +kernel) (by decide +kernel)⟩
theorem witness_OwnTrap_unaligned : ∃ x, accessRow (.ld64 0 0 4 8 0 false) = some x ∧
    MeetsTrap (.ld64 0 0 4 8 0 false) x.needs (stepped 4) 0x11 0 (misalignedVa (ctx x.needs (stepped 4)) 4) :=
  ⟨_, rfl, mayIssue_of_may (by decide +kernel), .unaligned rfl (l := 1) (by decide +kernel) (by unfold LowestLane; decide +kernel)⟩

/-- A window of 4,096 bytes; granule 0 is an engine's and the core traps for it; and lane 1 is not aligned. -/
def windowed (k : Nat) (owned : Bool) : State :=
  let s := onBlock (fun b => { b with windows := [(0, ⟨0, 4096, []⟩)], engine := if owned then [(0, true)] else [] }) (stepped k)
  setCore s 0 { coreAt s 0 with ownTrap := owned }
theorem witness_OwnTrap_outside : ∃ x, scratchRow (.lds32 0 0 4 8 0) = some x ∧
    MeetsTrap (.lds32 0 0 4 8 0) x.needs (windowed 512 false) 0x0D 2 0 :=
  ⟨_, rfl, mayIssue_of_may (by decide +kernel), .outside rfl (l := 8) (by unfold LowestLane OutOfWindow; decide +kernel)⟩
theorem engineHolds_of {c : Ctx} {s : State} {n a size l : Nat} (h : (match blockOf s c.g with
    | some b => (coreAt s c.core).ownTrap && engineOwned b (windowPlace c s n a l) size
    | none => false) = true) : EngineHolds c s n a size l := by
  unfold EngineHolds
  cases hb : blockOf s c.g with
  | none => simp [hb] at h
  | some b =>
    simp only [hb, Bool.and_eq_true] at h
    exact ⟨h.1, b, rfl, h.2⟩
theorem witness_OwnTrap_owned : ∃ x, scratchRow (.lds32 0 0 4 8 0) = some x ∧
    MeetsTrap (.lds32 0 0 4 8 0) x.needs (windowed 0 true) 0x0E 0 0 :=
  ⟨_, rfl, mayIssue_of_may (by decide +kernel), .owned rfl (l := 0) (by unfold OutOfWindow; decide +kernel)
    ⟨by decide +kernel, engineHolds_of (by decide +kernel), fun _ _ h => absurd h (Nat.not_lt_zero _)⟩⟩
theorem witness_OwnTrap_odd : ∃ x, scratchRow (.sts64 0 0 4 8 0) = some x ∧
    MeetsTrap (.sts64 0 0 4 8 0) x.needs (windowed 4 false) 0x11 0 0 :=
  ⟨_, rfl, mayIssue_of_may (by decide +kernel), .odd rfl (l := 1) (by unfold OutOfWindow; decide +kernel)
    (fun k _ h => absurd h.1 (by decide +kernel)) (by unfold LowestLane; decide +kernel)⟩

def uniformState (x : Word) : State := onGroup (sregs [(8, x)]) base
theorem witness_OwnTrap_bank : MeetsTrap (.ldc 0 4 8 0) (ldcNeeds 0 8 4) (uniformState 2) 0x1D 0 0 ∧
    MeetsTrap (.ldc 0 4 8 0) (ldcNeeds 0 8 4) (uniformState 65536) 0x1D 0 0 :=
  ⟨⟨mayIssue_of_may (by decide +kernel), .bank (a := 8) (.inl (by decide +kernel))⟩,
    ⟨mayIssue_of_may (by decide +kernel), .bank (a := 8) (.inr (by decide +kernel))⟩⟩
theorem witness_OwnTrap_window : MeetsTrap (.wset 0 3 2) (wsetNeeds 0 2) base 0x0D 0 0 :=
  ⟨mayIssue_of_may (by decide +kernel), .window (n := 2) (b := blockOf3 base) (by decide +kernel) (by unfold WindowFits; decide +kernel)⟩
theorem witness_OwnTrap_task : MeetsTrap (.spawn 0 4) (spawnNeeds 0 4) base 0x15 0 0 :=
  ⟨mayIssue_of_may (by decide +kernel), .task (n := 4) (by unfold TaskOk; decide +kernel)⟩

/-- Divergence stacks with three entries and with four, and loop stacks with four; strands split in four or in two. -/
def fullStacks (k : Nat) : State :=
  onGroup (fun g => g.onStrands (List.range 8) (fun t => { t with div := List.replicate k ⟨0x40, 1, 1, false⟩ })) splitState
theorem witness_OwnTrap_splits : MeetsTrap (.bra 0 3 9) { gap := 0, guard := some 3 } (fullStacks 4) 0x09 0 0 :=
  ⟨mayIssue_of_may (by decide +kernel), .splits (k := 0) rfl (by unfold LowestStrand; decide +kernel)⟩
theorem witness_OwnTrap_fans : MeetsTrap (.brx 0 0 8) { gap := 0, guard := some 0, vsrc := [8] } (fullStacks 2) 0x09 0 0 :=
  ⟨mayIssue_of_may (by decide +kernel), .fans (k := 0) (r := 8) rfl (by unfold LowestStrand; decide +kernel)⟩

/-- A table at 0x200 with a word of its own for each of four lanes. -/
def tableWord (l : Nat) : Word := if l % 4 = 0 then 1 else 0
def tableState : State :=
  let s := onGroup (fun g => g.setV 4 { VReg.start with lanes := (List.range 32).map (fun l => BitVec.ofNat 32 (l % 4)) }) (fullStacks 4)
  { s with mem := writeBytes s.mem (2 ^ 24 + 0x200) (toBytes 4 1) }
def jtabNeeds : Needs := { gap := 0, guard := some 0, vsrc := [4] }
theorem witness_OwnTrap_table : MeetsTrap (.jtab 0 0 4 256) jtabNeeds tableState 0x09 0 0 := by
  have h : ∀ l ∈ (ctx jtabNeeds tableState).lanes,
      readCode tableState (ctx jtabNeeds tableState).asker ((partOfCore tableState 0).getD 0) (groupOf tableState).dom
        (entryAddress (ctx jtabNeeds tableState) 4 256 l) 4 = .bytes [if l % 4 = 0 then 1 else 0, 0, 0, 0] := by decide +kernel
  refine ⟨mayIssue_of_may (by decide +kernel), .table (r := 4) (toff := 256) (w := tableWord) (k := 0)
      (fun l hl => ⟨_, 0, 0, 0, h l hl, ?_⟩)
    (by unfold LowestStrand; decide +kernel)⟩
  unfold tableWord; split <;> decide

def deepLoops : State := onGroup (fun g => g.onStrands (List.range 8) (fun t => { t with loops := List.replicate 4 ⟨4, 0x10, 2⟩ })) base
theorem witness_OwnTrap_empty : ∃ x, loopRow (.loopi 0 3 1) = some x ∧ MeetsTrap (.loopi 0 3 1) x.1 base 0x0A 0 0 :=
  ⟨_, rfl, mayIssue_of_may (by decide +kernel), .empty rfl (by decide)⟩
theorem witness_OwnTrap_deep : ∃ x, loopRow (.loopi 0 3 8) = some x ∧ MeetsTrap (.loopi 0 3 8) x.1 deepLoops 0x0A 0 0 :=
  ⟨_, rfl, mayIssue_of_may (by decide +kernel), .deep (k := 0) rfl (by decide) (by decide) (by unfold LowestStrand; decide +kernel)⟩
theorem witness_OwnTrap_pret : MeetsTrap (.pret 0) { gap := 0, zone := .block } base 0x0A 0 0 :=
  ⟨mayIssue_of_may (by decide +kernel), .pret (by decide +kernel)⟩

/-- Lists of a group's launch: with so many entries, such a capacity and such a spill area. -/
def listsState (l : WorkList) : State := onRun (fun r => { r with lists := [l] }) { stepped 1 with dt := 8 }
def listOf (k cap spill kind : Nat) : WorkList := ⟨spill, cap, kind, false, List.replicate k (7, 3), []⟩
theorem sameList {s : State} {l m : WorkList} (hm : listAt s (groupOf s) 0 = some m) (h : listAt s (groupOf s) 0 = some l) : l = m :=
  (Option.some.inj (hm.symm.trans h)).symm
theorem witness_OwnTrap_list : ∃ n, listRow (.wlpush 0 0 8 0) = some (n, 0, [0]) ∧ MeetsTrap (.wlpush 0 0 8 0) n base 0x15 0 0 ∧
    MeetsTrap (.wlpush 0 0 8 0) n (listsState (listOf 1 0 0 1)) 0x15 0 0 := by
  have h : listAt base (groupOf base) 0 = none := by decide +kernel
  have h' : listAt (listsState (listOf 1 0 0 1)) (groupOf (listsState (listOf 1 0 0 1))) 0 = some (listOf 1 0 0 1) := by decide +kernel
  exact ⟨_, rfl, ⟨mayIssue_of_may (by decide +kernel), .list rfl (fun l hl => nomatch h.symm.trans hl)⟩,
    mayIssue_of_may (by decide +kernel), .list rfl (fun l hl => by rw [sameList h' hl]; exact .inr (by decide))⟩
theorem listAt_listsState (l : WorkList) : listAt (listsState l) (groupOf (listsState l)) 0 = some l := by rfl
theorem length_listOf (k cap spill kind : Nat) : (listOf k cap spill kind).entries.length = k := List.length_replicate
theorem witness_OwnTrap_full : ∃ n, listRow (.wlpush 0 0 8 0) = some (n, 0, [0]) ∧
    MeetsTrap (.wlpush 0 0 8 0) n (listsState (listOf 4096 31 0 0)) 0x1C 0 0 :=
  ⟨_, rfl, mayIssue_of_may (by decide +kernel), .full (l := listOf 4096 31 0 0) rfl rfl (listAt_listsState _) ⟨rfl, by decide⟩
    (fun _ _ _ _ h => nomatch h) (by decide +kernel) (by rw [length_listOf]; decide +kernel)⟩
theorem witness_OwnTrap_spill : ∃ n, listRow (.wlins 0 0 8 0) = some (n, 0, [1]) ∧
    MeetsTrap (.wlins 0 0 8 0) n (listsState (listOf 4090 64 0x200000 1)) 0x1C 0 0x200000 := by
  refine ⟨_, rfl, mayIssue_of_may (by decide +kernel), .spill (l := listOf 4090 64 0x200000 1)
      (va := 0x200000) rfl rfl (listAt_listsState _) ⟨rfl, by decide⟩
    (fun _ _ a _ h => ?_) (by decide +kernel) (by rw [length_listOf]; decide +kernel) (by rw [length_listOf]; decide +kernel)
    (by rw [length_listOf]; decide +kernel)⟩
  cases h
  decide +kernel

/-- v9 holds the reserved key in lane 5. -/
def oddKeyState : State :=
  onGroup (fun g => g.setV 9 { VReg.start with lanes := (List.range 32).map (fun l => if l = 5 then 0xFFFFFFFF else 0) })
      (listsState (listOf 1 64 0x1000 1))
theorem witness_OwnTrap_key : MeetsTrap (.wlins 0 0 8 0) (listNeed 0 0 [8, 9] [] true) oddKeyState 0x15 1 0 :=
  ⟨mayIssue_of_may (by decide +kernel), .key (a := 8) (w := 0) (l := listOf 1 64 0x1000 1) (k := 5) (by decide +kernel) ⟨rfl, rfl⟩
    (by unfold LowestLane; decide +kernel)⟩

/-- The handler reads with a selector that names nothing. -/
def badSelector : Group := sregs [(8, 0x7000)] handlerGroupOf
def badAccess : State := { setGroup servingState 0 32 badSelector with cur := .gang 0 32 0 }
theorem witness_OwnTrap_selector : MayIssue (xrdNeeds 0 4 false 8) badAccess 0 32 0 badSelector ∧
    OwnTrap (.xrd 0 4 false 8) (xrdNeeds 0 4 false 8)
        (issueCtx (xrdNeeds 0 4 false 8) badAccess 0 32 0 badSelector) badAccess 0x1E 0 0 := by
  have hg : groupAt badAccess 0 32 = some badSelector := by decide +kernel
  have h1 : groupAt badAccess 0 1 = some servedGroupOf := by decide +kernel
  refine ⟨mayIssue_of_mayServe hg (by decide +kernel), .selector rfl (fun q h hq hh => ?_)⟩
  have hs : (some 1 : Option Nat) = some q := hq
  cases hs
  rw [show h = servedGroupOf from (Option.some.inj (h1.symm.trans hh)).symm]
  decide +kernel

/-- The group has a vector register less than the gate's arguments. -/
def tightState : State := onGroup (fun g => { g with nv := 1 }) gateState
theorem witness_OwnTrap_fits : MeetsTrap (.gcall 0 1) (gcallNeeds 0) tightState 0x04 0 0 :=
  ⟨mayIssue_of_may (by decide +kernel), .fits (bs := gateBytes) (by decide +kernel) (by decide +kernel) (.inl (by decide +kernel))⟩
theorem witness_OwnTrap_depth : ∀ i ∈ [Instr.gret 0, .gabort 0 7], ∃ x, leaveRow i = some x ∧ MayIssue x.1 base 0 0 0 (groupOf base) ∧
    (groupOf base).calls = [] :=
  witness_all (fun (x : Needs × (CallFrame → Nat × Nat) × Word) => may x.1 base) (fun _ h => ⟨mayIssue_of_may h, by decide +kernel⟩)
      (by decide +kernel)

/-- The record of a copy, with lengths and VAs that R296 does not allow and one that it does. -/
def copyRecord (va1 len : Word) : State := onGroup (sregs [(10, 0x4000), (11, va1), (12, 0), (13, len)]) windowState
theorem witness_RecordOdd : ∃ x, commandRow (.cpyG2s 0 0 1 5) = some x ∧ copyRow (.cpyG2s 0 0 1 5) = some 5 ∧
    (∀ e ∈ [((0 : Word), (3 : Word)), (0, 458753), (0x10000, 4)],
      MayIssue (x.needs (ctx {} (copyRecord e.1 e.2))) (copyRecord e.1 e.2) 0 0 0 (groupOf (copyRecord e.1 e.2)) ∧
      (ctx (x.needs (ctx {} (copyRecord e.1 e.2))) (copyRecord e.1 e.2)).act ≠ 0 ∧
      RecordOdd (ctx (x.needs (ctx {} (copyRecord e.1 e.2))) (copyRecord e.1 e.2)) 5 ∧
      (worst (x.conds (ctx (x.needs (ctx {} (copyRecord e.1 e.2))) (copyRecord e.1 e.2)) (copyRecord e.1 e.2))).isSome) := by
  refine ⟨_, rfl, rfl, fun e he => ?_⟩
  simp only [List.mem_cons, List.not_mem_nil, or_false] at he
  rcases he with rfl | rfl | rfl <;> exact ⟨mayIssue_of_may (by decide +kernel), by decide +kernel, by unfold RecordOdd; decide +kernel,
      by decide +kernel⟩

end Sys2Proof.Tests
end

