-- ==== Sys2Proof/Tests/WitnessTurns.lean ====
section
/-! SUPPORT. Witnesses for the statement about turns that are no instruction's and no event's. -/

namespace Sys2Proof.Tests

set_option Elab.async false

open Sys2Proof.Machine Sys2Proof.Safety

/-- A rule about a turn holds in a state. -/
def Turns (u : Turn) (s : State) : Prop := ∃ Q, Turning u s Q

theorem witness_Turning_always : Turns (.evict 3 5) quiet ∧ Turns (.dropReplica 3 5) quiet ∧ Turns (.drift (.core 3) true) quiet ∧
    Turns (.drift (.slice 3) false) quiet ∧ Turns (.power 600) quiet ∧ Turns (.ahead true) quiet ∧ Turns (.upset (.corrected 3)) quiet ∧
    Turns (.upset (.hbm 3 0x4000)) quiet ∧ Turns (.upset (.lease 0 0x4000)) quiet :=
  ⟨⟨_, .evict⟩, ⟨_, .dropReplica⟩, ⟨_, .drift⟩, ⟨_, .drift⟩, ⟨_, .power⟩, ⟨_, .ahead⟩, ⟨_, .corrected⟩, ⟨_, .hbm⟩, ⟨_, .lease⟩⟩

/-- The home slice of VA 0x4000 holds its line, dirty; a sequencer has pinned it or not. -/
def dirtyState (pins : List (Nat × Nat)) : State :=
  onSeq (fun x => { x with pins := pins }) { quiet with l2 := [(sliceKey (homeSlice (partAt quiet 0) 0x4000) 0x4000, ⟨0, 0, 0, 0, true⟩)] }
theorem witness_Turning_evictL2 : ∀ pins ∈ [[], [(0x4000 / 128, 0)]],
    Turns (.evictL2 (homeSlice (partAt quiet 0) 0x4000) (0x4000 / 128)) (dirtyState pins) := by
  intro pins hp
  simp only [List.mem_cons, List.not_mem_nil, or_false] at hp
  rcases hp with rfl | rfl <;> exact ⟨_, .evictL2 (part := 0) (by decide +kernel) (by decide +kernel)⟩
theorem witness_Turning_evictL2_pins : linePinned (dirtyState []) 0 (0x4000 / 128) = false ∧
    linePinned (dirtyState [(0x4000 / 128, 0)]) 0 (0x4000 / 128) = true := by
  decide +kernel
theorem witness_Turning_dirtyLine : Turns (.upset (.dirtyLine 0 0x4000)) (dirtyState []) :=
  ⟨_, .dirtyLine (x := ⟨0, 0, 0, 0, true⟩) (stack := 0) (pa := 2 ^ 24 + 0x4000) (cls := 0) (owner := 0) (size := 2 ^ 21) (by decide +kernel)
    (by decide +kernel) rfl⟩

/-- Two copies lag, one of them of a core that is ahead. -/
theorem witness_Turning_tick : Turns .tick { quiet with skewCore := [(5, 2)], lagging := [.core 5, .slice 3] } := ⟨_, .tick (by decide)⟩

def write1 : GWrite := ⟨0x4080, 0x4080, 0, 4, 6, 0xFFFFFFFF⟩
theorem witness_Turning_engine : Turns (.engine 9 1) (memState (.writes [] [] [write0, write1] [])) :=
  ⟨_, .engine (c := memCmd (.writes [] [] [write0, write1] [])) (w := write1) (stack := 0) (pa := 2 ^ 24 + 0x4080) (cls := 0)
      (owner := 0) rfl rfl rfl
    (by decide +kernel) (by decide +kernel) (by decide +kernel)⟩

theorem witness_Turning_registers : Turns (.upset (.vreg 0 0 5 31)) quiet ∧ Turns (.upset (.sreg 0 0 63)) quiet ∧
    Turns (.upset (.control 0 0)) quiet ∧
    Turns (.upset (.scratch 3 4095)) quiet :=
  ⟨⟨_, .vector (g := groupOf quiet) (by decide +kernel) (by decide +kernel) (by decide)⟩,
      ⟨_, .uniform (g := groupOf quiet) (by decide +kernel)⟩,
    ⟨_, .control (g := groupOf quiet) (by decide +kernel) (by decide)⟩, ⟨_, .scratch (b := blockOf3 quiet) (by decide +kernel)⟩⟩

theorem witness_Turning_handler : Turns (.upset (.control 0 handlerSlot)) servingState :=
  ⟨_, .handler (q := 1) (h := handlerGroupOf) (g := servedGroupOf) (x := ⟨0x1A, 0, 0, 0⟩) (by decide +kernel) (by decide +kernel)
      (by decide)
    (by decide +kernel) (by decide +kernel) (by decide +kernel) (by decide)⟩

theorem witness_Turning_sequencer : Turns (.upset (.tile 0 0 7 63)) quiet ∧ Turns (.upset (.acc 0 0 1023)) quiet :=
  ⟨⟨_, .tile (x := (lookupAt quiet.seqs 0).getD (newSeq 0 0 0 [] 0)) (by decide +kernel)⟩,
    ⟨_, .accumulator (x := (lookupAt quiet.seqs 0).getD (newSeq 0 0 0 [] 0)) (by decide +kernel)⟩⟩

theorem witness_Turning_units : Turns (.upset (.nbu 5 3)) quiet ∧ Turns (.upset (.nbu 0 3)) boundaryState :=
  ⟨⟨_, .unit (by decide +kernel)⟩, ⟨_, .run (v := runIn boundaryState) (by decide +kernel)⟩⟩

/-- A read of LAUNCH at a page that is reached. -/
theorem witness_StepRunsDecoded_launch : PageUp { up with agenda := [.read (.dev (.page 1 0x000))] } 1 := ⟨rfl, .inr rfl⟩

end Sys2Proof.Tests
end

/-! PROOFS. The constant-bank load and the window setting of the tutorial (R24, R28, R80, R266, R267). -/

namespace Sys2Proof.Proofs

open Sys2Proof.Machine Sys2Proof.Safety Sys2Proof.Laws

/-! What retiring, the port and a change of the group do to the rest of the machine. -/

theorem groupAt_retire (s : State) (c : Ctx) (len : Nat) :
    groupAt (retire c len s) c.core c.slot = (groupAt s c.core c.slot).map (fun g => retireOn g c.is c.dt len 0) :=
  groupAt_modifyGroup ..

theorem lookup_retire_other (s : State) (c : Ctx) (len k : Nat) (h : k ≠ groupKey c.core c.slot) :
    lookupAt (retire c len s).groups k = lookupAt s.groups k :=
  lookup_modifyGroup_other _ _ _ _ _ h

/-- An effect that touches no group but its own, no memory, and no core beyond the port, leaves everything elsewhere. -/
theorem elsewhere_of_portTaken {s t : State} {c : Ctx}
    (hg : ∀ k, k ≠ groupKey c.core c.slot → lookupAt t.groups k = lookupAt s.groups k)
    (hc : t.cores = (takePort s c).cores) (hm : t.mem = s.mem) : Elsewhere s t c.core c.slot := by
  have core : ∀ k, coreAt t k = coreAt (takePort s c) k := fun k => congrArg (getAt Core.idle · k) hc
  refine { others := hg, cores := fun k hk => ?_, port := ?_, memory := fun a => by rw [hm] }
  · rw [core, coreAt_takePort_other s c k hk]
  · rw [core, coreAt_takePort_same]

/-- Retiring changes the strands of a group alone. -/
theorem retireOn_eq (g : Group) (is : List Nat) (dt len extra : Nat) :
    retireOn g is dt len extra = { g with strands := (retireOn g is dt len extra).strands } := by
  rfl

theorem untouched_retireOn (g : Group) (is : List Nat) (dt len extra : Nat) : Untouched g (retireOn g is dt len extra) := by
  unfold Untouched
  rw [retireOn_eq]

theorem launchOf_congr {s s' : State} {g g' : Group} (hb : s'.blocks = s.blocks) (hr : s'.runs = s.runs) (hg : g'.block = g.block) :
    launchOf s' g' = launchOf s g := by
  have hat : blockAt s' = blockAt s := funext fun k => congrArg (lookupAt · k) hb
  simp only [launchOf, runOf, blockOf, hg, hat, hr]

theorem groupAt_modifyGroup_at (s : State) (core slot core' slot' : Nat) (f : Group → Group) :
    groupAt (modifyGroup s core slot f) core' slot' =
      if groupKey core' slot' = groupKey core slot then (groupAt s core slot).map f else groupAt s core' slot' :=
  lookupAt_modifyAt ..

/-- A change of a group that keeps its block changes no launch that accesses belong to. -/
theorem accessLaunch_modifyGroup (s : State) (core slot core' : Nat) (f : Group → Group) (g : Group) (hf : ∀ g, (f g).block = g.block) :
    accessLaunch (modifyGroup s core slot f) core' g = accessLaunch s core' g := by
  unfold accessLaunch
  cases g.serves with
  | none => exact launchOf_congr rfl rfl rfl
  | some q =>
    simp only [groupAt_modifyGroup_at]
    by_cases hk : groupKey core' q = groupKey core slot
    · have served : groupAt s core' q = groupAt s core slot := congrArg (lookupAt s.groups) hk
      rw [if_pos hk, served]
      cases groupAt s core slot with
      | none => rfl
      | some h => exact launchOf_congr rfl rfl (hf h)
    · rw [if_neg hk]
      rfl

theorem sreg_setS (g : Group) (k j : Nat) (r : SReg) : (g.setS k r).sreg j = if j = k then r else g.sreg j := by
  simp [Group.setS, Group.sreg, getAt_putAt]

theorem blockOf_eq {s : State} {g : Group} {bid : Nat} (h : g.block = some bid) : blockOf s g = blockAt s bid := by
  simp [blockOf, h]

theorem blockAt_modifyBlock (s : State) (bid k : Nat) (f : Block → Block) :
    blockAt (modifyBlock s bid f) k = if k = bid then (blockAt s bid).map f else blockAt s k :=
  lookupAt_modifyAt ..

/-! The constant-bank load. -/

/-- The answer that brings the word at a byte of the constant bank into a uniform register (R266). -/
def bankReply (s : State) (c : Ctx) (d off : Nat) : Reply :=
  ⟨c.src (4 * c.low), accessLaunch s c.core c.g, .uniform d (bankWord s c.g off), none, none, none⟩

/-- The state in which `ldc` leaves the machine: its register marked empty, the word on its way, and the gang retired. -/
def ldcNext (s : State) (c : Ctx) (d off : Nat) : State :=
  retire c 4 (sendReply (modifyGroup (takePort s c) c.core c.slot (·.markS d)) (bankReply s c d off))

section Ldc

variable {gap : Fin 4} {d a : Fin 64} {n : Fin 32} {s : State} {core slot gang : Nat} {g : Group}

/-- Marking the register empty keeps the block of the group, so the answer belongs to the launch that it had before. -/
theorem bankReply_marked (s : State) (c : Ctx) (d off : Nat) :
    bankReply (modifyGroup (takePort s c) c.core c.slot (·.markS d)) c d off = bankReply s c d off := by
  have hl := accessLaunch_modifyGroup (takePort s c) c.core c.slot c.core (·.markS d) c.g (fun _ => rfl)
  unfold bankReply
  rw [hl]
  rfl

/-- An aligned offset within the bank raises nothing, so `ldc` executes. -/
theorem exec_ldc (h : MayIssue (ldcNeeds gap a d) s core slot gang g)
    (aligned : bankByte (issueCtx (ldcNeeds gap a d) s core slot gang g) a n % 4 = 0)
    (inside : bankByte (issueCtx (ldcNeeds gap a d) s core slot gang g) a n ≤ 65532) :
    exec (.ldc gap d a n) s = .next (ldcNext s (issueCtx (ldcNeeds gap a d) s core slot gang g) d
      (bankByte (issueCtx (ldcNeeds gap a d) s core slot gang g) a n)) := by
  have hx : exec (.ldc gap d a n) s = execLdc gap d a n s := rfl
  rw [hx, execLdc, ldcNext, ← bankReply_marked]
  exact issue_go h (if_neg (not_or.2 ⟨not_not.2 aligned, Nat.not_lt.2 inside⟩)) rfl

theorem groupAt_ldcNext (h : groupAt s core slot = some g) (need : Needs) (off : Nat) :
    groupAt (ldcNext s (issueCtx need s core slot gang g) d off) core slot =
      some (retireOn (g.markS d) (g.gangStrands gang) s.dt 4 0) := by
  have hm : groupAt (modifyGroup (takePort s (issueCtx need s core slot gang g)) core slot (·.markS d)) core slot = some (g.markS d) := by
    rw [groupAt_modifyGroup, groupAt_takePort, h]; rfl
  exact (groupAt_retire ..).trans (congrArg (Option.map _) hm)

theorem ldcNext_rest (s : State) (c : Ctx) (k off : Nat) :
    { ldcNext s c k off with groups := s.groups, cores := s.cores, free := s.free, replies := s.replies, nextId := s.nextId } = s := by
  simp [ldcNext, retire, finish]

theorem ldcNext_replies (s : State) (c : Ctx) (k off : Nat) :
    (ldcNext s c k off).replies = setAt s.replies s.nextId (bankReply s c k off) := rfl

theorem elsewhere_ldcNext (s : State) (c : Ctx) (off : Nat) : Elsewhere s (ldcNext s c d off) c.core c.slot :=
  elsewhere_of_portTaken
    (fun k hk => (lookup_retire_other _ c 4 k hk).trans (lookup_modifyGroup_other (takePort s c) c.core c.slot k (·.markS d) hk)) rfl rfl

theorem loadsConstant (h : MayIssue (ldcNeeds gap a d) s core slot gang g)
    (aligned : bankByte (issueCtx (ldcNeeds gap a d) s core slot gang g) a n % 4 = 0)
    (inside : bankByte (issueCtx (ldcNeeds gap a d) s core slot gang g) a n ≤ 65532) :
    LoadsConstant gap d a n s core slot gang g := by
  have sreg : ∀ k, (retireOn (g.markS d) (g.gangStrands gang) s.dt 4 0).sreg k =
      if k = d.val then { g.sreg d with full := false, olds := [] } else g.sreg k := fun k => sreg_setS g d k _
  have strand : 4 * (issueCtx (ldcNeeds gap a d) s core slot gang g).low / 4 = (issueCtx (ldcNeeds gap a d) s core slot gang g).low :=
    Nat.mul_div_cancel_left _ (by decide)
  refine ⟨_, _, exec_ldc h aligned inside, ldcNext_rest .., elsewhere_ldcNext _ _ _, groupAt_ldcNext h.ready.here _ _,
    goesOn_retireOn _ _ _ _ _ _ _ _ rfl, by rw [retireOn_eq]; rfl, fun k hk => ?_, ?_, ?_, ?_⟩
  · rw [sreg, if_neg hk]
  · rw [sreg, if_pos rfl]
  · rw [sreg, if_pos rfl]
  · rw [ldcNext_replies, bankReply, Ctx.src, strand]
    rfl

end Ldc

/-- The word of `ldc` holds its displacement in bits 27 to 23 and zero in bits 10 to 8. -/
theorem encode_ldc_fields (gap : Fin 4) (d a : Fin 64) (n : Fin 32) :
    encode (.ldc gap d a n) / 2 ^ 23 % 32 = n ∧ encode (.ldc gap d a n) / 2 ^ 8 % 8 = 0 := by
  have he : encode (.ldc gap d a n) = 0x60000025 + gap * 2 ^ 6 + d * 2 ^ 11 + a * 2 ^ 17 + n * 2 ^ 23 := rfl
  rw [he]
  omega

/-- Settles O15: an offset that passes its check lets `ldc` execute, and its next state is read field by field. -/
theorem constantLoad : Obligations.ConstantLoad :=
  ⟨fun _ _ _ _ _ _ _ _ _ h aligned inside => loadsConstant h aligned inside, encode_ldc_fields⟩

/-! The window setting. -/

theorem wsetBad_eq_false_iff (b : Block) (base extent : Nat) : wsetBad b base extent = false ↔ WindowFits b base extent := by
  simp [wsetBad, WindowFits, and_assoc]

/-- Two ticks after a setting the window has its new base and extent, where its earlier settings have ended by then. -/
theorem window_at_set_later {w : Window} {dt u : Nat} (base extent : Nat) (h : SettlesBy w dt) (hu : dt + 2 ≤ u) :
    (w.set dt base extent).at u = (base, extent) := by
  have hn : (w.set dt base extent).olds.find? (fun o => decide (u < o.2.2)) = none := by
    rw [List.find?_eq_none]
    intro o ho
    have hend : o.2.2 ≤ dt + 2 := by
      rcases List.mem_append.1 ho with ho | ho
      · exact h o (List.mem_filter.1 ho).1
      · rw [List.mem_singleton.1 ho]
    simp only [decide_eq_true_eq]
    omega
  unfold Window.at
  rw [hn]
  rfl

/-- Within two ticks of a setting the window is the one that stood: what the setting drops had ended, and what it adds comes last. -/
theorem window_at_set_before (w : Window) {dt u : Nat} (base extent : Nat) (hl : dt ≤ u) (hu : u < dt + 2) :
    (w.set dt base extent).at u = w.at u := by
  have kept : ∀ o : Nat × Nat × Nat, (dt < o.2.2 ∧ u < o.2.2) ↔ u < o.2.2 := fun o => by omega
  unfold Window.at Window.set
  simp only [List.find?_append, List.find?_filter, decide_eq_true_eq, kept, List.find?_singleton, hu, decide_true, if_true]
  cases w.olds.find? (fun o => decide (u < o.2.2)) <;> rfl

/-- The block with a window set at a tick. -/
def setWindow (b : Block) (w dt base extent : Nat) : Block :=
  { b with windows := putAt Window.none b.windows w ((getAt Window.none b.windows w).set dt base extent) }

/-- The state in which `wset` leaves the machine: the window of the block set, and the gang retired. -/
def wsetNext (s : State) (c : Ctx) (bid w n : Nat) : State :=
  retire c 4 (modifyBlock (takePort s c) bid (fun b => setWindow b w c.dt (c.s (2 * n)).toNat (c.s (2 * n + 1)).toNat))

theorem wsetNext_rest (s : State) (c : Ctx) (bid w n : Nat) :
    { wsetNext s c bid w n with groups := s.groups, cores := s.cores, free := s.free, blocks := s.blocks } = s := by
  simp [wsetNext, retire, finish]

theorem elsewhere_wsetNext (s : State) (c : Ctx) (bid w n : Nat) : Elsewhere s (wsetNext s c bid w n) c.core c.slot :=
  elsewhere_of_portTaken (fun k hk => lookup_retire_other _ c 4 k hk) rfl rfl

theorem blockAt_wsetNext (s : State) (c : Ctx) (bid w n k : Nat) : blockAt (wsetNext s c bid w n) k =
    if k = bid then (blockAt s bid).map (fun b => setWindow b w c.dt (c.s (2 * n)).toNat (c.s (2 * n + 1)).toNat) else blockAt s k :=
  blockAt_modifyBlock ..

theorem windowAt_of_block {s : State} {g : Group} {bid : Nat} {b : Block} (hg : g.block = some bid) (hb : blockAt s bid = some b)
    (w dt : Nat) : windowAt s g w dt = (getAt Window.none b.windows w).at dt := by
  simp only [windowAt, blockOf_eq hg, hb]

section Wset

variable {gap : Fin 4} {w : Fin 16} {n : Fin 32} {s : State} {core slot gang bid : Nat} {g : Group} {b : Block}

/-- A window that fits its block raises nothing, so `wset` executes. -/
theorem exec_wset (h : MayIssue (wsetNeeds gap n) s core slot gang g) (hg : g.block = some bid) (hb : blockAt s bid = some b)
    (fits : WindowFits b ((issueCtx (wsetNeeds gap n) s core slot gang g).s (2 * n.val)).toNat
      ((issueCtx (wsetNeeds gap n) s core slot gang g).s (2 * n.val + 1)).toNat) :
    exec (.wset gap w n) s = .next (wsetNext s (issueCtx (wsetNeeds gap n) s core slot gang g) bid w n) := by
  have good := (wsetBad_eq_false_iff ..).2 fits
  have hblock : (issueCtx (wsetNeeds gap n) s core slot gang g).g.block = some bid := hg
  have hof : blockOf s (issueCtx (wsetNeeds gap n) s core slot gang g).g = some b := (blockOf_eq hblock).trans hb
  have hx : exec (.wset gap w n) s = execWset gap w n s := rfl
  rw [hx, execWset]
  refine (issue_go h ?_ rfl).trans ?_
  · simp only [hof, good, Bool.false_eq_true, if_false]
  · simp only [hblock]
    rfl

theorem groupAt_wsetNext (h : groupAt s core slot = some g) (need : Needs) :
    groupAt (wsetNext s (issueCtx need s core slot gang g) bid w n) core slot = some (retireOn g (g.gangStrands gang) s.dt 4 0) :=
  (groupAt_retire ..).trans (congrArg (Option.map _) h)

theorem setsWindow (h : MayIssue (wsetNeeds gap n) s core slot gang g) (hg : g.block = some bid) (hb : blockAt s bid = some b)
    (fits : WindowFits b ((issueCtx (wsetNeeds gap n) s core slot gang g).s (2 * n.val)).toNat
      ((issueCtx (wsetNeeds gap n) s core slot gang g).s (2 * n.val + 1)).toNat)
    (settles : SettlesBy (getAt Window.none b.windows w) s.dt) : SetsWindow gap w n s core slot gang g bid b := by
  have hb' := blockAt_wsetNext s (issueCtx (wsetNeeds gap n) s core slot gang g) bid w n bid
  rw [if_pos rfl, hb, Option.map_some] at hb'
  refine ⟨_, _, _, exec_wset h hg hb fits, wsetNext_rest .., elsewhere_wsetNext _ _ _ _ _, groupAt_wsetNext h.ready.here _,
    goesOn_retireOn _ _ _ _ _ _ _ _ rfl, untouched_retireOn .., fun k hk => ?_, hb', rfl, fun k hk => ?_, fun dt hdt => ?_, fun dt hl hu => ?_⟩
  · rw [blockAt_wsetNext, if_neg hk]
  · exact getAt_putAt_other _ _ _ _ _ hk
  · rw [windowAt_of_block hg hb', setWindow, getAt_putAt_same]
    exact window_at_set_later _ _ settles hdt
  · rw [windowAt_of_block hg hb', windowAt_of_block hg hb, setWindow, getAt_putAt_same]
    exact window_at_set_before _ _ _ hl hu

end Wset

/-- The word of `wset` holds its window in bits 16 to 11. -/
theorem encode_wset_window (gap : Fin 4) (w : Fin 16) (n : Fin 32) : encode (.wset gap w n) / 2 ^ 11 % 64 = w.val := by
  have he : encode (.wset gap w n) = 0x70000025 + gap * 2 ^ 6 + w * 2 ^ 11 + n * 2 ^ 23 := rfl
  rw [he]
  omega

/-- Settles O16: a window that fits lets `wset` execute; the new setting answers from two ticks on, and the one that stood until then. -/
theorem windowSet : Obligations.WindowSet :=
  ⟨fun _ _ _ _ _ _ _ _ _ _ h hg hb fits settles => setsWindow h hg hb fits settles, encode_wset_window⟩

end Sys2Proof.Proofs

/-! PROOFS. Moving the strands of a gang, and the calls and returns of the execution model (R33, R35, R37, R39, R277, R278). -/

namespace Sys2Proof.Proofs

open Sys2Proof.Machine Sys2Proof.Safety Sys2Proof.Laws

/-! Where a strand goes (R37). -/

theorem atEnd_iff (t : Strand) : t.atEnd = true ↔ AtEnd t := by
  unfold Strand.atEnd AtEnd
  cases t.loops <;> simp

/-- Going to an address changes the PC and the loops of a strand alone. -/
theorem goto_eq (t : Strand) (len : Nat) (pops : Bool) (next : Dword) : t.goto len pops next =
    { t with pc := (t.goto len pops next).pc, loops := (t.goto len pops next).loops } := by
  unfold Strand.goto
  split <;> rfl

section Goto

variable (t : Strand) (len : Nat) (pops : Bool) (next : Dword)

@[simp] theorem goto_active : (t.goto len pops next).active = t.active := by rw [goto_eq]
@[simp] theorem goto_exited : (t.goto len pops next).exited = t.exited := by rw [goto_eq]
@[simp] theorem goto_div : (t.goto len pops next).div = t.div := by rw [goto_eq]
@[simp] theorem goto_lr : (t.goto len pops next).lr = t.lr := by rw [goto_eq]
@[simp] theorem goto_lrOlds : (t.goto len pops next).lrOlds = t.lrOlds := by rw [goto_eq]

/-- `Strand.goto` follows R37, whatever else of the strand changes with it. -/
theorem jumpsTo_goto {t' : Strand} (hpc : t'.pc = (t.goto len pops next).pc) (hloops : t'.loops = (t.goto len pops next).loops) :
    JumpsTo t t' len pops next := by
  have cond : (!pops || t.atEnd) = true ↔ (pops = true → AtEnd t) := by
    rw [← atEnd_iff]; cases pops <;> simp
  refine ⟨fun hnext hend => ?_, fun hleaves => ?_⟩
  · rw [hpc, hloops, Strand.goto, if_pos ⟨hnext, cond.2 hend⟩]
    exact ⟨rfl, rfl⟩
  · have hn : ¬ (next = t.pc + BitVec.ofNat 64 len ∧ (!pops || t.atEnd) = true) := by
      rw [cond]; tauto
    rw [hpc, hloops, Strand.goto, if_neg hn]
    exact ⟨rfl, rfl⟩

end Goto

/-- A split goes to its next address; the paths that it leaves for later go on the stack, and only with them does the mask change (R35). -/
theorem split_eq (t : Strand) (len : Nat) (pops : Bool) (x : Split) : t.split len pops x =
    { t.goto len (pops && x.taken) x.next with
      active := if x.rest = [] then t.active else x.mask
      div := if x.rest = [] then t.div else (x.rest.map (fun e => (⟨e.1, e.2, partLanes t, false⟩ : DivEntry))).reverse ++ t.div } := by
  unfold Strand.split
  by_cases hr : x.rest = []
  · simp only [hr, List.isEmpty_nil, if_true]
    rw [goto_eq]
  · simp only [hr, List.isEmpty_iff, if_false]
    rfl

theorem split_exited (t : Strand) (len : Nat) (pops : Bool) (x : Split) : (t.split len pops x).exited = t.exited := by
  rw [split_eq]
  exact goto_exited ..

/-- A strand that takes the split of its lanes' targets has gone many ways, whatever else of it changes (R278). -/
theorem manyWay_split {c : Ctx} {len i : Nat} {pops : Bool} {target : Nat → Dword} {t t' u : Strand}
    (hu : u = t.split len pops (manySplit c len i target t)) (hpc : t'.pc = u.pc) (hloops : t'.loops = u.loops)
    (hactive : t'.active = u.active) (hdiv : t'.div = u.div) : ManyWay c len pops i target t t' := by
  rw [split_eq] at hu
  subst hu
  refine ⟨jumpsTo_goto _ _ _ _ hpc hloops, fun hr => ?_, fun hr => ?_⟩
  · rw [hactive, hdiv]; exact ⟨if_pos hr, if_pos hr⟩
  · rw [hactive, hdiv]; exact ⟨if_neg hr, if_neg hr⟩

/-! The lanes that take a branch (R277). -/

theorem getLsbD_foldl_twoPow (js : List Nat) (m : BitVec 4) (j : Nat) :
    (js.foldl (fun w k => w ||| BitVec.twoPow 4 k) m).getLsbD j = (m.getLsbD j || (decide (j < 4) && js.contains j)) := by
  induction js generalizing m with
  | nil => simp
  | cons k ks ih =>
    have head : (BitVec.twoPow 4 k).getLsbD j = (decide (j < 4) && j == k) := by
      rw [BitVec.getLsbD_twoPow]
      by_cases hjk : j = k
      · simp [hjk]
      · simp [hjk, Ne.symm hjk]
    rw [List.foldl_cons, ih, BitVec.getLsbD_or, head, List.contains_cons, Bool.or_assoc, ← Bool.and_or_distrib_left]

theorem getLsbD_mask4 (js : List Nat) (j : Nat) : (mask4 js).getLsbD j = (decide (j < 4) && js.contains j) := by
  rw [mask4, getLsbD_foldl_twoPow]
  simp

theorem mask4_eq_zero_iff {js : List Nat} (h : ∀ j ∈ js, j < 4) : mask4 js = 0 ↔ js = [] := by
  refine ⟨fun hz => List.eq_nil_iff_forall_not_mem.2 fun j hj => ?_, fun hn => by rw [hn]; rfl⟩
  have hbit := getLsbD_mask4 js j
  rw [hz] at hbit
  simp [hj, h j hj] at hbit

theorem lanes4_lt (t : Strand) (j : Nat) (h : j ∈ t.lanes4) : j < 4 :=
  List.mem_range.1 (List.mem_filter.1 h).1

theorem takingLanes_eq_mask4 (c : Ctx) (i : Nat) (t : Strand) : takingLanes c i t = mask4 (t.lanes4.filter (c.takes i)) := by
  rw [Strand.lanes4, List.filter_filter, mask4, List.foldl_filter]
  simp only [Bool.and_comm (c.takes _ _)]
  rfl

theorem takingLanes_ne_zero_iff (c : Ctx) (i : Nat) (t : Strand) : takingLanes c i t ≠ 0 ↔ t.lanes4.any (c.takes i) = true := by
  rw [takingLanes_eq_mask4, Ne, mask4_eq_zero_iff fun j hj => lanes4_lt t j (List.mem_filter.1 hj).1, List.filter_eq_nil_iff,
    List.any_eq_true]
  push Not
  rfl

/-- A split that fits its stack raises nothing (R376). -/
theorem splitConds_of_fits {c : Ctx} {f : Nat → Split}
    (h : ∀ i ∈ c.is, (f i).rest ≠ [] → (f i).rest.length + (c.g.strand i).div.length ≤ 4) : splitConds c f = [] := by
  unfold splitConds
  rw [List.flatMap_eq_nil_iff]
  intro i hi
  refine if_neg fun hc => ?_
  simp only [Bool.and_eq_true, Bool.not_eq_true', List.isEmpty_eq_false_iff, decide_eq_true_eq] at hc
  have := h i hi hc.1
  omega

/-! The strands of a gang move (R33). -/

/-- A strand as an issue at tick `dt` leaves it in its gang. -/
def issuedStrand (t : Strand) (dt gang : Nat) : Strand := { t with prev := some dt, waitOnly := false, held := none, gang := gang }

/-- The group whose gang has moved strand by strand, before it parts. -/
def movedEach (c : Ctx) (f : Nat → Strand → Strand) (g : Group) : Group :=
  { g with strands := (List.range 8).map (fun i =>
      if c.is.contains i then { f i (g.strand i) with prev := some c.dt, waitOnly := false, held := none } else g.strand i) }

/-- The group whose gang has moved and parted. -/
def movedGroup (c : Ctx) (f : Nat → Strand → Strand) (g : Group) : Group :=
  (movedEach c f g).repart (c.is.filter (fun i => !((movedEach c f g).strand i).gone))

theorem moveStrands_eq (c : Ctx) (f : Nat → Strand → Strand) (s : State) :
    moveStrands c f s = modifyGroup s c.core c.slot (movedGroup c f) := rfl

theorem strand_movedEach (c : Ctx) (f : Nat → Strand → Strand) (g : Group) {i : Nat} (h : i < 8) : (movedEach c f g).strand i =
    if c.is.contains i then { f i (g.strand i) with prev := some c.dt, waitOnly := false, held := none } else g.strand i := by
  simp [movedEach, Group.strand, h]

theorem gone_of_mem_gangStrands {g : Group} {gang i : Nat} (h : i ∈ g.gangStrands gang) : (g.strand i).gone = false := by
  simp only [Group.gangStrands, Group.live, List.mem_filter] at h
  simpa using h.1.2

/-- A strand that goes to an address keeps its LR and its lanes. -/
theorem issued_goto (t : Strand) (len : Nat) (pops : Bool) (next : Dword) (dt gang : Nat) :
    JumpsTo t (issuedStrand (t.goto len pops next) dt gang) len pops next ∧
    KeepsLr t (issuedStrand (t.goto len pops next) dt gang) ∧
    (issuedStrand (t.goto len pops next) dt gang).active = t.active ∧ (issuedStrand (t.goto len pops next) dt gang).div = t.div :=
  ⟨jumpsTo_goto _ _ _ _ rfl rfl, ⟨goto_lr .., goto_lrOlds ..⟩, goto_active .., goto_div ..⟩

section Moves

variable {n : Needs} {s : State} {core slot gang : Nat} {g : Group} {f : Nat → Strand → Strand}

/-- No strand of the gang leaves it where its lanes stay, so that the whole gang parts. -/
theorem movedGroup_eq (keeps : ∀ i t, (f i t).exited = t.exited) : movedGroup (issueCtx n s core slot gang g) f g =
    (movedEach (issueCtx n s core slot gang g) f g).repart (issueCtx n s core slot gang g).is := by
  rw [movedGroup, List.filter_eq_self.2]
  intro i hi
  have live : (g.strand i).gone = false := gone_of_mem_gangStrands hi
  rw [strand_movedEach _ _ _ (gangStrands_lt _ _ _ hi), if_pos (List.contains_iff_mem.2 hi)]
  simpa only [Strand.gone, keeps, Bool.not_eq_true'] using live

theorem strand_movedGroup (keeps : ∀ i t, (f i t).exited = t.exited) {i : Nat} (hi : i ∈ (issueCtx n s core slot gang g).is) :
    ∃ k, (movedGroup (issueCtx n s core slot gang g) f g).strand i = issuedStrand (f i (g.strand i)) s.dt k := by
  have lt : i < 8 := gangStrands_lt _ _ _ hi
  rw [movedGroup_eq keeps, strand_repart _ _ _ lt, strand_movedEach _ _ _ lt]
  simp only [List.contains_iff_mem.2 hi, if_true]
  exact ⟨_, rfl⟩

theorem strand_movedGroup_other (keeps : ∀ i t, (f i t).exited = t.exited) {i : Nat} (lt : i < 8)
    (hi : i ∉ (issueCtx n s core slot gang g).is) : (movedGroup (issueCtx n s core slot gang g) f g).strand i = g.strand i := by
  rw [movedGroup_eq keeps, strand_repart _ _ _ lt, strand_movedEach _ _ _ lt]
  simp only [List.contains_iff_mem, hi, if_false]

/-- A gang whose strands each change as `P` says moves as `P` says. -/
theorem moves_movedGroup {P : Nat → Strand → Strand → Prop} (keeps : ∀ i t, (f i t).exited = t.exited)
    (hP : ∀ i ∈ (issueCtx n s core slot gang g).is, ∀ k, P i (g.strand i) (issuedStrand (f i (g.strand i)) s.dt k)) :
    Moves s (issueCtx n s core slot gang g) (movedGroup (issueCtx n s core slot gang g) f g) P where
  rest := rfl
  moved i hi := by
    obtain ⟨k, hk⟩ := strand_movedGroup keeps hi
    rw [hk]
    exact ⟨hP i hi k, rfl, rfl, keeps i _⟩
  parts i hi j hj := by
    rw [movedGroup_eq keeps]
    exact repart_parts _ _ (fun _ => gangStrands_lt g gang _) i j hi hj
  stay _ lt hi := strand_movedGroup_other keeps lt hi

/-- AN INSTRUCTION THAT ONLY MOVES ITS STRANDS completes, where nothing of its own is against it. -/
theorem branches_of {i : Instr} {own : Ctx → State → List Cond} {wait : Ctx → State → Bool} {f : Ctx → Nat → Strand → Strand}
    {P : Ctx → Nat → Strand → Strand → Prop} (h : MayIssue n s core slot gang g) (hc : n.closes = false)
    (he : exec i s = issue n own wait (fun c s => moveStrands c (f c) s) s)
    (ho : own (issueCtx n s core slot gang g) s = []) (hw : wait (issueCtx n s core slot gang g) s = false)
    (keeps : ∀ c i t, (f c i t).exited = t.exited)
    (hP : ∀ c i k, c.g = g → P c i (g.strand i) (issuedStrand (f c i (g.strand i)) c.dt k)) :
    Branches i n s core slot gang g P := by
  let c := issueCtx n s core slot gang g
  refine ⟨moveStrands c (f c) (takePort s c), movedGroup c (f c) g, ?_, onlyGroup_modify s c _, ?_,
    moves_movedGroup (keeps c) fun i _ k => hP c i k rfl⟩
  · rw [he, issue_go h ho hw, closeRegion, hc]
    rfl
  · rw [moveStrands_eq]
    exact (groupAt_modifyGroup ..).trans (congrArg (Option.map _) h.ready.here)

end Moves

/-! Calls and returns (R39, R277). -/

theorem signed_eq_toInt (n w : Nat) : signed n w = (BitVec.ofNat n w).toInt := by
  rw [signed, BitVec.toInt_eq_toNat_cond, BitVec.toNat_ofNat]
  cases n with
  | zero => simp [Nat.mod_one]
  | succ n =>
    have hp : 2 ^ (n + 1) = 2 * 2 ^ n := Nat.pow_succ'
    rw [Nat.add_sub_cancel]
    split <;> split <;> omega

theorem targetOf_eq (pc : Dword) (bits off : Nat) : targetOf pc bits off = offsetTarget pc bits off := by
  rw [targetOf, signed_eq_toInt]
  rfl

/-- A strand whose LR a call has written. -/
def linkedStrand (t : Strand) (w : Word) : Strand := { t with lr := w, lrOlds := [] }

/-- What `call` makes of a strand, the same for each strand of its gang. -/
def callStrand (o : Nat) (c : Ctx) (_ : Nat) (t : Strand) : Strand := linkedStrand (t.goto 4 false (offsetTarget c.pc 18 o)) (linkOf c 4)

/-- What `callx` makes of a strand: LR is written where some lane takes the branch. -/
def callxStrand (r : Nat) (c : Ctx) (i : Nat) (t : Strand) : Strand :=
  let t' := t.split 4 false (manySplit c 4 i (laneTarget c r i) (c.g.strand i))
  if t.lanes4.any (c.takes i) then linkedStrand t' (linkOf c 4) else t'

/-- What `ret` of `len` bytes makes of a strand. -/
def retStrand (len : Nat) (c : Ctx) (i : Nat) (t : Strand) : Strand := t.goto len false (returnTo c i t)

theorem exec_call (gap : Fin 4) (o : Fin 262144) (s : State) : exec (.call gap o) s =
    issue { gap := gap } noConds noWait (fun c s => moveStrands c (callStrand o c) s) s := by
  have hx : exec (.call gap o) s = execCall gap o s := rfl
  rw [hx, execCall]
  simp only [targetOf_eq]
  rfl

theorem exec_callx (gap : Fin 4) (p : Fin 8) (r : Fin 64) (s : State) : exec (.callx gap p r) s =
    issue { gap := gap, guard := some p.val, vsrc := [r.val] } (fun c s => splitConds c (registerSplit r c s)) noWait
      (fun c s => moveStrands c (callxStrand r c) s) s := rfl

theorem exec_ret (gap : Fin 4) (s : State) : exec (.ret gap) s =
    issue { gap := gap } (fun c _ => lrConds c c.is) noWait (fun c s => moveStrands c (retStrand 4 c) s) s := rfl

theorem exec_compactRet (s : State) : exec .compactRet s =
    issue { len := 2 } (fun c _ => lrConds c c.is) noWait (fun c s => moveStrands c (retStrand 2 c) s) s := rfl

theorem lrConds_of_readable {c : Ctx} (h : LrReadable c) : lrConds c c.is = [] := by
  unfold lrConds
  rw [flagOf_eq]
  split
  · next hg =>
    have settled := h hg
    rw [List.map_eq_nil_iff, List.filter_eq_nil_iff]
    intro i hi
    have := settled i hi
    simp only [Group.lrEarly, decide_eq_true_eq]
    omega
  · rfl

section Calls

variable {s : State} {core slot gang : Nat} {g : Group}

theorem branches_call (gap : Fin 4) (o : Fin 262144) (h : MayIssue { gap := gap.val } s core slot gang g) :
    Branches (.call gap o) { gap := gap } s core slot gang g (fun c _ t t' =>
      JumpsTo t t' 4 false (offsetTarget c.pc 18 o) ∧ Links t' (linkOf c 4) ∧ t'.active = t.active ∧ t'.div = t.div) :=
  branches_of h rfl (exec_call ..) rfl rfl (fun _ _ _ => goto_exited ..) fun _ _ _ _ =>
    ⟨jumpsTo_goto _ _ _ _ rfl rfl, ⟨rfl, rfl⟩, goto_active .., goto_div ..⟩

theorem callxStrand_exited (r : Nat) (c : Ctx) (i : Nat) (t : Strand) : (callxStrand r c i t).exited = t.exited := by
  unfold callxStrand
  split <;> exact split_exited ..

theorem manyWay_callx (r i dt k : Nat) (c : Ctx) :
    ManyWay c 4 false i (laneTarget c r i) (c.g.strand i) (issuedStrand (callxStrand r c i (c.g.strand i)) dt k) := by
  unfold callxStrand
  split <;> exact manyWay_split rfl rfl rfl rfl rfl

theorem keepsLr_callx (r i dt k : Nat) (c : Ctx) (t : Strand) (h : takingLanes c i t = 0) :
    KeepsLr t (issuedStrand (callxStrand r c i t) dt k) := by
  unfold callxStrand
  rw [if_neg fun hany => (takingLanes_ne_zero_iff c i t).2 hany h, split_eq]
  exact ⟨goto_lr .., goto_lrOlds ..⟩

theorem links_callx (r i dt k : Nat) (c : Ctx) (t : Strand) (h : takingLanes c i t ≠ 0) :
    Links (issuedStrand (callxStrand r c i t) dt k) (linkOf c 4) := by
  unfold callxStrand
  rw [if_pos ((takingLanes_ne_zero_iff c i t).1 h)]
  exact ⟨rfl, rfl⟩

theorem branches_callx (gap : Fin 4) (p : Fin 8) (r : Fin 64)
    (h : MayIssue { gap := gap.val, guard := some p, vsrc := [r.val] } s core slot gang g)
    (room : RoomForMany (issueCtx { gap := gap.val, guard := some p, vsrc := [r.val] } s core slot gang g) g 4
      (laneTarget (issueCtx { gap := gap.val, guard := some p, vsrc := [r.val] } s core slot gang g) r)) :
    Branches (.callx gap p r) { gap := gap, guard := some p.val, vsrc := [r.val] } s core slot gang g
      (fun c i t t' => ManyWay c 4 false i (laneTarget c r i) t t' ∧
        (takingLanes c i t = 0 → KeepsLr t t') ∧ (takingLanes c i t ≠ 0 → Links t' (linkOf c 4))) := by
  refine branches_of h rfl (exec_callx ..) (splitConds_of_fits room) rfl (callxStrand_exited r) fun c i k hg => ?_
  subst hg
  exact ⟨manyWay_callx .., fun hnone => keepsLr_callx (h := hnone) .., fun hsome => links_callx (h := hsome) ..⟩

theorem retStrand_exited (len : Nat) (c : Ctx) (i : Nat) (t : Strand) : (retStrand len c i t).exited = t.exited := by
  rw [retStrand, goto_exited]

/-- A return of either length goes to LR and keeps it. -/
theorem branches_ret {i : Instr} {n : Needs} {len : Nat} (h : MayIssue n s core slot gang g) (hc : n.closes = false)
    (he : exec i s = issue n (fun c _ => lrConds c c.is) noWait (fun c s => moveStrands c (retStrand len c) s) s)
    (readable : LrReadable (issueCtx n s core slot gang g)) :
    Branches i n s core slot gang g (fun c i t t' =>
      JumpsTo t t' len false (returnTo c i t) ∧ KeepsLr t t' ∧ t'.active = t.active ∧ t'.div = t.div) := by
  refine branches_of h hc he (lrConds_of_readable readable) rfl (retStrand_exited len) fun c i k _ => ?_
  rw [retStrand]
  exact issued_goto ..

end Calls

/-- Settles O20: `call`, `callx` and both forms of `ret` only move the strands of their gang, and how each moves one is read off it. -/
theorem callsAndReturns : Obligations.CallsAndReturns :=
  ⟨fun gap o _ _ _ _ _ h => branches_call gap o h,
    fun gap p r _ _ _ _ _ h room => branches_callx gap p r h room,
    fun gap _ _ _ _ _ h readable => branches_ret h rfl (exec_ret gap _) readable,
    fun _ _ _ _ _ h readable => branches_ret h rfl (exec_compactRet _) readable⟩

end Sys2Proof.Proofs

/-! PROOFS. The conditions that an issue meets, in their order, and the traps they lead to (R53 to R58, R374 to R376, R384, R411, R415;
logs 17, 18 and 28). -/

namespace Sys2Proof.Proofs

open Sys2Proof.Machine Sys2Proof.Safety Sys2Proof.Laws

/-! Which of several conditions is reported (log 17). -/

/-- A condition is reported before another one: its code is lower, or its strand where the codes agree. -/
def Before (x y : Cond) : Prop := x.code < y.code ∨ (x.code = y.code ∧ x.strand < y.strand)

theorem worst_cons (x : Cond) (t : List Cond) :
    (worst t = none ∧ worst (x :: t) = some x) ∨
    ∃ y, worst t = some y ∧ ((Before y x ∧ worst (x :: t) = some y) ∨ (¬ Before y x ∧ worst (x :: t) = some x)) := by
  rw [worst]
  cases worst t with
  | none => exact .inl ⟨rfl, rfl⟩
  | some y =>
    refine .inr ⟨y, rfl, ?_⟩
    by_cases hb : Before y x
    · exact .inl ⟨hb, if_pos hb⟩
    · exact .inr ⟨hb, if_neg hb⟩

theorem worst_mem {l : List Cond} {x : Cond} (h : worst l = some x) : x ∈ l := by
  induction l generalizing x with
  | nil => cases h
  | cons z t ih =>
    rcases worst_cons z t with ⟨-, hz⟩ | ⟨y, hy, ⟨-, hz⟩ | ⟨-, hz⟩⟩ <;> rw [hz] at h <;> cases h
    · exact List.mem_cons_self
    · exact List.mem_cons_of_mem _ (ih hy)
    · exact List.mem_cons_self

/-- No condition comes before the one that is reported. -/
theorem worst_least {l : List Cond} {x y : Cond} (h : worst l = some x) (hy : y ∈ l) : ¬ Before y x := by
  induction l generalizing x y with
  | nil => cases hy
  | cons z t ih =>
    rcases worst_cons z t with ⟨hn, hz⟩ | ⟨w, hw, ⟨hb, hz⟩ | ⟨hb, hz⟩⟩ <;> rw [hz] at h <;> cases h
    · rw [worst_nil hn, List.mem_singleton] at hy
      subst hy
      unfold Before
      omega
    · rcases List.mem_cons.1 hy with rfl | ht
      · unfold Before at *; omega
      · exact ih hw ht
    · rcases List.mem_cons.1 hy with rfl | ht
      · unfold Before; omega
      · have := ih hw ht
        unfold Before at *
        omega

theorem worst_isSome {l : List Cond} {x : Cond} (h : x ∈ l) : ∃ y, worst l = some y := by
  cases hw : worst l with
  | none => rw [worst_nil hw] at h; cases h
  | some y => exact ⟨y, rfl⟩

/-- What comes before every earlier condition, and what no later one comes before, is reported. -/
theorem worst_append_cons {pre post : List Cond} {x : Cond} (hpre : ∀ y ∈ pre, Before x y) (hpost : ∀ y ∈ post, ¬ Before y x) :
    worst (pre ++ x :: post) = some x := by
  induction pre with
  | nil =>
    rcases worst_cons x post with ⟨-, h⟩ | ⟨y, hy, ⟨hb, -⟩ | ⟨-, h⟩⟩
    · exact h
    · exact absurd hb (hpost y (worst_mem hy))
    · exact h
  | cons z t ih =>
    have ht := ih fun y hy => hpre y (List.mem_cons_of_mem _ hy)
    rcases worst_cons z (t ++ x :: post) with ⟨hn, -⟩ | ⟨y, hy, ⟨-, h⟩ | ⟨hb, -⟩⟩
    · rw [ht] at hn; cases hn
    · rw [List.cons_append, h, ← hy, ht]
    · rw [ht] at hy
      cases hy
      exact absurd (hpre z List.mem_cons_self) hb

/-- Conditions of a code that is the lowest, all for strands of a gang and without a VA, are reported for one of its strands. -/
theorem worst_of_code {l : List Cond} {k : Nat} {is : List Nat} (some' : ∃ x ∈ l, x.code = k) (least : ∀ x ∈ l, k ≤ x.code)
    (plain : ∀ x ∈ l, x.code = k → x.strand ∈ is ∧ x.va = 0) : ∃ st ∈ is, worst l = some ⟨k, st, 0⟩ := by
  obtain ⟨x, hx, hk⟩ := some'
  obtain ⟨y, hy⟩ := worst_isSome hx
  have code : y.code = k := by
    have h1 := worst_least hy hx
    have h2 := least y (worst_mem hy)
    unfold Before at h1
    omega
  obtain ⟨hst, hva⟩ := plain y (worst_mem hy) code
  refine ⟨y.strand, hst, hy.trans (congrArg some ?_)⟩
  rw [← code, ← hva]

/-- Conditions of lanes, in ascending order, and others behind them: the first of the lowest lane that has one of the lowest code is
reported, where each is for the lane's strand. -/
theorem worst_lanes {ls : List Nat} {f : Nat → List Cond} {l : Nat} {x : Cond} {tail post : List Cond} (asc : ls.Pairwise (· < ·))
    (hl : l ∈ ls) (here : f l = x :: post) (strand : ∀ j ∈ ls, ∀ y ∈ f j, x.code ≤ y.code ∧ y.strand = j / 4)
    (lower : ∀ j ∈ ls, j < l → ∀ y ∈ f j, x.code < y.code) (htail : ∀ y ∈ tail, x.code < y.code) :
    worst (ls.flatMap f ++ tail) = some x := by
  have hx : x.strand = l / 4 := (strand l hl x (by rw [here]; exact List.mem_cons_self)).2
  have notBefore : ∀ j ∈ ls, l ≤ j → ∀ y ∈ f j, ¬ Before y x := fun j hj hlj y hy => by
    have hs := strand j hj y hy
    have hd : l / 4 ≤ j / 4 := Nat.div_le_div_right hlj
    unfold Before
    omega
  obtain ⟨a, b, rfl⟩ := List.append_of_mem hl
  rw [List.pairwise_append, List.pairwise_cons] at asc
  obtain ⟨-, ⟨after, -⟩, before⟩ := asc
  rw [List.flatMap_append, List.flatMap_cons, here, List.append_assoc, List.cons_append, List.cons_append]
  refine worst_append_cons (fun y hy => ?_) fun y hy => ?_
  · obtain ⟨j, hj, hjy⟩ := List.mem_flatMap.1 hy
    exact .inl (lower j (List.mem_append_left _ hj) (before j hj l List.mem_cons_self) y hjy)
  · rw [List.append_assoc, List.mem_append, List.mem_append, List.mem_flatMap] at hy
    rcases hy with hy | ⟨j, hj, hjy⟩ | hy
    · exact notBefore l hl (Nat.le_refl _) y (by rw [here]; exact List.mem_cons_of_mem _ hy)
    · exact notBefore j (List.mem_append_right _ (List.mem_cons_of_mem _ hj)) (Nat.le_of_lt (after j hj)) y hjy
    · have := htail y hy
      unfold Before
      omega

/-! The active lanes and the strands of a gang. -/

theorem getLsbD_foldl_lanes (ls : List Nat) (f : Nat → Bool) (w : Word) (l : Nat) (hl : l < 32) :
    (ls.foldl (fun w l => if f l then w ||| BitVec.twoPow 32 l else w) w).getLsbD l = (w.getLsbD l || (ls.contains l && f l)) := by
  induction ls generalizing w with
  | nil => simp
  | cons k ks ih =>
    rw [List.foldl_cons, ih, List.contains_cons]
    by_cases hk : l = k
    · subst hk
      cases hf : f l <;> simp [hl]
    · have hn : (l == k) = false := by simpa using hk
      split <;> simp [BitVec.getLsbD_twoPow, hn, Ne.symm hk]

theorem laneBit_maskOf (f : Nat → Bool) {l : Nat} (hl : l < 32) : laneBit (maskOf f) l = f l := by
  rw [laneBit, maskOf, getLsbD_foldl_lanes _ _ _ _ hl]
  simp [hl]

theorem mem_lanesOf {m : Word} {l : Nat} : l ∈ lanesOf m ↔ l < 32 ∧ laneBit m l = true := by
  simp [lanesOf]

theorem lanesOf_ascending (m : Word) : (lanesOf m).Pairwise (· < ·) := List.pairwise_lt_range.filter _

/-- Strands of a gang are in ascending order. -/
theorem gangStrands_ascending (g : Group) (gang : Nat) : (g.gangStrands gang).Pairwise (· < ·) :=
  (List.pairwise_lt_range.filter _).filter _

section Gang

variable {n : Needs} {s : State} {core slot gang : Nat} {g : Group}

/-- An active lane is one of a strand of the gang, whatever the guard. -/
theorem strand_of_lane {l : Nat} (h : l ∈ (issueCtx n s core slot gang g).lanes) : l / 4 ∈ (issueCtx n s core slot gang g).is := by
  obtain ⟨hl, hb⟩ := mem_lanesOf.1 h
  have all : laneBit (g.activeLanes (g.gangStrands gang)) l = true := by
    unfold issueCtx at hb
    cases hg : n.guard with
    | none => simpa only [hg] using hb
    | some p =>
      simp only [hg] at hb
      rw [laneBit_maskOf _ hl, Bool.and_eq_true] at hb
      exact hb.1
  rw [Group.activeLanes, laneBit_maskOf _ hl, Bool.and_eq_true, List.contains_iff_mem] at all
  exact all.1

theorem low_mem (h : Ready n s core slot gang g) : (issueCtx n s core slot gang g).low ∈ (issueCtx n s core slot gang g).is := by
  have hs : (issueCtx n s core slot gang g).is ≠ [] := h.strands
  unfold Ctx.low
  cases hc : (issueCtx n s core slot gang g).is with
  | nil => exact absurd hc hs
  | cons => exact List.mem_cons_self

/-- The lowest strand of the gang. -/
theorem low_le {i : Nat} (h : i ∈ (issueCtx n s core slot gang g).is) : (issueCtx n s core slot gang g).low ≤ i := by
  have asc : (issueCtx n s core slot gang g).is.Pairwise (· < ·) := gangStrands_ascending g gang
  unfold Ctx.low
  cases hc : (issueCtx n s core slot gang g).is with
  | nil => rw [hc] at h; cases h
  | cons k ks =>
    rw [hc] at h asc
    rcases List.mem_cons.1 h with rfl | hi
    · exact Nat.le_refl _
    · exact Nat.le_of_lt ((List.pairwise_cons.1 asc).1 i hi)

end Gang

/-! The shared conditions one by one. -/

section Conditions

variable {n : Needs} {s : State} {core slot gang : Nat} {g : Group}

theorem emptySource_iff : emptySource n (issueCtx n s core slot gang g) = true ↔ ¬ SourcesFull n g := by
  unfold emptySource SourcesFull issueCtx
  simp only [Bool.or_eq_true, List.any_eq_true, Bool.not_eq_true', not_and_or, not_forall, exists_prop, Bool.not_eq_true]

theorem destBusy_iff (full : SourcesFull n g) : destBusy n (issueCtx n s core slot gang g) = true ↔ ¬ Arrived n s g := by
  have free : ∀ (f late : Bool) (t : Nat), (!f || (late && decide (s.dt < t))) = false ↔ f = true ∧ (late = true → t ≤ s.dt) := by
    intro f late t
    cases f <;> cases late <;> simp
  rw [← not_iff_not, not_not, Bool.not_eq_true]
  unfold destBusy issueCtx
  simp only [Bool.or_eq_false_iff, List.any_eq_false, Bool.not_eq_true, free]
  exact ⟨fun h => ⟨full.1, full.2, h.1, h.2⟩, fun h => ⟨h.vdst, h.sdst⟩⟩

theorem sourcesFull_of_arrived (h : Arrived n s g) : SourcesFull n g := ⟨h.vsrc, h.ssrc⟩

theorem allocConds_of_not (h : ¬ Allocated n g) : allocConds (issueCtx n s core slot gang g) n.namedV (n.ssrc ++ n.sdst) =
    [⟨4, (issueCtx n s core slot gang g).low, 0⟩] := by
  unfold allocConds
  refine if_neg fun hc => h ?_
  rw [Bool.and_eq_true, List.all_eq_true, List.all_eq_true] at hc
  refine ⟨fun r hr => of_decide_eq_true (hc.1 r hr), fun r hr => ?_⟩
  have hs := hc.2 r hr
  simp only [Group.hasS, Bool.or_eq_true, decide_eq_true_eq, or_assoc] at hs
  exact hs

theorem zoneConds_of_not (h : ¬ InZone n.zone slot g) : zoneConds n (issueCtx n s core slot gang g) =
    [⟨zoneCause n.zone, (issueCtx n s core slot gang g).low, 0⟩] := by
  unfold zoneConds issueCtx zoneCause
  unfold InZone at h
  cases hz : n.zone with
  | block =>
    have bad : g.calls ≠ [] ∨ slot = handlerSlot := by
      rw [hz] at h
      by_contra hn
      exact h (by simpa only [not_or, ne_eq, not_not] using hn)
    simp [bad]
  | any | notHandler | notCall | handlerOnly => simp_all

/-- The shared conditions by their codes (R411). -/
def Shared (n : Needs) (s : State) (c : Ctx) (code : Nat) : Prop :=
  (code = 0x06 ∧ DeadRead n c) ∨ (code = 0x07 ∧ TagWrong n c) ∨ (code = 0x08 ∧ EarlyRead n s c) ∨ (code = 0x0A ∧ EndInside n c) ∨
    (code = 0x0F ∧ PoisonRead n c)

theorem deadRead_iff {c : Ctx} : (flagOf c.g.gmode 1 && n.vsrc.any (fun r => (c.g.vreg r).dead)) = true ↔ DeadRead n c := by
  simp only [DeadRead, flagOf_eq, Bool.and_eq_true, List.any_eq_true]

theorem tagWrong_iff {c : Ctx} : (n.tags.any (fun t => !t.2.contains (c.tag t.1))) = true ↔ TagWrong n c := by
  simp only [TagWrong, Ctx.tag, List.any_eq_true, Bool.not_eq_true', List.contains_eq_mem, decide_eq_false_iff_not]

theorem earlyRead_iff {c : Ctx} (hdt : c.dt = s.dt) : (flagOf c.g.gmode 2 && earlySource n c) = true ↔ EarlyRead n s c := by
  simp only [EarlyRead, earlySource, flagOf_eq, Bool.and_eq_true, Bool.or_eq_true, List.any_eq_true, Bool.not_eq_true', decide_eq_true_eq,
    hdt, or_assoc]

theorem misplacedEnd_cases (n : Needs) (c : Ctx) :
    (EndInside n c ∧ ∃ i ∈ c.is, misplacedEnd n c = [⟨0x0A, i, 0⟩]) ∨ (¬ EndInside n c ∧ misplacedEnd n c = []) := by
  unfold misplacedEnd
  split
  · next i hf =>
    have hi := List.mem_of_find?_eq_some hf
    refine .inl ⟨⟨i, hi, ?_⟩, i, hi, rfl⟩
    have hp := List.find?_some hf
    split at hp
    · next e t hl =>
      rw [Bool.and_eq_true, decide_eq_true_eq, decide_eq_true_eq] at hp
      exact ⟨e, t, hl, hp⟩
    · cases hp
  · next hf =>
    refine .inr ⟨?_, rfl⟩
    rintro ⟨i, hi, e, t, hl, inside⟩
    have := List.find?_eq_none.1 hf i hi
    rw [hl] at this
    exact this (by simp [inside])

theorem lanesOf_eq_nil {m : Word} : lanesOf m = [] ↔ m = 0 := by
  refine ⟨fun h => ?_, fun h => by rw [h, lanesOf_zero]⟩
  refine BitVec.eq_of_getLsbD_eq fun l hl => ?_
  have hn : l ∉ lanesOf m := by rw [h]; exact List.not_mem_nil
  rw [mem_lanesOf, not_and, laneBit, Bool.not_eq_true] at hn
  rw [hn hl]
  exact BitVec.getLsbD_zero.symm

/-- Poison in an active lane is a condition of that lane's strand, in a uniform register one of the lowest strand. -/
theorem mem_poisonConds {x : Cond} : x ∈ poisonConds n (issueCtx n s core slot gang g) →
    x.code = 0x0F ∧ (Ready n s core slot gang g → x.strand ∈ (issueCtx n s core slot gang g).is) ∧ x.va = 0 ∧
    PoisonRead n (issueCtx n s core slot gang g) := by
  intro h
  rcases List.mem_append.1 h with h | h
  · obtain ⟨r, hr, hx⟩ := List.mem_flatMap.1 h
    split at hx
    · next l hl =>
      rw [List.mem_singleton] at hx
      subst hx
      have hm := List.mem_of_mem_head? hl
      refine ⟨rfl, fun _ => strand_of_lane ?_, rfl, .inl ⟨r, hr, fun hz => ?_⟩⟩
      · obtain ⟨h32, hb⟩ := mem_lanesOf.1 hm
        rw [laneBit, BitVec.getLsbD_and, Bool.and_eq_true] at hb
        exact mem_lanesOf.2 ⟨h32, hb.2⟩
      · rw [hz, lanesOf_zero] at hm
        cases hm
    · cases hx
  · split at h
    · next hs =>
      rw [List.mem_singleton] at h
      subst h
      exact ⟨rfl, fun hr => low_mem hr, rfl, .inr (by simpa using hs)⟩
    · cases h

theorem poisonConds_ne_nil {c : Ctx} (h : PoisonRead n c) : ∃ x ∈ poisonConds n c, x.code = 0x0F := by
  rcases h with ⟨r, hr, hp⟩ | h
  · have hne : lanesOf ((c.g.vreg r).poison &&& c.act) ≠ [] := fun hn => hp (lanesOf_eq_nil.1 hn)
    obtain ⟨l, hl⟩ : ∃ l, (lanesOf ((c.g.vreg r).poison &&& c.act)).head? = some l := ⟨_, List.head?_eq_some_head hne⟩
    refine ⟨⟨0x0F, l / 4, 0⟩, List.mem_append_left _ (List.mem_flatMap.2 ⟨r, hr, ?_⟩), rfl⟩
    rw [hl]
    exact List.mem_singleton.2 rfl
  · refine ⟨⟨0x0F, c.low, 0⟩, List.mem_append_right _ ?_, rfl⟩
    rw [if_pos (by simpa using h)]
    exact List.mem_singleton.2 rfl

/-- Each shared condition is reported under its code for a strand of the gang. -/
theorem mem_commonConds {x : Cond} (h : x ∈ commonConds n (issueCtx n s core slot gang g)) (ready : Ready n s core slot gang g) :
    Shared n s (issueCtx n s core slot gang g) x.code ∧ x.strand ∈ (issueCtx n s core slot gang g).is ∧ x.va = 0 := by
  have alone : ∀ {b : Bool} {k : Nat}, x ∈ (if b then [(⟨k, (issueCtx n s core slot gang g).low, 0⟩ : Cond)] else []) →
      x.code = k ∧ b = true ∧ x.strand ∈ (issueCtx n s core slot gang g).is ∧ x.va = 0 := by
    intro b k hx
    cases b with
    | false => cases hx
    | true => rw [if_pos rfl, List.mem_singleton] at hx; subst hx; exact ⟨rfl, rfl, low_mem ready, rfl⟩
  unfold commonConds at h
  rw [List.mem_append, List.mem_append, List.mem_append, List.mem_append] at h
  rcases h with (((h | h) | h) | h) | h
  · obtain ⟨hk, hb, rest⟩ := alone h
    exact ⟨.inl ⟨hk, deadRead_iff.1 hb⟩, rest⟩
  · obtain ⟨hk, hb, rest⟩ := alone h
    exact ⟨.inr (.inl ⟨hk, tagWrong_iff.1 hb⟩), rest⟩
  · obtain ⟨hk, hb, rest⟩ := alone h
    exact ⟨.inr (.inr (.inl ⟨hk, (earlyRead_iff rfl).1 hb⟩)), rest⟩
  · rcases misplacedEnd_cases n (issueCtx n s core slot gang g) with ⟨he, i, hi, hm⟩ | ⟨-, hm⟩ <;> rw [hm] at h
    · rw [List.mem_singleton] at h
      subst h
      exact ⟨.inr (.inr (.inr (.inl ⟨rfl, he⟩))), hi, rfl⟩
    · cases h
  · obtain ⟨hk, hst, hva, hp⟩ := mem_poisonConds h
    exact ⟨.inr (.inr (.inr (.inr ⟨hk, hp⟩))), hst ready, hva⟩

theorem exists_commonConds {k : Nat} (h : Shared n s (issueCtx n s core slot gang g) k) :
    ∃ x ∈ commonConds n (issueCtx n s core slot gang g), x.code = k := by
  unfold commonConds
  rcases h with ⟨rfl, h⟩ | ⟨rfl, h⟩ | ⟨rfl, h⟩ | ⟨rfl, h⟩ | ⟨rfl, h⟩
  · rw [if_pos (deadRead_iff.2 h)]
    exact ⟨⟨0x06, (issueCtx n s core slot gang g).low, 0⟩, by simp only [List.cons_append, List.mem_cons, true_or], rfl⟩
  · rw [if_pos (tagWrong_iff.2 h)]
    exact ⟨⟨0x07, (issueCtx n s core slot gang g).low, 0⟩,
      by simp only [List.append_assoc, List.mem_append, List.mem_cons, true_or, or_true], rfl⟩
  · rw [if_pos ((earlyRead_iff rfl).2 h)]
    exact ⟨⟨0x08, (issueCtx n s core slot gang g).low, 0⟩,
      by simp only [List.append_assoc, List.mem_append, List.mem_cons, true_or, or_true], rfl⟩
  · rcases misplacedEnd_cases n (issueCtx n s core slot gang g) with ⟨-, i, -, hm⟩ | ⟨hn, -⟩
    · exact ⟨⟨0x0A, i, 0⟩, by simp only [hm, List.append_assoc, List.mem_append, List.mem_cons, true_or, or_true], rfl⟩
    · exact absurd h hn
  · obtain ⟨x, hx, hk⟩ := poisonConds_ne_nil h
    exact ⟨x, List.mem_append_right _ hx, hk⟩

end Conditions

/-! The verdict, stage by stage (R411). -/

section Verdict

variable {n : Needs} {late own : Ctx → State → List Cond} {wait : Ctx → State → Bool} {c : Ctx} {s : State} {x : Cond}

theorem verdict_place (ready : notReady n s c = false)
    (hx : worst (zoneConds n c ++ allocConds c n.namedV (n.ssrc ++ n.sdst)) = some x) : verdict n late own wait c s = .trap x := by
  unfold verdict
  rw [ready, hx]
  rfl

theorem verdict_late (ready : notReady n s c = false) (zone : zoneConds n c = []) (alloc : allocConds c n.namedV (n.ssrc ++ n.sdst) = [])
    (hx : worst (late c s) = some x) : verdict n late own wait c s = .trap x := by
  unfold verdict
  rw [ready, zone, alloc, hx]
  rfl

theorem verdict_empty (ready : notReady n s c = false) (zone : zoneConds n c = []) (alloc : allocConds c n.namedV (n.ssrc ++ n.sdst) = [])
    (hlate : late c s = []) (empty : emptySource n c = true) :
    verdict n late own wait c s = if flagOf c.g.gmode 0 then .trap ⟨0x05, c.low, 0⟩ else .stall := by
  unfold verdict
  rw [ready, zone, alloc, hlate, empty]
  rfl

theorem verdict_busy (ready : notReady n s c = false) (zone : zoneConds n c = []) (alloc : allocConds c n.namedV (n.ssrc ++ n.sdst) = [])
    (hlate : late c s = []) (full : emptySource n c = false) (busy : destBusy n c = true) : verdict n late own wait c s = .stall := by
  unfold verdict
  rw [ready, zone, alloc, hlate, full, busy]
  rfl

theorem verdict_last (ready : notReady n s c = false) (zone : zoneConds n c = []) (alloc : allocConds c n.namedV (n.ssrc ++ n.sdst) = [])
    (hlate : late c s = []) (full : emptySource n c = false) (free : destBusy n c = false) (code : n.code = false)
    (hx : worst (commonConds n c ++ own c s) = some x) : verdict n late own wait c s = .trap x := by
  unfold verdict
  rw [ready, zone, alloc, hlate, full, free, code, hx]
  rfl

end Verdict

/-! How an instruction issues. -/

/-- Needs with other marks of how the instruction issues: the conditions that instructions share do not look at them. -/
def remarked (n : Needs) (closes code : Bool) : Needs := { n with closes := closes, code := code }

section Remarked

variable {n : Needs} {s : State} {core slot gang : Nat} {g : Group}

theorem ready_remarked (h : Ready n s core slot gang g) (closes code : Bool) : Ready (remarked n closes code) s core slot gang g :=
  ⟨h.turn, h.here, h.runs, h.sound, h.strands, h.port, h.loose, h.gap⟩

theorem allocated_remarked (h : Allocated n g) (closes code : Bool) : Allocated (remarked n closes code) g := ⟨h.vector, h.uniform⟩

theorem arrived_remarked (h : Arrived n s g) (closes code : Bool) : Arrived (remarked n closes code) s g := ⟨h.vsrc, h.ssrc, h.vdst, h.sdst⟩

end Remarked

/-- An instruction issues under its needs, whether it closes a region or waits for code aside, with early and last conditions of its own. -/
def IssuesAs (i : Instr) (n : Needs) (code : Bool) (late own : Ctx → State → List Cond) : Prop :=
  ∃ closes stalled wait eff, ∀ s, exec i s =
    issueOr stalled (fun _ _ => remarked n closes code) (remarked n closes code) late own wait eff s

/-- An instruction issues without a trace where it stalls, with last conditions of its own alone. -/
def Issues (i : Instr) (n : Needs) (own : Ctx → State → List Cond) : Prop :=
  n.code = false ∧ ∃ wait eff, ∀ s, exec i s = issue n own wait eff s

section Issue

variable {i : Instr} {n : Needs} {code : Bool} {late own : Ctx → State → List Cond} {s : State} {core slot gang : Nat} {g : Group}

theorem Issues.issuesAs (h : Issues i n own) : IssuesAs i n false noConds own := by
  obtain ⟨hcode, wait, eff, he⟩ := h
  refine ⟨n.closes, fun _ s => s, wait, eff, fun s => ?_⟩
  rw [← hcode]
  exact he s

/-- A condition that ends the checks is trapped for, once the port is taken; only code that fails to be read is logged besides. -/
theorem issueOr_trap {stalled eff : Ctx → State → State} {need : Ctx → State → Needs} {base : Needs} {wait : Ctx → State → Bool} {x : Cond}
    (ready : Ready n s core slot gang g)
    (hv : verdict (need (issueCtx base s core slot gang g) s) late own wait (issueCtx base s core slot gang g) s = .trap x)
    (hx : x.code ≠ 0x0B) : issueOr stalled need base late own wait eff s =
      .next (takeTrap (issued s core slot g) core slot ((issueCtx base s core slot gang g).trapRec x)) := by
  unfold issueOr
  simp only [ready.turn, ready.here, hv, if_neg hx]
  rfl

/-- THE PLACE AND THE ALLOCATION come first. -/
theorem trap_place {x : Cond} (h : IssuesAs i n code late own) (ready : Ready n s core slot gang g)
    (hx : worst (zoneConds n (issueCtx n s core slot gang g) ++
      allocConds (issueCtx n s core slot gang g) n.namedV (n.ssrc ++ n.sdst)) = some x) (hc : x.code ≠ 0x0B) :
    TrapsAt i n s core slot gang g x.code x.strand x.va := by
  obtain ⟨closes, stalled, wait, eff, he⟩ := h
  rw [TrapsAt, he]
  exact issueOr_trap ready (verdict_place (notReady_of_ready (ready_remarked ready closes code)) hx) hc

/-- THEN THE EARLY CONDITIONS of the instruction. -/
theorem trap_late {x : Cond} (h : IssuesAs i n code late own) (may : MayIssue n s core slot gang g)
    (hx : worst (late (issueCtx n s core slot gang g) s) = some x) (hc : x.code ≠ 0x0B) :
    TrapsAt i n s core slot gang g x.code x.strand x.va := by
  obtain ⟨closes, stalled, wait, eff, he⟩ := h
  rw [TrapsAt, he]
  exact issueOr_trap may.ready (verdict_late (notReady_of_ready (ready_remarked may.ready closes code))
    (zoneConds_of may.zone) (allocConds_of (allocated_remarked may.alloc closes code)) hx) hc

/-- LAST THE REST of the shared conditions with its own. -/
theorem trap_last {x : Cond} (h : IssuesAs i n false late own) (ready : Ready n s core slot gang g) (zone : InZone n.zone slot g)
    (alloc : Allocated n g) (arrived : Arrived n s g) (hl : late (issueCtx n s core slot gang g) s = [])
    (hx : worst (commonConds n (issueCtx n s core slot gang g) ++ own (issueCtx n s core slot gang g) s) = some x) (hc : x.code ≠ 0x0B) :
    TrapsAt i n s core slot gang g x.code x.strand x.va := by
  obtain ⟨closes, stalled, wait, eff, he⟩ := h
  rw [TrapsAt, he]
  exact issueOr_trap ready (verdict_last (notReady_of_ready (ready_remarked ready closes false)) (zoneConds_of zone)
    (allocConds_of (allocated_remarked alloc closes false)) hl (emptySource_of (arrived_remarked arrived closes false))
    (destBusy_of (arrived_remarked arrived closes false)) rfl hx) hc

/-- An instruction that could issue traps for the first of its own conditions. -/
theorem trap_own {x : Cond} (h : IssuesAs i n false late own) (may : MayIssue n s core slot gang g)
    (hl : late (issueCtx n s core slot gang g) s = []) (hx : worst (own (issueCtx n s core slot gang g) s) = some x) (hc : x.code ≠ 0x0B) :
    TrapsAt i n s core slot gang g x.code x.strand x.va :=
  trap_last h may.ready may.zone may.alloc may.arrived hl (by rw [commonConds_of may.read]; exact hx) hc

theorem trapsWith_of {k st : Nat} (hst : st ∈ (issueCtx n s core slot gang g).is) (h : TrapsAt i n s core slot gang g k st 0) :
    TrapsWith i n s core slot gang g k := ⟨st, hst, h⟩

/-- An instruction outside the places where it may execute (R181, R203, R415). -/
theorem trapsWith_zone (h : IssuesAs i n code late own) (ready : Ready n s core slot gang g) (zone : ¬ InZone n.zone slot g)
    (alloc : n.zone = .handlerOnly → Allocated n g) : TrapsWith i n s core slot gang g (zoneCause n.zone) := by
  have first : worst (zoneConds n (issueCtx n s core slot gang g) ++
      allocConds (issueCtx n s core slot gang g) n.namedV (n.ssrc ++ n.sdst)) =
      some ⟨zoneCause n.zone, (issueCtx n s core slot gang g).low, 0⟩ := by
    rw [zoneConds_of_not zone]
    refine worst_append_cons (pre := []) (fun _ hy => nomatch hy) fun y hy => ?_
    by_cases ha : Allocated n g
    · rw [allocConds_of ha] at hy
      cases hy
    · have other : zoneCause n.zone = 3 := by
        unfold zoneCause
        split
        · next hz => exact absurd (alloc hz) ha
        · rfl
      replace hy : y ∈ [(⟨4, (issueCtx n s core slot gang g).low, 0⟩ : Cond)] := allocConds_of_not ha ▸ hy
      rw [List.mem_singleton.1 hy, other]
      simp [Before]
  have code : zoneCause n.zone ≠ 0x0B := by
    unfold zoneCause
    split <;> decide
  exact trapsWith_of (low_mem ready) (trap_place (x := ⟨zoneCause n.zone, _, 0⟩) h ready first code)

/-! The shared conditions in their order. -/

theorem trapsWith_alloc (h : IssuesAs i n code late own) (ready : Ready n s core slot gang g) (zone : InZone n.zone slot g)
    (alloc : ¬ Allocated n g) : TrapsWith i n s core slot gang g 0x04 := by
  have first : worst (zoneConds n (issueCtx n s core slot gang g) ++
      allocConds (issueCtx n s core slot gang g) n.namedV (n.ssrc ++ n.sdst)) = some ⟨4, (issueCtx n s core slot gang g).low, 0⟩ := by
    rw [zoneConds_of zone, allocConds_of_not alloc]
    rfl
  exact trapsWith_of (low_mem ready) (trap_place (x := ⟨4, _, 0⟩) h ready first (by simp))

/-- A stage's conditions of which one holds, and none of a lower code, not of its own either. -/
theorem trapsWith_shared {k : Nat} (h : Issues i n own) (ready : Ready n s core slot gang g) (zone : InZone n.zone slot g)
    (alloc : Allocated n g) (arrived : Arrived n s g) (holds : Shared n s (issueCtx n s core slot gang g) k)
    (least : ∀ j < k, ¬ Shared n s (issueCtx n s core slot gang g) j)
    (hown : ∀ y ∈ own (issueCtx n s core slot gang g) s,
      k ≤ y.code ∧ (y.code = k → y.strand ∈ (issueCtx n s core slot gang g).is ∧ y.va = 0)) : TrapsWith i n s core slot gang g k := by
  have code : k ≠ 0x0B := by
    rintro rfl
    simp [Shared] at holds
  obtain ⟨x, hx, hk⟩ := exists_commonConds holds
  obtain ⟨st, hst, hw⟩ := worst_of_code (l := commonConds n (issueCtx n s core slot gang g) ++ own (issueCtx n s core slot gang g) s)
    ⟨x, List.mem_append_left _ hx, hk⟩
    (fun y hy => (List.mem_append.1 hy).elim (fun hy => Nat.le_of_not_lt fun hlt => least _ hlt (mem_commonConds hy ready).1)
      fun hy => (hown y hy).1)
    (fun y hy hyk => (List.mem_append.1 hy).elim (fun hy => (mem_commonConds hy ready).2) fun hy => (hown y hy).2 hyk)
  exact trapsWith_of hst (trap_last (x := ⟨k, st, 0⟩) h.issuesAs ready zone alloc arrived rfl hw code)

theorem exec_empty (h : Issues i n own) (ready : Ready n s core slot gang g) (zone : InZone n.zone slot g)
    (alloc : Allocated n g) (empty : ¬ SourcesFull n g) :
    if g.gmode.getLsbD 0 = true then TrapsWith i n s core slot gang g 0x05 else exec i s = .next s := by
  obtain ⟨-, wait, eff, he⟩ := h
  have hv : verdict n noConds own wait (issueCtx n s core slot gang g) s =
      if flagOf g.gmode 0 then .trap ⟨0x05, (issueCtx n s core slot gang g).low, 0⟩ else .stall :=
    verdict_empty (notReady_of_ready ready) (zoneConds_of zone) (allocConds_of alloc) rfl (emptySource_iff.2 empty)
  rw [flagOf_eq] at hv
  split
  · next hf =>
    rw [if_pos hf] at hv
    refine trapsWith_of (low_mem ready) ?_
    rw [TrapsAt, he, issue, issueWith]
    exact issueOr_trap (need := fun _ _ => n) (x := ⟨0x05, (issueCtx n s core slot gang g).low, 0⟩) ready hv (by simp)
  · next hf =>
    rw [if_neg hf] at hv
    rw [he, issue, issueWith, issueOr]
    simp only [ready.turn, ready.here, hv]

theorem exec_busy (h : Issues i n own) (ready : Ready n s core slot gang g) (zone : InZone n.zone slot g)
    (alloc : Allocated n g) (full : SourcesFull n g) (busy : ¬ Arrived n s g) : exec i s = .next s := by
  obtain ⟨-, wait, eff, he⟩ := h
  have hv := verdict_busy (late := noConds) (own := own) (wait := wait) (notReady_of_ready ready) (zoneConds_of zone)
    (allocConds_of alloc) rfl (Bool.eq_false_iff.2 fun hf => emptySource_iff.1 hf full) ((destBusy_iff full).2 busy)
  rw [he, issue, issueWith, issueOr]
  simp only [ready.turn, ready.here, hv]

/-- Own conditions from a code on: those of that code are for strands of the gang and without a VA. -/
def OwnFrom (k : Nat) (own : Ctx → State → List Cond) (c : Ctx) (s : State) : Prop :=
  ∀ y ∈ own c s, k ≤ y.code ∧ (y.code = k → y.strand ∈ c.is ∧ y.va = 0)

theorem OwnFrom.below {j k : Nat} {c : Ctx} (h : OwnFrom k own c s) (hj : j < k) : OwnFrom j own c s := fun y hy =>
  have hk := (h y hy).1
  ⟨by omega, fun he => by omega⟩

theorem inOrderFirst_of (h : Issues i n own) (ready : Ready n s core slot gang g) (zone : InZone n.zone slot g)
    (hown : OwnFrom 0x07 own (issueCtx n s core slot gang g) s) : InOrderFirst i n s core slot gang g where
  alloc ha := trapsWith_alloc h.issuesAs ready zone ha
  empty ha he := exec_empty h ready zone ha he
  busy ha hf hb := exec_busy h ready zone ha hf hb
  dead ha hr hd := trapsWith_shared h ready zone ha hr (.inl ⟨rfl, hd⟩) (by unfold Shared; grind) (hown.below (by decide))
  tag ha hr hd ht := trapsWith_shared h ready zone ha hr (.inr (.inl ⟨rfl, ht⟩)) (by unfold Shared; grind) hown

theorem inOrderNext_of (h : Issues i n own) (ready : Ready n s core slot gang g) (zone : InZone n.zone slot g)
    (hown : OwnFrom 0x0B own (issueCtx n s core slot gang g) s) : InOrderNext i n s core slot gang g where
  toInOrderFirst := inOrderFirst_of h ready zone (hown.below (by decide))
  early ha hr hd ht he := trapsWith_shared h ready zone ha hr (.inr (.inr (.inl ⟨rfl, he⟩))) (by unfold Shared; grind)
    (hown.below (by decide))
  stop ha hr hd ht he hs := trapsWith_shared h ready zone ha hr (.inr (.inr (.inr (.inl ⟨rfl, hs⟩)))) (by unfold Shared; grind)
    (hown.below (by decide))

theorem inOrder_of (h : Issues i n own) (ready : Ready n s core slot gang g) (zone : InZone n.zone slot g)
    (hown : own (issueCtx n s core slot gang g) s = []) : InOrder i n s core slot gang g where
  toInOrderNext := inOrderNext_of h ready zone fun y hy => by rw [hown] at hy; cases hy
  clean ha hr hd ht he hs hp := trapsWith_shared h ready zone ha hr (.inr (.inr (.inr (.inr ⟨rfl, hp⟩)))) (by unfold Shared; grind)
    fun y hy => by rw [hown] at hy; cases hy

end Issue

/-! How the instructions of each table issue, and their own conditions. -/

theorem issues_integerRow {i : Instr} {x : LaneRow} (h : integerRow i = some x) : Issues i x.needs noConds := by
  unfold integerRow at h
  split at h <;> cases h <;> dsimp only [Issues, exec, execIadd, execIsub, execImul, execImulhs, execImulhu, execImin,
    execImax, execUmin, execUmax, execIadds, execIsubs, execIabs, execIneg, execPopc, execClz, execBrev, execAnd, execOr,
    execXor, execAndn, execShl, execShr, execSar, execRot, execBfe, execBfes, execBfi, execBmix, execLea4, execLea8,
    execCompactIadd, execCompactIsub, execCompactImul, execCompactAnd, execCompactOr, execCompactXor, execCompactShl,
    execCompactShr, execCompactSar, intOp1, intOp2, intOp3, issueRegs] <;>
    exact ⟨rfl, _, _, fun _ => rfl⟩

theorem issues_moveRow {i : Instr} {x : LaneRow} (h : moveRow i = some x) : Issues i x.needs noConds := by
  unfold moveRow at h
  split at h <;> cases h <;> dsimp only [Issues, exec, execMov, execCompactMov, execSel, execMovi, execMovf, execTagset,
    execTagget, execFclass, execShflIdx, execShflUp, execShflDn, execShflXor, moveOp, shuffleOp, issueRegs] <;>
    exact ⟨rfl, _, _, fun _ => rfl⟩

theorem issues_predRow {i : Instr} {x : PredRow} (h : predRow i = some x) : Issues i x.needs noConds := by
  unfold predRow at h
  split at h <;> cases h <;> dsimp only [Issues, exec, execIsetpEq, execIsetpNe, execIsetpLt, execIsetpLe, execIsetpGt,
    execIsetpGe, execIsetpUlt, execIsetpUle, execFsetpEq, execFsetpNe, execFsetpLt, execFsetpLe, execFsetpGt, execFsetpGe,
    execFsetpUn, intCompare, fpCompare, issueRegs] <;>
    exact ⟨rfl, _, _, fun _ => rfl⟩

theorem issues_uniRow {i : Instr} {x : UniRow} (h : uniRow i = some x) : Issues i x.needs noConds := by
  unfold uniRow at h
  split at h <;> cases h <;> dsimp only [Issues, exec, execSadd, execSsub, execSmul, execSmulhi, execSand, execSor, execSxor,
    execSshl, execSshr, execSsar, execSmin, execSmax, execSmov, execSmovi, execSaddS, execSmovS, uniOp1, uniOp2, issueRegs] <;>
    exact ⟨rfl, _, _, fun _ => rfl⟩

theorem issues_qRow {i : Instr} {x : QRow} (h : qRow i = some x) : Issues i x.needs noConds := by
  unfold qRow at h
  split at h <;> cases h <;> dsimp only [Issues, exec, execSsetpEq, execSsetpLt, execSsetpUlt, execPollSome, execPollEvery,
    execPollAgree, execPollMost, uniCompare, pollOp, issueRegs] <;>
    exact ⟨rfl, _, _, fun _ => rfl⟩

theorem issues_unitRow {i : Instr} {x : UnitRow} (h : unitRow i = some x) : Issues i x.needs noConds := by
  unfold unitRow at h
  split at h <;> cases h <;> dsimp only [Issues, exec, execFrcp, execFrsq, execFsqrt, execFex2, execFlg2, execFsinp,
    execFcosp, execFtanh, execRedaddI, execRedaddF, execIsect, execUnion, execMerge, funcOp, windowOp] <;>
    exact ⟨rfl, _, _, fun _ => rfl⟩

theorem issues_loadRow {i : Instr} {x : LoadRow} (h : loadRow i = some x) :
    Issues i x.needs (accessConds permR x.size fun c l => addressOf c x.n x.a l) := by
  unfold loadRow at h
  split at h <;> cases h <;> dsimp only [Issues, exec, execLd8z, execLd8s, execLd16z, execLd16s, execLd32, execLdF32,
    execLd64, execLd128, loadOp] <;>
    exact ⟨rfl, _, _, fun _ => rfl⟩

theorem issues_storeRow {i : Instr} {x : StoreRow} (h : storeRow i = some x) : Issues i x.needs (accessConds permW x.size x.va) := by
  unfold storeRow at h
  split at h <;> cases h <;> dsimp only [Issues, exec, execSt8, execSt16, execSt32, execSt64, execSt128, execStN4, execStN2,
    storeOp, subByteOp] <;>
    exact ⟨rfl, _, _, fun _ => rfl⟩

theorem issues_atomRow {i : Instr} {x : AtomRow} (h : atomRow i = some x) :
    Issues i x.needs (accessConds (permA + permR + permW) 4 fun c l => addressOf c x.n x.a l) := by
  unfold atomRow at h
  split at h <;> cases h <;> dsimp only [Issues, exec, execAtomAdd, execAtomAddf, execAtomMin, execAtomMax, execAtomUmin,
    execAtomUmax, execAtomAnd, execAtomOr, execAtomXor, execAtomXchg, execAtomCas, execAtomAddh2, atomOp] <;>
    exact ⟨rfl, _, _, fun _ => rfl⟩

theorem issues_redRow {i : Instr} {x : RedRow} (h : redRow i = some x) :
    Issues i x.needs (accessConds (permA + permW) (redSize x.op) fun c l => addressOf c x.n x.a l) := by
  unfold redRow at h
  split at h <;> cases h <;> dsimp only [Issues, exec, execRedAdd, execRedAddf, execRedMin, execRedMax, execRedAnd, execRedOr,
    execRedXor, execRedAddx, redOp] <;>
    exact ⟨rfl, _, _, fun _ => rfl⟩

theorem issues_ldsRow {i : Instr} {x : ScratchRow} (h : ldsRow i = some x) : Issues i x.needs (scratchConds x.n x.a x.size) := by
  unfold ldsRow at h
  split at h <;> cases h <;> dsimp only [Issues, exec, execLds32, execLds64, execLds128, ldsOp] <;>
    exact ⟨rfl, _, _, fun _ => rfl⟩

theorem issues_stsRow {i : Instr} {x : ScratchRow} (h : stsRow i = some x) : Issues i x.needs (scratchConds x.n x.a x.size) := by
  unfold stsRow at h
  split at h <;> cases h <;> dsimp only [Issues, exec, execSts32, execSts64, execSts128, stsOp] <;>
    exact ⟨rfl, _, _, fun _ => rfl⟩

/-! Floating-point and packed instructions. -/

/-- The conditions of a floating-point or a packed instruction of its own: formats that do not agree (R250, R255 to R257), and for `ffma.c`
a word beyond the bank (R247). -/
def formatConds : Instr → Ctx → State → List Cond
  | .ffmaC _ _ _ _ n => fun c _ => if windowByte c n > 65532 then [⟨0x1D, c.low, 0⟩] else []
  | .cvt _ _ _ _ f | .f2i _ _ _ _ f | .i2f _ _ _ _ f => fun c _ => variantConds f c
  | .hadd2 _ _ _ a b | .hmul2 _ _ _ a b | .hmin2 _ _ _ a b | .hmax2 _ _ _ a b => sameTag [a, b]
  | .dot2 _ _ _ a b | .pack _ _ _ a b => sameTag [a, b]
  | .hfma2 _ _ d a b => sameTag [a, b, d]
  | .dot4 _ _ d a b => dot4Conds a b d
  | _ => noConds

theorem issues_floatRow {s : State} {i : Instr} {x : FloatRow} (h : floatRow s i = some x) : Issues i x.needs (formatConds i) := by
  unfold floatRow at h
  split at h <;> cases h <;> dsimp only [Issues, exec, execFadd, execFsub, execFmul, execFmin, execFmax, execFabs, execFneg,
    execFcpys, execFfma, execFfmaL, execFfmaC, execScl, execCvt, execF2i, execI2f, execHadd2, execHmul2, execHfma2, execHmin2,
    execHmax2, execDot2, execUnpkLo, execUnpkHi, execDot4, execCompactFadd, execCompactFsub, execCompactFmul, execCompactFmin,
    execCompactFmax, execCompactFneg, fpOp1, fpOp2, convertOp, halfOp, unpackOp, issueRegs, formatConds] <;>
    exact ⟨rfl, _, _, fun _ => rfl⟩

theorem issues_packRow {i : Instr} {x : LaneRow × (Ctx → Prop)} (h : packRow i = some x) : Issues i x.1.needs (formatConds i) := by
  unfold packRow at h
  split at h <;> cases h <;> dsimp only [Issues, exec, execPack, execDot4, formatConds] <;>
    exact ⟨rfl, _, _, fun _ => rfl⟩
/-- Conditions for the lowest strand of the gang, without a VA, and of no code below a bound. -/
def PlainFrom (k : Nat) (l : List Cond) (c : Ctx) : Prop := ∀ y ∈ l, k ≤ y.code ∧ y.strand = c.low ∧ y.va = 0

theorem plainFrom_ite {p : Prop} [Decidable p] {k j : Nat} {c : Ctx} (h : k ≤ j) : PlainFrom k (if p then [⟨j, c.low, 0⟩] else []) c := by
  split
  · intro y hy
    rw [List.mem_singleton.1 hy]
    exact ⟨h, rfl, rfl⟩
  · intro y hy
    cases hy

theorem plainFrom_sameTag (rs : List Nat) (c : Ctx) (s : State) : PlainFrom 0x07 (sameTag rs c s) c := by
  unfold sameTag
  split
  · intro y hy; cases hy
  · rw [← ite_not]
    exact plainFrom_ite (by decide)

theorem plainFrom_formatConds (i : Instr) (c : Ctx) (s : State) : PlainFrom 0x07 (formatConds i c s) c := by
  unfold formatConds
  split
  case h_1 => exact plainFrom_ite (by decide)
  case h_2 | h_3 | h_4 => exact plainFrom_ite (by decide)
  case h_12 => exact plainFrom_ite (by decide)
  case h_13 => intro y hy; cases hy
  all_goals exact plainFrom_sameTag _ c s

theorem sameTag_eq_nil {r : Nat} {rs : List Nat} {c : Ctx} (s : State) (h : ∀ x ∈ rs, c.tag x = c.tag r) : sameTag (r :: rs) c s = [] := by
  unfold sameTag
  exact if_pos (List.all_eq_true.2 fun x hx => beq_iff_eq.2 (h x hx))

theorem isIntTag_eq_true_iff (t : Nat) : isIntTag t = true ↔ t ∈ [7, 8] := by
  simp [isIntTag, tagI8, tagUI8]

theorem dot4Conds_of_int {a b d : Nat} {c : Ctx} (s : State) (ha : c.tag a ∈ [7, 8]) (hb : c.tag b ∈ [7, 8]) :
    dot4Conds a b d c s = [] := by
  simp [dot4Conds, (isIntTag_eq_true_iff _).2 ha, (isIntTag_eq_true_iff _).2 hb]

theorem dot4Conds_of_float {a b d : Nat} {c : Ctx} (s : State) (ha : c.tag a ∈ [6, 9]) (hb : c.tag b ∈ [6, 9]) (hd : c.tag d ∈ [0, 2]) :
    dot4Conds a b d c s = [] := by
  have float : ∀ t ∈ [6, 9], isIntTag t = false := by decide
  have tags : c.tag d ∈ fpTags := hd
  simp [dot4Conds, float _ ha, float _ hb, tags]

/-- Formats that agree raise nothing (R250, R255 to R257). -/
theorem formatConds_floatRow {s t : State} {i : Instr} {x : FloatRow} {c : Ctx} (h : floatRow s i = some x) (also : x.also c) :
    formatConds i c t = [] := by
  unfold formatConds
  split
  case h_1 => cases h; exact if_neg (Nat.not_lt.2 also)
  case h_2 | h_3 | h_4 => cases h; exact also
  case h_5 | h_6 | h_7 | h_8 | h_11 => cases h; exact sameTag_eq_nil t fun r hr => also r (List.mem_cons_of_mem _ hr)
  case h_9 => cases h; exact sameTag_eq_nil t fun r hr => by rw [List.mem_singleton.1 hr]; exact also
  case h_10 => cases h
  case h_12 => cases h; exact dot4Conds_of_float t also.1 also.2.1 also.2.2
  case h_13 => rfl

theorem formatConds_packRow {t : State} {i : Instr} {x : LaneRow × (Ctx → Prop)} {c : Ctx} (h : packRow i = some x) (also : x.2 c) :
    formatConds i c t = [] := by
  unfold packRow at h
  split at h <;> cases h
  · exact sameTag_eq_nil t fun r hr => by rw [List.mem_singleton.1 hr]; exact also
  · exact dot4Conds_of_int t also.1 also.2

/-! The instructions with conditions of their own that no table holds. -/

/-- The conditions of a work-list instruction: its list, for `wlins` a key that is reserved, and for an insertion the room of the list
(R302, R378, R414). -/
def listOwn : Instr → Ctx → State → List Cond
  | .wlpush _ _ _ w => fun c s => listConds w [0] c s ++ [] ++ spillConds w c s
  | .wlins _ _ a w => fun c s => listConds w [1] c s ++
      c.lanes.flatMap (fun k => if c.v (a + 1) k = 0xFFFFFFFF then [(⟨0x15, k / 4, 0⟩ : Cond)] else []) ++ spillConds w c s
  | .wlpop _ _ _ w | .wlcnt _ _ _ w => listConds w [0, 1]
  | _ => noConds

theorem issuesAs_listRow {i : Instr} {n : Needs} {w : Nat} {kinds : List Nat} (h : listRow i = some (n, w, kinds)) :
    IssuesAs i n false noConds (listOwn i) := by
  unfold listRow at h
  split at h <;> cases h <;>
    dsimp only [IssuesAs, exec, execWlpush, execWlins, execWlpop, execWlcnt, insertOp, listOp, issue, issueWith, listOwn] <;>
    exact ⟨_, _, _, _, fun _ => rfl⟩

theorem issues_ldc (gap : Fin 4) (d a : Fin 64) (n : Fin 32) : Issues (.ldc gap d a n) (ldcNeeds gap a d)
    (fun c _ => if ldcOffset c a n % 4 ≠ 0 ∨ ldcOffset c a n > 65532 then [⟨0x1D, c.low, 0⟩] else []) := by
  dsimp only [Issues, exec, execLdc]
  exact ⟨rfl, _, _, fun _ => rfl⟩

/-- A window that R267 does not allow. -/
def windowOwn (n : Nat) (c : Ctx) (s : State) : List Cond :=
  match blockOf s c.g with
  | some b => if wsetBad b (c.s (2 * n)).toNat (c.s (2 * n + 1)).toNat then [⟨0x0D, c.low, 0⟩] else []
  | none => []

theorem issues_wset (gap : Fin 4) (w : Fin 16) (n : Fin 32) : Issues (.wset gap w n) (wsetNeeds gap n) (windowOwn n) := by
  dsimp only [Issues, exec, execWset]
  exact ⟨rfl, _, _, fun _ => rfl⟩

theorem issues_spawn (gap : Fin 4) (n : Fin 64) : Issues (.spawn gap n) (spawnNeeds gap n)
    (fun c _ => if taskValid (c.s (n + 2)) then [] else [⟨0x15, c.low, 0⟩]) := by
  dsimp only [Issues, exec, execSpawn]
  exact ⟨rfl, _, _, fun _ => rfl⟩

theorem issuesAs_windowRow {i : Instr} {n : Needs} {x : Nat} {u : Bool} (h : windowRow i = some (n, x, u)) :
    IssuesAs i n false (selectorConds u x) noConds := by
  unfold windowRow at h
  split at h <;> cases h <;> dsimp only [IssuesAs, exec, execXrd, execXwr, issueWith] <;> exact ⟨_, _, _, _, fun _ => rfl⟩

theorem issuesAs_gcall (gap : Fin 4) (k : Fin 65536) : IssuesAs (.gcall gap k) (gcallNeeds gap) true (gateLate k) noConds := by
  dsimp only [IssuesAs, exec, execGcall]
  exact ⟨_, _, _, _, fun _ => rfl⟩

theorem issuesAs_leaveRow {i : Instr} {x : Needs × (CallFrame → Nat × Nat) × Word} (h : leaveRow i = some x) :
    IssuesAs i x.1 false noConds depthConds := by
  unfold leaveRow at h
  split at h <;> cases h <;> dsimp only [IssuesAs, exec, execGret, execGabort, leaveGate, issue, issueWith] <;>
    exact ⟨_, _, _, _, fun _ => rfl⟩

/-! Where instructions may execute. -/

/-- An instruction issues under needs that, the tags aside, are these. -/
def Placed (i : Instr) (n : Needs) : Prop := ∃ tags code late own, IssuesAs i { n with tags := tags } code late own

theorem placed_of {i : Instr} {n : Needs} {code : Bool} {late own : Ctx → State → List Cond} (h : IssuesAs i n code late own) :
    Placed i n := ⟨n.tags, code, late, own, h⟩

theorem placed_syncRow {i : Instr} {x : Needs × Nat} (h : syncRow i = some x) : Placed i x.1 := by
  unfold syncRow at h
  split at h <;> cases h <;> dsimp only [Placed, IssuesAs, exec, execBarSync, execBarS, barSyncOp, arriveOp] <;>
    exact ⟨_, _, _, _, _, _, _, _, fun _ => rfl⟩

theorem placed_exitRow {i : Instr} {n : Needs} (h : exitRow i = some n) : Placed i n := by
  unfold exitRow at h
  split at h <;> cases h <;> dsimp only [Placed, IssuesAs, exec, execExit, execCompactExit, exitOp, issue, issueWith] <;>
    exact ⟨_, _, _, _, _, _, _, _, fun _ => rfl⟩

/-- A row of one of two tables. -/
theorem orElse_cases {α : Type} {a b : Option α} {x : α} (h : (a <|> b) = some x) : a = some x ∨ b = some x := by
  cases a with
  | none => exact .inr h
  | some y => exact .inl h

theorem placed_zonedRow {i : Instr} {n : Needs} (h : zonedRow i = some n) : Placed i n := by
  unfold zonedRow at h
  split at h
  case h_16 =>
    rcases orElse_cases h with h | h
    · obtain ⟨x, hx, rfl⟩ := Option.map_eq_some_iff.1 h
      exact placed_of (issues_ldsRow hx).issuesAs
    rcases orElse_cases h with h | h
    · obtain ⟨x, hx, rfl⟩ := Option.map_eq_some_iff.1 h
      exact placed_of (issues_stsRow hx).issuesAs
    rcases orElse_cases h with h | h
    · obtain ⟨x, hx, rfl⟩ := Option.map_eq_some_iff.1 h
      exact placed_syncRow hx
    rcases orElse_cases h with h | h
    · exact placed_exitRow h
    · obtain ⟨x, hx, rfl⟩ := Option.map_eq_some_iff.1 h
      exact placed_of (issues_unitRow hx).issuesAs
  all_goals cases h
  case h_2 => exact placed_of (issues_ldc ..).issuesAs
  case h_3 => exact placed_of (issues_wset ..).issuesAs
  case h_6 => exact placed_of (issues_spawn ..).issuesAs
  case h_7 => exact placed_of (issuesAs_gcall ..)
  case h_10 | h_11 => exact placed_of (issuesAs_windowRow rfl)
  case h_12 | h_13 | h_14 | h_15 => exact placed_of (issuesAs_listRow rfl)
  all_goals
    dsimp only [Placed, IssuesAs, exec, execFfmaC, execBarArr, execBarWait, execFbp, execPret, arriveOp, issue, issueWith]
    exact ⟨_, _, _, _, _, _, _, _, fun _ => rfl⟩

/-- An instruction is refused outside the places where it may execute (R181, R203, R415). -/
theorem trapsWith_placed {i : Instr} {n : Needs} {s : State} {core slot gang : Nat} {g : Group} (h : Placed i n)
    (ready : Ready n s core slot gang g) (zone : ¬ InZone n.zone slot g) (alloc : n.zone = .handlerOnly → Allocated n g) :
    TrapsWith i n s core slot gang g (zoneCause n.zone) := by
  obtain ⟨tags, code, late, own, h⟩ := h
  exact trapsWith_zone (n := { n with tags := tags }) h
    ⟨ready.turn, ready.here, ready.runs, ready.sound, ready.strands, ready.port, ready.loose, ready.gap⟩ zone
    fun hz => ⟨(alloc hz).vector, (alloc hz).uniform⟩

/-! The tables as a whole. -/

theorem issues_commonRow {i : Instr} {n : Needs} (h : commonRow i = some n) : Issues i n noConds := by
  unfold commonRow at h
  rcases orElse_cases h with h | h
  · obtain ⟨x, hx, rfl⟩ := Option.map_eq_some_iff.1 h
    exact issues_integerRow hx
  rcases orElse_cases h with h | h
  · obtain ⟨x, hx, rfl⟩ := Option.map_eq_some_iff.1 h
    exact issues_moveRow hx
  rcases orElse_cases h with h | h
  · obtain ⟨x, hx, rfl⟩ := Option.map_eq_some_iff.1 h
    exact issues_predRow hx
  rcases orElse_cases h with h | h
  · obtain ⟨x, hx, rfl⟩ := Option.map_eq_some_iff.1 h
    exact issues_uniRow hx
  rcases orElse_cases h with h | h
  · obtain ⟨x, hx, rfl⟩ := Option.map_eq_some_iff.1 h
    exact issues_qRow hx
  · obtain ⟨x, hx, rfl⟩ := Option.map_eq_some_iff.1 h
    exact issues_unitRow hx

theorem issues_accessRow {i : Instr} {x : AccessRow} (h : accessRow i = some x) :
    Issues i x.needs (accessConds x.perms x.size x.va) := by
  unfold accessRow at h
  rcases orElse_cases h with h | h
  · obtain ⟨y, hy, rfl⟩ := Option.map_eq_some_iff.1 h
    exact issues_loadRow hy
  rcases orElse_cases h with h | h
  · obtain ⟨y, hy, rfl⟩ := Option.map_eq_some_iff.1 h
    exact issues_storeRow hy
  rcases orElse_cases h with h | h
  · obtain ⟨y, hy, rfl⟩ := Option.map_eq_some_iff.1 h
    exact issues_atomRow hy
  · obtain ⟨y, hy, rfl⟩ := Option.map_eq_some_iff.1 h
    exact issues_redRow hy

theorem issues_scratchRow {i : Instr} {x : ScratchRow} (h : scratchRow i = some x) :
    Issues i x.needs (scratchConds x.n x.a x.size) := by
  unfold scratchRow at h
  rcases orElse_cases h with h | h
  · exact issues_ldsRow h
  · exact issues_stsRow h

/-! Accesses of lanes to global memory (R78, R382). -/

theorem mem_laneAccess {c : Ctx} {perms size l va : Nat} {y : Cond} (h : y ∈ laneAccess c perms size l va) :
    y.strand = l / 4 ∧ ((y.code = 0x0C ∧ rangeFail c.g.dom.ranges perms va size ≠ none) ∨ (y.code = 0x11 ∧ va % size ≠ 0)) := by
  unfold laneAccess at h
  rcases List.mem_append.1 h with h | h
  · split at h
    · next v hv =>
      rw [List.mem_singleton.1 h, hv]
      exact ⟨rfl, .inl ⟨rfl, Option.some_ne_none _⟩⟩
    · cases h
  · split at h
    · cases h
    · next hs =>
      rw [List.mem_singleton.1 h]
      exact ⟨rfl, .inr ⟨rfl, hs⟩⟩

theorem mem_accessConds {perms size : Nat} {va : Ctx → Nat → Nat} {c : Ctx} {s : State} {y : Cond} (h : y ∈ accessConds perms size va c s) :
    0x0C ≤ y.code := by
  obtain ⟨l, -, hy⟩ := List.mem_flatMap.1 h
  rcases (mem_laneAccess hy).2 with ⟨hk, -⟩ | ⟨hk, -⟩ <;> omega

/-- Of accesses that R78 does not permit the lowest lane's is reported. -/
theorem worst_accessConds_denied {perms size l a : Nat} {va : Ctx → Nat → Nat} {c : Ctx} (s : State)
    (lane : LowestLane c l (fun k => rangeFail c.g.dom.ranges perms (va c k) size ≠ none))
    (byte : rangeFail c.g.dom.ranges perms (va c l) size = some a) : worst (accessConds perms size va c s) = some ⟨0x0C, l / 4, a⟩ := by
  obtain ⟨hl, -, lowest⟩ := lane
  have here : laneAccess c perms size l (va c l) =
      ⟨0x0C, l / 4, a⟩ :: if va c l % size = 0 then [] else [⟨0x11, l / 4, misalignedVa c (va c l)⟩] := by
    rw [laneAccess, byte]
    rfl
  rw [accessConds, ← List.append_nil (List.flatMap ..)]
  refine worst_lanes (lanesOf_ascending _) hl here (fun j _ y hy => ?_) (fun j hj hlt y hy => ?_) (fun _ hy => nomatch hy)
  · obtain ⟨hs, ⟨hk, -⟩ | ⟨hk, -⟩⟩ := mem_laneAccess hy <;> exact ⟨by simp [hk], hs⟩
  · obtain ⟨-, ⟨-, hf⟩ | ⟨hk, -⟩⟩ := mem_laneAccess hy
    · exact absurd hf (lowest j hj hlt)
    · simp [hk]

/-- Of permitted accesses that are not aligned the lowest lane's is reported. -/
theorem worst_accessConds_unaligned {perms size l : Nat} {va : Ctx → Nat → Nat} {c : Ctx} (s : State)
    (may : ∀ k ∈ c.lanes, rangeFail c.g.dom.ranges perms (va c k) size = none) (lane : LowestLane c l (fun k => va c k % size ≠ 0)) :
    worst (accessConds perms size va c s) = some ⟨0x11, l / 4, misalignedVa c (va c l)⟩ := by
  obtain ⟨hl, odd, lowest⟩ := lane
  have here : laneAccess c perms size l (va c l) = [⟨0x11, l / 4, misalignedVa c (va c l)⟩] := by
    rw [laneAccess, may l hl, if_neg odd]
    rfl
  rw [accessConds, ← List.append_nil (List.flatMap ..)]
  refine worst_lanes (lanesOf_ascending _) hl here (fun j hj y hy => ?_) (fun j hj hlt y hy => ?_) (fun _ hy => nomatch hy)
  · obtain ⟨hs, ⟨-, hf⟩ | ⟨hk, -⟩⟩ := mem_laneAccess hy
    · exact absurd (may j hj) hf
    · exact ⟨by simp [hk], hs⟩
  · obtain ⟨-, ⟨-, hf⟩ | ⟨-, ho⟩⟩ := mem_laneAccess hy
    · exact absurd (may j hj) hf
    · exact absurd ho (lowest j hj hlt)

/-! Accesses of lanes to the scratchpad (R81, R387). -/

/-- The conditions of a lane's access: its window, engines, and its alignment. -/
def engineConds (c : Ctx) (s : State) (n a size l : Nat) : List Cond :=
  match blockOf s c.g with
  | some b => if (coreAt s c.core).ownTrap && engineOwned b (windowPlace c s n a l) size then [⟨0x0E, l / 4, 0⟩] else []
  | none => []

theorem laneScratch_eq (c : Ctx) (s : State) (n a size l : Nat) : laneScratch c s n size l (c.v a l).toNat =
    (if (c.v a l).toNat + size ≤ (windowAt s c.g n c.dt).2 then [] else [⟨0x0D, l / 4, 0⟩]) ++ engineConds c s n a size l ++
      (if (c.v a l).toNat % size = 0 then [] else [⟨0x11, l / 4, 0⟩]) := rfl

theorem engineConds_of_holds {c : Ctx} {s : State} {n a size l : Nat} (h : EngineHolds c s n a size l) :
    engineConds c s n a size l = [⟨0x0E, l / 4, 0⟩] := by
  obtain ⟨own, b, hb, ho⟩ := h
  unfold engineConds
  simp only [hb, own, ho, Bool.and_self, if_true]

theorem engineConds_of_not {c : Ctx} {s : State} {n a size l : Nat} (h : ¬ EngineHolds c s n a size l) :
    engineConds c s n a size l = [] := by
  unfold engineConds
  split
  · next b hb => exact if_neg fun ho => h ⟨(Bool.and_eq_true_iff.1 ho).1, b, hb, (Bool.and_eq_true_iff.1 ho).2⟩
  · rfl

theorem mem_laneScratch {c : Ctx} {s : State} {n a size l : Nat} {y : Cond} (h : y ∈ laneScratch c s n size l (c.v a l).toNat) :
    y.strand = l / 4 ∧ ((y.code = 0x0D ∧ OutOfWindow c s n a size l) ∨ (y.code = 0x0E ∧ EngineHolds c s n a size l) ∨
      (y.code = 0x11 ∧ (c.v a l).toNat % size ≠ 0)) := by
  rw [laneScratch_eq, List.mem_append, List.mem_append] at h
  rcases h with (h | h) | h
  · split at h
    · cases h
    · next hw =>
      rw [List.mem_singleton.1 h]
      exact ⟨rfl, .inl ⟨rfl, Nat.lt_of_not_le hw⟩⟩
  · by_cases hh : EngineHolds c s n a size l
    · rw [engineConds_of_holds hh, List.mem_singleton] at h
      rw [h]
      exact ⟨rfl, .inr (.inl ⟨rfl, hh⟩)⟩
    · rw [engineConds_of_not hh] at h
      cases h
  · split at h
    · cases h
    · next hs =>
      rw [List.mem_singleton.1 h]
      exact ⟨rfl, .inr (.inr ⟨rfl, hs⟩)⟩

theorem mem_scratchConds {n a size : Nat} {c : Ctx} {s : State} {y : Cond} (h : y ∈ scratchConds n a size c s) : 0x0D ≤ y.code := by
  obtain ⟨l, -, hy⟩ := List.mem_flatMap.1 h
  rcases (mem_laneScratch hy).2 with ⟨hk, -⟩ | ⟨hk, -⟩ | ⟨hk, -⟩ <;> omega

theorem laneScratch_outside {c : Ctx} {s : State} {n a size l : Nat} (h : OutOfWindow c s n a size l) :
    ∃ post, laneScratch c s n size l (c.v a l).toNat = ⟨0x0D, l / 4, 0⟩ :: post := by
  rw [laneScratch_eq, if_neg (Nat.not_le.2 h)]
  exact ⟨_, rfl⟩

theorem laneScratch_owned {c : Ctx} {s : State} {n a size l : Nat} (fits : ¬ OutOfWindow c s n a size l) (h : EngineHolds c s n a size l) :
    ∃ post, laneScratch c s n size l (c.v a l).toNat = ⟨0x0E, l / 4, 0⟩ :: post := by
  rw [laneScratch_eq, if_pos (Nat.not_lt.1 fits), engineConds_of_holds h]
  exact ⟨_, rfl⟩

theorem laneScratch_odd {c : Ctx} {s : State} {n a size l : Nat} (fits : ¬ OutOfWindow c s n a size l) (free : ¬ EngineHolds c s n a size l)
    (odd : (c.v a l).toNat % size ≠ 0) : laneScratch c s n size l (c.v a l).toNat = [⟨0x11, l / 4, 0⟩] := by
  rw [laneScratch_eq, if_pos (Nat.not_lt.1 fits), engineConds_of_not free, if_neg odd]
  rfl

section Scratch

variable {c : Ctx} {s : State} {n a size l : Nat}

/-- The lowest lane with a condition of a code that no lane's condition is below is the one reported. -/
theorem worst_scratchConds {k : Nat} {post : List Cond} (hl : l ∈ c.lanes)
    (here : laneScratch c s n size l (c.v a l).toNat = ⟨k, l / 4, 0⟩ :: post)
    (least : ∀ j ∈ c.lanes, ∀ y ∈ laneScratch c s n size j (c.v a j).toNat, k ≤ y.code)
    (lower : ∀ j ∈ c.lanes, j < l → ∀ y ∈ laneScratch c s n size j (c.v a j).toNat, y.code ≠ k) :
    worst (scratchConds n a size c s) = some ⟨k, l / 4, 0⟩ := by
  rw [scratchConds, ← List.append_nil (List.flatMap ..)]
  exact worst_lanes (lanesOf_ascending _) hl here (fun j hj y hy => ⟨least j hj y hy, (mem_laneScratch hy).1⟩)
    (fun j hj hlt y hy => Nat.lt_of_le_of_ne (least j hj y hy) (Ne.symm (lower j hj hlt y hy))) (fun _ hy => nomatch hy)

theorem worst_scratchConds_outside (lane : LowestLane c l (OutOfWindow c s n a size)) :
    worst (scratchConds n a size c s) = some ⟨0x0D, l / 4, 0⟩ := by
  obtain ⟨hl, out, lowest⟩ := lane
  obtain ⟨post, here⟩ := laneScratch_outside out
  refine worst_scratchConds hl here (fun j _ y hy => ?_) (fun j hj hlt y hy => ?_)
  · rcases (mem_laneScratch hy).2 with ⟨hk, -⟩ | ⟨hk, -⟩ | ⟨hk, -⟩ <;> omega
  · rcases (mem_laneScratch hy).2 with ⟨-, ho⟩ | ⟨hk, -⟩ | ⟨hk, -⟩
    · exact absurd ho (lowest j hj hlt)
    all_goals omega

theorem worst_scratchConds_owned (fits : ∀ k ∈ c.lanes, ¬ OutOfWindow c s n a size k) (lane : LowestLane c l (EngineHolds c s n a size)) :
    worst (scratchConds n a size c s) = some ⟨0x0E, l / 4, 0⟩ := by
  obtain ⟨hl, held, lowest⟩ := lane
  obtain ⟨post, here⟩ := laneScratch_owned (fits l hl) held
  refine worst_scratchConds hl here (fun j hj y hy => ?_) (fun j hj hlt y hy => ?_)
  · rcases (mem_laneScratch hy).2 with ⟨-, ho⟩ | ⟨hk, -⟩ | ⟨hk, -⟩
    · exact absurd ho (fits j hj)
    all_goals omega
  · rcases (mem_laneScratch hy).2 with ⟨-, ho⟩ | ⟨-, ho⟩ | ⟨hk, -⟩
    · exact absurd ho (fits j hj)
    · exact absurd ho (lowest j hj hlt)
    · omega

theorem worst_scratchConds_odd (fits : ∀ k ∈ c.lanes, ¬ OutOfWindow c s n a size k) (free : ∀ k ∈ c.lanes, ¬ EngineHolds c s n a size k)
    (lane : LowestLane c l (fun k => (c.v a k).toNat % size ≠ 0)) : worst (scratchConds n a size c s) = some ⟨0x11, l / 4, 0⟩ := by
  obtain ⟨hl, odd, lowest⟩ := lane
  refine worst_scratchConds hl (laneScratch_odd (fits l hl) (free l hl) odd) (fun j hj y hy => ?_) (fun j hj hlt y hy => ?_)
  · rcases (mem_laneScratch hy).2 with ⟨-, ho⟩ | ⟨-, ho⟩ | ⟨hk, -⟩
    · exact absurd ho (fits j hj)
    · exact absurd ho (free j hj)
    · omega
  · rcases (mem_laneScratch hy).2 with ⟨-, ho⟩ | ⟨-, ho⟩ | ⟨-, ho⟩
    · exact absurd ho (fits j hj)
    · exact absurd ho (free j hj)
    · exact absurd ho (lowest j hj hlt)

end Scratch

/-! Work lists (R302, R378, R414). -/

section Lists

variable {i : Instr} {n : Needs} {w : Nat} {kinds : List Nat} {c : Ctx} {s : State} {l : WorkList}

theorem listConds_of_bad (bad : ∀ l, listAt s c.g w = some l → l.bad = true ∨ l.kind ∉ kinds) :
    listConds w kinds c s = [⟨0x15, c.low, 0⟩] := by
  unfold listConds
  split
  · next l hl =>
    refine if_pos ((bad l hl).imp id fun h => ?_)
    rw [Bool.not_eq_true', Bool.eq_false_iff, Ne, List.contains_iff_mem]
    exact h
  · rfl

theorem listConds_of_sound (here : listAt s c.g w = some l) (sound : l.bad = false ∧ l.kind ∈ kinds) : listConds w kinds c s = [] := by
  unfold listConds
  rw [here]
  exact if_neg (by simp [sound.1, sound.2])

/-- A condition of room has the highest code. -/
theorem mem_spillConds {y : Cond} (h : y ∈ spillConds w c s) : y.code = 0x1C := by
  unfold spillConds at h
  split at h
  · cases h
  split at h
  · cases h
  dsimp only at h
  split at h
  · rw [List.mem_singleton.1 h]
  split at h
  · cases h
  split at h
  · rw [List.mem_singleton.1 h]
  · cases h

theorem spillConds_full (here : listAt s c.g w = some l) (fence : fenceHolds s c.core c.g 1 s.nextId = true)
    (more : 4096 + l.cap < l.entries.length + l.places.length + c.lanes.length) : spillConds w c s = [⟨0x1C, c.low, 0⟩] := by
  unfold spillConds
  simp only [fence, here, WorkList.count, engineEntries, Bool.not_true, Bool.false_eq_true, if_false]
  exact if_pos more

theorem spillConds_area {va : Nat} (here : listAt s c.g w = some l) (fence : fenceHolds s c.core c.g 1 s.nextId = true)
    (fits : l.entries.length + l.places.length + c.lanes.length ≤ 4096 + l.cap)
    (beyond : 4096 < l.entries.length + l.places.length + c.lanes.length)
    (area : rangeFail (launchDomain s c.g).ranges (permR + permW) l.spill
      (8 * (l.entries.length + l.places.length + c.lanes.length - 4096)) = some va) : spillConds w c s = [⟨0x1C, c.low, l.spill⟩] := by
  unfold spillConds
  simp only [fence, here, WorkList.count, engineEntries, if_neg (Nat.not_lt.2 fits), if_neg (Nat.not_le.2 beyond), area, Bool.not_true,
    Bool.false_eq_true, if_false]

end Lists

/-! The three parts of a work-list instruction's conditions. -/

/-- The reserved keys of an insertion by key. -/
def listKeys (i : Instr) (c : Ctx) : List Cond :=
  match i with
  | .wlins _ _ a _ => c.lanes.flatMap (fun k => if c.v (a + 1) k = 0xFFFFFFFF then [⟨0x15, k / 4, 0⟩] else [])
  | _ => []

/-- The room that an insertion needs. -/
def listRoom (i : Instr) (c : Ctx) (s : State) : List Cond :=
  match i with
  | .wlpush _ _ _ w | .wlins _ _ _ w => spillConds w c s
  | _ => []

section Lists

variable {i : Instr} {n : Needs} {w : Nat} {kinds : List Nat} {c : Ctx} {s : State} {l : WorkList}

theorem listOwn_eq (h : listRow i = some (n, w, kinds)) (c : Ctx) (s : State) :
    listOwn i c s = listConds w kinds c s ++ (listKeys i c ++ listRoom i c s) := by
  unfold listRow at h
  split at h <;> cases h
  · exact List.append_assoc ..
  · exact List.append_assoc ..
  · exact (List.append_nil _).symm
  · exact (List.append_nil _).symm

theorem mem_reserved {a : Nat} {k : Nat} {y : Cond} (h : y ∈ if c.v a k = 0xFFFFFFFF then [(⟨0x15, k / 4, 0⟩ : Cond)] else []) :
    c.v a k = 0xFFFFFFFF ∧ y = ⟨0x15, k / 4, 0⟩ := by
  split at h
  · next hk => exact ⟨hk, List.mem_singleton.1 h⟩
  · cases h

theorem mem_listKeys {y : Cond} (h : y ∈ listKeys i c) : y.code = 0x15 ∧ ∃ k ∈ c.lanes, y.strand = k / 4 := by
  unfold listKeys at h
  split at h
  · obtain ⟨k, hk, hy⟩ := List.mem_flatMap.1 h
    rw [(mem_reserved hy).2]
    exact ⟨rfl, k, hk, rfl⟩
  · cases h

theorem mem_listRoom {y : Cond} (h : y ∈ listRoom i c s) : y.code = 0x1C := by
  unfold listRoom at h
  split at h
  · exact mem_spillConds h
  · exact mem_spillConds h
  · cases h

theorem listKeys_eq_nil (keys : ∀ g' p a w', i = .wlins g' p a w' → ∀ k ∈ c.lanes, c.v (a.val + 1) k ≠ 0xFFFFFFFF) : listKeys i c = [] := by
  unfold listKeys
  split
  · next a w => exact List.flatMap_eq_nil_iff.2 fun k hk => if_neg (keys _ _ a w rfl k hk)
  · rfl

theorem listRoom_of_inserts (h : listRow i = some (n, w, kinds)) (ins : inserts i = true) : listRoom i c s = spillConds w c s := by
  unfold listRow at h
  split at h <;> cases h
  · rfl
  · rfl
  · cases ins
  · cases ins

/-- A bad list is reported before a reserved key, and both before the room. -/
theorem worst_listOwn_bad (h : listRow i = some (n, w, kinds)) (bad : ∀ l, listAt s c.g w = some l → l.bad = true ∨ l.kind ∉ kinds)
    (low : ∀ k ∈ c.lanes, c.low ≤ k / 4) : worst (listOwn i c s) = some ⟨0x15, c.low, 0⟩ := by
  rw [listOwn_eq h, listConds_of_bad bad]
  refine worst_append_cons (pre := []) (fun _ hy => nomatch hy) fun y hy => ?_
  change y ∈ listKeys i c ++ listRoom i c s at hy
  rcases List.mem_append.1 hy with hy | hy
  · obtain ⟨hc, k, hk, hs⟩ := mem_listKeys hy
    have := low k hk
    simp only [Before, hc, hs]
    omega
  · simp [Before, mem_listRoom hy]

theorem worst_listOwn_room {x : Cond} (h : listRow i = some (n, w, kinds)) (ins : inserts i = true) (here : listAt s c.g w = some l)
    (sound : l.bad = false ∧ l.kind ∈ kinds) (keys : ∀ g' p a w', i = .wlins g' p a w' → ∀ k ∈ c.lanes, c.v (a.val + 1) k ≠ 0xFFFFFFFF)
    (room : spillConds w c s = [x]) : worst (listOwn i c s) = some x := by
  rw [listOwn_eq h, listConds_of_sound here sound, listKeys_eq_nil keys, listRoom_of_inserts h ins, room]
  rfl

theorem worst_listOwn_key {k : Nat} {gap : Fin 4} {p : Fin 8} {a : Fin 64} {w : Fin 4} (here : listAt s c.g w = some l)
    (sound : l.bad = false ∧ l.kind = 1) (lane : LowestLane c k (fun j => c.v (a.val + 1) j = 0xFFFFFFFF)) :
    worst (listOwn (.wlins gap p a w) c s) = some ⟨0x15, k / 4, 0⟩ := by
  obtain ⟨hk, key, lowest⟩ := lane
  rw [listOwn_eq rfl, listConds_of_sound here ⟨sound.1, List.mem_singleton.2 sound.2⟩, List.nil_append]
  refine worst_lanes (post := []) (lanesOf_ascending _) hk (if_pos key) (fun j _ y hy => ?_) (fun j hj hlt y hy => ?_) fun y hy => ?_
  · rw [(mem_reserved hy).2]
    exact ⟨Nat.le_refl _, rfl⟩
  · exact absurd (mem_reserved hy).1 (lowest j hj hlt)
  · simp [mem_listRoom hy]

end Lists

/-! Constant-bank loads, windows, tasks, selectors and gates. -/

section Others

variable {n : Needs} {c : Ctx} {s : State}

theorem windowOwn_of_bad {b : Block} {k : Nat} (block : blockOf s c.g = some b)
    (bad : ¬ WindowFits b (c.s (2 * k)).toNat (c.s (2 * k + 1)).toNat) : windowOwn k c s = [⟨0x0D, c.low, 0⟩] := by
  have hbad : wsetBad b (c.s (2 * k)).toNat (c.s (2 * k + 1)).toNat = true := by
    rw [← Bool.not_eq_false, wsetBad_eq_false_iff]
    exact bad
  simp only [windowOwn, block, hbad, if_true]

theorem taskOk_of_taskValid {w : Word} (h : taskValid w = true) : TaskOk w := by
  simp only [taskValid, Bool.and_eq_true] at h
  obtain ⟨⟨⟨size, groups⟩, regs⟩, scratch⟩ := h
  obtain ⟨least, most⟩ := of_decide_eq_true groups
  obtain ⟨few, many⟩ := of_decide_eq_true regs
  exact ⟨of_decide_eq_true size, least, most, few, many, of_decide_eq_true scratch⟩

theorem selectorConds_of_bad {x : Nat} {u : Bool} (full : (c.g.sreg x).full = true)
    (bad : ∀ q h, c.g.serves = some q → groupAt s c.core q = some h → selectorValid h u (c.s x) = false) :
    selectorConds u x c s = [⟨0x1E, c.low, 0⟩] := by
  unfold selectorConds
  simp only [full, Bool.not_true, Bool.false_eq_true, if_false]
  split
  · next q g hg =>
    obtain ⟨k, hk, hm⟩ := Option.bind_eq_some_iff.1 hg
    obtain ⟨h, hh, he⟩ := Option.map_eq_some_iff.1 hm
    cases he
    rw [bad _ _ hk hh]
    rfl
  · rfl

theorem selector_mem_ssrc {i : Instr} {x : Nat} {u : Bool} (h : windowRow i = some (n, x, u)) : x ∈ n.ssrc := by
  unfold windowRow at h
  split at h <;> cases h
  · exact List.mem_cons_self
  · dsimp only [xwrNeeds]
    split <;> exact List.mem_cons_self

theorem gateLate_of_beyond {k : Nat} {bs : List Byte} (read : gateRead s c.asker ((partOfCore s c.core).getD 0) k = .bytes bs)
    (valid : (GateEntry.ofBytes bs).valid = true)
    (beyond : c.g.nv < max (GateEntry.ofBytes bs).nva (GateEntry.ofBytes bs).nvr ∨
      c.g.ns < max (GateEntry.ofBytes bs).nua (GateEntry.ofBytes bs).nur) : gateLate k c s = [⟨0x04, c.low, 0⟩] := by
  have hfits : (GateEntry.ofBytes bs).fits c.g = false := by
    rw [GateEntry.fits, decide_eq_false_iff_not]
    omega
  simp only [gateLate, read, valid, hfits, Bool.not_false, Bool.and_self, if_true]

end Others

/-- AN INSTRUCTION'S OWN CONDITIONS: one that could issue and meets one traps for it at its address. Where strands branch (0x09) and where
loops end (0x0A) is not said here. -/
theorem trapsAt_of_ownTrap {i : Instr} {n : Needs} {s : State} {core slot gang : Nat} {g : Group} {code k va : Nat}
    (may : MayIssue n s core slot gang g) (h : OwnTrap i n (issueCtx n s core slot gang g) s code k va) (h9 : code ≠ 0x09)
    (hA : code ≠ 0x0A) : TrapsAt i n s core slot gang g code k va := by
  cases h with
  | denied row lane byte =>
    exact trap_own (x := ⟨0x0C, _, _⟩) (issues_accessRow row).issuesAs may rfl (worst_accessConds_denied s lane byte) (by simp)
  | unaligned row granted lane =>
    exact trap_own (x := ⟨0x11, _, _⟩) (issues_accessRow row).issuesAs may rfl (worst_accessConds_unaligned s granted lane) (by simp)
  | outside row lane =>
    exact trap_own (x := ⟨0x0D, _, 0⟩) (issues_scratchRow row).issuesAs may rfl (worst_scratchConds_outside lane) (by simp)
  | owned row fits lane =>
    exact trap_own (x := ⟨0x0E, _, 0⟩) (issues_scratchRow row).issuesAs may rfl (worst_scratchConds_owned fits lane) (by simp)
  | odd row fits free lane =>
    exact trap_own (x := ⟨0x11, _, 0⟩) (issues_scratchRow row).issuesAs may rfl (worst_scratchConds_odd fits free lane) (by simp)
  | bank bad =>
    exact trap_own (x := ⟨0x1D, _, 0⟩) (issues_ldc ..).issuesAs may rfl (congrArg worst (if_pos bad)) (by simp)
  | window block bad =>
    exact trap_own (x := ⟨0x0D, _, 0⟩) (issues_wset ..).issuesAs may rfl (congrArg worst (windowOwn_of_bad block bad)) (by simp)
  | task bad =>
    exact trap_own (x := ⟨0x15, _, 0⟩) (issues_spawn ..).issuesAs may rfl (congrArg worst (if_neg fun hv => bad (taskOk_of_taskValid hv)))
      (by simp)
  | splits | fans | table => exact absurd rfl h9
  | empty | deep | pret => exact absurd rfl hA
  | list row bad =>
    exact trap_own (x := ⟨0x15, _, 0⟩) (issuesAs_listRow row) may rfl
      (worst_listOwn_bad row bad fun k hk => low_le (strand_of_lane hk)) (by simp)
  | full row ins here sound keys fence more =>
    exact trap_own (x := ⟨0x1C, _, 0⟩) (issuesAs_listRow row) may rfl
      (worst_listOwn_room row ins here sound keys (spillConds_full here fence more)) (by simp)
  | spill row ins here sound keys fence fits beyond area =>
    exact trap_own (x := ⟨0x1C, _, _⟩) (issuesAs_listRow row) may rfl
      (worst_listOwn_room row ins here sound keys (spillConds_area here fence fits beyond area)) (by simp)
  | key here sound lane =>
    exact trap_own (x := ⟨0x15, _, 0⟩) (issuesAs_listRow rfl) may rfl (worst_listOwn_key here sound lane) (by simp)
  | selector row bad =>
    exact trap_late (x := ⟨0x1E, _, 0⟩) (issuesAs_windowRow row) may
      (congrArg worst (selectorConds_of_bad (may.arrived.ssrc _ (selector_mem_ssrc row)) bad)) (by simp)
  | fits read valid beyond =>
    exact trap_late (x := ⟨0x04, _, 0⟩) (issuesAs_gcall ..) may (congrArg worst (gateLate_of_beyond read valid beyond)) (by simp)
  | depth row none' =>
    exact trap_own (x := ⟨0x17, _, 0⟩) (issuesAs_leaveRow row) may rfl (congrArg worst (if_pos (List.isEmpty_iff.2 none'))) (by simp)

/-! Engine commands (R292, R408, R414). -/

/-- No condition of a list is one of a fetch, which alone is logged besides (R412). -/
structure NoFetch (l : List Cond) : Prop where
  code : ∀ y ∈ l, y.code ≠ 0x0B

theorem noFetch_nil : NoFetch [] := ⟨fun _ h => nomatch h⟩

theorem noFetch_singleton {x : Cond} (h : x.code ≠ 0x0B) : NoFetch [x] := ⟨fun y hy => by rwa [List.mem_singleton.1 hy]⟩

theorem noFetch_append {a b : List Cond} (ha : NoFetch a) (hb : NoFetch b) : NoFetch (a ++ b) :=
  ⟨fun y hy => (List.mem_append.1 hy).elim (ha.code y) (hb.code y)⟩

theorem noFetch_flatMap {α : Type} {l : List α} {f : α → List Cond} (h : ∀ x ∈ l, NoFetch (f x)) : NoFetch (l.flatMap f) where
  code y hy := by
    obtain ⟨x, hx, hy⟩ := List.mem_flatMap.1 hy
    exact (h x hx).code y hy

theorem noFetch_ite {p : Prop} [Decidable p] {a b : List Cond} (ha : NoFetch a) (hb : NoFetch b) : NoFetch (if p then a else b) := by
  split
  · exact ha
  · exact hb

theorem noFetch_first (c : Ctx) (v : Option Nat) :
    NoFetch (match v with | some x => [(⟨0x0C, c.low, x⟩ : Cond)] | none => []) := by
  cases v
  · exact noFetch_nil
  · exact noFetch_singleton (by simp)

theorem noFetch_cond15 (c : Ctx) (b : Bool) : NoFetch (cond15 c b) := noFetch_ite (noFetch_singleton (by simp)) noFetch_nil

theorem noFetch_cond14 (c : Ctx) (b : Bool) : NoFetch (cond14 c b) := noFetch_ite (noFetch_singleton (by simp)) noFetch_nil

theorem noFetch_cond11 (c : Ctx) (va : Nat) (b : Bool) : NoFetch (cond11 c va b) := noFetch_ite (noFetch_singleton (by simp)) noFetch_nil

theorem noFetch_globalConds (c : Ctx) (perms va len : Nat) : NoFetch (globalConds c perms va len) := noFetch_first c _

theorem noFetch_windowConds (c : Ctx) (s : State) (n off len : Nat) : NoFetch (windowConds c s n off len) :=
  noFetch_ite noFetch_nil (noFetch_singleton (by simp))

theorem noFetch_copyConds (n perms : Nat) (c : Ctx) (s : State) : NoFetch (copyConds n perms c s) :=
  noFetch_append (noFetch_append (noFetch_append (noFetch_ite noFetch_nil (noFetch_globalConds ..)) (noFetch_windowConds ..))
    (noFetch_cond11 ..)) (noFetch_cond15 ..)

theorem noFetch_s2sConds (n : Nat) (c : Ctx) (s : State) : NoFetch (s2sConds n c s) :=
  noFetch_append (noFetch_append (noFetch_append (noFetch_windowConds ..) (noFetch_windowConds ..)) (noFetch_cond11 ..)) (noFetch_cond15 ..)

theorem noFetch_cmpConds (n : Nat) (c : Ctx) (s : State) : NoFetch (cmpConds n c s) :=
  noFetch_append (noFetch_append (noFetch_append (noFetch_windowConds ..) (noFetch_windowConds ..)) (noFetch_windowConds ..))
    (noFetch_cond15 ..)

theorem noFetch_nbLdConds (n : Nat) (c : Ctx) (s : State) : NoFetch (nbLdConds n c s) :=
  noFetch_append (noFetch_globalConds ..) (noFetch_cond15 ..)

theorem noFetch_nbRunConds (a n : Nat) (c : Ctx) (s : State) : NoFetch (nbRunConds a n c s) :=
  noFetch_append (noFetch_first c _) (noFetch_cond15 ..)

theorem noFetch_nbGetConds (n : Nat) (sum : Bool) (c : Ctx) (s : State) : NoFetch (nbGetConds n sum c s) :=
  noFetch_append (noFetch_append (noFetch_globalConds ..) (noFetch_flatMap fun _ _ => noFetch_windowConds ..)) (noFetch_cond15 ..)

theorem noFetch_nbModeConds (n : Nat) (c : Ctx) (s : State) : NoFetch (nbModeConds n c s) :=
  noFetch_append (noFetch_globalConds ..) (noFetch_cond15 ..)

theorem noFetch_pklConds (f : PklForm) (n : Nat) (c : Ctx) (s : State) : NoFetch (pklConds f n c s) :=
  noFetch_ite (noFetch_cond14 ..) (noFetch_append (noFetch_append (noFetch_ite noFetch_nil (noFetch_first c _))
    (noFetch_flatMap fun _ _ => noFetch_windowConds ..)) (noFetch_cond14 ..))

theorem noFetch_operandConds (c : Ctx) (s : State) (w len : Nat) : NoFetch (operandConds c s w len) :=
  noFetch_ite (noFetch_cond15 ..) (noFetch_ite (noFetch_append (noFetch_cond15 ..) (noFetch_ite (noFetch_cond11 ..) noFetch_nil))
    (noFetch_windowConds ..))

theorem noFetch_collConds (n : Nat) (c : Ctx) (s : State) : NoFetch (collConds n c s) :=
  noFetch_append (noFetch_append (noFetch_append (noFetch_first c _) (noFetch_operandConds ..)) (noFetch_operandConds ..))
    (noFetch_cond15 ..)

theorem noFetch_commandRow {i : Instr} {x : CommandRow} (h : commandRow i = some x) (c : Ctx) (s : State) : NoFetch (x.conds c s) := by
  unfold commandRow at h
  split at h <;> cases h
  · exact noFetch_copyConds ..
  · exact noFetch_copyConds ..
  · exact noFetch_s2sConds ..
  · exact noFetch_cmpConds ..
  · exact noFetch_nbLdConds _ c s
  · exact noFetch_nbRunConds _ _ c s
  · exact noFetch_nbGetConds ..
  · exact noFetch_nbGetConds ..
  · exact noFetch_nbModeConds _ c s
  · exact noFetch_pklConds ..
  · exact noFetch_pklConds ..
  · exact noFetch_pklConds ..
  · exact noFetch_pklConds ..
  · exact noFetch_collConds ..

/-- How a command issues: the registers that its record names do not depend on which of its needs are known yet. -/
structure IssuesCommand (i : Instr) (x : CommandRow) (gap p n : Nat) (vsrc : List Nat) (more : Ctx → List Nat) (closes : Bool) : Prop where
  exec  : ∃ op, ∀ s, exec i s = commandOp gap p x.flag n vsrc more closes x.conds op x.plan s
  needs : ∀ c, x.needs c = commandNeed gap p n vsrc (more c) closes
  more  : ∀ m m' s core slot gang g, more (issueCtx m s core slot gang g) = more (issueCtx m' s core slot gang g)

theorem issuesCommand_commandRow {i : Instr} {x : CommandRow} (h : commandRow i = some x) :
    ∃ gap p n vsrc more closes, IssuesCommand i x gap p n vsrc more closes := by
  unfold commandRow at h
  split at h <;> cases h <;> refine ⟨_, _, _, _, _, _, ?_, fun _ => rfl, fun _ _ _ _ _ _ _ => rfl⟩ <;>
    dsimp only [exec, execCpyG2s, execCpyS2g, execCpyS2s, execCpyCmp, execNbLd, execNbRun, execNbGet, execNbGetSum, execNbMode, execPkq,
      execPkqs, execPkb, execPkbq, execColl, nbGetOp, pklOp] <;>
    exact ⟨_, fun _ => rfl⟩

section Command

variable {i : Instr} {x : CommandRow} {s : State} {core slot gang : Nat} {g : Group}

/-- A command with an active lane traps for the first of its conditions (R292). -/
theorem trapsAt_command {n : Needs} {e : Cond} (row : commandRow i = some x) (hn : n = x.needs (issueCtx {} s core slot gang g))
    (may : MayIssue n s core slot gang g) (act : (issueCtx n s core slot gang g).act ≠ 0)
    (he : worst (x.conds (issueCtx n s core slot gang g) s) = some e) : TrapsAt i n s core slot gang g e.code e.strand e.va := by
  obtain ⟨gap, p, k, vsrc, more, closes, ⟨op, hexec⟩, needs, hmore⟩ := issuesCommand_commandRow row
  have hcode := (noFetch_commandRow row _ _).code e (worst_mem he)
  rw [needs, hmore {} (laneNeeds 4 gap p [] [])] at hn
  have last : worst (commonConds n (issueCtx n s core slot gang g) ++
      if (issueCtx n s core slot gang g).act = 0 then [] else x.conds (issueCtx n s core slot gang g) s) = some e := by
    rw [commonConds_of may.read, if_neg act]
    exact he
  have hv := verdict_last (late := noConds) (own := fun c s => if c.act = 0 then [] else x.conds c s) (wait := commandWaits x.flag x.plan)
    (notReady_of_ready may.ready) (zoneConds_of may.zone) (allocConds_of may.alloc) rfl (emptySource_of may.arrived)
    (destBusy_of may.arrived) (hn ▸ rfl) last
  have ready : Ready (laneNeeds 4 gap p [] []) s core slot gang g := by
    subst hn
    obtain ⟨turn, here, runs, sound, strands, port, loose, gap⟩ := may.ready
    exact ⟨turn, here, runs, sound, strands, port, loose, gap⟩
  subst hn
  have closing : (closes && (issueCtx (laneNeeds 4 gap p [] []) s core slot gang g).act != 0) = closes :=
    (congrArg (closes && ·) (bne_iff_ne.2 act)).trans (Bool.and_true _)
  rw [TrapsAt, hexec, commandOp, issueWith]
  refine issueOr_trap (base := laneNeeds 4 gap p [] []) (x := e) ready ?_ hcode
  rw [closing]
  exact hv

theorem copyConds_of_odd {k perms : Nat} {c : Ctx} (s : State) (odd : RecordOdd c k) :
    ∃ pre, copyConds k perms c s = pre ++ [⟨0x15, c.low, 0⟩] ∧ ∀ y ∈ pre, y.code < 0x15 := by
  have bad : (decide (2 ^ 16 ≤ c.word k 1) || lenBad (c.word k 3)) = true := by
    rw [Bool.or_eq_true, lenBad, decide_eq_true_eq, decide_eq_true_eq]
    rcases odd with short | long | high
    · exact .inr (.inl short)
    · exact .inr (.inr long)
    · exact .inl high
  refine ⟨_, by rw [copyConds, bad, cond15, if_pos rfl], fun y hy => ?_⟩
  rcases List.mem_append.1 hy with hy | hy
  · rcases List.mem_append.1 hy with hy | hy
    · split at hy
      · cases hy
      · unfold globalConds at hy
        split at hy
        · simp [List.mem_singleton.1 hy]
        · cases hy
    · unfold windowConds at hy
      split at hy
      · cases hy
      · simp [List.mem_singleton.1 hy]
  · unfold cond11 at hy
    split at hy
    · simp [List.mem_singleton.1 hy]
    · cases hy

theorem conds_copyRow {k : Nat} (row : commandRow i = some x) (copy : copyRow i = some k) : ∃ perms, x.conds = copyConds k perms := by
  unfold copyRow at copy
  split at copy <;> cases copy <;> cases row
  · exact ⟨permR, rfl⟩
  · exact ⟨permW, rfl⟩

/-- A copy whose record is odd traps with 0x15 at the latest (R296, R414). -/
theorem trapsAt_copy {n : Needs} {k : Nat} (row : commandRow i = some x) (hn : n = x.needs (issueCtx {} s core slot gang g))
    (may : MayIssue n s core slot gang g) (act : (issueCtx n s core slot gang g).act ≠ 0) (copy : copyRow i = some k)
    (odd : RecordOdd (issueCtx n s core slot gang g) k) :
    TrapsAt i n s core slot gang g 0x15 (issueCtx n s core slot gang g).low 0 ∨
    ∃ e ∈ x.conds (issueCtx n s core slot gang g) s, e.code < 0x15 ∧ TrapsAt i n s core slot gang g e.code e.strand e.va := by
  obtain ⟨perms, hconds⟩ := conds_copyRow row copy
  obtain ⟨pre, heq, lower⟩ := copyConds_of_odd (perms := perms) s odd
  rw [← hconds] at heq
  obtain ⟨e, he⟩ := worst_isSome (l := x.conds (issueCtx n s core slot gang g) s)
    (by rw [heq]; exact List.mem_append_right _ List.mem_cons_self)
  have traps := trapsAt_command row hn may act he
  have hm := worst_mem he
  have hpart := hm
  rw [heq, List.mem_append, List.mem_singleton] at hpart
  rcases hpart with hp | rfl
  · exact .inr ⟨e, hm, lower e hp, traps⟩
  · exact .inl traps

end Command

/-! The shared conditions of the tables, and the obligation. -/

section Tables

variable {i : Instr} {s : State} {core slot gang : Nat} {g : Group}

theorem ownFrom_formatConds {n : Needs} (ready : Ready n s core slot gang g) :
    OwnFrom 0x07 (formatConds i) (issueCtx n s core slot gang g) s := fun y hy => by
  obtain ⟨hk, hs, hva⟩ := plainFrom_formatConds i _ s y hy
  exact ⟨hk, fun _ => ⟨hs ▸ low_mem ready, hva⟩⟩

theorem inOrder_floatRow {x : FloatRow} (row : floatRow s i = some x) (ready : Ready x.needs s core slot gang g)
    (zone : InZone x.needs.zone slot g) : InOrderFirst i x.needs s core slot gang g ∧
      (x.also (issueCtx x.needs s core slot gang g) → InOrder i x.needs s core slot gang g) :=
  ⟨inOrderFirst_of (issues_floatRow row) ready zone (ownFrom_formatConds ready),
    fun also => inOrder_of (issues_floatRow row) ready zone (formatConds_floatRow row also)⟩

theorem zone_packRow {x : LaneRow × (Ctx → Prop)} (row : packRow i = some x) : x.1.needs.zone = .any := by
  unfold packRow at row
  split at row <;> cases row <;> rfl

theorem inOrder_packRow {x : LaneRow × (Ctx → Prop)} (row : packRow i = some x) (ready : Ready x.1.needs s core slot gang g) :
    InOrderFirst i x.1.needs s core slot gang g ∧
      (x.2 (issueCtx x.1.needs s core slot gang g) → InOrder i x.1.needs s core slot gang g) := by
  have zone : InZone x.1.needs.zone slot g := by rw [zone_packRow row]; trivial
  exact ⟨inOrderFirst_of (issues_packRow row) ready zone (ownFrom_formatConds ready),
    fun also => inOrder_of (issues_packRow row) ready zone (formatConds_packRow row also)⟩

theorem zone_loadRow {x : LoadRow} (row : loadRow i = some x) : x.needs.zone = .any := by
  unfold loadRow at row
  split at row <;> cases row <;> rfl

theorem zone_storeRow {x : StoreRow} (row : storeRow i = some x) : x.needs.zone = .any := by
  unfold storeRow at row
  split at row <;> cases row <;> rfl

theorem zone_atomRow {x : AtomRow} (row : atomRow i = some x) : x.needs.zone = .any := by
  unfold atomRow at row
  split at row <;> cases row <;> rfl

theorem zone_redRow {x : RedRow} (row : redRow i = some x) : x.needs.zone = .any := by
  unfold redRow at row
  split at row <;> cases row <;> rfl

/-- Accesses of memory may execute anywhere. -/
theorem zone_accessRow {x : AccessRow} (row : accessRow i = some x) : x.needs.zone = .any := by
  unfold accessRow at row
  rcases orElse_cases row with row | row
  · obtain ⟨y, hy, rfl⟩ := Option.map_eq_some_iff.1 row
    exact zone_loadRow hy
  rcases orElse_cases row with row | row
  · obtain ⟨y, hy, rfl⟩ := Option.map_eq_some_iff.1 row
    exact zone_storeRow hy
  rcases orElse_cases row with row | row
  · obtain ⟨y, hy, rfl⟩ := Option.map_eq_some_iff.1 row
    exact zone_atomRow hy
  · obtain ⟨y, hy, rfl⟩ := Option.map_eq_some_iff.1 row
    exact zone_redRow hy

theorem inOrder_accessRow {x : AccessRow} (row : accessRow i = some x) (ready : Ready x.needs s core slot gang g) :
    InOrderNext i x.needs s core slot gang g := by
  have zone : InZone x.needs.zone slot g := by rw [zone_accessRow row]; trivial
  refine inOrderNext_of (issues_accessRow row) ready zone fun y hy => ?_
  have hk := mem_accessConds hy
  exact ⟨by omega, fun he => by omega⟩

theorem inOrder_scratchRow {x : ScratchRow} (row : scratchRow i = some x) (ready : Ready x.needs s core slot gang g)
    (zone : InZone x.needs.zone slot g) : InOrderNext i x.needs s core slot gang g := by
  refine inOrderNext_of (issues_scratchRow row) ready zone fun y hy => ?_
  have hk := mem_scratchConds hy
  exact ⟨by omega, fun he => by omega⟩

end Tables

/-- Settles O59: each table's instructions issue by the checks of R411, so that the first stage with a condition traps for its lowest code,
then its lowest strand. -/
theorem sharedConditions : Obligations.SharedConditions :=
  ⟨fun _ _ row _ _ _ _ _ ready zone => inOrder_of (issues_commonRow row) ready zone rfl,
    fun _ _ _ _ _ _ => ⟨fun _ row ready zone => inOrder_floatRow row ready zone, fun _ row ready => inOrder_packRow row ready,
      fun _ row ready => inOrder_accessRow row ready, fun _ row ready zone => inOrder_scratchRow row ready zone⟩,
    fun _ _ row _ _ _ _ _ ready zone alloc => trapsWith_placed (placed_zonedRow row) ready zone alloc,
    fun _ _ _ _ _ _ _ _ _ _ may h h9 hA => trapsAt_of_ownTrap may h h9 hA,
    fun _ _ row _ _ _ _ _ may act => ⟨fun _ he => trapsAt_command row rfl may act he,
      fun _ copy odd => trapsAt_copy row rfl may act copy odd⟩⟩

end Sys2Proof.Proofs

/-! PROOFS. The end of engine commands and the events of near-bank units and collectives (R57, R81, R98, R111, R144, R148 to R155, R168,
R299, R402 to R405, R409). -/

namespace Sys2Proof.Proofs

open Sys2Proof.Machine Sys2Proof.Safety Sys2Proof.Laws

/-! What a fold keeps. -/

/-- A view of the state that each step of a fold keeps is kept by the fold. -/
theorem foldl_view {α β σ : Type} (v : σ → β) {f : σ → α → σ} (keeps : ∀ s a, v (f s a) = v s) (l : List α) (s : σ) :
    v (l.foldl f s) = v s := by
  induction l generalizing s with
  | nil => rfl
  | cons a l ih => exact (ih (f s a)).trans (keeps s a)

/-- What each step of a fold keeps true, the fold keeps true. -/
theorem foldl_keeps {α σ : Type} (P : σ → Prop) {f : σ → α → σ} (keeps : ∀ s a, P s → P (f s a)) (l : List α) {s : σ} (h : P s) :
    P (l.foldl f s) := by
  induction l generalizing s with
  | nil => exact h
  | cons a l ih => exact ih (keeps s a h)

/-- What a step of a fold makes true and the others keep true holds at the end. -/
theorem foldl_reaches {α σ : Type} (P : σ → Prop) {f : σ → α → σ} (keeps : ∀ s a, P s → P (f s a)) {l : List α} {a : α} (ha : a ∈ l)
    (makes : ∀ s, P (f s a)) (s : σ) : P (l.foldl f s) := by
  obtain ⟨front, back, rfl⟩ := List.append_of_mem ha
  rw [List.foldl_append, List.foldl_cons]
  exact foldl_keeps P keeps back (makes _)

/-! The ledger: the outstanding commands, the communicators, memory and the saved blocks. What ends with a group or a block keeps it. -/

/-- The parts of the machine that no end of a group, block, node or launch changes. -/
def ledger (s : State) : Assoc Cmd × Assoc Comm × List Host.Cell × Assoc SavedBlock := (s.cmds, s.comms, s.mem, s.saved)

@[simp] theorem ledger_modifyGroup (s : State) (core slot : Nat) (f : Group → Group) : ledger (modifyGroup s core slot f) = ledger s := rfl
@[simp] theorem ledger_dropGroup (s : State) (core slot : Nat) : ledger (dropGroup s core slot) = ledger s := rfl
@[simp] theorem ledger_setBlock (s : State) (bid : Nat) (b : Block) : ledger (setBlock s bid b) = ledger s := rfl
@[simp] theorem ledger_modifyBlock (s : State) (bid : Nat) (f : Block → Block) : ledger (modifyBlock s bid f) = ledger s := rfl
@[simp] theorem ledger_setCore (s : State) (core : Nat) (x : Core) : ledger (setCore s core x) = ledger s := rfl
@[simp] theorem ledger_forgetPulls (s : State) (uid : Nat) : ledger (forgetPulls s uid) = ledger s := rfl
@[simp] theorem ledger_launchEvent (s : State) (l code : Nat) : ledger (launchEvent s l code) = ledger s := rfl

@[simp] theorem ledger_launchCheck (s : State) (l : Nat) : ledger (launchCheck s l) = ledger s := by
  unfold launchCheck
  split
  · rfl
  · dsimp only
    split <;> rfl

@[simp] theorem ledger_readyNodes (s : State) (l : Nat) : ledger (readyNodes s l) = ledger s := by
  unfold readyNodes
  split
  · rfl
  · dsimp only
    split <;> rfl

@[simp] theorem ledger_nodeCheck (s : State) (r : Nat) : ledger (nodeCheck s r) = ledger s := by
  unfold nodeCheck
  split
  · rfl
  · split
    · rw [ledger_launchCheck, ledger_readyNodes]; rfl
    · rfl

@[simp] theorem ledger_blockCheck (s : State) (bid : Nat) : ledger (blockCheck s bid) = ledger s := by
  unfold blockCheck
  split
  · rfl
  · dsimp only
    rw [apply_ite ledger, ledger_nodeCheck]
    exact ite_self _

@[simp] theorem ledger_completePhase (s : State) (bid bar : Nat) : ledger (completePhase s bid bar) = ledger s := by
  unfold completePhase
  split
  · rfl
  · dsimp only
    split
    · rfl
    · exact (foldl_view ledger (fun s q => ledger_modifyGroup s _ q _) _ _).trans (ledger_setBlock s bid _)

@[simp] theorem ledger_completePhases (s : State) (bid : Nat) : ledger (completePhases s bid) = ledger s :=
  foldl_view ledger (fun s bar => ledger_completePhase s bid bar) _ _

@[simp] theorem ledger_groupGone (s : State) (core slot : Nat) : ledger (groupGone s core slot) = ledger s := by
  unfold groupGone
  split
  · rfl
  · next g _ =>
    dsimp only
    split
    · split <;> rfl
    · rw [ledger_blockCheck, ledger_completePhases, ledger_modifyBlock, ledger_setCore, ledger_dropGroup, ledger_forgetPulls]
      split <;> rfl

@[simp] theorem ledger_endGroup (s : State) (core slot cause : Nat) (handlerFault : Bool) :
    ledger (endGroup s core slot cause handlerFault) = ledger s := by
  unfold endGroup
  split
  · rfl
  · rw [ledger_groupGone, ledger_launchEvent]

@[simp] theorem ledger_logFrameReads (s : State) (core slot part ia n : Nat) : ledger (logFrameReads s core slot part ia n) = ledger s := by
  refine foldl_view ledger (fun s x => ?_) _ _
  unfold logFrameError
  split <;> rfl

@[simp] theorem ledger_tryUnwind (s : State) (core slot : Nat) : ledger (tryUnwind s core slot) = ledger s := by
  unfold tryUnwind
  split
  · rfl
  · split
    · split
      · rfl
      · split
        · exact (ledger_endGroup _ _ _ _ _).trans (foldl_view ledger (fun s f => ledger_logFrameReads s ..) _ _)
        · rfl
    · rfl

/-! What an access leaves in the caches beyond the core, and what a write at home changes (R87, R91, R94, R174). -/

/-- The machine without the caches beyond the cores, the requests, and the rows and counters of the banks: what no fill and no write-back
changes. -/
def offCaches (s : State) : State :=
  { s with nextId := 0, net := [], replicas := [], l2 := [], stackRegs := [], nbus := [], activations := [] }

@[simp] theorem offCaches_sendReq (s : State) (r : Req) : offCaches (sendReq s r) = offCaches s := rfl

@[simp] theorem offCaches_interrupt (s : State) (bank : Nat) : offCaches (interrupt s bank) = offCaches s := by
  unfold interrupt
  dsimp only
  split
  · rfl
  · split <;> rfl

@[simp] theorem offCaches_writeBack (part : Nat) (s : State) (e : Nat × L2Line) : offCaches (writeBack part s e) = offCaches s := by
  unfold writeBack
  dsimp only
  split
  · rfl
  · split
    · split
      · rfl
      · rw [offCaches_interrupt, offCaches_sendReq]
    · rfl

@[simp] theorem offCaches_releaseLines (s : State) (part : Nat) (gone : Nat × L2Line → Bool) :
    offCaches (releaseLines s part gone) = offCaches s :=
  foldl_view offCaches (offCaches_writeBack part) _ _

theorem offCaches_takeWay {s t : State} {part slice line cls w : Nat} (h : takeWay s part slice line cls = some (t, w)) :
    offCaches t = offCaches s := by
  unfold takeWay at h
  dsimp only at h
  split at h
  · cases h
  · cases h
    exact offCaches_releaseLines s part _

@[simp] theorem offCaches_fillL2 (s : State) (part ia cls owner : Nat) (write : Bool) :
    offCaches (fillL2 s part ia cls owner write) = offCaches s := by
  unfold fillL2
  split
  · rfl
  · dsimp only
    split
    · rfl
    · split
      · rfl
      · next t w ht =>
        show offCaches t = offCaches s
        exact offCaches_takeWay ht

@[simp] theorem offCaches_fillXlat (s : State) (stack loc tclass : Nat) : offCaches (fillXlat s stack loc tclass) = offCaches s := by
  unfold fillXlat
  dsimp only
  split
  · rfl
  · split <;> rfl

@[simp] theorem offCaches_cacheAccess (s : State) (part dom ia tclass cls owner : Nat) (write : Bool) :
    offCaches (cacheAccess s part dom ia tclass cls owner write) = offCaches s := by
  unfold cacheAccess
  rw [offCaches_fillL2]
  split
  · exact offCaches_fillXlat ..
  · rfl

theorem view_of_offCaches {α : Type} (v : State → α) (apart : ∀ s, v (offCaches s) = v s) {s t : State} (h : offCaches t = offCaches s) :
    v t = v s := by
  rw [← apart t, h, apart]

theorem completionTime_congr {s t : State} (h : offCaches t = offCaches s) (part ia cls : Nat) :
    completionTime t part ia cls = completionTime s part ia cls :=
  view_of_offCaches (completionTime · part ia cls) (fun _ => rfl) h

/-- What lies in memory and who runs, what is outstanding, and what stands saved: what a statement about the end of a command reads. -/
def holdings (s : State) : Assoc Group × Assoc Block × Assoc Cmd × Assoc Comm × Assoc SavedBlock :=
  (s.groups, s.blocks, s.cmds, s.comms, s.saved)

theorem writePhys_mem (s : State) (writer : Nat × Nat) (key n val mask : Nat) :
    (writePhys s writer key n val mask).mem = writeMasked s.mem key val mask n := by
  unfold writePhys
  dsimp only
  split
  · rfl
  · exact foldl_view State.mem (fun s i => by obtain ⟨p, c, h⟩ := coverWord_frame writer key n mask s (key / 32 + i); rw [h]) _ _

theorem writePhys_holdings (s : State) (writer : Nat × Nat) (key n val mask : Nat) :
    holdings (writePhys s writer key n val mask) = holdings s := by
  obtain ⟨m, p, c, h⟩ := writePhys_frame s writer key n val mask
  rw [h]
  rfl

theorem performWrite_mem (s : State) (writer : Nat × Nat) (part ia stack pa cls owner n val mask id : Nat) :
    (performWrite s writer part ia stack pa cls owner n val mask id).1.mem = writeMasked s.mem (physKey stack pa) val mask n :=
  (view_of_offCaches State.mem (fun _ => rfl) (offCaches_fillL2 (bumpVersion _ part ia id) part ia cls owner true)).trans (writePhys_mem ..)

theorem performWrite_holdings (s : State) (writer : Nat × Nat) (part ia stack pa cls owner n val mask id : Nat) :
    holdings (performWrite s writer part ia stack pa cls owner n val mask id).1 = holdings s :=
  (view_of_offCaches holdings (fun _ => rfl) (offCaches_fillL2 (bumpVersion _ part ia id) part ia cls owner true)).trans
    (writePhys_holdings ..)

theorem cacheAccess_mem (s : State) (part dom ia tclass cls owner : Nat) (write : Bool) :
    (cacheAccess s part dom ia tclass cls owner write).mem = s.mem :=
  view_of_offCaches State.mem (fun _ => rfl) (offCaches_cacheAccess s part dom ia tclass cls owner write)

theorem cacheAccess_holdings (s : State) (part dom ia tclass cls owner : Nat) (write : Bool) :
    holdings (cacheAccess s part dom ia tclass cls owner write) = holdings s :=
  view_of_offCaches holdings (fun _ => rfl) (offCaches_cacheAccess s part dom ia tclass cls owner write)

/-! An agent's write at home. -/

theorem storeAt_mem (s : State) (writer : Nat × Nat) (part tclass stack pa cls owner : Nat) (w : GWrite) :
    (storeAt s writer part tclass stack pa cls owner w).1.mem = writeMasked s.mem (physKey stack pa) w.val w.mask w.size := by
  unfold storeAt
  dsimp only
  split <;> exact (performWrite_mem ..).trans (by rw [cacheAccess_mem])

theorem storeAt_holdings (s : State) (writer : Nat × Nat) (part tclass stack pa cls owner : Nat) (w : GWrite) :
    holdings (storeAt s writer part tclass stack pa cls owner w).1 = holdings s := by
  unfold storeAt
  dsimp only
  split <;> exact (performWrite_holdings ..).trans (by rw [cacheAccess_holdings])

theorem storeAt_time (s : State) (writer : Nat × Nat) (part tclass stack pa cls owner : Nat) (w : GWrite) :
    (storeAt s writer part tclass stack pa cls owner w).2 = completionTime s part w.ia cls :=
  completionTime_congr (offCaches_cacheAccess s part w.dom w.ia tclass cls owner false) part w.ia cls

/-- At a synchronised home the time is beyond every lease on the line (R94). -/
theorem completionTime_eq {s : State} {part ia cls : Nat} (sync : isUnsync s (.slice (homeSlice (partAt s part) ia)) = false) :
    completionTime s part ia cls = completesAt s part ia cls := by
  simp only [completionTime, completesAt, sync, leaseAt, Bool.false_eq_true, if_false]

theorem memoryWritten_of_mem {s t : State} {key size val mask : Nat} (h : t.mem = writeMasked s.mem key val mask size) :
    MemoryWritten s t key size val mask :=
  ⟨fun i hi => by rw [h]; exact readByte_writeMasked_inside _ _ _ _ _ _ hi,
   fun a ha => by rw [h]; exact readByte_writeMasked_outside _ _ _ _ _ _ ha⟩

/-- The one write of a command that is made at once: it is done, with its completion time, and the copies of its core are dropped. -/
theorem engineWrites_one {s : State} {n : Nat} {c : Cmd} {w : GWrite} {stack pa cls owner : Nat}
    (direct : asked s (c.asker n) (c.part s) w.ia w.size (.put w.val w.mask) = none)
    (spot : engineSpot s n c (c.asker n) w.dom w.ia = .at stack pa cls owner) :
    engineWrites n c ⟨s, 0, false⟩ [w] =
      .done ⟨dropCopies (storeAt s (n, 0) (c.part s) c.dom.tclass stack pa cls owner w).1 c.core w.ia,
        completionTime s (c.part s) w.ia cls, false⟩ := by
  have one : engineWrite s n c w = .done (dropCopies (storeAt s (n, 0) (c.part s) c.dom.tclass stack pa cls owner w).1 c.core w.ia)
      (some (completionTime s (c.part s) w.ia cls)) := by
    simp only [engineWrite, direct, spot, Option.isSome_none, Bool.false_eq_true, if_false, storeAt_time]
  simp only [engineWrites, one, Nat.zero_max]

theorem dropCopies_l1 (s : State) (core ia : Nat) : lookupAt (dropCopies s core ia).l1 (l1Key core ia) = none := by
  simp [dropCopies, dropL1, lookupAt_eraseAt]

/-! Frames that a change of a saved group writes (R199). -/

theorem writeSpots_holdings (part : Nat) (spots : List Spot) (s : State) (bs : List Byte) :
    holdings (writeSpots part s spots bs) = holdings s := by
  induction spots generalizing s bs with
  | nil => rfl
  | cons p ps ih => exact (ih _ _).trans (performWrite_holdings ..)

theorem recordGroups_holdings (s : State) (bid : Nat) : holdings (recordGroups s bid) = holdings s := by
  unfold recordGroups
  split
  · exact writeSpots_holdings ..
  · rfl

/-! The end of a command (R57, R81, R111). -/

/-- The block of a command that is over: its granules are returned. -/
def freed (c : Cmd) (b : Block) : Block := { b with engine := c.granules.foldl (fun m k => putAt false m k false) b.engine }

/-- The group of a command that is over: RH is raised, and the flag falls, with its error mark. -/
def fallen (c : Cmd) (time : Nat) (err : Bool) (g : Group) : Group :=
  { g.setCount c.flag (g.count c.flag - 1) with
    rh := max g.rh (max c.maxT time)
    flagErr := if c.err || err then g.flagErr ||| BitVec.twoPow 12 c.flag else g.flagErr }

/-- The state in which the command is no longer listed and its granules are returned. -/
def unlisted (s : State) (n : Nat) (c : Cmd) : State :=
  changeBlock (dropPulls { s with cmds := eraseAt s.cmds n } (c.asker n)) c.block (freed c)

/-- The launch and the run of a command learn its completion time. -/
def timed (s : State) (c : Cmd) (time : Nat) : State :=
  raiseRun { s with launches := modifyAt s.launches c.launch (fun x => { x with maxT := max x.maxT time }) } c.uid time

/-- The state in which the flag has fallen. -/
def flagged (s : State) (n : Nat) (c : Cmd) (time : Nat) (err : Bool) : State :=
  timed (changeGroup (unlisted s n c) c.uid (fallen c time err)) c (max c.maxT time)

theorem finishCommand_eq (s : State) (n : Nat) (c : Cmd) (time : Nat) (err : Bool) :
    finishCommand s n c time err =
      match findGroup (flagged s n c time err) c.uid with
      | some (.resident core slot) => tryUnwind (flagged s n c time err) core slot
      | _ => flagged s n c time err := rfl

theorem finishCommand_ledger (s : State) (n : Nat) (c : Cmd) (time : Nat) (err : Bool) :
    ledger (finishCommand s n c time err) = ledger (changeGroup (unlisted s n c) c.uid (fallen c time err)) := by
  rw [finishCommand_eq]
  split
  · exact ledger_tryUnwind ..
  · rfl

theorem changeGroup_records (s : State) (uid : Nat) (f : Group → Group) :
    (changeGroup s uid f).cmds = s.cmds ∧ (changeGroup s uid f).comms = s.comms := by
  unfold changeGroup
  split
  · exact ⟨rfl, rfl⟩
  · next b _ =>
    generalize hr : ({ s with saved := _ } : State) = r
    have h := recordGroups_holdings r b
    simp only [holdings, Prod.mk.injEq] at h
    obtain ⟨-, -, hcmds, hcomms, -⟩ := h
    rw [hcmds, hcomms, ← hr]
    exact ⟨rfl, rfl⟩
  · exact ⟨rfl, rfl⟩

/-- A command that is over is listed no more, and no other command comes or goes. -/
theorem finishCommand_cmds (s : State) (n : Nat) (c : Cmd) (time : Nat) (err : Bool) :
    (finishCommand s n c time err).cmds = eraseAt s.cmds n :=
  (congrArg Prod.fst (finishCommand_ledger s n c time err)).trans (changeGroup_records (unlisted s n c) c.uid _).1

theorem finishCommand_comms (s : State) (n : Nat) (c : Cmd) (time : Nat) (err : Bool) :
    (finishCommand s n c time err).comms = s.comms :=
  (congrArg (fun l => l.2.1) (finishCommand_ledger s n c time err)).trans (changeGroup_records (unlisted s n c) c.uid _).2

/-- Where nothing is saved, a change of a group reaches no memory. -/
theorem changeGroup_unsaved {s : State} (h : s.saved = []) (uid : Nat) (f : Group → Group) : ledger (changeGroup s uid f) = ledger s := by
  have place : ∀ b, findGroup s uid ≠ some (.saved b) := by
    intro b hb
    unfold findGroup at hb
    split at hb
    · cases hb
    · rw [h] at hb
      cases hb
  unfold changeGroup
  split
  · rfl
  · next b hb => exact absurd hb (place b)
  · rfl

theorem finishCommand_unsaved {s : State} (h : s.saved = []) (n : Nat) (c : Cmd) (time : Nat) (err : Bool) :
    (finishCommand s n c time err).mem = s.mem ∧ (finishCommand s n c time err).saved = [] := by
  have hs : (unlisted s n c).saved = [] := by
    show modifyAt s.saved c.block _ = []
    rw [h]
    rfl
  have hl := (finishCommand_ledger s n c time err).trans (changeGroup_unsaved hs c.uid _)
  simp only [ledger, Prod.mk.injEq] at hl
  obtain ⟨-, -, hmem, hsaved⟩ := hl
  exact ⟨hmem, hsaved.trans hs⟩

/-! A command of a group that runs. -/

/-- The first entry that meets a test of its value is at the changed key or where it was, if the change keeps the test. -/
theorem find?_setAt {α : Type} {p : α → Bool} {m : Assoc α} {k : Nat} {a v : α} {e : Nat × α} (here : lookupAt m k = some a)
    (same : p v = p a) (first : m.find? (fun e => p e.2) = some e) :
    ∃ e', (setAt m k v).find? (fun e => p e.2) = some e' ∧ (e'.1 = k ∨ e' = e) := by
  induction m with
  | nil => cases here
  | cons y t ih =>
    obtain ⟨j, b⟩ := y
    rw [setAt]
    by_cases hj : j < k
    · rw [if_pos hj]
      by_cases hb : p b = true
      · exact ⟨(j, b), by simp [hb], .inr (by simpa [hb] using first)⟩
      · simp only [lookupAt, if_neg (Nat.ne_of_lt hj)] at here
        simp only [List.find?_cons, hb] at first ⊢
        exact ih here first
    · rw [if_neg hj]
      by_cases hv : p v = true
      · exact ⟨(k, v), by split <;> simp [hv], .inl rfl⟩
      · refine ⟨e, ?_, .inr rfl⟩
        rw [← first]
        split
        · next hk =>
          have hb : b = a := by simpa [lookupAt, hk] using here
          simp [hb, hv, ← same]
        · simp [hv]

theorem groupKey_place (k : Nat) : groupKey (k / 64) (k % 64) = k := by
  unfold groupKey
  omega

theorem resident_of_entry {s : State} {uid k : Nat} {e : Nat × Group} {g : Group}
    (first : s.groups.find? (fun e => e.2.uid == uid) = some e) (key : e.1 = k) (here : lookupAt s.groups k = some g)
    (runs : g.stop = .running) : Resident s uid (k / 64) (k % 64) g := by
  subst key
  refine ⟨by unfold findGroup; rw [first], ?_, runs⟩
  unfold groupAt
  rw [groupKey_place, here]

/-- The entry of a group that runs, by which it is found. -/
theorem resident_entry {s : State} {uid core slot : Nat} {g : Group} (h : Resident s uid core slot g) :
    ∃ e k, s.groups.find? (fun e => e.2.uid == uid) = some e ∧ e.1 = k ∧ core = k / 64 ∧ slot = k % 64 ∧ lookupAt s.groups k = some g := by
  have found := h.found
  unfold findGroup at found
  split at found
  · next e he =>
    simp only [Option.some.injEq, GroupPlace.resident.injEq] at found
    obtain ⟨rfl, rfl⟩ := found
    have here := h.here
    unfold groupAt at here
    rw [groupKey_place] at here
    exact ⟨e, e.1, he, rfl, rfl, rfl, here⟩
  · simp at found

/-- A change of a running group that keeps its number and that it runs leaves every running group running somewhere, and the changed one
where it is. -/
theorem resident_kept {s t : State} {uid core slot k : Nat} {g h : Group} {f : Group → Group} (at' : Resident s uid core slot g)
    (there : lookupAt s.groups k = some h) (runs : h.stop = .running) (uid' : (f h).uid = h.uid) (stop : (f h).stop = h.stop)
    (change : t.groups = modifyAt s.groups k f) : ∃ core' slot' g', Resident t uid core' slot' g' ∧
      (k = groupKey core slot → core' = core ∧ slot' = slot ∧ g' = f h) := by
  obtain ⟨e, j, first, key, rfl, rfl, here⟩ := resident_entry at'
  obtain ⟨e', first', place⟩ := find?_setAt (v := f h) (p := fun g => g.uid == uid) there (by rw [uid']) first
  have groups : t.groups = setAt s.groups k (f h) := by rw [change, modifyAt, there]
  rw [← groups] at first'
  by_cases same : e'.1 = k
  · refine ⟨_, _, f h, resident_of_entry first' same (by rw [groups, lookupAt_setAt_same]) (stop.trans runs), ?_⟩
    rw [groupKey_place]
    rintro rfl
    exact ⟨rfl, rfl, rfl⟩
  · have still : e' = e := place.resolve_left same
    subst still
    refine ⟨_, _, g, resident_of_entry first' key (by rw [groups, lookupAt_setAt_other _ _ _ _ (key ▸ same), here]) at'.runs, ?_⟩
    rw [groupKey_place]
    exact fun hk => absurd (key.trans hk.symm) same

theorem tryUnwind_of_runs {s : State} {core slot : Nat} {g : Group} (here : groupAt s core slot = some g) (runs : g.stop = .running) :
    tryUnwind s core slot = s := by
  simp only [tryUnwind, here, runs]

theorem changeGroup_of_resident {s : State} {uid core slot : Nat} {g : Group} (h : Resident s uid core slot g) (f : Group → Group) :
    changeGroup s uid f = modifyGroup s core slot f := by
  simp only [changeGroup, h.found]

theorem resident_unlisted {s : State} {uid core slot : Nat} {g : Group} (h : Resident s uid core slot g) (n : Nat) (c : Cmd) :
    Resident (unlisted s n c) uid core slot g := by
  obtain ⟨e, k, first, key, rfl, rfl, here⟩ := resident_entry h
  exact resident_of_entry first key here h.runs

/-- The machine without its commands and requests and without what runs or has been launched: what no end of a command changes. -/
def offCommands (s : State) : State :=
  { s with cmds := [], net := [], groups := [], blocks := [], saved := [], runs := [], launches := [] }

theorem offCommands_timed (s : State) (c : Cmd) (time : Nat) : offCommands (timed s c time) = offCommands s := rfl
theorem offCommands_modifyGroup (s : State) (core slot : Nat) (f : Group → Group) :
    offCommands (modifyGroup s core slot f) = offCommands s := rfl
theorem offCommands_changeBlock (s : State) (bid : Nat) (f : Block → Block) : offCommands (changeBlock s bid f) = offCommands s := rfl
theorem offCommands_unlisted (s : State) (n : Nat) (c : Cmd) : offCommands (unlisted s n c) = offCommands s :=
  (offCommands_changeBlock _ _ _).trans rfl

/-- A command of a group that runs ends with the fall of its flag; nothing stands to be unwound. -/
theorem finishCommand_of_resident {s : State} {c : Cmd} {core slot : Nat} {g : Group} (h : Resident s c.uid core slot g)
    (n time : Nat) (err : Bool) :
    let t := finishCommand s n c time err
    t.groups = modifyAt s.groups (groupKey core slot) (fallen c time err) ∧ t.blocks = modifyAt s.blocks c.block (freed c) ∧
      t.saved = modifyAt s.saved c.block (fun x => { x with block := freed c x.block }) ∧ offCommands t = offCommands s := by
  have shape : flagged s n c time err = timed (modifyGroup (unlisted s n c) core slot (fallen c time err)) c (max c.maxT time) := by
    rw [flagged, changeGroup_of_resident (resident_unlisted h n c)]
  obtain ⟨core', slot', g', there, -⟩ := resident_kept (t := flagged s n c time err) h h.here h.runs (f := fallen c time err) rfl rfl
    (by rw [shape]; rfl)
  have ends : finishCommand s n c time err = flagged s n c time err := by
    rw [finishCommand_eq, there.found]
    exact tryUnwind_of_runs there.here there.runs
  rw [ends, shape]
  exact ⟨rfl, rfl, rfl, by rw [offCommands_timed, offCommands_modifyGroup, offCommands_unlisted]⟩

/-! The flag falls (R57, R81, R111). -/

/-- The block of a command is resident, and its group runs. -/
structure Stands (s : State) (c : Cmd) (b : Block) (core slot : Nat) (g : Group) : Prop where
  block : blockAt s c.block = some b
  group : Resident s c.uid core slot g
  saved : lookupAt s.saved c.block = none

section
variable {s t : State} {c : Cmd} {b : Block} {core slot : Nat} {g : Group}

theorem stands_of_outstanding {n : Nat} (h : Outstanding s n c b core slot g) : Stands s c b core slot g := ⟨h.block, h.group, h.saved⟩

theorem resident_congr {uid : Nat} (hg : t.groups = s.groups) (h : Resident s uid core slot g) : Resident t uid core slot g := by
  obtain ⟨e, k, first, key, rfl, rfl, here⟩ := resident_entry h
  exact resident_of_entry (hg ▸ first) key (hg ▸ here) h.runs

theorem stands_of_holdings (ht : holdings t = holdings s) (h : Stands s c b core slot g) : Stands t c b core slot g := by
  simp only [holdings, Prod.mk.injEq] at ht
  obtain ⟨hgroups, hblocks, -, -, hsaved⟩ := ht
  exact ⟨by rw [blockAt, hblocks]; exact h.block, resident_congr hgroups h.group, by rw [hsaved]; exact h.saved⟩

theorem stands_changeBlock (f : Block → Block) (h : Stands s c b core slot g) : Stands (changeBlock s c.block f) c (f b) core slot g where
  block := by
    show lookupAt (modifyAt s.blocks c.block f) c.block = _
    rw [lookupAt_modifyAt, if_pos rfl, show lookupAt s.blocks c.block = some b from h.block]
    rfl
  group := resident_congr (s := s) rfl h.group
  saved := by
    show lookupAt (modifyAt s.saved c.block _) c.block = none
    rw [lookupAt_modifyAt, if_pos rfl, h.saved]
    rfl

theorem getAt_clearAll (ks : List Nat) (m : Assoc Bool) (k : Nat) :
    getAt false (ks.foldl (fun m k => putAt false m k false) m) k = (getAt false m k && !ks.contains k) := by
  induction ks generalizing m with
  | nil => simp
  | cons j ks ih =>
    rw [List.foldl_cons, ih, getAt_putAt]
    by_cases hk : k = j <;> simp [hk]

theorem count_fallen (c : Cmd) (time : Nat) (err : Bool) (g : Group) : (fallen c time err g).count c.flag = g.count c.flag - 1 :=
  getAt_putAt_same ..

/-- The flag of a command that ends falls; its scratchpad is as its block was left, and whoever else owns granules keeps them. -/
theorem flagFalls_finishCommand {b₀ : Block} (h : Stands s c b core slot g) (engine : b.engine = b₀.engine) (n time : Nat) (err : Bool) :
    FlagFalls (finishCommand s n c time err) n c b₀ core slot g time err b.scratch := by
  obtain ⟨groups, blocks, -, -⟩ := finishCommand_of_resident h.group n time err
  refine ⟨by rw [finishCommand_cmds, lookupAt_eraseAt, if_pos rfl], ⟨freed c b, ?_, rfl, fun k => ?_⟩, fallen c time err g, ?_,
    count_fallen .., rfl, rfl⟩
  · rw [blockAt, blocks, lookupAt_modifyAt, if_pos rfl, show lookupAt s.blocks c.block = some b from h.block]
    rfl
  · rw [← engine]
    exact getAt_clearAll c.granules b.engine k
  · rw [groupAt, groups, lookupAt_modifyAt, if_pos rfl, show lookupAt s.groups (groupKey core slot) = some g from h.group.here]
    rfl

/-- What is no command's, no group's and no block's stays as it is when a command of a running group ends. -/
theorem view_finishCommand {α : Type} (v : State → α) (apart : ∀ s, v (offCommands s) = v s) (h : Resident s c.uid core slot g)
    (n time : Nat) (err : Bool) : v (finishCommand s n c time err) = v s := by
  obtain ⟨-, -, -, same⟩ := finishCommand_of_resident h n time err
  rw [← apart, same, apart]

end

/-! Words that a command lands in the scratchpad. -/

/-- A block with words landed in its scratchpad, the poisoned ones marked. -/
def landed (ws : List (Nat × List Byte)) (poisoned : List Nat) (b : Block) : Block :=
  (ws.foldl (fun (b : Block) w => b.writeScratch w.1 w.2) b).poisonWords poisoned

theorem engine_landed (ws : List (Nat × List Byte)) (poisoned : List Nat) (b : Block) : (landed ws poisoned b).engine = b.engine :=
  foldl_view Block.engine (f := fun b (w : Nat × List Byte) => b.writeScratch w.1 w.2) (fun _ _ => rfl) ws b

theorem scratch_landed (ws : List (Nat × List Byte)) (poisoned : List Nat) (b : Block) :
    (landed ws poisoned b).scratch = ws.foldl (fun m w => writeBytes m w.1 w.2) b.scratch := by
  show (ws.foldl _ b).scratch = _
  induction ws generalizing b with
  | nil => rfl
  | cons w ws ih => exact ih (b.writeScratch w.1 w.2)

/-- A command whose words have landed ends: its flag falls, and the words stand in the scratchpad. -/
theorem flagFalls_landScratch {s : State} {c : Cmd} {b : Block} {core slot : Nat} {g : Group} (h : Stands s c b core slot g)
    (ws : List (Nat × List Byte)) (poisoned : List Nat) (n time : Nat) (err : Bool) :
    FlagFalls (finishCommand (landScratch s c.block ws poisoned) n c time err) n c b core slot g time err
      (ws.foldl (fun m w => writeBytes m w.1 w.2) b.scratch) := by
  rw [← scratch_landed ws poisoned b]
  exact flagFalls_finishCommand (stands_changeBlock (landed ws poisoned) h) (engine_landed ws poisoned b) n time err

theorem view_landScratch {α : Type} (v : State → α) (apart : ∀ s, v (offCommands s) = v s) {s : State} {c : Cmd} {b : Block}
    {core slot : Nat} {g : Group} (h : Stands s c b core slot g) (ws : List (Nat × List Byte)) (poisoned : List Nat) (n time : Nat)
    (err : Bool) : v (finishCommand (landScratch s c.block ws poisoned) n c time err) = v s := by
  refine (view_finishCommand v apart (stands_changeBlock (landed ws poisoned) h).group n time err).trans ?_
  rw [← apart, ← apart s]
  exact congrArg v (offCommands_changeBlock s c.block _)

/-! What a command comes to. -/

section
variable {s : State} {n : Nat} {c : Cmd} {peers : List (List Word)} {tree : List Nat}

theorem notLate_of_inTime (h : InTime s c) : (c.coll.isSome && collLate s c) = false := by
  rcases h with h | h
  · rw [h]; rfl
  · have : collLate s c = false := decide_eq_false (Nat.not_le.2 h)
    rw [this, Bool.and_false]

/-- What an engine command comes to that is in its time, by its work. -/
def workEnd (n : Nat) (c : Cmd) (peers : List (List Word)) (tree : List Nat) (s : State) : State :=
  match c.work with
  | .writes sc po gw host =>
    if !host.isEmpty && (!s.linkUp || hostWaits s n c) then s
    else
      match engineWrites n c ⟨s, 0, false⟩ gw with
      | .waits _ => s
      | .done x =>
        finishCommand (landScratch { x.s with hostMem := host.foldl (fun m w => writeBytes m w.1 w.2) x.s.hostMem } c.block sc po) n c
          x.t x.err
  | .fromHost off host len =>
    if !s.linkUp then s
    else
      let good := (wordOffsets len).filter (fun i => !hostRefuses s (host + i))
      finishCommand (landScratch s c.block (good.map (fun i => (off + i, readBytes s.hostMem (host + i) 4))) []) n c 0
        (decide (good.length < (wordOffsets len).length))
  | .updates sc po rows =>
    match rowSteps n c ⟨s, 0, false⟩ [] rows with
    | .waits _ => s
    | .done x => finishCommand (landScratch x.s c.block sc po) n c x.t x.err
  | .coll .. => endColl s n c peers tree
  | .reading op x _ => readOn s n c op x
  | .looking vas stack w => lookOn s n c vas stack w
  | w =>
    let (s, w) := nbProceed s n w
    let c := { c with work := w }
    if nbCanComplete s n w then finishCommand (nbComplete s c.block w) n c 0 false else { s with cmds := setAt s.cmds n c }

theorem exec_complete (cur : s.cur = .outside) (here : lookupAt s.cmds n = some c) (time : InTime s c) :
    exec (.engineCommandComplete n peers tree) s = .next (workEnd n c peers tree s) := by
  show execEngineCommandComplete n peers tree s = _
  rw [execEngineCommandComplete, eventOp_outside _ cur]
  simp only [here, notLate_of_inTime time]
  rfl

end

/-! Copies, queries, writes to memory and words of the host (R81, R111, R166, R366). -/

section
variable {s : State} {n : Nat} {c : Cmd} {b : Block} {core slot : Nat} {g : Group} {peers : List (List Word)} {tree : List Nat}
  {sc : List (Nat × List Byte)} {po : List Nat}

theorem workEnd_writes {gw : List GWrite} {x : WriteTotal} (work : c.work = .writes sc po gw [])
    (done : engineWrites n c ⟨s, 0, false⟩ gw = .done x) :
    workEnd n c peers tree s = finishCommand (landScratch x.s c.block sc po) n c x.t x.err := by
  simp only [workEnd, work, List.isEmpty_nil, Bool.not_true, Bool.false_and, Bool.false_eq_true, if_false, done, List.foldl_nil]

theorem workEnd_scratch (at' : Outstanding s n c b core slot g) (work : c.work = .writes sc po [] []) :
    (workEnd n c peers tree s).mem = s.mem ∧ FlagFalls (workEnd n c peers tree s) n c b core slot g 0 false
      (sc.foldl (fun m w => writeBytes m w.1 w.2) b.scratch) := by
  rw [workEnd_writes work rfl]
  have stands := stands_of_outstanding at'
  exact ⟨view_landScratch State.mem (fun _ => rfl) stands sc po n 0 false, flagFalls_landScratch stands sc po n 0 false⟩

theorem workEnd_global {w : GWrite} {stack pa cls owner : Nat} (at' : Outstanding s n c b core slot g)
    (work : c.work = .writes sc po [w] []) (direct : asked s (c.asker n) (c.part s) w.ia w.size (.put w.val w.mask) = none)
    (spot : engineSpot s n c (c.asker n) w.dom w.ia = .at stack pa cls owner)
    (sync : isUnsync s (.slice (homeSlice (partAt s (c.part s)) w.ia)) = false) :
    let t := workEnd n c peers tree s
    MemoryWritten s t (physKey stack pa) w.size w.val w.mask ∧ lookupAt t.l1 (l1Key c.core w.ia) = none ∧
      FlagFalls t n c b core slot g (completesAt s (c.part s) w.ia cls) false (sc.foldl (fun m w => writeBytes m w.1 w.2) b.scratch) := by
  have stands : Stands (dropCopies (storeAt s (n, 0) (c.part s) c.dom.tclass stack pa cls owner w).1 c.core w.ia) c b core slot g :=
    stands_of_holdings (storeAt_holdings ..) (stands_of_outstanding at')
  rw [workEnd_writes work (engineWrites_one direct spot), ← completionTime_eq sync]
  refine ⟨memoryWritten_of_mem ?_, ?_, flagFalls_landScratch stands sc po n _ false⟩
  · exact (view_landScratch State.mem (fun _ => rfl) stands sc po n _ false).trans (storeAt_mem ..)
  · exact (congrArg (lookupAt · (l1Key c.core w.ia)) (view_landScratch State.l1 (fun _ => rfl) stands sc po n _ false)).trans
      (dropCopies_l1 ..)

theorem workEnd_fromHost {off host len : Nat} (at' : Outstanding s n c b core slot g) (work : c.work = .fromHost off host len)
    (up : s.linkUp = true) (good : ∀ i ∈ wordOffsets len, hostRefuses s (host + i) = false) :
    (workEnd n c peers tree s).mem = s.mem ∧ FlagFalls (workEnd n c peers tree s) n c b core slot g 0 false
      ((wordOffsets len).foldl (fun m i => writeBytes m (off + i) (readBytes s.hostMem (host + i) 4)) b.scratch) := by
  have all : (wordOffsets len).filter (fun i => !hostRefuses s (host + i)) = wordOffsets len :=
    List.filter_eq_self.2 fun i hi => by rw [good i hi]; rfl
  have stands := stands_of_outstanding at'
  have h := flagFalls_landScratch stands ((wordOffsets len).map (fun i => (off + i, readBytes s.hostMem (host + i) 4))) [] n 0 false
  rw [List.foldl_map] at h
  simp only [workEnd, work, up, Bool.not_true, Bool.false_eq_true, if_false, all, Nat.lt_irrefl, decide_false]
  exact ⟨view_landScratch State.mem (fun _ => rfl) stands _ [] n 0 false, h⟩

/-! Reads that are performed, and pages that are looked up (R98, R145, R403). -/

theorem logPlan_view {α : Type} (v : State → α) (apart : ∀ s stack e, v (logError s stack e) = v s) (s : State) (part dom core : Nat)
    (logs : List (Nat × Nat × Nat)) : v (logPlan s part dom core logs) = v s := by
  refine foldl_view v (fun s e => ?_) logs s
  unfold logRead
  split
  · rfl
  · exact apart ..

theorem workEnd_begins {op : EngineOp} {x : Ctx} {rs : List (Nat × Nat)} {y : Plan} (work : c.work = .reading op x rs)
    (plan : planOf op x { s with ahead := true } = y) (all : y.parks = false) :
    let t := workEnd n c peers tree s
    t.mem = s.mem ∧ t.groups = s.groups ∧ lookupAt t.cmds n = some { c with work := y.work, err := c.err || y.err } := by
  simp only [workEnd, work, readOn, plan, all, Bool.false_eq_true, if_false]
  exact ⟨logPlan_view State.mem (fun _ _ _ => rfl) .., logPlan_view State.groups (fun _ _ _ => rfl) .., lookupAt_setAt_same ..⟩

theorem workEnd_looked {vas : List Nat} {stack : Nat} {w : CmdWork} (work : c.work = .looking vas stack w)
    (found : ∀ va ∈ vas, regionPage { s with ahead := true } (c.asker n) (c.part s) c.dom stack va ≠ .waits) :
    let t := workEnd n c peers tree s
    let page := regionPage { s with ahead := true } (c.asker n) (c.part s) c.dom stack
    t.mem = s.mem ∧ t.groups = s.groups ∧ ((∀ va ∈ vas, page va = .good) → lookupAt t.cmds n = some { c with work := w }) ∧
      ((∃ va ∈ vas, page va ≠ .good) → lookupAt t.cmds n = some { c with work := .writes [] [] [] [], err := true }) := by
  dsimp only
  simp only [workEnd, work, lookOn]
  generalize regionPage { s with ahead := true } (c.asker n) (c.part s) c.dom stack = page at found ⊢
  have here : (vas.map page).any (fun x => x == .waits) = false := by simpa [List.any_eq_false] using found
  rw [here]
  refine ⟨logPlan_view State.mem (fun _ _ _ => rfl) .., logPlan_view State.groups (fun _ _ _ => rfl) .., fun good => ?_, fun bad => ?_⟩
  · have ok : (vas.map page).all (fun x => x == .good) = true := by simpa using good
    show lookupAt (setAt s.cmds n _) n = _
    rw [lookupAt_setAt_same, ok]
    simp
  · have ok : (vas.map page).all (fun x => x == .good) = false := by simpa using bad
    show lookupAt (setAt s.cmds n _) n = _
    rw [lookupAt_setAt_same, ok]
    simp

/-! Row updates (R168, R169). -/

theorem readLE_eq_ofBytes (m : List Host.Cell) (a k : Nat) : ofBytes ((List.range k).map (fun i => readByte m (a + i))) = readLE m a k := by
  induction k generalizing a with
  | zero => rfl
  | succ k ih =>
    rw [List.range_succ_eq_map, List.map_cons, List.map_map, readLE, ← ih]
    simp only [ofBytes, Nat.add_zero, Function.comp_def, Nat.add_assoc, Nat.add_comm 1, Nat.succ_eq_add_one]

/-- Whole bytes written one by one, from the lowest, are the write of all of them. -/
theorem writeMasked_bytes (m : List Host.Cell) (a k v : Nat) :
    (((List.range k).map (a + ·)).zip (toBytes k v)).foldl (fun m e => writeMasked m e.1 e.2.toNat 255 1) m =
      writeMasked m a v (256 ^ k - 1) k := by
  induction k generalizing m a v with
  | zero => rfl
  | succ k ih =>
    have low : (256 ^ (k + 1) - 1) % 256 = 255 := by have := Nat.pow_pos (n := k) (show 0 < 256 by decide); omega
    have high : (256 ^ (k + 1) - 1) / 256 = 256 ^ k - 1 := by omega
    have shift : ((fun x => a + x) ∘ Nat.succ) = (fun x => a + 1 + x) := by funext x; simp only [Function.comp]; omega
    rw [List.range_succ_eq_map, List.map_cons, List.map_map, shift, toBytes, List.zip_cons_cons, List.foldl_cons, ih]
    simp only [writeMasked, low, high, Nat.add_zero]
    simp

/-- A byte of an element is written at its bank, and its row counted. -/
def byteAtBank (n : Nat) (c : Cmd) (s₀ s : State) (e : ByteAt × Byte) : State :=
  countActivation (performAtBank s (n, 0) (c.part s₀) e.1.ia e.1.stack e.1.pa 1 e.2.toNat 255 0) (bankOf e.1.stack e.1.pa) e.1.pa

theorem byteAtBank_holdings (n : Nat) (c : Cmd) (s₀ s : State) (e : ByteAt × Byte) : holdings (byteAtBank n c s₀ s e) = holdings s :=
  writePhys_holdings ..

theorem byteAtBank_mem (n : Nat) (c : Cmd) (s₀ s : State) (e : ByteAt × Byte) :
    (byteAtBank n c s₀ s e).mem = writeMasked s.mem (physKey e.1.stack e.1.pa) e.2.toNat 255 1 :=
  writePhys_mem ..

theorem bytesAtBank_mem (n : Nat) (c : Cmd) (s₀ : State) (es : List (ByteAt × Byte)) (s : State) :
    (es.foldl (byteAtBank n c s₀) s).mem =
      (es.map (fun e => (physKey e.1.stack e.1.pa, e.2))).foldl (fun m e => writeMasked m e.1 e.2.toNat 255 1) s.mem := by
  induction es generalizing s with
  | nil => rfl
  | cons e es ih => rw [List.foldl_cons, ih, byteAtBank_mem]; rfl

/-- The bytes of an element that lies at one place. -/
def bytesFrom (ia stack pa size : Nat) : List ByteAt := (List.range size).map (fun k => ⟨ia + k, stack, pa + k⟩)

theorem ofBytes_bytesFrom (m : List Host.Cell) (ia stack pa size : Nat) :
    ofBytes ((bytesFrom ia stack pa size).map (fun b => readByte m (physKey b.stack b.pa))) = readLE m (physKey stack pa) size := by
  rw [← readLE_eq_ofBytes, bytesFrom, List.map_map]
  simp only [Function.comp_def, physKey, Nat.add_assoc]

theorem rowSteps_one {u : RowUpdate} {stack pa : Nat}
    (direct : asked s (c.baseAsker n) (c.part s) ((u.ias c.dom).headD 0) u.size (.rowAdd u.fmt u.mode u.term) = none)
    (spot : elementSpot s n c (u.ias c.dom) = .at (bytesFrom ((u.ias c.dom).headD 0) stack pa u.size)) :
    rowSteps n c ⟨s, 0, false⟩ [] [u] = .done ⟨((bytesFrom ((u.ias c.dom).headD 0) stack pa u.size).zip
      (toBytes u.size (u.result (readLE s.mem (physKey stack pa) u.size)))).foldl (byteAtBank n c s) s, s.dt + 4, false⟩ := by
  have one : rowStep s n c u = .done (((bytesFrom ((u.ias c.dom).headD 0) stack pa u.size).zip
      (toBytes u.size (u.result (readLE s.mem (physKey stack pa) u.size)))).foldl (byteAtBank n c s) s) (some (s.dt + 4)) := by
    simp only [rowStep, direct, spot, Option.isSome_none, Bool.false_eq_true, if_false, ofBytes_bytesFrom]
    rfl
  simp only [rowSteps, List.contains_nil, Bool.false_eq_true, if_false, one, Nat.zero_max]

theorem bytesFrom_mem (n : Nat) (c : Cmd) (s : State) (ia stack pa size v : Nat) :
    (((bytesFrom ia stack pa size).zip (toBytes size v)).foldl (byteAtBank n c s) s).mem =
      writeMasked s.mem (physKey stack pa) v (256 ^ size - 1) size := by
  have keys : ((bytesFrom ia stack pa size).zip (toBytes size v)).map (fun e => (physKey e.1.stack e.1.pa, e.2)) =
      ((List.range size).map (physKey stack pa + ·)).zip (toBytes size v) := by
    rw [bytesFrom, List.zip_map_left, List.zip_map_left, List.map_map]
    simp only [Function.comp_def, physKey, Nat.add_assoc]
    rfl
  rw [bytesAtBank_mem, keys, writeMasked_bytes]

theorem workEnd_update {u : RowUpdate} {stack pa : Nat} (at' : Outstanding s n c b core slot g) (work : c.work = .updates sc po [u])
    (direct : asked s (c.baseAsker n) (c.part s) ((u.ias c.dom).headD 0) u.size (.rowAdd u.fmt u.mode u.term) = none)
    (spot : elementSpot s n c (u.ias c.dom) = .at (bytesFrom ((u.ias c.dom).headD 0) stack pa u.size)) :
    let t := workEnd n c peers tree s
    MemoryWritten s t (physKey stack pa) u.size (u.result (readLE s.mem (physKey stack pa) u.size)) (256 ^ u.size - 1) ∧
      FlagFalls t n c b core slot g (s.dt + 4) false (sc.foldl (fun m w => writeBytes m w.1 w.2) b.scratch) := by
  have stands := stands_of_holdings (foldl_view holdings (byteAtBank_holdings n c s)
    ((bytesFrom ((u.ias c.dom).headD 0) stack pa u.size).zip (toBytes u.size (u.result (readLE s.mem (physKey stack pa) u.size)))) s)
    (stands_of_outstanding at')
  simp only [workEnd, work, rowSteps_one direct spot]
  exact ⟨memoryWritten_of_mem ((view_landScratch State.mem (fun _ => rfl) stands sc po n _ false).trans (bytesFrom_mem ..)),
    flagFalls_landScratch stands sc po n _ false⟩

end

/-! Collectives (R107, R299, R409; logs 14, 27, 49 and 74). -/

section
variable {s : State} {n : Nat} {c : Cmd} {b : Block} {core slot : Nat} {g : Group} {peers : List (List Word)} {tree : List Nat}

theorem workEnd_combined {op : Nat} {fast : Bool} {type comm peer count : Nat} {own : List Dword} {bad : List Nat} {off va : Nat}
    {rs : List (Nat × Dword)} (at' : Outstanding s n c b core slot g)
    (work : c.work = .coll op fast type comm peer count own bad (some off) va)
    (others : ¬ (3 ≤ op ∧ peer = ((commAt s comm).getD ⟨1, 0, [], []⟩).rank))
    (results : collResults ⟨op, fast, type, count⟩ ((commAt s comm).getD ⟨1, 0, [], []⟩) peer own bad peers tree = some rs) :
    (workEnd n c peers tree s).mem = s.mem ∧ FlagFalls (workEnd n c peers tree s) n c b core slot g 0 false
      (rs.foldl (fun m r => writeBytes m (off + Safety.collSize type * r.1) (toBytes (Safety.collSize type) r.2.toNat)) b.scratch) := by
  have stands := stands_of_outstanding at'
  have h := flagFalls_landScratch stands (rs.map (fun r =>
    (off + Safety.collSize type * r.1, toBytes (Safety.collSize type) r.2.toNat))) [] n 0 false
  rw [List.foldl_map] at h
  simp only [workEnd, work, endColl, if_neg others, results, landColl]
  exact ⟨view_landScratch State.mem (fun _ => rfl) stands _ [] n 0 false, h⟩

/-- A collective that nothing of the device is matched with fails for itself. -/
theorem failColl_single (here : lookupAt s.cmds n = some c) (single : selfPartner s n c = none) :
    failColl s n = finishCommand s n c 0 true := by
  simp only [failColl, here, single]

theorem failColl_flagFalls (at' : Outstanding s n c b core slot g) (single : selfPartner s n c = none) :
    (failColl s n).mem = s.mem ∧ FlagFalls (failColl s n) n c b core slot g 0 true b.scratch := by
  have stands := stands_of_outstanding at'
  rw [failColl_single at'.here single]
  exact ⟨view_finishCommand State.mem (fun _ => rfl) stands.group n 0 true, flagFalls_finishCommand stands rfl n 0 true⟩

theorem workEnd_disagrees {op : Nat} {fast : Bool} {type comm peer count : Nat} {own : List Dword} {bad : List Nat} {dst : Option Nat}
    {va : Nat} (at' : Outstanding s n c b core slot g) (work : c.work = .coll op fast type comm peer count own bad dst va)
    (others : ¬ (3 ≤ op ∧ peer = ((commAt s comm).getD ⟨1, 0, [], []⟩).rank)) (single : selfPartner s n c = none)
    (results : collResults ⟨op, fast, type, count⟩ ((commAt s comm).getD ⟨1, 0, [], []⟩) peer own bad peers tree = none) :
    (workEnd n c peers tree s).mem = s.mem ∧ FlagFalls (workEnd n c peers tree s) n c b core slot g 0 true b.scratch := by
  have fails : workEnd n c peers tree s = failColl s n := by
    simp only [workEnd, work, endColl, if_neg others, results]
  rw [fails]
  exact failColl_flagFalls at' single

/-! A collective that fails. -/

theorem dropPair_view {α : Type} (v : State → α) (apart : ∀ s comms, v { s with comms := comms } = v s) (s : State) (c : Cmd) (i : Nat) :
    v (dropPair s c i) = v s := by
  unfold dropPair
  split
  · exact apart ..
  · rfl

/-- A failing collective takes at most itself and what it is matched with away. -/
theorem failColl_gone (s : State) (n k : Nat) (h : lookupAt s.cmds k = none) : lookupAt (failColl s n).cmds k = none := by
  unfold failColl
  split
  · exact h
  · next c hc =>
    have first : lookupAt (finishCommand s n c 0 true).cmds k = none := by
      rw [finishCommand_cmds, lookupAt_eraseAt, h, ite_self]
    dsimp only
    split
    · exact first
    · rw [dropPair_view State.cmds (fun _ _ => rfl)]
      split
      · rw [finishCommand_cmds, lookupAt_eraseAt, first, ite_self]
      · exact first

/-- A failing collective is over, and so is what it is matched with. -/
theorem failColl_pair {m i : Nat} (here : lookupAt s.cmds n = some c) (partner : selfPartner s n c = some (m, i)) :
    lookupAt (failColl s n).cmds n = none ∧ lookupAt (failColl s n).cmds m = none := by
  have first : lookupAt (finishCommand s n c 0 true).cmds n = none := by
    rw [finishCommand_cmds, lookupAt_eraseAt, if_pos rfl]
  simp only [failColl, here, partner]
  rw [dropPair_view State.cmds (fun _ _ => rfl)]
  split
  · rw [finishCommand_cmds, lookupAt_eraseAt, lookupAt_eraseAt, first, ite_self, if_pos rfl]
    exact ⟨rfl, rfl⟩
  · next hm => exact ⟨first, hm⟩

theorem failColl_over (here : lookupAt s.cmds n = some c) : lookupAt (failColl s n).cmds n = none := by
  cases partner : selfPartner s n c with
  | none => rw [failColl_single here partner, finishCommand_cmds, lookupAt_eraseAt, if_pos rfl]
  | some p => exact (failColl_pair here partner).1

/-- Where nothing is saved, a failing collective reaches no memory. -/
theorem failColl_unsaved (n : Nat) (h : s.saved = []) : (failColl s n).mem = s.mem ∧ (failColl s n).saved = [] := by
  unfold failColl
  split
  · exact ⟨rfl, h⟩
  · next c hc =>
    obtain ⟨mem, saved⟩ := finishCommand_unsaved h n c 0 true
    dsimp only
    split
    · exact ⟨mem, saved⟩
    · rw [dropPair_view State.mem (fun _ _ => rfl), dropPair_view State.saved (fun _ _ => rfl)]
      split
      · next x _ =>
        obtain ⟨mem', saved'⟩ := finishCommand_unsaved saved _ x 0 true
        exact ⟨mem'.trans mem, saved'⟩
      · exact ⟨mem, saved⟩

/-- How many devices a communicator has and which the device is: what the order of its sends and receives does not touch. -/
def membership (s : State) (k : Nat) : Option (Nat × Nat) := (commAt s k).map (fun x => (x.devices, x.rank))

theorem membership_dropPair (s : State) (c : Cmd) (i : Nat) : membership (dropPair s c i) = membership s := by
  funext k
  unfold dropPair
  split
  · show (lookupAt (modifyAt s.comms _ _) k).map _ = (lookupAt s.comms k).map _
    rw [lookupAt_modifyAt]
    split
    · next hk =>
      rw [hk, Option.map_map]
      rfl
    · rfl
  · rfl

theorem membership_finishCommand (s : State) (n : Nat) (c : Cmd) (time : Nat) (err : Bool) :
    membership (finishCommand s n c time err) = membership s := by
  funext k
  simp only [membership, commAt, finishCommand_comms]

theorem membership_failColl (s : State) (n : Nat) : membership (failColl s n) = membership s := by
  unfold failColl
  split
  · rfl
  · dsimp only
    split
    · exact membership_finishCommand ..
    · rw [membership_dropPair]
      split
      · rw [membership_finishCommand, membership_finishCommand]
      · exact membership_finishCommand ..

theorem meetsPeers_of_meetsOthers (h : MeetsOthers s c) : meetsPeers s c = true := by
  obtain ⟨op, comm, peer, hc, meets⟩ := h
  unfold meetsPeers
  simp only [hc]
  split at meets
  · next hop => simpa only [if_pos hop, bne_iff_ne] using meets
  · next hop => simpa only [if_neg hop, decide_eq_true_eq] using meets

/-- Whether a collective meets other devices is told by the membership of its communicator. -/
theorem meetsPeers_congr {t : State} (h : membership t = membership s) (c : Cmd) : meetsPeers t c = meetsPeers s c := by
  unfold meetsPeers
  split
  · next op comm peer hc =>
    have hk := congrFun h comm
    simp only [membership] at hk
    cases ht : commAt t comm <;> cases hs : commAt s comm <;> simp [ht, hs] at hk ⊢
    simp [hk]
  · rfl

/-- The outstanding collectives that meet other devices fail, one after the other. -/
def failMeeting (s : State) (e : Nat × Cmd) : State := if meetsPeers s e.2 then failColl s e.1 else s

theorem failMeeting_eq (s : State) (e : Nat × Cmd) : failMeeting s e = s ∨ failMeeting s e = failColl s e.1 := by
  unfold failMeeting
  split
  · exact .inr rfl
  · exact .inl rfl

theorem failMeeting_unsaved {e : Nat × Cmd} (h : s.saved = []) : (failMeeting s e).mem = s.mem ∧ (failMeeting s e).saved = [] := by
  rcases failMeeting_eq s e with hs | hs <;> rw [hs]
  · exact ⟨rfl, h⟩
  · exact failColl_unsaved e.1 h

theorem mem_of_lookupAt {α : Type} {m : Assoc α} {k : Nat} {a : α} (h : lookupAt m k = some a) : (k, a) ∈ m := by
  induction m with
  | nil => cases h
  | cons e t ih =>
    obtain ⟨j, x⟩ := e
    unfold lookupAt at h
    split at h
    · next hj =>
      cases h
      exact hj ▸ List.mem_cons_self
    · exact List.mem_cons_of_mem _ (ih h)

theorem failMeeting_gone (e : Nat × Cmd) (h : lookupAt s.cmds n = none) : lookupAt (failMeeting s e).cmds n = none := by
  rcases failMeeting_eq s e with hs | hs <;> rw [hs]
  · exact h
  · exact failColl_gone s e.1 n h

theorem failMeeting_over (meets : meetsPeers s c = true) : lookupAt (failMeeting s (n, c)).cmds n = none := by
  show lookupAt (if meetsPeers s c then failColl s n else s).cmds n = none
  rw [if_pos meets]
  cases here : lookupAt s.cmds n with
  | none => exact failColl_gone s n n here
  | some x => exact failColl_over here

/-- Of the collectives of a list that meet other devices none is left. -/
theorem failMeeting_all (es : List (Nat × Cmd)) {s₁ : State} (same : membership s₁ = membership s) (meets : MeetsOthers s c)
    (listed : (n, c) ∈ es) : lookupAt (es.foldl failMeeting s₁).cmds n = none := by
  induction es generalizing s₁ with
  | nil => cases listed
  | cons e es ih =>
    rw [List.foldl_cons]
    rcases List.mem_cons.1 listed with rfl | later
    · have here := failMeeting_over (n := n) ((meetsPeers_congr same c).trans (meetsPeers_of_meetsOthers meets))
      exact foldl_keeps (fun t : State => lookupAt t.cmds n = none) (fun t e ht => failMeeting_gone e ht) es here
    · refine ih ?_ later
      rcases failMeeting_eq s₁ e with hs | hs <;> rw [hs]
      · exact same
      · rw [membership_failColl, same]

theorem exec_unreachable (port : Nat) (cur : s.cur = .outside) :
    exec (.peerPortUnreachable port) s = .next (s.cmds.foldl failMeeting s) :=
  show execPeerPortUnreachable port s = _ from eventOp_outside _ cur

theorem exec_collTimeout (cur : s.cur = .outside) (here : lookupAt s.cmds n = some c) (coll : c.coll ≠ none)
    (late : c.issued + Config.collLimit ≤ s.dt) : exec (.collTimeout n) s = .next (failColl s n) := by
  have due : (c.coll.isSome && collLate s c) = true := by
    rw [Option.isSome_iff_ne_none.2 coll, collLate, decide_eq_true late]
    rfl
  show execCollTimeout n s = _
  rw [execCollTimeout, eventOp_outside _ cur]
  simp only [here, due, if_true]

/-! A receive of the device from itself (R299; log 74). -/

/-- A command stands while one of another running group ends, and its scratchpad is as it was. -/
theorem stands_finishCommand {x : Cmd} {core' q : Nat} {h : Group} (sender : Resident s x.uid core' q h) (stands : Stands s c b core slot g)
    (m time : Nat) (err : Bool) :
    ∃ b' core₁ slot₁ g₁, Stands (finishCommand s m x time err) c b' core₁ slot₁ g₁ ∧ b'.scratch = b.scratch := by
  obtain ⟨groups, blocks, saved, -⟩ := finishCommand_of_resident sender m time err
  obtain ⟨core₁, slot₁, g₁, there, -⟩ := resident_kept stands.group sender.here sender.runs (f := fallen x time err) rfl rfl groups
  have unsaved : lookupAt (finishCommand s m x time err).saved c.block = none := by
    rw [saved, lookupAt_modifyAt]
    split
    · next same => rw [← same, stands.saved]; rfl
    · exact stands.saved
  by_cases same : c.block = x.block
  · refine ⟨freed x b, core₁, slot₁, g₁, ⟨?_, there, unsaved⟩, rfl⟩
    rw [blockAt, blocks, lookupAt_modifyAt, if_pos same, ← same, show lookupAt s.blocks c.block = some b from stands.block]
    rfl
  · refine ⟨b, core₁, slot₁, g₁, ⟨?_, there, unsaved⟩, rfl⟩
    rw [blockAt, blocks, lookupAt_modifyAt, if_neg same]
    exact stands.block

/-- The words that a receive of the device from itself lands. -/
def selfWords (type off count : Nat) (own : List Dword) : List (Nat × List Byte) :=
  (List.range count).map (fun j => (off + Safety.collSize type * j, toBytes (Safety.collSize type) (own.getD j 0).toNat))

theorem workEnd_received {m i : Nat} {x : Cmd} {fast : Bool} {type comm peer count : Nat} {own : List Dword} {bad : List Nat} {off va : Nat}
    {op' comm' peer' : Nat} {own' : List Dword} {dst' : Option Nat} {va' q : Nat} {h : Group} (at' : Outstanding s n c b core slot g)
    (work : c.work = .coll 4 fast type comm peer count own bad (some off) va)
    (self : peer = ((commAt s comm).getD ⟨1, 0, [], []⟩).rank) (partner : selfPartner s n c = some (m, i))
    (sends : lookupAt s.cmds m = some x) (sent : x.work = .coll op' fast type comm' peer' count own' [] dst' va')
    (early : s.dt < x.issued + Config.collLimit) (sender : Resident s x.uid core q h) :
    let t := workEnd n c peers tree s
    lookupAt t.cmds n = none ∧ lookupAt t.cmds m = none ∧ t.mem = s.mem ∧
      ∃ b', blockAt t c.block = some b' ∧ b'.scratch = (List.range count).foldl (fun m j =>
        writeBytes m (off + Safety.collSize type * j) (toBytes (Safety.collSize type) (own'.getD j 0).toNat)) b.scratch := by
  have notLate : collLate s x = false := decide_eq_false (Nat.not_le.2 early)
  have ends : workEnd n c peers tree s = dropPair (finishCommand (landScratch (finishCommand s m x 0 false) c.block
      (selfWords type off count own') []) n c 0 false) c i := by
    simp only [workEnd, work, endColl, self, partner, sends, endSelfColl, sent, notLate, landColl]
    simp [selfWords, Safety.collSize, Function.comp_def]
  obtain ⟨b', core₁, slot₁, g₁, stands, scratch⟩ := stands_finishCommand sender (stands_of_outstanding at') m 0 false
  obtain ⟨gone, ⟨b₁, here, words, -⟩, -⟩ := flagFalls_landScratch stands (selfWords type off count own') [] n 0 false
  rw [ends]
  refine ⟨?_, ?_, ?_, b₁, ?_, ?_⟩
  · rw [dropPair_view State.cmds (fun _ _ => rfl), gone]
  · rw [dropPair_view State.cmds (fun _ _ => rfl), finishCommand_cmds, lookupAt_eraseAt]
    show (if m = n then none else lookupAt (finishCommand s m x 0 false).cmds m) = none
    rw [finishCommand_cmds, lookupAt_eraseAt, if_pos rfl, ite_self]
  · rw [dropPair_view State.mem (fun _ _ => rfl), view_landScratch State.mem (fun _ => rfl) stands]
    exact view_finishCommand State.mem (fun _ => rfl) sender m 0 false
  · exact (congrArg (lookupAt · c.block) (dropPair_view State.blocks (fun _ _ => rfl) _ c i)).trans here
  · rw [words, scratch, selfWords, List.foldl_map]

end

/-! Near-bank commands (R148 to R152, R325). -/

section
variable {s : State} {n : Nat} {c : Cmd} {b : Block} {core slot : Nat} {g : Group} {peers : List (List Word)} {tree : List Nat}

theorem filter_allows {p : Nat → Bool} {l : List Nat} (h : ∀ k ∈ l, p k = false) : l.filter (fun k => !p k) = l :=
  List.filter_eq_self.2 fun k hk => by rw [h k hk]; rfl

theorem filter_notContains (l : List Nat) : l.filter (fun k => !l.contains k) = [] :=
  List.filter_eq_nil_iff.2 fun k hk => by simp [hk]

/-- Words stored at places in ascending order stand there. -/
theorem getAt_storeWords (ws : List Word) (a i : Nat) (m : Assoc Word) :
    getAt 0 ((ws.zip (List.range' a ws.length)).foldl (fun m e => putAt 0 m e.2 e.1) m) i =
      if a ≤ i ∧ i < a + ws.length then ws.getD (i - a) 0 else getAt 0 m i := by
  induction ws generalizing a m with
  | nil =>
    rw [if_neg (by simp)]
    rfl
  | cons w ws ih =>
    rw [List.length_cons, List.range'_succ, List.zip_cons_cons, List.foldl_cons, ih, getAt_putAt]
    rcases Nat.lt_trichotomy i a with h | h | h
    · rw [if_neg (by omega), if_neg (by omega), if_neg (by omega)]
    · subst h
      simp
    · have next : i - a = i - (a + 1) + 1 := by omega
      rw [if_neg (show ¬ i = a by omega), next, List.getD_cons_succ]
      exact if_congr (by omega) rfl rfl

/-- The words stand in the store of a bank's unit. -/
def Holds (ws : List Word) (k : Nat) (s : State) : Prop := ∀ i < ws.length, getAt 0 (nbuAt s k).prog i = ws.getD i 0

theorem holds_loadStore (s : State) (k : Nat) (ws : List Word) : Holds ws k (loadStore s k ws) := by
  intro i hi
  rw [loadStore, nbuAt_setNbu_same, List.range_eq_range']
  exact (getAt_storeWords ws 0 i _).trans (if_pos ⟨Nat.zero_le i, by omega⟩)

theorem holds_loadStore_of_holds {ws : List Word} {k : Nat} (j : Nat) (h : Holds ws k s) : Holds ws k (loadStore s j ws) := by
  by_cases same : k = j
  · exact same ▸ holds_loadStore s k ws
  · intro i hi
    rw [loadStore, nbuAt_setNbu_other _ _ _ _ same]
    exact h i hi

theorem workEnd_loaded {bs : List Nat} {ws : List Word} (at' : Outstanding s n c b core slot g) (work : c.work = .nbLoad bs ws)
    (turn : ∀ k ∈ bs, earlierAt s n k = false) :
    let t := workEnd n c peers tree s
    t.mem = s.mem ∧ (∀ k ∈ bs, ∀ i < ws.length, getAt 0 (nbuAt t k).prog i = ws.getD i 0) ∧
      FlagFalls t n c b core slot g 0 false b.scratch := by
  have loads : ∀ s k, holdings (loadStore s k ws) = holdings s := fun _ _ => rfl
  have mem : ∀ s k, (loadStore s k ws).mem = s.mem := fun _ _ => rfl
  have stands : Stands (bs.foldl (fun s k => loadStore s k ws) s) { c with work := .nbLoad [] ws } b core slot g :=
    stands_of_holdings (foldl_view holdings loads bs s) ⟨at'.block, at'.group, at'.saved⟩
  have ends : workEnd n c peers tree s =
      finishCommand (bs.foldl (fun s k => loadStore s k ws) s) n { c with work := .nbLoad [] ws } 0 false := by
    simp only [workEnd, work, nbProceed, filter_allows turn, filter_notContains, nbCanComplete, nbComplete, List.isEmpty_nil, if_true]
  rw [ends]
  refine ⟨?_, fun k hk => ?_, flagFalls_finishCommand stands rfl n 0 false⟩
  · exact (view_finishCommand State.mem (fun _ => rfl) stands.group n 0 false).trans (foldl_view State.mem mem bs s)
  · rw [view_finishCommand (nbuAt · k) (fun _ => rfl) stands.group]
    exact foldl_reaches (Holds ws k) (fun _ j h => holds_loadStore_of_holds j h) hk (fun s => holds_loadStore s k ws) s

theorem stands_modifyBlock (f : Block → Block) (h : Stands s c b core slot g) : Stands (modifyBlock s c.block f) c (f b) core slot g :=
  ⟨by rw [blockAt_modifyBlock, if_pos rfl, h.block]; rfl, resident_congr (s := s) rfl h.group, h.saved⟩

theorem nbComplete_get (s : State) (bid : Nat) (bs : List Nat) (got : List (Nat × List (Word × Bool))) (sum : Option Bool) (off : Nat) :
    ∃ po, nbComplete s bid (.nbGet bs got sum off) =
      modifyBlock s bid (landed ((nbGetWords got sum off).map (fun w => (w.1, toBytes 4 w.2.1.toNat))) po) :=
  ⟨_, congrArg (modifyBlock s bid) (funext fun b => by rw [landed, List.foldl_map])⟩

theorem workEnd_got {bs : List Nat} {old : List (Nat × List (Word × Bool))} {sum : Option Bool} {off : Nat}
    (at' : Outstanding s n c b core slot g) (work : c.work = .nbGet bs old sum off) (turn : ∀ k ∈ bs, earlierAt s n k = false) :
    (workEnd n c peers tree s).mem = s.mem ∧ FlagFalls (workEnd n c peers tree s) n c b core slot g 0 false
      ((nbGetWords (old ++ bs.map (fun k => (k, nbValues s k))) sum off).foldl (fun m w => writeBytes m w.1 (toBytes 4 w.2.1.toNat))
        b.scratch) := by
  let got := old ++ bs.map (fun k => (k, nbValues s k))
  obtain ⟨po, lands⟩ := nbComplete_get s c.block [] got sum off
  have stands := stands_modifyBlock (landed ((nbGetWords got sum off).map (fun w => (w.1, toBytes 4 w.2.1.toNat))) po)
    (c := { c with work := .nbGet [] got sum off }) ⟨at'.block, at'.group, at'.saved⟩
  have falls := flagFalls_finishCommand stands (engine_landed ..) n 0 false
  rw [scratch_landed, List.foldl_map] at falls
  have ends : workEnd n c peers tree s = finishCommand (modifyBlock s c.block
      (landed ((nbGetWords got sum off).map (fun w => (w.1, toBytes 4 w.2.1.toNat))) po)) n
        { c with work := .nbGet [] got sum off } 0 false := by
    rw [← lands]
    simp only [workEnd, work, nbProceed, filter_allows turn, filter_notContains, nbCanComplete, List.isEmpty_nil, if_true]
    rfl
  rw [ends]
  exact ⟨view_finishCommand State.mem (fun _ => rfl) stands.group n 0 false, falls⟩

/-! A switch of mode (R152). -/

/-- A unit at its row boundary as a switch to normal mode leaves it, and a suspended one as a switch to compute mode leaves it. -/
def suspendedUnit (x : Nbu) : Nbu := { x with suspended := true, openRow := none }
def resumedUnit (x : Nbu) : Nbu := if x.suspended then { x with suspended := false, boundary := some 0, lastServed := none } else x

/-- A unit of a pseudo-channel whose mode changes. -/
def switchedUnit (compute : Bool) (s : State) (x : Nbu) : Nbu :=
  if compute then resumedUnit x else if (runView s x).isSome then suspendedUnit x else x

/-- The change of mode at one bank. -/
def switchUnit (compute : Bool) (s : State) (k : Nat) : State := if compute then resumeRun s k else suspendRun s k

theorem resumedUnit_awake (x : Nbu) : (resumedUnit x).suspended = false := by
  unfold resumedUnit
  split
  · rfl
  · next h => exact Bool.eq_false_iff.2 h

theorem switchedUnit_twice (compute : Bool) (s : State) (x : Nbu) :
    switchedUnit compute s (switchedUnit compute s x) = switchedUnit compute s x := by
  cases compute with
  | true =>
    show resumedUnit (resumedUnit x) = resumedUnit x
    rw [resumedUnit, if_neg (by rw [resumedUnit_awake]; exact Bool.false_ne_true)]
  | false =>
    by_cases run : (runView s x).isSome = true
    · simp [switchedUnit, run, suspendedUnit]
    · simp [switchedUnit, run]

theorem nbuAt_switchUnit (compute : Bool) (s : State) (j k : Nat) :
    nbuAt (switchUnit compute s j) k = if k = j then switchedUnit compute s (nbuAt s k) else nbuAt s k := by
  by_cases same : k = j
  · subst same
    rw [if_pos rfl]
    cases compute with
    | true =>
      show nbuAt (resumeRun s k) k = resumedUnit (nbuAt s k)
      unfold resumeRun resumedUnit
      dsimp only
      split
      · exact nbuAt_setNbu_same ..
      · rfl
    | false =>
      show nbuAt (suspendRun s k) k = if (runView s (nbuAt s k)).isSome then suspendedUnit (nbuAt s k) else nbuAt s k
      unfold suspendRun
      dsimp only
      split
      · next r run => rw [run, nbuAt_setNbu_same]; rfl
      · next run => rw [run]; rfl
  · rw [if_neg same]
    unfold switchUnit resumeRun suspendRun
    dsimp only
    split <;> split
    · exact nbuAt_setNbu_other _ _ _ _ same
    · rfl
    · exact nbuAt_setNbu_other _ _ _ _ same
    · rfl

/-- The machine without its near-bank units and the modes of its pseudo-channels. -/
def offUnits (s : State) : State := { s with nbus := [], computeMode := [] }

theorem offUnits_switchUnit (compute : Bool) (s : State) (k : Nat) : offUnits (switchUnit compute s k) = offUnits s := by
  unfold switchUnit resumeRun suspendRun
  dsimp only
  split <;> split <;> rfl

theorem view_of_offUnits {α : Type} (v : State → α) (apart : ∀ s, v (offUnits s) = v s) {s t : State} (h : offUnits t = offUnits s) :
    v t = v s := by
  rw [← apart t, h, apart]

/-- The units of some banks change with the mode, each once. -/
theorem nbuAt_switchUnits (compute : Bool) (ks : List Nat) (s : State) (k : Nat) :
    nbuAt (ks.foldl (switchUnit compute) s) k = if k ∈ ks then switchedUnit compute s (nbuAt s k) else nbuAt s k := by
  induction ks generalizing s with
  | nil => rfl
  | cons j ks ih =>
    have runs : switchedUnit compute (switchUnit compute s j) = switchedUnit compute s :=
      view_of_offUnits (switchedUnit compute) (fun _ => rfl) (offUnits_switchUnit compute s j)
    rw [List.foldl_cons, ih, runs, nbuAt_switchUnit]
    by_cases first : k = j <;> by_cases later : k ∈ ks <;> simp [first, later, switchedUnit_twice]

theorem switchMode_eq (s : State) (stack pch : Nat) (compute : Bool) : switchMode s stack pch compute =
    { (pchBanks stack pch).foldl (switchUnit compute) s with
      computeMode := putAt false ((pchBanks stack pch).foldl (switchUnit compute) s).computeMode (stack * 64 + pch) compute } := by
  rw [pchBanks, List.foldl_map]
  rfl

theorem offUnits_switchMode (s : State) (stack pch : Nat) (compute : Bool) : offUnits (switchMode s stack pch compute) = offUnits s := by
  rw [switchMode_eq]
  exact foldl_view offUnits (offUnits_switchUnit compute) (pchBanks stack pch) s

theorem nbuAt_switchMode (s : State) (stack pch : Nat) (compute : Bool) (k : Nat) : nbuAt (switchMode s stack pch compute) k =
    if k ∈ pchBanks stack pch then switchedUnit compute s (nbuAt s k) else nbuAt s k := by
  rw [switchMode_eq]
  exact nbuAt_switchUnits compute (pchBanks stack pch) s k

theorem computeMode_switchUnit (compute : Bool) (s : State) (k : Nat) : (switchUnit compute s k).computeMode = s.computeMode := by
  unfold switchUnit resumeRun suspendRun
  dsimp only
  split <;> split <;> rfl

theorem computeMode_switchMode (s : State) (stack pch : Nat) (compute : Bool) :
    (switchMode s stack pch compute).computeMode = putAt false s.computeMode (stack * 64 + pch) compute := by
  rw [switchMode_eq, foldl_view State.computeMode (computeMode_switchUnit compute)]

theorem bankNo_mem (stack pch : Nat) {l : Nat} (h : l < 32) : bankNo stack pch l ∈ pchBanks stack pch :=
  List.mem_map.2 ⟨l, List.mem_range.2 h, rfl⟩

/-- A switch of mode in its turn: the units and the mode change, and the command is over. -/
theorem workEnd_switch {bs : List Nat} {k p : Nat} {compute : Bool} (at' : Outstanding s n c b core slot g)
    (work : c.work = .nbMode bs k p compute) (can : nbCanComplete s n (.nbMode bs k p compute) = true) :
    let t := workEnd n c peers tree s
    t.mem = s.mem ∧ inCompute t k p = compute ∧
      (∀ l < 32, nbuAt t (bankNo k p l) = switchedUnit compute s (nbuAt s (bankNo k p l))) ∧
      FlagFalls t n c b core slot g 0 false b.scratch := by
  have stands : Stands (switchMode s k p compute) c b core slot g :=
    stands_of_holdings (view_of_offUnits holdings (fun _ => rfl) (offUnits_switchMode s k p compute)) (stands_of_outstanding at')
  have ends : workEnd n c peers tree s = finishCommand (switchMode s k p compute) n { c with work := .nbMode bs k p compute } 0 false := by
    simp only [workEnd, work, nbProceed, can, nbComplete, if_true]
  rw [ends, ← work]
  refine ⟨?_, ?_, fun l hl => ?_, flagFalls_finishCommand stands rfl n 0 false⟩
  · rw [view_finishCommand State.mem (fun _ => rfl) stands.group]
    exact view_of_offUnits State.mem (fun _ => rfl) (offUnits_switchMode s k p compute)
  · rw [view_finishCommand (inCompute · k p) (fun _ => rfl) stands.group, inCompute, computeMode_switchMode, getAt_putAt_same]
  · rw [view_finishCommand (nbuAt · (bankNo k p l)) (fun _ => rfl) stands.group, nbuAt_switchMode, if_pos (bankNo_mem k p hl)]

theorem workEnd_suspends {bs : List Nat} {k p : Nat} (at' : Outstanding s n c b core slot g) (work : c.work = .nbMode bs k p false)
    (turn : modeReady s n bs k p false = true) (still : ∀ l < 32, (runView s (nbuAt s (bankNo k p l))).isSome →
      (nbuAt s (bankNo k p l)).suspended = true ∨ (nbuAt s (bankNo k p l)).boundary.isSome) :
    let t := workEnd n c peers tree s
    t.mem = s.mem ∧ inCompute t k p = false ∧
      (∀ l < 32, (runView s (nbuAt s (bankNo k p l))).isSome →
        (nbuAt t (bankNo k p l)).suspended = true ∧ (nbuAt t (bankNo k p l)).openRow = none ∧
        (nbuAt t (bankNo k p l)).k = (nbuAt s (bankNo k p l)).k ∧ (nbuAt t (bankNo k p l)).row = (nbuAt s (bankNo k p l)).row) ∧
      FlagFalls t n c b core slot g 0 false b.scratch := by
  have boundary : (List.range 32).all (fun l => (runView s (nbuAt s (bankNo k p l))).isNone || (nbuAt s (bankNo k p l)).suspended ||
      (nbuAt s (bankNo k p l)).boundary.isSome) = true := by
    refine List.all_eq_true.2 fun l hl => ?_
    cases run : runView s (nbuAt s (bankNo k p l)) with
    | none => rfl
    | some r =>
      rcases still l (List.mem_range.1 hl) (by rw [run]; rfl) with h | h <;> simp [h]
  obtain ⟨mem, mode, units, falls⟩ := workEnd_switch (peers := peers) (tree := tree) at' work (by
    simp only [nbCanComplete, turn, Bool.true_and, Bool.false_or]
    exact boundary)
  refine ⟨mem, mode, fun l hl run => ?_, falls⟩
  have unit : nbuAt (workEnd n c peers tree s) (bankNo k p l) = suspendedUnit (nbuAt s (bankNo k p l)) :=
    (units l hl).trans (if_pos run)
  rw [unit]
  exact ⟨rfl, rfl, rfl, rfl⟩

theorem workEnd_resumes {bs : List Nat} {k p : Nat} (at' : Outstanding s n c b core slot g) (work : c.work = .nbMode bs k p true)
    (turn : modeReady s n bs k p true = true) :
    let t := workEnd n c peers tree s
    t.mem = s.mem ∧ inCompute t k p = true ∧
      (∀ l < 32, (nbuAt t (bankNo k p l)).suspended = false ∧ (nbuAt t (bankNo k p l)).k = (nbuAt s (bankNo k p l)).k ∧
        (nbuAt t (bankNo k p l)).row = (nbuAt s (bankNo k p l)).row) ∧
      FlagFalls t n c b core slot g 0 false b.scratch := by
  obtain ⟨mem, mode, units, falls⟩ := workEnd_switch (peers := peers) (tree := tree) at' work (by
    simp only [nbCanComplete, turn, Bool.true_and, Bool.true_or])
  refine ⟨mem, mode, fun l hl => ?_, falls⟩
  have unit : nbuAt (workEnd n c peers tree s) (bankNo k p l) = resumedUnit (nbuAt s (bankNo k p l)) := units l hl
  rw [unit]
  refine ⟨resumedUnit_awake _, ?_, ?_⟩ <;> unfold resumedUnit <;> split <;> rfl

theorem workEnd_ran {count entry : Nat} {rc : Bool} {ps : List Word} {base : Nat} (at' : Outstanding s n c b core slot g)
    (work : c.work = .nbRun [] [] count entry rc ps base) :
    (workEnd n c peers tree s).mem = s.mem ∧ FlagFalls (workEnd n c peers tree s) n c b core slot g 0 false b.scratch := by
  have stands := stands_of_outstanding at'
  have ends : workEnd n c peers tree s = finishCommand s n { c with work := .nbRun [] [] count entry rc ps base } 0 false := by
    simp only [workEnd, work, nbProceed, nbCanComplete, nbComplete, List.isEmpty_nil, Bool.and_self, if_true]
  rw [ends, ← work]
  exact ⟨view_finishCommand State.mem (fun _ => rfl) stands.group n 0 false, flagFalls_finishCommand stands rfl n 0 false⟩

end

/-! Events of near-bank units (R144, R153, R155, R402, R404, R405). -/

section
variable {s : State} {bank : Nat} {r : RunView}

/-- The state in which a unit's row is open at a place. -/
def rowOpened (s : State) (bank : Nat) (x : Nbu) (r : RunView) (pa : Nat) : State :=
  countActivation (setNbu { s with cmds := modifyAt s.cmds r.id (fun c => c.opened s.dt) } bank
    { x with openRow := some pa, bankFree := s.dt + rowTicks }) bank pa

theorem rowOpened_spec (s : State) (bank : Nat) (x : Nbu) (r : RunView) (pa : Nat) :
    let t := rowOpened s bank x r pa
    (nbuAt t bank).openRow = some pa ∧ t.mem = s.mem ∧
      getAt 0 t.activations (rowKey bank pa) = getAt 0 s.activations (rowKey bank pa) + 1 := by
  refine ⟨?_, rfl, ?_⟩
  · exact congrArg Nbu.openRow (nbuAt_setNbu_same _ bank { x with openRow := some pa, bankFree := s.dt + rowTicks })
  · rw [rowOpened, countActivation, getAt_putAt_same]
    rfl

theorem openRow_eq {x : Nbu} {ia pa cls owner size : Nat} (range : rangeIa r.cmd.dom.ranges 0 (r.base + x.row * rowBytes) = some ia)
    (low : ia / 2 ^ 48 < 12) (page : place s r.part r.cmd.dom.id ia = .at (bankStack bank) pa cls owner size) (whole : size = rowBytes)
    (na : isNa s cls = true) : openRow s bank x r = rowOpened s bank x r pa := by
  have fits : (bankStack bank == bankStack bank && size == rowBytes && isNa s cls && decide (ia / 2 ^ 48 < 12)) = true := by
    simp only [na, low, whole, beq_self_eq_true, decide_true, Bool.and_self]
  -- The definition is unfolded as a constant: applied, it would make the kernel compute the row's address in unary.
  have body : openRow = openRow := rfl
  conv at body => rhs; delta openRow
  rw [body]
  simp only [range, page]
  exact if_pos fits

theorem exec_nbuResume {k : Nat} (cur : s.cur = .outside) (run : runView s (nbuAt s bank) = some r)
    (served : (nbuAt s bank).boundary = some (k + 1)) (awake : (nbuAt s bank).suspended = false) (closed : (nbuAt s bank).openRow = none)
    (stays : stopPending s (bankStack bank) (bankPch bank) = false) (turn : unitResumes s bank (k + 1) = true) :
    exec (.nbuResume bank) s = .next (openRow s bank (nbuAt s bank) r) := by
  show execNbuResume bank s = _
  rw [execNbuResume, eventOp_outside _ cur]
  simp only [run, served]
  exact congrArg _ (if_neg (by simp [awake, closed, stays, turn]))

/-! A unit that stops. -/

theorem lookupAt_of_runView {x : Nbu} (run : runView s x = some r) : lookupAt s.cmds r.id = some r.cmd := by
  unfold runView at run
  split at run
  · cases run
  · split at run
    · cases run
    · next id _ c here =>
      split at run
      · cases run
        exact here
      · cases run

theorem performVisit_cmds (s : State) (bank : Nat) (x : Nbu) (r : RunView) (pa : Nat) : (performVisit s bank x r pa).cmds = s.cmds :=
  foldl_view State.cmds (fun s k => by exact writePhys_cmds ..) x.columns s

theorem lookupAt_closed {x : Nbu} {c : Cmd} {pa : Nat} (bank : Nat) (here : lookupAt s.cmds r.id = some c) :
    lookupAt (modifyAt (performVisit s bank x r pa).cmds r.id (fun c => c.closed s.dt bank (pa / 2 ^ 21))) r.id =
      some (c.closed s.dt bank (pa / 2 ^ 21)) := by
  rw [lookupAt_modifyAt, if_pos rfl, performVisit_cmds, here]
  rfl

/-- A command that is outstanding stays so when a row of its run closes. -/
theorem closeRow_listed {x : Nbu} {c : Cmd} (here : lookupAt s.cmds r.id = some c) :
    ∃ c', lookupAt (closeRow s bank x r).1.cmds r.id = some c' := by
  unfold closeRow
  split
  · exact ⟨c, here⟩
  · next pa _ =>
    have closed := lookupAt_closed (x := x) (pa := pa) bank here
    dsimp only
    split
    · exact ⟨_, closed⟩
    · exact ⟨_, (lookupAt_modifyAt _ r.id r.id _).trans ((if_pos rfl).trans (congrArg _ closed))⟩

theorem creditRun_cmds (s : State) (c : Cmd) : (creditRun s c).cmds = s.cmds := by
  unfold creditRun
  split
  · split <;> rfl
  · rfl

theorem creditRun_nbus (s : State) (c : Cmd) : (creditRun s c).nbus = s.nbus := by
  unfold creditRun
  split
  · split <;> rfl
  · rfl

/-- A unit whose run is over. -/
def runOver (x : Nbu) : Nbu := { x with cmd := none, boundary := none, lastServed := none, suspended := false }

/-- A run that ends leaves its bank, and its command bears the error mark it ends with. -/
theorem endRun_failed {x : Nbu} {c : Cmd} (here : lookupAt s.cmds r.id = some c) :
    (nbuAt (endRun s bank x r true) bank).cmd = none ∧ (lookupAt (endRun s bank x r true).cmds r.id).map Cmd.err = some true := by
  have listed : lookupAt (setNbu s bank (runOver x)).cmds r.id = some c := here
  rw [runOver] at listed
  unfold endRun
  simp only [listed]
  constructor
  · rw [nbuAt, creditRun_nbus]
    exact congrArg Nbu.cmd (nbuAt_setNbu_same s bank (runOver x))
  · rw [creditRun_cmds, lookupAt_setAt_same]
    simp

theorem exec_visitBound {t0 : Nat} (cur : s.cur = .outside) (run : runView s (nbuAt s bank) = some r)
    (visit : (nbuAt s bank).visit = some t0) (late : t0 + 64 < s.dt) :
    exec (.visitBound bank) s = .next (nbuStop s bank (nbuAt s bank) r) := by
  show execVisitBound bank s = _
  rw [execVisitBound, eventOp_outside _ cur]
  simp only [run, visit, late, if_true]

theorem nbuStop_failed {x : Nbu} {c : Cmd} (here : lookupAt s.cmds r.id = some c) :
    (nbuAt (nbuStop s bank x r) bank).cmd = none ∧ (lookupAt (nbuStop s bank x r).cmds r.id).map Cmd.err = some true := by
  obtain ⟨c', listed⟩ := closeRow_listed (bank := bank) (x := x) here
  exact endRun_failed listed

/-! Refresh (R155, R405). -/

theorem exec_refreshDue {row : Nat} (cur : s.cur = .outside) (exists' : row < Config.rowCount)
    (due : getAt 0 s.credit (bank * 2 ^ 16 + row) + 25600000 ≤ s.dt) : exec (.refreshDue bank row) s = .next
      (if governed s bank then refreshBetween s bank row else { s with credit := putAt 0 s.credit (bank * 2 ^ 16 + row) s.dt }) := by
  show execRefreshDue bank row s = _
  rw [execRefreshDue, eventOp_outside _ cur]
  exact congrArg _ (if_pos ⟨exists', due⟩)

/-- A row that is not open needs no closing. -/
theorem interrupt_closed (closed : (nbuAt s bank).openRow = none) : interrupt s bank = s := by
  unfold interrupt
  dsimp only
  rw [closed]
  split
  · rfl
  · simp

theorem refreshBetween_eq {row k : Nat} (boundary : (nbuAt s bank).boundary = some k) (few : k < 8) (closed : (nbuAt s bank).openRow = none)
    (ready : (nbuAt s bank).bankFree ≤ s.dt) (whole : lineUnserved s bank = false) : refreshBetween s bank row =
      setNbu { s with credit := putAt 0 s.credit (bank * 2 ^ 16 + row) s.dt } bank
        { nbuAt s bank with boundary := some (k + 1), lastServed := none, bankFree := s.dt + 2 * rowTicks } := by
  unfold refreshBetween
  rw [interrupt_closed closed]
  simp only [boundary]
  exact if_pos ⟨few, by rw [closed]; rfl, ready, by rw [whole]; rfl⟩

/-! Suspended runs of a launch (R404). -/

theorem mem_distinct_of_mem {l : List Nat} {x : Nat} (h : x ∈ l) : x ∈ distinct l := by
  refine foldl_reaches (fun acc : List Nat => x ∈ acc) (fun acc y hx => ?_) h (fun acc => ?_) []
  · split
    · exact hx
    · exact List.mem_append_left _ hx
  · split
    · next hc => exact List.contains_iff_mem.1 hc
    · exact List.mem_append_right _ List.mem_cons_self

/-- The pseudo-channels in normal mode that a flush lets compute. -/
def flushedPchs (s : State) (launch : Nat) : List Nat := (suspendedPchs s launch).filter (fun k => !inCompute s (k / 64) (k % 64))

theorem mem_flushedPchs {launch : Nat} {x : Nbu} (listed : (bank, x) ∈ s.nbus) (suspended : x.suspended = true)
    (own : runOfLaunch s bank launch = true) (normal : inCompute s (bankStack bank) (bankPch bank) = false) :
    bank / 32 ∈ flushedPchs s launch := by
  have stack : bank / 32 / 64 = bankStack bank := by unfold bankStack; omega
  refine List.mem_filter.2 ⟨mem_distinct_of_mem (List.mem_map.2 ⟨(bank, x), List.mem_filter.2 ⟨listed, ?_⟩, rfl⟩), ?_⟩
  · simp only [suspended, own, Bool.and_self]
  · rw [stack]
    exact congrArg not normal

/-- A pseudo-channel computes, and the unit of a bank of it is awake. -/
def Awake (bank : Nat) (s : State) : Prop := inCompute s (bankStack bank) (bankPch bank) = true ∧ (nbuAt s bank).suspended = false

theorem awake_switchMode (stack pch : Nat) (h : Awake bank s) : Awake bank (switchMode s stack pch true) := by
  obtain ⟨mode, awake⟩ := h
  constructor
  · rw [inCompute, computeMode_switchMode, getAt_putAt]
    split
    · rfl
    · exact mode
  · rw [nbuAt_switchMode]
    split
    · exact resumedUnit_awake _
    · exact awake

theorem awake_of_switchMode (s : State) (bank : Nat) : Awake bank (switchMode s (bank / 32 / 64) (bank / 32 % 64) true) := by
  have stack : bank / 32 / 64 = bankStack bank := by unfold bankStack; omega
  have number : bankNo (bankStack bank) (bankPch bank) (bank % 32) = bank := by unfold bankNo bankStack bankPch; omega
  have listed : bank ∈ pchBanks (bankStack bank) (bankPch bank) := by
    have h := bankNo_mem (bankStack bank) (bankPch bank) (Nat.mod_lt bank (show 0 < 32 by decide))
    rwa [number] at h
  rw [stack]
  refine ⟨?_, ?_⟩
  · show inCompute (switchMode s (bankStack bank) (bankPch bank) true) (bankStack bank) (bankPch bank) = true
    rw [inCompute, computeMode_switchMode, getAt_putAt_same]
  · show (nbuAt (switchMode s (bankStack bank) (bankPch bank) true) bank).suspended = false
    rw [nbuAt_switchMode, if_pos listed]
    exact resumedUnit_awake _

/-- The state in which the flushed pseudo-channels compute. -/
def flushedState (s : State) (launch : Nat) : State :=
  (flushedPchs s launch).foldl (fun s k => switchMode s (k / 64) (k % 64) true) s

theorem exec_flush {launch : Nat} {l : GraphLaunch} (cur : s.cur = .outside) (here : lookupAt s.launches launch = some l)
    (done : l.done = true) (none' : l.flushed = []) : exec (.suspendedRunFlush launch) s = .next { flushedState s launch with
      launches := setAt (flushedState s launch).launches launch { l with flushed := flushedPchs s launch } } := by
  show execSuspendedRunFlush launch s = _
  rw [execSuspendedRunFlush, eventOp_outside _ cur]
  simp only [here, done, none', List.filter_nil, List.foldl_nil, List.nil_append]
  rfl

theorem flushedState_mem (s : State) (launch : Nat) : (flushedState s launch).mem = s.mem :=
  foldl_view State.mem (fun s k => view_of_offUnits State.mem (fun _ => rfl) (offUnits_switchMode s (k / 64) (k % 64) true)) _ s

theorem awake_flushedState {launch : Nat} (h : bank / 32 ∈ flushedPchs s launch) : Awake bank (flushedState s launch) :=
  foldl_reaches (f := fun s k => switchMode s (k / 64) (k % 64) true) (Awake bank) (fun _ _ ha => awake_switchMode _ _ ha) h
    (fun s => awake_of_switchMode s bank) s

end

/-! The obligation. -/

/-- Settles O47, by what each event comes to: the end of a command is the fall of its flag in a state in which its writes are performed, a
switch of mode changes each unit of its pseudo-channel once, and what fails takes no command but its own and its partner's away. -/
theorem completingEvents : Obligations.CompletingEvents := by
  unfold Obligations.CompletingEvents
  intro i s Q h cur
  cases h with
  | scratch at' time work => exact ⟨_, exec_complete cur at'.here time, workEnd_scratch at' work⟩
  | global at' time work direct spot sync => exact ⟨_, exec_complete cur at'.here time, workEnd_global at' work direct spot sync⟩
  | update at' time work direct spot => exact ⟨_, exec_complete cur at'.here time, workEnd_update at' work direct spot⟩
  | fromHost at' time work up good => exact ⟨_, exec_complete cur at'.here time, workEnd_fromHost at' work up good⟩
  | begins here time work plan all => exact ⟨_, exec_complete cur here time, workEnd_begins work plan all⟩
  | looked here time work found => exact ⟨_, exec_complete cur here time, workEnd_looked work found⟩
  | loaded at' time work turn => exact ⟨_, exec_complete cur at'.here time, workEnd_loaded at' work turn⟩
  | got at' time work turn => exact ⟨_, exec_complete cur at'.here time, workEnd_got at' work turn⟩
  | ran at' time work => exact ⟨_, exec_complete cur at'.here time, workEnd_ran at' work⟩
  | suspends at' time work turn still => exact ⟨_, exec_complete cur at'.here time, workEnd_suspends at' work turn still⟩
  | resumes at' time work turn => exact ⟨_, exec_complete cur at'.here time, workEnd_resumes at' work turn⟩
  | combined at' time work others results => exact ⟨_, exec_complete cur at'.here time, workEnd_combined at' work others results⟩
  | disagrees at' time work others single results =>
    exact ⟨_, exec_complete cur at'.here time, workEnd_disagrees at' work others single results⟩
  | received at' time work self partner other sends sent early sender =>
    exact ⟨_, exec_complete cur at'.here time, workEnd_received at' work self partner sends sent early sender⟩
  | overdue at' coll late single => exact ⟨_, exec_collTimeout cur at'.here coll late, failColl_flagFalls at' single⟩
  | overduePair here coll late partner => exact ⟨_, exec_collTimeout cur here coll late, failColl_pair here partner⟩
  | unreachable =>
    refine ⟨_, exec_unreachable _ cur, fun unsaved => ?_, fun n c here meets => failMeeting_all _ rfl meets (mem_of_lookupAt here)⟩
    exact (foldl_keeps (fun t : State => t.mem = s.mem ∧ t.saved = []) (fun t e ht => by
      obtain ⟨mem, saved⟩ := failMeeting_unsaved (e := e) ht.2
      exact ⟨mem.trans ht.1, saved⟩) s.cmds ⟨rfl, unsaved⟩).1
  | resume run served awake closed stays turn range low page na =>
    refine ⟨_, exec_nbuResume cur run served awake closed stays turn, ?_⟩
    rw [openRow_eq range low page rfl na]
    exact rowOpened_spec ..
  | bound run visit late => exact ⟨_, exec_visitBound cur run visit late, nbuStop_failed (lookupAt_of_runView run)⟩
  | refresh exists' due free =>
    refine ⟨_, exec_refreshDue cur exists' due, ?_⟩
    rw [if_neg (by rw [free]; exact Bool.false_ne_true)]
    exact ⟨rfl, getAt_putAt_same ..⟩
  | refreshBetween exists' due held boundary few closed ready whole =>
    refine ⟨_, exec_refreshDue cur exists' due, ?_⟩
    rw [if_pos held, refreshBetween_eq boundary few closed ready whole]
    exact ⟨rfl, getAt_putAt_same .., congrArg Nbu.boundary (nbuAt_setNbu_same ..)⟩
  | flush here done none' listed own normal number unit =>
    obtain ⟨x, there, rfl⟩ := unit
    obtain ⟨mode, awake⟩ := awake_flushedState (mem_flushedPchs there listed own normal)
    exact ⟨_, exec_flush cur here done none', mode, awake, flushedState_mem s _⟩

end Sys2Proof.Proofs

/-! PROOFS. Requests at their homes, replicas, banks and stacks, and what becomes of those that are lost or late (R88 to R95, R112, R113,
R153, R158, R178, R389, R395). -/

namespace Sys2Proof.Proofs

open Sys2Proof.Machine Sys2Proof.Safety Sys2Proof.Laws

/-! The way of an answer (R171). -/

/-- The partitions and the link ends: what decides whether an answer comes back. -/
def roads (s : State) : Assoc Part × Assoc Dlfw := (s.parts, s.dlfw)

theorem homeDie_congr {s t : State} (h : roads t = roads s) (r : Req) : r.homeDie t = r.homeDie s := by
  have parts : t.parts = s.parts := congrArg Prod.fst h
  simp only [Req.homeDie, Req.stackDie, homeDie, partAt, parts]

theorem coreDie_congr {s t : State} (h : roads t = roads s) (r : Req) : r.coreDie t = r.coreDie s := by
  simp only [Req.coreDie, homeDie_congr h]

theorem linkClosed_congr {s t : State} (h : roads t = roads s) (die peer : Nat) : linkClosed t die peer = linkClosed s die peer := by
  obtain ⟨parts, dlfw⟩ := Prod.mk.inj h
  simp only [linkClosed, partOfDie, parts, dlfw]

/-- No closed end is on the way of an answer: from the stack to home, if it comes from there, and on to an agent that takes it at once. -/
structure WayOpen (s : State) (r : Req) (stack : Option Nat) : Prop where
  toHome : ∀ k, stack = some k → linkClosed s (r.homeDie s) (dieOfStack k) = false
  toCore : r.kind.asked = true → linkClosed s (r.coreDie s) (r.homeDie s) = false

theorem wayOpen_congr {s t : State} {r : Req} {stack : Option Nat} (h : roads t = roads s) (way : WayOpen s r stack) :
    WayOpen t r stack := by
  constructor
  · intro k hk
    rw [linkClosed_congr h, homeDie_congr h]
    exact way.toHome k hk
  · intro hk
    rw [linkClosed_congr h, coreDie_congr h, homeDie_congr h]
    exact way.toCore hk

/-- An answer that does not go to an agent has only the way from the stack to home before it. -/
theorem wayOpen_of_not_asked {s : State} {r : Req} {stack : Nat} (access : r.kind.asked = false)
    (back : linkClosed s (r.homeDie s) (dieOfStack stack) = false) : WayOpen s r (some stack) where
  toHome _ hk := by cases hk; exact back
  toCore asked := by rw [access] at asked; cases asked

theorem passBack_of_wayOpen {s : State} {r : Req} {stack : Option Nat} (way : WayOpen s r stack) (n : Nat) : passBack s n r stack = s := by
  have none' : closedEnd s (stack.toList.map (fun k => (r.homeDie s, dieOfStack k)) ++
      (if r.kind.asked then [(r.coreDie s, r.homeDie s)] else [])) = none := by
    refine List.find?_eq_none.2 fun e he => ?_
    rcases List.mem_append.1 he with h | h
    · obtain ⟨k, hk, rfl⟩ := List.mem_map.1 h
      rw [way.toHome k (Option.mem_toList.1 hk)]
      exact Bool.false_ne_true
    · split at h
      next asked =>
        cases List.mem_singleton.1 h
        rw [way.toCore asked]
        exact Bool.false_ne_true
      · cases h
  simp only [passBack, none']

/-! What is on its way: memory, the numbers that are given out, the requests and the answers. -/

/-- What a statement about a request reads; most of what an access leaves behind keeps it. -/
def traffic (s : State) : List Host.Cell × Nat × Assoc Req × Assoc Reply := (s.mem, s.nextId, s.net, s.replies)

/-- A row that an arrival closes changes its unit alone. -/
theorem interrupt_frame (s : State) (bank : Nat) : ∃ x, interrupt s bank = { s with nbus := x } := by
  unfold interrupt
  dsimp only
  split
  · exact ⟨_, rfl⟩
  · split <;> exact ⟨_, rfl⟩

@[simp] theorem traffic_interrupt (s : State) (bank : Nat) : traffic (interrupt s bank) = traffic s := by
  obtain ⟨x, h⟩ := interrupt_frame s bank
  rw [h]
  rfl

theorem interrupt_l2 (s : State) (bank : Nat) : (interrupt s bank).l2 = s.l2 := by
  obtain ⟨x, h⟩ := interrupt_frame s bank
  rw [h]

/-- What an ordinary request served at its bank changes: the unit's bookkeeping and the count of the row. -/
theorem bankServed_frame (s : State) (bank pa : Nat) (key : Nat × Nat × Nat × Nat) :
    ∃ x y, bankServed s bank pa key = { s with nbus := x, activations := y } := by
  unfold bankServed
  dsimp only
  split
  · split <;> exact ⟨_, _, rfl⟩
  · exact ⟨_, _, rfl⟩

@[simp] theorem traffic_bankServed (s : State) (bank pa : Nat) (key : Nat × Nat × Nat × Nat) :
    traffic (bankServed s bank pa key) = traffic s := by
  obtain ⟨x, y, h⟩ := bankServed_frame s bank pa key
  rw [h]
  rfl

@[simp] theorem roads_bankServed (s : State) (bank pa : Nat) (key : Nat × Nat × Nat × Nat) :
    roads (bankServed s bank pa key) = roads s := by
  obtain ⟨x, y, h⟩ := bankServed_frame s bank pa key
  rw [h]
  rfl

@[simp] theorem traffic_fillXlat (s : State) (stack loc tclass : Nat) : traffic (fillXlat s stack loc tclass) = traffic s := by
  unfold fillXlat
  dsimp only
  split
  · rfl
  · split <;> rfl

@[simp] theorem traffic_placeL1 (s : State) (core ia : Nat) (x : Copy) : traffic (placeL1 s core ia x) = traffic s := by
  unfold placeL1
  dsimp only
  split <;> rfl

@[simp] theorem roads_placeL1 (s : State) (core ia : Nat) (x : Copy) : roads (placeL1 s core ia x) = roads s := by
  unfold placeL1
  dsimp only
  split <;> rfl

@[simp] theorem traffic_noteHome (r : Req) (s : State) : traffic (r.noteHome s) = traffic s :=
  foldl_view traffic (f := fun s t => noteSeen s t r.ia r.size (Seen.ofHome (versionAt s r.part r.ia))) (fun _ _ => rfl) _ _

@[simp] theorem roads_noteHome (r : Req) (s : State) : roads (r.noteHome s) = roads s :=
  foldl_view roads (f := fun s t => noteSeen s t r.ia r.size (Seen.ofHome (versionAt s r.part r.ia))) (fun _ _ => rfl) _ _

@[simp] theorem traffic_holdLine (s : State) (part ia cls owner : Nat) : traffic (holdLine s part ia cls owner) = traffic s := by
  unfold holdLine
  dsimp only
  split <;> rfl

@[simp] theorem roads_holdLine (s : State) (part ia cls owner : Nat) : roads (holdLine s part ia cls owner) = roads s := by
  unfold holdLine
  dsimp only
  split <;> rfl

theorem mem_of_traffic {s t : State} (h : traffic t = traffic s) : t.mem = s.mem := congrArg Prod.fst h

/-! Serving one request leaves the others alone. -/

/-- What serves the request numbered `m`, where that is a read, leaves memory as it was, and every other request with its answer; numbers
are only given out. -/
structure ServesOnly (m : Nat) (s t : State) : Prop where
  mem     : t.mem = s.mem
  next    : s.nextId ≤ t.nextId
  net     : ∀ k, k ≠ m → k < s.nextId → lookupAt t.net k = lookupAt s.net k
  replies : ∀ k, k ≠ m → lookupAt t.replies k = lookupAt s.replies k

theorem ServesOnly.trans {m : Nat} {s t u : State} (h : ServesOnly m s t) (h' : ServesOnly m t u) : ServesOnly m s u where
  mem := h'.mem.trans h.mem
  next := Nat.le_trans h.next h'.next
  net k hk lt := (h'.net k hk (Nat.lt_of_lt_of_le lt h.next)).trans (h.net k hk lt)
  replies k hk := (h'.replies k hk).trans (h.replies k hk)

theorem servesOnly_of_traffic {m : Nat} {s t : State} (h : traffic t = traffic s) : ServesOnly m s t := by
  obtain ⟨mem, next, net, replies⟩ : t.mem = s.mem ∧ t.nextId = s.nextId ∧ t.net = s.net ∧ t.replies = s.replies := by
    simpa only [traffic, Prod.mk.injEq] using h
  exact ⟨mem, next.ge, fun _ _ _ => by rw [net], fun _ _ => by rw [replies]⟩

theorem servesOnly_takeId (m : Nat) (s : State) : ServesOnly m s (takeId s).2 :=
  ⟨rfl, Nat.le_succ _, fun _ _ _ => rfl, fun _ _ => rfl⟩

/-- A request put into the network takes a number that none has yet. -/
theorem servesOnly_sendReq (m : Nat) (s : State) (r : Req) : ServesOnly m s (sendReq s r) :=
  ⟨rfl, Nat.le_succ _, fun _ _ lt => lookupAt_setAt_other _ _ _ _ (Nat.ne_of_lt lt), fun _ _ => rfl⟩

theorem servesOnly_writeBack (m part : Nat) (s : State) (e : Nat × L2Line) : ServesOnly m s (writeBack part s e) := by
  unfold writeBack
  dsimp only
  split
  · exact servesOnly_of_traffic rfl
  · split
    · split
      · exact servesOnly_of_traffic rfl
      · exact (servesOnly_sendReq m s _).trans (servesOnly_of_traffic (traffic_interrupt ..))
    · exact servesOnly_of_traffic rfl

theorem servesOnly_releaseLines (m : Nat) (s : State) (part : Nat) (gone : Nat × L2Line → Bool) :
    ServesOnly m s (releaseLines s part gone) :=
  foldl_keeps (ServesOnly m s) (fun t e h => h.trans (servesOnly_writeBack m part t e)) _ (servesOnly_of_traffic rfl)

theorem servesOnly_takeWay {m part slice line cls w : Nat} {s t : State} (h : takeWay s part slice line cls = some (t, w)) :
    ServesOnly m s t := by
  unfold takeWay at h
  dsimp only at h
  split at h
  · cases h
  · cases h
    exact (servesOnly_releaseLines m s part _).trans (servesOnly_of_traffic rfl)

theorem servesOnly_fillL2 (m : Nat) (s : State) (part ia cls owner : Nat) (write : Bool) :
    ServesOnly m s (fillL2 s part ia cls owner write) := by
  unfold fillL2
  split
  · exact servesOnly_of_traffic rfl
  · dsimp only
    split
    · exact servesOnly_of_traffic rfl
    · split
      · exact servesOnly_of_traffic rfl
      next h => exact (servesOnly_takeWay h).trans (servesOnly_of_traffic rfl)

theorem servesOnly_cacheAccess (m : Nat) (s : State) (part dom ia tclass cls owner : Nat) (write : Bool) :
    ServesOnly m s (cacheAccess s part dom ia tclass cls owner write) := by
  unfold cacheAccess
  dsimp only
  split
  · exact (servesOnly_of_traffic (traffic_fillXlat ..)).trans (servesOnly_fillL2 ..)
  · exact servesOnly_fillL2 ..

theorem servesOnly_fillL1 (m : Nat) (s : State) (r : Req) (stack pa cls owner : Nat) : ServesOnly m s (fillL1 s r stack pa cls owner) := by
  unfold fillL1
  split
  · exact servesOnly_of_traffic rfl
  · split
    · exact servesOnly_of_traffic rfl
    · exact (servesOnly_takeId m s).trans (servesOnly_of_traffic (traffic_placeL1 ..))

theorem servesOnly_answer (s : State) (n : Nat) (r : Req) (k : ReplyKind) (v : Nat) (time err : Option Nat) :
    ServesOnly n s (answer s n r k v time err) := by
  have erased : ∀ j, j ≠ n → lookupAt (eraseAt s.net n) j = lookupAt s.net j := fun j hj => by rw [lookupAt_eraseAt, if_neg hj]
  unfold answer
  split
  · exact ⟨rfl, Nat.le_refl _, fun j hj _ => erased j hj, fun _ _ => rfl⟩
  · split
    · exact ⟨rfl, Nat.le_refl _, fun j hj _ => lookupAt_setAt_other _ _ _ _ hj, fun _ _ => rfl⟩
    · exact ⟨rfl, Nat.le_refl _, fun j hj _ => erased j hj, fun j hj => lookupAt_setAt_other _ _ _ _ hj⟩

theorem servesOnly_failRequest (s : State) (n : Nat) (r : Req) (slot kind : Nat) : ServesOnly n s (failRequest s n r slot kind) :=
  ServesOnly.trans (t := forgetStore (logAccess s r.part r.ia r.dom r.src.core slot kind) n) (servesOnly_of_traffic rfl)
    (servesOnly_answer ..)

theorem servesOnly_loseAnswer (s : State) (n : Nat) (r : Req) (at' : Nat × Nat) : ServesOnly n s (loseAnswer s n r at') :=
  ⟨rfl, Nat.le_refl _, fun _ hj _ => lookupAt_setAt_other _ _ _ _ hj, fun _ hj => (lookupAt_eraseAt ..).trans (if_neg hj)⟩

theorem servesOnly_passBack (s : State) (n : Nat) (r : Req) (stack : Option Nat) : ServesOnly n s (passBack s n r stack) := by
  unfold passBack
  dsimp only
  split
  · exact servesOnly_loseAnswer ..
  · exact servesOnly_of_traffic rfl

/-! What a request does at its home, kind by kind (R94, R102, R268, R270). -/

theorem of_plainRead {k : ReqKind} (h : k.plainRead = true) : k.nearMemory = false ∧ k.asked = false ∧ k.isWrite = false := by
  cases k with
  | load => exact ⟨rfl, rfl, rfl⟩
  | corner => exact ⟨rfl, rfl, rfl⟩
  | _ => cases h

section Perform

variable {s : State} {n : Nat} {r : Req} {stack pa cls owner : Nat}

theorem performRequest_store {v m : Nat} (kind : r.kind = .store v m) : performRequest s n r stack pa cls owner =
    answer (performWrite s (r.src.uid, r.sent) r.part r.ia stack pa cls owner r.size v m n).1 n r .ack (completionTime s r.part r.ia cls)
      (some (completionTime s r.part r.ia cls)) none := by
  simp only [performRequest, kind]
  rfl

theorem performRequest_put {v m : Nat} (kind : r.kind = .put v m) : performRequest s n r stack pa cls owner =
    answer (dropCopies (performWrite s (r.src.uid, 0) r.part r.ia stack pa cls owner r.size v m n).1 r.src.core r.ia) n r .ack
      (completionTime s r.part r.ia cls) (some (completionTime s r.part r.ia cls)) none := by
  simp only [performRequest, kind]
  rfl

/-- What an atomic does: the word that it returns is the old one. -/
theorem performRequest_atom {op : AtomOp} {x y : Word} {reg lane : Nat} (kind : r.kind = .atom op x y reg lane)
    (sound : poisonedAt s (physKey stack pa) r.size = false) : performRequest s n r stack pa cls owner =
    let old := BitVec.ofNat 32 (readLE s.mem (physKey stack pa) r.size)
    answer (r.noteHome (performWrite s (r.src.uid, r.sent) r.part r.ia stack pa cls owner r.size
        (op.result old x y).toNat (ones 4) n).1) n r
      (.lanes [(reg, lane, old)] 0) (completionTime s r.part r.ia cls) (some (completionTime s r.part r.ia cls)) none := by
  simp only [performRequest, kind, sound, Bool.not_false, if_true]
  rfl

theorem performRequest_red {op : RedOp} {x : Dword} {nm : Bool} (kind : r.kind = .red op x nm)
    (sound : poisonedAt s (physKey stack pa) r.size = false) : performRequest s n r stack pa cls owner =
    answer (performWrite s (r.src.uid, r.sent) r.part r.ia stack pa cls owner r.size
        (op.result (readLE s.mem (physKey stack pa) r.size) x) (ones r.size) n).1 n r .ack (completionTime s r.part r.ia cls)
      (some (completionTime s r.part r.ia cls)) none := by
  simp only [performRequest, kind, sound, Bool.not_false, if_true]
  rfl

/-- The state in which an agent's read has been noted, and a fetched tile's line stays at home. -/
def pullNoted (s : State) (r : Req) (code : Bool) (cls owner : Nat) : State :=
  match r.src, code with
  | .seq _ _ _, false => holdLine (r.noteHome s) r.part r.ia cls owner
  | _, _ => r.noteHome s

theorem traffic_pullNoted (s : State) (r : Req) (code : Bool) (cls owner : Nat) : traffic (pullNoted s r code cls owner) = traffic s := by
  unfold pullNoted
  split
  · rw [traffic_holdLine, traffic_noteHome]
  · exact traffic_noteHome r s

theorem roads_pullNoted (s : State) (r : Req) (code : Bool) (cls owner : Nat) : roads (pullNoted s r code cls owner) = roads s := by
  unfold pullNoted
  split
  · rw [roads_holdLine, roads_noteHome]
  · exact roads_noteHome r s

theorem performRequest_pull {code : Bool} (kind : r.kind = .pull code) (sound : poisonedAt s (physKey stack pa) r.size = false) :
    performRequest s n r stack pa cls owner =
      answer (pullNoted s r code cls owner) n r .ack (readLE s.mem (physKey stack pa) r.size) none none := by
  simp only [performRequest, kind, sound, Bool.not_false, if_true]
  rfl

theorem performRequest_plainRead (kind : r.kind.plainRead = true) : performRequest s n r stack pa cls owner =
    if poisonedAt s (physKey stack pa) r.size = false then
      answer (fillL1 (r.noteHome s) r stack pa cls owner) n r (r.kind.answer (readLE s.mem (physKey stack pa) r.size)) 0 none none
    else failRequest s n r r.src.slot 3 := by
  cases hk : r.kind with
  | load => simp only [performRequest, hk, Bool.not_eq_true']
  | corner => simp only [performRequest, hk, Bool.not_eq_true']
  | _ => rw [hk] at kind; cases kind

end Perform
/-! The answer of a request (R94, R98, R111). -/

theorem roads_answer (s : State) (n : Nat) (r : Req) (k : ReplyKind) (v : Nat) (time err : Option Nat) :
    roads (answer s n r k v time err) = roads s := by
  unfold answer
  split
  · rfl
  · split <;> rfl

theorem roads_performWrite (s : State) (writer : Nat × Nat) (part ia stack pa cls owner n val mask id : Nat) :
    roads (performWrite s writer part ia stack pa cls owner n val mask id).1 = roads s := by
  refine (view_of_offCaches roads (fun _ => rfl) (offCaches_fillL2 (bumpVersion _ part ia id) part ia cls owner true)).trans ?_
  obtain ⟨m, p, c, h⟩ := writePhys_frame s writer (physKey stack pa) n val mask
  rw [h]
  rfl

theorem roads_fillL1 (s : State) (r : Req) (stack pa cls owner : Nat) : roads (fillL1 s r stack pa cls owner) = roads s := by
  unfold fillL1
  split
  · rfl
  · split
    · rfl
    · exact roads_placeL1 ..

/-- What stands of a request: memory, the request and its answer. -/
def standing (n : Nat) (s : State) : List Host.Cell × Option Req × Option Reply := (s.mem, lookupAt s.net n, lookupAt s.replies n)

theorem standing_of_traffic {s t : State} (n : Nat) (h : traffic t = traffic s) : standing n t = standing n s := by
  obtain ⟨mem, -, net, replies⟩ : t.mem = s.mem ∧ t.nextId = s.nextId ∧ t.net = s.net ∧ t.replies = s.replies := by
    simpa only [traffic, Prod.mk.injEq] using h
  rw [standing, mem, net, replies, standing]

theorem standing_of_servesOnly {s t : State} {n m : Nat} (h : ServesOnly m s t) (other : n ≠ m) (known : n < s.nextId) :
    standing n t = standing n s := by
  rw [standing, h.mem, h.net n other known, h.replies n other, standing]

section Answer

variable {s : State} {n : Nat} {r : Req} {k : ReplyKind} {v : Nat} {time err : Option Nat}

/-- The answer to a strand or to a context goes back under the request's number. -/
theorem standing_answer (wanted : r.src.isOrphan = false) (access : r.kind.asked = false) :
    standing n (answer s n r k v time err) = (s.mem, none, some ⟨r.src, r.launch, k, time, err, some r⟩) := by
  simp only [standing, answer, wanted, access, Bool.false_eq_true, if_false, lookupAt_eraseAt, lookupAt_setAt_same, if_true]

/-- What an agent asked for it finds at the request. -/
theorem standing_answer_asked (wanted : r.src.isOrphan = false) (access : r.kind.asked = true) :
    standing n (answer s n r k v time err) =
      (s.mem, some { r with state := if err.isSome then .failed else .ready v }, lookupAt s.replies n) := by
  simp only [standing, answer, wanted, access, Bool.false_eq_true, if_false, lookupAt_setAt_same, if_true]

end Answer

/-! Serving a request where it was found (R87, R88, R171, R347). -/

/-- The state in which the access has been noted in the caches beyond the core. -/
def accessed (s : State) (r : Req) (cls owner : Nat) : State := cacheAccess s r.part r.dom r.ia r.tclass cls owner false

theorem offCaches_accessed (s : State) (r : Req) (cls owner : Nat) : offCaches (accessed s r cls owner) = offCaches s :=
  offCaches_cacheAccess ..

theorem roads_accessed (s : State) (r : Req) (cls owner : Nat) : roads (accessed s r cls owner) = roads s :=
  view_of_offCaches roads (fun _ => rfl) (offCaches_accessed s r cls owner)

section Serve

variable {s t : State} {n : Nat} {r : Req} {rep miss : Bool} {stack pa cls owner : Nat}

/-- A replica is made of what a plain read finds only. -/
theorem serveHome_eq (reads : rep = true → r.kind.plainRead = false) : serveHome s n r rep miss stack pa cls owner =
    let t := performRequest (accessed s r cls owner) n r stack pa cls owner
    passBack (if miss then bankServed t (bankOf stack pa) pa (serveKey r) else t) n r (if miss then some stack else none) := by
  have none' : (rep && replicable (accessed s r cls owner) r cls && leasable (accessed s r cls owner) r.part r.ia cls) = false := by
    cases rep with
    | false => rfl
    | true => simp only [replicable, reads rfl, Bool.false_and, Bool.and_false]
  unfold accessed at none'
  simp only [serveHome, none', Bool.false_eq_true, if_false]
  rfl

/-- With the way back open, nothing but the service at the bank follows what the request does. -/
theorem serveHome_of_wayOpen (reads : rep = true → r.kind.plainRead = false)
    (performs : roads (performRequest (accessed s r cls owner) n r stack pa cls owner) = roads s)
    (way : WayOpen s r (if miss then some stack else none)) : serveHome s n r rep miss stack pa cls owner =
      if miss then bankServed (performRequest (accessed s r cls owner) n r stack pa cls owner) (bankOf stack pa) pa (serveKey r)
      else performRequest (accessed s r cls owner) n r stack pa cls owner := by
  rw [serveHome_eq reads]
  refine passBack_of_wayOpen (wayOpen_congr ?_ way) n
  cases miss with
  | false => exact performs
  | true => exact (roads_bankServed ..).trans performs

theorem traffic_serveHome (reads : rep = true → r.kind.plainRead = false)
    (performs : roads (performRequest (accessed s r cls owner) n r stack pa cls owner) = roads s)
    (way : WayOpen s r (if miss then some stack else none)) :
    traffic (serveHome s n r rep miss stack pa cls owner) = traffic (performRequest (accessed s r cls owner) n r stack pa cls owner) := by
  rw [serveHome_of_wayOpen reads performs way]
  cases miss with
  | false => rfl
  | true => exact traffic_bankServed ..

theorem servesOnly_performRequest (kind : r.kind.plainRead = true) : ServesOnly n s (performRequest s n r stack pa cls owner) := by
  rw [performRequest_plainRead kind]
  split
  · exact ((servesOnly_of_traffic (traffic_noteHome r s)).trans (servesOnly_fillL1 ..)).trans (servesOnly_answer ..)
  · exact servesOnly_failRequest ..

theorem servesOnly_serveHome (kind : r.kind.plainRead = true) : ServesOnly n s (serveHome s n r false miss stack pa cls owner) := by
  have performed : ServesOnly n s (performRequest (accessed s r cls owner) n r stack pa cls owner) :=
    (servesOnly_cacheAccess ..).trans (servesOnly_performRequest kind)
  rw [serveHome_eq (rep := false) nofun]
  refine ServesOnly.trans ?_ (servesOnly_passBack ..)
  cases miss with
  | false => exact performed
  | true => exact performed.trans (servesOnly_of_traffic (traffic_bankServed ..))

theorem mem_loadsBeside {e : Nat × Req} (h : e ∈ loadsBeside s n r) :
    e.1 ≠ n ∧ e.2.kind.plainRead = true ∧ r.kind.plainRead = true := by
  have all := (List.mem_filter.1 h).2
  simp only [Bool.and_eq_true, bne_iff_ne] at all
  obtain ⟨⟨⟨⟨⟨other, -⟩, -⟩, -⟩, beside⟩, own⟩ := all
  exact ⟨other, beside, own⟩

/-- The loads that a bank serves with a request are served after it, and leave what stands of it (R88, R347). -/
theorem standing_serveLine (known : n < s.nextId) (reads : rep = true → r.kind.plainRead = false) :
    standing n (serveLine s n r rep stack pa cls owner) = standing n (serveHome s n r rep true stack pa cls owner) := by
  by_cases kind : r.kind.plainRead = true
  case neg =>
    have alone : loadsBeside s n r = [] := List.eq_nil_iff_forall_not_mem.2 fun e he => kind (mem_loadsBeside he).2.2
    rw [serveLine, alone, List.foldl_nil]
  case pos =>
    obtain rfl : rep = false := by
      cases rep with
      | false => rfl
      | true => rw [reads rfl] at kind; cases kind
    have served : n < (serveHome s n r false true stack pa cls owner).nextId := Nat.lt_of_lt_of_le known (servesOnly_serveHome kind).next
    refine (List.foldlRecOn (motive := fun t => standing n t = standing n (serveHome s n r false true stack pa cls owner) ∧
      n < t.nextId) (loadsBeside s n r) _ ⟨rfl, served⟩ fun t ih e he => ?_).1
    obtain ⟨other, beside, -⟩ := mem_loadsBeside he
    have step := servesOnly_serveHome (s := t) (n := e.1) (miss := false) (stack := stack) (pa := pa / 128 * 128 + e.2.ia % 128)
      (cls := cls) (owner := owner) beside
    exact ⟨(standing_of_servesOnly step other.symm ih.2).trans ih.1, Nat.lt_of_lt_of_le ih.2 step.next⟩

end Serve

/-! A request comes to its home (R84, R92, R93, R113, R171, R389). -/

/-- What becomes of a request by what it finds at its page (R178, R383). -/
def foundAt (s : State) (n : Nat) (r : Req) (rep : Bool) (p : Place) : Arrival :=
  match p with
  | .error k => .next (failRequest s n r r.src.slot k)
  | .absent => .absent
  | .park =>
    match r.state with
    | .parked _ _ => .waits
    | _ => .next { (takeId s).2 with net := setAt s.net n { r with state := .parked s.dt s.nextId } }
  | .at stack pa cls owner _ => arriveAt s n r rep stack pa cls owner

section Come

variable {s t : State} {n : Nat} {r : Req} {rep : Bool} {stack pa cls owner size : Nat}

theorem exec_homeRequest (cur : s.cur = .outside) (here : lookupAt s.net n = some r) (coming : r.coming = true)
    (next : arrive s n r rep = .next t) : exec (.homeRequest n rep) s = .next t := by
  show execHomeRequest n rep s = _
  unfold execHomeRequest
  rw [cur]
  simp only [here]
  split
  next at' => simp only [Req.coming, at', Bool.false_eq_true] at coming
  · simp only [coming, if_true, next]

/-- Replicas serve plain reads only (R86). -/
theorem replicaServes_of_not_plainRead (h : r.kind.plainRead = false) : replicaServes s n r = none := by
  unfold replicaServes
  dsimp only
  split
  · rfl
  · simp only [replicable, h, Bool.false_and, Bool.false_eq_true, if_false]

theorem arrive_of_comes (comes : Comes s n r) (reads : rep = true → r.kind.plainRead = false) :
    arrive s n r rep = foundAt s n r rep (homePlace s r.part r.dom r.ia) := by
  have noReplica : (if rep then replicaServes s n r else none) = none := by
    cases rep with
    | false => rfl
    | true => exact replicaServes_of_not_plainRead (reads rfl)
  have fresh : (decide (r.src.core < Config.coreCount) && r.gen != (partAt s r.part).gen) = false := by
    simpa using comes.gen
  have beyond : (r.goesOn s && linkClosed s (r.stackDie s) (r.homeDie s)) = false := by
    cases on : r.goesOn s with
    | false => rfl
    | true => exact comes.beyond on
  simp only [arrive, noReplica, comes.link, comes.order, comes.behind, fresh, beyond, Req.finds, comes.bytes, Bool.or_self,
    Bool.false_eq_true, if_false]
  rfl

theorem exec_of_comes (cur : s.cur = .outside) (comes : Comes s n r) (reads : rep = true → r.kind.plainRead = false)
    (found : foundAt s n r rep (homePlace s r.part r.dom r.ia) = .next t) : exec (.homeRequest n rep) s = .next t :=
  exec_homeRequest cur comes.here comes.coming ((arrive_of_comes comes reads).trans found)

/-! It finds its page, and goes to the base logic, to the bank's queue, or is performed (R96, R97, R112, R113, R153, R178). -/

/-- Whether a request goes on to the stack, as the model computes it. -/
def missed (s : State) (r : Req) (cls : Nat) : Bool :=
  if r.kind.isWrite then writeAtStack s r.part r.dom r.ia cls else atStack s r.part r.dom r.ia cls

theorem missed_iff : missed s r cls = true ↔ Misses s r cls := Iff.rfl

theorem arriveAt_of_finds (finds : Finds s n r stack pa cls owner size) (free : ¬ Misses s r cls → ownQueued s n r = false)
    (link : Misses s r cls ∨ r.kind.nearMemory = true → linkClosed s (dieOfStack stack) (r.homeDie s) = false) :
    arriveAt s n r rep stack pa cls owner =
      if r.kind.nearMemory then .next (forwardNm s n r (bankOf stack pa) pa)
      else if missed s r cls && !bankTakes s (bankOf stack pa) then .next (queueLine s r (bankOf stack pa) pa cls owner)
      else .next (if missed s r cls then serveLine s n r rep stack pa cls owner
        else serveHome s n r rep false stack pa cls owner) := by
  have held : (!missed s r cls && ownQueued s n r) = false := by
    cases hm : missed s r cls with
    | true => rfl
    | false => exact free (by rw [← missed_iff, hm]; exact Bool.false_ne_true)
  have unblocked : ((missed s r cls || r.kind.nearMemory) && linkClosed s (dieOfStack stack) (r.homeDie s)) = false := by
    cases on : missed s r cls || r.kind.nearMemory with
    | false => rfl
    | true => exact link (by rwa [Bool.or_eq_true, missed_iff] at on)
  unfold missed at held unblocked
  simp only [arriveAt, finds.parks, finds.bytes, finds.runs, finds.reads, finds.core, held, Req.forStack, unblocked, Bool.or_false,
    Bool.or_self, Bool.false_and, Bool.false_eq_true, if_false]
  rfl

theorem exec_of_finds (cur : s.cur = .outside) (finds : Finds s n r stack pa cls owner size)
    (reads : rep = true → r.kind.plainRead = false) (arrives : arriveAt s n r rep stack pa cls owner = .next t) :
    exec (.homeRequest n rep) s = .next t :=
  exec_of_comes cur finds.toComes reads (by rw [finds.place]; exact arrives)

/-- A request is performed at home or at its bank: what stands of it then is what it does after the access has been noted. -/
theorem exec_atHome (cur : s.cur = .outside) (home : AtHome s n r stack pa cls owner size)
    (reads : rep = true → r.kind.plainRead = false) (nm : r.kind.nearMemory = false)
    (back : r.kind.asked = true → linkClosed s (r.coreDie s) (r.homeDie s) = false)
    (performs : roads (performRequest (accessed s r cls owner) n r stack pa cls owner) = roads s) :
    ∃ t, exec (.homeRequest n rep) s = .next t ∧
      standing n t = standing n (performRequest (accessed s r cls owner) n r stack pa cls owner) := by
  have arrives := arriveAt_of_finds (rep := rep) home.toFinds home.hit
    (fun h => (home.miss (h.resolve_right (by rw [nm]; exact Bool.false_ne_true))).1)
  rw [nm, if_neg Bool.false_ne_true] at arrives
  cases hm : missed s r cls with
  | false =>
    refine ⟨_, exec_of_finds cur home.toFinds reads (arrives.trans (by rw [hm]; rfl)), ?_⟩
    exact standing_of_traffic n (traffic_serveHome reads performs ⟨nofun, back⟩)
  | true =>
    obtain ⟨-, toHome, ungoverned, unqueued⟩ := home.miss (missed_iff.1 hm)
    have takes : bankTakes s (bankOf stack pa) = true := by rw [bankTakes, ungoverned, unqueued]; rfl
    refine ⟨_, exec_of_finds cur home.toFinds reads (arrives.trans (by rw [hm, takes]; rfl)), ?_⟩
    refine (standing_serveLine home.known reads).trans (standing_of_traffic n (traffic_serveHome reads performs ⟨?_, back⟩))
    rintro k hk
    cases hk
    exact toHome

end Come
/-! What comes back to the requester, and what an agent finds (R94, R98, R111). -/

section Outcome

variable {s x : State} {n : Nat} {r : Req} {rep : Bool} {stack pa cls owner size : Nat} {k : ReplyKind} {v : Nat} {time : Option Nat}

/-- What comes of a request at home whose effect is in `x`: memory is as in `x`, and the answer is on its way. -/
theorem exec_answers (cur : s.cur = .outside) (home : AtHome s n r stack pa cls owner size)
    (reads : rep = true → r.kind.plainRead = false) (nm : r.kind.nearMemory = false) (access : r.kind.asked = false)
    (performs : performRequest (accessed s r cls owner) n r stack pa cls owner = answer x n r k v time none)
    (keeps : roads x = roads (accessed s r cls owner)) :
    ∃ t, exec (.homeRequest n rep) s = .next t ∧ t.mem = x.mem ∧ Answered t n r k time none (some r) := by
  obtain ⟨t, next, stands⟩ := exec_atHome cur home reads nm (fun asked => by rw [access] at asked; cases asked)
    (by rw [performs, roads_answer, keeps, roads_accessed])
  rw [performs, standing_answer home.wanted access, standing, Prod.mk.injEq, Prod.mk.injEq] at stands
  exact ⟨t, next, stands⟩

/-- The same of an access of an agent: what it asked for stands at the request. -/
theorem exec_readies (cur : s.cur = .outside) (home : AgentsHome s n r stack pa cls owner size)
    (reads : rep = true → r.kind.plainRead = false) (nm : r.kind.nearMemory = false) (access : r.kind.asked = true)
    (performs : performRequest (accessed s r cls owner) n r stack pa cls owner = answer x n r k v time none)
    (keeps : roads x = roads (accessed s r cls owner)) :
    ∃ t, exec (.homeRequest n rep) s = .next t ∧ t.mem = x.mem ∧ lookupAt t.net n = some { r with state := .ready v } := by
  obtain ⟨t, next, stands⟩ := exec_atHome cur home.toAtHome reads nm (fun _ => home.back)
    (by rw [performs, roads_answer, keeps, roads_accessed])
  rw [performs, standing_answer_asked home.wanted access, standing, Prod.mk.injEq, Prod.mk.injEq] at stands
  obtain ⟨mem, net, -⟩ := stands
  exact ⟨t, next, mem, net⟩

end Outcome

/-! The access as it was noted finds memory, its poison and the times of home as they were. -/

theorem accessed_mem (s : State) (r : Req) (cls owner : Nat) : (accessed s r cls owner).mem = s.mem := cacheAccess_mem ..

theorem accessed_poisonedAt (s : State) (r : Req) (cls owner key size : Nat) :
    poisonedAt (accessed s r cls owner) key size = poisonedAt s key size :=
  view_of_offCaches (poisonedAt · key size) (fun _ => rfl) (offCaches_accessed s r cls owner)

theorem accessed_completionTime {s : State} {r : Req} {cls : Nat} (sync : isUnsync s (.slice (homeSlice (partAt s r.part) r.ia)) = false)
    (owner : Nat) : completionTime (accessed s r cls owner) r.part r.ia cls = completesAt s r.part r.ia cls :=
  (completionTime_congr (offCaches_accessed s r cls owner) r.part r.ia cls).trans (completionTime_eq sync)

theorem memoryWritten_accessed {s t : State} {r : Req} {cls owner key size val mask : Nat}
    (h : t.mem = writeMasked (accessed s r cls owner).mem key val mask size) : MemoryWritten s t key size val mask :=
  memoryWritten_of_mem (by rw [h, accessed_mem])

/-! Requests at home (R91, R94, R95, R98, R102, R111, R268, R270). -/

section Home

variable {s : State} {n : Nat} {r : Req} {rep : Bool} {stack pa cls owner size : Nat}

theorem store_atHome {v m : Nat} (cur : s.cur = .outside) (home : AtHome s n r stack pa cls owner size) (kind : r.kind = .store v m) :
    ∃ t, exec (.homeRequest n rep) s = .next t ∧ MemoryWritten s t (physKey stack pa) r.size v m ∧
      Answered t n r .ack (some (completesAt s r.part r.ia cls)) none (some r) := by
  obtain ⟨t, next, mem, answered⟩ := exec_answers (rep := rep) cur home (fun _ => by rw [kind]; rfl) (by rw [kind]; rfl)
    (by rw [kind]; rfl) (performRequest_store kind) (roads_performWrite ..)
  rw [accessed_completionTime home.sync] at answered
  exact ⟨t, next, memoryWritten_accessed (mem.trans (performWrite_mem ..)), answered⟩

/-- A load or an element of a lattice read gets what home holds. -/
theorem plainRead_atHome (cur : s.cur = .outside) (home : AtHome s n r stack pa cls owner size) (kind : r.kind.plainRead = true)
    (sound : poisonedAt s (physKey stack pa) r.size = false) : ∃ t, exec (.homeRequest n false) s = .next t ∧ t.mem = s.mem ∧
      Answered t n r (r.kind.answer (readLE s.mem (physKey stack pa) r.size)) none none (some r) := by
  obtain ⟨nm, access, -⟩ := of_plainRead kind
  have performs := performRequest_plainRead (s := accessed s r cls owner) (n := n) (stack := stack) (pa := pa) (cls := cls)
    (owner := owner) kind
  rw [if_pos (by rw [accessed_poisonedAt, sound]), accessed_mem] at performs
  obtain ⟨t, next, mem, answered⟩ := exec_answers (rep := false) cur home nofun nm access performs
    ((roads_fillL1 ..).trans (roads_noteHome ..))
  have filled : ServesOnly n (accessed s r cls owner) (fillL1 (r.noteHome (accessed s r cls owner)) r stack pa cls owner) :=
    (servesOnly_of_traffic (traffic_noteHome ..)).trans (servesOnly_fillL1 ..)
  exact ⟨t, next, mem.trans (filled.mem.trans (accessed_mem ..)), answered⟩

theorem atomic_atHome {op : AtomOp} {x y : Word} {reg lane : Nat} (cur : s.cur = .outside) (home : AtHome s n r stack pa cls owner size)
    (kind : r.kind = .atom op x y reg lane) (word : r.size = 4) (sound : poisonedAt s (physKey stack pa) 4 = false) :
    ∃ t, exec (.homeRequest n rep) s = .next t ∧
      let old := BitVec.ofNat 32 (readLE s.mem (physKey stack pa) 4)
      MemoryWritten s t (physKey stack pa) 4 (op.result old x y).toNat (256 ^ 4 - 1) ∧
      Answered t n r (.lanes [(reg, lane, old)] 0) (some (completesAt s r.part r.ia cls)) none (some r) := by
  obtain ⟨t, next, mem, answered⟩ := exec_answers (rep := rep) cur home (fun _ => by rw [kind]; rfl) (by rw [kind]; rfl)
    (by rw [kind]; rfl) (performRequest_atom kind (by rw [accessed_poisonedAt, word, sound]))
    ((roads_noteHome ..).trans (roads_performWrite ..))
  rw [accessed_completionTime home.sync, accessed_mem, word] at answered
  rw [mem_of_traffic (traffic_noteHome ..), accessed_mem, word] at mem
  exact ⟨t, next, memoryWritten_accessed (mem.trans (performWrite_mem ..)), answered⟩

theorem reduction_atHome {op : RedOp} {x : Dword} (cur : s.cur = .outside) (home : AtHome s n r stack pa cls owner size)
    (kind : r.kind = .red op x false) (sound : poisonedAt s (physKey stack pa) r.size = false) :
    ∃ t, exec (.homeRequest n rep) s = .next t ∧
      MemoryWritten s t (physKey stack pa) r.size (op.result (readLE s.mem (physKey stack pa) r.size) x) (256 ^ r.size - 1) ∧
      Answered t n r .ack (some (completesAt s r.part r.ia cls)) none (some r) := by
  obtain ⟨t, next, mem, answered⟩ := exec_answers (rep := rep) cur home (fun _ => by rw [kind]; rfl) (by rw [kind]; rfl)
    (by rw [kind]; rfl) (performRequest_red kind (by rw [accessed_poisonedAt, sound])) (roads_performWrite ..)
  rw [accessed_completionTime home.sync] at answered
  rw [accessed_mem] at mem
  exact ⟨t, next, memoryWritten_accessed (mem.trans (performWrite_mem ..)), answered⟩

theorem pull_atHome {code : Bool} (cur : s.cur = .outside) (home : AgentsHome s n r stack pa cls owner size) (kind : r.kind = .pull code)
    (sound : poisonedAt s (physKey stack pa) r.size = false) : ∃ t, exec (.homeRequest n false) s = .next t ∧ t.mem = s.mem ∧
      lookupAt t.net n = some { r with state := .ready (readLE s.mem (physKey stack pa) r.size) } := by
  obtain ⟨t, next, mem, ready⟩ := exec_readies (rep := false) cur home nofun (by rw [kind]; rfl) (by rw [kind]; rfl)
    (performRequest_pull kind (by rw [accessed_poisonedAt, sound])) (roads_pullNoted ..)
  rw [accessed_mem] at ready
  rw [mem_of_traffic (traffic_pullNoted ..), accessed_mem] at mem
  exact ⟨t, next, mem, ready⟩

theorem put_atHome {v m : Nat} (cur : s.cur = .outside) (home : AgentsHome s n r stack pa cls owner size) (kind : r.kind = .put v m) :
    ∃ t, exec (.homeRequest n rep) s = .next t ∧ MemoryWritten s t (physKey stack pa) r.size v m ∧
      lookupAt t.net n = some { r with state := .ready (completesAt s r.part r.ia cls) } := by
  obtain ⟨t, next, mem, ready⟩ := exec_readies (rep := rep) cur home (fun _ => by rw [kind]; rfl) (by rw [kind]; rfl)
    (by rw [kind]; rfl) (performRequest_put kind) (roads_performWrite ..)
  rw [accessed_completionTime home.sync] at ready
  exact ⟨t, next, memoryWritten_accessed (mem.trans (performWrite_mem ..)), ready⟩

end Home

/-! Replicas (R86, R97, R175). -/

section Replica

variable {s : State} {n : Nat} {r : Req} {x : Copy}

theorem replicaServes_some (h : replicaServes s n r = some x) : r.kind.plainRead = true ∧
    dtSlice s (replicaSlice r.src.core r.ia) < x.expiry ∧ (r.dom = x.owner ∨ r.dom = 0) := by
  unfold replicaServes at h
  dsimp only at h
  split at h
  · cases h
  · split at h
    next served =>
      cases h
      simp only [Bool.and_eq_true, decide_eq_true_eq, Bool.or_eq_true, beq_iff_eq, replicable] at served
      obtain ⟨⟨⟨⟨⟨⟨⟨⟨plain, -⟩, -⟩, -⟩, -⟩, lives⟩, owner⟩, -⟩, -⟩ := served
      exact ⟨plain, lives, owner⟩
    · cases h

theorem arrive_replica (served : replicaServes s n r = some x) (gen : r.src.core < Config.coreCount → r.gen = (partAt s r.part).gen) :
    arrive s n r true = .next (serveReplica s n r x) := by
  have fresh : (decide (r.src.core < Config.coreCount) && r.gen != (partAt s r.part).gen) = false := by simpa using gen
  simp only [arrive, served, fresh, if_true, Bool.false_eq_true, if_false]

theorem serveReplica_spec (wanted : r.src.isOrphan = false) (plain : r.kind.plainRead = true) :
    (serveReplica s n r x).mem = s.mem ∧ (serveReplica s n r x).l1 = s.l1 ∧
      Answered (serveReplica s n r x) n r (r.kind.answer (x.bytes r.ia r.size)) none none (some r) := by
  obtain ⟨-, access, -⟩ := of_plainRead plain
  have stands := standing_answer (s := noteSeen s r.src r.ia r.size (Seen.ofHome x.ver)) (n := n) (k := r.kind.answer (x.bytes r.ia r.size))
    (v := 0) (time := none) (err := none) wanted access
  rw [standing, Prod.mk.injEq, Prod.mk.injEq] at stands
  obtain ⟨mem, answered⟩ := stands
  refine ⟨mem, ?_, answered⟩
  simp only [serveReplica, answer, wanted, access, Bool.false_eq_true, if_false]
  rfl

end Replica

/-! At a bank and at a stack's base logic (R112, R113, R153, R158). -/

section Bank

variable {s : State} {n : Nat} {r : Req} {rep : Bool} {stack pa cls owner size bank order : Nat}

theorem lookupAt_mapSnd {α : Type} (m : Assoc α) (f : α → α) (k : Nat) :
    lookupAt (m.map (fun e => (e.1, f e.2))) k = (lookupAt m k).map f := by
  induction m with
  | nil => rfl
  | cons e m ih =>
    obtain ⟨j, a⟩ := e
    by_cases h : j = k
    · simp only [List.map_cons, lookupAt, h, if_true, Option.map_some]
    · simp only [List.map_cons, lookupAt, h, if_false, ih]

/-- A request as it stands once the line request of `r` has joined the queue of a bank. -/
def joined (s : State) (r : Req) (bank pa cls owner : Nat) (x : Req) : Req :=
  if x.coming && serveKey x == serveKey r then { x with state := .atBank bank s.nextId (pa / 128 * 128 + x.ia % 128) cls owner } else x

theorem queueLine_eq : queueLine s r bank pa cls owner =
    interrupt { (takeId s).2 with net := s.net.map (fun e => (e.1, joined s r bank pa cls owner e.2)) } bank := rfl

theorem queueLine_spec (here : lookupAt s.net n = some r) (coming : r.coming = true) : (queueLine s r bank pa cls owner).mem = s.mem ∧
    lookupAt (queueLine s r bank pa cls owner).net n =
      some { r with state := .atBank bank s.nextId (pa / 128 * 128 + r.ia % 128) cls owner } := by
  obtain ⟨x, h⟩ := interrupt_frame { (takeId s).2 with net := s.net.map (fun e => (e.1, joined s r bank pa cls owner e.2)) } bank
  rw [queueLine_eq, h]
  refine ⟨rfl, (lookupAt_mapSnd s.net (joined s r bank pa cls owner) n).trans ?_⟩
  rw [here]
  simp only [Option.map_some, joined, coming, beq_self_eq_true, Bool.and_self, if_true]

theorem queued_atBank (cur : s.cur = .outside) (finds : Finds s n r stack pa cls owner size) (plain : r.kind.nearMemory = false)
    (read : r.kind.isWrite = false → rep = false) (miss : Misses s r cls) (link : linkClosed s (dieOfStack stack) (r.homeDie s) = false)
    (held : governed s (bankOf stack pa) = true ∨ queued s (bankOf stack pa) = true) :
    exec (.homeRequest n rep) s = .next (queueLine s r (bankOf stack pa) pa cls owner) := by
  have reads : rep = true → r.kind.plainRead = false := by
    rintro rfl
    refine Bool.eq_false_iff.2 fun reads => ?_
    obtain ⟨-, -, unwritten⟩ := of_plainRead reads
    cases read unwritten
  have waits : bankTakes s (bankOf stack pa) = false := by
    rcases held with h | h <;> simp only [bankTakes, h, Bool.not_true, Bool.false_and, Bool.and_false]
  refine exec_of_finds cur finds reads ((arriveAt_of_finds finds (absurd miss) (fun _ => link)).trans ?_)
  rw [plain, missed_iff.2 miss, waits]
  rfl

theorem exec_atBank (cur : s.cur = .outside) (here : lookupAt s.net n = some r) (at' : r.state = .atBank bank order pa cls owner)
    (turn : bankReady s bank (serveKey r) order = true) (own : r.kind ≠ .writeBack) :
    exec (.homeRequest n rep) s = .next (serveHome s n r rep true (bankStack bank) pa cls owner) := by
  show execHomeRequest n rep s = _
  simp only [execHomeRequest, cur, here, at', turn, own, Bool.not_true, Bool.false_eq_true, if_false]

theorem store_atBank {v m : Nat} (cur : s.cur = .outside) (here : lookupAt s.net n = some r)
    (at' : r.state = .atBank bank order pa cls owner) (kind : r.kind = .store v m) (wanted : r.src.isOrphan = false)
    (turn : bankReady s bank (serveKey r) order = true) (back : linkClosed s (r.homeDie s) (dieOfStack (bankStack bank)) = false)
    (sync : isUnsync s (.slice (homeSlice (partAt s r.part) r.ia)) = false) :
    ∃ t, exec (.homeRequest n rep) s = .next t ∧ MemoryWritten s t (physKey (bankStack bank) pa) r.size v m ∧
      Answered t n r .ack (some (completesAt s r.part r.ia cls)) none (some r) := by
  have access : r.kind.asked = false := by rw [kind]; rfl
  have performs := performRequest_store (s := accessed s r cls owner) (n := n) (stack := bankStack bank) (pa := pa) (cls := cls)
    (owner := owner) kind
  rw [accessed_completionTime sync] at performs
  refine ⟨_, exec_atBank cur here at' turn (by rw [kind]; nofun), ?_⟩
  have stands := standing_of_traffic n (traffic_serveHome (n := n) (rep := rep) (miss := true) (fun _ => by rw [kind]; rfl)
    (by rw [performs, roads_answer, roads_performWrite, roads_accessed])
    (wayOpen_of_not_asked access back))
  rw [performs, standing_answer wanted access, standing, Prod.mk.injEq, Prod.mk.injEq] at stands
  obtain ⟨mem, answered⟩ := stands
  exact ⟨memoryWritten_accessed (mem.trans (performWrite_mem ..)), answered⟩

theorem writeBack_l2 (part : Nat) (s : State) (e : Nat × L2Line) : (writeBack part s e).l2 = s.l2 := by
  unfold writeBack
  dsimp only
  split
  · rfl
  · split
    · split
      · rfl
      · exact interrupt_l2 ..
    · rfl

theorem dropL2_l2 (s : State) (part ia : Nat) : (dropL2 s part ia).l2 = eraseAt s.l2 (sliceKey (homeSlice (partAt s part) ia) ia) :=
  foldl_view State.l2 (writeBack_l2 part) _ _

theorem forwardNm_eq (nm : r.kind.nearMemory = true) : forwardNm s n r bank pa =
    let x := dropL2 s r.part r.ia
    interrupt { (takeId x).2 with net := setAt x.net n { r with state := .atStack bank x.nextId pa } } bank := by
  simp only [forwardNm, nm, if_true]
  rfl

/-- Work for the base logic: home drops its copy of the line, and the reduction takes its place in the queue (R113, R159). -/
theorem forwardNm_spec (nm : r.kind.nearMemory = true) : (forwardNm s n r bank pa).mem = s.mem ∧
    ∃ order, s.nextId ≤ order ∧ lookupAt (forwardNm s n r bank pa).net n = some { r with state := .atStack bank order pa } ∧
      lookupAt (forwardNm s n r bank pa).l2 (sliceKey (homeSlice (partAt s r.part) r.ia) r.ia) = none := by
  have dropped : ServesOnly n s (dropL2 s r.part r.ia) := servesOnly_releaseLines ..
  have gone := dropL2_l2 s r.part r.ia
  rw [forwardNm_eq nm]
  dsimp only
  generalize dropL2 s r.part r.ia = x at dropped gone
  obtain ⟨u, h⟩ := interrupt_frame { (takeId x).2 with net := setAt x.net n { r with state := .atStack bank x.nextId pa } } bank
  rw [h]
  refine ⟨dropped.mem, x.nextId, dropped.next, lookupAt_setAt_same .., ?_⟩
  show lookupAt x.l2 _ = none
  rw [gone, lookupAt_eraseAt, if_pos rfl]

theorem forwarded_atStack {op : RedOp} {x : Dword} (cur : s.cur = .outside) (finds : Finds s n r stack pa cls owner size)
    (kind : r.kind = .red op x true) (free : ¬ Misses s r cls → ownQueued s n r = false)
    (link : linkClosed s (dieOfStack stack) (r.homeDie s) = false) :
    exec (.homeRequest n rep) s = .next (forwardNm s n r (bankOf stack pa) pa) := by
  refine exec_of_finds cur finds (fun _ => by rw [kind]; rfl) ((arriveAt_of_finds finds free (fun _ => link)).trans ?_)
  rw [kind]
  rfl

/-- The reduction at the head of a stack's queue (R113, R158). -/
theorem reduction_atStack {op : RedOp} {x : Dword} {nm : Bool} (cur : s.cur = .outside) (first : firstAtStack s stack = some (n, r))
    (kind : r.kind = .red op x nm) (at' : r.state = .atStack bank order pa) (wanted : r.src.isOrphan = false)
    (turn : bankReady s bank (serveKey r) order = true) (back : linkClosed s (r.homeDie s) (dieOfStack stack) = false)
    (sync : isUnsync s (.slice (homeSlice (partAt s r.part) r.ia)) = false) (sound : poisonedAt s (physKey stack pa) r.size = false) :
    ∃ t, exec (.nmReduction stack) s = .next t ∧
      MemoryWritten s t (physKey stack pa) r.size (op.result (readLE s.mem (physKey stack pa) r.size) x) (256 ^ r.size - 1) ∧
      Answered t n r .ack (some (max (dtSlice s (homeSlice (partAt s r.part) r.ia)) (getAt 0 s.leases (lineKey r.part r.ia)) + 4)) none
        (some r) := by
  have access : r.kind.asked = false := by rw [kind]; rfl
  have time : nmTime s r.part r.ia =
      max (dtSlice s (homeSlice (partAt s r.part) r.ia)) (getAt 0 s.leases (lineKey r.part r.ia)) + 4 := by
    simp only [nmTime, sync, Bool.false_eq_true, if_false]
    rfl
  have worked : stackWork s n r stack pa = answer (performAtBank s (r.src.uid, r.sent) r.part r.ia stack pa r.size
      (op.result (readLE s.mem (physKey stack pa) r.size) x) (ones r.size) n) n r .ack (nmTime s r.part r.ia)
      (some (nmTime s r.part r.ia)) none := by
    simp only [stackWork, kind, sound, Bool.false_eq_true, if_false]
    rfl
  have same : roads (bankServed (stackWork s n r stack pa) bank pa (serveKey r)) = roads s := by
    obtain ⟨m, p, c, h⟩ := writePhys_frame s (r.src.uid, r.sent) (physKey stack pa) r.size
      (op.result (readLE s.mem (physKey stack pa) r.size) x) (ones r.size)
    rw [roads_bankServed, worked, roads_answer, performAtBank, h]
    rfl
  have next : exec (.nmReduction stack) s = .next (bankServed (stackWork s n r stack pa) bank pa (serveKey r)) := by
    show execNmReduction stack s = _
    rw [execNmReduction, eventOp_outside _ cur]
    simp only [first, at', turn, Bool.not_true, Bool.false_eq_true, if_false]
    rw [passBack_of_wayOpen (wayOpen_congr same (wayOpen_of_not_asked access back))]
  have stands := standing_of_traffic n (traffic_bankServed (stackWork s n r stack pa) bank pa (serveKey r))
  rw [worked, standing_answer wanted access, ← worked, time, standing, Prod.mk.injEq, Prod.mk.injEq] at stands
  obtain ⟨mem, answered⟩ := stands
  exact ⟨_, next, memoryWritten_of_mem (mem.trans (writePhys_mem ..)), answered⟩

end Bank

/-! Requests that wait, fail, are late or are lost (R171, R178, R383, R384, R389, R395). -/

section Lost

variable {s : State} {n : Nat} {r : Req}

/-- The next entry of a die's log, or one more overflow (R383). -/
theorem logged_of_logs {t : State} {stack : Nat} {e : LogEntry} (h : t.logs = (logError s stack e).logs) : Logged s t stack e := by
  have entry : getAt ErrorLog.empty t.logs (dieOfStack stack) =
      let l := getAt ErrorLog.empty s.logs (dieOfStack stack)
      if l.entries.length < 64 then { l with entries := l.entries ++ [e] } else { l with ovf := min 65535 (l.ovf + 1) } := by
    rw [h]
    exact getAt_putAt_same ..
  unfold Logged
  rw [entry]
  dsimp only
  split <;> exact ⟨rfl, rfl⟩

theorem answer_logs (s : State) (n : Nat) (r : Req) (k : ReplyKind) (v : Nat) (time err : Option Nat) :
    (answer s n r k v time err).logs = s.logs := by
  unfold answer
  split
  · rfl
  · split <;> rfl

theorem failRequest_logged (slot kind : Nat) : Logged s (failRequest s n r slot kind) (logStack s r.part r.ia)
    ⟨r.ia, r.dom, r.src.core, slot, kind, s.dt⟩ := logged_of_logs (answer_logs ..)

theorem standing_failRequest (slot kind : Nat) (wanted : r.src.isOrphan = false) (access : r.kind.asked = false) :
    standing n (failRequest s n r slot kind) =
      (s.mem, none, some ⟨r.src, r.launch, r.kind.failed, if r.kind.isWrite then some 0 else none, some r.va, some r⟩) :=
  standing_answer wanted access

theorem standing_failRequest_asked (slot kind : Nat) (wanted : r.src.isOrphan = false) (access : r.kind.asked = true) :
    standing n (failRequest s n r slot kind) = (s.mem, some { r with state := .failed }, lookupAt s.replies n) :=
  standing_answer_asked wanted access

theorem failRequest_failed {slot kind : Nat} (wanted : r.src.isOrphan = false) (access : r.kind.asked = false) :
    (failRequest s n r slot kind).mem = s.mem ∧ Failed (failRequest s n r slot kind) n r (some r) := by
  have stands := standing_failRequest (s := s) (n := n) slot kind wanted access
  rwa [standing, Prod.mk.injEq, Prod.mk.injEq] at stands

theorem refused_atHome {k : Nat} (cur : s.cur = .outside) (comes : Comes s n r) (page : homePlace s r.part r.dom r.ia = .error k) :
    exec (.homeRequest n false) s = .next (failRequest s n r r.src.slot k) :=
  exec_of_comes cur comes nofun (by rw [page]; rfl)

theorem parks_atHome (cur : s.cur = .outside) (comes : Comes s n r) (goes : r.state = .inFlight)
    (page : homePlace s r.part r.dom r.ia = .park) : exec (.homeRequest n false) s =
      .next { (takeId s).2 with net := setAt s.net n { r with state := .parked s.dt s.nextId } } := by
  refine exec_of_comes cur comes nofun ?_
  rw [page]
  simp only [foundAt, goes]

theorem exec_requestTimeout (cur : s.cur = .outside) (here : lookupAt s.net n = some r)
    (waits : r.state = .inFlight ∨ r.state = .rehash ∨ r.state = .lost) (wanted : r.src.isOrphan = false)
    (far : r.homeDie s ≠ r.coreDie s ∨ r.stackDie s ≠ r.homeDie s) (late : r.sent + 65536 ≤ s.dt) :
    exec (.requestTimeout n) s = .next (timeOut s n r) := by
  have overdue : r.overdue s = true := by
    simp only [Req.overdue, Req.crosses, Config.replyLimit, late, decide_true, Bool.and_true, Bool.or_eq_true, bne_iff_ne]
    exact far
  show execRequestTimeout n s = _
  rw [execRequestTimeout, eventOp_outside _ cur]
  rcases waits with h | h | h <;>
    simp only [here, overdue, Req.over, h, wanted, Bool.not_true, Bool.or_self, Bool.false_eq_true, if_false]

theorem timeOut_failed (wanted : r.src.isOrphan = false) (access : r.kind.asked = false) :
    (timeOut s n r).mem = s.mem ∧ Failed (timeOut s n r) n r none := by
  have stands := standing_failRequest (s := s) (n := n) r.src.slot 5 wanted access
  rw [standing, Prod.mk.injEq, Prod.mk.injEq] at stands
  obtain ⟨mem, net, replies⟩ := stands
  refine ⟨mem, net, (lookupAt_modifyAt ..).trans ?_⟩
  rw [if_pos rfl, replies]
  rfl

theorem timeOut_failedAgent (wanted : r.src.isOrphan = false) (access : r.kind.asked = true) :
    (timeOut s n r).mem = s.mem ∧ lookupAt (timeOut s n r).net n = some { r with state := .failed } := by
  have stands := standing_failRequest_asked (s := s) (n := n) r.src.slot 5 wanted access
  rw [standing, Prod.mk.injEq, Prod.mk.injEq] at stands
  obtain ⟨mem, net, -⟩ := stands
  exact ⟨mem, net⟩

/-- A closed end drops a request (R171). -/
theorem exec_firewallDrop_request {die peer : Nat} (cur : s.cur = .outside) (here : lookupAt s.net n = some r)
    (goes : r.state = .inFlight) (way : r.homeDie s = die ∧ r.coreDie s = peer ∨
      r.stackDie s = die ∧ r.homeDie s = peer ∧ linkClosed s (r.homeDie s) (r.coreDie s) = false ∧ r.goesOn s = true)
    (closed : linkClosed s die peer = true) : exec (.firewallDrop n die peer) s =
      .next (loseAnswer (forgetStore s n) n r (die, peer)) := by
  show execFirewallDrop n die peer s = _
  rw [execFirewallDrop, eventOp_outside _ cur]
  simp only [closed, Bool.not_true, Bool.false_eq_true, if_false, here]
  refine congrArg _ (if_pos (.inl ⟨goes, ?_⟩))
  simpa only [Bool.or_eq_true, Bool.and_eq_true, beq_iff_eq, Bool.not_eq_true', and_assoc] using way

/-- It drops an answer (R395). -/
theorem exec_firewallDrop_answer {x : Reply} {die peer : Nat} (cur : s.cur = .outside) (here : lookupAt s.replies n = some x)
    (way : x.req = some r) (done : lookupAt s.net n = none) (core : r.coreDie s = die) (home : r.homeDie s = peer)
    (closed : linkClosed s die peer = true) : exec (.firewallDrop n die peer) s = .next (loseAnswer s n r (die, peer)) := by
  show execFirewallDrop n die peer s = _
  rw [execFirewallDrop, eventOp_outside _ cur]
  simp only [closed, Bool.not_true, Bool.false_eq_true, if_false, here, done, Option.bind_some, way]
  exact congrArg _ (if_pos (by simp only [core, home, beq_self_eq_true, Bool.and_self]))

/-- What is dropped is lost, counted and logged. -/
theorem loseAnswer_spec (die peer : Nat) : let t := loseAnswer s n r (die, peer)
    lookupAt t.replies n = none ∧ lookupAt t.net n = some { r with state := .lost } ∧
      (getAt Dlfw.reset t.dlfw (die * 4 + peer)).drops = min 255 ((getAt Dlfw.reset s.dlfw (die * 4 + peer)).drops + 1) ∧
      Logged s t (3 * die) ⟨r.ia, r.dom, r.src.core, r.src.slot, 7, s.dt⟩ :=
  ⟨(lookupAt_eraseAt ..).trans (if_pos rfl), lookupAt_setAt_same .., congrArg Dlfw.drops (getAt_putAt_same ..), logged_of_logs rfl⟩

/-- The state in which the core of a request has taken over the slice map, and sends it again (R389). -/
def sentAgain (s : State) (n : Nat) (r : Req) : State :=
  { setCore s r.src.core ((coreAt s r.src.core).loadMap (partAt s r.part)) with
    net := setAt s.net n { r with gen := (partAt s r.part).gen, state := .inFlight } }

theorem exec_rehashResponse (cur : s.cur = .outside) (here : lookupAt s.net n = some r) (old : r.state = .rehash)
    (back : linkClosed s (r.coreDie s) (r.homeDie s) = false) : exec (.rehashResponse n) s = .next (sentAgain s n r) := by
  show execRehashResponse n s = _
  rw [execRehashResponse, eventOp_outside _ cur]
  simp only [here]
  exact congrArg _ (if_pos ⟨old, by rw [back]; rfl⟩)

end Lost

/-! The obligation. -/

/-- Settles O45, by what serving a request changes: an access noted in the caches beyond the core and the loads that its bank serves with it
leave what stands of the request, so that memory and the answer are those of its kind; what does not get there is parked, logged, answered
as an error or lost. -/
theorem reachingEvents : Obligations.ReachingEvents := by
  unfold Obligations.ReachingEvents
  intro i s Q h cur
  cases h with
  | store home kind => exact store_atHome cur home kind
  | load home kind sound =>
    have served := plainRead_atHome cur home (by rw [kind]; rfl) sound
    rwa [kind] at served
  | corner home kind sound =>
    have served := plainRead_atHome cur home (by rw [kind]; rfl) sound
    rwa [kind] at served
  | atomic home kind word sound => exact atomic_atHome cur home kind word sound
  | reduction home kind sound => exact reduction_atHome cur home kind sound
  | replica here coming wanted served gen =>
    obtain ⟨plain, lives, owner⟩ := replicaServes_some served
    obtain ⟨mem, l1, answered⟩ := serveReplica_spec wanted plain
    exact ⟨_, exec_homeRequest cur here coming (arrive_replica served gen), mem, l1, lives, owner, answered⟩
  | pulled home kind sound => exact pull_atHome cur home kind sound
  | put home kind => exact put_atHome cur home kind
  | queued home plain read miss link held =>
    exact ⟨_, queued_atBank cur home plain read miss link held, queueLine_spec home.here home.coming⟩
  | banked here at' kind wanted turn back known sync => exact store_atBank cur here at' kind wanted turn back sync
  | forwarded home kind free link =>
    exact ⟨_, forwarded_atStack cur home kind free link, forwardNm_spec (by rw [kind]; rfl)⟩
  | parks comes goes page => exact ⟨_, parks_atHome cur comes goes page, rfl, lookupAt_setAt_same ..⟩
  | refused comes access page =>
    obtain ⟨mem, failed⟩ := failRequest_failed comes.wanted access
    exact ⟨_, refused_atHome cur comes page, mem, failed, failRequest_logged ..⟩
  | again here old back =>
    exact ⟨_, exec_rehashResponse cur here old back, rfl, lookupAt_setAt_same .., fun _ hk => lookupAt_setAt_other _ _ _ _ hk,
      congrArg Core.gen (getAt_putAt_same ..), fun _ hk => getAt_putAt_other _ _ _ _ _ hk⟩
  | nearMemory first kind at' wanted turn back sync sound => exact reduction_atStack cur first kind at' wanted turn back sync sound
  | overdue here waits access wanted far late =>
    obtain ⟨mem, failed⟩ := timeOut_failed wanted access
    exact ⟨_, exec_requestTimeout cur here waits wanted far late, mem, failed, failRequest_logged ..⟩
  | agentOverdue here waits access wanted far late =>
    obtain ⟨mem, failed⟩ := timeOut_failedAgent wanted access
    exact ⟨_, exec_requestTimeout cur here (waits.imp_right .inr) wanted far late, mem, failed, failRequest_logged ..⟩
  | dropped here goes way closed =>
    exact ⟨_, exec_firewallDrop_request cur here goes way closed, (loseAnswer_spec ..).2⟩
  | answerDropped here way done core home closed =>
    obtain ⟨gone, lost, -, logged⟩ := loseAnswer_spec ..
    exact ⟨_, exec_firewallDrop_answer cur here way done core home closed, gone, lost, logged⟩

end Sys2Proof.Proofs

/-! PROOFS. The mask stack of a near-bank unit (R323, R326). -/

namespace Sys2Proof.Proofs

open Sys2Proof.Machine Sys2Proof.Safety Sys2Proof.Laws

section Masks
variable {s : State} {bank : Nat} {r : RunView} {i : Instr} {f : NbuView → State → State} {column closing : Bool} {reads : List Nat}

/-- The view in which a unit that is ready carries out its microinstruction, its tick noted. -/
def readyView (s : State) (bank : Nat) (r : RunView) : NbuView := ⟨bank, { nbuAt s bank with lastTick := some s.dt }, r⟩

/-- The unit has gone on to its next word with another mask stack, and stands otherwise as it did. -/
def MasksBecome (s : State) (bank : Nat) (ms : List (BitVec 8)) (x' : Nbu) : Prop :=
  Stepped s bank x' ∧ x'.masks = ms ∧
    { x' with masks := (nbuAt s bank).masks, upc := (nbuAt s bank).upc, lastTick := (nbuAt s bank).lastTick } = nbuAt s bank

/-- An instruction of a unit after which its run is over (R326). -/
def RunStops (i : Instr) (s : State) (bank : Nat) : Prop := ∃ t, exec i s = .next t ∧ (nbuAt t bank).cmd = none

theorem completes_withMasks {ms : List (BitVec 8)} (hi : exec i s = nbuOp column closing reads f s)
    (ready : NbuReady s bank column closing reads r)
    (next : f (readyView s bank r) s = (readyView s bank r).next { (readyView s bank r).x with masks := ms } s) :
    NbuCompletes i s bank (MasksBecome s bank ms) :=
  nbuCompletes_of hi ready next ⟨⟨rfl, rfl⟩, rfl, rfl⟩

theorem runStops_of_nbuStop {x : Nbu} (hi : exec i s = nbuOp column closing reads f s)
    (ready : NbuReady s bank column closing reads r) (stop : f (readyView s bank r) s = nbuStop s bank x r) :
    RunStops i s bank :=
  ⟨nbuStop s bank x r, (hi.trans (nbuOp_ready f ready)).trans (congrArg _ stop),
    (nbuStop_failed (lookupAt_of_runView ready.run)).1⟩

/-! `nif`. -/

theorem exec_nif_pushes (ready : NbuReady s bank false false [] r) (room : (nbuAt s bank).masks.length < 4) :
    NbuCompletes .nif s bank
      (MasksBecome s bank (((nbuAt s bank).top &&& (nbuAt s bank).cond) :: (nbuAt s bank).masks)) :=
  completes_withMasks (show exec .nif s = execNif s from rfl) ready (if_neg (Nat.not_le.mpr room))

theorem exec_nif_full (ready : NbuReady s bank false false [] r) (full : 4 ≤ (nbuAt s bank).masks.length) :
    RunStops .nif s bank :=
  runStops_of_nbuStop (show exec .nif s = execNif s from rfl) ready (if_pos full)

/-! `nelse`. -/

theorem exec_nelse_replaces (ready : NbuReady s bank false false [] r) (entries : (nbuAt s bank).masks ≠ []) :
    NbuCompletes .nelse s bank
      (MasksBecome s bank (((nbuAt s bank).parent &&& ~~~(nbuAt s bank).top) :: (nbuAt s bank).masks.tail)) := by
  obtain ⟨m, ms, masks⟩ := List.exists_cons_of_ne_nil entries
  exact completes_withMasks (show exec .nelse s = execNelse s from rfl) ready (by simp [readyView, Nbu.parent, Nbu.top, masks])

theorem exec_nelse_empty (ready : NbuReady s bank false false [] r) (empty : (nbuAt s bank).masks = []) :
    RunStops .nelse s bank :=
  runStops_of_nbuStop (x := (readyView s bank r).x) (show exec .nelse s = execNelse s from rfl) ready (by simp only [readyView, empty])

/-! `nendif`. -/

theorem exec_nendif_pops (ready : NbuReady s bank false false [] r) (entries : (nbuAt s bank).masks ≠ []) :
    NbuCompletes .nendif s bank (MasksBecome s bank (nbuAt s bank).masks.tail) := by
  obtain ⟨m, ms, masks⟩ := List.exists_cons_of_ne_nil entries
  exact completes_withMasks (show exec .nendif s = execNendif s from rfl) ready (by simp [readyView, masks])

theorem exec_nendif_empty (ready : NbuReady s bank false false [] r) (empty : (nbuAt s bank).masks = []) :
    RunStops .nendif s bank :=
  runStops_of_nbuStop (x := (readyView s bank r).x) (show exec .nendif s = execNendif s from rfl) ready (by simp only [readyView, empty])

end Masks

/-! The obligation. -/

/-- Settles O43, microinstruction by microinstruction: with room on the stack or an entry to use, the unit goes on with the stack that R323
gives; without, it stops, and a stopped unit's run is over. -/
theorem maskStack : Obligations.MaskStack := by
  unfold Obligations.MaskStack
  intro s bank r ready
  exact ⟨exec_nif_pushes ready, exec_nif_full ready,
    fun entries => ⟨exec_nelse_replaces ready entries, exec_nendif_pops ready entries⟩,
    fun empty => ⟨exec_nelse_empty ready empty, exec_nendif_empty ready empty⟩⟩

end Sys2Proof.Proofs
